-- ==== Sys2Proof/Word.lean ====
section
/-! DEFINITION. The word types of the M8 and their plainest arithmetic: bit slices and sign extension (R6, R7). -/

namespace Sys2Proof

abbrev Byte := BitVec 8
abbrev W16 := BitVec 16
abbrev W32 := BitVec 32
abbrev W64 := BitVec 64

/-- Bits [lo + n - 1 : lo] of `x`, as a number (R7). -/
def slice (x lo n : Nat) : Nat := x / 2 ^ lo % 2 ^ n

/-- The low `n` bits of `x` read as two's complement. -/
def sext (n x : Nat) : Int :=
  let y := x % 2 ^ n
  if 2 * y < 2 ^ n then (y : Int) else (y : Int) - 2 ^ n

/-- An integer as an address or a register value modulo 2^n. -/
def wrapNat (n : Nat) (v : Int) : Nat := (v % (2 ^ n : Int)).toNat

/-- Is bit `i` of `x` set? -/
def tb (x i : Nat) : Bool := x / 2 ^ i % 2 == 1

/-- The slots 0 to 31 that a 32-bit participation mask names, in increasing order (R14). -/
def maskSlots (m : W32) : List Nat := (List.range 32).filter (fun i => m.getLsbD i)

/-- The participation mask that names the listed slots. -/
def slotsMask (l : List Nat) : W32 := l.foldl (fun m i => m ||| (1#32 <<< i)) 0#32

end Sys2Proof
end

