-- ==== Sys2Proof/Syntax.lean ====
section
/-! DEFINITION. The steps of the M8: one constructor for every row of the opcode table. The 173 instruction
rows carry the fields of their format (R47); the event rows carry what the event brings from its agent. -/

namespace Sys2Proof

/-- Operand classes (R48). -/
inductive Cls where
  | g | k | p | s
  deriving DecidableEq, Repr

/-- An operand field with its class (R47, R48). `num` is below 256 in an encoded word; a REP advance may carry it
further (R56). -/
structure Opd where
  cls : Cls
  num : Nat
  deriving DecidableEq, Repr

/-- The guard of a word (R46). -/
structure Guard where
  p : BitVec 4
  neg : Bool
  deriving DecidableEq, Repr

/-- Format RRR (R47). -/
structure RRR where
  gd : Guard
  d : Opd
  a : Opd
  b : Opd
  c : Opd
  ty : BitVec 4
  opt : BitVec 5
  deriving DecidableEq, Repr

/-- Format RI17 (R47). -/
structure RI17 where
  gd : Guard
  d : Opd
  a : Opd
  ty : BitVec 4
  opt : BitVec 8
  imm : BitVec 17
  deriving DecidableEq, Repr

/-- Format RI32 (R47). -/
structure RI32 where
  gd : Guard
  k : Bool
  d : Nat
  a : Nat
  imm : BitVec 32
  deriving DecidableEq, Repr

/-- Format MEM (R47). -/
structure MEM where
  gd : Guard
  data : Nat
  base : Nat
  off : BitVec 24
  ty : BitVec 4
  space : BitVec 2
  policy : BitVec 2
  kb : Bool
  deriving DecidableEq, Repr

/-- Format AMO (R47). -/
structure AMO where
  gd : Guard
  d : Nat
  base : Nat
  b : Nat
  c : Nat
  ty : BitVec 4
  order : BitVec 3
  scope : BitVec 3
  kb : Bool
  pad : Bool
  nd : Bool
  rsv : BitVec 4
  deriving DecidableEq, Repr

/-- Format BR (R47); `rsv` holds the reserved bits [40:32]. -/
structure BRF where
  gd : Guard
  link : Nat
  rsv : BitVec 9
  off : BitVec 32
  deriving DecidableEq, Repr

/-- Format ENG (R47). -/
structure ENG where
  gd : Guard
  st : Nat
  src : Nat
  off : BitVec 24
  fa : BitVec 4
  fb : BitVec 4
  rsv : Bool
  deriving DecidableEq, Repr

/-- Format REP (R47); `hi` and `lo` hold the reserved bits [48:22] and [9:0]. -/
structure REPF where
  gd : Guard
  hi : BitVec 27
  count : BitVec 6
  mask : BitVec 4
  step : BitVec 2
  lo : BitVec 10
  deriving DecidableEq, Repr

/-- RDSYS and WRSYS: RRR with the constant field of R50. `rsv` holds [32:29], `bc` the classes of b and c in [12:9],
`hi` holds [8:7]. -/
structure SYSF where
  gd : Guard
  d : Opd
  a : Opd
  rsv : BitVec 4
  num : BitVec 12
  bc : BitVec 4
  hi : BitVec 2
  clr : Bool
  word : BitVec 6
  deriving DecidableEq, Repr

/-- A hint word: opcode 0x2C0 + `op` and every other bit (R52). -/
structure HINTF where
  op : BitVec 5
  rest : BitVec 54
  deriving DecidableEq, Repr

/-- A crew by its residency: cluster, resident team slot, crew in the team (R33). -/
structure CrewRef where
  cl : Nat
  ts : Nat
  cr : Nat
  deriving DecidableEq, Repr

/-- What Occon is given to start a dispatcher or a privileged grid (R411). -/
structure NewGrid where
  cluster : Nat
  entry : W64
  w8 : Nat
  crews : Nat
  banks : Nat
  kinit : List W32
  privileged : Bool
  deriving DecidableEq, Repr

/-- The context registers that the driver supplies (R411). -/
structure CtxRegs where
  objbase : W64
  objcount : Nat
  ptbase : Nat
  privbase : W64
  privmax : W32
  faultbase : W64
  trapvec : W64
  poison : BitVec 2
  deriving DecidableEq, Repr

/-- A new context: registers, root tokens (base and length), and its dispatcher (R411). -/
structure NewCtx where
  ctx : Nat
  regs : CtxRegs
  roots : List (Nat × Nat)
  grid : NewGrid
  deriving DecidableEq, Repr

/-- A root token asked for by the driver: context, region, and the HOST number or none for the dispatcher (R282). -/
structure RootReq where
  ctx : Nat
  base : Nat
  len : Nat
  host : Option Nat
  deriving DecidableEq, Repr

/-- A multicast group entry (R380). -/
structure McastGroup where
  ctx : Nat
  valid : Bool
  wlen : Nat
  ackbase : W64
  acklog : Nat
  wseq : Nat
  members : List Nat
  winva : W64
  deriving DecidableEq, Repr

/-- A binding of a multicast group at a member (R402). -/
structure McastBinding where
  sender : Nat
  group : Nat
  ctx : Nat
  rbase : Nat
  len : Nat
  deriving DecidableEq, Repr

/-- A multicast message: runs of bytes at their window offsets, each byte with the bits of it that are written (R382, R383). -/
structure McastMsg where
  sender : Nat
  group : Nat
  ctx : Nat
  runs : List (Nat × List (Byte × Byte))
  deriving DecidableEq, Repr

/-- A connection-table entry (R390). -/
structure Conn where
  destqp : Nat
  ctx : Nat
  host : Nat
  type : Nat
  retry : Nat
  ackto : Nat
  rkey : W32
  rnrt : Nat
  inq : W64
  outq : W64
  peerip : Nat
  peermac : Nat
  deriving DecidableEq, Repr

/-- A wire value that a part's leader gives the Churns (R234, R406), with what that member states of the operation (R236)
and the sticky bits of the conversions behind it. `ord` counts the COLLs of a member on the communicator. A long part travels in
pieces: `first` is the place of the piece's first value, `total` how many the part has. `fail`: 0 for a part; 1 where its leader has
ended with MISMATCH; 2 where it tells that it has contributed. -/
structure CollPart where
  ctx : Nat
  comm : Nat
  ord : Nat
  tier : Nat
  leader : Nat
  params : List Nat
  record : List Byte
  vals : List W32
  sticky : Nat
  first : Nat
  total : Nat
  fail : Nat
  deriving DecidableEq, Repr

/-- A RoCEv2 packet that the M8 takes or sends, with its queue pair and its packet sequence number (R391, R392). `len` is the
whole length that an RDMA WRITE states; Middle and Last packets carry no address. NAK codes: 0 PSN Sequence Error, 1 Invalid
Request, 2 Remote Access Error, 3 Remote Operational Error. -/
inductive RocePkt where
  | send (qp psn : Nat) (payload : List Byte)
  | sendImm (qp psn : Nat) (imm : W32) (payload : List Byte)
  | writeFirst (qp psn : Nat) (rkey : W32) (va : W64) (len : Nat) (bytes : List Byte)
  | writeMiddle (qp psn : Nat) (bytes : List Byte)
  | writeLast (qp psn : Nat) (bytes : List Byte)
  | writeOnly (qp psn : Nat) (rkey : W32) (va : W64) (len : Nat) (bytes : List Byte)
  | churnWrite (qp psn : Nat) (part : CollPart)
  | churnSend (qp psn : Nat) (part : CollPart)
  | read (qp psn : Nat) (rkey : W32) (va : W64) (n : Nat)
  | cas (qp psn : Nat) (rkey : W32) (va : W64) (compare swap : W64)
  | fadd (qp psn : Nat) (rkey : W32) (va : W64) (v : W64)
  | ack (qp psn : Nat)
  | rnrNak (qp psn timer : Nat)
  | nak (qp psn code : Nat)
  | readResponse (qp psn opcode : Nat) (bytes : List Byte)
  | atomicAck (qp psn : Nat) (old : W64)
  | unsupported (qp psn : Nat) (opcode : Nat)
  deriving DecidableEq, Repr

/-- What an Ethernet frame carries (R389). -/
inductive FrameBody where
  | control
  | roce (p : RocePkt)
  | mka
  | foreign
  deriving DecidableEq, Repr

/-- An Ethernet frame as it arrives: its bytes; whether it passes MACsec's integrity check; the key it is under, by number, and
its packet number; and the retry shim (R389, R397). -/
structure Frame where
  size : Nat
  intact : Bool
  sak : Nat
  pn : Nat
  seq : W32
  ack : W32
  nak : Bool
  shimZero : Bool
  body : FrameBody
  deriving DecidableEq, Repr

/-- A UALink transaction that arrives from a pod member (R399), its answer to a multicast message (R382), or a
staging write of its Churn (R406). -/
inductive PeerTxn where
  | read (member ctx : Nat) (va : W64) (n : Nat)
  | write (member ctx : Nat) (va : W64) (bytes : List (Option Byte))
  | atomic (member ctx : Nat) (va : W64) (op : Nat) (wide : Bool) (v cmp : W64)
  | mcastAnswer (op member code : Nat)
  | staging (part : CollPart)
  deriving DecidableEq, Repr

/-- A LEND or RETN that reaches this device from another (R286). -/
inductive OwnReq where
  | lend (device ctx base len kind : Nat)
  | retnHere (device ctx base len : Nat)
  deriving DecidableEq, Repr

/-- One step of the M8: an instruction word or an event, one constructor per row of the opcode table. -/
inductive Instr where
  -- integer, RRR / RI17 / RI32 (R97)
  | addRRR (f : RRR) | addRI17 (f : RI17) | addRI32 (f : RI32) | addx (f : RRR)
  | subRRR (f : RRR) | subRI17 (f : RI17) | subRI32 (f : RI32) | subx (f : RRR)
  | neg (f : RRR)
  | mulRRR (f : RRR) | mulRI17 (f : RI17) | mulRI32 (f : RI32) | mulh (f : RRR) | mad (f : RRR)
  | abs (f : RRR) | minRRR (f : RRR) | minRI17 (f : RI17) | maxRRR (f : RRR) | maxRI17 (f : RI17)
  | clamp (f : RRR)
  | andRRR (f : RRR) | andRI17 (f : RI17) | andRI32 (f : RI32)
  | orRRR (f : RRR) | orRI17 (f : RI17) | orRI32 (f : RI32)
  | xorRRR (f : RRR) | xorRI17 (f : RI17) | xorRI32 (f : RI32)
  | not (f : RRR)
  | andnRRR (f : RRR) | andnRI17 (f : RI17) | andnRI32 (f : RI32)
  | shlRRR (f : RRR) | shlRI17 (f : RI17) | shrRRR (f : RRR) | shrRI17 (f : RI17)
  | rotRRR (f : RRR) | rotRI17 (f : RI17)
  | clz (f : RRR) | ctz (f : RRR) | popc (f : RRR) | brev (f : RRR)
  | bfxRRR (f : RRR) | bfxRI17 (f : RI17) | bfi (f : RRR) | bswz (f : RRR) | sel (f : RRR)
  | cmpRRR (f : RRR) | cmpRI17 (f : RI17) | mov (f : RRR) | leaRRR (f : RRR) | leaRI17 (f : RI17)
  | movi (f : RI32) | movk (f : RI17)
  | pand (f : RRR) | por (f : RRR) | pxor (f : RRR) | pnot (f : RRR) | p2g (f : RRR) | g2p (f : RRR)
  | div (f : RRR) | rem (f : RRR)
  -- control and fibres (R113)
  | bra (f : BRF) | call (f : BRF) | fspawn (f : BRF) | brx (f : RRR) | callx (f : RRR) | ret (f : RRR)
  | nop (f : RRR) | hint (f : HINTF) | fend (f : RRR) | join (f : RRR) | active (f : RRR) | wait (f : RRR)
  | sleep (f : RRR) | yield (f : RRR) | lwait (f : RRR) | bar (f : RRR) | gbar (f : RRR) | rep (f : REPF)
  | launch (f : ENG)
  | lxch (f : RRR) | vote (f : RRR) | ballot (f : RRR) | redux (f : RRR) | scan (f : RRR) | matchq (f : RRR)
  -- floating point (R143)
  | fadd (f : RRR) | fsub (f : RRR) | fmul (f : RRR) | ffma (f : RRR) | fmin (f : RRR) | fmax (f : RRR)
  | fcmp (f : RRR) | fclass (f : RRR) | frnd (f : RRR) | hpadd (f : RRR) | hpmul (f : RRR) | hpfma (f : RRR)
  | fcvt (f : RRR) | f2i (f : RRR) | i2f (f : RRR) | pack8 (f : RRR) | unpack8 (f : RRR) | mxq (f : RRR)
  | rcp (f : RRR) | rsq (f : RRR) | sqrt (f : RRR) | exp2 (f : RRR) | log2 (f : RRR) | sin (f : RRR)
  | cos (f : RRR) | tanh (f : RRR)
  -- memory, ownership, banks, queues (R159)
  | ld (f : MEM) | st (f : MEM) | lds (f : MEM) | sts (f : MEM) | pref (f : MEM)
  | aadd (f : AMO) | afadd (f : AMO) | amin (f : AMO) | amax (f : AMO) | aand (f : AMO) | aor (f : AMO)
  | axor (f : AMO) | axchg (f : AMO) | acas (f : AMO)
  | fence (f : RRR) | cflush (f : RRR) | cinv (f : RRR) | clock (f : RRR) | cunlock (f : RRR) | cdemote (f : RRR)
  | lend (f : RRR) | retn (f : RRR) | split (f : RRR) | merge (f : RRR) | recallWord (f : RRR) | ownq (f : RRR)
  | bankcfg (f : RRR) | bankq (f : RRR) | qinit (f : RRR) | qpush (f : RRR) | qpop (f : RRR) | qpoll (f : RRR)
  | qwait (f : RRR)
  -- engines (R195)
  | mma (f : ENG) | mbound (f : ENG) | mcensus (f : ENG) | copy (f : ENG) | gxfer (f : ENG) | coll (f : ENG)
  | mlease (f : RRR) | mfree (f : RRR) | mcfg (f : RRR) | mstat (f : RRR) | cwait (f : RRR)
  -- system (R241)
  | trap (f : RRR) | eret (f : RRR) | rdsys (f : SYSF) | rdsysClr (f : SYSF)
  | wrsys (f : SYSF) | wrsysCtxid (f : SYSF) | wrsysThrottle (f : SYSF) | wrsysUrgency (f : SYSF)
  | wrsysCslope (f : SYSF)
  | tlbinv (f : RRR) | tokadm (f : RRR) | ckpt (f : RRR) | halt (f : RRR) | ctxsv (f : RRR) | ctxld (f : RRR)
  -- issue and completion events; an event without a field acts on the crew and batch that `State.issue` names
  | barrierOpen (cl ts id : Nat) | gridBarrierOpen (ctx gid : Nat) | barrierWaveRelease (cl : Nat)
  -- placement, teams, grids, clusters
  | placementReservation (ctx gid : Nat) | teamStart (cl ts : Nat)
  | teamBankRelease (cl ts : Nat) | teamExit (cl ts : Nat) | gridRetire (ctx gid : Nat) | gridKill (ctx gid : Nat)
  | clusterFence (cl : Nat) | clusterReinstate (cl : Nat) | throttleEpochEnd (cl : Nat)
  -- engines
  | engAccept (op : Nat) | leaseGrant (cl : Nat) | leaseExpiry (cl eng : Nat) | mmaStart (cl eng : Nat)
  | tileBlockStart (op : Nat) | kBlockBarrier (op grp : Nat) | engOpStop (op : Nat) | engOpComplete (op : Nat)
  | copyOpStart (die eng : Nat) | copyChunkDone (op chunk : Nat) | srcfreeFall (op : Nat)
  | fifoMessageArrive (op cl : Nat) | collTimeout (op : Nat) | cflushWalkDone (cl walker : Nat)
  -- traps, contexts, tokens
  | pageAnswer (ticket : BitVec 16) (denied : Bool)
  | contextCreate (n : NewCtx) | contextDestroy (ctx : Nat)
  | rootTokenCreate (r : RootReq) | rootTokenDestroy (ctx base : Nat) | tokenReportRequest (ctx : Nat)
  -- errors and reports
  | l1SoftError (cl : Nat) (line : Nat) (correctable : Bool) | l2HbmSoftError (pa : Nat)
  | cxlPoisonResponse (pa : Nat) | l2AccountingRequest (die ctx : Nat)
  -- multicast
  | mcastGroupWrite (g : Nat) (e : McastGroup) | mcastBindingWrite (i : Nat) (e : McastBinding)
  | mcastReceive (m : McastMsg) | mcastMemberTimeout (op member : Nat)
  -- Ethernet
  | connTableWrite (i : Nat) (e : Conn) | sendOnly (i : Nat) (payload : List Byte)
  | sendOnlyWithImmediate (i : Nat) (imm : W32) (payload : List Byte)
  | rdmaWrite (i : Nat) (rkey : W32) (va : W64) (bytes : List Byte)
  | rdmaReadRequest (i : Nat) (rkey : W32) (va : W64) (n : Nat)
  | compareSwap (i : Nat) (rkey : W32) (va : W64) (compare swap : W64)
  | fetchAdd (i : Nat) (rkey : W32) (va : W64) (v : W64)
  | invalidRequest (i : Nat) (opcode : Nat) | ack (i : Nat) | rnrNak (i : Nat) | outqSend (i : Nat)
  | ackTimeout (i : Nat) | connectionClose (i : Nat)
  | frameReceive (f : Frame) | linkNak (ack : W32)
  -- UALink, CXL
  | peerTransaction (t : PeerTxn) | peerRequestTimeout (member : Nat) | peerLost (member : Nat)
  | cxlPortIsolate (port : Nat) | cxlPortReinstate (port : Nat)
  -- bring-up, identity, power
  | packageReset (image : List Byte) | recoveryImageLoad (image : List Byte)
  | attestationRequest (nonce : List Byte) | railPointChange (cl point : Nat)
  | thermalSample (cl : Nat) (trips : BitVec 2)
  | reservedOpcode (w : W64)
  | dispatcherStart (ctx : Nat) (n : NewGrid) | peerOwnershipRequest (r : OwnReq)
  | deviceNumberSet (n : Nat) | l2PoisonListHandoff (die n : Nat)
  -- steps without a field
  | clauseBegin | repeatIssue | fusedIssue | resultWrite | launchStatus | drainRelease | flagCompletion | waitEnd
  | sleepExpiry | groupComplete | convergenceTimeout | qpollRetry | cwaitEnd | bankLossPrecedence
  | issueWaitPrecedence | throttleBypassAdmit | trapEntry
  | placementAttempt | retryControlFrame | linkDown | sakRekey | mkaFrame | ckptComplete | rollbackCommit
  | packageOvertemp | linkUp
  deriving DecidableEq, Repr

end Sys2Proof
end

