-- ==== Sys2Proof/WellFormed.lean ====
section
/-! DEFINITION. Which instructions have a word: every field within the bits of its format (R47), and the row that its
opcode and its system register number give (R50-R52). Whether the fields are legal for the instruction is a check at
issue (R53), which raises ILLEGAL. -/

namespace Sys2Proof

def wfOpd (o : Opd) : Bool := decide (o.num < 256)
def wfRRR (f : RRR) : Bool := wfOpd f.d && wfOpd f.a && wfOpd f.b && wfOpd f.c
def wfRI17 (f : RI17) : Bool := wfOpd f.d && wfOpd f.a
def wfRI32 (f : RI32) : Bool := decide (f.d < 256) && decide (f.a < 256)
def wfMEM (f : MEM) : Bool := decide (f.data < 256) && decide (f.base < 256)
def wfAMO (f : AMO) : Bool := decide (f.d < 256) && decide (f.base < 256) && decide (f.b < 256) && decide (f.c < 256)
def wfBR (f : BRF) : Bool := decide (f.link < 256)
def wfENG (f : ENG) : Bool := decide (f.st < 256) && decide (f.src < 256)
def wfSYS (f : SYSF) : Bool := wfOpd f.d && wfOpd f.a

/-- The system registers whose WRSYS is a row of its own. -/
def ownRow (n : BitVec 12) : Bool := n == 0x001#12 || n == 0x020#12 || n == 0x021#12 || n == 0x022#12

/-- The 167 assigned opcodes (R51), by their runs in the map. -/
def assigned (op : Nat) : Bool :=
  decide (op ≤ 0x01E) || (decide (0x020 ≤ op) && decide (op ≤ 0x025)) || (decide (0x028 ≤ op) && decide (op ≤ 0x029))
  || (decide (0x040 ≤ op) && decide (op ≤ 0x057)) || (decide (0x0C0 ≤ op) && decide (op ≤ 0x0C2))
  || (decide (0x0C8 ≤ op) && decide (op ≤ 0x0D4)) || op == 0x0D8 || op == 0x0E0
  || (decide (0x0E8 ≤ op) && decide (op ≤ 0x0ED)) || (decide (0x100 ≤ op) && decide (op ≤ 0x10B))
  || (decide (0x110 ≤ op) && decide (op ≤ 0x115)) || (decide (0x118 ≤ op) && decide (op ≤ 0x11F))
  || (decide (0x180 ≤ op) && decide (op ≤ 0x184)) || (decide (0x188 ≤ op) && decide (op ≤ 0x190))
  || (decide (0x198 ≤ op) && decide (op ≤ 0x19D)) || (decide (0x1A0 ≤ op) && decide (op ≤ 0x1A5))
  || (decide (0x1A8 ≤ op) && decide (op ≤ 0x1AE)) || (decide (0x200 ≤ op) && decide (op ≤ 0x205))
  || (decide (0x208 ≤ op) && decide (op ≤ 0x20C)) || (decide (0x240 ≤ op) && decide (op ≤ 0x249))

/-- Is the opcode one of the 825 reserved ones (R51)? -/
def reservedOp (op : Nat) : Bool := !assigned op && !(decide (0x2C0 ≤ op) && decide (op ≤ 0x2DF))

/-- Well-formed: the fields fit. An event carries what its agent brings, whatever it is. -/
def wellFormed (i : Instr) : Bool :=
  match i with
  | .addRRR f => wfRRR f
  | .addx f => wfRRR f
  | .subRRR f => wfRRR f
  | .subx f => wfRRR f
  | .neg f => wfRRR f
  | .mulRRR f => wfRRR f
  | .mulh f => wfRRR f
  | .mad f => wfRRR f
  | .abs f => wfRRR f
  | .minRRR f => wfRRR f
  | .maxRRR f => wfRRR f
  | .clamp f => wfRRR f
  | .andRRR f => wfRRR f
  | .orRRR f => wfRRR f
  | .xorRRR f => wfRRR f
  | .not f => wfRRR f
  | .andnRRR f => wfRRR f
  | .shlRRR f => wfRRR f
  | .shrRRR f => wfRRR f
  | .rotRRR f => wfRRR f
  | .clz f => wfRRR f
  | .ctz f => wfRRR f
  | .popc f => wfRRR f
  | .brev f => wfRRR f
  | .bfxRRR f => wfRRR f
  | .bfi f => wfRRR f
  | .bswz f => wfRRR f
  | .sel f => wfRRR f
  | .cmpRRR f => wfRRR f
  | .mov f => wfRRR f
  | .leaRRR f => wfRRR f
  | .pand f => wfRRR f
  | .por f => wfRRR f
  | .pxor f => wfRRR f
  | .pnot f => wfRRR f
  | .p2g f => wfRRR f
  | .g2p f => wfRRR f
  | .div f => wfRRR f
  | .rem f => wfRRR f
  | .addRI17 f => wfRI17 f
  | .subRI17 f => wfRI17 f
  | .mulRI17 f => wfRI17 f
  | .minRI17 f => wfRI17 f
  | .maxRI17 f => wfRI17 f
  | .andRI17 f => wfRI17 f
  | .orRI17 f => wfRI17 f
  | .xorRI17 f => wfRI17 f
  | .andnRI17 f => wfRI17 f
  | .shlRI17 f => wfRI17 f
  | .shrRI17 f => wfRI17 f
  | .rotRI17 f => wfRI17 f
  | .cmpRI17 f => wfRI17 f
  | .bfxRI17 f => wfRI17 f
  | .leaRI17 f => wfRI17 f
  | .movk f => wfRI17 f
  | .movi f => wfRI32 f
  | .addRI32 f => wfRI32 f
  | .subRI32 f => wfRI32 f
  | .mulRI32 f => wfRI32 f
  | .andRI32 f => wfRI32 f
  | .orRI32 f => wfRI32 f
  | .xorRI32 f => wfRI32 f
  | .andnRI32 f => wfRI32 f
  | .bra f => wfBR f
  | .call f => wfBR f
  | .fspawn f => wfBR f
  | .brx f => wfRRR f
  | .callx f => wfRRR f
  | .ret f => wfRRR f
  | .nop f => wfRRR f
  | .fend f => wfRRR f
  | .join f => wfRRR f
  | .active f => wfRRR f
  | .wait f => wfRRR f
  | .sleep f => wfRRR f
  | .yield f => wfRRR f
  | .lwait f => wfRRR f
  | .bar f => wfRRR f
  | .gbar f => wfRRR f
  | .rep _ => true
  | .launch f => wfENG f
  | .lxch f => wfRRR f
  | .vote f => wfRRR f
  | .ballot f => wfRRR f
  | .redux f => wfRRR f
  | .scan f => wfRRR f
  | .matchq f => wfRRR f
  | .fadd f => wfRRR f
  | .fsub f => wfRRR f
  | .fmul f => wfRRR f
  | .ffma f => wfRRR f
  | .fmin f => wfRRR f
  | .fmax f => wfRRR f
  | .fcmp f => wfRRR f
  | .fclass f => wfRRR f
  | .frnd f => wfRRR f
  | .hpadd f => wfRRR f
  | .hpmul f => wfRRR f
  | .hpfma f => wfRRR f
  | .fcvt f => wfRRR f
  | .f2i f => wfRRR f
  | .i2f f => wfRRR f
  | .pack8 f => wfRRR f
  | .unpack8 f => wfRRR f
  | .mxq f => wfRRR f
  | .rcp f => wfRRR f
  | .rsq f => wfRRR f
  | .sqrt f => wfRRR f
  | .exp2 f => wfRRR f
  | .log2 f => wfRRR f
  | .sin f => wfRRR f
  | .cos f => wfRRR f
  | .tanh f => wfRRR f
  | .ld f => wfMEM f
  | .st f => wfMEM f
  | .lds f => wfMEM f
  | .sts f => wfMEM f
  | .pref f => wfMEM f
  | .aadd f => wfAMO f
  | .afadd f => wfAMO f
  | .amin f => wfAMO f
  | .amax f => wfAMO f
  | .aand f => wfAMO f
  | .aor f => wfAMO f
  | .axor f => wfAMO f
  | .axchg f => wfAMO f
  | .acas f => wfAMO f
  | .fence f => wfRRR f
  | .cflush f => wfRRR f
  | .cinv f => wfRRR f
  | .clock f => wfRRR f
  | .cunlock f => wfRRR f
  | .cdemote f => wfRRR f
  | .lend f => wfRRR f
  | .retn f => wfRRR f
  | .split f => wfRRR f
  | .merge f => wfRRR f
  | .recallWord f => wfRRR f
  | .ownq f => wfRRR f
  | .bankcfg f => wfRRR f
  | .bankq f => wfRRR f
  | .qinit f => wfRRR f
  | .qpush f => wfRRR f
  | .qpop f => wfRRR f
  | .qpoll f => wfRRR f
  | .qwait f => wfRRR f
  | .mma f => wfENG f
  | .mbound f => wfENG f
  | .mcensus f => wfENG f
  | .copy f => wfENG f
  | .gxfer f => wfENG f
  | .coll f => wfENG f
  | .mlease f => wfRRR f
  | .mfree f => wfRRR f
  | .mcfg f => wfRRR f
  | .mstat f => wfRRR f
  | .cwait f => wfRRR f
  | .trap f => wfRRR f
  | .eret f => wfRRR f
  | .rdsys f => wfSYS f && !f.clr
  | .rdsysClr f => wfSYS f && f.clr
  | .wrsys f => wfSYS f && !ownRow f.num
  | .wrsysCtxid f => wfSYS f && f.num == 0x001#12
  | .wrsysThrottle f => wfSYS f && f.num == 0x021#12
  | .wrsysUrgency f => wfSYS f && f.num == 0x022#12
  | .wrsysCslope f => wfSYS f && f.num == 0x020#12
  | .tlbinv f => wfRRR f
  | .tokadm f => wfRRR f
  | .ckpt f => wfRRR f
  | .halt f => wfRRR f
  | .ctxsv f => wfRRR f
  | .ctxld f => wfRRR f
  | .hint _ => true
  | .reservedOpcode w => reservedOp (slice w.toNat 54 10)
  | .barrierOpen _ _ _ => true
  | .gridBarrierOpen _ _ => true
  | .barrierWaveRelease _ => true
  | .placementReservation _ _ => true
  | .teamStart _ _ => true
  | .teamBankRelease _ _ => true
  | .teamExit _ _ => true
  | .gridRetire _ _ => true
  | .gridKill _ _ => true
  | .clusterFence _ => true
  | .clusterReinstate _ => true
  | .throttleEpochEnd _ => true
  | .engAccept _ => true
  | .leaseGrant _ => true
  | .leaseExpiry _ _ => true
  | .mmaStart _ _ => true
  | .tileBlockStart _ => true
  | .kBlockBarrier _ _ => true
  | .engOpStop _ => true
  | .engOpComplete _ => true
  | .copyOpStart _ _ => true
  | .copyChunkDone _ _ => true
  | .srcfreeFall _ => true
  | .fifoMessageArrive _ _ => true
  | .collTimeout _ => true
  | .cflushWalkDone _ _ => true
  | .pageAnswer _ _ => true
  | .contextCreate _ => true
  | .contextDestroy _ => true
  | .rootTokenCreate _ => true
  | .rootTokenDestroy _ _ => true
  | .tokenReportRequest _ => true
  | .l1SoftError _ _ _ => true
  | .l2HbmSoftError _ => true
  | .cxlPoisonResponse _ => true
  | .l2AccountingRequest _ _ => true
  | .mcastGroupWrite _ _ => true
  | .mcastBindingWrite _ _ => true
  | .mcastReceive _ => true
  | .mcastMemberTimeout _ _ => true
  | .connTableWrite _ _ => true
  | .sendOnly _ _ => true
  | .sendOnlyWithImmediate _ _ _ => true
  | .rdmaWrite _ _ _ _ => true
  | .rdmaReadRequest _ _ _ _ => true
  | .compareSwap _ _ _ _ _ => true
  | .fetchAdd _ _ _ _ => true
  | .invalidRequest _ _ => true
  | .ack _ => true
  | .rnrNak _ => true
  | .outqSend _ => true
  | .ackTimeout _ => true
  | .connectionClose _ => true
  | .frameReceive _ => true
  | .linkNak _ => true
  | .peerTransaction _ => true
  | .peerRequestTimeout _ => true
  | .peerLost _ => true
  | .cxlPortIsolate _ => true
  | .cxlPortReinstate _ => true
  | .packageReset _ => true
  | .recoveryImageLoad _ => true
  | .attestationRequest _ => true
  | .railPointChange _ _ => true
  | .thermalSample _ _ => true
  | .dispatcherStart _ _ => true
  | .peerOwnershipRequest _ => true
  | .deviceNumberSet _ => true
  | .l2PoisonListHandoff _ _ => true
  | .clauseBegin => true
  | .repeatIssue => true
  | .fusedIssue => true
  | .resultWrite => true
  | .launchStatus => true
  | .drainRelease => true
  | .flagCompletion => true
  | .waitEnd => true
  | .sleepExpiry => true
  | .groupComplete => true
  | .convergenceTimeout => true
  | .qpollRetry => true
  | .cwaitEnd => true
  | .bankLossPrecedence => true
  | .issueWaitPrecedence => true
  | .throttleBypassAdmit => true
  | .trapEntry => true
  | .placementAttempt => true
  | .retryControlFrame => true
  | .linkDown => true
  | .sakRekey => true
  | .mkaFrame => true
  | .ckptComplete => true
  | .rollbackCommit => true
  | .packageOvertemp => true
  | .linkUp => true

end Sys2Proof
end

