-- ==== Sys2Proof/Decode.lean ====
section
/-! DEFINITION. The decoder of instruction words, total on any 64-bit word (R46-R52), and the encoder. -/

namespace Sys2Proof

/-- What a repeat adds to the register fields of its word (R54): zero outside REP. -/
structure Adv where
  d : Nat
  a : Nat
  b : Nat
  c : Nat
  deriving DecidableEq, Repr

/-! Fields of each format (R47). -/

def dGuard (w : Nat) : Guard := { p := BitVec.ofNat 4 (slice w 50 4), neg := tb w 49 }
def dCls (x : Nat) : Cls := if x = 0 then .g else if x = 1 then .k else if x = 2 then .p else .s

def dRRR (v : Adv) (w : Nat) : RRR :=
  { gd := dGuard w, d := { cls := dCls (slice w 15 2), num := slice w 41 8 + v.d },
    a := { cls := dCls (slice w 13 2), num := slice w 33 8 + v.a }, b := { cls := dCls (slice w 11 2), num := slice w 25 8 + v.b },
    c := { cls := dCls (slice w 9 2), num := slice w 17 8 + v.c },
    ty := BitVec.ofNat 4 (slice w 5 4), opt := BitVec.ofNat 5 (slice w 0 5) }

def dRI17 (v : Adv) (w : Nat) : RI17 :=
  { gd := dGuard w, d := { cls := dCls (slice w 31 2), num := slice w 41 8 + v.d },
    a := { cls := dCls (slice w 29 2), num := slice w 33 8 + v.a },
    ty := BitVec.ofNat 4 (slice w 25 4), opt := BitVec.ofNat 8 (slice w 17 8), imm := BitVec.ofNat 17 (slice w 0 17) }

def dRI32 (v : Adv) (w : Nat) : RI32 :=
  { gd := dGuard w, k := tb w 32, d := slice w 41 8 + v.d, a := slice w 33 8 + v.a, imm := BitVec.ofNat 32 (slice w 0 32) }

def dMEM (v : Adv) (w : Nat) : MEM :=
  { gd := dGuard w, data := slice w 41 8 + v.d, base := slice w 33 8 + v.a, off := BitVec.ofNat 24 (slice w 9 24),
    ty := BitVec.ofNat 4 (slice w 5 4), space := BitVec.ofNat 2 (slice w 3 2), policy := BitVec.ofNat 2 (slice w 1 2),
    kb := tb w 0 }

def dAMO (v : Adv) (w : Nat) : AMO :=
  { gd := dGuard w, d := slice w 41 8 + v.d, base := slice w 33 8 + v.a, b := slice w 25 8 + v.b,
    c := slice w 17 8 + v.c,
    ty := BitVec.ofNat 4 (slice w 13 4), order := BitVec.ofNat 3 (slice w 10 3), scope := BitVec.ofNat 3 (slice w 7 3),
    kb := tb w 6, pad := tb w 5, nd := tb w 4, rsv := BitVec.ofNat 4 (slice w 0 4) }

def dBR (w : Nat) : BRF :=
  { gd := dGuard w, link := slice w 41 8, rsv := BitVec.ofNat 9 (slice w 32 9), off := BitVec.ofNat 32 (slice w 0 32) }

def dENG (w : Nat) : ENG :=
  { gd := dGuard w, st := slice w 41 8, src := slice w 33 8, off := BitVec.ofNat 24 (slice w 9 24),
    fa := BitVec.ofNat 4 (slice w 5 4), fb := BitVec.ofNat 4 (slice w 1 4), rsv := tb w 0 }

def dREP (w : Nat) : REPF :=
  { gd := dGuard w, hi := BitVec.ofNat 27 (slice w 22 27), count := BitVec.ofNat 6 (slice w 16 6),
    mask := BitVec.ofNat 4 (slice w 12 4), step := BitVec.ofNat 2 (slice w 10 2), lo := BitVec.ofNat 10 (slice w 0 10) }

def dSYS (v : Adv) (w : Nat) : SYSF :=
  { gd := dGuard w, d := { cls := dCls (slice w 15 2), num := slice w 41 8 + v.d },
    a := { cls := dCls (slice w 13 2), num := slice w 33 8 + v.a }, rsv := BitVec.ofNat 4 (slice w 29 4),
    num := BitVec.ofNat 12 (slice w 17 12), bc := BitVec.ofNat 4 (slice w 9 4), hi := BitVec.ofNat 2 (slice w 7 2),
    clr := tb w 6, word := BitVec.ofNat 6 (slice w 0 6) }

def dHINT (w : Nat) : HINTF := { op := BitVec.ofNat 5 (slice w 54 5), rest := BitVec.ofNat 54 (slice w 0 54) }

/-- The WRSYS row that a register number names. -/
def wrsysOf (f : SYSF) : Instr :=
  if f.num = 0x001#12 then .wrsysCtxid f else if f.num = 0x021#12 then .wrsysThrottle f
  else if f.num = 0x022#12 then .wrsysUrgency f else if f.num = 0x020#12 then .wrsysCslope f else .wrsys f

/-- Opcodes 0x000 to 0x03F (R51). -/
def decode0 (v : Adv) (op w : Nat) : Instr :=
  match op with
  | 0x000 => .addRRR (dRRR v w)
  | 0x001 => .addx (dRRR v w)
  | 0x002 => .subRRR (dRRR v w)
  | 0x003 => .subx (dRRR v w)
  | 0x004 => .neg (dRRR v w)
  | 0x005 => .mulRRR (dRRR v w)
  | 0x006 => .mulh (dRRR v w)
  | 0x007 => .mad (dRRR v w)
  | 0x008 => .abs (dRRR v w)
  | 0x009 => .minRRR (dRRR v w)
  | 0x00A => .maxRRR (dRRR v w)
  | 0x00B => .clamp (dRRR v w)
  | 0x00C => .andRRR (dRRR v w)
  | 0x00D => .orRRR (dRRR v w)
  | 0x00E => .xorRRR (dRRR v w)
  | 0x00F => .not (dRRR v w)
  | 0x010 => .andnRRR (dRRR v w)
  | 0x011 => .shlRRR (dRRR v w)
  | 0x012 => .shrRRR (dRRR v w)
  | 0x013 => .rotRRR (dRRR v w)
  | 0x014 => .clz (dRRR v w)
  | 0x015 => .ctz (dRRR v w)
  | 0x016 => .popc (dRRR v w)
  | 0x017 => .brev (dRRR v w)
  | 0x018 => .bfxRRR (dRRR v w)
  | 0x019 => .bfi (dRRR v w)
  | 0x01A => .bswz (dRRR v w)
  | 0x01B => .sel (dRRR v w)
  | 0x01C => .cmpRRR (dRRR v w)
  | 0x01D => .mov (dRRR v w)
  | 0x01E => .leaRRR (dRRR v w)
  | 0x020 => .pand (dRRR v w)
  | 0x021 => .por (dRRR v w)
  | 0x022 => .pxor (dRRR v w)
  | 0x023 => .pnot (dRRR v w)
  | 0x024 => .p2g (dRRR v w)
  | 0x025 => .g2p (dRRR v w)
  | 0x028 => .div (dRRR v w)
  | 0x029 => .rem (dRRR v w)
  | _ => .reservedOpcode (BitVec.ofNat 64 w)

/-- Opcodes 0x040 to 0x0BF (R51). -/
def decode1 (v : Adv) (op w : Nat) : Instr :=
  match op with
  | 0x040 => .addRI17 (dRI17 v w)
  | 0x041 => .subRI17 (dRI17 v w)
  | 0x042 => .mulRI17 (dRI17 v w)
  | 0x043 => .minRI17 (dRI17 v w)
  | 0x044 => .maxRI17 (dRI17 v w)
  | 0x045 => .andRI17 (dRI17 v w)
  | 0x046 => .orRI17 (dRI17 v w)
  | 0x047 => .xorRI17 (dRI17 v w)
  | 0x048 => .andnRI17 (dRI17 v w)
  | 0x049 => .shlRI17 (dRI17 v w)
  | 0x04A => .shrRI17 (dRI17 v w)
  | 0x04B => .rotRI17 (dRI17 v w)
  | 0x04C => .cmpRI17 (dRI17 v w)
  | 0x04D => .bfxRI17 (dRI17 v w)
  | 0x04E => .leaRI17 (dRI17 v w)
  | 0x04F => .movk (dRI17 v w)
  | 0x050 => .movi (dRI32 v w)
  | 0x051 => .addRI32 (dRI32 v w)
  | 0x052 => .subRI32 (dRI32 v w)
  | 0x053 => .mulRI32 (dRI32 v w)
  | 0x054 => .andRI32 (dRI32 v w)
  | 0x055 => .orRI32 (dRI32 v w)
  | 0x056 => .xorRI32 (dRI32 v w)
  | 0x057 => .andnRI32 (dRI32 v w)
  | _ => .reservedOpcode (BitVec.ofNat 64 w)

/-- Opcodes 0x0C0 to 0x0FF (R51). -/
def decode2 (v : Adv) (op w : Nat) : Instr :=
  match op with
  | 0x0C0 => .bra (dBR w)
  | 0x0C1 => .call (dBR w)
  | 0x0C2 => .fspawn (dBR w)
  | 0x0C8 => .brx (dRRR v w)
  | 0x0C9 => .callx (dRRR v w)
  | 0x0CA => .ret (dRRR v w)
  | 0x0CB => .nop (dRRR v w)
  | 0x0CC => .fend (dRRR v w)
  | 0x0CD => .join (dRRR v w)
  | 0x0CE => .active (dRRR v w)
  | 0x0CF => .wait (dRRR v w)
  | 0x0D0 => .sleep (dRRR v w)
  | 0x0D1 => .yield (dRRR v w)
  | 0x0D2 => .lwait (dRRR v w)
  | 0x0D3 => .bar (dRRR v w)
  | 0x0D4 => .gbar (dRRR v w)
  | 0x0D8 => .rep (dREP w)
  | 0x0E0 => .launch (dENG w)
  | 0x0E8 => .lxch (dRRR v w)
  | 0x0E9 => .vote (dRRR v w)
  | 0x0EA => .ballot (dRRR v w)
  | 0x0EB => .redux (dRRR v w)
  | 0x0EC => .scan (dRRR v w)
  | 0x0ED => .matchq (dRRR v w)
  | _ => .reservedOpcode (BitVec.ofNat 64 w)

/-- Opcodes 0x100 to 0x17F (R51). -/
def decode3 (v : Adv) (op w : Nat) : Instr :=
  match op with
  | 0x100 => .fadd (dRRR v w)
  | 0x101 => .fsub (dRRR v w)
  | 0x102 => .fmul (dRRR v w)
  | 0x103 => .ffma (dRRR v w)
  | 0x104 => .fmin (dRRR v w)
  | 0x105 => .fmax (dRRR v w)
  | 0x106 => .fcmp (dRRR v w)
  | 0x107 => .fclass (dRRR v w)
  | 0x108 => .frnd (dRRR v w)
  | 0x109 => .hpadd (dRRR v w)
  | 0x10A => .hpmul (dRRR v w)
  | 0x10B => .hpfma (dRRR v w)
  | 0x110 => .fcvt (dRRR v w)
  | 0x111 => .f2i (dRRR v w)
  | 0x112 => .i2f (dRRR v w)
  | 0x113 => .pack8 (dRRR v w)
  | 0x114 => .unpack8 (dRRR v w)
  | 0x115 => .mxq (dRRR v w)
  | 0x118 => .rcp (dRRR v w)
  | 0x119 => .rsq (dRRR v w)
  | 0x11A => .sqrt (dRRR v w)
  | 0x11B => .exp2 (dRRR v w)
  | 0x11C => .log2 (dRRR v w)
  | 0x11D => .sin (dRRR v w)
  | 0x11E => .cos (dRRR v w)
  | 0x11F => .tanh (dRRR v w)
  | _ => .reservedOpcode (BitVec.ofNat 64 w)

/-- Opcodes 0x180 to 0x1FF (R51). -/
def decode4 (v : Adv) (op w : Nat) : Instr :=
  match op with
  | 0x180 => .ld (dMEM v w)
  | 0x181 => .st (dMEM v w)
  | 0x182 => .lds (dMEM v w)
  | 0x183 => .sts (dMEM v w)
  | 0x184 => .pref (dMEM v w)
  | 0x188 => .aadd (dAMO v w)
  | 0x189 => .afadd (dAMO v w)
  | 0x18A => .amin (dAMO v w)
  | 0x18B => .amax (dAMO v w)
  | 0x18C => .aand (dAMO v w)
  | 0x18D => .aor (dAMO v w)
  | 0x18E => .axor (dAMO v w)
  | 0x18F => .axchg (dAMO v w)
  | 0x190 => .acas (dAMO v w)
  | 0x198 => .fence (dRRR v w)
  | 0x199 => .cflush (dRRR v w)
  | 0x19A => .cinv (dRRR v w)
  | 0x19B => .clock (dRRR v w)
  | 0x19C => .cunlock (dRRR v w)
  | 0x19D => .cdemote (dRRR v w)
  | 0x1A0 => .lend (dRRR v w)
  | 0x1A1 => .retn (dRRR v w)
  | 0x1A2 => .split (dRRR v w)
  | 0x1A3 => .merge (dRRR v w)
  | 0x1A4 => .recallWord (dRRR v w)
  | 0x1A5 => .ownq (dRRR v w)
  | 0x1A8 => .bankcfg (dRRR v w)
  | 0x1A9 => .bankq (dRRR v w)
  | 0x1AA => .qinit (dRRR v w)
  | 0x1AB => .qpush (dRRR v w)
  | 0x1AC => .qpop (dRRR v w)
  | 0x1AD => .qpoll (dRRR v w)
  | 0x1AE => .qwait (dRRR v w)
  | _ => .reservedOpcode (BitVec.ofNat 64 w)

/-- Opcodes 0x200 to 0x3FF (R51). -/
def decode5 (v : Adv) (op w : Nat) : Instr :=
  match op with
  | 0x200 => .mma (dENG w)
  | 0x201 => .mbound (dENG w)
  | 0x202 => .mcensus (dENG w)
  | 0x203 => .copy (dENG w)
  | 0x204 => .gxfer (dENG w)
  | 0x205 => .coll (dENG w)
  | 0x208 => .mlease (dRRR v w)
  | 0x209 => .mfree (dRRR v w)
  | 0x20A => .mcfg (dRRR v w)
  | 0x20B => .mstat (dRRR v w)
  | 0x20C => .cwait (dRRR v w)
  | 0x240 => .trap (dRRR v w)
  | 0x241 => .eret (dRRR v w)
  | 0x242 => if (dSYS v w).clr then .rdsysClr (dSYS v w) else .rdsys (dSYS v w)
  | 0x243 => wrsysOf (dSYS v w)
  | 0x244 => .tlbinv (dRRR v w)
  | 0x245 => .tokadm (dRRR v w)
  | 0x246 => .ckpt (dRRR v w)
  | 0x247 => .halt (dRRR v w)
  | 0x248 => .ctxsv (dRRR v w)
  | 0x249 => .ctxld (dRRR v w)
  | _ => .reservedOpcode (BitVec.ofNat 64 w)

/-- The step that a 64-bit word names (R51, R52), its register fields advanced: a reserved opcode is a step of its own, which raises ILLEGAL. -/
def decodeAdv (v : Adv) (w : Nat) : Instr :=
  let op := slice w 54 10
  if op < 0x040 then decode0 v op w
  else if op < 0x0C0 then decode1 v op w
  else if op < 0x100 then decode2 v op w
  else if op < 0x180 then decode3 v op w
  else if op < 0x200 then decode4 v op w
  else if 0x2C0 ≤ op && op ≤ 0x2DF then .hint (dHINT w)
  else decode5 v op w

/-- The step that a word names as it stands. -/
def decodeWord (w : Nat) : Instr := decodeAdv { d := 0, a := 0, b := 0, c := 0 } w

/-- Decode bytes: exactly eight make a word, any other number is refused by name. -/
def decodeBytes (l : List Byte) : Except String Instr :=
  if l.length = 8 then .ok (decodeWord (l.foldr (fun b acc => b.toNat + 256 * acc) 0)) else .error "not a word"

/-- The host's probe: the word's bits numbered from bit 0 of its first byte; above `nbits` they are zero. -/
def decodeTableWord (nbits w : Nat) : Option Instr :=
  match decodeBytes ((List.range 8).map (fun i => BitVec.ofNat 8 (w % 2 ^ nbits / 2 ^ (8 * i)))) with
  | .ok i => some i
  | .error _ => none

/-! The encoder. -/

def eGuard (op : Nat) (g : Guard) : Nat := op * 2 ^ 54 + g.p.toNat * 2 ^ 50 + (if g.neg then 1 else 0) * 2 ^ 49
def eCls (c : Cls) : Nat := match c with | .g => 0 | .k => 1 | .p => 2 | .s => 3
def eBit (b : Bool) : Nat := if b then 1 else 0

def eRRR (op : Nat) (f : RRR) : Nat :=
  eGuard op f.gd + f.d.num * 2 ^ 41 + f.a.num * 2 ^ 33 + f.b.num * 2 ^ 25 + f.c.num * 2 ^ 17 + eCls f.d.cls * 2 ^ 15
    + eCls f.a.cls * 2 ^ 13 + eCls f.b.cls * 2 ^ 11 + eCls f.c.cls * 2 ^ 9 + f.ty.toNat * 2 ^ 5 + f.opt.toNat
def eRI17 (op : Nat) (f : RI17) : Nat :=
  eGuard op f.gd + f.d.num * 2 ^ 41 + f.a.num * 2 ^ 33 + eCls f.d.cls * 2 ^ 31 + eCls f.a.cls * 2 ^ 29
    + f.ty.toNat * 2 ^ 25 + f.opt.toNat * 2 ^ 17 + f.imm.toNat
def eRI32 (op : Nat) (f : RI32) : Nat :=
  eGuard op f.gd + f.d * 2 ^ 41 + f.a * 2 ^ 33 + eBit f.k * 2 ^ 32 + f.imm.toNat
def eMEM (op : Nat) (f : MEM) : Nat :=
  eGuard op f.gd + f.data * 2 ^ 41 + f.base * 2 ^ 33 + f.off.toNat * 2 ^ 9 + f.ty.toNat * 2 ^ 5 + f.space.toNat * 2 ^ 3
    + f.policy.toNat * 2 + eBit f.kb
def eAMO (op : Nat) (f : AMO) : Nat :=
  eGuard op f.gd + f.d * 2 ^ 41 + f.base * 2 ^ 33 + f.b * 2 ^ 25 + f.c * 2 ^ 17 + f.ty.toNat * 2 ^ 13
    + f.order.toNat * 2 ^ 10 + f.scope.toNat * 2 ^ 7 + eBit f.kb * 2 ^ 6 + eBit f.pad * 2 ^ 5 + eBit f.nd * 2 ^ 4 + f.rsv.toNat
def eBR (op : Nat) (f : BRF) : Nat := eGuard op f.gd + f.link * 2 ^ 41 + f.rsv.toNat * 2 ^ 32 + f.off.toNat
def eENG (op : Nat) (f : ENG) : Nat :=
  eGuard op f.gd + f.st * 2 ^ 41 + f.src * 2 ^ 33 + f.off.toNat * 2 ^ 9 + f.fa.toNat * 2 ^ 5 + f.fb.toNat * 2 + eBit f.rsv
def eREP (op : Nat) (f : REPF) : Nat :=
  eGuard op f.gd + f.hi.toNat * 2 ^ 22 + f.count.toNat * 2 ^ 16 + f.mask.toNat * 2 ^ 12 + f.step.toNat * 2 ^ 10 + f.lo.toNat
def eSYS (op : Nat) (f : SYSF) : Nat :=
  eGuard op f.gd + f.d.num * 2 ^ 41 + f.a.num * 2 ^ 33 + f.rsv.toNat * 2 ^ 29 + f.num.toNat * 2 ^ 17 + eCls f.d.cls * 2 ^ 15
    + eCls f.a.cls * 2 ^ 13 + f.bc.toNat * 2 ^ 9 + f.hi.toNat * 2 ^ 7 + eBit f.clr * 2 ^ 6 + f.word.toNat
def eHINT (f : HINTF) : Nat := (0x2C0 + f.op.toNat) * 2 ^ 54 + f.rest.toNat

/-- The word of a well-formed instruction; an event has no word. -/
def encode (i : Instr) : Option Nat :=
  match i with
  | .addRRR f => some (eRRR 0x000 f)
  | .addx f => some (eRRR 0x001 f)
  | .subRRR f => some (eRRR 0x002 f)
  | .subx f => some (eRRR 0x003 f)
  | .neg f => some (eRRR 0x004 f)
  | .mulRRR f => some (eRRR 0x005 f)
  | .mulh f => some (eRRR 0x006 f)
  | .mad f => some (eRRR 0x007 f)
  | .abs f => some (eRRR 0x008 f)
  | .minRRR f => some (eRRR 0x009 f)
  | .maxRRR f => some (eRRR 0x00A f)
  | .clamp f => some (eRRR 0x00B f)
  | .andRRR f => some (eRRR 0x00C f)
  | .orRRR f => some (eRRR 0x00D f)
  | .xorRRR f => some (eRRR 0x00E f)
  | .not f => some (eRRR 0x00F f)
  | .andnRRR f => some (eRRR 0x010 f)
  | .shlRRR f => some (eRRR 0x011 f)
  | .shrRRR f => some (eRRR 0x012 f)
  | .rotRRR f => some (eRRR 0x013 f)
  | .clz f => some (eRRR 0x014 f)
  | .ctz f => some (eRRR 0x015 f)
  | .popc f => some (eRRR 0x016 f)
  | .brev f => some (eRRR 0x017 f)
  | .bfxRRR f => some (eRRR 0x018 f)
  | .bfi f => some (eRRR 0x019 f)
  | .bswz f => some (eRRR 0x01A f)
  | .sel f => some (eRRR 0x01B f)
  | .cmpRRR f => some (eRRR 0x01C f)
  | .mov f => some (eRRR 0x01D f)
  | .leaRRR f => some (eRRR 0x01E f)
  | .pand f => some (eRRR 0x020 f)
  | .por f => some (eRRR 0x021 f)
  | .pxor f => some (eRRR 0x022 f)
  | .pnot f => some (eRRR 0x023 f)
  | .p2g f => some (eRRR 0x024 f)
  | .g2p f => some (eRRR 0x025 f)
  | .div f => some (eRRR 0x028 f)
  | .rem f => some (eRRR 0x029 f)
  | .addRI17 f => some (eRI17 0x040 f)
  | .subRI17 f => some (eRI17 0x041 f)
  | .mulRI17 f => some (eRI17 0x042 f)
  | .minRI17 f => some (eRI17 0x043 f)
  | .maxRI17 f => some (eRI17 0x044 f)
  | .andRI17 f => some (eRI17 0x045 f)
  | .orRI17 f => some (eRI17 0x046 f)
  | .xorRI17 f => some (eRI17 0x047 f)
  | .andnRI17 f => some (eRI17 0x048 f)
  | .shlRI17 f => some (eRI17 0x049 f)
  | .shrRI17 f => some (eRI17 0x04A f)
  | .rotRI17 f => some (eRI17 0x04B f)
  | .cmpRI17 f => some (eRI17 0x04C f)
  | .bfxRI17 f => some (eRI17 0x04D f)
  | .leaRI17 f => some (eRI17 0x04E f)
  | .movk f => some (eRI17 0x04F f)
  | .movi f => some (eRI32 0x050 f)
  | .addRI32 f => some (eRI32 0x051 f)
  | .subRI32 f => some (eRI32 0x052 f)
  | .mulRI32 f => some (eRI32 0x053 f)
  | .andRI32 f => some (eRI32 0x054 f)
  | .orRI32 f => some (eRI32 0x055 f)
  | .xorRI32 f => some (eRI32 0x056 f)
  | .andnRI32 f => some (eRI32 0x057 f)
  | .bra f => some (eBR 0x0C0 f)
  | .call f => some (eBR 0x0C1 f)
  | .fspawn f => some (eBR 0x0C2 f)
  | .brx f => some (eRRR 0x0C8 f)
  | .callx f => some (eRRR 0x0C9 f)
  | .ret f => some (eRRR 0x0CA f)
  | .nop f => some (eRRR 0x0CB f)
  | .fend f => some (eRRR 0x0CC f)
  | .join f => some (eRRR 0x0CD f)
  | .active f => some (eRRR 0x0CE f)
  | .wait f => some (eRRR 0x0CF f)
  | .sleep f => some (eRRR 0x0D0 f)
  | .yield f => some (eRRR 0x0D1 f)
  | .lwait f => some (eRRR 0x0D2 f)
  | .bar f => some (eRRR 0x0D3 f)
  | .gbar f => some (eRRR 0x0D4 f)
  | .rep f => some (eREP 0x0D8 f)
  | .launch f => some (eENG 0x0E0 f)
  | .lxch f => some (eRRR 0x0E8 f)
  | .vote f => some (eRRR 0x0E9 f)
  | .ballot f => some (eRRR 0x0EA f)
  | .redux f => some (eRRR 0x0EB f)
  | .scan f => some (eRRR 0x0EC f)
  | .matchq f => some (eRRR 0x0ED f)
  | .fadd f => some (eRRR 0x100 f)
  | .fsub f => some (eRRR 0x101 f)
  | .fmul f => some (eRRR 0x102 f)
  | .ffma f => some (eRRR 0x103 f)
  | .fmin f => some (eRRR 0x104 f)
  | .fmax f => some (eRRR 0x105 f)
  | .fcmp f => some (eRRR 0x106 f)
  | .fclass f => some (eRRR 0x107 f)
  | .frnd f => some (eRRR 0x108 f)
  | .hpadd f => some (eRRR 0x109 f)
  | .hpmul f => some (eRRR 0x10A f)
  | .hpfma f => some (eRRR 0x10B f)
  | .fcvt f => some (eRRR 0x110 f)
  | .f2i f => some (eRRR 0x111 f)
  | .i2f f => some (eRRR 0x112 f)
  | .pack8 f => some (eRRR 0x113 f)
  | .unpack8 f => some (eRRR 0x114 f)
  | .mxq f => some (eRRR 0x115 f)
  | .rcp f => some (eRRR 0x118 f)
  | .rsq f => some (eRRR 0x119 f)
  | .sqrt f => some (eRRR 0x11A f)
  | .exp2 f => some (eRRR 0x11B f)
  | .log2 f => some (eRRR 0x11C f)
  | .sin f => some (eRRR 0x11D f)
  | .cos f => some (eRRR 0x11E f)
  | .tanh f => some (eRRR 0x11F f)
  | .ld f => some (eMEM 0x180 f)
  | .st f => some (eMEM 0x181 f)
  | .lds f => some (eMEM 0x182 f)
  | .sts f => some (eMEM 0x183 f)
  | .pref f => some (eMEM 0x184 f)
  | .aadd f => some (eAMO 0x188 f)
  | .afadd f => some (eAMO 0x189 f)
  | .amin f => some (eAMO 0x18A f)
  | .amax f => some (eAMO 0x18B f)
  | .aand f => some (eAMO 0x18C f)
  | .aor f => some (eAMO 0x18D f)
  | .axor f => some (eAMO 0x18E f)
  | .axchg f => some (eAMO 0x18F f)
  | .acas f => some (eAMO 0x190 f)
  | .fence f => some (eRRR 0x198 f)
  | .cflush f => some (eRRR 0x199 f)
  | .cinv f => some (eRRR 0x19A f)
  | .clock f => some (eRRR 0x19B f)
  | .cunlock f => some (eRRR 0x19C f)
  | .cdemote f => some (eRRR 0x19D f)
  | .lend f => some (eRRR 0x1A0 f)
  | .retn f => some (eRRR 0x1A1 f)
  | .split f => some (eRRR 0x1A2 f)
  | .merge f => some (eRRR 0x1A3 f)
  | .recallWord f => some (eRRR 0x1A4 f)
  | .ownq f => some (eRRR 0x1A5 f)
  | .bankcfg f => some (eRRR 0x1A8 f)
  | .bankq f => some (eRRR 0x1A9 f)
  | .qinit f => some (eRRR 0x1AA f)
  | .qpush f => some (eRRR 0x1AB f)
  | .qpop f => some (eRRR 0x1AC f)
  | .qpoll f => some (eRRR 0x1AD f)
  | .qwait f => some (eRRR 0x1AE f)
  | .mma f => some (eENG 0x200 f)
  | .mbound f => some (eENG 0x201 f)
  | .mcensus f => some (eENG 0x202 f)
  | .copy f => some (eENG 0x203 f)
  | .gxfer f => some (eENG 0x204 f)
  | .coll f => some (eENG 0x205 f)
  | .mlease f => some (eRRR 0x208 f)
  | .mfree f => some (eRRR 0x209 f)
  | .mcfg f => some (eRRR 0x20A f)
  | .mstat f => some (eRRR 0x20B f)
  | .cwait f => some (eRRR 0x20C f)
  | .trap f => some (eRRR 0x240 f)
  | .eret f => some (eRRR 0x241 f)
  | .rdsys f => some (eSYS 0x242 f)
  | .rdsysClr f => some (eSYS 0x242 f)
  | .wrsys f => some (eSYS 0x243 f)
  | .wrsysCtxid f => some (eSYS 0x243 f)
  | .wrsysThrottle f => some (eSYS 0x243 f)
  | .wrsysUrgency f => some (eSYS 0x243 f)
  | .wrsysCslope f => some (eSYS 0x243 f)
  | .tlbinv f => some (eRRR 0x244 f)
  | .tokadm f => some (eRRR 0x245 f)
  | .ckpt f => some (eRRR 0x246 f)
  | .halt f => some (eRRR 0x247 f)
  | .ctxsv f => some (eRRR 0x248 f)
  | .ctxld f => some (eRRR 0x249 f)
  | .hint f => some (eHINT f)
  | .reservedOpcode w => some w.toNat
  | .barrierOpen _ _ _ => none
  | .gridBarrierOpen _ _ => none
  | .barrierWaveRelease _ => none
  | .placementReservation _ _ => none
  | .teamStart _ _ => none
  | .teamBankRelease _ _ => none
  | .teamExit _ _ => none
  | .gridRetire _ _ => none
  | .gridKill _ _ => none
  | .clusterFence _ => none
  | .clusterReinstate _ => none
  | .throttleEpochEnd _ => none
  | .engAccept _ => none
  | .leaseGrant _ => none
  | .leaseExpiry _ _ => none
  | .mmaStart _ _ => none
  | .tileBlockStart _ => none
  | .kBlockBarrier _ _ => none
  | .engOpStop _ => none
  | .engOpComplete _ => none
  | .copyOpStart _ _ => none
  | .copyChunkDone _ _ => none
  | .srcfreeFall _ => none
  | .fifoMessageArrive _ _ => none
  | .collTimeout _ => none
  | .cflushWalkDone _ _ => none
  | .pageAnswer _ _ => none
  | .contextCreate _ => none
  | .contextDestroy _ => none
  | .rootTokenCreate _ => none
  | .rootTokenDestroy _ _ => none
  | .tokenReportRequest _ => none
  | .l1SoftError _ _ _ => none
  | .l2HbmSoftError _ => none
  | .cxlPoisonResponse _ => none
  | .l2AccountingRequest _ _ => none
  | .mcastGroupWrite _ _ => none
  | .mcastBindingWrite _ _ => none
  | .mcastReceive _ => none
  | .mcastMemberTimeout _ _ => none
  | .connTableWrite _ _ => none
  | .sendOnly _ _ => none
  | .sendOnlyWithImmediate _ _ _ => none
  | .rdmaWrite _ _ _ _ => none
  | .rdmaReadRequest _ _ _ _ => none
  | .compareSwap _ _ _ _ _ => none
  | .fetchAdd _ _ _ _ => none
  | .invalidRequest _ _ => none
  | .ack _ => none
  | .rnrNak _ => none
  | .outqSend _ => none
  | .ackTimeout _ => none
  | .connectionClose _ => none
  | .frameReceive _ => none
  | .linkNak _ => none
  | .peerTransaction _ => none
  | .peerRequestTimeout _ => none
  | .peerLost _ => none
  | .cxlPortIsolate _ => none
  | .cxlPortReinstate _ => none
  | .packageReset _ => none
  | .recoveryImageLoad _ => none
  | .attestationRequest _ => none
  | .railPointChange _ _ => none
  | .thermalSample _ _ => none
  | .dispatcherStart _ _ => none
  | .peerOwnershipRequest _ => none
  | .deviceNumberSet _ => none
  | .l2PoisonListHandoff _ _ => none
  | .clauseBegin => none
  | .repeatIssue => none
  | .fusedIssue => none
  | .resultWrite => none
  | .launchStatus => none
  | .drainRelease => none
  | .flagCompletion => none
  | .waitEnd => none
  | .sleepExpiry => none
  | .groupComplete => none
  | .convergenceTimeout => none
  | .qpollRetry => none
  | .cwaitEnd => none
  | .bankLossPrecedence => none
  | .issueWaitPrecedence => none
  | .throttleBypassAdmit => none
  | .trapEntry => none
  | .placementAttempt => none
  | .retryControlFrame => none
  | .linkDown => none
  | .sakRekey => none
  | .mkaFrame => none
  | .ckptComplete => none
  | .rollbackCommit => none
  | .packageOvertemp => none
  | .linkUp => none

/-! What REP needs of the word it repeats (R55). -/

/-- Formats by opcode (R51). -/
inductive Fmt where
  | rrr | ri17 | ri32 | mem | amo | br | eng | rep | sys | hint
  deriving DecidableEq, Repr

def fmtOf (op : Nat) : Fmt :=
  if 0x040 ≤ op && op ≤ 0x04F then .ri17
  else if 0x050 ≤ op && op ≤ 0x057 then .ri32
  else if 0x0C0 ≤ op && op ≤ 0x0C2 then .br
  else if op = 0x0D8 then .rep
  else if op = 0x0E0 || (0x200 ≤ op && op ≤ 0x205) then .eng
  else if 0x180 ≤ op && op ≤ 0x184 then .mem
  else if 0x188 ≤ op && op ≤ 0x190 then .amo
  else if op = 0x242 || op = 0x243 then .sys
  else if 0x2C0 ≤ op && op ≤ 0x2DF then .hint
  else .rrr

/-- The control transfers (R42): BRA, CALL, BRX, CALLX, RET, FEND, JOIN, TRAP, ERET, HALT. -/
def isTransfer (op : Nat) : Bool :=
  op == 0x0C0 || op == 0x0C1 || op == 0x0C8 || op == 0x0C9 || op == 0x0CA || op == 0x0CC || op == 0x0CD
  || op == 0x240 || op == 0x241 || op == 0x247

/-- Does the format lack one of the fields dest, a, b, c (bits 3 to 0 of `mask`), or hold one as a constant? -/
def maskLacks (w mask : Nat) : Bool :=
  match fmtOf (slice w 54 10) with
  | .rrr => (tb mask 3 && tb w 16) || (tb mask 2 && tb w 14) || (tb mask 1 && tb w 12) || (tb mask 0 && tb w 10)
  | .ri17 => mask % 4 != 0 || (tb mask 3 && tb w 32) || (tb mask 2 && tb w 30)
  | .ri32 | .mem => mask % 4 != 0
  | .sys => mask % 4 != 0 || (tb mask 3 && tb w 16) || (tb mask 2 && tb w 14)
  | .amo => false
  | .br | .eng | .rep | .hint => true

/-- Is a REP word misused before the word `w` (R55)? Where `w` has a reserved opcode the map gives it no format, so its
fields are not looked at: the repeat raises ILLEGAL at that word (log 50). -/
def repMisused (f : REPF) (w : Nat) : Bool :=
  let op := slice w 54 10
  isTransfer op || fmtOf op == .rep || fmtOf op == .br || fmtOf op == .eng || fmtOf op == .hint
  || (!reservedOp op && maskLacks w f.mask.toNat) || f.step == 3#2 || f.gd.p != 15#4 || f.gd.neg || f.hi != 0#27 || f.lo != 0#10

/-- The advance of repeat `j` under a step mask and step code (R54). -/
def advOf (mask step j : Nat) : Adv :=
  let n := j * 2 ^ step
  { d := if tb mask 3 then n else 0, a := if tb mask 2 then n else 0, b := if tb mask 1 then n else 0,
    c := if tb mask 0 then n else 0 }

end Sys2Proof
end

