-- ==== Sys2Proof/Config.lean ====
section
/-! DEFINITION. What one implementation or the outside fixes: the free values, which nothing in the model can compute. -/

namespace Sys2Proof.Config

/-- A byte of peer memory that this device has not written (log 3). -/
opaque peerByte : Nat → BitVec 8

/-- A choice the spec leaves open: whether a write in flight reached its target (R288, R361; log 4). -/
opaque freeBool : Nat → Bool

/-- An element of a COLL destination or residual after MISMATCH or TIMEOUT (R236): keep the prior value? (log 5). -/
opaque collKeeps : Nat → Bool

/-- The scale byte of an MXFP4 block that a copy fills from blocks of different scales (R344; log 12). -/
opaque freeScale : Nat → BitVec 8

/-- The cycles that the staging of a row of an MMA takes where its operands lie outside PAD: operation, tile block, K-block, row
(R324; log 6). -/
opaque operandDelay : Nat → Nat → Nat → Nat → Nat

/-- SHAKE256 with 512 bits of output (R412, R413; log 7). -/
opaque shake256 : List (BitVec 8) → List (BitVec 8)

/-- Does a Falcon-1024 signature verify: public key, message, signature (R412; log 7)? -/
opaque falconVerify : List (BitVec 8) → List (BitVec 8) → List (BitVec 8) → Bool

/-- The Falcon-1024 signature under the package's identity key (R413; log 7). -/
opaque falconSign : List (BitVec 8) → List (BitVec 8)

/-- The boot ROM's digests of the four vendor public keys, by KEYID (R412; log 7). -/
opaque vendorKeyDigest : Nat → List (BitVec 8)

/-- SHAKE256 of the identity public key, and the package serial number (R413; log 7). -/
opaque identityKeyDigest : List (BitVec 8)
opaque serialNumber : BitVec 64

/-- The digest of the fuses and the rail point table that an attestation report carries (R413; log 7). -/
opaque configDigest : Nat → List (BitVec 8)

end Sys2Proof.Config
end

