-- ==== Sys2Proof/Machine/State.lean ====
section
/-! DEFINITION. The state of the M8 as plain data, the reasons a step can stop, and the state after package reset. -/

namespace Sys2Proof.Machine

/-- Sparse storage in ONE canonical form: keys strictly rising, no entry zero, an unlisted key reads as zero
(`Cells.wf`, Ops.lean). With width 8 it is memory, a list of `Host.Cell`. -/
abbrev Cells (w : Nat) := List (Nat × BitVec w)

/-- Memory by 52-bit physical address (R387). Unlisted bytes read as zero: R410 zeroes device memory; for expander
memory log 2 declares it. -/
abbrev Memory := List Host.Cell

/-- A step that the model cannot take because the spec names no effect. No instruction raises one in a state that a
run reaches. -/
inductive Fault where
  /-- The issuer named by `issue` has no crew or batch: raised by a word asked for outside an issue of `step`. Safe:
  the machine stops where the hardware has nothing to do. -/
  | noIssuer
  deriving DecidableEq, Repr

/-- A step the model declines by name. -/
inductive Refusal where
  /-- An opcode-table row without a meaning yet. Safe. -/
  | notModelled (mnemonic : String)
  deriving DecidableEq, Repr

/-- Fault kinds (R361). -/
inductive FKind where
  | notPresent | protection | misaligned | bounds | unowned | ownmode | poison | illegal | privilege | format
  | convergence | orphan | timeout | trap
  deriving DecidableEq, Repr

/-- What a fault record holds beside the place of its fibre (R362, R355). -/
structure FaultInfo where
  kind : FKind
  width : Nat
  acc : Nat
  fetch : Bool
  hw : Bool
  addr : Nat
  /-- the virtual address of a page request -/
  va : Nat
  pc : Nat
  tokenId : Nat
  /-- the denied ticket (TKT, TICKET) -/
  ticket : Option Nat
  /-- no fault yet: the location whose holder has not answered the access, which is outstanding (R386, R401) -/
  quiet : Option Nat
  /-- the operation that was tried needs write / execute permission (for a page request, R368) -/
  needWr : Bool
  needEx : Bool
  needRd : Bool
  deriving DecidableEq, Repr

/-- Where a pending result goes: a g-register of a slot, a k-register (R311). `gone`: the fibre has ended, and its late result is
discarded (R120). -/
inductive PDst where
  | g (slot n : Nat) | k (n : Nat) | gone
  deriving DecidableEq, Repr

/-- A pending-register bit with the result its producer will write; `none` while the producer has no result yet, or
when a refused producer clears the bit without a write (R99, R311, R359). -/
structure Pend where
  dst : PDst
  val : Option W32
  ready : Bool
  deriving DecidableEq, Repr

/-- What a queue instruction has for a fibre: the four registers of its result, or a fault (R192). -/
inductive QDone where
  | item (l : List W32)
  | bad (f : FaultInfo)
  deriving DecidableEq, Repr

/-- A fibre of a batch that waits in QPOLL or QWAIT (R192): its queue's address and number, its failures and their
limit, whether it stands on a waiter list, and what it has. -/
structure QFibre where
  slot : Nat
  addr : Nat
  queue : Nat
  tries : Nat
  limit : Nat
  listed : Bool
  done : Option QDone
  deriving DecidableEq, Repr

/-- Modes of an SRAM bank (R35). -/
inductive BankMode where
  | way | pad | fifo | off
  deriving DecidableEq, Repr

/-- What a batch waits for (R122, R366, R39, R311). `none`: ready at its word or header. `hazard`: a register of its
word is pending. `padRange`: a byte of its PAD access lies in an in-flight range. `flagFull`: a flag count is 15.
`recalling`: a RECALL whose flag filled up after these fibres had their status; `again` once the count has fallen.
`lwait`: d of LWAIT, and each fibre with its child and what it has learnt of it (R136). `wave`: its barrier has opened and its wave has not come. `cwait`: map offset, first
chunk and mask of each fibre (R225). `eng`: an engine command held at issue. `lease`: MLEASE's fibre and d. -/
inductive Waiting where
  | none
  | hazard
  | padRange
  | flagFull
  | recalling (done : List (Nat × Nat)) (again : Bool)
  | walkers
  /-- a BANKCFG that has issued and whose re-index waits for room in the poison ring (R306, R308): the mode, d, and each fibre with
  the first bank and the number of banks that it names -/
  | ring (m : BankMode) (d : Opd) (l : List (Nat × Nat × Nat))
  /-- an L1 access behind such a BANKCFG; `n` is 0, or for one of the operations that R308 keeps in order its place in that order;
  `again` once its turn has come -/
  | l1Held (n : Nat) (again : Bool)
  /-- an outstanding access to locations whose holders have not answered (R386, R401) -/
  | answer (l : List Nat)
  /-- a release that waits for the acknowledgement of peer stores (R173, R400) -/
  | acks
  | flags (mask : Nat)
  | drain
  | sleep (wake : Nat)
  | lwait (d : Opd) (l : List (Nat × Nat × Option Nat))
  | bar (id : Nat) (set : W32) (d : Opd)
  | wave (d : Opd)
  | gbar (d : Opd)
  | group (addr : Nat) (mask : W32)
  | ticket (t : Option Nat) (fs : List (Nat × FaultInfo))
  | repHold
  | repBusy
  | queue (wake : Nat) (d : Opd) (fs : List QFibre)
  | cwait (l : List (Nat × Nat × W32))
  | eng (op : Nat)
  | lease (slot : Nat) (d : Opd)
  deriving DecidableEq, Repr

/-- A batch: fibres of one crew that stand at one place (R41, R374). `hdr` is the header word of the open clause,
`next` the index of the next word (0: the first after the header), `begun` whether the clause has begun, `stale` whether
the header must be read again (R44), `rep` whether the batch stands in the crew's open REP sequence (R18). -/
structure Batch where
  header : Nat
  hdr : W64
  next : Nat
  begun : Bool
  stale : Bool
  rep : Bool
  /-- another ready crew of the scheduler issues before the batch's next clause (R125) -/
  yields : Bool
  /-- the cycle at which the first word of the open clause issued (R269) -/
  opened : Nat
  mask : W32
  wait : Waiting
  readySince : Nat
  handler : Bool
  deriving DecidableEq, Repr

/-- A pending JOIN or cross-lane group (R126): keyed by the word's address and the mask. `late` once it has raised
CONVERGENCE: it stays in the crew's state until ERET. `handler`: its fibres stand in the handler (R357). -/
structure Group where
  addr : Nat
  mask : W32
  arrivals : W32
  since : Nat
  ins : Instr
  handler : Bool
  late : Bool
  deriving DecidableEq, Repr

/-- A trap that waits for its entry (R365, R372): the faulting fibres with what their records hold, the trapped batch as
it stood at the word, where the fibres that completed a control transfer go on, the value T of R245, and whether the
fault arose at a header. -/
structure TrapWait where
  faults : List (Nat × FaultInfo)
  batch : Batch
  moved : List (Nat × Nat)
  t : Nat
  atHeader : Bool
  deriving DecidableEq, Repr

/-- Trap state of a crew in its handler (R364, R365): the trap, the mask X, the REP fields, the cycle of entry (R357),
and the view that ERET restores. -/
structure TrapState where
  trap : TrapWait
  x : W32
  rep : W64
  enteredAt : Nat
  userView : Bool
  deriving DecidableEq, Repr

/-- A LAUNCH whose status is not yet decided (R134), with the context in which its crew acted (R246). -/
structure LaunchPend where
  ctx : Nat
  block : List Byte
  dest : PDst
  flag : Option Nat
  deriving DecidableEq, Repr

/-- A crew (R13). -/
structure Crew where
  /-- position among the cluster's 64 resident crews (R267) -/
  pos : Nat
  /-- first physical register of slot 0, and w (R13, R14) -/
  base : Nat
  win : Nat
  /-- LIVE slots (R13) -/
  live : W32
  /-- predicate word of each slot, p0 to p14 (R10, R12) -/
  preds : Cells 16
  /-- k0 to k63 (R13) -/
  k : Cells 32
  /-- pending counts of f0 to f11 (R16) -/
  flags : Cells 4
  /-- scope of the release that brought each flag to 0 (R123) -/
  flagScope : Cells 4
  /-- crew status word (R17) -/
  stat : W64
  batches : List Batch
  groups : List Group
  /-- a clause with the YIELD bit has ended: another ready crew of the scheduler is preferred for the next issue (R40) -/
  yields : Bool
  /-- pending-register bits with their producers' results (R311) -/
  pend : List Pend
  /-- flag falls that an operation's completion owes, with the release's scope (R16) -/
  falls : List (Nat × Nat)
  launches : List LaunchPend
  /-- privileged view (R238) -/
  priv : Bool
  trap : Option TrapState
  trapWait : List TrapWait
  trappc : W64
  trapcause : W32
  /-- a member slot of the batch that holds the open clause (R41) -/
  cur : Option Nat
  /-- CTXID: the context in which the crew acts (R246) -/
  ctx : Nat
  /-- pass value, back-off steps, and words issued since the last opening (R268, R273) -/
  pass : Nat
  backoff : Nat
  issued : Nat
  /-- whether and since when the crew is a candidate, when it last issued, its precedence, and the bank conflicts it has
  lost in a row (R268, R269) -/
  cand : Bool
  candSince : Nat
  issuedAt : Nat
  prec : Option Nat
  losses : Nat
  /-- cycle of the last arrival at a barrier (R273) -/
  arrivedAt : Nat
  /-- a member of the cluster's memory set, memory clauses begun in a row, and since when one waits for admission (R271) -/
  mem : Bool
  memRow : Nat
  memWait : Option Nat
  /-- stopped by Occon (R240) or finished -/
  stopped : Bool
  /-- restored and not yet issued: its first issue is an acquire at DEVICE scope (R376) -/
  restored : Bool
  deriving DecidableEq, Repr

/-- A barrier object (R19, R137): the crews that have arrived, the set that opens it, the generation. -/
structure BarObj where
  arrived : W32
  set : Option W32
  gen : Nat
  deriving DecidableEq, Repr

/-- An in-flight PAD range (R310). -/
structure PadRange where
  lo : Nat
  hi : Nat
  write : Bool
  op : Nat
  /-- completes at SRCFREE instead of at completion (R201) -/
  atSrcFree : Bool
  /-- a chunk map, which only keeps stores off and is none of the eight entries (R201) -/
  guard : Bool
  deriving DecidableEq, Repr

/-- A lease of the team (R206-R209): granted engine or none, original count, operations left, G and D codes. The team keeps
lease h under key h, and once it is freed with MMAs outstanding under 4 or more. -/
structure Lease where
  engine : Option Nat
  count : Nat
  left : Nat
  g : Nat
  d : Nat
  freed : Bool
  thermal : Bool
  deriving DecidableEq, Repr

/-- MSTAT's quantities of the team's last MMA (R210, R319). -/
structure MStat where
  cycles : Nat
  stalls : Nat
  place : Nat
  rows : Nat
  skipped : Nat
  kblocks : Nat
  bound : Nat
  deriving DecidableEq, Repr

/-- URGENCY: fixed mark or the predictor's (R273, R274). -/
structure Urgency where
  expert : Bool
  fixed : Nat
  mark : Nat
  deriving DecidableEq, Repr

/-- A resident team (R19). -/
structure Team where
  ctx : Nat
  gid : Nat
  teamno : Nat
  /-- crews by number; a released crew has `stopped` set and no batch -/
  crews : List Crew
  banks : List Nat
  bars : List (Nat × BarObj)
  ranges : List PadRange
  leases : List (Nat × Lease)
  mstat : Option MStat
  /-- SCOPE of the copy that set a chunk-map bit, by 8 × PAD byte + bit (R225) -/
  chunkScopes : List (Nat × Nat)
  urgency : Urgency
  placedAt : Nat
  started : Bool
  /-- R261: banks released -/
  banksDone : Bool
  killed : Bool
  /-- a saved context keeps its slot (R372) -/
  saved : Bool
  deriving DecidableEq, Repr

/-- A multicast message in a FIFO bank (R224). -/
structure FifoMsg where
  sender : Nat
  bytes : List Byte
  deriving DecidableEq, Repr

/-- An SRAM bank (R301). -/
structure Bank where
  mode : BankMode
  owner : Nat
  bound : Option Nat
  slots : List FifoMsg
  deriving DecidableEq, Repr

/-- A valid L1 line (R303). The list of lines stands in age order, most recently used first. `key` is the line's
location (physical line address, or the peer location of log 3). -/
structure L1Line where
  key : Nat
  data : BitVec 512
  dirty : W64
  wide : Bool
  keep : Bool
  lock : Option Nat
  /-- the line's virtual address as CLOCK named it (R307) -/
  lockVa : Nat
  poison : Bool
  /-- context of the fill (R303) -/
  ctx : Nat
  /-- context of the latest store (R315) -/
  storer : Nat
  /-- one word has stored all 64 bytes since the last write-back (R166) -/
  whole : Bool
  /-- the way that holds the line (R302) -/
  way : Nat
  deriving DecidableEq, Repr

/-- A translation held by a TLB (R371). -/
structure TlbEntry where
  ctx : Nat
  va : Nat
  bits : Nat
  pa : Nat
  rd : Bool
  wr : Bool
  ex : Bool
  deriving DecidableEq, Repr

/-- A cached object record (R32). -/
structure RecEntry where
  ctx : Nat
  idx : Nat
  image : List Byte
  deriving DecidableEq, Repr

/-- A lease request that waits at the cluster's arbiter (R207): an expired lease, MLEASE's request by a crew with its count, or the
implicit lease of an accepted MMA. -/
inductive LeaseReq where
  | handle (ts h : Nat)
  | request (ts crew count : Nat)
  | mma (op : Nat)
  deriving DecidableEq, Repr

/-- What holds a term engine (R207). -/
inductive EngHold where
  | free
  | lease (ts h : Nat)
  | implicit (op : Nat)
  deriving DecidableEq, Repr

/-- A term engine (R320): its holder and the MMA that runs. The MMAs that wait for it are the queued operations under its
holder, in the order of their numbers (R318). -/
structure TermEngine where
  hold : EngHold
  running : Option Nat
  deriving DecidableEq, Repr

/-- A CFLUSH walker with its flush window (R174). -/
structure Walker where
  ctx : Nat
  lo : Nat
  hi : Nat
  inv : Bool
  ts : Nat
  cr : Nat
  flag : Option Nat
  /-- the range is covered; the window stays until the flag falls -/
  done : Bool
  deriving DecidableEq, Repr

/-- A crew queued in the cluster's wave sequencer, with the status its BAR or GBAR receives (R276). -/
structure WaveItem where
  ts : Nat
  cr : Nat
  /-- the grid barrier, whose release is an acquire at DEVICE scope -/
  grid : Bool
  /-- the cycle of its opening -/
  opened : Nat
  deriving DecidableEq, Repr

/-- A cluster. -/
structure Cluster where
  /-- register file: 131,072 registers of 32 bits (R21) -/
  rf : Cells 32
  /-- banks that are not in their package-reset mode (R301) -/
  banks : List (Nat × Bank)
  /-- bank contents, bank × 1,024 + offset (R25) -/
  sram : Cells 8
  l1 : List L1Line
  victims : List Nat
  hits : Nat
  /-- throttle: window, expert bit, whether a full epoch has begun since leaving expert mode (R270-R272) -/
  win : Nat
  expert : Bool
  half : Bool
  /-- epochs that have ended -/
  epoch : Nat
  /-- CSLOPE and the wave queue (R276) -/
  cslope : W16
  waves : List WaveItem
  waveAt : Nat
  /-- datapaths in use, by 5 × scheduler + datapath (0 and 1: V, then S, M, E), with the first cycle at which each is free
  again (R266, R267) -/
  ports : List (Nat × Nat)
  /-- by scheduler, the cycles of its latest 8-cycle window in which it issued (R414) -/
  spent : List (Nat × List Nat)
  teams : List (Nat × Team)
  fenced : Bool
  engines : List TermEngine
  leaseq : List LeaseReq
  /-- THERMAL, the sample before it, and the cycle of the last sample (R416) -/
  thermal : BitVec 2
  thermalWas : BitVec 2
  sampledAt : Option Nat
  trips : Nat
  fused : Nat
  walkers : List (Nat × Walker)
  /-- the slots that this sender has filled or is to fill, by receiver: the bank of each message (R312); the free-slot counter
  is 2 less their number -/
  freeSlots : List (Nat × List Nat)
  poisonList : List W64
  errlog : List (List Byte)
  errcount : Nat
  icache : List (Nat × BitVec 512)
  tlb : List TlbEntry
  recs : List RecEntry
  /-- the point that the rail reached last, and the one toward which it moves (R414) -/
  rail : Nat
  railTo : Nat
  deriving DecidableEq, Repr

/-- State of a token (R165, R288). -/
inductive TokState where
  | excl | shared | atomic | orphan | poison
  deriving DecidableEq, Repr

/-- A RECALL whose flag falls when the token is back with its holder: the crew, the flag, and the scope that spans the holder
and every holder that has returned since (R183). -/
structure Recall where
  holder : W64
  crew : CrewRef
  flag : Nat
  scope : Nat
  deriving DecidableEq, Repr

/-- A token (R179). `peer` is the device that lent a mirror, `rest` the state without shares out: EXCL, but for the mirror of
a share what that share allows (R286). -/
structure Token where
  ctx : Nat
  base : Nat
  len : Nat
  state : TokState
  owner : W64
  n : Nat
  chain : List W64
  recaller : Option W64
  recalls : List Recall
  peer : Option Nat
  rest : TokState
  deriving DecidableEq, Repr

/-- A share (R283): holder, kind (true: atomic), index of its token. -/
structure Share where
  holder : W64
  atomic : Bool
  tok : Nat
  deriving DecidableEq, Repr

/-- An entry of an owner table (R283). -/
inductive OwnEntry where
  | token (t : Token)
  | share (s : Share)
  deriving DecidableEq, Repr

/-- An L2 line of 128 bytes (R313-R315, R385): valid and dirty sectors, keep-last mark, and the context that dirtied it last. The
bytes of a line of peer memory stand in the die's `peerCopies`. -/
structure L2Line where
  key : Nat
  valid : BitVec 4
  dirty : BitVec 4
  keep : Bool
  dirtier : Nat
  deriving DecidableEq, Repr

/-- The L2 counters of one context (R314). -/
structure L2Count where
  fills : W64
  hits : W64
  wbacks : W64
  evicts : W64
  deriving DecidableEq, Repr

/-- A fibre in QWAIT, in the order the waiters began (R192, R193). -/
structure Waiter where
  ctx : Nat
  queue : Nat
  crew : CrewRef
  slot : Nat
  deriving DecidableEq, Repr

/-- A die. -/
structure Die where
  owners : List (Nat × OwnEntry)
  l2 : List L2Line
  peerCopies : List (Nat × Byte)
  counts : List (Nat × L2Count)
  tlb : List TlbEntry
  ring : List W64
  waiters : List Waiter
  errcount : Nat
  deriving DecidableEq, Repr

/-- Where a save area lies: at a virtual address as a die translates it for a context, or at a physical one. -/
inductive AreaAt where
  | va (die ctx a : Nat)
  | pa (a : Nat)
  deriving DecidableEq, Repr

/-- The state of a context. -/
inductive CtxPhase where
  | running | saved | destroyed
  deriving DecidableEq, Repr

/-- The Churn's state of one communicator at one member (R235, R407): its last SEQ and how many it has started. -/
structure CommState where
  comm : Nat
  rank : Nat
  seq : Nat
  /-- COLLs started so far -/
  steps : Nat
  deriving DecidableEq, Repr

/-- A context (R35, R256, R20, R190). -/
structure Ctx where
  phase : CtxPhase
  /-- where the context was saved last (R372) -/
  area : Option AreaAt
  regs : CtxRegs
  cursor : Nat
  /-- live queue numbers with their addresses (R189, R190) -/
  queues : List (Nat × Nat)
  comms : List CommState
  /-- child grids retired and not yet reported: gid, launching holder (TEAM), killed (R136) -/
  retired : List (Nat × W64 × Bool)
  deriving DecidableEq, Repr

/-- The flag that a grid's retirement lowers (R135): the launching crew and its flag, or none. -/
structure Launcher where
  crew : CrewRef
  team : W64
  flag : Option Nat
  deriving DecidableEq, Repr

/-- A grid (R20). -/
structure Grid where
  ctx : Nat
  gid : Nat
  /-- holder identity of the launching crew; zero for a grid that Occon started -/
  launchedBy : W64
  launcher : Option Launcher
  /-- context and id of the launching grid (R132, R246) -/
  parent : Option (Nat × Nat)
  depth : Nat
  teams : Nat
  cmask : BitVec 192
  w8 : Nat
  crews : Nat
  banks : Nat
  coop : Bool
  entry : W64
  kinit : List W32
  priv : Bool
  /-- next team to place, since when, and whether it holds a reservation (R259) -/
  nextTeam : Nat
  nextSince : Nat
  reserved : Bool
  unfinished : Nat
  children : Nat
  /-- generations of the grid barrier (R138) -/
  gen : Nat
  killed : Bool
  killCode : Nat
  deriving DecidableEq, Repr

/-- Kinds of engine operations. -/
inductive OpKind where
  | mma | census | copy | gxfer | coll
  deriving DecidableEq, Repr

/-- Phases of an operation: held at issue, accepted and queued, running, stopping after a stop condition, drained for a
pre-emption. A completed operation is removed. -/
inductive OpPhase where
  | held | queued | running | stopping | saved
  deriving DecidableEq, Repr

/-- An exact value: (-1)^neg × m × 2^e; a zero keeps its sign. -/
inductive FVal where
  | nan
  | inf (neg : Bool)
  | fin (neg : Bool) (m : Nat) (e : Int)
  deriving DecidableEq, Repr

/-- The operands of a K-block as a group's load pipe has staged them (R324): A's values with their term counts, lane by lane;
B's values, row by row; the cycle at which each row is staged, 0 where PAD holds it; the sticky bits of the reads. -/
structure StagedK where
  a : List (List (FVal × Nat))
  b : List (List FVal)
  ready : List Nat
  sticky : Nat
  deriving DecidableEq, Repr

/-- A running tile block (R214, R320): number, group, K-blocks done, C elements so far (codes). -/
structure TileRun where
  v : Nat
  grp : Nat
  kb : Nat
  c : List W32
  /-- what the K-block in progress makes of C, when it began and ends, its length were every operand ready, the sticky bits it
  sets, its rows fetched and skipped -/
  next : List W32
  began : Nat
  at_ : Nat
  work : Nat
  sticky : Nat
  rows : Nat
  skipped : Nat
  /-- the operands of the K-block that follows -/
  ahead : Option StagedK
  deriving DecidableEq, Repr

/-- A source element that a copy has read for a chunk still to come: its box place, code, value, and the scale byte of its MXFP4
block (R341). -/
structure KeptElem where
  place : Nat
  code : Nat
  val : FVal
  scale : Nat
  sticky : Nat
  deriving DecidableEq, Repr

/-- A stop condition met: unit, code, address, and its order within the unit (R203, R333). -/
structure StopRec where
  unit : Nat
  code : Nat
  faddr : Nat
  kb : Nat
  order : Nat
  deriving DecidableEq, Repr

/-- An engine operation from issue to completion (R198-R205, R375). -/
structure EngOp where
  kind : OpKind
  phase : OpPhase
  ctx : Nat
  gid : Nat
  crew : CrewRef
  /-- the team and crew are gone; status and flags are discarded (R350) -/
  orphaned : Bool
  /-- the team has released the block's banks: the report goes to the driver (R261) -/
  blockGone : Bool
  block : Nat
  image : List Byte
  recs : List (List Byte)
  fa : Option Nat
  fb : Option Nat
  dest : PDst
  detached : Bool
  scope : Nat
  aux : Nat
  poison : Nat
  /-- entries of the owner tables held jointly: die, index (R199) -/
  holds : List (Nat × Nat)
  engine : Nat
  lease : Option Nat
  g : Nat
  d : Nat
  thermal : Bool
  /-- PROGRESS or chunk bits at issue, then as they advance -/
  progress : List Nat
  tiles : List TileRun
  nextTile : Nat
  /-- free groups with the cycle at which each fell free, and when the last K-block of each group began -/
  groupFree : List (Nat × Nat)
  lastBegan : List (Nat × Nat)
  ended : Nat
  stops : List StopRec
  /-- a stop asked from outside: 0x36 ABORTED, 0x34 ORPHAN; zero for none -/
  halt : Nat
  /-- regions, base and length, whose jointly held entry has turned ORPHAN or POISON (R199) -/
  lost : List (Nat × Nat)
  srcFreeDone : Bool
  clipped : Nat
  sticky : Nat
  /-- MSTAT: fetched rows, skipped rows, K-blocks; and the cycles and stalls of earlier drives (R360) -/
  rows : Nat
  skipped : Nat
  kblocks : Nat
  before : Nat
  stalled : Nat
  /-- has been started, before a pre-emption (STARTED of R375) -/
  driven : Bool
  /-- the location whose holder has not answered a read of the next unit (R386, R401) -/
  waits : Option Nat
  stallNo : Nat
  /-- cycles of each tile block's K-blocks were every operand ready (R324) -/
  work : List (Nat × Nat)
  /-- PROGRESS at issue (R336) -/
  firstKb : List Nat
  logged : List Nat
  /-- source elements read for later chunks; the granule after the last chunk written (R341) -/
  kept : List KeptElem
  granule : Nat
  /-- multicast window writes: WSEQ, members written to, answers owed by members, refusals (R383) -/
  wseq : Nat
  sentTo : List Nat
  owed : List (Nat × Nat)
  refusals : List (Nat × Nat)
  /-- multicast to FIFO banks: receivers still to be reached, receivers skipped (R224) -/
  fifoLeft : List Nat
  skippedRx : List Nat
  started : Nat
  /-- the message that a FIFO source took or a multicast built (R224) -/
  msg : List Byte
  parts : List CollPart
  result : Option Nat
  failrank : Nat
  deriving DecidableEq, Repr

/-- An entry of the page-request table (R368). -/
structure PageReq where
  ctx : Nat
  va : Nat
  gen : Nat
  deriving DecidableEq, Repr

/-- Bring-up (R410): the step reached, or recovery. -/
inductive BootPhase where
  | waitDevNum | up | recovery | fencedDevice
  deriving DecidableEq, Repr

/-- Identity, fuses and image (R410-R413). `fuses` is the number of blown anti-rollback bits. -/
structure Boot where
  phase : BootPhase
  devnum : Option Nat
  member : Nat
  fuses : Nat
  rollback : Nat
  digest : List Byte
  /-- HBM stacks that fail training at the next bring-up -/
  failing : List Nat
  deriving DecidableEq, Repr

/-- A request of the M8 on a connection that waits for its acknowledgement (R395, R396, R406). -/
structure Sent where
  conn : Nat
  psn : Nat
  pkt : RocePkt
  /-- retransmissions at ACKTO -/
  tries : Nat
  /-- the cycle at which it was last sent -/
  since : Nat
  /-- an OUTQ item with its token id -/
  item : Option (Nat × Nat)
  deriving DecidableEq, Repr

/-- What a reliable connection keeps of its packets' order, in both directions (R391, R392). -/
structure QpState where
  /-- the PSN of the next request to perform -/
  ePsn : Nat
  /-- the PSN of this side's next request -/
  nPsn : Nat
  /-- a refusal of the packet at `ePsn` is under way: later packets are dropped -/
  hold : Bool
  /-- an RDMA WRITE of several packets: its key, its running address and the bytes left -/
  write : Option (W32 × Nat × Nat)
  /-- answers of the latest atomics, newest first: PSN and old value -/
  atomics : List (Nat × W64)
  deriving DecidableEq, Repr

/-- The Ethernet port (R389, R397, R398). -/
structure Eth where
  up : Bool
  rxExpect : W32
  txNext : W32
  /-- unacknowledged frames, oldest first: sequence number and body -/
  unacked : List (W32 × FrameBody)
  /-- bodies that wait for room in the replay buffer -/
  waiting : List FrameBody
  /-- NAKs that the partner has sent of the frame `nakSeq` -/
  naks : Nat
  nakSeq : W32
  /-- NAKs that this side has sent of the frame `rxExpect` -/
  ownNaks : Nat
  /-- a frame was dropped since the last frame that this side sent, first at cycle `nakAt` -/
  nakOut : Bool
  nakAt : Nat
  /-- the keys installed so far -/
  sak : Nat
  /-- packet numbers under the current key: of the next frame sent, and the lowest that replay protection accepts -/
  pn : Nat
  rxPn : Nat
  /-- cycles of the last valid frame and of the last frame sent -/
  lastRx : Nat
  lastTx : Nat
  dropped : Nat
  /-- requests that wait for their acknowledgement, in the order of their PSNs -/
  sent : List Sent
  qps : List (Nat × QpState)
  deriving DecidableEq, Repr

/-- A checkpoint in progress (R249). -/
structure Ckpt where
  base : Nat
  crew : CrewRef
  dest : Option PDst
  deriving DecidableEq, Repr

/-- A restore that waits for room, with the area it has read, the team records it has restored, and the CTXLD that asked
for it, none where Occon did (R376). A save or a restore that has room is one step. -/
structure LoadPend where
  ctx : Nat
  area : AreaAt
  image : List Byte
  done : Nat
  crew : Option CrewRef
  dest : Option PDst
  deriving DecidableEq, Repr

/-- What Occon does for the driver or finds outside the device: pre-empt a context into the area at a physical address, or restore
it from there (R372, R376); settings; and what it learns of stacks, ports and members. -/
inductive OcconCmd where
  | preempt (ctx area : Nat)
  | restore (ctx area : Nat)
  /-- PEERTO in microseconds (R401) -/
  | peerTimeout (us : Nat)
  /-- a root port's time-out in milliseconds (R405) -/
  | portTimeout (port ms : Nat)
  /-- a cluster's rail starts to move toward a point (R414) -/
  | moveRail (cl point : Nat)
  /-- what Occon will find at the next bring-up behind a root port: where its interleave set begins and ends, and whether it
  supports Global Persistent Flush (R404) -/
  | attach (port base len : Nat) (gpf : Bool)
  /-- an HBM stack that will, or will not, fail training at the next bring-up (R410) -/
  | stackFault (stack : Nat) (bad : Bool)
  /-- a number that the pod switch counts among the pod's members, or not (R399) -/
  | podMember (member : Nat) (present : Bool)
  /-- what a member's own tables answer to accesses to [va, va + len) of a context: a fault, or none (R399) -/
  | peerTables (member ctx va len : Nat) (kind : Option FKind)
  /-- a member, or the device behind a root port, stops answering, or answers again what it was asked (R401, R405) -/
  | peerSilent (member : Nat) (silent : Bool)
  | portSilent (port : Nat) (silent : Bool)
  /-- Occon has opened a connection of TYPE 2 to the Churn of a device (R406) -/
  | churnLink (conn device : Nat)
  deriving DecidableEq, Repr

/-- What the M8 and Occon tell the driver. -/
inductive DriverEvent where
  | pageRequest (ticket ctx : Nat) (rd wr ex hw : Bool) (va : Nat)
  | killed (ctx gid code : Nat)
  | faultRecord (ctx gid : Nat) (record : List Byte)
  | directory (ctx gid : Nat) (entry : List Byte)
  /-- R262: reports of the tokens and shares; locked lines; handles of leases with their engines; queue waits, as queue
  number, crew and slot; DETACHED operations still running, as kind, crew and block -/
  | killLog (ctx gid teamno : Nat) (report : List (List Byte)) (locks : List Nat) (leases : List (Nat × Option Nat))
      (waits : List (Nat × Nat × Nat)) (detached : List (OpKind × Nat × Nat))
  | tokenReport (report : List Byte)
  | badPte (pa : Nat)
  | engineStatus (ctx status : Nat) (faddr : Nat)
  | poisonSpill (die : Nat)
  | poisonHandoff (entries : List W64)
  | softError (pa : Nat)
  | clusterErrors (cl count : Nat)
  | cxlIsolated (port : Nat)
  | cxlDiscard (pa : Nat) (fromL2 : Bool)
  | clusterFenced (cl : Nat)
  | deviceFenced
  | ackRecordLost (ctx : Nat) (va : Nat) (record : List Byte)
  | hostRefused (conn kind : Nat) (addr : Nat) (width : Nat)
  /-- R396: the items that a closing connection drops, each with its token id -/
  | connClosed (conn : Nat) (items : List (Nat × Nat))
  | memberLost (member : Nat)
  | linkDown
  | accounting (record : List Byte)
  | attestation (report : List Byte)
  | bootStatus (ok : Bool)
  deriving DecidableEq, Repr

/-- What leaves the package on its links. -/
inductive Egress where
  | frame (sak pn : Nat) (seq ack : W32) (nak : Bool) (body : FrameBody)
  | peerStore (member ctx va : Nat) (bytes : List Byte)
  | peerAtomic (member ctx va : Nat) (n op b c : Nat)
  | peerRead (member ctx va n : Nat)
  | peerAnswer (member : Nat) (code : Nat) (bytes : List Byte)
  | peerLend (member ctx base len kind : Nat)
  | peerRetn (member ctx base len : Nat)
  | mcast (member : Nat) (m : McastMsg)
  | mcastAnswer (device code : Nat)
  | staging (member : Nat) (part : CollPart)
  | imageAccepted (ok : Bool)
  deriving DecidableEq, Repr

/-- A request to a pod member that has no answer yet: when it was first and last sent, and the engine operation and unit that wait
for it, none for a fibre's (R351, R400, R401). -/
structure Unanswered where
  member : Nat
  first : Nat
  last : Nat
  req : Egress
  op : Option (Nat × Nat)
  deriving DecidableEq, Repr

/-- UALink (R399-R401): peer time-out in microseconds, members lost, numbers that are no member of the pod, ranges of peer memory
that their members' tables refuse, members that do not answer, and the requests without an answer. -/
structure Ua where
  peerto : Nat
  lost : List Nat
  absent : List Nat
  refused : List (Nat × Nat × FKind)
  silent : List Nat
  out : List Unanswered
  deriving DecidableEq, Repr

/-- A CXL root port (R386, R404, R405): where its interleave set begins and its length, zero for one without Global Persistent
Flush; `silent` while its device completes nothing, `asked` since when a request waits for its completion; and the interleave set that
the next bring-up will find. -/
structure CxlPort where
  isolated : Bool
  sbase : Nat
  slen : Nat
  timeoutMs : Nat
  silent : Bool
  asked : Option Nat
  setBase : Nat
  setLen : Nat
  deriving DecidableEq, Repr

/-- The batch that issues: its crew and its place in the crew's list. -/
structure Issue where
  crew : CrewRef
  bi : Nat
  deriving DecidableEq, Repr

/-- The state of the M8. -/
structure State where
  cycle : Nat
  boot : Boot
  ctxs : List (Nat × Ctx)
  /-- live grids in the order of their launch -/
  grids : List Grid
  clusters : List (Nat × Cluster)
  die0 : Die
  die1 : Die
  mem : Memory
  poison : List Nat
  /-- bytes of CXL memory that stand dirty in a home L2 and not yet in the expander (R386) -/
  cxlDirty : List (Nat × Byte)
  /-- bytes of clean lines of CXL memory as the home L2 filled them, where the expander has changed since under the bytes' other
  name (R404) -/
  cxlHeld : List (Nat × Byte)
  /-- poisoned lines in the expanders, by their per-port addresses (R377, R403) -/
  cxlPoison : List Nat
  /-- bytes of peer memory that this device has written since it last received the region (log 3) -/
  peerMem : List (Nat × Byte)
  /-- receipts of regions of peer memory, the latest first: first byte, end, number (log 3) -/
  peerEpochs : List (Nat × Nat × Nat)
  pages : List (Nat × PageReq)
  pageGens : List (Nat × Nat)
  ops : List (Nat × EngOp)
  nextOp : Nat
  /-- wire values in the staging buffers of the Churns (R406) -/
  staging : List CollPart
  groups : List (Nat × McastGroup)
  bindings : List (Nat × McastBinding)
  conns : List (Nat × Conn)
  /-- the devices to whose Churns connections of TYPE 2 lead (R406) -/
  churns : List (Nat × Nat)
  eth : Eth
  ua : Ua
  cxl : List (Nat × CxlPort)
  ckpt : Option Ckpt
  loads : List LoadPend
  lastPlaced : Nat
  /-- context and number of the queue of each removal in this cycle, which a push of the same cycle precedes (R193) -/
  popped : List (Nat × Nat)
  /-- the next scheduler to choose in this cycle: 2 × cluster + scheduler; 384 once they have all issued (log 1) -/
  turn : Nat
  /-- what the scheduler that chose last still has to issue in this cycle (R268) -/
  picks : List CrewRef
  issue : Option Issue
  inputs : List Instr
  /-- what the driver has asked of Occon -/
  commands : List OcconCmd
  events : List DriverEvent
  egress : List Egress
  fresh : Nat
  deriving DecidableEq, Repr

/-- A term engine that nothing holds. -/
def TermEngine.idle : TermEngine := { hold := .free, running := none }

/-- A cluster after package reset: banks 0 to 127 WAY, the rest OFF (R301), rail at point 1 (R410, R414), W = 32
(R270), no team. -/
def Cluster.reset : Cluster :=
  { rf := [], banks := [], sram := [], l1 := [], victims := [], hits := 0, win := 32, expert := false, half := false,
    epoch := 0, cslope := 0x1008#16, waves := [], waveAt := 0, ports := [], spent := [], teams := [], fenced := false,
    engines := [TermEngine.idle, TermEngine.idle], leaseq := [], thermal := 0#2, thermalWas := 0#2, sampledAt := none, trips := 0, fused := 0,
    walkers := [], freeSlots := [], poisonList := [], errlog := [], errcount := 0, icache := [], tlb := [],
    recs := [], rail := 1, railTo := 1 }

/-- A die after package reset. -/
def Die.reset : Die :=
  { owners := [], l2 := [], peerCopies := [], counts := [], tlb := [], ring := [], 
    waiters := [], errcount := 0 }

/-- The Ethernet port when Occon has brought the link up (R410 step 8). -/
def Eth.reset : Eth :=
  { up := true, rxExpect := 0#32, txNext := 0#32, unacked := [], waiting := [], naks := 0, nakSeq := 0#32,
    ownNaks := 0, nakOut := false, nakAt := 0, sak := 0, pn := 0, rxPn := 0, lastRx := 0, lastTx := 0, dropped := 0, sent := [], qps := [] }

/-- UALink after package reset: PEERTO 100 µs, every member of the pod present and answering (log 31). -/
def Ua.reset : Ua := { peerto := 100, lost := [], absent := [], refused := [], silent := [], out := [] }

/-- A root port when Occon has trained it: time-out 5 ms; its interleave set spans the window's first 2^36 bytes and supports Global
Persistent Flush, unless Occon has found another (log 2). -/
def CxlPort.reset : CxlPort :=
  { isolated := false, sbase := 0, slen := 2 ^ 36, timeoutMs := 5, silent := false, asked := none, setBase := 0, setLen := 2 ^ 36 }

/-- The M8 after package reset: the steps 1 to 8 of R410 done with an accepted image, the driver's device number
awaited (step 9), no context (R410, R411). -/
def State.reset : State :=
  { cycle := 0,
    boot := { phase := .waitDevNum, devnum := none, member := 0, fuses := 0, rollback := 0, digest := [], failing := [] },
    ctxs := [], grids := [], clusters := [], die0 := Die.reset, die1 := Die.reset,
    mem := [], poison := [], cxlDirty := [], cxlHeld := [], cxlPoison := [], peerMem := [], peerEpochs := [], pages := [], pageGens := [],
    ops := [], nextOp := 0, staging := [], groups := [], bindings := [], conns := [], churns := [], eth := Eth.reset,
    ua := Ua.reset, cxl := [], ckpt := none, loads := [],
    lastPlaced := 0, popped := [], turn := 0, picks := [], issue := none, inputs := [], commands := [], events := [], egress := [], fresh := 0 }

end Sys2Proof.Machine
end

