-- ==== Sys2Proof/Machine/Maps.lean ====
section
/-! DEFINITION. Finite maps as sorted lists: sparse cells (an unlisted key reads as zero), and keyed tables. -/

namespace Sys2Proof.Machine

/-- The value at key `k`; zero where nothing is listed. -/
def cRead {w : Nat} (c : Cells w) (k : Nat) : BitVec w :=
  match c with
  | [] => 0#w
  | (a, v) :: t => if a = k then v else cRead t k

/-- Write `v` at key `k`, keeping the keys rising and listing no zero; whatever the list, the key then reads as `v`. -/
def cWrite {w : Nat} (c : Cells w) (k : Nat) (v : BitVec w) : Cells w :=
  match c with
  | [] => if v = 0#w then [] else [(k, v)]
  | (a, u) :: t =>
    if k < a then (if v = 0#w then ((a, u) :: t).filter (fun e => e.1 ≠ k) else (k, v) :: (a, u) :: t)
    else if k = a then (if v = 0#w then t.filter (fun e => e.1 ≠ k) else (k, v) :: t)
    else (a, u) :: cWrite t k v

/-- Every key of `c` is above `lo`, keys rise, and no entry is zero. -/
def cWfAbove {w : Nat} (lo : Nat) (c : Cells w) : Bool :=
  match c with
  | [] => true
  | (a, v) :: t => decide (lo < a) && decide (v ≠ 0#w) && cWfAbove a t

/-- The canonical form of sparse cells. -/
def cWf {w : Nat} (c : Cells w) : Bool :=
  match c with
  | [] => true
  | (a, v) :: t => decide (v ≠ 0#w) && cWfAbove a t

/-- The canonical form of memory: addresses rise, no listed byte is zero. -/
def Memory.wf (m : Memory) : Bool := cWf m

/-- Clear `n` cells from `k` on. -/
def cClear {w : Nat} (c : Cells w) (k n : Nat) : Cells w :=
  c.filter (fun e => decide (e.1 < k) || decide (k + n ≤ e.1))

/-- Read `n` cells from `k` on. -/
def cReads {w : Nat} (c : Cells w) (k n : Nat) : List (BitVec w) := (List.range n).map (fun i => cRead c (k + i))

/-- Write a list of cells from `k` on. -/
def cWrites {w : Nat} (c : Cells w) (k : Nat) (l : List (BitVec w)) : Cells w :=
  match l with
  | [] => c
  | v :: t => cWrites (cWrite c k v) (k + 1) t

/-- Look up a key. -/
def look {α : Type} (l : List (Nat × α)) (k : Nat) : Option α :=
  match l with
  | [] => none
  | (a, v) :: t => if a = k then some v else look t k

/-- Set a key, keeping keys rising. -/
def put {α : Type} (l : List (Nat × α)) (k : Nat) (v : α) : List (Nat × α) :=
  match l with
  | [] => [(k, v)]
  | (a, u) :: t => if k < a then (k, v) :: (a, u) :: t else if k = a then (k, v) :: t else (a, u) :: put t k v

/-- Remove a key. -/
def del {α : Type} (l : List (Nat × α)) (k : Nat) : List (Nat × α) := l.filter (fun e => e.1 ≠ k)

/-- The lowest number below `bound` that is no key of `l`, and at least `lo`. -/
def freeKey {α : Type} (l : List (Nat × α)) (lo bound : Nat) : Option Nat :=
  ((List.range (l.length + 1)).map (fun i => lo + i)).find? (fun i => decide (i < bound) && (look l i).isNone)

/-- Change the element at place `i`. -/
def modAt {α : Type} (l : List α) (i : Nat) (f : α → α) : List α :=
  match l, i with
  | [], _ => []
  | a :: t, 0 => f a :: t
  | a :: t, i + 1 => a :: modAt t i f

/-- Remove the element at place `i`. -/
def delAt {α : Type} (l : List α) (i : Nat) : List α :=
  match l, i with
  | [], _ => []
  | _ :: t, 0 => t
  | a :: t, i + 1 => a :: delAt t i

/-- The place of the first element that satisfies `p`. -/
def placeOf {α : Type} (p : α → Bool) (l : List α) : Option Nat :=
  match l with
  | [] => none
  | a :: t => if p a then some 0 else (placeOf p t).map (· + 1)

/-- The least element by the given strict order, and its place. -/
def leastBy {α : Type} (lt : α → α → Bool) (l : List α) : Option α :=
  l.foldl (fun b a => match b with | none => some a | some x => if lt a x then some a else some x) none

/-- Little-endian bytes of `x`. -/
def leBytes (n x : Nat) : List Byte := (List.range n).map (fun i => BitVec.ofNat 8 (x / 2 ^ (8 * i)))

/-- The number that little-endian bytes spell. -/
def leNat (l : List Byte) : Nat := l.foldr (fun b acc => b.toNat + 256 * acc) 0

/-- Bytes `[off, off + n)` of a list as a number; bytes beyond its end read as zero. -/
def leAt (l : List Byte) (off n : Nat) : Nat := leNat ((l.drop off).take n)

/-- Replace bytes of a list from `off` on. -/
def bytesPut (l : List Byte) (off : Nat) (v : List Byte) : List Byte :=
  l.take off ++ v ++ l.drop (off + v.length)

end Sys2Proof.Machine
end

