-- ==== Sys2Proof/Machine/Access.lean ====
section
/-! DEFINITION. Accessors of State: clusters, teams, crews, contexts, dies, operations; registers, predicates, flags. -/

namespace Sys2Proof.Machine

/-- What a step answers. -/
abbrev Out := Host.Outcome State Fault Refusal

/-- Die of a cluster (R4). -/
def dieNo (cl : Nat) : Nat := if cl < 96 then 0 else 1

def clusterOf (s : State) (x : Nat) : Cluster := (look s.clusters x).getD Cluster.reset
def setCluster (s : State) (x : Nat) (c : Cluster) : State := { s with clusters := put s.clusters x c }
def updCluster (s : State) (x : Nat) (f : Cluster → Cluster) : State := setCluster s x (f (clusterOf s x))

def teamOf (s : State) (x ts : Nat) : Option Team := look (clusterOf s x).teams ts
def setTeam (s : State) (x ts : Nat) (t : Team) : State :=
  updCluster s x (fun c => { c with teams := put c.teams ts t })
def updTeam (s : State) (x ts : Nat) (f : Team → Team) : State :=
  match teamOf s x ts with
  | none => s
  | some t => setTeam s x ts (f t)

def crewOf (s : State) (r : CrewRef) : Option Crew :=
  match teamOf s r.cl r.ts with
  | none => none
  | some t => t.crews[r.cr]?
def updCrew (s : State) (r : CrewRef) (f : Crew → Crew) : State :=
  updTeam s r.cl r.ts (fun t => { t with crews := modAt t.crews r.cr f })
def setCrew (s : State) (r : CrewRef) (c : Crew) : State := updCrew s r (fun _ => c)

def dieOf (s : State) (d : Nat) : Die := if d = 0 then s.die0 else s.die1
def updDie (s : State) (d : Nat) (f : Die → Die) : State :=
  if d = 0 then { s with die0 := f s.die0 } else { s with die1 := f s.die1 }

def ctxOf (s : State) (c : Nat) : Option Ctx := look s.ctxs c
def updCtx (s : State) (c : Nat) (f : Ctx → Ctx) : State :=
  match look s.ctxs c with
  | none => s
  | some x => { s with ctxs := put s.ctxs c (f x) }

def opOf (s : State) (n : Nat) : Option EngOp := look s.ops n
def updOp (s : State) (n : Nat) (f : EngOp → EngOp) : State :=
  match look s.ops n with
  | none => s
  | some o => { s with ops := put s.ops n (f o) }

def gridOf (s : State) (ctx gid : Nat) : Option Grid := s.grids.find? (fun g => g.ctx == ctx && g.gid == gid)
def updGrid (s : State) (ctx gid : Nat) (f : Grid → Grid) : State :=
  { s with grids := s.grids.map (fun g => if g.ctx == ctx && g.gid == gid then f g else g) }

def emit (s : State) (e : DriverEvent) : State := { s with events := s.events ++ [e] }
def send (s : State) (e : Egress) : State := { s with egress := s.egress ++ [e] }

/-- Take a fresh number for a free value. -/
def bump (s : State) : State := { s with fresh := s.fresh + 1 }

/-- Every crew that is resident, by reference. -/
def residentCrews (s : State) : List CrewRef :=
  s.clusters.flatMap (fun c => c.2.teams.flatMap (fun t =>
    (List.range t.2.crews.length).map (fun i => { cl := c.1, ts := t.1, cr := i })))

/-- Every resident team: cluster, slot. -/
def residentTeams (s : State) : List (Nat × Nat) := s.clusters.flatMap (fun c => c.2.teams.map (fun t => (c.1, t.1)))

/-- A team with every crew changed. -/
def mapTeamCrews (x ts : Nat) (f : CrewRef → Crew → Crew) (t : Team) : Team :=
  { t with crews := List.zipWith (fun i w => f { cl := x, ts := ts, cr := i } w) (List.range t.crews.length) t.crews }

/-- Apply `f` to every resident crew. -/
def mapCrews (s : State) (f : CrewRef → Crew → Crew) : State :=
  let cluster (x : Nat) (c : Cluster) : Cluster := { c with teams := c.teams.map (fun t => (t.1, mapTeamCrews x t.1 f t.2)) }
  { s with clusters := s.clusters.map (fun c => (c.1, cluster c.1 c.2)) }

/-- Apply `f` to every cluster that is listed. -/
def mapClusters (s : State) (f : Nat → Cluster → Cluster) : State :=
  { s with clusters := s.clusters.map (fun c => (c.1, f c.1 c.2)) }

/-! Registers. -/

/-- Physical register of g`n` of slot `i` (R14). -/
def regNo (c : Crew) (i n : Nat) : Nat := c.base + i * c.win + n

/-- g`n` of slot `i` (R11). -/
def gRead (cl : Cluster) (c : Crew) (i n : Nat) : W32 := cRead cl.rf (regNo c i n)

/-- Predicate p`n` of slot `i`; p15 reads as 1 (R12). -/
def pRead (c : Crew) (i n : Nat) : Bool := n == 15 || (cRead c.preds i).getLsbD n

/-- Set predicate p`n` of slot `i`; p15 ignores writes (R12). -/
def pWrite (c : Crew) (i n : Nat) (b : Bool) : Crew :=
  if n < 15 then
    let w := (cRead c.preds i).toNat
    let w' := w - (w / 2 ^ n % 2) * 2 ^ n + (if b then 2 ^ n else 0)
    { c with preds := cWrite c.preds i (BitVec.ofNat 16 w') }
  else c

/-- The predicate word of slot `i` with bit 15 set (R112). -/
def predWord (c : Crew) (i : Nat) : Nat := (cRead c.preds i).toNat % 2 ^ 15 + 2 ^ 15

/-- Does the guard hold for slot `i` (R12, R46)? -/
def guardHolds (c : Crew) (g : Guard) (i : Nat) : Bool := pRead c i g.p.toNat != g.neg

def setG (s : State) (r : CrewRef) (i n : Nat) (v : W32) : State :=
  match crewOf s r with
  | none => s
  | some c => updCluster s r.cl (fun cl => { cl with rf := cWrite cl.rf (regNo c i n) v })
def setK (s : State) (r : CrewRef) (n : Nat) (v : W32) : State :=
  updCrew s r (fun c => { c with k := cWrite c.k n v })
def setP (s : State) (r : CrewRef) (i n : Nat) (b : Bool) : State := updCrew s r (fun c => pWrite c i n b)

/-- OR sticky bits into the crew status word (R17). -/
def orStat (s : State) (r : CrewRef) (bits : Nat) : State :=
  updCrew s r (fun c => { c with stat := c.stat ||| BitVec.ofNat 64 (bits % 2 ^ 11) })

/-! The REP fields of the crew status word (R17). -/

def repLeft (st : W64) : Nat := slice st.toNat 57 7
def repDone (st : W64) : Nat := slice st.toNat 51 6
def repMask (st : W64) : Nat := slice st.toNat 47 4
def repStep (st : W64) : Nat := slice st.toNat 45 2
/-- The status word with other REP fields. -/
def withRep (st : W64) (left done mask step : Nat) : W64 :=
  BitVec.ofNat 64 (left * 2 ^ 57 + done * 2 ^ 51 + mask * 2 ^ 47 + step * 2 ^ 45 + st.toNat % 2 ^ 45)
/-- The REP fields alone, at their places. -/
def repFields (st : W64) : W64 := BitVec.ofNat 64 (st.toNat / 2 ^ 45 * 2 ^ 45)

/-! Headers (R36). -/

def hdrTag (h : W64) : Nat := slice h.toNat 60 4
def hdrCount (h : W64) : Nat := slice h.toNat 56 4
def hdrPorts (h : W64) : Nat := slice h.toNat 52 4
def hdrWait (h : W64) : Nat := slice h.toNat 40 12
def hdrDrain (h : W64) : Bool := tb h.toNat 39
def hdrYield (h : W64) : Bool := tb h.toNat 38
def hdrRsv (h : W64) : Nat := slice h.toNat 32 6
def hdrKc (h : W64) : W32 := BitVec.ofNat 32 h.toNat

/-- Where a batch stands: its word, or its header. -/
def batchPc (b : Batch) : Nat := if b.begun then b.header + 8 * (b.next + 1) else b.header

/-- The address after the last word of the clause (R36). -/
def clauseEnd (b : Batch) : Nat := b.header + 8 * (hdrCount b.hdr + 2)

/-! Pending counts (R16). -/

def flagCount (c : Crew) (f : Nat) : Nat := (cRead c.flags f).toNat
def flagUp (c : Crew) (f : Nat) : Crew := { c with flags := cWrite c.flags f (BitVec.ofNat 4 (flagCount c f + 1)) }
def flagDown (c : Crew) (f : Nat) : Crew := { c with flags := cWrite c.flags f (BitVec.ofNat 4 (flagCount c f - 1)) }
/-- Are all flags of a 12-bit mask clear? -/
def flagsClear (c : Crew) (mask : Nat) : Bool :=
  (List.range 12).all (fun f => !tb mask f || flagCount c f == 0)

/-! Holder identities (R33). -/

def holderId (cls ctx gid low : Nat) : W64 := BitVec.ofNat 64 (cls * 2 ^ 60 + ctx % 2 ^ 12 * 2 ^ 48 + gid % 2 ^ 16 * 2 ^ 32 + low % 2 ^ 32)
def crewHolder (ctx gid : Nat) (r : CrewRef) : W64 := holderId 0 ctx gid (r.cl * 2 ^ 16 + r.ts * 2 ^ 8 + r.cr)
def teamHolder (ctx gid cl ts : Nat) : W64 := holderId 1 ctx gid (cl * 2 ^ 16 + ts * 2 ^ 8)
def gridHolder (ctx gid : Nat) : W64 := holderId 2 ctx gid 0
/-- `kind`: 0 term engine, 1 copy engine, 2 Churn. -/
def engineHolder (ctx die cl kind n : Nat) : W64 := holderId 3 ctx 0 (die * 2 ^ 24 + cl * 2 ^ 16 + kind * 2 ^ 8 + n)
def peerHolder (dev : Nat) : W64 := holderId 4 0 0 dev
def hostHolder (n : Nat) : W64 := holderId 5 0 0 n
def queueHolder (ctx q : Nat) : W64 := holderId 6 ctx 0 q

def holderClass (h : W64) : Nat := h.toNat / 2 ^ 60
def holderCtx (h : W64) : Nat := slice h.toNat 48 12
def holderGid (h : W64) : Nat := slice h.toNat 32 16
def holderLow (h : W64) : Nat := h.toNat % 2 ^ 32
def holderCl (h : W64) : Nat := slice h.toNat 16 8
def holderTs (h : W64) : Nat := slice h.toNat 8 5
def holderCr (h : W64) : Nat := h.toNat % 32

/-- The reference of a crew holder. -/
def holderRef (h : W64) : CrewRef := { cl := holderCl h, ts := holderTs h, cr := holderCr h }

/-- Crew, team and grid identities through which a crew acts (R165, R179). -/
def identities (t : Team) (c : Crew) (r : CrewRef) : List W64 :=
  [crewHolder c.ctx t.gid r, teamHolder c.ctx t.gid r.cl r.ts, gridHolder c.ctx t.gid]

/-! Banks (R301, R302). -/

/-- Mode, owner and FIFO state of bank `n`. -/
def bankOf (c : Cluster) (n : Nat) : Bank :=
  (look c.banks n).getD { mode := if n < 128 then .way else .off, owner := 0, bound := none, slots := [] }
def setBank (c : Cluster) (n : Nat) (b : Bank) : Cluster := { c with banks := put c.banks n b }
/-- Numbers of the banks in a mode. -/
def banksIn (c : Cluster) (m : BankMode) : List Nat := (List.range 384).filter (fun n => decide ((bankOf c n).mode = m))
/-- WAY banks of the cluster. -/
def wayCount (c : Cluster) : Nat := (banksIn c .way).length

/-- Zero the contents of a bank. -/
def zeroBank (c : Cluster) (n : Nat) : Cluster := { c with sram := cClear c.sram (n * 1024) 1024 }

/-- Position in SRAM of PAD offset `o` of a team (R25). -/
def padKey (banks : List Nat) (o : Nat) : Nat :=
  let n := banks.length
  let q := o / 16
  (banks[q % n]?).getD 0 * 1024 + q / n * 16 + o % 16

def padSize (t : Team) : Nat := t.banks.length * 1024

/-- Bytes of the team's PAD (R25). -/
def padBytes (s : State) (cl ts off n : Nat) : List Byte :=
  match teamOf s cl ts with
  | none => List.replicate n 0#8
  | some t => if t.banks.isEmpty then List.replicate n 0#8
    else (List.range n).map (fun i => cRead (clusterOf s cl).sram (padKey t.banks (off + i)))

/-- Write bytes to the team's PAD. -/
def padWrite (s : State) (cl ts off : Nat) (l : List Byte) : State :=
  match teamOf s cl ts with
  | none => s
  | some t =>
    let w (m : Cells 8) : Cells 8 := (List.range l.length).foldl (fun m i => cWrite m (padKey t.banks (off + i)) (l.getD i 0#8)) m
    if t.banks.isEmpty then s else updCluster s cl (fun c => { c with sram := w c.sram })

def padNat (s : State) (cl ts off n : Nat) : Nat := leNat (padBytes s cl ts off n)

end Sys2Proof.Machine
end

