-- ==== Sys2Proof/Machine/Home.lean ====
section
/-! DEFINITION. Physical memory at its home (R279, R387), the L2 records of lines (R313-R315), poison (R377), page-table
walks and TLBs (R370, R371), instruction fetch (R45) and page requests (R368). -/

namespace Sys2Proof.Machine

/-! Locations. A key below 2^52 is a physical address; a larger one names a byte of peer memory by member, context and
virtual address, as the access carries it (R399, log 3). -/

def peerKey (member ctx va : Nat) : Nat := 2 ^ 52 + (member * 2 ^ 12 + ctx) * 2 ^ 57 + va
def isPeer (k : Nat) : Bool := decide (2 ^ 52 ≤ k)
def peerMember (k : Nat) : Nat := (k - 2 ^ 52) / 2 ^ 69
def peerCtx (k : Nat) : Nat := (k - 2 ^ 52) / 2 ^ 57 % 2 ^ 12
def peerVa (k : Nat) : Nat := (k - 2 ^ 52) % 2 ^ 57

/-- Is the physical address CXL memory (R387)? -/
def isCxl (k : Nat) : Bool := !isPeer k && k / 2 ^ 50 == 1

/-- The root-port state (R386, R404, R405). -/
def cxlPort (s : State) (p : Nat) : CxlPort := (look s.cxl p).getD CxlPort.reset

/-- The root port behind which a CXL address lies (R387, R404). -/
def portOf (k : Nat) : Nat := if tb k 49 then k % 2 ^ 49 / 4096 % 8 else slice k 46 3

/-- The expander byte that a CXL address names, as its per-port address (R404). -/
def expander (s : State) (k : Nat) : Nat :=
  if tb k 49 then
    let o := k % 2 ^ 49
    2 ^ 50 + portOf k * 2 ^ 46 + (cxlPort s (portOf k)).sbase + o / 32768 * 4096 + o % 4096
  else k

/-- The length of the safe-tier window: eight times the shortest interleave set (R404). -/
def safeLen (s : State) : Nat := 8 * (List.range 8).foldl (fun n p => min n (cxlPort s p).slen) (2 ^ 46)

/-- The safe-tier name of an expander byte, where it has one (R404). -/
def safeName (s : State) (x : Nat) : Option Nat :=
  let p := slice x 46 3
  let d := x % 2 ^ 46 - (cxlPort s p).sbase
  let o := d / 4096 * 32768 + p * 4096 + d % 4096
  if x % 2 ^ 46 < (cxlPort s p).sbase || safeLen s ≤ o then none else some (2 ^ 50 + 2 ^ 49 + o)

/-- Is the location behind an isolated port (R386)? -/
def behindIsolated (s : State) (k : Nat) : Bool := isCxl k && (cxlPort s (portOf k)).isolated

/-- Peer memory that no access reaches: its member number names this device, no member of the pod, or one that is lost (R399,
R401). -/
def peerGone (s : State) (k : Nat) : Bool :=
  isPeer k && (peerMember k == s.boot.member || s.ua.absent.contains (peerMember k) || s.ua.lost.contains (peerMember k))

/-- The fault that an access to peer memory meets: ORPHAN where no access reaches it, else what its member's own tables answer
(R399, log 31). -/
def peerFault (s : State) (k : Nat) : Option FKind :=
  if peerGone s k then some .orphan
  else if isPeer k then (s.ua.refused.find? (fun e => decide (e.1 ≤ k) && decide (k < e.2.1))).map (·.2.2)
  else none

/-- Does the holder of the location, a pod member or the device behind a root port, answer nothing for now (R401, R405)? -/
def quiet (s : State) (k : Nat) : Bool :=
  if isPeer k then s.ua.silent.contains (peerMember k) && !peerGone s k
  else isCxl k && (cxlPort s (portOf k)).silent && !(cxlPort s (portOf k)).isolated

/-- Send a request to a pod member; one that does not answer leaves it without an answer (R401). -/
def request (s : State) (m : Nat) (e : Egress) : State :=
  let s := send s e
  if s.ua.silent.contains m then
    { s with ua := { s.ua with out := s.ua.out ++ [{ member := m, first := s.cycle, last := s.cycle, req := e, op := none }] } }
  else s

/-- Does a store of a fibre to peer memory wait for its acknowledgement (R173, R400)? -/
def unacked (s : State) : Bool := s.ua.out.any (fun x => x.op.isNone && (match x.req with | .peerStore _ _ _ _ => true | _ => false))

/-- A request to the device behind a silent root port waits for its completion (R405). -/
def askPort (s : State) (p : Nat) : State :=
  if (cxlPort s p).silent && !(cxlPort s p).isolated && (cxlPort s p).asked.isNone then
    { s with cxl := put s.cxl p { cxlPort s p with asked := some s.cycle } }
  else s

/-- The die that homes a location (R279); peer memory has its copies on the requester's die. -/
def homeDie (k reqDie : Nat) : Nat :=
  if isPeer k then reqDie
  else if isCxl k then (if portOf k < 4 then 0 else 1)
  else if k / (48 * 2 ^ 30) < 4 then 0 else 1

/-- The number of the latest receipt of the region of peer memory that holds the byte. -/
def peerEpoch (s : State) (k : Nat) : Nat :=
  ((s.peerEpochs.find? (fun e => decide (e.1 ≤ k) && decide (k < e.2.1))).map (·.2.2)).getD 0

/-- The bytes [k, k + n) of peer memory may have changed at the peer: what this device wrote there no longer counts, and each
is a free value until it is written (log 3). -/
def newPeerEpoch (s : State) (k n : Nat) : State :=
  let old (e : Nat × Nat × Nat) : Bool := decide (k ≤ e.1) && decide (e.2.1 ≤ k + n)
  { bump s with peerMem := s.peerMem.filter (fun b => !(decide (k ≤ b.1) && decide (b.1 < k + n))),
                peerEpochs := (k, k + n, s.fresh + 1) :: s.peerEpochs.filter (fun e => !old e) }

/-- The byte at its home. -/
def homeByte (s : State) (k : Nat) : Byte :=
  if isPeer k then (look s.peerMem k).getD (Config.peerByte (peerEpoch s k * 2 ^ 160 + k))
  else if isCxl k then (look s.cxlDirty k).getD ((look s.cxlHeld k).getD (cRead s.mem (expander s k)))
  else cRead s.mem k

def homeBytes (s : State) (k n : Nat) : List Byte := (List.range n).map (fun i => homeByte s (k + i))
def homeNat (s : State) (k n : Nat) : Nat := leNat (homeBytes s k n)

/-- Put one byte at its home. -/
def homePut (s : State) (k : Nat) (b : Byte) : State :=
  if isPeer k then { s with peerMem := put s.peerMem k b }
  else if isCxl k then { s with cxlDirty := put s.cxlDirty k b }
  else { s with mem := cWrite s.mem k b }

def homePuts (s : State) (k : Nat) (l : List Byte) : State :=
  match l with
  | [] => s
  | b :: t => homePuts (homePut s k b) (k + 1) t

/-! The L2 (R313-R315, R385). -/

def l2Sectors (key n : Nat) : BitVec 4 :=
  (List.range 4).foldl (fun (m : BitVec 4) i =>
    if decide (key < key / 128 * 128 + 32 * (i + 1)) && decide (key / 128 * 128 + 32 * i < key + n)
    then m ||| (1#4 <<< i) else m) 0#4

def bits4 (m : BitVec 4) : Nat := ((List.range 4).filter (fun i => m.getLsbD i)).length

/-- Does the die's L2 hold the `n` bytes at `k`, in one line, in valid sectors? -/
def l2Holds (d : Die) (k n : Nat) : Bool := d.l2.any (fun e => e.key == k / 128 * 128 && e.valid &&& l2Sectors k n == l2Sectors k n)

/-- Does the home L2 of local or CXL memory hold them? -/
def homeHolds (s : State) (k n : Nat) : Bool := l2Holds (dieOf s (homeDie k 0)) k n

/-! Poison (R377). -/

/-- Is the 64-byte line of the location poisoned at its home? A line of CXL memory that the home L2 does not hold is where the
expander has it so (R403). -/
def poisoned (s : State) (k : Nat) : Bool :=
  s.poison.contains (k / 64 * 64)
    || (isCxl k && !homeHolds s (k / 64 * 64) 64 && s.cxlPoison.contains (expander s (k / 64 * 64)))

def poisonLine (s : State) (k : Nat) : State :=
  if poisoned s k then s else { s with poison := s.poison ++ [k / 64 * 64] }

/-- The lines of which a write of `n` bytes at `k` covers all 64 bytes lose their poison (R166). -/
def unpoison (s : State) (k n : Nat) : State :=
  { s with poison := s.poison.filter (fun l => !(decide (k ≤ l) && decide (l + 64 ≤ k + n))) }

/-! Counts, fills and evictions. -/

def l2Count (d : Die) (ctx : Nat) : L2Count := (look d.counts ctx).getD { fills := 0#64, hits := 0#64, wbacks := 0#64, evicts := 0#64 }
def l2Charge (d : Die) (ctx : Nat) (f : L2Count → L2Count) : Die := { d with counts := put d.counts ctx (f (l2Count d ctx)) }

/-- Write the byte at `x` of the expanders. A clean line that an L2 holds under one of the byte's names keeps what it was filled with
(R404). -/
def expanderPut (s : State) (x : Nat) (b : Byte) : State :=
  let old := cRead s.mem x
  let keep (s : State) (k : Nat) : State :=
    if homeHolds s k 1 && (look s.cxlDirty k).isNone && (look s.cxlHeld k).isNone then { s with cxlHeld := put s.cxlHeld k old } else s
  let s := if b = old then s else (x :: (safeName s x).toList).foldl keep s
  { s with mem := cWrite s.mem x b }

/-- A line of an expander is poisoned, or is no more (R403). -/
def expanderPoison (s : State) (x : Nat) (bad : Bool) : State :=
  { s with cxlPoison := s.cxlPoison.filter (· != x) ++ (if bad then [x] else []) }

/-- The dirty bytes of a CXL line go to the expander, at an eviction or a flush, and so does its poison; all 64 of a line without
poison clear the expander's (R166, R403). -/
def cxlSpill (s : State) (line n : Nat) : State :=
  let mark (s : State) (k : Nat) : State :=
    if s.poison.contains k then expanderPoison s (expander s k) true
    else if (List.range 64).all (fun i => (look s.cxlDirty (k + i)).isSome) then expanderPoison s (expander s k) false
    else s
  let s := (List.range (n / 64)).foldl (fun s i => mark s (line + 64 * i)) s
  let s := if s.cxlDirty.any (fun b => decide (line ≤ b.1) && decide (b.1 < line + n)) then askPort s (portOf line) else s
  (List.range n).foldl (fun s i =>
    match look s.cxlDirty (line + i) with
    | none => s
    | some b => let s := expanderPut s (expander s (line + i)) b; { s with cxlDirty := del s.cxlDirty (line + i) }) s

/-- The home L2 holds the CXL lines of a 128-byte line no longer: their marks have gone to the expander. -/
def cxlForget (s : State) (line : Nat) : State :=
  { s with cxlHeld := s.cxlHeld.filter (fun b => b.1 / 128 != line / 128), poison := s.poison.filter (fun k => k / 128 != line / 128) }

/-- A fill from a poisoned line of an expander marks the line (R403). -/
def cxlFilled (s : State) (line : Nat) (bring : BitVec 4) : State :=
  [0, 64].foldl (fun s i =>
    if bring &&& l2Sectors (line + i) 64 != 0#4 && s.cxlPoison.contains (expander s (line + i)) && !s.poison.contains (line + i) then
      { s with poison := s.poison ++ [line + i] }
    else s) s

/-- The place of the L2's victim: the least recently used unmarked line, else the least recently used (R385, log 8). -/
def l2Victim (l : List L2Line) : Option Nat :=
  match placeOf (fun e => !e.keep) l.reverse with
  | some i => some (l.length - 1 - i)
  | none => if l.isEmpty then none else some (l.length - 1)

/-- Evict while more than 5,242,880 sectors are valid (R313); `n` bounds the lines that go. -/
def l2Trim (s : State) (die ctx : Nat) (n : Nat) : State :=
  match n with
  | 0 => s
  | n + 1 =>
    let d := dieOf s die
    if (d.l2.map (fun e => bits4 e.valid)).sum ≤ 5242880 then s
    else match l2Victim d.l2 with
      | none => s
      | some i =>
        match d.l2[i]? with
        | none => s
        | some e =>
          let s := if isCxl e.key then cxlForget (cxlSpill s e.key 128) e.key else s
          let s := updDie s die (fun d =>
            let d := l2Charge d e.dirtier (fun c => { c with wbacks := c.wbacks + BitVec.ofNat 64 (bits4 e.dirty) })
            let d := l2Charge d ctx (fun c => { c with evicts := c.evicts + 1#64 })
            { d with l2 := delAt d.l2 i, peerCopies := d.peerCopies.filter (fun b => b.1 / 128 != e.key / 128) })
          l2Trim s die ctx n

/-- Marked lines hold at most half of the L2: a further mark clears that of the least recently used marked line (R385). -/
def l2Unmark (l : List L2Line) : List L2Line :=
  if (l.filter (·.keep)).length ≤ 655360 then l
  else match placeOf (fun e => e.keep) l.reverse with
    | some i => modAt l (l.length - 1 - i) (fun e => { e with keep := false })
    | none => l

/-- One request at an L2: count it, fill what is missing, record dirtying and the keep-last mark (R314, R315, R385). A write is
served from no sector, so it counts as no hit (R315's example). `whole`: the fill brings the whole line (R313). -/
def l2Request (s : State) (die key n ctx : Nat) (write last whole : Bool) : State :=
  let line := key / 128 * 128
  let want := l2Sectors key n
  let d := dieOf s die
  let old := (d.l2.find? (fun e => e.key == line)).getD
    { key := line, valid := 0#4, dirty := 0#4, keep := false, dirtier := ctx }
  let hit := decide (old.valid &&& want = want)
  let bring := (if whole then 15#4 else want) &&& ~~~old.valid
  let e := { old with valid := if hit then old.valid else old.valid ||| bring,
                      dirty := if write then old.dirty ||| want else old.dirty,
                      dirtier := if write then ctx else old.dirtier, keep := old.keep || (last && decide (key < 2 ^ 50)) }
  let s := updDie s die (fun d =>
    let d := l2Charge d ctx (fun c => if hit then (if write then c else { c with hits := c.hits + 1#64 })
      else { c with fills := c.fills + BitVec.ofNat 64 (bits4 bring) })
    { d with l2 := (if last then l2Unmark else id) (e :: d.l2.filter (fun x => x.key != line)) })
  if hit then s else l2Trim (if isCxl key then cxlFilled (askPort s (portOf key)) line bring else s) die ctx d.l2.length

/-- A line of local memory that the L2 holds takes the keep-last mark (R385). -/
def l2Mark (s : State) (reqDie k : Nat) : State :=
  if 2 ^ 50 ≤ k then s
  else updDie s (homeDie k reqDie) (fun d =>
    { d with l2 := l2Unmark (d.l2.map (fun e => if e.key = k / 128 * 128 then { e with keep := true } else e)) })

/-- A read of peer memory goes to the peer by whole 64-byte lines (R399). -/
def peerAsk (s : State) (k n : Nat) : State :=
  let lo := k / 64 * 64
  send s (.peerRead (peerMember lo) (peerCtx lo) (peerVa lo) ((k + n + 63) / 64 * 64 - lo))

/-- A read of `n` bytes at the home, by a context; `whole`: a fill brings the whole line (R313). -/
def homeFetch (s : State) (reqDie k n ctx : Nat) (last whole : Bool) : State × List Byte :=
  (if isPeer k then peerAsk s k n else l2Request s (homeDie k reqDie) k n ctx false last whole, homeBytes s k n)

def homeRead (s : State) (reqDie k n ctx : Nat) (last : Bool) : State × List Byte := homeFetch s reqDie k n ctx last true

/-- A write of bytes at the home, by a context: performed at once (R254), and past the local L2 copies of peer memory (R298). `whole`: a
fill brings the whole line (R313). -/
def homePast (s : State) (reqDie k ctx : Nat) (l : List Byte) (last whole : Bool) : State :=
  let s := homePuts s k l
  if isPeer k then request s (peerMember k) (.peerStore (peerMember k) (peerCtx k) (peerVa k) l)
  else l2Request s (homeDie k reqDie) k l.length ctx true last whole

/-- Copies of peer memory that the die's L2 holds are written in place (R300). -/
def copyPuts (s : State) (die k : Nat) (l : List Byte) : State :=
  updDie s die (fun d => { d with peerCopies := (List.range l.length).foldl (fun m i =>
    if (look m (k + i)).isSome then put m (k + i) (l.getD i 0#8) else m) d.peerCopies })

/-- A fibre's write of bytes at the home. -/
def homeStore (s : State) (reqDie k ctx : Nat) (l : List Byte) (last whole : Bool) : State :=
  let s := homePast s reqDie k ctx l last whole
  if isPeer k then copyPuts s reqDie k l else s

/-- One store at the home; one of a whole line clears its poison (R166). -/
def homeWrite (s : State) (reqDie k ctx : Nat) (l : List Byte) (last : Bool) : State :=
  unpoison (homeStore s reqDie k ctx l last true) k l.length

/-- The sectors of peer memory whose first byte satisfies `p` leave a die's L2 (R300). -/
def dropPeer (p : Nat → Bool) (d : Die) : Die :=
  let cut (e : L2Line) : BitVec 4 := (List.range 4).foldl (fun m i => if p (e.key + 32 * i) then m &&& ~~~(1#4 <<< i) else m) e.valid
  { d with peerCopies := d.peerCopies.filter (fun b => !p (b.1 / 32 * 32)),
           l2 := d.l2.filterMap (fun e => if !isPeer e.key then some e else if cut e = 0#4 then none else some { e with valid := cut e }) }

/-- Does the die's L2 hold a copy of the peer line at `k`? -/
def peerHeld (d : Die) (k : Nat) : Bool := l2Holds d k 64

/-- A fill of the die's L2 with the copy of a peer line, which is read from the peer where it is missing (R300, R313, R315). -/
def peerFill (s : State) (die k ctx : Nat) : State :=
  if peerHeld (dieOf s die) k then l2Request s die k 64 ctx false false true
  else
    let lo := k / 128 * 128
    let l := homeBytes s lo 128
    let s := l2Request (peerAsk s lo 128) die k 64 ctx false false true
    updDie s die (fun d => { d with peerCopies := (List.range 128).foldl (fun m i => put m (lo + i) (l.getD i 0#8)) d.peerCopies })

/-! Page tables (R370). -/

/-- Why a walk ends without a page: an entry that is not valid, a malformed one at this address, or one behind an isolated
port (R386). -/
inductive WalkErr where
  | absent
  | bad (pte : Nat)
  | late
  deriving DecidableEq, Repr

/-- Does a leaf's physical address break R387 or R379? -/
def leafReserved (pa : Nat) (rd wr ex : Bool) : Bool :=
  match pa / 2 ^ 50 with
  | 0 => decide (0x6000000000 ≤ pa)
  | 1 => false
  | 2 => tb pa 49 || decide (pa % 2 ^ 40 ≠ 0)
  | _ => if pa / 2 ^ 44 = 0xFE then rd || ex || !wr else true

/-- A leaf entry of page size 2^`bits`. -/
def leafOf (e pte va bits ctx : Nat) : Except WalkErr TlbEntry :=
  let pa := slice e 8 44 * 2 ^ 8
  if pa % 2 ^ bits ≠ 0 || leafReserved pa (tb e 2) (tb e 3) (tb e 4) then .error (.bad pte)
  else .ok { ctx := ctx, va := va / 2 ^ bits * 2 ^ bits, bits := bits, pa := pa, rd := tb e 2, wr := tb e 3, ex := tb e 4 }

/-- Bytes in the entry's reserved fields, all zero in a good one. -/
def pteReserved (e : Nat) : Bool := decide (slice e 5 3 ≠ 0) || decide (slice e 52 12 ≠ 0)

/-- The walk from a level's table down (R370). -/
def walkFrom (s : State) (ctx va : Nat) : Nat → Nat → Except WalkErr TlbEntry
  | 0, table =>
    let pte := table + 8 * slice va 16 5
    let e := homeNat s pte 8
    if behindIsolated s pte then .error .late
    else if !tb e 0 then .error .absent
    else if pteReserved e || !tb e 1 then .error (.bad pte)
    else leafOf e pte va 16 ctx
  | l + 1, table =>
    let pte := table + 8 * slice va (21 + 9 * l) 9
    let e := homeNat s pte 8
    if behindIsolated s pte then .error .late
    else if !tb e 0 then .error .absent
    else if pteReserved e then .error (.bad pte)
    else if tb e 1 then (if l ≤ 1 then leafOf e pte va (21 + 9 * l) ctx else .error (.bad pte))
    else
      let t := slice e 8 44 * 2 ^ 8
      if l ≠ 0 && t % 4096 ≠ 0 then .error (.bad pte) else walkFrom s ctx va l t

def tlbHit (l : List TlbEntry) (ctx va : Nat) : Option TlbEntry :=
  l.find? (fun e => e.ctx == ctx && va / 2 ^ e.bits == e.va / 2 ^ e.bits)

/-- Translate through the L0 TLB (for fibres and fetch), the die TLB and the walk (R371). -/
def translate (s : State) (cl : Option Nat) (die ctx va : Nat) : Except WalkErr TlbEntry :=
  match (match cl with | none => none | some x => tlbHit (clusterOf s x).tlb ctx va) with
  | some e => .ok e
  | none =>
    match tlbHit (dieOf s die).tlb ctx va with
    | some e => .ok e
    | none =>
      match ctxOf s ctx with
      | none => .error .absent
      | some c => walkFrom s ctx va 4 c.regs.ptbase

/-- Install a translation, the oldest entry leaving a full TLB (R371, log 8). -/
def tlbFill (s : State) (cl : Option Nat) (die : Nat) (e : TlbEntry) : State :=
  let add (n : Nat) (l : List TlbEntry) := if l.contains e then l else (e :: l).take n
  let s := updDie s die (fun d => { d with tlb := add 16384 d.tlb })
  match cl with
  | none => s
  | some x => updCluster s x (fun c => { c with tlb := add 64 c.tlb })

/-- The location that an entry gives a virtual address. -/
def locOf (e : TlbEntry) (va : Nat) : Nat :=
  let pa := e.pa + va % 2 ^ e.bits
  if pa / 2 ^ 50 = 2 then peerKey (slice e.pa 40 9) e.ctx va else pa

def isWindow (e : TlbEntry) : Bool := e.pa / 2 ^ 44 == 0xFE

/-- A malformed entry that a walk met is reported to the driver (R370). -/
def reportBad (s : State) (e : WalkErr) : State := match e with | .bad p => emit s (.badPte p) | _ => s

/-- Translate and install. -/
def xlate (s : State) (cl : Option Nat) (die ctx va : Nat) : State × Except WalkErr TlbEntry :=
  match translate s cl die ctx va with
  | .ok e => (tlbFill s cl die e, .ok e)
  | .error e => (reportBad s e, .error e)

/-- The locations of the bytes [a, a + n) that are mapped in the context, as intervals, one for each 64 KiB granule. -/
def spans (s : State) (die ctx a n : Nat) : List (Nat × Nat) :=
  if n = 0 then [] else
  (List.range ((a + n - 1) / 65536 - a / 65536 + 1)).filterMap (fun i =>
    let lo := max a ((a / 65536 + i) * 65536)
    let hi := min (a + n) ((a / 65536 + i + 1) * 65536)
    match (if 2 ^ 57 ≤ lo then .error .absent else translate s none die ctx lo) with
    | .ok e => some (locOf e lo, locOf e lo + (hi - lo))
    | .error _ => none)

/-- Does the 64-byte line at `line` hold a byte of one of the intervals? -/
def inSpans (l : List (Nat × Nat)) (line : Nat) : Bool := l.any (fun x => decide (line < x.2) && decide (x.1 < line + 64))

/-! Instruction fetch (R45). -/

/-- The eight bytes at a fetch address, through the instruction cache. -/
def fetch64 (s : State) (cl ctx va : Nat) : State × Except (FKind) W64 :=
  if va / 2 ^ 57 ≠ 0 then (s, .error .protection)
  else
    match xlate s (some cl) (dieNo cl) ctx va with
    | (s, .error .absent) => (s, .error .notPresent)
    | (s, .error (.bad _)) => (s, .error .protection)
    | (s, .error .late) => (s, .error .timeout)
    | (s, .ok e) =>
      if !e.ex then (s, .error .protection)
      else
        let k := locOf e va
        let line := k / 64 * 64
        match look (clusterOf s cl).icache line with
        | some d => (s, .ok (BitVec.ofNat 64 (d.toNat / 2 ^ (8 * (k % 64)))))
        | none =>
          if behindIsolated s k then (s, .error .timeout)
          else match peerFault s k with
          | some f => (s, .error f)
          | none =>
          let d : BitVec 512 := BitVec.ofNat 512 (homeNat s line 64)
          (updCluster s cl (fun c => { c with icache := put c.icache line d }),
           .ok (BitVec.ofNat 64 (d.toNat / 2 ^ (8 * (k % 64)))))

/-- Does a fetch wait for a holder that does not answer? -/
def fetchQuiet (s : State) (cl ctx va : Nat) : Bool :=
  decide (va < 2 ^ 57) && (match translate s (some cl) (dieNo cl) ctx va with
    | .ok e => e.ex && quiet s (locOf e va) && (look (clusterOf s cl).icache (locOf e va / 64 * 64)).isNone
        && (isPeer (locOf e va) || !homeHolds s (locOf e va) 8)
    | .error _ => false)

/-- An access to the location is outstanding: its holder is asked, once (R401, R405). -/
def askHolder (s : State) (k : Nat) : State :=
  let e := Egress.peerRead (peerMember k) (peerCtx k) (peerVa (k / 64 * 64)) 64
  if !isPeer k then askPort s (portOf k)
  else if s.ua.out.any (fun x => decide (x.req = e)) then s
  else request s (peerMember k) e

/-! Page requests (R368). -/

def ticketOf (i gen : Nat) : Nat := i + gen % 128 * 512

/-- The open entry of a page. -/
def pageOpen (s : State) (ctx va : Nat) : Option (Nat × PageReq) :=
  s.pages.find? (fun e => e.2.ctx == ctx && e.2.va == va / 65536)

/-- Open or join the entry of a page; none when the table of 512 is full. -/
def pageRequest (s : State) (ctx va : Nat) (f : FaultInfo) : State × Option Nat :=
  match pageOpen s ctx va with
  | some (i, e) => (s, some (ticketOf i e.gen))
  | none =>
    match freeKey s.pages 0 512 with
    | none => (s, none)
    | some i =>
      let gen := (look s.pageGens i).getD 0
      let t := ticketOf i gen
      let s := { s with pages := put s.pages i { ctx := ctx, va := va / 65536, gen := gen },
                        pageGens := put s.pageGens i ((gen + 1) % 128) }
      (emit s (.pageRequest t ctx f.needRd f.needWr f.needEx f.hw (va / 65536 * 65536)), some t)

end Sys2Proof.Machine
end

