-- ==== Sys2Proof/Machine/Token.lean ====
section
/-! DEFINITION. Owner tables: which token covers a byte, and what a holder may do (R165, R179, R280, R283). -/

namespace Sys2Proof.Machine

/-- Kinds of access that a token is checked for. -/
inductive AccKind where
  | load | store | atomic
  deriving DecidableEq, Repr

/-- A token's id in OWNQ's form (R185). -/
def tokenId (die idx : Nat) : Nat := die * 2 ^ 31 + idx
def noToken : Nat := 0xFFFFFFFF

/-- The token of a table that covers byte `a` of a context. -/
def coverIn (l : List (Nat × OwnEntry)) (ctx a : Nat) : Option (Nat × Token) :=
  match l with
  | [] => none
  | (i, .token t) :: r => if t.ctx == ctx && decide (t.base ≤ a) && decide (a < t.base + t.len) then some (i, t) else coverIn r ctx a
  | _ :: r => coverIn r ctx a

/-- The token that covers byte `a` of a context: die, index, token. -/
def coverOf (s : State) (ctx a : Nat) : Option (Nat × Nat × Token) :=
  match coverIn s.die0.owners ctx a with
  | some (i, t) => some (0, i, t)
  | none => (coverIn s.die1.owners ctx a).map (fun x => (1, x.1, x.2))

/-- Shares of the token at an index of a die. -/
def sharesOf (s : State) (die idx : Nat) : List (Nat × Share) :=
  (dieOf s die).owners.filterMap (fun e => match e.2 with
    | .share h => if h.tok = idx then some (e.1, h) else none
    | .token _ => none)

/-- Does holding the token itself permit the access (R165)? -/
def ownerMay (st : TokState) (k : AccKind) : Bool :=
  match st, k with
  | .excl, _ => true
  | .shared, .load => true
  | .atomic, .atomic => true
  | _, _ => false

/-- Does a share permit the access (R165)? -/
def shareMay (atomic : Bool) (k : AccKind) : Bool :=
  match atomic, k with
  | false, .load => true
  | true, .atomic => true
  | _, _ => false

/-- What one identity holds of a token: does it hold an entry, and does one of its entries permit the access? -/
def holds (s : State) (die idx : Nat) (t : Token) (id : W64) (k : AccKind) : Bool × Bool :=
  let sh := (sharesOf s die idx).filter (fun e => e.2.holder == id)
  (t.owner == id || !sh.isEmpty, (t.owner == id && ownerMay t.state k) || sh.any (fun e => shareMay e.2.atomic k))

/-- Is the identity at GRID level, or a PEER or HOST (R173)? -/
def wideHolder (id : W64) : Bool := holderClass id == 2 || holderClass id == 4 || holderClass id == 5

/-- The check of R165 at one byte, for the identities through which the issuer acts, nearest first: whether the access
rests on a wide entry, or the fault and its token id (R280). -/
def tokenCheck (s : State) (ctx : Nat) (ids : List W64) (a : Nat) (k : AccKind) : Except (FKind × Nat) Bool :=
  match coverOf s ctx a with
  | none => .error (.unowned, noToken)
  | some (d, i, t) =>
    match t.state with
    | .orphan => .error (.orphan, tokenId d i)
    | .poison => .error (.poison, tokenId d i)
    | _ =>
      match ids.find? (fun id => (holds s d i t id k).2) with
      | some id => .ok (wideHolder id)
      | none => if ids.any (fun id => (holds s d i t id k).1) then .error (.ownmode, tokenId d i)
                else .error (.unowned, tokenId d i)

/-- Rank of a token fault (R165). -/
def tokRank (k : FKind) : Nat := match k with | .orphan => 0 | .poison => 1 | .unowned => 2 | _ => 3

/-- Where the region around byte `a` ends: the end of the token that covers it, or the base of the next token. -/
def regionEnd (s : State) (ctx a : Nat) : Nat :=
  match coverOf s ctx a with
  | some (_, _, t) => t.base + t.len
  | none =>
    let bases := (s.die0.owners ++ s.die1.owners).filterMap (fun e => match e.2 with
      | .token t => if t.ctx == ctx && decide (a < t.base) then some t.base else none
      | .share _ => none)
    bases.foldl min (2 ^ 64)

/-- The check of R165 over the bytes [a, e): the worst fault in the order of R165; `n` bounds the regions met. -/
def rangeFault (s : State) (ctx : Nat) (ids : List W64) (k : AccKind) : Nat → Nat → Nat → Option (FKind × Nat)
  | 0, _, _ => none
  | n + 1, a, e =>
    if e ≤ a then none
    else
      let rest := rangeFault s ctx ids k n (regionEnd s ctx a) e
      match tokenCheck s ctx ids a k, rest with
      | .ok _, r => r
      | .error f, none => some f
      | .error f, some g => if tokRank g.1 < tokRank f.1 then some g else some f

/-- The regions that a range can meet: every token and the gaps between. -/
def regionBound (s : State) : Nat := 2 * (s.die0.owners.length + s.die1.owners.length) + 2

def tokensCover (s : State) (ctx : Nat) (ids : List W64) (k : AccKind) (a n : Nat) : Option (FKind × Nat) :=
  rangeFault s ctx ids k (regionBound s) a (a + n)

/-- The token entry at an index. -/
def tokenAt (s : State) (die idx : Nat) : Option Token :=
  match look (dieOf s die).owners idx with
  | some (.token t) => some t
  | _ => none

def setToken (s : State) (die idx : Nat) (t : Token) : State :=
  updDie s die (fun d => { d with owners := put d.owners idx (.token t) })
def setShare (s : State) (die idx : Nat) (h : Share) : State :=
  updDie s die (fun d => { d with owners := put d.owners idx (.share h) })
/-- The entry goes, and with it the joint hold of an engine operation on it (R350). -/
def delOwner (s : State) (die idx : Nat) : State :=
  let s := updDie s die (fun d => { d with owners := del d.owners idx })
  { s with ops := s.ops.map (fun o => (o.1, { o.2 with holds := o.2.holds.filter (fun h => h != (die, idx)) })) }

/-- A free index of a die's owner table of 131,072 entries (R283). -/
def freeOwner (s : State) (die : Nat) : Option Nat := freeKey (dieOf s die).owners 0 131072

/-- Free entries of a die's owner table. -/
def ownersFree (s : State) (die : Nat) : Nat := 131072 - (dieOf s die).owners.length

/-- All tokens with their places. -/
def allTokens (s : State) : List (Nat × Nat × Token) :=
  let of (d : Nat) (l : List (Nat × OwnEntry)) : List (Nat × Nat × Token) := l.filterMap (fun e => match e.2 with
    | .token t => some (d, e.1, t)
    | .share _ => none)
  of 0 s.die0.owners ++ of 1 s.die1.owners

/-- All shares with their places. -/
def allShares (s : State) : List (Nat × Nat × Share) :=
  let of (d : Nat) (l : List (Nat × OwnEntry)) : List (Nat × Nat × Share) := l.filterMap (fun e => match e.2 with
    | .share h => some (d, e.1, h)
    | .token _ => none)
  of 0 s.die0.owners ++ of 1 s.die1.owners

/-- Apply `f` to every token. -/
def mapTokens (s : State) (f : Nat → Nat → Token → Token) : State :=
  let on (d : Nat) (x : Die) : Die := { x with owners := x.owners.map (fun e => match e.2 with
    | .token t => (e.1, .token (f d e.1 t))
    | .share h => (e.1, .share h)) }
  { s with die0 := on 0 s.die0, die1 := on 1 s.die1 }

/-- The die that homes a region's first byte (R179); a peer's region has its mirror on die 0 (R283). -/
def regionDie (s : State) (ctx a : Nat) : Nat :=
  match translate s none 0 ctx a with
  | .ok e => if isPeer (locOf e a) then 0 else homeDie (locOf e a) 0
  | .error _ => 0

/-- A token's report (R284). -/
def tokenReport (d i : Nat) (t : Token) (cause cl dev : Nat) : List Byte :=
  let st := match t.state with | .excl => 0 | .shared => 1 | .atomic => 2 | .orphan => 3 | .poison => 4
  let kind := if t.peer.isSome then 3 else 0
  let rcl := if t.recaller.isSome then 1 else 0
  leBytes 8 t.base
    ++ leBytes 8 (t.len + kind * 2 ^ 41 + st * 2 ^ 44 + rcl * 2 ^ 47 + t.chain.length * 2 ^ 48 + t.ctx * 2 ^ 52)
    ++ leBytes 8 t.owner.toNat ++ leBytes 8 (t.recaller.getD 0#64).toNat
    ++ leBytes 8 (t.n + tokenId d i * 2 ^ 32) ++ leBytes 8 (cause + cl * 2 ^ 8 + dev * 2 ^ 16)
    ++ (List.range 8).flatMap (fun k => leBytes 8 ((t.chain[k]?).getD 0#64).toNat) ++ leBytes 16 0

/-- A share's report (R284): the region and state of its token. -/
def shareReport (d : Nat) (t : Token) (h : Share) (cause cl dev : Nat) : List Byte :=
  let st := match t.state with | .excl => 0 | .shared => 1 | .atomic => 2 | .orphan => 3 | .poison => 4
  leBytes 8 t.base ++ leBytes 8 (t.len + (if h.atomic then 2 else 1) * 2 ^ 41 + st * 2 ^ 44
      + (if t.recaller.isSome then 1 else 0) * 2 ^ 47 + t.chain.length * 2 ^ 48 + t.ctx * 2 ^ 52)
    ++ leBytes 8 h.holder.toNat ++ leBytes 8 (t.recaller.getD 0#64).toNat
    ++ leBytes 8 (t.n + tokenId d h.tok * 2 ^ 32) ++ leBytes 8 (cause + cl * 2 ^ 8 + dev * 2 ^ 16)
    ++ (List.range 8).flatMap (fun k => leBytes 8 ((t.chain[k]?).getD 0#64).toNat) ++ leBytes 16 0

end Sys2Proof.Machine
end

