-- ==== Sys2Proof/Machine/L1.lean ====
section
/-! DEFINITION. The L1 of a cluster (R302-R305), its victim tags (R270), write-backs (R254, R386) and fills (R169). -/

namespace Sys2Proof.Machine

/-- Access policies (R47, R169). -/
inductive Policy where
  | normal | first | last | bypass
  deriving DecidableEq, Repr

def policyOf (p : BitVec 2) : Policy :=
  if p = 0#2 then .normal else if p = 1#2 then .first else if p = 2#2 then .last else .bypass

/-- Sets of the L1 (R302). -/
def l1Sets (c : Cluster) : Nat := wayCount c / 4 * 16
def l1Set (c : Cluster) (k : Nat) : Nat := if l1Sets c = 0 then 0 else k / 64 % l1Sets c

def l1Find (c : Cluster) (k : Nat) : Option L1Line := c.l1.find? (fun e => e.key == k / 64 * 64)
def l1Drop (c : Cluster) (k : Nat) : Cluster := { c with l1 := c.l1.filter (fun e => e.key != k / 64 * 64) }
/-- Replace a line where it stands. -/
def l1Put (c : Cluster) (e : L1Line) : Cluster := { c with l1 := c.l1.map (fun x => if x.key == e.key then e else x) }
/-- Place a line at the most-recently-used or the evict-first position. -/
def l1Place (c : Cluster) (e : L1Line) (front : Bool) : Cluster :=
  let r := c.l1.filter (fun x => x.key != e.key)
  { c with l1 := if front then e :: r else r ++ [e] }

def lineByte (d : BitVec 512) (i : Nat) : Byte := BitVec.ofNat 8 (d.toNat / 2 ^ (8 * i))
def lineBytes (d : BitVec 512) (off n : Nat) : List Byte := (List.range n).map (fun i => lineByte d (off + i))
/-- A line's data with bytes replaced from `off` on. -/
def lineMerge (d : BitVec 512) (off : Nat) (l : List Byte) : BitVec 512 :=
  BitVec.ofNat 512 (leNat (bytesPut (lineBytes d 0 64) off l))
def maskOf (off n : Nat) : W64 := BitVec.ofNat 64 ((2 ^ n - 1) * 2 ^ off)

/-- Runs of set bits of a dirty mask, as (start, length). -/
def dirtyRuns (m : W64) : List (Nat × Nat) :=
  ((List.range 64).foldl (fun (acc : List (Nat × Nat)) i =>
    if m.getLsbD i then
      match acc with
      | (a, n) :: t => if a + n = i then (a, n + 1) :: t else (i, 1) :: acc
      | [] => [(i, 1)]
    else acc) []).reverse

/-- Write the dirty bytes of a line of cluster `cl` to its home and clear its mask (R254, R303), for the context that stored last
(R315). Poison at the home clears where one word's store of all 64 bytes is performed so (R166, R378). A line behind an isolated
port is discarded instead (R386). -/
def writeBack (s : State) (cl : Nat) (e : L1Line) : State :=
  if e.dirty = 0#64 then s
  else if behindIsolated s e.key then
    let s := updDie s (homeDie e.key (dieNo cl)) (fun d => { d with errcount := d.errcount + 1 })
    emit (updCluster s cl (fun c => l1Drop c e.key)) (.cxlDiscard e.key false)
  else
    let s := (dirtyRuns e.dirty).foldl (fun s r =>
      homeStore s (dieNo cl) (e.key + r.1) e.storer (lineBytes e.data r.1 r.2) false true) s
    let s := if e.poison then poisonLine s e.key
      else if e.whole && e.dirty == BitVec.allOnes 64 then unpoison s e.key 64 else s
    updCluster s cl (fun c => l1Put c { e with dirty := 0#64, whole := false })

/-- Write back every line of the cluster that satisfies `p`. -/
def writeBackAll (s : State) (cl : Nat) (p : L1Line → Bool) : State :=
  ((clusterOf s cl).l1.filter p).foldl (fun s e => writeBack s cl e) s

/-- Write back, then invalidate, every line that satisfies `p`. -/
def flushInv (s : State) (cl : Nat) (p : L1Line → Bool) : State :=
  let s := writeBackAll s cl p
  updCluster s cl (fun c => { c with l1 := c.l1.filter (fun e => !p e) })

/-- Invalidate without writing back. -/
def l1Invalidate (s : State) (cl : Nat) (p : L1Line → Bool) : State :=
  updCluster s cl (fun c => { c with l1 := c.l1.filter (fun e => !p e) })

/-- The victim of a full set: the least recently used unlocked line without a mark, else with one (R169). -/
def l1Victim (set : List L1Line) : Option L1Line :=
  match set.reverse.find? (fun e => e.lock.isNone && !e.keep) with
  | some e => some e
  | none => set.reverse.find? (fun e => e.lock.isNone)

/-- Bytes that a fill takes: from the home, or for peer memory from the die's L2 copy, which the fill makes (R300). -/
def fillBytes (s : State) (cl k ctx : Nat) (last : Bool) : State × List Byte :=
  if isPeer k then
    let s := peerFill s (dieNo cl) k ctx
    (s, (List.range 64).map (fun i => (look (dieOf s (dieNo cl)).peerCopies (k + i)).getD (homeByte s (k + i))))
  else homeRead s (dieNo cl) k 64 ctx last

/-- The lowest way of four that holds no line of the set. -/
def freeWay (set : List L1Line) : Nat := ([0, 1, 2, 3].find? (fun w => !set.any (fun e => e.way == w))).getD 0

/-- The WAY bank that holds a line, and the first of its four rows (R302). -/
def lineBank (c : Cluster) (e : L1Line) : Option Nat := (banksIn c .way)[4 * (l1Set c e.key / 16) + e.way]?
def lineRow (c : Cluster) (e : L1Line) : Nat := 4 * (l1Set c e.key % 16)

/-- Fill the line at `k` (R169, R304): none when there is no L1 or every way of the set is locked. `count`: the miss
counts for the throttle (R270). -/
def l1Fill (s : State) (cl k ctx : Nat) (pol : Policy) (wide urgent count : Bool) : State × Option L1Line :=
  let k := k / 64 * 64
  let c := clusterOf s cl
  let last := decide (pol = .last) || (urgent && decide (pol = .normal))
  let s := if count && c.victims.contains k then
    updCluster s cl (fun c => { c with victims := c.victims.filter (· != k), hits := c.hits + 1 }) else s
  if wayCount c = 0 || pol = .bypass then (s, none)
  else
    let set := c.l1.filter (fun e => l1Set c e.key == l1Set c k)
    let go (s : State) (w : Nat) : State × Option L1Line :=
      let r := fillBytes s cl k ctx last
      let e : L1Line := { key := k, data := BitVec.ofNat 512 (leNat r.2), dirty := 0#64, wide := wide, keep := last,
                          lock := none, lockVa := 0, poison := poisoned s k, ctx := ctx, storer := ctx, whole := false, way := w }
      (updCluster r.1 cl (fun c => l1Place c e (pol != .first)), some e)
    if set.length < 4 then go s (freeWay set)
    else match l1Victim set with
      | none => (s, none)
      | some v =>
        let s := writeBack s cl v
        go (updCluster s cl (fun c => { l1Drop c v.key with victims := (v.key :: c.victims).take 64 })) v.way

/-- The cluster's dirty bytes of the line reach the home, so that a BYPASS load sees them (R166). -/
def l1Settle (s : State) (cl k : Nat) : State := match l1Find (clusterOf s cl) k with | some e => writeBack s cl e | none => s

/-- Load `n` bytes of one line by a cluster (R169, R279, R304, R385). -/
def l1Load (s : State) (cl k n ctx : Nat) (pol : Policy) (wide urgent : Bool) : State × List Byte :=
  let home (s : State) := homeRead s (dieNo cl) k n ctx (pol = .last)
  if pol = .bypass then home (l1Settle s cl k)
  else match l1Find (clusterOf s cl) k with
    | some e =>
      let e := { e with keep := e.keep || decide (pol = .last) }
      let s := if pol = .last then l2Mark s (dieNo cl) k else s
      (updCluster s cl (fun c => if pol = .first && !e.keep then l1Place c e false else if pol = .first then l1Put c e else l1Place c e true),
       lineBytes e.data (k % 64) n)
    | none =>
      match l1Fill s cl k ctx pol wide urgent true with
      | (s, some e) => (s, lineBytes e.data (k % 64) n)
      | (s, none) => home s

/-- A store at the home that updates an L1 copy on the issuing cluster in place (R169); `wide` as R303 says. A copy of which one word
has stored all 64 bytes is written back first, so that the home's poison clears (R166). -/
def storeHome (s : State) (cl k ctx : Nat) (l : List Byte) (last wide : Bool) : State :=
  let s := match l1Find (clusterOf s cl) k with | some e => if e.whole then writeBack s cl e else s | none => s
  let s := homeWrite s (dieNo cl) k ctx l last
  match l1Find (clusterOf s cl) k with
  | none => s
  | some e => updCluster s cl (fun c => l1Put c { e with data := lineMerge e.data (k % 64) l, wide := e.wide || wide,
                                                         dirty := e.dirty &&& ~~~(maskOf (k % 64) l.length) })

/-- Is the location inside an active flush window of the cluster (R174)? -/
def inWindow (s : State) (cl k : Nat) : Bool :=
  (clusterOf s cl).walkers.any (fun w => inSpans (spans s (dieNo cl) w.2.ctx w.2.lo (w.2.hi - w.2.lo)) (k / 64 * 64))

/-- Store bytes of one line by a cluster (R169, R254, R304). A store to peer memory goes through (R300). -/
def l1Store (s : State) (cl k ctx : Nat) (l : List Byte) (pol : Policy) (wide urgent : Bool) : State :=
  if pol = .bypass then storeHome s cl k ctx l false wide
  else
    let merge (s : State) (e : L1Line) : State :=
      let e' : L1Line := { e with data := lineMerge e.data (k % 64) l, dirty := e.dirty ||| maskOf (k % 64) l.length,
                                  wide := e.wide || wide, keep := e.keep || decide (pol = .last), storer := ctx }
      let s := updCluster s cl (fun c => if pol = .first && !e'.keep then l1Place c e' false
        else if pol = .first then l1Put c e' else l1Place c e' true)
      if isPeer k || inWindow s cl k then storeHome s cl k ctx l (pol = .last) wide else if pol = .last then l2Mark s (dieNo cl) k else s
    match l1Find (clusterOf s cl) k with
    | some e => merge s e
    | none =>
      match l1Fill s cl k ctx pol wide urgent true with
      | (s, some e) => merge s e
      | (s, none) => storeHome s cl k ctx l (pol = .last) wide

/-- Is the home line poisoned once the cluster's dirty line has reached it? -/
def homePoison (s : State) (cl k : Nat) : Bool :=
  match l1Find (clusterOf s cl) k with
  | some e => if e.dirty = 0#64 then poisoned s k else e.poison || (poisoned s k && !(e.whole && e.dirty == BitVec.allOnes 64))
  | none => poisoned s k

/-- Is the byte range poisoned as the cluster would read it: the L1 line's mark, or the home's (R164)? -/
def readsPoison (s : State) (cl k : Nat) (pol : Policy) : Bool :=
  if pol = .bypass then homePoison s cl k
  else match l1Find (clusterOf s cl) k with
    | some e => e.poison
    | none => poisoned s k

/-! Release and acquire (R173, R253). -/

/-- The release of a scope on a cluster: at DIE and wider, dirty wide lines are written back. -/
def releaseAt (s : State) (cl scope : Nat) : State :=
  if scope < 4 then s else writeBackAll s cl (fun e => e.wide)

/-- The acquire of a scope on a cluster: at DIE and wider, wide lines are invalidated, at SYSTEM also the die's L2
copies of peer memory. A dirty wide line is written back first, so no store is lost (log 9). Locked lines as well. -/
def acquireAt (s : State) (cl scope : Nat) : State :=
  if scope < 4 then s
  else
    let s := flushInv s cl (fun e => e.wide)
    if scope < 7 then s else updDie s (dieNo cl) (dropPeer (fun _ => true))

/-- Write back the lines of a region on a cluster. -/
def writeBackSpans (s : State) (cl : Nat) (sp : List (Nat × Nat)) : State := writeBackAll s cl (fun e => inSpans sp e.key)

/-- Invalidate the lines of a region on a cluster; dirty ones are written back first (log 9). -/
def invalidateSpans (s : State) (cl : Nat) (sp : List (Nat × Nat)) : State := flushInv s cl (fun e => inSpans sp e.key)

end Sys2Proof.Machine
end

