-- ==== Sys2Proof/Machine/Ops.lean ====
section
/-! DEFINITION. The shared operations of words: results, the advance of a batch, faults, tickets, and taking a trap
(R53, R54, R94, R116, R355-R369), with the return from one (R245). -/

namespace Sys2Proof.Machine

/-! Where a word stands, and what a fibre's word yields. -/

/-- The issuing batch with its crew and team. -/
structure At where
  ref : CrewRef
  bi : Nat
  team : Team
  crew : Crew
  b : Batch
  deriving DecidableEq, Repr

/-- The batch that issues. -/
def issuer (s : State) : Option At :=
  match s.issue with
  | none => none
  | some i =>
    match teamOf s i.crew.cl i.crew.ts with
    | none => none
    | some t =>
      match t.crews[i.crew.cr]? with
      | none => none
      | some c =>
        match c.batches[i.bi]? with
        | none => none
        | some b => some { ref := i.crew, bi := i.bi, team := t, crew := c, b := b }

def At.pc (a : At) : Nat := batchPc a.b
def At.kc (a : At) : W32 := hdrKc a.b.hdr
def At.slots (a : At) : List Nat := maskSlots a.b.mask
def At.ids (a : At) : List W64 := identities a.team a.crew a.ref
def At.ctx (a : At) : Nat := a.crew.ctx

/-- A write of one register of a fibre; a k-register write counts for the lowest completing fibre only (R15). -/
inductive RegWr where
  | g (n : Nat) (v : W32)
  | k (n : Nat) (v : W32)
  | p (n : Nat) (b : Bool)
  deriving DecidableEq, Repr

/-- What a fibre's word writes and the sticky bits it sets. -/
structure FRes where
  wr : List RegWr
  sticky : Nat
  deriving DecidableEq, Repr

/-- A fibre completes the word or faults. -/
inductive FOut where
  | ok (r : FRes)
  | bad (f : FaultInfo)
  deriving DecidableEq, Repr

def fault (k : FKind) : FaultInfo :=
  { kind := k, width := 0, acc := 0, fetch := false, hw := false, addr := 0, va := 0, pc := 0, tokenId := noToken,
    ticket := none, quiet := none, needWr := false, needEx := false, needRd := false }

/-! Results. -/

/-- Write the registers of one completed fibre, k-registers only when it is the lowest (R15, R94). -/
def applyWr (s : State) (r : CrewRef) (i : Nat) (lowest : Bool) (w : RegWr) : State :=
  match w with
  | .g n v => setG s r i n v
  | .k n v => if lowest then setK s r n v else s
  | .p n b => setP s r i n b

def applyRes (s : State) (r : CrewRef) (i : Nat) (lowest : Bool) (f : FRes) : State :=
  orStat (f.wr.foldl (fun s w => applyWr s r i lowest w) s) r f.sticky

/-- The results of the completed fibres, in slot order. -/
def applyAll (s : State) (r : CrewRef) (l : List (Nat × FRes)) : State :=
  match l with
  | [] => s
  | (i, f) :: t => t.foldl (fun s e => applyRes s r e.1 false e.2) (applyRes s r i true f)

/-- A variable-latency result: g- and k-registers become pending and are written by RESULT_WRITE (R99, R311). -/
def pendWr (i : Nat) (lowest : Bool) (w : RegWr) : Option Pend :=
  match w with
  | .g n v => some { dst := .g i n, val := some v, ready := true }
  | .k n v => if lowest then some { dst := .k n, val := some v, ready := true } else none
  | .p _ _ => none

def pendRes (s : State) (r : CrewRef) (i : Nat) (lowest : Bool) (f : FRes) : State :=
  let s := orStat (f.wr.foldl (fun s w => match w with | .p n b => setP s r i n b | _ => s) s) r f.sticky
  updCrew s r (fun c => { c with pend := c.pend ++ f.wr.filterMap (pendWr i lowest) })

def pendAll (s : State) (r : CrewRef) (l : List (Nat × FRes)) : State :=
  match l with
  | [] => s
  | (i, f) :: t => t.foldl (fun s e => pendRes s r e.1 false e.2) (pendRes s r i true f)

/-- Write one pending result and clear its bit (R99). -/
def settleOne (s : State) (r : CrewRef) (p : Pend) : State :=
  match p.val with
  | none => s
  | some v => match p.dst with
    | .g i n => setG s r i n v
    | .k n => setK s r n v
    | .gone => s

/-- Batches that waited for a register look at their word again. -/
def unhazard (c : Crew) : Crew :=
  { c with batches := c.batches.map (fun b => if b.wait = .hazard then { b with wait := .none } else b) }

/-- Write every result that a producer has delivered (R99, R100). -/
def settle (s : State) (r : CrewRef) : State :=
  match crewOf s r with
  | none => s
  | some c =>
    let s := (c.pend.filter (·.ready)).foldl (fun s p => settleOne s r p) s
    updCrew s r (fun c => unhazard { c with pend := c.pend.filter (fun p => !p.ready) })

/-- A register of the word is pending (R311): `l` lists the operands with how many registers each names. -/
def hazard (c : Crew) (slots : List Nat) (l : List (Opd × Nat)) : Bool :=
  c.pend.any (fun p => match p.dst with
    | .g i n => slots.contains i && l.any (fun o => o.1.cls == .g && decide (o.1.num ≤ n) && decide (n < o.1.num + o.2))
    | .k n => l.any (fun o => o.1.cls == .k && decide (o.1.num ≤ n) && decide (n < o.1.num + o.2))
    | .gone => false)

/-! The advance of a batch. -/

/-- May the crew's batch act: during a trap only the handler's (R356)? -/
def mayAct (c : Crew) (b : Batch) : Bool :=
  if c.trap.isNone then c.trapWait.isEmpty else b.handler && c.trapWait.all (fun w => !w.batch.handler)

/-- A batch at a clause header. -/
def headBatch (header : Nat) (mask : W32) (w : Waiting) (since : Nat) (handler : Bool) : Batch :=
  { header := header, hdr := 0#64, next := 0, begun := false, stale := false, rep := false, yields := false,
    opened := since, mask := mask, wait := w, readySince := since, handler := handler }

/-- Fibres of `b` at a header after its clause: draining as the clause asked, and yielding as its words did (R39, R125). -/
def afterClause (cycle : Nat) (b : Batch) (header : Nat) (mask : W32) : Batch :=
  { headBatch header mask (if hdrDrain b.hdr then .drain else .none) cycle b.handler with yields := b.yields }

/-- The batch after the word at `next`: the next word, or the header after the clause (R41). -/
def nextWord (cycle : Nat) (b : Batch) : Batch :=
  if b.next + 1 ≤ hdrCount b.hdr then { b with next := b.next + 1, rep := false, wait := .none, readySince := cycle }
  else afterClause cycle b (clauseEnd b) b.mask

/-- A batch whose wait has ended is ready at its word, whose clause resumes under R44: it reads KC again (R122, R265). -/
def readyAt (cycle : Nat) (b : Batch) : Batch := { b with wait := .none, stale := b.begun, readySince := cycle }

/-- A crew that parks or suspends leaves the memory set (R271). -/
def leaveMem (c : Crew) : Crew := { c with mem := false, memRow := 0 }
/-- The crew with its batch drained or not at the end of a clause. -/
def drainMem (b : Batch) (c : Crew) : Crew := if b.wait = .drain then leaveMem c else c
/-- The crew when its batch has become `b` after a word of the clause with header `h`: at the clause's end it drains and yields as the
header asks (R39, R40). -/
def endClause (h : W64) (b : Batch) (c : Crew) : Crew :=
  if b.begun then c else { drainMem b c with yields := c.yields || hdrYield h }

/-- The lowest slot of a mask. -/
def lowSlot (m : W32) : Option Nat := (maskSlots m).head?

/-- REP words of the handler, or of the user's code, that waited for a held sequence to close look again (R18, R364). -/
def wakeRep (handler : Bool) (l : List Batch) : List Batch :=
  l.map (fun b => if b.wait = .repBusy && b.handler == handler then { b with wait := .none } else b)

/-- Does a batch stand in the same REP sequence as one of the handler, or of the user's code? The two keep theirs apart
(R364). -/
def inSeq (handler : Bool) (b : Batch) : Bool := b.rep && b.handler == handler

/-- The crew with batch `bi` past its word: outside a REP sequence it goes to the next word; inside, the sequence goes to
the next repeat or closes (R54), unless fibres still have the repeat to issue, for which the batch waits (R367). -/
def advance (cycle : Nat) (c : Crew) (bi : Nat) : Crew :=
  match c.batches[bi]? with
  | none => c
  | some b =>
    if b.rep then
      let others := (delAt c.batches bi).filter (fun x => inSeq b.handler x && x.wait != .repHold)
      let held := (delAt c.batches bi).filter (fun x => inSeq b.handler x && x.wait == .repHold)
      let rest := (delAt c.batches bi).filter (fun x => !inSeq b.handler x)
      let mask := held.foldl (fun m x => m ||| x.mask) b.mask
      if others.isEmpty then
        let b := { b with mask := mask, wait := .none }
        if 1 < repLeft c.stat then
          { c with stat := withRep c.stat (repLeft c.stat - 1) (repDone c.stat + 1) (repMask c.stat) (repStep c.stat),
                   batches := b :: rest, cur := lowSlot mask }
        else
          let b' := nextWord cycle b
          endClause b.hdr b'
            { c with stat := withRep c.stat 0 0 0 0, batches := b' :: wakeRep b.handler rest,
                     cur := if b'.begun then lowSlot mask else none }
      else { c with batches := { b with mask := mask, wait := .repHold } :: (others ++ rest), cur := none }
    else
      let b' := nextWord cycle b
      endClause b.hdr b' { c with batches := modAt c.batches bi (fun _ => b'), cur := if b'.begun then lowSlot b.mask else none }

/-- Batch `bi` waits at its word; its clause is suspended (R122), or stalls (R311). -/
def waitAt (s : State) (a : At) (w : Waiting) (suspend : Bool) : State :=
  updCrew s a.ref (fun c => { (if suspend then leaveMem c else c) with
    batches := modAt c.batches a.bi (fun b => { b with wait := w }), cur := if suspend then none else c.cur })

/-- The ticket bit of the status word is set while a batch holds a ticket (R17, R366). -/
def fixTicket (c : Crew) : Crew :=
  let held := c.batches.any (fun b => match b.wait with | .ticket (some _) _ => true | _ => false)
  let n := c.stat.toNat
  { c with stat := BitVec.ofNat 64 (n - (n / 2 ^ 44 % 2) * 2 ^ 44 + (if held then 2 ^ 44 else 0)) }

/-- Open or join the page requests of the fibres that met an absent page; the ticket is the first one's (R366, R368). -/
def requestPages (s : State) (ctx : Nat) (l : List (Nat × FaultInfo)) : State × Option Nat :=
  match l with
  | [] => (s, none)
  | (_, f) :: t =>
    let r := pageRequest s ctx f.va f
    (t.foldl (fun s e => (pageRequest s ctx e.2.va e.2).1) r.1, r.2)

/-- Fibres leave batch `bi` and wait at its word. -/
def parkAs (s : State) (a : At) (np : List (Nat × FaultInfo)) (w : Waiting) : State :=
  let m := slotsMask (np.map (·.1))
  updCrew s a.ref (fun c => fixTicket { leaveMem c with
    batches := modAt c.batches a.bi (fun b => { b with mask := b.mask &&& ~~~m }) ++ [{ a.b with mask := m, wait := w }] })

/-- Fibres whose accesses are outstanding wait for an answer (R386, R401): the word is issued for them again when one has come. -/
def parkQuiet (s : State) (a : At) (l : List (Nat × FaultInfo)) : State :=
  if l.isEmpty then s
  else
    let ks := l.filterMap (·.2.quiet)
    parkAs (ks.foldl askHolder s) a l (.answer ks)

/-- The fibres of `np` park at the word of batch `bi`: on a ticket (R366), or on an access that has no answer; they leave the batch. -/
def parkFibres (s : State) (a : At) (np : List (Nat × FaultInfo)) : State :=
  let l := np.filter (fun e => e.2.quiet.isNone)
  let s := parkQuiet s a (np.filter (fun e => e.2.quiet.isSome))
  if l.isEmpty then s else let r := requestPages s a.ctx l; parkAs r.1 a l (.ticket r.2 l)

/-- Remove batch `bi` when no fibre is left in it. -/
def dropEmpty (c : Crew) (bi : Nat) : Crew :=
  match c.batches[bi]? with
  | none => c
  | some b => if b.mask = 0#32 then { c with batches := delAt c.batches bi, cur := none } else c

/-! Faults. -/

/-- The crew traps for batch `bi` (R356): the batch leaves the list and waits in the trap for its entry. -/
def raiseTrap (s : State) (a : At) (faults : List (Nat × FaultInfo)) (mask : W32) (moved : List (Nat × Nat)) (t : Nat)
    (atHeader : Bool) : State :=
  updCrew s a.ref (fun c => { c with
    batches := delAt c.batches a.bi, cur := none,
    trapWait := c.trapWait ++ [{ faults := faults, batch := { a.b with mask := mask, wait := .none }, moved := moved,
                                 t := t, atHeader := atHeader }] })

def isAbsent (f : FaultInfo) : Bool := decide (f.kind = .notPresent)

/-- The faults of a word with the word's address in their records (R355). -/
def stampPc (pc : Nat) (l : List (Nat × FaultInfo)) : List (Nat × FaultInfo) := l.map (fun e => (e.1, { e.2 with pc := pc }))

def okOuts (l : List (Nat × FOut)) : List (Nat × FRes) :=
  l.filterMap (fun e => match e.2 with | .ok r => some (e.1, r) | .bad _ => none)
def badOuts (l : List (Nat × FOut)) : List (Nat × FaultInfo) :=
  l.filterMap (fun e => match e.2 with | .bad f => some (e.1, f) | .ok _ => none)

/-- What follows a word whose fibres met the faults `bads` (R356, R366): the absent ones park, the rest of the batch
goes on, or traps with the faulting ones. -/
def finishFaults (s : State) (a : At) (bads : List (Nat × FaultInfo)) (moved : List (Nat × Nat)) : State :=
  let np := bads.filter (fun e => isAbsent e.2)
  let tr := bads.filter (fun e => !isAbsent e.2)
  let rest := a.b.mask &&& ~~~(slotsMask (np.map (·.1)))
  let s := parkFibres s a np
  if !tr.isEmpty then raiseTrap s a tr rest moved a.pc false
  else if rest = 0#32 then updCrew s a.ref (fun c => dropEmpty c a.bi)
  else updCrew s a.ref (fun c => advance s.cycle c a.bi)

/-- The end of a word that is no control transfer: results, then the faults and the advance (R53, R94). -/
def finishWord (s : State) (a : At) (outs : List (Nat × FOut)) : State :=
  finishFaults (applyAll s a.ref (okOuts outs)) a (stampPc a.pc (badOuts outs)) []

/-- The end of a word whose results have variable latency (R99, R194). -/
def finishPend (s : State) (a : At) (outs : List (Nat × FOut)) : State :=
  finishFaults (pendAll s a.ref (okOuts outs)) a (stampPc a.pc (badOuts outs)) []

/-- Every fibre of `slots` faults with `k` at this word. -/
def faultAll (s : State) (a : At) (slots : List Nat) (k : FKind) : State :=
  finishFaults s a (slots.map (fun i => (i, { fault k with pc := a.pc }))) []

/-- The groups of fibres by their next address, each a new batch at that header (R117). -/
def regroup (s : State) (a : At) (moves : List (Nat × Nat)) : List Batch :=
  let pcs := (moves.map (·.2)).eraseDups
  pcs.map (fun pc => afterClause s.cycle a.b pc (slotsMask ((moves.filter (fun m => m.2 == pc)).map (·.1))))

/-- The end of a control transfer (R116, R117): `moves` gives each continuing fibre its next address. -/
def finishTransfer (s : State) (a : At) (bads : List (Nat × FaultInfo)) (moves : List (Nat × Nat)) : State :=
  let bads := stampPc a.pc bads
  let np := bads.filter (fun e => isAbsent e.2)
  let tr := bads.filter (fun e => !isAbsent e.2)
  let s := parkFibres s a np
  if !tr.isEmpty then
    raiseTrap s a tr (slotsMask ((moves.map (·.1)) ++ tr.map (·.1))) moves a.pc false
  else
    updCrew s a.ref (fun c => { (if hdrDrain a.b.hdr then leaveMem c else c) with
      batches := delAt c.batches a.bi ++ regroup s a moves, cur := none, yields := c.yields || hdrYield a.b.hdr })

/-! Checks 2 to 5 of R53, common to every word. -/

/-- What the shared checks need of a word: its port's bit of PORTS or none, whether it is a control transfer, its guard,
whether the guard must be p15, its field check for a window size, whether it is privileged, the registers it names. -/
structure WordSpec where
  port : Option Nat
  ct : Bool
  gd : Guard
  plain : Bool
  legal : Nat → Bool
  priv : Bool
  regs : List (Opd × Nat)
  /-- a release at DIE or wider, which waits for peer stores (R173, R400) -/
  rel : Bool := false

/-- Framing of R53, check 2: the port is named in PORTS, and a control transfer is last (R37, R42). -/
def framed (a : At) (port : Option Nat) (ct : Bool) : Bool :=
  (match port with | none => true | some p => tb (hdrPorts a.b.hdr) p) && (!ct || a.b.next == hdrCount a.b.hdr)

/-- The fibres whose guard is true. -/
def active (a : At) (g : Guard) : List Nat := a.slots.filter (guardHolds a.crew g)

def guardPlain (g : Guard) : Bool := g.p == 15#4 && !g.neg

/-- The word does nothing for any fibre; a control transfer still ends its clause (R12, R42). -/
def skipWord (s : State) (a : At) (ct : Bool) : State :=
  if ct then finishTransfer s a [] (a.slots.map (fun i => (i, clauseEnd a.b)))
  else updCrew s a.ref (fun c => advance s.cycle c a.bi)

/-- Issue a word: the checks of R53 in order, the stall of R311, then the word's own effect. -/
def issueWord (sp : WordSpec) (body : At → List Nat → State → State) (s : State) : Out :=
  match issuer s with
  | none => .fault .noIssuer
  | some a =>
    if !framed a sp.port sp.ct then .next (faultAll s a a.slots .illegal)
    else if sp.plain && !guardPlain sp.gd then .next (faultAll s a a.slots .illegal)
    else
      let act := active a sp.gd
      if act.isEmpty then .next (skipWord s a sp.ct)
      else if !sp.legal a.crew.win then .next (faultAll s a act .illegal)
      else if sp.priv && !a.crew.priv then .next (faultAll s a act .privilege)
      else if hazard a.crew act sp.regs then .next (waitAt s a .hazard false)
      else if sp.rel && unacked s then .next (waitAt s a .acks false)
      else .next (body a act s)

/-- Run a fibre's effect for each slot in order (R166): each sees what the lower slots did. -/
def eachFibre (f : Nat → State → State × FOut) : List Nat → State → State × List (Nat × FOut)
  | [], s => (s, [])
  | i :: t, s =>
    let r := f i s
    let q := eachFibre f t r.1
    (q.1, (i, r.2) :: q.2)

/-! Taking a trap (R362-R364). -/

def kindCode (k : FKind) : Nat :=
  match k with
  | .notPresent => 1 | .protection => 2 | .misaligned => 3 | .bounds => 4 | .unowned => 5 | .ownmode => 6 | .poison => 7
  | .illegal => 8 | .privilege => 9 | .format => 10 | .convergence => 11 | .orphan => 14 | .timeout => 15 | .trap => 16

def bNat (b : Bool) : Nat := if b then 1 else 0

/-- A fault record of 32 bytes (R362). -/
def faultRecord (r : CrewRef) (gid i : Nat) (f : FaultInfo) : List Byte :=
  leBytes 8 (kindCode f.kind + f.width * 2 ^ 8 + f.acc * 2 ^ 16 + bNat f.fetch * 2 ^ 18 + bNat f.hw * 2 ^ 19
      + bNat f.ticket.isSome * 2 ^ 20 + i * 2 ^ 32 + r.cr * 2 ^ 37 + r.ts * 2 ^ 42 + r.cl * 2 ^ 48)
    ++ leBytes 8 f.addr ++ leBytes 8 f.pc ++ leBytes 8 (f.tokenId + f.ticket.getD 0 * 2 ^ 32 + gid * 2 ^ 48)

/-- The index F of a fibre (R26, R363). -/
def fibreIndex (r : CrewRef) (i : Nat) : Nat := ((r.cl * 32 + r.ts) * 32 + r.cr) * 32 + i

/-- Address of a fibre's record (R363). -/
def recordAddr (base : Nat) (r : CrewRef) (i : Nat) : Nat := base + 0x18000 + 32 * fibreIndex r i

/-- Why the M8 cannot reach a page for itself: absent, no such permission or a malformed entry, behind an isolated port
(R386), or at a peer that no access reaches (R399, R401). -/
inductive Unreached where
  | absent | forbidden | late | lost
  deriving DecidableEq, Repr

/-- Write bytes at the home for the M8 itself, with no token check (R363), or say why not. The bytes lie in one page. -/
def writeHome (s : State) (die ctx va : Nat) (l : List Byte) : State × Option Unreached :=
  if va / 2 ^ 57 ≠ 0 then (s, some .forbidden)
  else match translate s none die ctx va with
    | .error .absent => (s, some .absent)
    | .error .late => (s, some .late)
    | .error (.bad p) => (reportBad s (.bad p), some .forbidden)
    | .ok e =>
      let k := locOf e va
      if !e.wr || isWindow e then (s, some .forbidden)
      else if behindIsolated s k then (s, some .late)
      else if peerGone s k then (s, some .lost)
      else if (peerFault s k).isSome then (s, some .forbidden)
      else (homeWrite s die k ctx l false, none)

/-- Write the records of the faulting fibres and drop the cluster's L1 lines that hold them (R364 step 3); false when a
record could not be written. -/
def writeRecords (s : State) (r : CrewRef) (ctx gid base : Nat) : List (Nat × FaultInfo) → State × Bool
  | [] => (l1Invalidate s r.cl (fun e => inSpans (spans s (dieNo r.cl) ctx (recordAddr base r 0) 1024) e.key), true)
  | (i, f) :: t =>
    match writeHome s (dieNo r.cl) ctx (recordAddr base r i) (faultRecord r gid i f) with
    | (s, some _) => (s, false)
    | (s, none) => writeRecords s r ctx gid base t

/-- The crew stops for good (R240, R262). -/
def stopCrew (s : State) (r : CrewRef) : State := updCrew s r (fun c => { c with stopped := true })

/-- Does the grid descend from grid `gid` of context `ctx`, or is it that grid? At most ten levels (R20). -/
def descends (s : State) (ctx gid : Nat) : Nat → Grid → Bool
  | 0, _ => false
  | n + 1, g => (g.ctx == ctx && g.gid == gid) || (match g.parent with
    | none => false
    | some p => match gridOf s p.1 p.2 with
      | none => false
      | some h => descends s ctx gid n h)

/-- Kill a grid and its descendants: their crews issue no more, and GRID_KILL takes their teams away (R251, R263). -/
def killTree (s : State) (ctx gid : Nat) : State :=
  { s with grids := s.grids.map (fun g => if descends s ctx gid 11 g then { g with killed := true } else g) }

/-- A fault that no handler takes: Occon reports the records, and the grid is killed as HALT kills it; a privileged grid
that Occon started only loses the crew (R240). -/
def fatalFault (s : State) (r : CrewRef) (faults : List (Nat × FaultInfo)) : State :=
  match teamOf s r.cl r.ts with
  | none => s
  | some t =>
    let s := faults.foldl (fun s e => emit s (.faultRecord t.ctx t.gid (faultRecord r t.gid e.1 e.2))) s
    match gridOf s t.ctx t.gid with
    | none => stopCrew s r
    | some g => if g.priv then stopCrew s r
                else stopCrew (killTree s t.ctx t.gid) r

/-- Enter the handler for the trap that waits first (R364). TRAPVEC and FAULTBASE are those of the team's context, also where the crew acts
in another (R244, log 35). -/
def enterTrap (s : State) (r : CrewRef) : State :=
  match crewOf s r, teamOf s r.cl r.ts with
  | some c, some t =>
    match c.trapWait with
    | [] => s
    | w :: rest =>
      let regs := (ctxOf s t.ctx).map (·.regs)
      let vec := (regs.map (·.trapvec.toNat)).getD 0
      let base := (regs.map (·.faultbase.toNat)).getD 0
      let s0 := updCrew s r (fun c => { c with trapWait := rest })
      if c.priv || vec = 0 then fatalFault s0 r w.faults
      else match writeRecords (settle s0 r) r t.ctx t.gid base w.faults with
        | (s, false) => fatalFault s r w.faults
        | (s, true) =>
          let kind := match w.faults with | [] => 0 | e :: _ => kindCode e.2.kind
          updCrew s r (fun c => { c with
            trap := some { trap := w, x := slotsMask (w.faults.map (·.1)), rep := repFields c.stat,
                           enteredAt := s.cycle, userView := !c.priv },
            trappc := BitVec.ofNat 64 w.t,
            trapcause := BitVec.ofNat 32 (kind + w.faults.length * 2 ^ 8),
            stat := withRep c.stat 0 0 0 0, priv := true, cur := none,
            batches := c.batches ++ [headBatch vec (w.batch.mask &&& c.live) .none s.cycle true] })
  | _, _ => s

/-! Return from a trap (R245). -/

/-- When no fibre still has the open repeat to issue, the held fibres complete it and the sequence goes on (R367). -/
def releaseHeld (cycle : Nat) (c : Crew) : Crew :=
  if c.batches.any (fun b => inSeq false b && b.wait != .repHold) then c
  else match placeOf (fun b => inSeq false b && b.wait == .repHold) c.batches with
    | none => c
    | some i => advance cycle { c with batches := modAt c.batches i (fun b => { b with wait := .none }) } i

/-- Run a change of a crew's waiting batch and leave the clause that another batch of the crew has open (R41, R122). -/
def keepCur (s : State) (r : CrewRef) (f : State → State) : State :=
  match crewOf s r with
  | none => f s
  | some c => updCrew (f s) r (fun x => { x with cur := c.cur })

/-- The waiting batch is ready at its word. -/
def wakeBatch (s : State) (a : At) : State :=
  updCrew s a.ref (fun c => { c with batches := modAt c.batches a.bi (readyAt s.cycle) })

/-- Do `f` to a batch of a crew; a clause that another batch has open stays open. -/
def besideCur (s : State) (r : CrewRef) (b : Batch) (f : State → State) : State :=
  match (crewOf s r).bind (·.cur) with
  | some m => if b.mask.getLsbD m then f s else keepCur s r f
  | none => f s

/-- Add a batch unless it is empty. -/
def addBatch (l : List Batch) (b : Batch) : List Batch := if b.mask = 0#32 then l else l ++ [b]

/-- The crew after ERET with TRAPPC unchanged: the fibres of `again` issue the word again, those that a control transfer
moved go to their own next PC, those that have arrived at a group wait there (R357), the others continue after the word (R245); a fault at a header sends all back to it. -/
def resumeTrap (cycle : Nat) (c : Crew) (t : TrapState) (again : W32) : Crew :=
  let w := t.trap
  let m := w.batch.mask &&& c.live
  let b := { w.batch with wait := .none, stale := true, readySince := cycle }
  let gone := slotsMask (w.moved.map (·.1))
  let rest := c.batches.filter (fun b => !b.handler)
  let c := { c with groups := c.groups.filter (fun g => !(g.late && g.addr == batchPc b)) }
  if w.atHeader then { c with batches := addBatch rest { b with mask := m } }
  else
    let re := m &&& again &&& t.x &&& ~~~gone
    let waits := (c.groups.filter (fun g => g.addr == batchPc b && g.arrivals &&& m != 0#32)).map (fun g =>
      { b with mask := g.arrivals &&& m, wait := .group g.addr g.mask })
    let past := m &&& ~~~re &&& ~~~gone &&& ~~~(waits.foldl (fun x w => x ||| w.mask) 0#32)
    let moved := w.moved.filter (fun e => m.getLsbD e.1)
    let groups := (moved.map (·.2)).eraseDups.map (fun pc =>
      afterClause cycle b pc (slotsMask ((moved.filter (fun e => e.2 == pc)).map (·.1))))
    let c := { c with batches := addBatch (rest ++ groups ++ waits) { b with mask := re },
                      yields := c.yields || (!moved.isEmpty && hdrYield b.hdr) }
    if past = 0#32 then releaseHeld cycle c
    else { advance cycle { c with batches := c.batches ++ [{ b with mask := past }] } c.batches.length with cur := none }

/-- The crew after ERET with another TRAPPC: every LIVE fibre of the batch stands at that header (R245). -/
def redirectTrap (cycle : Nat) (c : Crew) (t : TrapState) (pc : Nat) : Crew :=
  let rest := c.batches.filter (fun b => !b.handler)
  let m := t.trap.batch.mask &&& c.live
  let c := { c with batches := addBatch rest (headBatch pc m .none cycle t.trap.batch.handler),
                    groups := (c.groups.map (fun g => { g with arrivals := g.arrivals &&& ~~~m })).filter (fun g => g.arrivals != 0#32) }
  let c := if t.trap.batch.rep && !c.batches.any (·.rep) then { c with stat := withRep c.stat 0 0 0 0, batches := wakeRep false c.batches } else c
  { releaseHeld cycle c with cur := none }

/-- ERET leaves the trap: the REP fields and the view return, the groups of the user's code count time again, and those
of the handler are gone with it (R245, R357, R364). -/
def leaveTrap (cycle : Nat) (c : Crew) (t : TrapState) : Crew :=
  let r := t.rep
  { c with trap := none, priv := if t.userView then false else c.priv,
           stat := withRep c.stat (repLeft r) (repDone r) (repMask r) (repStep r), cur := none,
           groups := (c.groups.filter (fun g => !g.handler)).map (fun g => { g with since := g.since + (cycle - t.enteredAt) }) }

end Sys2Proof.Machine
end

