-- ==== Sys2Proof/Machine/Operands.lean ====
section
/-! DEFINITION. Operand forms (R11, R48, R93, R97, R98): which classes a position accepts, how a field is read and
written, and the integer value helpers of R92. -/

namespace Sys2Proof.Machine

/-! Integer types (R49, R92). -/

def isIntTy (t : Nat) : Bool := decide (t < 8)
def tySigned (t : Nat) : Bool := decide (t % 8 < 4)
/-- The operation width W. -/
def tyW (t : Nat) : Nat := 8 * 2 ^ (t % 4)
def tyLo (t : Nat) : Int := if tySigned t then -(2 ^ (tyW t - 1) : Int) else 0
def tyHi (t : Nat) : Int := if tySigned t then 2 ^ (tyW t - 1) - 1 else 2 ^ tyW t - 1
/-- Is the type 64 bits wide? -/
def tyWide (t : Nat) : Bool := t % 4 == 3

/-- Bits(x, t). -/
def bitsOf (t x : Nat) : Nat := x % 2 ^ tyW t
/-- Src(x, t). -/
def srcOf (t x : Nat) : Int := if tySigned t then sext (tyW t) x else (bitsOf t x : Int)
/-- Wrap(v, t). -/
def wrapTy (t : Nat) (v : Int) : Int := srcOf t (wrapNat (tyW t) v)
/-- Sat(v, t). -/
def satTy (t : Nat) (v : Int) : Int := if v < tyLo t then tyLo t else if tyHi t < v then tyHi t else v
/-- The register image that Put(d, v, t) writes: 32 bits, or 64 for a 64-bit type. -/
def putOf (t : Nat) (v : Int) : Nat := if tyWide t then wrapNat 64 v else wrapNat 32 (wrapTy t v)

/-! Positions. -/

/-- What an operand position accepts: registers named (1, 2 or 4; 0 for an unused field), classes, special values. -/
structure Pos where
  n : Nat
  g : Bool
  k : Bool
  p : Bool
  sp : List Nat
  deriving DecidableEq, Repr

/-- An unused field: zero, class included (R50). -/
def pNone : Pos := { n := 0, g := false, k := false, p := false, sp := [] }
/-- A source of 8 to 32 bits, or of 64 (R93). -/
def pSrc (wide : Bool) : Pos :=
  if wide then { n := 2, g := true, k := true, p := false, sp := [0, 1] }
  else { n := 1, g := true, k := true, p := true, sp := [0, 1, 2] }
/-- A destination of 8 to 32 bits, or of 64 (R93). -/
def pDst (wide : Bool) : Pos :=
  if wide then { n := 2, g := true, k := true, p := false, sp := [0] }
  else { n := 1, g := true, k := true, p := true, sp := [0] }
/-- A destination of 32 or 64 bits that excludes predicates. -/
def pDstG (wide : Bool) : Pos := { pDst wide with p := false }
/-- A predicate. -/
def pPred : Pos := { n := 1, g := false, k := false, p := true, sp := [] }
/-- A mask operand: K or `kc` (R114). -/
def pMask : Pos := { n := 1, g := false, k := true, p := false, sp := [0] }
/-- A source of 32 bits of class G, K or special. -/
def pGks : Pos := { n := 1, g := true, k := true, p := false, sp := [0, 1, 2] }
/-- Four registers from a multiple of 4 (R160). -/
def pQuad : Pos := { n := 4, g := true, k := true, p := false, sp := [] }

/-- Does the position accept the field, with window size `w` (R11, R48)? -/
def posOk (w : Nat) (p : Pos) (o : Opd) : Bool :=
  if p.n = 0 then o.cls == .g && o.num == 0
  else match o.cls with
    | .g => p.g && decide (o.num < w) && o.num % p.n == 0
    | .k => p.k && decide (o.num < 64) && o.num % p.n == 0
    | .p => p.p && decide (o.num < 16)
    | .s => p.sp.contains o.num

/-- Read an operand of one or two registers as an unsigned number (R11, R48). -/
def readOpd (cl : Cluster) (c : Crew) (kc : W32) (i : Nat) (o : Opd) (n : Nat) : Nat :=
  match o.cls with
  | .g => (gRead cl c i o.num).toNat + if n = 2 then (gRead cl c i (o.num + 1)).toNat * 2 ^ 32 else 0
  | .k => (cRead c.k o.num).toNat + if n = 2 then (cRead c.k (o.num + 1)).toNat * 2 ^ 32 else 0
  | .p => bNat (pRead c i o.num)
  | .s => if o.num = 0 then kc.toNat else if o.num = 2 then i else 0

/-- Read an operand for slot `i` at the word. -/
def opdVal (s : State) (a : At) (i : Nat) (o : Opd) (n : Nat) : Nat :=
  readOpd (clusterOf s a.ref.cl) a.crew a.kc i o n

/-- The four registers of a Q operand. -/
def quadVal (s : State) (a : At) (i : Nat) (o : Opd) : Nat :=
  opdVal s a i o 2 + opdVal s a i { o with num := o.num + 2 } 2 * 2 ^ 64

/-- Writes of a destination of `n` registers; `void` discards (R48, R92). -/
def destWr (o : Opd) (n v : Nat) : List RegWr :=
  match o.cls with
  | .g => (List.range n).map (fun j => .g (o.num + j) (BitVec.ofNat 32 (v / 2 ^ (32 * j))))
  | .k => (List.range n).map (fun j => .k (o.num + j) (BitVec.ofNat 32 (v / 2 ^ (32 * j))))
  | .p => [.p o.num (v % 2 == 1)]
  | .s => []

/-- A result with one destination. -/
def res (o : Opd) (n v sticky : Nat) : FRes := { wr := destWr o n v, sticky := sticky }
def outRes (o : Opd) (n v : Nat) : FOut := .ok (res o n v 0)

/-- Registers that a position names, for the scoreboard. -/
def posRegs (p : Pos) (o : Opd) : List (Opd × Nat) := if p.n = 0 then [] else [(o, p.n)]

/-! Words of format RRR, RI17 and RI32. -/

/-- The positions, types and options of an RRR word: types and options are checked as numbers. -/
structure RForm where
  port : Nat
  d : Pos
  a : Pos
  b : Pos
  c : Pos
  ty : Bool
  opt : Bool
  deriving DecidableEq, Repr

/-- The shared checks of an RRR word. -/
def rrrSpec (fm : RForm) (f : RRR) (ct plain priv : Bool) : WordSpec :=
  { port := some fm.port, ct := ct, gd := f.gd, plain := plain,
    legal := fun w => fm.ty && fm.opt && posOk w fm.d f.d && posOk w fm.a f.a && posOk w fm.b f.b && posOk w fm.c f.c,
    priv := priv, regs := posRegs fm.d f.d ++ posRegs fm.a f.a ++ posRegs fm.b f.b ++ posRegs fm.c f.c }

/-- A fibre-local RRR word: every fibre's result from its operand values (R94). -/
def execRRR (fm : RForm) (f : RRR) (run : Nat → Nat → Nat → FRes) : State → Out :=
  issueWord (rrrSpec fm f false false false) (fun a act s => finishWord s a (act.map (fun i =>
    (i, .ok (run (opdVal s a i f.a fm.a.n) (opdVal s a i f.b fm.b.n) (opdVal s a i f.c fm.c.n))))))

/-- The same with results of variable latency (R99). -/
def execRRRPend (fm : RForm) (f : RRR) (run : Nat → Nat → Nat → FRes) : State → Out :=
  issueWord (rrrSpec fm f false false false) (fun a act s => finishPend s a (act.map (fun i =>
    (i, .ok (run (opdVal s a i f.a fm.a.n) (opdVal s a i f.b fm.b.n) (opdVal s a i f.c fm.c.n))))))

/-- An RI17 word on port V: the immediate, sign-extended to W, is operand b (R50, R98). -/
def execRI17 (d a : Pos) (ok : Bool) (f : RI17) (run : Nat → Nat → FRes) : State → Out :=
  issueWord { port := some 3, ct := false, gd := f.gd, plain := false,
              legal := fun w => ok && posOk w d f.d && posOk w a f.a, priv := false,
              regs := posRegs d f.d ++ posRegs a f.a }
    (fun w act s => finishWord s w (act.map (fun i =>
      (i, .ok (run (opdVal s w i f.a a.n) (wrapNat 64 (sext 17 f.imm.toNat)))))))

/-- An RI32 word on port V: K selects k- or g-registers for both d and a (R47, R98). -/
def execRI32 (useA : Bool) (f : RI32) (run : Nat → Nat → FRes) : State → Out :=
  let d : Opd := { cls := if f.k then .k else .g, num := f.d }
  let o : Opd := if useA then { cls := if f.k then .k else .g, num := f.a } else { cls := .g, num := f.a }
  let pa : Pos := if useA then { pSrc false with p := false, sp := [] } else pNone
  issueWord { port := some 3, ct := false, gd := f.gd, plain := false,
              legal := fun w => posOk w (pDst false) d && posOk w pa o, priv := false,
              regs := posRegs (pDst false) d ++ posRegs pa o }
    (fun w act s => finishWord s w (act.map (fun i => (i, .ok (run (opdVal s w i o pa.n) f.imm.toNat)))))

/-- The destination of an RI32 word. -/
def ri32Dst (f : RI32) : Opd := { cls := if f.k then .k else .g, num := f.d }

end Sys2Proof.Machine
end

