-- ==== Sys2Proof/Machine/Flags.lean ====
section
/-! DEFINITION. Flag computations: the sticky bits of the crew status word (R17), saturation (R92), carries (R102), and
the conditions of CMP (R109). -/

namespace Sys2Proof.Machine

/-! Sticky bits by place (R17). -/
def stDivZero : Nat := 1
def stSat : Nat := 2
def stInt4Rsv : Nat := 4
def stClip : Nat := 8
def stNv : Nat := 16
def stDz : Nat := 32
def stOf : Nat := 64
def stUf : Nat := 128
def stNx : Nat := 256
def stPoisonZ : Nat := 512
def stAbandoned : Nat := 1024

/-- Combine sticky bits. -/
def stOr (a b : Nat) : Nat := a ||| b

/-- The value and the SAT bit of an arithmetic result under `.sat` or wrapping (R101). -/
def satOrWrap (sat : Bool) (t : Nat) (v : Int) : Nat × Nat :=
  if sat then (putOf t (satTy t v), if satTy t v = v then 0 else stSat) else (putOf t v, 0)

/-- The carry out of an unsigned W-bit sum (R102). -/
def carryOut (t a b cin : Nat) : Bool := decide (2 ^ tyW t ≤ bitsOf t a + bitsOf t b + cin)
/-- The borrow out of an unsigned W-bit difference (R102). -/
def borrowOut (t a b cin : Nat) : Bool := decide (bitsOf t a < bitsOf t b + cin)

/-- CMP's condition (R109). -/
def cmpHolds (cc : Nat) (a b : Int) : Bool :=
  match cc with
  | 0 => decide (a = b)
  | 1 => decide (a ≠ b)
  | 2 => decide (a < b)
  | 3 => decide (a ≤ b)
  | 4 => decide (b < a)
  | _ => decide (b ≤ a)

end Sys2Proof.Machine
end

