-- ==== Sys2Proof/Machine/Int.lean ====
section
/-! DEFINITION. Integer, address, logic and predicate instructions (R92-R112). -/

namespace Sys2Proof.Machine

/-! What each instruction computes from its operand values: an exact integer, or a register image. -/

/-- A word with one destination of type t and sources of type t. -/
def formT (f : RRR) (nsrc : Nat) (ok : Bool) (opt : Bool) : RForm :=
  let w := tyWide f.ty.toNat
  { port := 3, d := pDst w, a := pSrc w, b := if 2 ≤ nsrc then pSrc w else pNone, c := if 3 ≤ nsrc then pSrc w else pNone,
    ty := isIntTy f.ty.toNat && ok, opt := opt }

/-- Options with at most bit [0], `.sat`. -/
def satOnly (o : Nat) : Bool := decide (o < 2)
def noOpt (o : Nat) : Bool := o == 0
/-- Registers of a destination of type t. -/
def tyN (t : Nat) : Nat := if tyWide t then 2 else 1

/-- An arithmetic result with the `.sat` option (R101). -/
def arith (f : RRR) (v : Int) : FRes :=
  let r := satOrWrap (f.opt.toNat % 2 == 1) f.ty.toNat v
  res f.d (tyN f.ty.toNat) r.1 r.2

/-- An arithmetic RRR instruction of one to three sources (R101). -/
def execArith (f : RRR) (nsrc : Nat) (sat signedOnly : Bool) (v : Int → Int → Int → Int) (s : State) : Out :=
  let t := f.ty.toNat
  execRRR (formT f nsrc (!signedOnly || tySigned t) (if sat then satOnly f.opt.toNat else noOpt f.opt.toNat)) f
    (fun a b c => arith f (v (srcOf t a) (srcOf t b) (srcOf t c))) s

/-- The RI17 counterpart: options [0] `.sat` where allowed (R97, R98). -/
def execArithI (f : RI17) (sat : Bool) (v : Int → Int → Int) (s : State) : Out :=
  let ty := f.ty.toNat
  let w := tyWide ty
  execRI17 (pDst w) (pSrc w) (isIntTy ty && (if sat then satOnly f.opt.toNat else noOpt f.opt.toNat)) f
    (fun a b => let r := satOrWrap (f.opt.toNat % 2 == 1) ty (v (srcOf ty a) (srcOf ty b)); res f.d (tyN ty) r.1 r.2) s

/-- The RI32 counterpart: type .s32, no options (R98). -/
def execArithL (f : RI32) (v : Int → Int → Int) (s : State) : Out :=
  execRI32 true f (fun a b => res (ri32Dst f) 1 (putOf 2 (v (srcOf 2 a) (srcOf 2 b))) 0) s

def vAdd (a b : Int) : Int := a + b
def vSub (a b : Int) : Int := a - b
def vMul (a b : Int) : Int := a * b
def vMin (a b : Int) : Int := if b < a then b else a
def vMax (a b : Int) : Int := if a < b then b else a

def execAddRRR (f : RRR) (s : State) : Out := execArith f 2 true false (fun a b _ => vAdd a b) s
def execAddRI17 (f : RI17) (s : State) : Out := execArithI f true vAdd s
def execAddRI32 (f : RI32) (s : State) : Out := execArithL f vAdd s
def execSubRRR (f : RRR) (s : State) : Out := execArith f 2 true false (fun a b _ => vSub a b) s
def execSubRI17 (f : RI17) (s : State) : Out := execArithI f true vSub s
def execSubRI32 (f : RI32) (s : State) : Out := execArithL f vSub s
def execNeg (f : RRR) (s : State) : Out := execArith f 1 true true (fun a _ _ => -a) s
def execMulRRR (f : RRR) (s : State) : Out := execArith f 2 true false (fun a b _ => vMul a b) s
def execMulRI17 (f : RI17) (s : State) : Out := execArithI f true vMul s
def execMulRI32 (f : RI32) (s : State) : Out := execArithL f vMul s
/-- MULH: the floor of the product over 2^W (R101). -/
def execMulh (f : RRR) (s : State) : Out := execArith f 2 false false (fun a b _ => a * b / 2 ^ tyW f.ty.toNat) s
def execMad (f : RRR) (s : State) : Out := execArith f 3 true false (fun a b c => a * b + c) s
def execAbs (f : RRR) (s : State) : Out := execArith f 1 true true (fun a _ _ => if a < 0 then -a else a) s
def execMinRRR (f : RRR) (s : State) : Out := execArith f 2 false false (fun a b _ => vMin a b) s
def execMinRI17 (f : RI17) (s : State) : Out := execArithI f false vMin s
def execMaxRRR (f : RRR) (s : State) : Out := execArith f 2 false false (fun a b _ => vMax a b) s
def execMaxRI17 (f : RI17) (s : State) : Out := execArithI f false vMax s
/-- CLAMP: min(max(a, lo), hi) (R101). -/
def execClamp (f : RRR) (s : State) : Out := execArith f 3 false false (fun a lo hi => vMin (vMax a lo) hi) s

/-- ADDX and SUBX: the result and the carry, through predicate c (R102). -/
def execCarry (f : RRR) (sub : Bool) (s : State) : Out :=
  let t := f.ty.toNat
  let w := tyWide t
  execRRR { port := 3, d := pDstG w, a := pSrc w, b := pSrc w, c := pPred, ty := isIntTy t, opt := noOpt f.opt.toNat } f
    (fun a b c =>
      let v : Int := if sub then (bitsOf t a : Int) - bitsOf t b - (c : Int) else (bitsOf t a : Int) + bitsOf t b + (c : Int)
      let cout := if sub then borrowOut t a b c else carryOut t a b c
      { wr := destWr f.d (tyN t) (putOf t v) ++ [.p f.c.num cout], sticky := 0 }) s

def execAddx (f : RRR) (s : State) : Out := execCarry f false s
def execSubx (f : RRR) (s : State) : Out := execCarry f true s

/-! Logic (R104). -/

/-- A bitwise result: Bits of the operands, extended by Put. -/
def logic (f : Nat → Nat → Nat) (t a b : Nat) : Nat := putOf t (f (bitsOf t a) (bitsOf t b) : Nat)
def notBits (t x : Nat) : Nat := 2 ^ tyW t - 1 - bitsOf t x

def execLogic (f : RRR) (op : Nat → Nat → Nat) (s : State) : Out :=
  execRRR (formT f 2 true (noOpt f.opt.toNat)) f (fun a b _ => res f.d (tyN f.ty.toNat) (logic op f.ty.toNat a b) 0) s
def execLogicI (f : RI17) (op : Nat → Nat → Nat) (s : State) : Out :=
  let t := f.ty.toNat
  execRI17 (pDst (tyWide t)) (pSrc (tyWide t)) (isIntTy t && noOpt f.opt.toNat) f
    (fun a b => res f.d (tyN t) (logic op t a b) 0) s
def execLogicL (f : RI32) (op : Nat → Nat → Nat) (s : State) : Out :=
  execRI32 true f (fun a b => res (ri32Dst f) 1 (logic op 2 a b) 0) s

def andn (t a b : Nat) : Nat := a &&& notBits t b

def execAndRRR (f : RRR) (s : State) : Out := execLogic f (· &&& ·) s
def execAndRI17 (f : RI17) (s : State) : Out := execLogicI f (· &&& ·) s
def execAndRI32 (f : RI32) (s : State) : Out := execLogicL f (· &&& ·) s
def execOrRRR (f : RRR) (s : State) : Out := execLogic f (· ||| ·) s
def execOrRI17 (f : RI17) (s : State) : Out := execLogicI f (· ||| ·) s
def execOrRI32 (f : RI32) (s : State) : Out := execLogicL f (· ||| ·) s
def execXorRRR (f : RRR) (s : State) : Out := execLogic f (· ^^^ ·) s
def execXorRI17 (f : RI17) (s : State) : Out := execLogicI f (· ^^^ ·) s
def execXorRI32 (f : RI32) (s : State) : Out := execLogicL f (· ^^^ ·) s
def execAndnRRR (f : RRR) (s : State) : Out := execLogic f (andn f.ty.toNat) s
def execAndnRI17 (f : RI17) (s : State) : Out := execLogicI f (andn f.ty.toNat) s
def execAndnRI32 (f : RI32) (s : State) : Out := execLogicL f (andn 2) s
def execNot (f : RRR) (s : State) : Out :=
  let t := f.ty.toNat
  execRRR (formT f 1 true (noOpt f.opt.toNat)) f (fun a _ _ => res f.d (tyN t) (putOf t (notBits t a : Nat)) 0) s

/-! Shifts (R105). A count at or above W is not shifted step by step. -/

def vShl (t a n : Nat) : Nat := if tyW t ≤ n then putOf t 0 else putOf t (srcOf t a * 2 ^ n)
def vShr (t a n : Nat) : Nat :=
  if tyW t ≤ n then putOf t (if srcOf t a < 0 then -1 else 0) else putOf t (srcOf t a / 2 ^ n)
def vRot (t a n : Nat) : Nat :=
  let w := tyW t
  let m := n % w
  putOf t ((bitsOf t a * 2 ^ m % 2 ^ w + bitsOf t a / 2 ^ (w - m) : Nat))

def execShift (f : RRR) (op : Nat → Nat → Nat → Nat) (s : State) : Out :=
  let t := f.ty.toNat
  execRRR { formT f 2 true (noOpt f.opt.toNat) with b := pSrc false } f
    (fun a n _ => res f.d (tyN t) (op t a (n % 2 ^ 32)) 0) s
def execShiftI (f : RI17) (op : Nat → Nat → Nat → Nat) (s : State) : Out :=
  let t := f.ty.toNat
  execRI17 (pDst (tyWide t)) (pSrc (tyWide t)) (isIntTy t && noOpt f.opt.toNat) f
    (fun a n => res f.d (tyN t) (op t a (n % 2 ^ 32)) 0) s

def execShlRRR (f : RRR) (s : State) : Out := execShift f vShl s
def execShlRI17 (f : RI17) (s : State) : Out := execShiftI f vShl s
def execShrRRR (f : RRR) (s : State) : Out := execShift f vShr s
def execShrRI17 (f : RI17) (s : State) : Out := execShiftI f vShr s
def execRotRRR (f : RRR) (s : State) : Out := execShift f vRot s
def execRotRI17 (f : RI17) (s : State) : Out := execShiftI f vRot s

/-! Counts and reversal (R106). -/

def popCount (w x : Nat) : Nat := ((List.range w).filter (fun i => tb x i)).length
def leadZeros (w x : Nat) : Nat := ((List.range w).find? (fun i => tb x (w - 1 - i))).getD w
def trailZeros (w x : Nat) : Nat := ((List.range w).find? (fun i => tb x i)).getD w
def bitRev (w x : Nat) : Nat := (List.range w).foldl (fun acc i => acc + (if tb x i then 2 ^ (w - 1 - i) else 0)) 0

def execCount (f : RRR) (op : Nat → Nat → Nat) (s : State) : Out :=
  let t := f.ty.toNat
  execRRR { formT f 1 true (noOpt f.opt.toNat) with d := pDst false } f
    (fun a _ _ => res f.d 1 (op (tyW t) (bitsOf t a)) 0) s

def execClz (f : RRR) (s : State) : Out := execCount f leadZeros s
def execCtz (f : RRR) (s : State) : Out := execCount f trailZeros s
def execPopc (f : RRR) (s : State) : Out := execCount f popCount s
def execBrev (f : RRR) (s : State) : Out :=
  let t := f.ty.toNat
  execRRR (formT f 1 true (noOpt f.opt.toNat)) f
    (fun a _ _ => res f.d (tyN t) (putOf t (bitRev (tyW t) (bitsOf t a) : Nat)) 0) s

/-! Bit fields (R107). -/

def fieldPos (t spec : Nat) : Nat := min (spec % 256) (tyW t)
def fieldLen (t spec : Nat) : Nat := min (spec / 256 % 256) (tyW t - fieldPos t spec)
def vBfx (t a spec : Nat) : Nat :=
  let pos := fieldPos t spec
  let len := fieldLen t spec
  let v := bitsOf t a / 2 ^ pos % 2 ^ len
  putOf t (if tySigned t && decide (0 < len) && decide (2 ^ (len - 1) ≤ v) then (v : Int) - 2 ^ len else v)
def vBfi (t a b spec : Nat) : Nat :=
  let pos := fieldPos t spec
  let m := (2 ^ fieldLen t spec - 1) * 2 ^ pos
  putOf t ((bitsOf t a &&& notBits t m) ||| ((bitsOf t b * 2 ^ pos) &&& m) : Nat)

def execBfxRRR (f : RRR) (s : State) : Out := execShift f vBfx s
/-- BFX with an immediate: position in [7:0], length in [15:8], bit [16] zero (R107). -/
def execBfxRI17 (f : RI17) (s : State) : Out :=
  let t := f.ty.toNat
  execRI17 (pDst (tyWide t)) (pSrc (tyWide t)) (isIntTy t && noOpt f.opt.toNat && !tb f.imm.toNat 16) f
    (fun a b => res f.d (tyN t) (vBfx t a b) 0) s
def execBfi (f : RRR) (s : State) : Out :=
  let t := f.ty.toNat
  execRRR { formT f 3 true (noOpt f.opt.toNat) with c := pSrc false } f
    (fun a b c => res f.d (tyN t) (vBfi t a b c) 0) s

/-- One result byte of BSWZ after the bytes below it (R108). -/
def bswzByte (pool sel : Nat) (acc : List Nat) (i : Nat) : Nat :=
  if tb sel (12 + i) then 0
  else if tb sel (16 + i) && decide (0 < i) then (if 128 ≤ acc.getLastD 0 then 255 else 0)
  else pool / 2 ^ (8 * (sel / 2 ^ (3 * i) % 8)) % 256
def vBswz (a b sel : Nat) : Nat :=
  let l := (List.range 4).foldl (fun acc i => acc ++ [bswzByte (a % 2 ^ 32 + b % 2 ^ 32 * 2 ^ 32) sel acc i]) []
  l.foldr (fun x acc => x + 256 * acc) 0
def execBswz (f : RRR) (s : State) : Out :=
  execRRR (formT f 3 (f.ty.toNat == 6) (noOpt f.opt.toNat)) f (fun a b c => res f.d 1 (vBswz a b c) 0) s

/-! Selection, comparison, moves (R109-R111). -/

def execSel (f : RRR) (s : State) : Out :=
  let t := f.ty.toNat
  execRRR { formT f 2 true (noOpt f.opt.toNat) with c := pPred } f
    (fun a b c => res f.d (tyN t) (putOf t (srcOf t (if c = 1 then a else b))) 0) s
def execCmpRRR (f : RRR) (s : State) : Out :=
  let t := f.ty.toNat
  execRRR { formT f 2 true (decide (f.opt.toNat < 6)) with d := pDst false } f
    (fun a b _ => res f.d 1 (bNat (cmpHolds f.opt.toNat (srcOf t a) (srcOf t b))) 0) s
def execCmpRI17 (f : RI17) (s : State) : Out :=
  let t := f.ty.toNat
  execRI17 (pDst false) (pSrc (tyWide t)) (isIntTy t && decide (f.opt.toNat < 6)) f
    (fun a b => res f.d 1 (bNat (cmpHolds f.opt.toNat (srcOf t a) (srcOf t b))) 0) s
def execMov (f : RRR) (s : State) : Out :=
  let t := f.ty.toNat
  execRRR (formT f 1 true (noOpt f.opt.toNat)) f (fun a _ _ => res f.d (tyN t) (putOf t (srcOf t a)) 0) s

/-- LEA: base plus index times 2^s, modulo 2^64 (R111). -/
def vLea (t a i sh : Nat) : Nat := wrapNat 64 ((a : Int) + srcOf t i * 2 ^ sh)
def execLeaRRR (f : RRR) (s : State) : Out :=
  let t := f.ty.toNat
  execRRR { port := 3, d := pDst true, a := pSrc true, b := pSrc (tyWide t), c := pNone,
            ty := t == 2 || t == 6 || t == 3 || t == 7, opt := decide (f.opt.toNat < 8) } f
    (fun a b _ => res f.d 2 (vLea t a b f.opt.toNat) 0) s
def execLeaRI17 (f : RI17) (s : State) : Out :=
  execRI17 (pDst true) (pSrc true) (f.ty.toNat == 2 && decide (f.opt.toNat < 8)) f
    (fun a b => res f.d 2 (vLea 2 a b f.opt.toNat) 0) s
def execMovi (f : RI32) (s : State) : Out := execRI32 false f (fun _ b => res (ri32Dst f) 1 b 0) s

/-- MOVK: bit [16] of the immediate chooses the half; the other half of d stays (R50, R110). d is read and written. -/
def vMovk (old imm : Nat) : Nat :=
  if tb imm 16 then old % 2 ^ 16 + imm % 2 ^ 16 * 2 ^ 16 else old / 2 ^ 16 * 2 ^ 16 + imm % 2 ^ 16
def execMovk (f : RI17) (s : State) : Out :=
  issueWord { port := some 3, ct := false, gd := f.gd, plain := false,
              legal := fun w => f.ty.toNat == 6 && noOpt f.opt.toNat && posOk w (pDst false) f.d && posOk w pNone f.a,
              priv := false, regs := posRegs (pDst false) f.d }
    (fun w act s => finishWord s w (act.map (fun i =>
      (i, .ok (res f.d 1 (vMovk (opdVal s w i f.d 1) f.imm.toNat) 0))))) s

/-! Predicates (R112). -/

def execPred (f : RRR) (two : Bool) (op : Nat → Nat → Nat) (s : State) : Out :=
  execRRR { port := 3, d := pPred, a := pPred, b := if two then pPred else pNone, c := pNone,
            ty := f.ty.toNat == 0, opt := noOpt f.opt.toNat } f (fun a b _ => res f.d 1 (op a b) 0) s
def execPand (f : RRR) (s : State) : Out := execPred f true (fun a b => a * b) s
def execPor (f : RRR) (s : State) : Out := execPred f true (fun a b => max a b) s
def execPxor (f : RRR) (s : State) : Out := execPred f true (fun a b => (a + b) % 2) s
def execPnot (f : RRR) (s : State) : Out := execPred f false (fun a _ => 1 - a) s

/-- P2G: the predicate word under a mask (R112). -/
def execP2g (f : RRR) (s : State) : Out :=
  issueWord (rrrSpec (formT f 1 (f.ty.toNat == 6) (noOpt f.opt.toNat)) f false false false)
    (fun w act s => finishWord s w (act.map (fun i =>
      (i, .ok (res f.d 1 (predWord w.crew i &&& opdVal s w i f.a 1 % 2 ^ 16) 0))))) s

/-- G2P: predicates p0 to p14 from a value under a mask; the a and b fields are the sources (R97, R112). -/
def execG2p (f : RRR) (s : State) : Out :=
  execRRR { port := 3, d := pNone, a := pSrc false, b := pSrc false, c := pNone, ty := f.ty.toNat == 6,
            opt := noOpt f.opt.toNat } f
    (fun v m _ => { wr := ((List.range 15).filter (fun i => tb m i)).map (fun i => .p i (tb v i)), sticky := 0 }) s

/-! Division (R103): variable latency on port S (R99). -/

/-- Quotient and remainder with truncation toward zero. -/
def vDiv (t : Nat) (a b : Int) : Int :=
  if b = 0 then 0 else if tySigned t && decide (a = tyLo t) && decide (b = -1) then tyLo t else a.tdiv b
def vRem (t : Nat) (a b : Int) : Int :=
  if b = 0 then 0 else if tySigned t && decide (a = tyLo t) && decide (b = -1) then 0 else a - b * a.tdiv b

def execDivRem (f : RRR) (op : Nat → Int → Int → Int) (s : State) : Out :=
  let t := f.ty.toNat
  execRRRPend { formT f 2 true (noOpt f.opt.toNat) with port := 2 } f
    (fun a b _ => res f.d (tyN t) (putOf t (op t (srcOf t a) (srcOf t b))) (if srcOf t b = 0 then stDivZero else 0)) s
def execDiv (f : RRR) (s : State) : Out := execDivRem f vDiv s
def execRem (f : RRR) (s : State) : Out := execDivRem f vRem s

end Sys2Proof.Machine
end

