-- ==== Sys2Proof/Machine/Control.lean ====
section
/-! DEFINITION. Control, fibres, waiting, gathering and barriers (R113-R126, R136-R139, R54, R55). -/

namespace Sys2Proof.Machine

/-! Targets of transfers (R43). -/

/-- A fault of a target, for the transferring word: the record carries the target. -/
def targetFault (k : FKind) (t : Nat) : FaultInfo :=
  { fault k with width := 8, acc := 1, fetch := true, addr := t, va := t, needEx := true }

/-- Read a target's header and check it: the fault that belongs to the transferring word, if any (R43, R45). -/
def checkTarget (s : State) (a : At) (t : Nat) : State × Option FaultInfo :=
  if t % 8 ≠ 0 then (s, some (targetFault .misaligned t))
  else match fetch64 s a.ref.cl a.ctx t with
    | (s, .error k) => (s, some (targetFault k t))
    | (s, .ok h) => if hdrTag h = 0xA then (s, none) else (s, some (targetFault .illegal t))

/-- Check the target of every transferring fibre, in slot order. -/
def checkTargets (s : State) (a : At) : List (Nat × Nat) → State × List (Nat × Option FaultInfo)
  | [] => (s, [])
  | (i, t) :: r =>
    let x := checkTarget s a t
    let y := checkTargets x.1 a r
    (y.1, (i, x.2) :: y.2)

/-- A transfer of control (R116): the transferring fibres go to their targets, the link is written for those whose
target passes, every other fibre goes to the next header. -/
def transfer (a : At) (act : List Nat) (target : Nat → Nat) (link : Nat → FRes) (s : State) : State :=
  let r := checkTargets s a (act.map (fun i => (i, target i)))
  let bads := r.2.filterMap (fun e => e.2.map (fun f => (e.1, f)))
  let good := (r.2.filter (fun e => e.2.isNone)).map (·.1)
  let moves := a.slots.filterMap (fun i =>
    if good.contains i then some (i, target i) else if act.contains i then none else some (i, clauseEnd a.b))
  finishTransfer (applyAll r.1 a.ref (good.map (fun i => (i, link i)))) a bads moves

/-- The address of a BR word plus its offset in words (R47). -/
def brTarget (a : At) (f : BRF) : Nat := wrapNat 64 ((a.pc : Int) + 8 * sext 32 f.off.toNat)

def noRes : FRes := { wr := [], sticky := 0 }

def execBra (f : BRF) (s : State) : Out :=
  issueWord { port := some 0, ct := true, gd := f.gd, plain := false, legal := fun _ => f.rsv == 0#9 && f.link == 0,
              priv := false, regs := [] }
    (fun a act s => transfer a act (fun _ => brTarget a f) (fun _ => noRes) s) s

/-- CALL: the link is an even g-register below w - 1 (R114). -/
def execCall (f : BRF) (s : State) : Out :=
  let o : Opd := { cls := .g, num := f.link }
  issueWord { port := some 0, ct := true, gd := f.gd, plain := false,
              legal := fun w => f.rsv == 0#9 && f.link % 2 == 0 && decide (f.link + 1 < w), priv := false, regs := [(o, 2)] }
    (fun a act s => transfer a act (fun _ => brTarget a f) (fun _ => res o 2 (a.pc + 8) 0) s) s

/-- Sources of BRX, CALLX and RET: 64 bits of class G, K, `zero` or `kc` (R114). -/
def execIndirect (f : RRR) (d : Pos) (s : State) : Out :=
  issueWord (rrrSpec { port := 0, d := d, a := pSrc true, b := pNone, c := pNone, ty := f.ty.toNat == 0,
                       opt := noOpt f.opt.toNat } f true false false)
    (fun a act s => transfer a act (fun i => opdVal s a i f.a 2) (fun _ => if d.n = 0 then noRes else res f.d 2 (a.pc + 8) 0) s) s

def execBrx (f : RRR) (s : State) : Out := execIndirect f pNone s
def execCallx (f : RRR) (s : State) : Out := execIndirect f { n := 2, g := true, k := false, p := false, sp := [] } s
def execRet (f : RRR) (s : State) : Out := execIndirect f pNone s

/-- NOP (R118). -/
def execNop (f : RRR) (s : State) : Out :=
  execRRR { port := 0, d := pNone, a := pNone, b := pNone, c := pNone, ty := f.ty.toNat == 0, opt := noOpt f.opt.toNat } f
    (fun _ _ _ => noRes) s

/-- A hint executes as NOP whatever its bits hold; it has no port and no guard (R52). -/
def execHint (_f : HINTF) (s : State) : Out :=
  match issuer s with
  | none => .fault .noIssuer
  | some a => .next (skipWord s a false)

/-- A reserved opcode raises ILLEGAL for every active fibre (R51, R53). -/
def execReservedOpcode (_w : W64) (s : State) : Out :=
  match issuer s with
  | none => .fault .noIssuer
  | some a => .next (faultAll s a a.slots .illegal)

/-! Fibres (R119-R121). -/

/-- Give a FREE slot the initial state of R22 and make it LIVE. -/
def startSlot (s : State) (r : CrewRef) (i : Nat) : State :=
  match crewOf s r with
  | none => s
  | some c =>
    let s := updCluster s r.cl (fun cl => { cl with rf := cClear cl.rf (regNo c i 0) c.win })
    updCrew s r (fun c => { c with live := c.live ||| (1#32 <<< i), preds := cWrite c.preds i 0#16 })

/-- FSPAWN (R119): one FREE slot for each fibre whose target passes R43, in slot order. -/
def spawnFor (a : At) (t : Nat) : List Nat → State → State × List (Nat × FOut) × List Nat
  | [], s => (s, [], [])
  | i :: r, s =>
    let x := checkTarget s a t
    match x.2 with
    | some f => let y := spawnFor a t r x.1; (y.1, (i, .bad f) :: y.2.1, y.2.2)
    | none =>
      match ((crewOf x.1 a.ref).map (fun c => (List.range 32).find? (fun j => !c.live.getLsbD j))).getD none with
      | none => let y := spawnFor a t r x.1; (y.1, (i, .ok noRes) :: y.2.1, y.2.2)
      | some j => let y := spawnFor a t r (startSlot x.1 a.ref j); (y.1, (i, .ok noRes) :: y.2.1, j :: y.2.2)

def execFspawn (f : BRF) (s : State) : Out :=
  issueWord { port := some 0, ct := false, gd := f.gd, plain := false, legal := fun _ => f.rsv == 0#9 && f.link == 0,
              priv := false, regs := [] }
    (fun a act s =>
      let y := spawnFor a (brTarget a f) act s
      let s := finishWord y.1 a y.2.1
      if y.2.2.isEmpty then s
      else updCrew s a.ref (fun c => { c with batches := c.batches ++ [headBatch (brTarget a f) (slotsMask y.2.2) .none s.cycle false] })) s

/-- A destination that an ended fibre no longer has. -/
def endDst (m : W32) (d : PDst) : PDst := match d with | .g i n => if m.getLsbD i then .gone else .g i n | d => d

/-- The trap that the crew handles, without ended fibres. -/
def endTrap (m : W32) (t : TrapState) : TrapState :=
  { t with x := t.x &&& ~~~m,
           trap := { t.trap with batch := { t.trap.batch with mask := t.trap.batch.mask &&& ~~~m },
                                 moved := t.trap.moved.filter (fun e => !m.getLsbD e.1) } }

/-- End fibres: their slots become FREE, their pending results are discarded, and they leave every mask (R120, R126). A crew whose
last fibre ends leaves the memory set (R271). -/
def endFibres (c : Crew) (m : W32) : Crew :=
  { (if c.live &&& ~~~m = 0#32 then leaveMem c else c) with
           live := c.live &&& ~~~m, trap := c.trap.map (endTrap m),
           launches := c.launches.map (fun l => { l with dest := endDst m l.dest }),
           pend := c.pend.filter (fun p => match p.dst with | .g i _ => !m.getLsbD i | _ => true),
           groups := (c.groups.map (fun g => { g with arrivals := g.arrivals &&& ~~~m })).filter (fun g => g.arrivals != 0#32) }

/-! Gathering (R126): the shared arrival of JOIN, MXQ and the cross-lane words. -/

/-- The fibres of the batch that the mask names park in the group of the word; the others raise ILLEGAL. Under REP a
LIVE fibre of the mask outside the batch raises CONVERGENCE at once (R122). -/
def gather (a : At) (m : W32) (ins : Instr) (s : State) : State :=
  let inn := a.slots.filter (fun i => m.getLsbD i)
  let out := a.slots.filter (fun i => !m.getLsbD i)
  if a.b.rep && decide (m &&& a.crew.live &&& ~~~a.b.mask ≠ 0#32) then faultAll s a a.slots .convergence
  else
    let park (s : State) (bi : Nat) : State := updCrew s a.ref (fun c =>
      let gi := placeOf (fun g => g.addr == a.pc && g.mask == m && g.handler == a.b.handler) c.groups
      let gs := match gi with
        | some i => modAt c.groups i (fun g => { g with arrivals := g.arrivals ||| slotsMask inn })
        | none => c.groups ++ [{ addr := a.pc, mask := m, arrivals := slotsMask inn, since := s.cycle, ins := ins,
                                 handler := a.b.handler, late := false }]
      { leaveMem c with
        groups := gs, cur := none,
        batches := modAt c.batches bi (fun b => { b with mask := slotsMask inn, wait := .group a.pc m }) })
    if out.isEmpty then park s a.bi
    else if inn.isEmpty then faultAll s a out .illegal
    else
      let s := park s a.bi
      let rest : Batch := { a.b with mask := slotsMask out }
      let s := updCrew s a.ref (fun c => { c with batches := c.batches ++ [rest] })
      let n := ((crewOf s a.ref).map (fun c => c.batches.length)).getD 1
      raiseTrap s { a with bi := n - 1, b := rest } (out.map (fun i => (i, { fault .illegal with pc := a.pc }))) rest.mask [] a.pc false

/-- ACTIVE (R121). -/
def execActive (f : RRR) (s : State) : Out :=
  issueWord (rrrSpec { port := 0, d := pDstG false, a := pNone, b := pNone, c := pNone, ty := f.ty.toNat == 0,
                       opt := satOnly f.opt.toNat } f false false false)
    (fun a act s =>
      let v := if f.opt.toNat = 1 then a.crew.live.toNat else (slotsMask act).toNat
      finishWord s a (act.map (fun i => (i, outRes f.d 1 v)))) s

/-! Waiting (R122-R125, R136). -/

/-- The widest scope of the releases behind the flags of a mask. -/
def flagScopes (c : Crew) (mask : Nat) : Nat :=
  (List.range 12).foldl (fun m f => if tb mask f then max m (cRead c.flagScope f).toNat else m) 0

/-- WAIT: parked until the named counts are 0; leaving it is an acquire (R123). -/
def execWait (f : RRR) (s : State) : Out :=
  issueWord (rrrSpec { port := 0, d := pNone, a := pMask, b := pNone, c := pNone, ty := f.ty.toNat == 0,
                       opt := noOpt f.opt.toNat } f false false false)
    (fun a _ s =>
      let m := opdVal s a 0 f.a 1 % 2 ^ 12
      if flagsClear a.crew m then
        let s := acquireAt s a.ref.cl (flagScopes a.crew m)
        updCrew s a.ref (fun c => advance s.cycle c a.bi)
      else waitAt s a (.flags m) true) s

/-- SLEEP: at least the largest count of the fibres whose guard is true (R124). -/
def execSleep (f : RRR) (s : State) : Out :=
  issueWord (rrrSpec { port := 0, d := pNone, a := pGks, b := pNone, c := pNone, ty := f.ty.toNat == 0,
                       opt := noOpt f.opt.toNat } f false false false)
    (fun a act s =>
      let n := (act.map (fun i => opdVal s a i f.a 1)).foldl max 0
      waitAt s a (.sleep (s.cycle + n)) true) s

/-- YIELD (R125). -/
def execYield (f : RRR) (s : State) : Out :=
  issueWord (rrrSpec { port := 0, d := pNone, a := pNone, b := pNone, c := pNone, ty := f.ty.toNat == 0,
                       opt := noOpt f.opt.toNat } f false false false)
    (fun a _ s => updCrew s a.ref (fun c =>
      advance s.cycle { c with batches := modAt c.batches a.bi (fun b => { b with yields := true }) } a.bi)) s

/-- LWAIT's answer for a grid id of the issuing team, in the context in which the crew acts (R246): none while the grid is
live (R136). -/
def lwaitAnswer (s : State) (a : At) (gid : Nat) : Option Nat :=
  let me := teamHolder a.team.ctx a.team.gid a.ref.cl a.ref.ts
  match (ctxOf s a.ctx).bind (fun x => x.retired.find? (fun e => e.1 == gid && e.2.1 == me)) with
  | some e => some (bNat e.2.2)
  | none =>
    if s.grids.any (fun g => g.ctx == a.ctx && g.gid == gid && (match g.launcher with | some l => l.team == me | none => false))
    then none else some 3

/-- What the fibres of an LWAIT know of their children: what they have learnt while waiting, else the answer now. -/
def lwaitAsk (s : State) (a : At) (l : List (Nat × Nat × Option Nat)) : List (Nat × Nat × Option Nat) :=
  l.map (fun e => (e.1, e.2.1, match e.2.2 with | some v => some v | none => lwaitAnswer s a e.2.1))

/-- The word completes: the ids that it reports are freed, and the report is an acquire (R135, R136). -/
def lwaitReport (s : State) (a : At) (d : Opd) (l : List (Nat × Nat × Option Nat)) : State :=
  let me := teamHolder a.team.ctx a.team.gid a.ref.cl a.ref.ts
  let freed := l.filterMap (fun e => match e.2.2 with | some v => if v < 2 then some e.2.1 else none | none => none)
  let s1 := if freed.isEmpty then s else acquireAt s a.ref.cl 7
  let s2 := updCtx s1 a.ctx (fun x => { x with retired := x.retired.filter (fun e => !(freed.contains e.1 && e.2.1 == me)) })
  finishWord s2 a (l.map (fun e => (e.1, outRes d 1 (e.2.2.getD 2))))

/-- A waiting LWAIT learns that a child has retired: 0, or 1 where it was killed (R136). -/
def lwaitLearn (gid v : Nat) (b : Batch) : Batch :=
  match b.wait with
  | .lwait d l => { b with wait := .lwait d (l.map (fun e => if e.2.1 = gid && e.2.2.isNone then (e.1, e.2.1, some v) else e)) }
  | _ => b

/-- LWAIT: waits until every child named has retired, and frees the ids it reports (R136). -/
def execLwait (f : RRR) (s : State) : Out :=
  issueWord (rrrSpec { port := 0, d := pDst false, a := pGks, b := pNone, c := pNone, ty := f.ty.toNat == 0,
                       opt := satOnly f.opt.toNat } f false false false)
    (fun a act s =>
      let l := lwaitAsk s a (act.map (fun i => (i, opdVal s a i f.a 1 % 2 ^ 16, none)))
      if f.opt.toNat = 0 && l.any (fun e => e.2.2.isNone) then waitAt s a (.lwait f.d l) true
      else lwaitReport s a f.d l) s

/-! Barriers (R137-R139). -/

/-- The batches of a crew parked at barrier `id`, or at the grid barrier. -/
def atBar (id : Nat) (b : Batch) : Bool := match b.wait with | .bar i _ _ => i == id | _ => false
def atGbar (b : Batch) : Bool := match b.wait with | .gbar _ => true | _ => false
def barSet (b : Batch) : W32 := match b.wait with | .bar _ m _ => m | _ => 0#32

/-- Do the parked batches hold every LIVE fibre of the crew? -/
def allParked (c : Crew) (p : Batch → Bool) : Bool :=
  decide (c.live ≠ 0#32) && decide (c.live &&& ~~~((c.batches.filter p).foldl (fun m b => m ||| b.mask) 0#32) = 0#32)

/-- ILLEGAL for every batch parked at a barrier, each at its own BAR word (R137). -/
def barIllegal (s : State) (r : CrewRef) (id : Nat) : State :=
  updCrew s r (fun c =>
    let bad := c.batches.filter (atBar id)
    { c with batches := c.batches.filter (fun b => !atBar id b), cur := none,
             trapWait := c.trapWait ++ bad.map (fun b =>
               { faults := (maskSlots b.mask).map (fun i => (i, { fault .illegal with pc := batchPc b })),
                 batch := { b with wait := .none }, moved := [], t := batchPc b, atHeader := false }) })

def barObj (t : Team) (id : Nat) : BarObj := (look t.bars id).getD { arrived := 0#32, set := none, gen := 0 }

/-- A crew whose last LIVE fibre has parked arrives at its barrier, or its fibres raise ILLEGAL (R137). -/
def tryArrive (s : State) (r : CrewRef) (id : Nat) : State :=
  match teamOf s r.cl r.ts, crewOf s r with
  | some t, some c =>
    if !allParked c (atBar id) then s
    else
      let sets := (c.batches.filter (atBar id)).map barSet
      let m := sets.headD 0#32
      let all : W32 := BitVec.ofNat 32 (2 ^ t.crews.length - 1)
      let o := barObj t id
      if sets.any (· != m) || decide (m &&& ~~~all ≠ 0#32) || !m.getLsbD r.cr
          || (match o.set with | some x => x != m | none => false) then barIllegal s r id
      else
        let s := updCrew s r (fun c => { c with arrivedAt := s.cycle })
        let o' : BarObj := { o with arrived := o.arrived ||| (1#32 <<< r.cr), set := some m }
        updTeam s r.cl r.ts (fun t => { t with bars := put t.bars id o' })
  | _, _ => s

/-- BAR: the batch parks; `zero` names every crew of the team (R137). Under REP it must hold every LIVE fibre (R122). -/
def execBar (f : RRR) (s : State) : Out :=
  issueWord (rrrSpec { port := 0, d := pDst false, a := pMask,
                       b := { n := 1, g := false, k := true, p := false, sp := [0, 1] }, c := pNone,
                       ty := f.ty.toNat == 0, opt := noOpt f.opt.toNat } f false true false)
    (fun a _ s =>
      let id := opdVal s a 0 f.a 1 % 16
      let m : W32 := if f.b.cls = .s && f.b.num = 1 then BitVec.ofNat 32 (2 ^ a.team.crews.length - 1)
        else BitVec.ofNat 32 (opdVal s a 0 f.b 1)
      if a.b.rep && decide (a.crew.live &&& ~~~a.b.mask ≠ 0#32) then faultAll s a a.slots .convergence
      else tryArrive (waitAt s a (.bar id m f.d) true) a.ref id) s

/-- Does the team's grid have COOP? -/
def teamCoop (s : State) (t : Team) : Bool := match gridOf s t.ctx t.gid with | some g => g.coop | none => false

/-- A crew that now counts as arrived at the grid barrier, every LIVE fibre parked there or none LIVE: its arrival is a
release at DEVICE scope (R138, R253). -/
def gbarArrive (s : State) (r : CrewRef) : State :=
  match crewOf s r with
  | none => s
  | some c =>
    if allParked c atGbar then updCrew (releaseAt s r.cl 5) r (fun c => { c with arrivedAt := s.cycle })
    else if c.live = 0#32 then releaseAt s r.cl 5 else s

/-- GBAR: only in a COOP grid; a crew's arrival is a release at DEVICE scope (R138). Without COOP even a repeated GBAR of a
part of the crew raises ILLEGAL and not R122's CONVERGENCE (log 50). -/
def execGbar (f : RRR) (s : State) : Out :=
  issueWord { (rrrSpec { port := 0, d := pDst false, a := pNone, b := pNone, c := pNone, ty := f.ty.toNat == 0,
                         opt := noOpt f.opt.toNat } f false true false) with rel := true }
    (fun a _ s =>
      if !teamCoop s a.team then faultAll s a a.slots .illegal
      else if a.b.rep && decide (a.crew.live &&& ~~~a.b.mask ≠ 0#32) then faultAll s a a.slots .convergence
      else gbarArrive (waitAt s a (.gbar f.d) true) a.ref) s

/-- Results of a crew's ended fibres that are still to come are discarded (R120). -/
def endResults (s : State) (r : CrewRef) (m : W32) : State :=
  { s with ops := s.ops.map (fun o => if o.2.crew == r then (o.1, { o.2 with dest := endDst m o.2.dest }) else o),
           ckpt := s.ckpt.map (fun c => if c.crew == r then { c with dest := c.dest.map (endDst m) } else c),
           loads := s.loads.map (fun l => if l.crew == some r then { l with dest := l.dest.map (endDst m) } else l) }

/-- FEND: the fibres whose guard is true end (R120); the others go to the next header. A crew whose last unparked fibre
ends, or its last, may arrive at its barrier (R137, R253). -/
def execFend (f : RRR) (s : State) : Out :=
  issueWord (rrrSpec { port := 0, d := pNone, a := pNone, b := pNone, c := pNone, ty := f.ty.toNat == 0,
                       opt := noOpt f.opt.toNat } f true false false)
    (fun a act s =>
      let s := updCrew (endResults s a.ref (slotsMask act)) a.ref (fun c => endFibres c (slotsMask act))
      let s := finishTransfer s a [] ((a.slots.filter (fun i => !act.contains i)).map (fun i => (i, clauseEnd a.b)))
      let s := (List.range 16).foldl (fun s id => tryArrive s a.ref id) s
      if teamCoop s a.team then gbarArrive s a.ref else s) s

/-- Release a crew from a barrier: its batches at one word go on as one, with `d` := `v` (R137, R139). -/
def releaseBar (cycle : Nat) (p : Batch → Bool) (s : State) (r : CrewRef) (v : Nat) : State :=
  match crewOf s r with
  | none => s
  | some c =>
    let mine := c.batches.filter p
    let places := (mine.map batchPc).eraseDups
    places.foldl (fun s pc =>
      match mine.find? (fun b => batchPc b == pc) with
      | none => s
      | some b =>
        let m := (mine.filter (fun b => batchPc b == pc)).foldl (fun m b => m ||| b.mask) 0#32
        let d := match b.wait with | .bar _ _ d => d | .gbar d => d | .wave d => d | _ => { cls := .s, num := 0 }
        let s := applyAll s r ((maskSlots m).map (fun i => (i, res d 1 v 0)))
        updCrew s r (fun c =>
          let rest := c.batches.filter (fun b => !(p b && batchPc b == pc))
          { advance cycle { c with batches := rest ++ [{ readyAt cycle b with mask := m }] } rest.length
            with cur := c.cur })) s

/-- Release the waiters of a destroyed barrier: `d` := 1 and ABANDONED, with no acquire (R139). -/
def abandon (s : State) (r : CrewRef) (p : Batch → Bool) : State :=
  match crewOf s r with
  | none => s
  | some c => if c.batches.any p then orStat (releaseBar s.cycle p s r 1) r stAbandoned else s

/-! REP (R54, R55). -/

/-- The word that follows in the clause, as fetch reads it; none where the fetch fails. -/
def nextWordOf (s : State) (a : At) : State × Option W64 :=
  match fetch64 s a.ref.cl a.ctx (a.pc + 8) with
  | (s, .ok w) => (s, some w)
  | (s, .error _) => (s, none)

/-- The REP word behind the open sequence of a crew, as its status word holds it (R17, R54). -/
def openRep (c : Crew) : REPF :=
  { gd := { p := 15#4, neg := false }, hi := 0#27, count := BitVec.ofNat 6 (repLeft c.stat - 1), mask := BitVec.ofNat 4 (repMask c.stat),
    step := BitVec.ofNat 2 (repStep c.stat), lo := 0#10 }

/-- ILLEGAL at the REP word of a sequence whose first repeat could not be checked before, because the word that follows
could not be fetched (R55): the sequence never opened. -/
def repIllegal (s : State) (a : At) : State :=
  let b := { a.b with next := a.b.next - 1, rep := false }
  let c := { a.crew with stat := withRep a.crew.stat 0 0 0 0, batches := modAt a.crew.batches a.bi (fun _ => b) }
  let s := updCrew s a.ref (fun _ => c)
  let a := { a with b := b, crew := c }
  faultAll s a a.slots .illegal

/-- REP opens a sequence; a misuse raises ILLEGAL for every active fibre. Where the word that follows cannot be fetched its
check waits for the first repeat. While another batch's sequence is held on a ticket, the word waits (R18). -/
def execRep (f : REPF) (s : State) : Out :=
  match issuer s with
  | none => .fault .noIssuer
  | some a =>
    let x := nextWordOf s a
    if a.b.next == hdrCount a.b.hdr || (match x.2 with | some w => repMisused f w.toNat | none => false)
        || f.step == 3#2 || f.gd.p != 15#4 || f.gd.neg || f.hi != 0#27 || f.lo != 0#10 then
      .next (faultAll x.1 a a.slots .illegal)
    else if repLeft a.crew.stat ≠ 0 then .next (waitAt x.1 a .repBusy true)
    else .next (updCrew x.1 a.ref (fun c =>
      { c with stat := withRep c.stat (f.count.toNat + 1) 0 f.mask.toNat f.step.toNat,
               batches := modAt c.batches a.bi (fun b => { b with next := b.next + 1, rep := true }) }))

end Sys2Proof.Machine
end

