-- ==== Sys2Proof/Machine/Numbers.lean ====
section
/-! DEFINITION. Numbers (R65-R79): exact values, the formats, Round, Overflow and Special, the dither, and the special
functions of R156 by exact integer arithmetic. -/

namespace Sys2Proof.Machine

/-- A binary floating-point format (R67): width, fraction bits, bias, code of the largest finite value, whether it has
infinities, its canonical NaN. -/
structure FpFmt where
  w : Nat
  f : Nat
  bias : Nat
  maxc : Nat
  infs : Bool
  nan : Nat
  deriving DecidableEq, Repr

def fp32 : FpFmt := { w := 32, f := 23, bias := 127, maxc := 0x7F7FFFFF, infs := true, nan := 0x7FC00000 }
def bf16 : FpFmt := { w := 16, f := 7, bias := 127, maxc := 0x7F7F, infs := true, nan := 0x7FC0 }
def fp16 : FpFmt := { w := 16, f := 10, bias := 15, maxc := 0x7BFF, infs := true, nan := 0x7E00 }
def e4m3 : FpFmt := { w := 8, f := 3, bias := 7, maxc := 0x7E, infs := false, nan := 0x7F }
def e5m2 : FpFmt := { w := 8, f := 2, bias := 15, maxc := 0x7B, infs := true, nan := 0x7E }
/-- E2M1 has neither infinity nor NaN (R67). -/
def e2m1 : FpFmt := { w := 4, f := 1, bias := 1, maxc := 7, infs := false, nan := 0 }

/-- 2^k for an integer k, as a shift of a natural number. -/
def shl (m : Nat) (k : Int) : Nat := m * 2 ^ k.toNat

/-- The value of a magnitude code (R67). -/
def magVal (t : FpFmt) (c : Nat) : Nat × Int :=
  if c / 2 ^ t.f = 0 then (c, 1 - t.bias - t.f) else (2 ^ t.f + c % 2 ^ t.f, c / 2 ^ t.f - (t.bias : Int) - t.f)

/-- Read a code (R67, R68). -/
def fpVal (t : FpFmt) (x : Nat) : FVal :=
  let neg := tb x (t.w - 1)
  let c := x % 2 ^ (t.w - 1)
  if c ≤ t.maxc then .fin neg (magVal t c).1 (magVal t c).2
  else if t.infs && c == t.maxc + 1 then .inf neg
  else .nan

/-- Rounding modes (R73). -/
inductive RMode where
  | rne | rtz | rto | rs
  deriving DecidableEq, Repr

def rmodeOf (n : Nat) : RMode := match n % 4 with | 0 => .rne | 1 => .rtz | 2 => .rto | _ => .rs

/-! The dither (R76). -/

def mixHash (x : Nat) : Nat :=
  let x := x % 2 ^ 32
  let x := x ^^^ (x / 2 ^ 16)
  let x := x * 0x85EBCA6B % 2 ^ 32
  let x := x ^^^ (x / 2 ^ 13)
  let x := x * 0xC2B2AE35 % 2 ^ 32
  x ^^^ (x / 2 ^ 16)
def dither (seed n : Nat) : Nat := mixHash (mixHash ((seed % 2 ^ 32) ^^^ (n % 2 ^ 32)) ^^^ (n / 2 ^ 32 % 2 ^ 32))

/-- Does Round move from a to b? `num` over `den` is (|x| - |a|) / (|b| - |a|), with 0 < num (R74). -/
def roundsUp (mode : RMode) (aOdd : Bool) (num den dith : Nat) : Bool :=
  match mode with
  | .rne => decide (den < 2 * num) || (decide (2 * num = den) && aOdd)
  | .rtz => false
  | .rto => !aOdd
  | .rs => decide (dith < num * 2 ^ 32 / den)

/-- A rounded code with the sticky bits of R77. -/
structure Rounded where
  code : Nat
  sticky : Nat
  deriving DecidableEq, Repr

def signed (t : FpFmt) (neg : Bool) (c : Nat) : Nat := c + (if neg then 2 ^ (t.w - 1) else 0)

/-- Overflow (R75). -/
def overflowCode (t : FpFmt) (mode : RMode) (neg : Bool) : Nat :=
  signed t neg (if t.infs && (decide (mode = .rne) || decide (mode = .rs)) then t.maxc + 1 else t.maxc)

/-- The greatest magnitude code at or below m × 2^e, with the remainder over the spacing there. -/
def floorMag (t : FpFmt) (m : Nat) (e : Int) : Nat × Nat × Nat :=
  let k := ((m.log2 : Int) + e - (1 - (t.bias : Int))).toNat
  let q : Int := 1 - (t.bias : Int) - t.f + k
  if q ≤ e then (k * 2 ^ t.f + shl m (e - q), 0, 1)
  else
    let d := 2 ^ (q - e).toNat
    (k * 2 ^ t.f + m / d, m % d, d)

/-- Round of a non-zero finite value to a floating-point format (R74), with NX, UF and OF (R77). -/
def roundFin (t : FpFmt) (mode : RMode) (dith : Nat) (neg : Bool) (m : Nat) (e : Int) : Rounded :=
  let x := floorMag t m e
  if t.maxc < x.1 || (x.1 = t.maxc && x.2.1 ≠ 0) then
    let v := magVal t t.maxc
    let sc := min e v.2
    let num := shl m (e - sc) - shl v.1 (v.2 - sc)
    if roundsUp mode (t.maxc % 2 == 1) num (shl 1 (v.2 - sc)) dith then
      { code := overflowCode t mode neg, sticky := stOf ||| stNx }
    else { code := signed t neg t.maxc, sticky := stNx }
  else if x.2.1 = 0 then { code := signed t neg x.1, sticky := 0 }
  else
    let c := if roundsUp mode (x.1 % 2 == 1) x.2.1 x.2.2 dith then x.1 + 1 else x.1
    { code := signed t neg c, sticky := stNx ||| (if x.1 / 2 ^ t.f = 0 then stUf else 0) }

/-- Round to a floating-point format, special values by R75. -/
def roundFp (t : FpFmt) (mode : RMode) (dith : Nat) (x : FVal) : Rounded :=
  match x with
  | .nan => if t.nan = 0 then { code := 0, sticky := stNv } else { code := t.nan, sticky := 0 }
  | .inf neg =>
    if t.infs then { code := signed t neg (t.maxc + 1), sticky := 0 }
    else if t.nan = 0 then { code := signed t neg t.maxc, sticky := stNv }
    else { code := t.nan, sticky := stNv }
  | .fin neg m e => if m = 0 then { code := signed t neg 0, sticky := 0 } else roundFin t mode dith neg m e

/-! L6 (R72). -/

def l6Const (f : Nat) : Nat := match f % 4 with | 0 => 65536 | 1 => 77936 | 2 => 92682 | _ => 110218
/-- Magnitude of code `c` below 32, in units of 2^-20. -/
def l6Mag (c : Nat) : Nat := l6Const c * 2 ^ (c / 4)
def l6Val (x : Nat) : FVal :=
  if x % 64 = 0x20 then .fin false 0 0 else .fin (tb x 5) (l6Mag (x % 32)) (-20)

/-- The codes that a sign has: negative magnitudes begin at code 0x21 (R74). -/
def l6Codes (neg : Bool) : List Nat := if neg then (List.range 32).tail else List.range 32

/-- Round to L6. A tie between zero and code 0x00 goes to zero, which counts as even (log 10). -/
def roundL6 (mode : RMode) (dith : Nat) (x : FVal) : Rounded :=
  match x with
  | .nan => { code := 0x20, sticky := stNv }
  | .inf neg => { code := if neg then 0x3F else 0x1F, sticky := stNv }
  | .fin neg m e =>
    if m = 0 then { code := 0x20, sticky := 0 }
    else
      let sc := min e (-20)
      let v := shl m (e - sc)
      let u := fun c => shl (l6Mag c) (-20 - sc)
      let out (c : Nat) := if neg then c + 0x20 else c
      if (l6Codes neg).any (fun c => u c == v) then
        { code := out (((l6Codes neg).find? (fun c => u c == v)).getD 0), sticky := 0 }
      else match ((l6Codes neg).filter (fun c => decide (u c < v))).getLast? with
        | none =>
          let b := (l6Codes neg).headD 0
          if roundsUp mode false v (u b) dith then { code := out b, sticky := stNx } else { code := 0x20, sticky := stNx }
        | some a =>
          if a = 31 then
            { code := out 31, sticky := stNx ||| (if roundsUp mode true (v - u 31) (u 31 - u 30) dith then stOf else 0) }
          else if roundsUp mode (a % 2 == 1) (v - u a) (u (a + 1) - u a) dith then { code := out (a + 1), sticky := stNx }
          else { code := out a, sticky := stNx }

/-! Integers (R74, R78). -/

/-- Round a finite value to an integer: the integer and whether it differs. -/
def roundInt (mode : RMode) (dith : Nat) (neg : Bool) (m : Nat) (e : Int) : Int × Bool :=
  let sg (n : Nat) : Int := if neg then -(n : Int) else n
  if 0 ≤ e then (sg (shl m e), false)
  else
    let d := 2 ^ (-e).toNat
    if m % d = 0 then (sg (m / d), false)
    else (sg (if roundsUp mode (m / d % 2 == 1) (m % d) d dith then m / d + 1 else m / d), true)

/-- A float value into the integer range [lo, hi] (R75, R78): NX or NV. A result that saturates differs from x. -/
def toInt (mode : RMode) (dith : Nat) (lo hi : Int) (x : FVal) : Int × Nat :=
  match x with
  | .nan => (0, stNv)
  | .inf neg => (if neg then lo else hi, stNv)
  | .fin neg m e =>
    let r := roundInt mode dith neg m e
    if r.1 < lo then (lo, stNv ||| stNx) else if hi < r.1 then (hi, stNv ||| stNx)
    else (r.1, if r.2 then stNx else 0)

/-- An integer as an exact value. -/
def ofInt (v : Int) : FVal := .fin (decide (v < 0)) v.natAbs 0

/-! Exact arithmetic (R146). The flag is NV. -/

def fNeg (x : FVal) : FVal :=
  match x with
  | .nan => .nan
  | .inf n => .inf (!n)
  | .fin n m e => .fin (!n) m e

def fAdd (a b : FVal) : FVal × Bool :=
  match a, b with
  | .nan, _ => (.nan, false)
  | _, .nan => (.nan, false)
  | .inf x, .inf y => if x = y then (.inf x, false) else (.nan, true)
  | .inf x, _ => (.inf x, false)
  | _, .inf y => (.inf y, false)
  | .fin x m e, .fin y n g =>
    let sc := min e g
    let u : Int := (if x then -1 else 1) * (shl m (e - sc) : Int) + (if y then -1 else 1) * (shl n (g - sc) : Int)
    if u = 0 then (.fin (m = 0 && n = 0 && x && y) 0 0, false) else (.fin (decide (u < 0)) u.natAbs sc, false)

def fMul (a b : FVal) : FVal × Bool :=
  match a, b with
  | .nan, _ => (.nan, false)
  | _, .nan => (.nan, false)
  | .inf x, .inf y => (.inf (x != y), false)
  | .inf x, .fin y n _ => if n = 0 then (.nan, true) else (.inf (x != y), false)
  | .fin x m _, .inf y => if m = 0 then (.nan, true) else (.inf (x != y), false)
  | .fin x m e, .fin y n g => (.fin (x != y) (m * n) (e + g), false)

/-- a × b + c, unrounded between (R146). -/
def fFma (a b c : FVal) : FVal × Bool :=
  let p := fMul a b
  let r := fAdd p.1 c
  (r.1, p.2 || r.2)

/-- Strict order of two values that are not NaN; zeros compare equal. -/
def fLt (a b : FVal) : Bool :=
  match a, b with
  | .nan, _ => false
  | _, .nan => false
  | .inf x, .inf y => x && !y
  | .inf x, _ => x
  | _, .inf y => !y
  | .fin x m e, .fin y n g =>
    let sc := min e g
    decide ((if x then -1 else 1) * (shl m (e - sc) : Int) < (if y then -1 else 1) * (shl n (g - sc) : Int))
def fEq (a b : FVal) : Bool := a != .nan && b != .nan && !fLt a b && !fLt b a
def isNan (a : FVal) : Bool := match a with | .nan => true | _ => false
def isNeg (a : FVal) : Bool := match a with | .nan => false | .inf n => n | .fin n _ _ => n
def isZero (a : FVal) : Bool := match a with | .fin _ m _ => m == 0 | _ => false

/-- A rounded result with NV. -/
def roundRes (t : FpFmt) (mode : RMode) (x : FVal × Bool) : Rounded :=
  let r := roundFp t mode 0 x.1
  { r with sticky := r.sticky ||| (if x.2 then stNv else 0) }

/-! Special functions (R156). Each is computed as an integer multiple of a power of two to far more bits than FP32 holds;
a last odd bit says that the exact value lies strictly between two multiples, which RNE then sees (log 11). -/

/-- Integer square root by bits: `n` bits of result. -/
def isqrtBits (x : Nat) : Nat → Nat → Nat
  | 0, acc => acc
  | n + 1, acc => isqrtBits x n (if (acc + 2 ^ n) * (acc + 2 ^ n) ≤ x then acc + 2 ^ n else acc)
def isqrt (x : Nat) : Nat := isqrtBits x (x.log2 / 2 + 1) 0

/-- q × 2^e with a sticky last bit. -/
def withSticky (neg : Bool) (q : Nat) (exact : Bool) (e : Int) : FVal := .fin neg (2 * q + if exact then 0 else 1) (e - 1)

/-- 1 / (m × 2^e). -/
def rcpVal (neg : Bool) (m : Nat) (e : Int) : FVal :=
  let k := m.log2 + 64
  withSticky neg (2 ^ k / m) (2 ^ k % m == 0) (-(k : Int) - e)

/-- √(m × 2^e). -/
def sqrtVal (m : Nat) (e : Int) : FVal :=
  let m := if e % 2 = 0 then m else 2 * m
  let e := if e % 2 = 0 then e else e - 1
  let y := m * 2 ^ 96
  withSticky false (isqrt y) (isqrt y * isqrt y == y) (e / 2 - 48)

/-- 1 / √(m × 2^e). -/
def rsqVal (m : Nat) (e : Int) : FVal :=
  let m := if e % 2 = 0 then m else 2 * m
  let e := if e % 2 = 0 then e else e - 1
  let k := m.log2 + 64
  let r := isqrt (2 ^ (2 * k) / m)
  withSticky false r (r * r * m == 2 ^ (2 * k)) (-(e / 2) - k)

/-- ⌊π × 2^600⌋ and ⌊ln 2 × 2^600⌋. -/
def piBits : Nat := 0x3243f6a8885a308d313198a2e03707344a4093822299f31d0082efa98ec4e6c89452821e638d01377be5466cf34e90c6cc0ac29b7c97c50dd3f84d5b5b54709179216d5d98979fb1bd1310b
def ln2Bits : Nat := 0xb17217f7d1cf79abc9e3b39803f2f6af40f343267298b62d8a0d175b8baafa2be7b876206debac98559552fb4afa1b10ed2eae35c138214427573b291169b8253e96ca16224ae8c51acbda

/-- Fixed point with 512 fraction bits. -/
def fxOne : Nat := 2 ^ 512
def fxMul (a b : Nat) : Nat := a * b / 2 ^ 512

/-- Σ x^i / i!, from term `i` on, `n` terms (fixed point). -/
def expTerms (x : Nat) : Nat → Nat → Nat → Nat
  | 0, _, _ => 0
  | n + 1, i, term => term + expTerms x n (i + 1) (fxMul term x / (i + 1))
/-- e^x for a fixed-point 0 ≤ x < 32: the argument is halved eight times, and the result squared as often. -/
def fxExp (x : Nat) : Nat :=
  (List.range 8).foldl (fun y _ => fxMul y y) (expTerms (x / 2 ^ 8) 100 0 fxOne)

/-- sin and cos of a fixed-point 0 ≤ x ≤ 1: alternating terms x^i / i!, from `i` on. -/
def sinTerms (x : Nat) : Nat → Nat → Int → Int
  | 0, _, _ => 0
  | n + 1, i, term => term + sinTerms x n (i + 2) (-(term * (x * x / 2 ^ 512) / 2 ^ 512 / ((i + 1) * (i + 2))))
def fxSin (x : Nat) : Nat := (sinTerms x 60 1 x).toNat
def fxCos (x : Nat) : Nat := (sinTerms x 60 0 fxOne).toNat

/-- 2^(m × 2^e) with its sign, within the range where FP32 has a value strictly inside; beyond it a power of two far
out stands for the result. -/
def exp2Val (neg : Bool) (m : Nat) (e : Int) : FVal :=
  if 8 < (m.log2 : Int) + e then .fin false 1 (if neg then -1000 else 1000)
  else
    let s := (-e).toNat
    let x := shl m (max e 0)
    let d := 2 ^ s
    let n : Int := if neg then -((x / d : Nat) : Int) - (if x % d = 0 then 0 else 1) else ((x / d : Nat) : Int)
    let r := if neg then (if x % d = 0 then 0 else d - x % d) else x % d
    if r = 0 then .fin false 1 n
    else withSticky false (fxExp (r * ln2Bits / 2 ^ 88 / d)) false (n - 512)

/-- Binary digits of log₂ of a fixed-point 1 ≤ y < 2 (640 fraction bits), most significant first. -/
def logBits : Nat → Nat → Nat → Nat
  | 0, _, acc => acc
  | n + 1, y, acc =>
    let z := y * y / 2 ^ 640
    if 2 ^ 641 ≤ z then logBits n (z / 2) (2 * acc + 1) else logBits n z (2 * acc)

/-- log₂ (m × 2^e). -/
def log2Val (m : Nat) (e : Int) : FVal :=
  let k : Int := m.log2 + e
  if m = 2 ^ m.log2 then ofInt k
  else
    let f := logBits 200 (m * 2 ^ 640 / 2 ^ m.log2) 0
    let v : Int := k * 2 ^ 200 + f
    if 0 ≤ v then withSticky false v.toNat false (-200)
    else withSticky true ((-v).toNat - 1) false (-200)

/-- sin(π t / 2^s) for 0 < t/2^s ≤ 1/2, with a sticky last bit, 1 exact at 1/2. -/
def sinPi (t s : Nat) : Nat × Bool :=
  if 2 * t = 2 ^ s then (fxOne, true)
  else if 4 * t ≤ 2 ^ s then (fxSin (t * piBits / 2 ^ 88 / 2 ^ s), false)
  else (fxCos ((2 ^ s - 2 * t) * piBits / 2 ^ 89 / 2 ^ s), false)

/-- sin(π × a) for a = m × 2^e, not integral (R156). -/
def sinVal (neg : Bool) (m : Nat) (e : Int) : FVal :=
  let s := (-e).toNat
  let d := 2 ^ s
  let r := m % (2 * d)
  let flip := decide (d < r)
  let r := if flip then r - d else r
  let t := if 2 * r ≤ d then r else d - r
  let v := sinPi t s
  withSticky (neg != flip) v.1 v.2 (-512)

/-- cos(π × a) = sin(π × (a + 1/2)), for a + 1/2 not integral. -/
def cosVal (m : Nat) (e : Int) : FVal :=
  if 0 ≤ e then .fin (shl m e % 2 == 1) 1 0
  else
    let s := (-e).toNat
    let x := 2 * m + 2 ^ s
    if x % 2 ^ (s + 1) = 0 then .fin (x / 2 ^ (s + 1) % 2 == 1) 1 0
    else sinVal false x (e - 1)

/-- tanh of a positive m × 2^e. -/
def tanhVal (neg : Bool) (m : Nat) (e : Int) : FVal :=
  let k : Int := m.log2 + e
  if 4 ≤ k then .fin neg (2 ^ 64 - 1) (-64)
  else if k < -20 then .fin neg (m * 2 ^ 64 - 1) (e - 64)
  else
    let x := if 0 ≤ e + 513 then shl m (e + 513) else m / 2 ^ (-(e + 513)).toNat
    let y := fxExp x
    withSticky neg ((y - fxOne) * 2 ^ 400 / (y + fxOne)) false (-400)

end Sys2Proof.Machine
end

