-- ==== Sys2Proof/Machine/Float.lean ====
section
/-! DEFINITION. Floating-point arithmetic, conversions and special functions (R141-R154, R156-R158). -/

namespace Sys2Proof.Machine

/-! Float operands (R141, R142). -/

/-- The format of a float type code (R49). -/
def fmtOfTy (t : Nat) : FpFmt := match t with | 8 => fp32 | 9 => bf16 | 10 => fp16 | 11 => e4m3 | _ => e5m2
/-- .f32, .bf16, .f16. -/
def isFTy (t : Nat) : Bool := decide (8 ≤ t) && decide (t ≤ 10)
/-- .f32 to .e5m2. -/
def isFTy8 (t : Nat) : Bool := decide (8 ≤ t) && decide (t ≤ 12)

/-- The code of a float operand: its low F bits. -/
def fBits (t : FpFmt) (x : Nat) : Nat := x % 2 ^ t.w
/-- A float operand as its value. -/
def fOpd (t : FpFmt) (x : Nat) : FVal := fpVal t (fBits t x)

/-- A rounded result in a destination of 32 bits. -/
def fRes (o : Opd) (r : Rounded) : FRes := res o 1 r.code r.sticky

/-- The shape of a float word on a port. -/
def fForm (port : Nat) (nsrc : Nat) (ty opt : Bool) : RForm :=
  { port := port, d := pDstG false, a := pGks, b := if 2 ≤ nsrc then pGks else pNone,
    c := if 3 ≤ nsrc then pGks else pNone, ty := ty, opt := opt }

/-- Rounding options without RSTOCH (R144). -/
def rmOnly (o : Nat) : Bool := decide (o < 3)

/-! Arithmetic (R146). -/

def fAddOp (a b _c : FVal) : FVal × Bool := fAdd a b
def fSubOp (a b _c : FVal) : FVal × Bool := fAdd a (fNeg b)
def fMulOp (a b _c : FVal) : FVal × Bool := fMul a b

/-- A float word that rounds an exact result once. -/
def execFArith (f : RRR) (nsrc : Nat) (op : FVal → FVal → FVal → FVal × Bool) (s : State) : Out :=
  let t := fmtOfTy f.ty.toNat
  execRRR (fForm 3 nsrc (isFTy f.ty.toNat) (rmOnly f.opt.toNat)) f
    (fun a b c => fRes f.d (roundRes t (rmodeOf f.opt.toNat) (op (fOpd t a) (fOpd t b) (fOpd t c)))) s

def execFadd (f : RRR) (s : State) : Out := execFArith f 2 fAddOp s
def execFsub (f : RRR) (s : State) : Out := execFArith f 2 fSubOp s
def execFmul (f : RRR) (s : State) : Out := execFArith f 2 fMulOp s
def execFfma (f : RRR) (s : State) : Out := execFArith f 3 fFma s

/-- Does the first value stand below the second, -0 below +0 (R147)? -/
def fBelow (a b : FVal) : Bool := fLt a b || (isZero a && isZero b && isNeg a && !isNeg b)

/-- FMIN and FMAX return an operand's bits, or the canonical NaN (R147). -/
def fPick (t : FpFmt) (mx : Bool) (x y : Nat) : Nat :=
  let a := fpVal t x
  let b := fpVal t y
  if isNan a && isNan b then t.nan
  else if isNan a then y
  else if isNan b then x
  else if mx then (if fBelow a b then y else x) else (if fBelow b a then y else x)

def execFPick (f : RRR) (mx : Bool) (s : State) : Out :=
  let t := fmtOfTy f.ty.toNat
  execRRR (fForm 3 2 (isFTy f.ty.toNat) (noOpt f.opt.toNat)) f
    (fun a b _ => res f.d 1 (fPick t mx (fBits t a) (fBits t b)) 0) s
def execFmin (f : RRR) (s : State) : Out := execFPick f false s
def execFmax (f : RRR) (s : State) : Out := execFPick f true s

/-- FCMP's conditions (R148). -/
def fCmpHolds (cc : Nat) (a b : FVal) : Bool :=
  let un := isNan a || isNan b
  match cc with
  | 0 => fEq a b
  | 1 => un || !fEq a b
  | 2 => fLt a b
  | 3 => fLt a b || fEq a b
  | 4 => fLt b a
  | 5 => fLt b a || fEq a b
  | 6 => un
  | _ => !un

def execFcmp (f : RRR) (s : State) : Out :=
  let t := fmtOfTy f.ty.toNat
  execRRR { fForm 3 2 (isFTy f.ty.toNat) (decide (f.opt.toNat < 8)) with d := pDst false } f
    (fun a b _ => res f.d 1 (bNat (fCmpHolds f.opt.toNat (fOpd t a) (fOpd t b))) 0) s

/-- FCLASS's bit (R149). -/
def fClassBit (t : FpFmt) (x : Nat) : Nat :=
  let c := x % 2 ^ (t.w - 1)
  match fpVal t x with
  | .nan => 8
  | .inf n => if n then 0 else 7
  | .fin n m _ =>
    if m = 0 then (if n then 3 else 4) else if c / 2 ^ t.f = 0 then (if n then 2 else 5) else (if n then 1 else 6)

def execFclass (f : RRR) (s : State) : Out :=
  let t := fmtOfTy f.ty.toNat
  execRRR (fForm 3 1 (isFTy8 f.ty.toNat) (noOpt f.opt.toNat)) f
    (fun a _ _ => res f.d 1 (2 ^ fClassBit t (fBits t a)) 0) s

/-- FRND (R150): an integral value in its own format; a zero keeps the sign. -/
def fRound (t : FpFmt) (mode : RMode) (x : Nat) : Rounded :=
  match fpVal t x with
  | .nan => { code := t.nan, sticky := 0 }
  | .inf _ => { code := x, sticky := 0 }
  | .fin n m e =>
    let r := roundInt mode 0 n m e
    { code := (roundFp t .rtz 0 (.fin n r.1.natAbs 0)).code, sticky := if r.2 then stNx else 0 }

def execFrnd (f : RRR) (s : State) : Out :=
  let t := fmtOfTy f.ty.toNat
  execRRR (fForm 3 1 (isFTy f.ty.toNat) (rmOnly f.opt.toNat)) f
    (fun a _ _ => fRes f.d (fRound t (rmodeOf f.opt.toNat) (fBits t a))) s

/-! Packed pairs (R151). -/

/-- Element `i` of a packed word. -/
def half (x i : Nat) : Nat := x / 2 ^ (16 * i) % 2 ^ 16
/-- The element of b that element `i` uses. -/
def bSel (bs i : Nat) : Nat := match bs with | 0 => i | 1 => 1 - i | 2 => 0 | _ => 1

def execHp (f : RRR) (nsrc : Nat) (op : FVal → FVal → FVal → FVal × Bool) (s : State) : Out :=
  let t := fmtOfTy f.ty.toNat
  let bs := f.opt.toNat / 4
  let mode := rmodeOf f.opt.toNat
  execRRR (fForm 3 nsrc (f.ty.toNat == 9 || f.ty.toNat == 10) (decide (f.opt.toNat < 16) && rmOnly (f.opt.toNat % 4))) f
    (fun a b c =>
      let el (i : Nat) := roundRes t mode (op (fpVal t (half a i)) (fpVal t (half b (bSel bs i))) (fpVal t (half c i)))
      res f.d 1 ((el 0).code + (el 1).code * 2 ^ 16) ((el 0).sticky ||| (el 1).sticky)) s
def execHpadd (f : RRR) (s : State) : Out := execHp f 2 fAddOp s
def execHpmul (f : RRR) (s : State) : Out := execHp f 2 fMulOp s
def execHpfma (f : RRR) (s : State) : Out := execHp f 3 fFma s

/-! Conversions (R143, R144, R152-R154). -/

/-- The value of a float source code in options [4:2]. -/
def xfVal (x v : Nat) : FVal :=
  match x with
  | 0 => fpVal fp32 (v % 2 ^ 32) | 1 => fpVal bf16 (v % 2 ^ 16) | 2 => fpVal fp16 (v % 2 ^ 16)
  | 3 => fpVal e4m3 (v % 256) | 4 => fpVal e5m2 (v % 256) | _ => l6Val v

/-- A converting word: the seed stands in c under RSTOCH, and c is unused otherwise (R144). The dither's index is the
slot. -/
def execConv (f : RRR) (d a : Pos) (ok : Bool) (conv : RMode → Nat → Nat → FRes) (s : State) : Out :=
  let mode := rmodeOf f.opt.toNat
  let c : Pos := if mode = .rs then pGks else pNone
  let fm : RForm := { port := 2, d := d, a := a, b := pNone, c := c, ty := ok, opt := true }
  issueWord (rrrSpec fm f false false false) (fun w act s => finishPend s w (act.map (fun i =>
    (i, .ok (conv mode (dither (opdVal s w i f.c c.n) i) (opdVal s w i f.a a.n)))))) s

def execFcvt (f : RRR) (s : State) : Out :=
  let x := f.opt.toNat / 4
  execConv f (pDstG false) pGks (isFTy8 f.ty.toNat && decide (x < 6))
    (fun mode dith v => fRes f.d (roundFp (fmtOfTy f.ty.toNat) mode dith (xfVal x v))) s

/-- F2I. Its destination, like I2F's source, has the classes of R142, predicates of 8 to 32 bits among them, where R141 names only
FCMP's (log 50). -/
def execF2i (f : RRR) (s : State) : Out :=
  let x := f.opt.toNat / 4
  let t := f.ty.toNat
  execConv f (pDst (tyWide t)) pGks (isIntTy t && decide (x < 6))
    (fun mode dith v =>
      let r := toInt mode dith (tyLo t) (tyHi t) (xfVal x v)
      res f.d (tyN t) (putOf t r.1) r.2) s

def execI2f (f : RRR) (s : State) : Out :=
  let x := f.opt.toNat / 4
  execConv f (pDstG false) (pSrc (tyWide x)) (isFTy8 f.ty.toNat)
    (fun mode dith v => fRes f.d (roundFp (fmtOfTy f.ty.toNat) mode dith (ofInt (srcOf x v)))) s

/-- PACK8 (R154). -/
def execPack8 (f : RRR) (s : State) : Out :=
  let k := 8 * f.opt.toNat
  execRRRPend (fForm 2 2 (f.ty.toNat == 0) (decide (f.opt.toNat < 4))) f
    (fun a b _ => res f.d 1 (b - (b / 2 ^ k % 256) * 2 ^ k + a % 256 * 2 ^ k) 0) s

/-- UNPACK8 (R154). -/
def execUnpack8 (f : RRR) (s : State) : Out :=
  let t := f.ty.toNat
  execRRRPend (fForm 2 1 (t == 11 || t == 12) (decide (f.opt.toNat < 4))) f
    (fun a _ _ => fRes f.d (roundFp fp32 .rne 0 (fpVal (fmtOfTy t) (a / 2 ^ (8 * f.opt.toNat) % 256)))) s

/-! Special functions (R156). -/

def nanOut (nv : Bool) : Rounded := { code := fp32.nan, sticky := if nv then stNv else 0 }
def infOut (neg : Bool) (sticky : Nat) : Rounded := { code := signed fp32 neg 0x7F800000, sticky := sticky }
def zeroOut (neg : Bool) : Rounded := { code := signed fp32 neg 0, sticky := 0 }
def oneOut (neg : Bool) : Rounded := { code := signed fp32 neg 0x3F800000, sticky := 0 }
def rnd32 (x : FVal) : Rounded := roundFp fp32 .rne 0 x

/-- Is m × 2^e an integer? -/
def isIntegral (m : Nat) (e : Int) : Bool := decide (0 ≤ e) || m % 2 ^ (-e).toNat == 0

def rcpOut (x : FVal) : Rounded :=
  match x with
  | .nan => nanOut false
  | .inf n => zeroOut n
  | .fin n m e => if m = 0 then infOut n stDz else rnd32 (rcpVal n m e)

def rsqOut (x : FVal) : Rounded :=
  match x with
  | .nan => nanOut false
  | .inf n => if n then nanOut true else zeroOut false
  | .fin n m e => if m = 0 then infOut n stDz else if n then nanOut true else rnd32 (rsqVal m e)

def sqrtOut (x : FVal) : Rounded :=
  match x with
  | .nan => nanOut false
  | .inf n => if n then nanOut true else infOut false 0
  | .fin n m e => if m = 0 then zeroOut n else if n then nanOut true else rnd32 (sqrtVal m e)

def exp2Out (x : FVal) : Rounded :=
  match x with
  | .nan => nanOut false
  | .inf n => if n then zeroOut false else infOut false 0
  | .fin n m e => if m = 0 then oneOut false else rnd32 (exp2Val n m e)

def log2Out (x : FVal) : Rounded :=
  match x with
  | .nan => nanOut false
  | .inf n => if n then nanOut true else infOut false 0
  | .fin n m e => if m = 0 then infOut true stDz else if n then nanOut true else rnd32 (log2Val m e)

def sinOut (x : FVal) : Rounded :=
  match x with
  | .nan => nanOut false
  | .inf _ => nanOut true
  | .fin n m e => if isIntegral m e then zeroOut n else rnd32 (sinVal n m e)

def cosOut (x : FVal) : Rounded :=
  match x with
  | .nan => nanOut false
  | .inf _ => nanOut true
  | .fin _ m e =>
    if isIntegral m e then rnd32 (cosVal m e)
    else if isIntegral (2 * m) e then zeroOut false else rnd32 (cosVal m e)

def tanhOut (x : FVal) : Rounded :=
  match x with
  | .nan => nanOut false
  | .inf n => oneOut n
  | .fin n m e => if m = 0 then zeroOut n else rnd32 (tanhVal n m e)

def execSpecial (f : RRR) (out : FVal → Rounded) (s : State) : Out :=
  execRRRPend (fForm 2 1 (f.ty.toNat == 8) (noOpt f.opt.toNat)) f (fun a _ _ => fRes f.d (out (fpVal fp32 a))) s

def execRcp (f : RRR) (s : State) : Out := execSpecial f rcpOut s
def execRsq (f : RRR) (s : State) : Out := execSpecial f rsqOut s
def execSqrt (f : RRR) (s : State) : Out := execSpecial f sqrtOut s
def execExp2 (f : RRR) (s : State) : Out := execSpecial f exp2Out s
def execLog2 (f : RRR) (s : State) : Out := execSpecial f log2Out s
def execSin (f : RRR) (s : State) : Out := execSpecial f sinOut s
def execCos (f : RRR) (s : State) : Out := execSpecial f cosOut s
def execTanh (f : RRR) (s : State) : Out := execSpecial f tanhOut s

end Sys2Proof.Machine
end

