-- ==== Sys2Proof/Machine/CrossLane.lean ====
section
/-! DEFINITION. The cross-lane instructions and MXQ (R126-R131, R155): the exchange over the effective mask, and the
completion of a gathered group. -/

namespace Sys2Proof.Machine

/-! Shapes (R113-R115). -/

/-- Does d name the same k-register as the mask (R126)? -/
def dNamesMask (n : Nat) (f : RRR) : Bool :=
  f.c.cls == .k && f.d.cls == .k && decide (f.d.num ≤ f.c.num) && decide (f.c.num < f.d.num + n)

/-- The checks of a gathering word: `ok` holds its type and option checks. -/
def crossSpec (port : Nat) (d a b : Pos) (ok : Bool) (f : RRR) : WordSpec :=
  rrrSpec { port := port, d := d, a := a, b := b, c := pMask, ty := ok && !dNamesMask d.n f, opt := true } f false true false

/-- Types of REDUX and SCAN: the integers and .f32. -/
def foldTy (t : Nat) : Bool := decide (t ≤ 8)
/-- Options of REDUX and SCAN (R129). -/
def foldOpt (scan : Bool) (t o : Nat) : Bool :=
  decide (o % 8 < 6) && (t != 8 || decide (o % 8 < 3)) && (!tb o 4 || (o % 8 == 0 && t != 8)) && (scan || !tb o 3)

/-- What each word's shape is. -/
def crossOf (ins : Instr) : Option (RRR × WordSpec) :=
  match ins with
  | .lxch f =>
    let w := tyWide f.ty.toNat
    some (f, crossSpec 3 (pDst w) (pSrc w) pGks (isIntTy f.ty.toNat && decide (f.opt.toNat < 4)) f)
  | .vote f => some (f, crossSpec 3 (pDst false) (pSrc false) pNone (f.ty.toNat == 0 && decide (f.opt.toNat < 5)) f)
  | .ballot f => some (f, crossSpec 3 (pDstG false) (pSrc false) pNone (f.ty.toNat == 0 && noOpt f.opt.toNat) f)
  | .redux f =>
    let w := tyWide f.ty.toNat
    some (f, crossSpec 3 (pDst w) (pSrc w) pNone (foldTy f.ty.toNat && foldOpt false f.ty.toNat f.opt.toNat) f)
  | .scan f =>
    let w := tyWide f.ty.toNat
    some (f, crossSpec 3 (pDst w) (pSrc w) pNone (foldTy f.ty.toNat && foldOpt true f.ty.toNat f.opt.toNat) f)
  | .matchq f => some (f, crossSpec 3 (pDstG false) (pSrc (tyWide f.ty.toNat)) pNone (isIntTy f.ty.toNat && noOpt f.opt.toNat) f)
  | .mxq f =>
    let b : Pos := if f.opt.toNat = 3 then pGks else pNone
    some (f, crossSpec 2 (pDstG false) pGks b (f.ty.toNat == 8 && decide (f.opt.toNat < 4)) f)
  | _ => none

/-! What each computes: for every fibre of E, its result and the sticky bits. Operand values come by slot. -/

/-- The source slot of LXCH (R127). -/
def lxchSlot (mode i b : Nat) : Int :=
  match mode with
  | 0 => b % 32
  | 1 => (i + b % 32) % 32
  | 2 => (i : Int) + sext 6 b
  | _ => i ^^^ (b % 32)

def lxchVal (f : RRR) (e : W32) (av bv : Nat → Nat) (i : Nat) : Nat :=
  let t := f.ty.toNat
  let j := lxchSlot f.opt.toNat i (bv i)
  if 0 ≤ j && j ≤ 31 && e.getLsbD j.toNat then putOf t (srcOf t (av j.toNat)) else putOf t (srcOf t (av i))

/-- VOTE's value (R128). -/
def voteVal (mode : Nat) (sl : List Nat) (av : Nat → Nat) : Nat :=
  let n := sl.length
  let v := (sl.filter (fun i => av i != 0)).length
  match mode with
  | 0 => bNat (v == n)
  | 1 => bNat (decide (0 < v))
  | 2 => bNat (v == 0 || v == n)
  | 3 => v
  | _ => bNat (decide (n < 2 * v))

def ballotVal (sl : List Nat) (av : Nat → Nat) : Nat := (slotsMask (sl.filter (fun i => av i != 0))).toNat
def matchVal (t : Nat) (sl : List Nat) (av : Nat → Nat) (i : Nat) : Nat :=
  (slotsMask (sl.filter (fun j => bitsOf t (av j) == bitsOf t (av i)))).toNat

/-- One integer step of REDUX and SCAN. -/
def foldStep (op : Nat) (t : Nat) (x y : Int) : Int :=
  match op with
  | 0 => x + y
  | 1 => min x y
  | 2 => max x y
  | 3 => srcOf t (wrapNat 64 x &&& wrapNat 64 y)
  | 4 => srcOf t (wrapNat 64 x ||| wrapNat 64 y)
  | _ => srcOf t (wrapNat 64 x ^^^ wrapNat 64 y)

/-- The identity of an integer op (R129). -/
def foldIdent (op t : Nat) : Int :=
  match op with
  | 1 => tyHi t
  | 2 => tyLo t
  | 3 => srcOf t (2 ^ tyW t - 1)
  | _ => 0

/-- One .f32 step: the running code and its sticky bits. -/
def foldStepF (op : Nat) (x y : Nat) : Nat × Nat :=
  match op with
  | 0 => let r := roundRes fp32 .rne (fAdd (fpVal fp32 x) (fpVal fp32 y)); (r.code, r.sticky)
  | 1 => (fPick fp32 false x y, 0)
  | _ => (fPick fp32 true x y, 0)
def foldIdentF (op : Nat) : Nat := match op with | 0 => 0 | 1 => 0x7F800000 | _ => 0xFF800000

/-- The fold of the slots `l`, in their order (R129). One slot alone makes no step, and a NaN stays as it is (log 50). -/
def foldVal (f : RRR) (l : List Nat) (av : Nat → Nat) : Nat × Nat :=
  let t := f.ty.toNat
  let op := f.opt.toNat % 8
  if t = 8 then
    match l with
    | [] => (foldIdentF op, 0)
    | i :: r => r.foldl (fun acc j => let y := foldStepF op acc.1 (av j); (y.1, acc.2 ||| y.2)) (av i % 2 ^ 32, 0)
  else
    let v := match l with
      | [] => foldIdent op t
      | i :: r => r.foldl (fun acc j => foldStep op t acc (srcOf t (av j))) (srcOf t (av i))
    if op = 0 then satOrWrap (tb f.opt.toNat 4) t v else (putOf t v, 0)

/-- The slots that SCAN folds for fibre `i`. -/
def scanSlots (f : RRR) (sl : List Nat) (i : Nat) : List Nat :=
  sl.filter (fun j => if tb f.opt.toNat 3 then decide (j < i) else decide (j ≤ i))

/-! MXFP4 blocks (R79). -/

/-- ⌊log₂⌋ of a non-zero finite value's magnitude. -/
def fLog (m : Nat) (e : Int) : Int := (m.log2 : Int) + e

/-- The scale of a block (R79): none for a special input. -/
def mxScale (l : List FVal) : Option Nat :=
  if l.any (fun x => match x with | .fin _ _ _ => false | _ => true) then none
  else
    let logs := l.filterMap (fun x => match x with | .fin _ m e => if m = 0 then none else some (fLog m e) | _ => none)
    match logs with
    | [] => some 0
    | a :: t =>
      let c := t.foldl max a - 2 + 127
      some (if c < 0 then 0 else if 254 < c then 254 else c.toNat)

/-- An element at a scale. -/
def mxElem (c : Nat) (mode : RMode) (dith : Nat) (x : FVal) : Rounded :=
  match x with
  | .fin n m e => roundFp e2m1 mode dith (.fin n m (e - ((c : Int) - 127)))
  | _ => { code := 0, sticky := stNv }

/-- MXQ's word for an element of the block: scale and code (R155). -/
def mxqVal (f : RRR) (e : W32) (av bv : Nat → Nat) (i : Nat) : Nat × Nat :=
  let xs := (List.range 32).map (fun j => if e.getLsbD j then fpVal fp32 (av j) else .fin false 0 0)
  match mxScale xs with
  | none => (0xFF * 256, stNv)
  | some c =>
    let r := mxElem c (rmodeOf f.opt.toNat) (dither (bv i) i) (fpVal fp32 (av i))
    (c * 256 + r.code, r.sticky)

/-! Completion (R126). -/

/-- The value that fibre `i` of E receives from a cross-lane word, with its sticky bits. -/
def crossVal (ins : Instr) (e : W32) (av bv : Nat → Nat) (i : Nat) : Nat × Nat :=
  let sl := maskSlots e
  match ins with
  | .lxch f => (lxchVal f e av bv i, 0)
  | .vote f => (voteVal f.opt.toNat sl av, 0)
  | .ballot _ => (ballotVal sl av, 0)
  | .matchq f => (matchVal f.ty.toNat sl av i, 0)
  | .redux f => foldVal f sl av
  | .scan f => foldVal f (scanSlots f sl i) av
  | .mxq f => mxqVal f e av bv i
  | _ => (0, 0)

/-- A cross-lane word executed once over E by the batch of the group: d, then E into a k-register c. MXQ's result has
variable latency. -/
def crossRun (ins : Instr) (a : At) (e : W32) (s : State) : State :=
  match crossOf ins with
  | none => s
  | some (f, sp) =>
    let n := match sp.regs with | (o, k) :: _ => if o = f.d then k else 1 | [] => 1
    let wide := match ins with | .lxch f => tyWide f.ty.toNat | .redux f => tyWide f.ty.toNat | .scan f => tyWide f.ty.toNat
                               | .matchq f => tyWide f.ty.toNat | _ => false
    let av := fun i => opdVal s a i f.a (if wide then 2 else 1)
    let bv := fun i => opdVal s a i f.b 1
    let outs := (maskSlots e).map (fun i =>
      let v := crossVal ins e av bv i
      (i, FOut.ok { wr := destWr f.d n v.1 ++ (if f.c.cls = .k then [.k f.c.num e] else []), sticky := v.2 }))
    match ins with
    | .mxq _ => finishPend s a outs
    | _ => finishWord s a outs

/-- The fibres of the crew's trapped batches. -/
def trappedMask (c : Crew) : W32 :=
  c.trapWait.foldl (fun m w => m ||| w.batch.mask) (match c.trap with | some t => t.trap.batch.mask | none => 0#32)

/-- Has every LIVE fibre that the mask names arrived at the group, none of them in a trapped batch (R126, R357)? From trap
entry until ERET only a group of the handler completes (R357). -/
def groupFull (c : Crew) (g : Group) : Bool :=
  let e := g.mask &&& c.live
  !g.late && g.handler == c.trap.isSome && decide (e ≠ 0#32) && decide (e &&& ~~~g.arrivals = 0#32) && decide (g.arrivals &&& trappedMask c = 0#32)

/-- The position of a batch with its crew and team, as a word sees them. -/
def atOf (s : State) (r : CrewRef) (bi : Nat) : Option At :=
  match teamOf s r.cl r.ts, crewOf s r with
  | some t, some c => (c.batches[bi]?).map (fun b => { ref := r, bi := bi, team := t, crew := c, b := b })
  | _, _ => none

def inGroup (g : Group) (b : Batch) : Bool := decide (b.wait = .group g.addr g.mask) && b.handler == g.handler
def sameGroup (g x : Group) : Bool := x.addr == g.addr && x.mask == g.mask && x.handler == g.handler

/-- The group's fibres continue as one batch (R126): JOIN falls through to the next header, a cross-lane word runs. -/
def completeGroup (s : State) (r : CrewRef) (g : Group) : State :=
  match crewOf s r with
  | none => s
  | some c =>
    match c.batches.find? (inGroup g) with
    | none => s
    | some b =>
      let e := g.mask &&& c.live
      let rest := c.batches.filter (fun b => !inGroup g b)
      let s := updCrew s r (fun c => { c with
        groups := c.groups.filter (fun x => !sameGroup g x),
        batches := rest ++ [{ readyAt s.cycle b with mask := e }] })
      match atOf s r rest.length with
      | none => s
      | some a =>
        let s := match g.ins with
          | .join _ => finishTransfer s a [] ((maskSlots e).map (fun i => (i, clauseEnd b)))
          | ins => crossRun ins a e s
        match c.cur with
        | none => s
        | some m => updCrew s r (fun c => { c with cur := some m })

/-- Complete the group at a word if its last fibre has arrived. -/
def completeAt (s : State) (r : CrewRef) (addr : Nat) (m : W32) (handler : Bool) : State :=
  match crewOf s r with
  | none => s
  | some c =>
    match c.groups.find? (fun g => g.addr == addr && g.mask == m && g.handler == handler) with
    | none => s
    | some g => if groupFull c g then completeGroup s r g else s

/-- The arrival of a batch at a gathering word, with its completion. Where fibres outside the mask trap, the trapped batch is the
whole batch: the fibres that completed the word are past it, the others keep their arrivals (R356, R357, R364). -/
def gatherAt (a : At) (m : W32) (ins : Instr) (s : State) : State :=
  let inn := slotsMask (a.slots.filter (fun i => m.getLsbD i))
  let s := completeAt (gather a m ins s) a.ref a.pc m a.b.handler
  if inn = 0#32 || a.b.mask &&& ~~~inn = 0#32 then s
  else updCrew s a.ref (fun c =>
    let done := !c.groups.any (fun g => g.addr == a.pc && g.mask == m && g.arrivals &&& inn != 0#32)
    let moved := match ins with | .join _ => if done then (maskSlots inn).map (fun i => (i, clauseEnd a.b)) else [] | _ => []
    { c with batches := (c.batches.map (fun b => { b with mask := b.mask &&& ~~~inn })).filter (fun b => b.mask != 0#32), cur := none,
             trapWait := modAt c.trapWait (c.trapWait.length - 1)
               (fun w => { w with batch := { w.batch with mask := a.b.mask }, moved := moved }) })

/-- A cross-lane word: its fibres arrive, and the word runs once when every named LIVE fibre has (R126). -/
def execCross (ins : Instr) (s : State) : Out :=
  match crossOf ins with
  | none => .fault .noIssuer
  | some (f, sp) => issueWord sp (fun a _ s =>
      let m := BitVec.ofNat 32 (opdVal s a 0 f.c 1)
      gatherAt a m ins s) s

def execLxch (f : RRR) (s : State) : Out := execCross (.lxch f) s
def execVote (f : RRR) (s : State) : Out := execCross (.vote f) s
def execBallot (f : RRR) (s : State) : Out := execCross (.ballot f) s
def execRedux (f : RRR) (s : State) : Out := execCross (.redux f) s
def execScan (f : RRR) (s : State) : Out := execCross (.scan f) s
def execMatchq (f : RRR) (s : State) : Out := execCross (.matchq f) s
def execMxq (f : RRR) (s : State) : Out := execCross (.mxq f) s

/-- JOIN: the mask is a, the guard p15 (R114, R115). -/
def execJoin (f : RRR) (s : State) : Out :=
  issueWord (rrrSpec { port := 0, d := pNone, a := pMask, b := pNone, c := pNone, ty := f.ty.toNat == 0,
                       opt := noOpt f.opt.toNat } f true true false)
    (fun a _ s =>
      let m := BitVec.ofNat 32 (opdVal s a 0 f.a 1)
      gatherAt a m (.join f) s) s

/-- GROUP_COMPLETE: a group of the crew whose last missing fibre dropped out completes (R126). -/
def execGroupComplete (s : State) : Out :=
  match s.issue with
  | none => .next s
  | some i =>
    match crewOf s i.crew with
    | none => .next s
    | some c =>
      match c.groups.find? (groupFull c) with
      | none => .next s
      | some g => .next (completeGroup s i.crew g)

/-- Has a group waited 2^24 cycles? In a trap only those of the handler count time (R126, R357). -/
def groupLate (cycle : Nat) (c : Crew) (g : Group) : Bool :=
  !g.late && g.handler == c.trap.isSome && decide (g.since + 2 ^ 24 ≤ cycle)

/-- The trap of a group that is late: its fibres, as one batch at the word. -/
def lateTrap (g : Group) (l : List Batch) : Option TrapWait :=
  match l with
  | [] => none
  | b :: _ =>
    let m := l.foldl (fun m x => m ||| x.mask) 0#32
    some { faults := (maskSlots m).map (fun i => (i, { fault .convergence with pc := g.addr })),
           batch := { b with mask := m, wait := .none }, moved := [], t := g.addr, atHeader := false }

/-- CONVERGENCE_TIMEOUT: a group that has waited 2^24 cycles raises CONVERGENCE for each fibre parked in it; the crew
traps, the group stays in its state until ERET sends the fibres to the word again (R126, R356). -/
def execConvergenceTimeout (s : State) : Out :=
  match s.issue with
  | none => .next s
  | some i =>
    match crewOf s i.crew with
    | none => .next s
    | some c =>
      match c.groups.find? (groupLate s.cycle c) with
      | none => .next s
      | some g => .next (updCrew s i.crew (fun c =>
          { c with batches := c.batches.filter (fun b => !inGroup g b),
                   groups := c.groups.map (fun x => if sameGroup g x then { x with late := true } else x),
                   trapWait := c.trapWait ++ (lateTrap g (c.batches.filter (inGroup g))).toList }))

end Sys2Proof.Machine
end

