-- ==== Sys2Proof/Machine/Records.lean ====
section
/-! DEFINITION. Object records (R27-R32): layout, checks, rights, element addresses, and the read of a record through
the cluster's cache. -/

namespace Sys2Proof.Machine

/-- An object record (R28). Lists have five entries. -/
structure ObjRec where
  base : Nat
  fmt : Nat
  layout : Nat
  rank : Nat
  rights : Nat
  elemoff : Nat
  tlfidx : Nat
  ext : List Nat
  str : List Int
  gsh : List Nat
  shd : List Nat
  devmap : Nat
  /-- a reserved field is not zero -/
  rsv : Bool
  deriving DecidableEq, Repr

def recOf (l : List Byte) : ObjRec :=
  let w := leAt l 8 4
  { base := leAt l 0 8, fmt := slice w 0 8, layout := slice w 8 8, rank := slice w 16 3, rights := slice w 20 4,
    elemoff := slice w 24 4, tlfidx := leAt l 0x10 8, ext := (List.range 5).map (fun d => leAt l (0x18 + 4 * d) 4),
    str := (List.range 5).map (fun d => sext 64 (leAt l (0x30 + 8 * d) 8)),
    gsh := (List.range 5).map (fun d => leAt l (0x58 + 4 * d) 4),
    shd := (List.range 5).map (fun d => leAt l (0x6C + d) 1), devmap := leAt l 0x78 8,
    rsv := tb w 19 || slice w 28 4 != 0 || leAt l 0x0C 4 != 0 || leAt l 0x2C 4 != 0 || leAt l 0x71 7 != 0 }

def ObjRec.extAt (r : ObjRec) (d : Nat) : Nat := (r.ext[d]?).getD 0
def ObjRec.strAt (r : ObjRec) (d : Nat) : Int := (r.str[d]?).getD 0

/-! Formats (R65). -/

def fmtFp32 : Nat := 1
def fmtMx : Nat := 6
def fmtInt8 : Nat := 7
def fmtInt4 : Nat := 8
def fmtL6 : Nat := 9
def fmtInt32 : Nat := 0xA
def fmtTlf : Nat := 0x10

def isFmt (f : Nat) : Bool := (decide (1 ≤ f) && decide (f ≤ 0xA)) || f == fmtTlf
/-- A format of 4 bits. -/
def isNib (f : Nat) : Bool := f == fmtMx || f == fmtInt4
/-- Bits of an element's storage; 0 for TLF. -/
def fmtBits (f : Nat) : Nat :=
  match f with
  | 1 => 32 | 0xA => 32 | 2 => 16 | 3 => 16 | 6 => 4 | 8 => 4 | 0x10 => 0 | _ => 8

/-- One element in the units of a record's strides (R28). -/
def ObjRec.unit (r : ObjRec) : Nat := if isNib r.fmt then 1 else fmtBits r.fmt / 8

/-! Checks (R28-R31, R71, R84). -/

/-- Is each extent and stride as RANK asks? -/
def dimsBad (r : ObjRec) : Bool :=
  (List.range 5).any (fun d => if d < r.rank then r.extAt d == 0 else r.extAt d != 0 || r.strAt d != 0)

/-- The requirements of a layout (R29, R71, R84). `realign`: the user is COPY, which takes odd 4-bit offsets. An MXFP4 record has its
own requirements, and the odd-stride check is INT4S's alone (log 50). -/
def layoutBad (r : ObjRec) (realign : Bool) : Bool :=
  let one : Int := r.unit
  (match r.layout with
  | 3 => r.fmt != fmtTlf || r.str.any (· != 0) || r.base % 16 != 0 || r.tlfidx % 4 != 0 || decide (2 ^ 57 ≤ r.tlfidx)
  | 0 => r.strAt 0 != one || r.tlfidx != 0
  | 1 => decide (r.rank < 2) || r.strAt 1 != one || r.tlfidx != 0
  | 2 => decide (r.rank < 2) || r.tlfidx != 0
  | _ => true)
  || (r.layout != 3 && r.fmt == fmtTlf)
  || (r.fmt == fmtMx && (decide (1 < r.layout) || r.elemoff != 0
      || (List.range r.rank).any (fun d => d != r.layout && (decide (r.strAt d ≤ 0) || r.strAt d % 32 != 0))))
  || (r.fmt == fmtInt4 && !realign && (r.elemoff == 1 || (List.range 5).any (fun d => decide (1 ≤ d) && r.strAt d % 2 != 0)))

/-- The fields of a distributed record (R30). -/
def shardBad (r : ObjRec) : Bool :=
  if r.gsh.headD 0 = 0 then r.gsh.any (· != 0) || r.shd.any (· != 0) || r.devmap != 0
  else
    let g (d : Nat) := (r.gsh[d]?).getD 0
    let h (d : Nat) := max ((r.shd[d]?).getD 0) 1
    (List.range 5).any (fun d => if d < r.rank then g d == 0 || decide ((g d + h d - 1) / h d < r.extAt d)
      else g d != 0 || decide (1 < h d))
    || decide (65536 < h 0 * h 1 * h 2 * h 3 * h 4) || r.devmap == 0 || r.devmap % 2 != 0

/-- Step 1 of R31: does the record raise FORMAT? -/
def recBad (r : ObjRec) (realign : Bool) : Bool :=
  r.rsv || !isFmt r.fmt || decide (3 < r.layout) || r.rank == 0 || decide (5 < r.rank) || decide (2 ^ 57 ≤ r.base)
  || decide ((if isNib r.fmt then 1 else 0) < r.elemoff) || dimsBad r || layoutBad r realign || shardBad r

/-- Rights of a record (R28): read 0, write 1, engine 2, copy 3. -/
def rightsOk (r : ObjRec) (need : List Nat) : Bool := need.all (fun i => tb r.rights i)

/-- Step 3 of R31. -/
def indexOk (r : ObjRec) (idx : List Nat) : Bool :=
  (List.range 5).all (fun d => if d < r.rank then decide ((idx[d]?).getD 0 < r.extAt d) else (idx[d]?).getD 0 == 0)

/-! Addresses (R29). -/

/-- Elements of the record. -/
def ObjRec.count (r : ObjRec) : Nat := (List.range r.rank).foldl (fun n d => n * r.extAt d) 1

/-- The index of a logical linear element index, dimension 0 fastest. -/
def ObjRec.unlin (r : ObjRec) (l : Nat) : List Nat :=
  ((List.range 5).foldl (fun (acc : List Nat × Nat) d =>
    if d < r.rank then (acc.1 ++ [acc.2 % max (r.extAt d) 1], acc.2 / max (r.extAt d) 1) else (acc.1 ++ [0], acc.2)) ([], l)).1

/-- The logical linear index of an element (R76). -/
def ObjRec.lin (r : ObjRec) (idx : List Nat) : Nat :=
  ((List.range r.rank).foldl (fun (acc : Nat × Nat) d => (acc.1 + (idx[d]?).getD 0 * acc.2, acc.2 * r.extAt d)) (0, 1)).1

/-- The strided sum of R29, in bytes or, for a 4-bit format, in elements. -/
def ObjRec.offset (r : ObjRec) (idx : List Nat) : Int :=
  let i (d : Nat) : Nat := (idx[d]?).getD 0
  if r.layout = 2 then
    (i 1 / 16 : Nat) * r.strAt 1 + (i 0 / 16 : Nat) * r.strAt 0 + (((i 1 % 16) * 16 + i 0 % 16) * r.unit : Nat)
      + (i 2 * r.strAt 2 + i 3 * r.strAt 3 + i 4 * r.strAt 4)
  else i 0 * r.strAt 0 + i 1 * r.strAt 1 + i 2 * r.strAt 2 + i 3 * r.strAt 3 + i 4 * r.strAt 4

/-- The byte that holds an element, and whether it lies in the high nibble. -/
def ObjRec.addr (r : ObjRec) (idx : List Nat) : Nat × Bool :=
  if isNib r.fmt then
    let e := (r.elemoff : Int) + r.offset idx
    (wrapNat 64 (r.base + e / 2), e % 2 == 1)
  else (wrapNat 64 (r.base + r.offset idx), false)

/-- The scale byte of an MXFP4 element (R71). -/
def ObjRec.scaleAddr (r : ObjRec) (idx : List Nat) : Nat :=
  let top := (List.range r.rank).foldl (fun (n : Int) d => n + ((r.extAt d : Int) - 1) * r.strAt d) 0
  let sb := (top + 1 + 1) / 2
  wrapNat 64 (r.base + 16 * ((sb + 15) / 16) + r.offset idx / 32)

/-! Reading a record (R27, R32). -/

/-- Why a record cannot be had: the fault, and where the read itself faults the record's address and the first byte that it
could not reach. -/
structure RecErr where
  kind : FKind
  addr : Option (Nat × Nat)
  deriving DecidableEq, Repr

/-- [va, va + n) cut where a page ends; `n` is at most a page. -/
def pagePieces (va n : Nat) : List (Nat × Nat) :=
  let m := (va / 65536 + 1) * 65536 - va
  if m < n then [(va, m), (va + m, n - m)] else [(va, n)]

/-- Where the pieces of the record at `base` lie, translated for a read (R27), or the first fault. -/
def recPieces (s : State) (cl ctx base : Nat) : List (Nat × Nat) → State × Except RecErr (List (Nat × Nat))
  | [] => (s, .ok [])
  | (va, n) :: t =>
    let no (k : FKind) : Except RecErr (List (Nat × Nat)) := .error { kind := k, addr := some (base, va) }
    if 2 ^ 57 ≤ va then (s, no .protection)
    else match xlate s (some cl) (dieNo cl) ctx va with
      | (s, .error .absent) => (s, no .notPresent)
      | (s, .error (.bad _)) => (s, no .protection)
      | (s, .error .late) => (s, no .timeout)
      | (s, .ok e) =>
        let k := locOf e va
        if !e.rd || isWindow e then (s, no .protection)
        else if behindIsolated s k then (s, no .timeout)
        else if peerGone s k then (s, no .orphan)
        else match recPieces s cl ctx base t with
          | (s, .ok l) => (s, .ok ((k, n) :: l))
          | r => r

/-- A record of the context's object table: from the cluster's cache of 64, or read at its home and cached. -/
def recRead (s : State) (cl ctx idx : Nat) : State × Except RecErr (List Byte) :=
  match (ctxOf s ctx).map (·.regs) with
  | none => (s, .error { kind := .format, addr := none })
  | some g =>
    if g.objcount ≤ idx then (s, .error { kind := .format, addr := none })
    else match (clusterOf s cl).recs.find? (fun e => e.ctx == ctx && e.idx == idx) with
      | some e => (s, .ok e.image)
      | none =>
        let va := wrapNat 64 (g.objbase.toNat + 128 * idx)
        match recPieces s cl ctx va (pagePieces va 128) with
        | (s, .error e) => (s, .error e)
        | (s, .ok l) =>
          let r := l.foldl (fun (r : State × List Byte) p =>
            let q := homeRead r.1 (dieNo cl) p.1 p.2 ctx false
            (q.1, r.2 ++ q.2)) (s, [])
          let x : RecEntry := { ctx := ctx, idx := idx, image := r.2 }
          (updCluster r.1 cl (fun c => { c with recs := (x :: c.recs).take 64 }), .ok r.2)

end Sys2Proof.Machine
end

