-- ==== Sys2Proof/Machine/LoadStore.lean ====
section
/-! DEFINITION. Fibre accesses: the four spaces and the checks of R164, loads and stores (R161-R169), atomics
(R170-R172), fences (R173) and cache operations (R174-R177). -/

namespace Sys2Proof.Machine

/-! Accesses. -/

/-- An access as a fibre forms it: its kind, width in bytes, and policy. -/
structure Acc where
  kind : AccKind
  n : Nat
  pol : Policy
  deriving DecidableEq, Repr

def accCode (k : AccKind) : Nat := match k with | .load => 1 | .store => 2 | .atomic => 3

/-- The fault of an access (R355, R362). -/
def accFault (k : FKind) (x : Acc) (addr va tok : Nat) : FaultInfo :=
  { fault k with width := x.n, acc := accCode x.kind, addr := addr, va := va, tokenId := tok,
                 needWr := decide (x.kind ≠ .load), needRd := decide (x.kind ≠ .store) }

/-- Where an access that passes its checks goes: a PAD offset, or a location with its wide mark (R173). -/
inductive Target where
  | pad (off : Nat)
  | mem (k : Nat) (wide : Bool)
  deriving DecidableEq, Repr

/-- The fault-record area, which the privileged view reaches with no token (R363). -/
def inFaultArea (s : State) (ctx va n : Nat) : Bool :=
  match ctxOf s ctx with
  | none => false
  | some c => decide (c.regs.faultbase.toNat ≤ va) && decide (va + n ≤ c.regs.faultbase.toNat + 0x18000 + 32 * 6291456)

/-- Does the access read poison (R164, check 6)? An atomic reads the home, after the cluster's dirty line is there. -/
def meetsPoison (s : State) (cl k : Nat) (x : Acc) : Bool :=
  match x.kind with
  | .store => false
  | .load => readsPoison s cl k x.pol
  | .atomic => homePoison s cl k

/-- Is the access one that its holder would have to answer, and does not for now (R386, R401)? A load that the L1 or an L2 can serve
goes on, and so does a store, which waits for no answer. -/
def unheld (s : State) (cl k : Nat) (x : Acc) : Bool :=
  quiet s k && (match x.kind with
    | .store => false
    | .atomic => isPeer k || !homeHolds s k x.n
    | .load =>
      if x.pol = .bypass then isPeer k || !homeHolds s k x.n
      else (l1Find (clusterOf s cl) k).isNone
        && (if isPeer k then !peerHeld (dieOf s (dieNo cl)) (k / 64 * 64) else !homeHolds s (k / 64 * 64) 64))

/-- What the place of an access answers to it once its permission and its token are right (R164, R361, R386, R399, R401); `t` is the
token that a record names. An access without an answer is outstanding. -/
def placeFault (s : State) (cl k : Nat) (x : Acc) (addr va t : Nat) : Option FaultInfo :=
  if meetsPoison s cl k x then some (accFault .poison x addr va t)
  else if behindIsolated s k then some (accFault .timeout x addr va noToken)
  else match peerFault s k with
    | some f => some (accFault f x addr va t)
    | none => if unheld s cl k x then some { accFault .notPresent x addr va noToken with quiet := some k } else none

/-- Checks 4 to 6 of R164 and the TIMEOUT of R361 for the virtual address `va`; `addr` is the address that a record
carries, `tok` whether the token check applies. -/
def checkVa (s : State) (a : At) (x : Acc) (va addr : Nat) (tok prv : Bool) : State × Except FaultInfo Target :=
  let cl := a.ref.cl
  match xlate s (some cl) (dieNo cl) a.ctx va with
  | (s, .error .absent) => (s, .error { accFault .notPresent x addr va noToken with hw := prv })
  | (s, .error (.bad _)) => (s, .error (accFault .protection x addr va noToken))
  | (s, .error .late) => (s, .error (accFault .timeout x addr va noToken))
  | (s, .ok e) =>
    if isWindow e || (decide (x.kind ≠ .store) && !e.rd) || (decide (x.kind ≠ .load) && !e.wr) then
      (s, .error (accFault .protection x addr va noToken))
    else
      let k := locOf e va
      let tk := match coverOf s a.ctx va with | some (d, i, _) => tokenId d i | none => noToken
      let late (wide : Bool) : Except FaultInfo Target :=
        match placeFault s cl k x addr va (if tok then tk else noToken) with
        | some f => .error f
        | none => .ok (.mem k wide)
      if !tok || (a.crew.priv && inFaultArea s a.ctx va x.n) then (s, late false)
      else match tokenCheck s a.ctx a.ids va x.kind with
        | .error (f, t) => (s, .error (accFault f x addr va t))
        | .ok wide => (s, late wide)

/-- A GLOBAL access (R161, R164). -/
def globalAcc (s : State) (a : At) (x : Acc) (va : Nat) : State × Except FaultInfo Target :=
  if 2 ^ 57 ≤ va then (s, .error (accFault .protection x va va noToken))
  else if va % x.n ≠ 0 then (s, .error (accFault .misaligned x va va noToken))
  else checkVa s a x va va true false

/-- A PAD access (R25, R164). -/
def padAcc (s : State) (a : At) (x : Acc) (off : Nat) : State × Except FaultInfo Target :=
  if off % x.n ≠ 0 then (s, .error (accFault .misaligned x off 0 noToken))
  else if padSize a.team < off + x.n then (s, .error (accFault .bounds x off 0 noToken))
  else (s, .ok (.pad off))

/-- A PRIVATE access of slot `i` (R26, R164). Where the sum with PRIVBASE reaches 2^57 the spec names no check: the model raises
PROTECTION with the byte offset (log 50). -/
def privAcc (s : State) (a : At) (i : Nat) (x : Acc) (off : Nat) : State × Except FaultInfo Target :=
  match (ctxOf s a.ctx).map (·.regs) with
  | none => (s, .error (accFault .bounds x off 0 noToken))
  | some g =>
    if off % x.n ≠ 0 then (s, .error (accFault .misaligned x off 0 noToken))
    else if g.privmax.toNat < off + x.n then (s, .error (accFault .bounds x off 0 noToken))
    else
      let va := wrapNat 64 (g.privbase.toNat + fibreIndex a.ref i * g.privmax.toNat + off)
      if 2 ^ 57 ≤ va then (s, .error (accFault .protection x off va noToken))
      else checkVa s a x va off false true

/-- The fault of an access whose record cannot be read: it carries the record's address, and a page request for a read (R27). -/
def recFault (f : FaultInfo) (e : RecErr) : FaultInfo :=
  match e.addr with
  | none => { f with kind := e.kind }
  | some (base, va) => { f with kind := e.kind, addr := base, va := va, needRd := true, needWr := false }

/-- An OBJECT access: the record, rights and index checks come first (R162, R31); their records hold the record index
and L' (R355). -/
def objAcc (s : State) (a : At) (x : Acc) (idx : Nat) (l : Int) : State × Except FaultInfo Target :=
  let tag := idx % 2 ^ 16 + wrapNat 32 l * 2 ^ 32
  match recRead s a.ref.cl a.ctx (idx % 2 ^ 16) with
  | (s, .error e) => (s, .error (recFault (accFault e.kind x tag 0 noToken) e))
  | (s, .ok img) =>
    let r := recOf img
    if recBad r false || isNib r.fmt || r.fmt == fmtTlf || fmtBits r.fmt != 8 * x.n then
      (s, .error (accFault .format x tag 0 noToken))
    else if !rightsOk r (if decide (x.kind = .store) then [1] else [0]) then (s, .error (accFault .protection x tag 0 noToken))
    else if l < 0 || (r.count : Int) ≤ l then (s, .error (accFault .bounds x tag 0 noToken))
    else globalAcc s a x (r.addr (r.unlin l.toNat)).1

/-! PAD ranges in flight (R166, R310). -/

/-- Does an access to PAD bytes [lo, hi] stall: on a write range, or on a read range when it stores? -/
def padBlocked (t : Team) (lo hi : Nat) (writes : Bool) : Bool :=
  t.ranges.any (fun r => decide (lo ≤ r.hi) && decide (r.lo ≤ hi) && (r.write || writes))

/-- The mark that makes a crew's NORMAL fills keep-last (R273, R274). -/
def urgencyMark (t : Team) : Nat := if t.urgency.expert then t.urgency.fixed else t.urgency.mark
def At.urgent (a : At) : Bool := urgencyMark a.team == a.ref.cr

/-- Perform a load. -/
def loadAt (s : State) (a : At) (x : Acc) (t : Target) : State × Nat :=
  match t with
  | .pad off => (s, padNat s a.ref.cl a.ref.ts off x.n)
  | .mem k wide => let r := l1Load s a.ref.cl k x.n a.ctx x.pol wide a.urgent; (r.1, leNat r.2)

/-- Perform a store. It is at most 16 bytes, so that it never clears poison alone. -/
def storeAt (s : State) (a : At) (x : Acc) (t : Target) (v : Nat) : State :=
  match t with
  | .pad off => padWrite s a.ref.cl a.ref.ts off (leBytes x.n v)
  | .mem k wide => l1Store s a.ref.cl k a.ctx (leBytes x.n v) x.pol wide a.urgent

/-! MEM words. -/

/-- Bytes of a MEM type; .b128 is code 13. -/
def memBytes (t : Nat) : Nat := if t = 13 then 16 else 2 ^ (t % 4)
/-- Registers of a MEM data group. -/
def memRegs (t : Nat) : Nat := if t = 13 then 4 else if tyWide t then 2 else 1

def memBase (f : MEM) : Opd := { cls := if f.kb then .k else .g, num := f.base }
def memPair (f : MEM) : Bool := f.space == 0#2 || f.space == 3#2
def memData (f : MEM) (scalar : Bool) : Opd := { cls := if scalar then .k else .g, num := f.data }

/-- A group of `n` registers of class G or K. -/
def pRegs (n : Nat) : Pos := { n := n, g := true, k := true, p := false, sp := [] }

/-- The checks of a MEM word (R160). -/
def memSpec (f : MEM) (scalar pref : Bool) : WordSpec :=
  let t := f.ty.toNat
  let nb := if memPair f then 2 else 1
  { port := some 1, ct := false, gd := f.gd, plain := false, priv := false,
    legal := fun w => (decide (t < 8) || t == 13) && posOk w (pRegs nb) (memBase f)
      && (if pref then f.data == 0 else posOk w (pRegs (memRegs t)) (memData f scalar))
      && !(f.space == 1#2 && f.policy != 0#2),
    regs := (memBase f, nb) :: (if pref then [] else [(memData f scalar, memRegs t)]) }

/-- The byte offset or address that fibre `i` forms, before its space is looked at (R161). -/
def memBaseVal (s : State) (a : At) (i : Nat) (f : MEM) : Nat := opdVal s a i (memBase f) (if memPair f then 2 else 1)
def memOff (f : MEM) : Int := sext 24 f.off.toNat

/-- A fibre's access under its checks. -/
def memAcc (s : State) (a : At) (i : Nat) (f : MEM) (x : Acc) : State × Except FaultInfo Target :=
  let b := memBaseVal s a i f
  match f.space.toNat with
  | 0 => globalAcc s a x (wrapNat 64 (b + memOff f))
  | 1 => padAcc s a x (wrapNat 32 (b + memOff f))
  | 2 => privAcc s a i x (wrapNat 32 (b + memOff f))
  | _ => objAcc s a x b (slice b 32 32 + memOff f)

/-- Does a BANKCFG of the cluster wait for room in the poison ring, so that the accesses to the L1 stall (R306, R308)? -/
def waitsRing (b : Batch) : Bool := match b.wait with | .ring _ _ _ => true | _ => false
def ringHeld (s : State) (cl : Nat) : Bool :=
  (clusterOf s cl).teams.any (fun t => !t.2.killed && t.2.crews.any (fun c => !c.stopped && c.batches.any waitsRing))

/-! The single order of BANKCFG, CLOCK, CUNLOCK, CINV and CDEMOTE on a cluster, by issue (R308). -/

/-- The place of a batch in the order, if its operation has one. -/
def l1Turn (b : Batch) : Option Nat := match b.wait with | .l1Held n _ => if n = 0 then none else some n | _ => none

/-- Does a held operation of the cluster that can go on stand before the place `n`, or any where there is no place yet? -/
def heldBefore (s : State) (cl : Nat) (n : Option Nat) : Bool :=
  (clusterOf s cl).teams.any (fun t => !t.2.killed && t.2.crews.any (fun c => !c.stopped && c.batches.any (fun b =>
    mayAct c b && (match l1Turn b, n with
      | some m, some n => decide (m < n)
      | some _, none => true
      | none, _ => false))))

/-- Is it not yet the turn of the operation at the batch's word? -/
def turnHeld (s : State) (a : At) : Bool := ringHeld s a.ref.cl || heldBefore s a.ref.cl (l1Turn a.b)

/-- The operation waits for its turn, with the place that it has or takes now. -/
def takeTurn (s : State) (a : At) : State :=
  match l1Turn a.b with
  | some n => waitAt s a (.l1Held n false) false
  | none => waitAt (bump s) a (.l1Held (s.fresh + 1) false) false

/-- Does a MEM word stall: a PAD word that touches an in-flight range for some fibre that would make its access, another one
behind a BANKCFG that waits? -/
def memStalls (s : State) (a : At) (f : MEM) (x : Acc) (slots : List Nat) : Bool :=
  if f.space = 1#2 then slots.any (fun i => match (memAcc s a i f x).2 with
    | .ok (.pad off) => padBlocked a.team off (off + x.n - 1) (decide (x.kind ≠ .load))
    | _ => false)
  else ringHeld s a.ref.cl
/-- What a MEM word that stalls waits for. -/
def memStall (f : MEM) : Waiting := if f.space = 1#2 then .padRange else .l1Held 0 false

/-- What a load writes (R163). -/
def loadRes (f : MEM) (scalar : Bool) (v : Nat) : FRes :=
  let t := f.ty.toNat
  let n := memRegs t
  res (memData f scalar) n (if n = 1 then putOf t (srcOf t v) else v) 0

def loadFibre (f : MEM) (scalar : Bool) (a : At) (i : Nat) (s : State) : State × FOut :=
  let x : Acc := { kind := .load, n := memBytes f.ty.toNat, pol := policyOf f.policy }
  match memAcc s a i f x with
  | (s, .error e) => (s, .bad e)
  | (s, .ok t) => let r := loadAt s a x t; (r.1, .ok (loadRes f scalar r.2))

/-- The registers of a data group as a number. -/
def dataVal (s : State) (a : At) (i : Nat) (o : Opd) (n : Nat) : Nat := if n = 4 then quadVal s a i o else opdVal s a i o n

def storeFibre (f : MEM) (scalar : Bool) (a : At) (i : Nat) (s : State) : State × FOut :=
  let x : Acc := { kind := .store, n := memBytes f.ty.toNat, pol := policyOf f.policy }
  match memAcc s a i f x with
  | (s, .error e) => (s, .bad e)
  | (s, .ok t) => (storeAt s a x t (dataVal s a i (memData f scalar) (memRegs f.ty.toNat)), .ok noRes)

/-- Locations and lengths of the stores that the completed fibres of a word have made in global memory. -/
def storedAt (s : State) (a : At) (f : MEM) (x : Acc) (l : List (Nat × FOut)) : List (Nat × Nat) :=
  l.filterMap (fun e => match e.2, (memAcc s a e.1 f x).2 with
    | .ok _, .ok (.mem k _) => some (k, x.n)
    | _, _ => none)

/-- Lines of which the stores cover all 64 bytes. -/
def wholeLines (l : List (Nat × Nat)) : List Nat :=
  (l.map (fun e => e.1 / 64 * 64)).eraseDups.filter (fun line => (List.range 64).all (fun i =>
    l.any (fun e => decide (e.1 ≤ line + i) && decide (line + i < e.1 + e.2))))

/-- A line of which one word has stored all 64 bytes is poisoned no longer: in the L1, and at the home once the bytes are there
(R166, log 52). -/
def clearWhole (cl : Nat) (s : State) (line : Nat) : State :=
  match l1Find (clusterOf s cl) line with
  | none => unpoison s line 64
  | some e =>
    if e.dirty = BitVec.allOnes 64 then updCluster s cl (fun c => l1Put c { e with poison := false, whole := true })
    else updCluster (unpoison s line 64) cl (fun c => l1Put c { e with poison := false })

/-- The lowest fibre acts; the others of the batch complete with no access (R167). -/
def lowestOnly (g : Nat → State → State × FOut) (act : List Nat) (s : State) : State × List (Nat × FOut) :=
  match act with
  | [] => (s, [])
  | i :: t => let r := g i s; (r.1, (i, r.2) :: t.map (fun j => (j, .ok noRes)))

def execLd (f : MEM) (s : State) : Out :=
  issueWord (memSpec f false false) (fun a act s =>
    if memStalls s a f { kind := .load, n := memBytes f.ty.toNat, pol := .normal } act then waitAt s a (memStall f) false
    else let r := eachFibre (loadFibre f false a) act s; finishPend r.1 a r.2) s

def execSt (f : MEM) (s : State) : Out :=
  issueWord (memSpec f false false) (fun a act s =>
    let x : Acc := { kind := .store, n := memBytes f.ty.toNat, pol := .normal }
    if memStalls s a f x act then waitAt s a (memStall f) false
    else
      let r := eachFibre (storeFibre f false a) act s
      finishWord ((wholeLines (storedAt r.1 a f x r.2)).foldl (clearWhole a.ref.cl) r.1) a r.2) s

def execLds (f : MEM) (s : State) : Out :=
  issueWord (memSpec f true false) (fun a act s =>
    if memStalls s a f { kind := .load, n := memBytes f.ty.toNat, pol := .normal } (act.take 1) then waitAt s a (memStall f) false
    else let r := lowestOnly (loadFibre f true a) act s; finishPend r.1 a r.2) s

def execSts (f : MEM) (s : State) : Out :=
  issueWord (memSpec f true false) (fun a act s =>
    if memStalls s a f { kind := .store, n := memBytes f.ty.toNat, pol := .normal } (act.take 1) then waitAt s a (memStall f) false
    else let r := lowestOnly (storeFibre f true a) act s; finishWord r.1 a r.2) s

/-- What PREF fetches: under BYPASS a line of peer memory goes into the die's L2 (R168, R300), any other line as a load brings it. -/
def prefAt (s : State) (a : At) (x : Acc) (k : Nat) (wide : Bool) : State :=
  if x.pol = .bypass && isPeer k then peerFill (l1Settle s a.ref.cl k) (dieNo a.ref.cl) (k / 64 * 64) a.ctx
  else (loadAt s a x (.mem k wide)).1

/-- PREF: a fill where a load would pass, nothing otherwise (R168); a malformed page-table entry that its check meets is
reported all the same (R370). -/
def prefFibre (f : MEM) (a : At) (i : Nat) (s : State) : State × FOut :=
  let x : Acc := { kind := .load, n := memBytes f.ty.toNat, pol := policyOf f.policy }
  match memAcc s a i f x with
  | (s, .ok (.mem k wide)) => (prefAt s a x k wide, .ok noRes)
  | (s, _) => (s, .ok noRes)

def execPref (f : MEM) (s : State) : Out :=
  issueWord (memSpec f false true) (fun a act s =>
    if f.space ≠ 1#2 && ringHeld s a.ref.cl then waitAt s a (.l1Held 0 false) false
    else
      let r := eachFibre (prefFibre f a) act s
      finishWord r.1 a r.2) s

/-! Atomics (R170-R172). -/

/-- The checks of an AMO word (R160); `types` lists its type codes. -/
def amoSpec (f : AMO) (types : List Nat) (cas : Bool) : WordSpec :=
  let n := tyN f.ty.toNat
  let reg (x : Nat) : Opd := { cls := .g, num := x }
  let base : Opd := { cls := if f.kb then .k else .g, num := f.base }
  { port := some 1, ct := false, gd := f.gd, plain := false, priv := false,
    legal := fun w => types.contains f.ty.toNat && decide (f.order.toNat < 4) && f.rsv == 0#4
      && posOk w (pRegs 2) base && posOk w (pRegs n) (reg f.b)
      && (if cas then posOk w (pRegs n) (reg f.c) else f.c == 0) && (if f.nd then f.d == 0 else posOk w (pRegs n) (reg f.d)),
    rel := decide (f.order.toNat / 2 = 1) && decide (4 ≤ f.scope.toNat),
    regs := [(base, 2), (reg f.b, n)] ++ (if cas then [(reg f.c, n)] else []) ++ (if f.nd then [] else [(reg f.d, n)]) }

/-- Write back and drop the issuing cluster's line before a global atomic (R170). -/
def amoClear (s : State) (cl k : Nat) : State :=
  match l1Find (clusterOf s cl) k with
  | none => s
  | some e => updCluster (writeBack s cl e) cl (fun c => l1Drop c k)

/-- An atomic as it travels to a peer (R399): the operation's number, b and c. -/
abbrev PeerOp := Nat × Nat × Nat

/-- Read and write a location as one step at its home: for peer memory by one request, and the die's own copy follows (R166, R295,
R399); else by a read and a write at the home L2 (R314). -/
def amoHome (s : State) (die ctx k n : Nat) (m : PeerOp) (op : Nat → Nat) : State × Nat :=
  let old := homeNat s k n
  let new := leBytes n (op old)
  if isPeer k then
    (request (copyPuts (homePuts s k new) die k new) (peerMember k) (.peerAtomic (peerMember k) (peerCtx k) (peerVa k) n m.1 m.2.1 m.2.2), old)
  else
    let d := homeDie k die
    (l2Request (homePuts (l2Request s d k n ctx false false true) k new) d k n ctx true false true, old)

/-- A fibre's atomic at the home (R170). -/
def amoMem (s : State) (cl ctx k n : Nat) (m : PeerOp) (op : Nat → Nat) : State × Nat := amoHome (amoClear s cl k) (dieNo cl) ctx k n m op

/-- An atomic on peer memory that other holders may change at any time, for its token is ATOMIC here, finds a value that the model
leaves free (R297, log 3). -/
def freshPeer (s : State) (ctx k n : Nat) : State :=
  if isPeer k && (match coverOf s ctx (peerVa k) with | some (_, _, t) => decide (t.rest = .atomic) | none => false) then newPeerEpoch s k n
  else s

/-- One indivisible read-modify-write at a target. -/
def amoAt (s : State) (a : At) (n : Nat) (t : Target) (m : PeerOp) (op : Nat → Nat) : State × Nat :=
  match t with
  | .pad off =>
    let old := padNat s a.ref.cl a.ref.ts off n
    (padWrite s a.ref.cl a.ref.ts off (leBytes n (op old)), old)
  | .mem k _ => amoMem (freshPeer s a.ctx k n) a.ref.cl a.ctx k n m op

/-- A fibre's access of an AMO. -/
def amoAcc (s : State) (a : At) (i : Nat) (f : AMO) (x : Acc) : State × Except FaultInfo Target :=
  let base : Opd := { cls := if f.kb then .k else .g, num := f.base }
  if f.pad then padAcc s a x (opdVal s a i base 1) else globalAcc s a x (opdVal s a i base 2)

/-- One fibre's atomic; `no` is the operation's number for a peer (R399). -/
def amoFibre (f : AMO) (no : Nat) (op : Nat → Nat → Nat → Nat) (a : At) (i : Nat) (s : State) : State × FOut :=
  let t := f.ty.toNat
  let n := memBytes t
  let x : Acc := { kind := .atomic, n := n, pol := .normal }
  let reg (r : Nat) : Nat := opdVal s a i { cls := .g, num := r } (tyN t)
  match amoAcc s a i f x with
  | (s, .error e) => (s, .bad e)
  | (s, .ok tg) =>
    let s := if f.order.toNat / 2 = 1 then releaseAt s a.ref.cl f.scope.toNat else s
    let r := amoAt s a n tg (no, reg f.b, reg f.c) (fun old => op old (reg f.b) (reg f.c))
    let s := if f.order.toNat % 2 = 1 then acquireAt r.1 a.ref.cl f.scope.toNat else r.1
    (s, .ok (if f.nd then noRes else res { cls := .g, num := f.d } (tyN t) (putOf t (srcOf t r.2)) 0))

/-- An AMO word: `op` gives the new value from old, b and c. -/
def execAmo (f : AMO) (types : List Nat) (cas : Bool) (no : Nat) (op : Nat → Nat → Nat → Nat) (s : State) : Out :=
  issueWord (amoSpec f types cas) (fun a act s =>
    let x : Acc := { kind := .atomic, n := memBytes f.ty.toNat, pol := .normal }
    if f.pad && act.any (fun i => match (amoAcc s a i f x).2 with
        | .ok (.pad off) => padBlocked a.team off (off + x.n - 1) true
        | _ => false) then waitAt s a .padRange false
    else let r := eachFibre (amoFibre f no op a) act s; finishPend r.1 a r.2) s

def intTys : List Nat := [2, 6, 3, 7]
def bitTys : List Nat := [6, 7]

/-- An integer operation on Src values, as bits (R171). -/
def amoInt (f : AMO) (v : Int → Int → Int) (old b : Nat) : Nat :=
  let t := f.ty.toNat
  wrapNat (tyW t) (v (srcOf t old) (srcOf t b))

def execAadd (f : AMO) (s : State) : Out := execAmo f intTys false 0 (fun old b _ => amoInt f vAdd old b) s
/-- AFADD sets no sticky bit (R171). The type code of .f32 is 8, of 4 bytes. -/
def afaddVal (old b : Nat) : Nat := (roundRes fp32 .rne (fAdd (fpVal fp32 old) (fpVal fp32 b))).code
/-- The number of a minimum or maximum for a peer: signed where the type is. -/
def minMaxNo (f : AMO) (signed unsigned : Nat) : Nat := if tySigned f.ty.toNat then signed else unsigned
def execAmin (f : AMO) (s : State) : Out := execAmo f intTys false (minMaxNo f 9 2) (fun old b _ => amoInt f vMin old b) s
def execAmax (f : AMO) (s : State) : Out := execAmo f intTys false (minMaxNo f 10 3) (fun old b _ => amoInt f vMax old b) s
def execAand (f : AMO) (s : State) : Out := execAmo f bitTys false 4 (fun old b _ => old &&& b) s
def execAor (f : AMO) (s : State) : Out := execAmo f bitTys false 5 (fun old b _ => old ||| b) s
def execAxor (f : AMO) (s : State) : Out := execAmo f bitTys false 6 (fun old b _ => old ^^^ b) s
def execAxchg (f : AMO) (s : State) : Out := execAmo f bitTys false 7 (fun _ b _ => b) s
def execAcas (f : AMO) (s : State) : Out :=
  execAmo f bitTys true 8 (fun old b c => if bitsOf f.ty.toNat old = bitsOf f.ty.toNat c then b else old) s

/-- A word as AFADD runs it: its checks want type .f32, its registers and bytes are those of a 32-bit integer. -/
def execAfadd (f : AMO) (s : State) : Out :=
  let g : AMO := { f with ty := 6#4 }
  execAmo g (if f.ty = 8#4 then [6] else []) false 1 (fun old b _ => afaddVal old b) s

/-! Fences and cache operations (R173-R177). -/

/-- The checks of an RRR word of port M with no type. -/
def mSpec (f : RRR) (d a b c : Pos) (opt : Bool) : WordSpec :=
  rrrSpec { port := 1, d := d, a := a, b := b, c := c, ty := f.ty.toNat == 0, opt := opt } f false false false

def execFence (f : RRR) (s : State) : Out :=
  issueWord { mSpec f pNone pNone pNone pNone (f.opt.toNat % 4 != 0) with
      rel := decide (f.opt.toNat % 4 / 2 = 1) && decide (4 ≤ f.opt.toNat / 4) } (fun a _ s =>
    let o := f.opt.toNat % 4
    let sc := f.opt.toNat / 4
    let s := if o / 2 = 1 then releaseAt s a.ref.cl sc else s
    let s := if o % 2 = 1 then acquireAt s a.ref.cl sc else s
    updCrew s a.ref (fun c => advance s.cycle c a.bi)) s

/-- A flag field of CFLUSH and RECALL: f0 to f11, or none (R159). -/
def flagOk (x : Nat) : Bool := decide (x < 12) || x == 15
def flagOf (x : Nat) : Option Nat := if x < 12 then some x else none
/-- Raise a flag's count at issue (R16). -/
def raiseFlag (s : State) (r : CrewRef) (fl : Option Nat) : State :=
  match fl with
  | none => s
  | some x => updCrew s r (fun c => flagUp c x)
def flagFull (c : Crew) (fl : Option Nat) : Bool := match fl with | none => false | some x => flagCount c x == 15

/-- CFLUSH: a walker starts for the lowest fibre's range (R174); CFLUSH_WALK_DONE ends it. -/
def execCflush (f : RRR) (s : State) : Out :=
  let fl := flagOf (f.opt.toNat % 16)
  issueWord (mSpec f pNone (pSrc true) (pSrc false) pNone (flagOk (f.opt.toNat % 16))) (fun a act s =>
    if flagFull a.crew fl then waitAt s a .flagFull false
    else match freeKey (clusterOf s a.ref.cl).walkers 0 4 with
      | none => waitAt s a .walkers false
      | some n =>
        let i := act.headD 0
        let lo := opdVal s a i f.a 2
        let w : Walker := { ctx := a.ctx, lo := lo, hi := lo + opdVal s a i f.b 1, inv := tb f.opt.toNat 4,
                            ts := a.ref.ts, cr := a.ref.cr, flag := fl, done := false }
        let s := updCluster s a.ref.cl (fun c => { c with walkers := put c.walkers n w })
        let s := raiseFlag s a.ref fl
        updCrew s a.ref (fun c => advance s.cycle c a.bi)) s

/-- The checks of CINV, CLOCK, CUNLOCK and CDEMOTE. -/
def rangeSpec (f : RRR) : WordSpec := mSpec f (pDstG false) (pSrc true) (pSrc false) pNone (noOpt f.opt.toNat)

/-- A cache operation on [a, a + b), for each fibre in slot order (R175-R177), in the cluster's single order (R308). -/
def execRange (f : RRR) (g : At → Nat → Nat → State → State × Except FaultInfo Nat) (s : State) : Out :=
  issueWord (rangeSpec f) (fun a act s =>
    if turnHeld s a then takeTurn s a
    else
      let r := eachFibre (fun i s =>
        match g a (opdVal s a i f.a 2) (opdVal s a i f.b 1) s with
        | (s, .ok v) => (s, outRes f.d 1 v)
        | (s, .error e) => (s, .bad e)) act s
      finishPend r.1 a r.2) s

/-- CINV (R175). -/
def cinvRun (a : At) (lo n : Nat) (s : State) : State × Except FaultInfo Nat :=
  let cl := a.ref.cl
  let sp := spans s (dieNo cl) a.ctx lo n
  let kept := ((clusterOf s cl).l1.filter (fun e => inSpans sp e.key && e.lock.isSome)).length
  (flushInv s cl (fun e => inSpans sp e.key && e.lock.isNone), .ok kept)
def execCinv (f : RRR) (s : State) : Out := execRange f cinvRun s

/-- Lock the line at `k`, which `va` names, for a team: 1 when it is locked, 0 when refused. -/
def lockLine (s : State) (cl ts k va : Nat) : State × Bool :=
  let c := clusterOf s cl
  match l1Find c k with
  | none => (s, false)
  | some e =>
    if e.lock.isSome then (s, true)
    else if 3 ≤ (c.l1.filter (fun x => l1Set c x.key == l1Set c k && x.lock.isSome)).length then (s, false)
    else (updCluster s cl (fun c => l1Put c { e with lock := some ts, lockVa := va / 64 * 64 }), true)

/-- CLOCK from address `at_` on, over `n` lines (R176): lines locked and refused, or the fault of a line. -/
def clockRun (a : At) : Nat → Nat → Nat → Nat → State → State × Except FaultInfo Nat
  | 0, _, yes, no, s => (s, .ok (min yes 65535 + min no 65535 * 2 ^ 16))
  | n + 1, va, yes, no, s =>
    let x : Acc := { kind := .load, n := 1, pol := .normal }
    match globalAcc s a x va with
    | (s, .error e) => (s, .error e)
    | (s, .ok t) =>
      let s := (loadAt s a x t).1
      let r := match t with | .mem k _ => lockLine s a.ref.cl a.ref.ts k va | .pad _ => (s, false)
      clockRun a n (va / 64 * 64 + 64) (if r.2 then yes + 1 else yes) (if r.2 then no else no + 1) r.1

/-- Lines that hold a byte of [lo, lo + n). -/
def lineCount (lo n : Nat) : Nat := if n = 0 then 0 else (lo + n - 1) / 64 - lo / 64 + 1

def execClock (f : RRR) (s : State) : Out := execRange f (fun a lo n s => clockRun a (lineCount lo n) lo 0 0 s) s

/-- Change the lines of a range that satisfy `p`, and count them. -/
def markLines (p : L1Line → Bool) (g : L1Line → L1Line) (a : At) (lo n : Nat) (s : State) : State × Except FaultInfo Nat :=
  let sp := spans s (dieNo a.ref.cl) a.ctx lo n
  let q := fun e => p e && inSpans sp e.key
  (updCluster s a.ref.cl (fun c => { c with l1 := c.l1.map (fun e => if q e then g e else e) }),
   .ok ((clusterOf s a.ref.cl).l1.filter q).length)

def execCunlock (f : RRR) (s : State) : Out :=
  execRange f (fun a => markLines (fun e => e.lock == some a.ref.ts) (fun e => { e with lock := none }) a) s
def execCdemote (f : RRR) (s : State) : Out := execRange f (markLines (·.keep) (fun e => { e with keep := false })) s

/-- Owe the fall of a flag, with the release's scope (R16). -/
def oweFall (s : State) (r : CrewRef) (fl : Option Nat) (scope : Nat) : State :=
  match fl with
  | none => s
  | some x => updCrew s r (fun c => { c with falls := c.falls ++ [(x, scope)] })

/-- Has the flag of a walker that has covered its range fallen, or is there none to fall? -/
def walkFell (s : State) (cl : Nat) (w : Walker) : Bool :=
  match w.flag with
  | none => true
  | some f => match crewOf s { cl := cl, ts := w.ts, cr := w.cr } with
    | none => true
    | some c => !c.falls.contains (f, 5)

/-- Has the walker something to do: to cover its range, once its release's stores are acknowledged (R400), or to end with its flag? -/
def walkDue (s : State) (cl : Nat) (w : Walker) : Bool := if w.done then walkFell s cl w else !unacked s

/-- A walker ends, and its stall is over for crews that wait for one. -/
def endWalker (s : State) (cl n : Nat) : State :=
  mapCrews (updCluster s cl (fun c => { c with walkers := del c.walkers n })) (fun r c => if r.cl = cl then
    { c with batches := c.batches.map (fun b => if b.wait = .walkers then { b with wait := .none } else b) } else c)

/-- CFLUSH_WALK_DONE: the walker has covered its range; its flag falls with release at DEVICE scope, and until then its window writes
stores through (R174). -/
def execCflushWalkDone (cl n : Nat) (s : State) : Out :=
  match look (clusterOf s cl).walkers n with
  | none => .next s
  | some w =>
    if !walkDue s cl w then .next s
    else if w.done then .next (endWalker s cl n)
    else
      let sp := spans s (dieNo cl) w.ctx w.lo (w.hi - w.lo)
      let s := releaseAt (writeBackAll s cl (fun e => inSpans sp e.key)) cl 5
      let s := if w.inv then l1Invalidate s cl (fun e => inSpans sp e.key && e.lock.isNone) else s
      if w.flag.isNone then .next (endWalker s cl n)
      else .next (oweFall (updCluster s cl (fun c => { c with walkers := put c.walkers n { w with done := true } }))
        { cl := cl, ts := w.ts, cr := w.cr } w.flag 5)

end Sys2Proof.Machine
end

