-- ==== Sys2Proof/Machine/Own.lean ====
section
/-! DEFINITION. Ownership transfers (R178-R185, R255, R286, R300): LEND, RETN, SPLIT, MERGE, RECALL and OWNQ, and the
operations on owner tables that the queues, the host and LAUNCH share. -/

namespace Sys2Proof.Machine

/-! Status codes (R178). -/

def st (code detail : Nat) : Nat := code * 2 ^ 24 + detail % 2 ^ 24
def stOk : Nat := 0
def cNotHeld : Nat := 0x01
def cMode : Nat := 0x02
def cRecalled : Nat := 0x03
def cTableFull : Nat := 0x04
def cHolder : Nat := 0x05
def cChain : Nat := 0x06
def cMismatch : Nat := 0x07

/-- What an operation on a token answers: the fault FORMAT, or a status. -/
inductive OwnAns where
  | format
  | status (v : Nat)
  deriving DecidableEq, Repr

/-! Holders (R33, R180). -/

/-- Is device `d` another member of this device's pod, which the pod switch counts, and not lost (R388, R399, log 31)? -/
def peerOk (s : State) (d : Nat) : Bool :=
  match s.boot.devnum with
  | none => false
  | some n => d / 512 == n / 512 && d != n && !s.ua.lost.contains (d % 512) && !s.ua.absent.contains (d % 512)

/-- Does a HOST number have a connection of the context (R390)? -/
def hostOk (s : State) (ctx h : Nat) : Bool := s.conns.any (fun c => c.2.type == 1 && c.2.host == h && c.2.ctx == ctx)

/-- Is the identity a live crew, team or grid of the context? -/
def residentHolder (s : State) (ctx : Nat) (h : W64) : Bool :=
  match holderClass h with
  | 0 => match teamOf s (holderCl h) (holderTs h), crewOf s (holderRef h) with
    | some t, some c => h == crewHolder ctx t.gid (holderRef h) && t.ctx == ctx && c.live != 0#32 && !c.stopped
    | _, _ => false
  | 1 => match teamOf s (holderCl h) (holderTs h) with
    | some t => h == teamHolder ctx t.gid (holderCl h) (holderTs h) && t.ctx == ctx
    | none => false
  | 2 => h == gridHolder ctx (holderGid h) && (gridOf s ctx (holderGid h)).isSome
  | _ => false

/-- A receiver that check 2 of R180 accepts; `queue` names the queue identity of a QPUSH. -/
def receiverOk (s : State) (ctx : Nat) (queue : Option W64) (h : W64) : Bool :=
  match holderClass h with
  | 3 => false
  | 4 => h == peerHolder (h.toNat % 2 ^ 16) && peerOk s (h.toNat % 2 ^ 16)
  | 5 => h == hostHolder (h.toNat % 256) && hostOk s ctx (h.toNat % 256)
  | 6 => queue == some h
  | _ => residentHolder s ctx h

/-- Clusters whose L1 may hold lines for a holder (R184). -/
def holderClusters (s : State) (h : W64) : List Nat :=
  match holderClass h with
  | 0 => [holderCl h]
  | 1 => [holderCl h]
  | 2 => (s.clusters.filter (fun c => c.2.teams.any (fun t => t.2.ctx == holderCtx h && t.2.gid == holderGid h))).map (·.1)
  | _ => []

/-- Clusters that may hold lines written or filled under a holder: for a grid every cluster of its mask, also where its
teams have left. -/
def lineClusters (s : State) (h : W64) : List Nat :=
  if holderClass h = 2 then
    let m := match gridOf s (holderCtx h) (holderGid h) with | some g => g.cmask | none => 0
    (s.clusters.filter (fun c => m.getLsbD c.1)).map (·.1)
  else holderClusters s h

/-- The narrowest scope that spans the holders at the clusters of both (R184). -/
def spanScope (s : State) (h g : W64) : Nat :=
  if holderClass h = 5 || holderClass g = 5 then 7
  else if holderClass h = 4 || holderClass g = 4 then 6
  else
    let cs := (holderClusters s h ++ holderClusters s g).eraseDups
    if decide (cs.length ≤ 1) then (if holderTs h = holderTs g && holderClass h < 2 && holderClass g < 2 then 2 else 3)
    else if cs.all (fun c => dieNo c == dieNo (cs.headD 0)) then 4 else 5

/-- The scope that spans a holder (R182): its crew, its team, or its grid's clusters. -/
def ownScope (s : State) (h : W64) : Nat := match holderClass h with | 0 => 1 | 1 => 2 | _ => spanScope s h h

/-! Transfer actions (R184, R300). -/

/-- The giver's lines of the region reach their homes. -/
def giveLines (s : State) (ctx : Nat) (h : W64) (a n : Nat) : State :=
  (lineClusters s h).foldl (fun s cl => writeBackSpans s cl (spans s (dieNo cl) ctx a n)) s

/-- Remove the copies of peer memory in intervals from the L2 of both dies. -/
def dropPeerCopies (s : State) (sp : List (Nat × Nat)) : State :=
  let f : Die → Die := dropPeer (fun k => sp.any (fun x => decide (x.1 < k + 32) && decide (k < x.2)))
  { s with die0 := f s.die0, die1 := f s.die1 }

/-- The receiver's lines of the region go, and with a receiver on this device the L2 copies of peer memory in it. -/
def takeLines (s : State) (ctx : Nat) (h : W64) (a n : Nat) : State :=
  let s := (lineClusters s h).foldl (fun s cl => invalidateSpans s cl (spans s (dieNo cl) ctx a n)) s
  let sp := (spans s 0 ctx a n).filter (fun x => isPeer x.1)
  if sp.isEmpty || decide (2 < holderClass h) then s else dropPeerCopies s sp

/-- The release by a holder, on its clusters. -/
def releaseFor (s : State) (h : W64) (scope : Nat) : State := (lineClusters s h).foldl (fun s cl => releaseAt s cl scope) s
/-- The acquire by a holder, on its clusters. -/
def acquireFor (s : State) (h : W64) (scope : Nat) : State := (lineClusters s h).foldl (fun s cl => acquireAt s cl scope) s

/-- The region of a mirror that a peer gives back: its bytes may have changed (log 3). -/
def peerGives (s : State) (t : Token) (giver : W64) (a n : Nat) : State :=
  match t.peer with
  | some d => if holderClass giver = 4 then newPeerEpoch s (peerKey (d % 512) t.ctx a) n else s
  | none => s

/-- The giver's side of a change of owner or share, at the scope that spans both holders. -/
def giveSide (s : State) (t : Token) (giver receiver : W64) (a n : Nat) : State :=
  releaseFor (giveLines (peerGives s t giver a n) t.ctx giver a n) giver (spanScope s giver receiver)

/-- The receiver's side. -/
def takeSide (s : State) (ctx : Nat) (giver receiver : W64) (a n : Nat) : State :=
  acquireFor (takeLines s ctx receiver a n) receiver (spanScope s giver receiver)

/-! Tokens. -/

/-- Is an owner-table entry held jointly by an engine operation (R199)? -/
def jointlyHeld (s : State) (d i : Nat) : Bool := s.ops.any (fun o => o.2.holds.contains (d, i))

def isBad (t : Token) : Bool := decide (t.state = .orphan) || decide (t.state = .poison)

/-- A region that R282 allows. -/
def regionOk (a n : Nat) : Bool := a % 64 == 0 && n % 64 == 0 && decide (0 < n) && decide (n ≤ 2 ^ 40)

/-- Shares out, for a status. -/
def sharesOut (s : State) (d i : Nat) (t : Token) : Nat := t.n + bNat (jointlyHeld s d i)

/-- Split a token at `at_`: the upper part takes the lowest free index of the die that homes it (R179). -/
def splitAt (s : State) (d i : Nat) (t : Token) (at_ : Nat) : State × Nat × Nat :=
  let d' := if t.peer.isSome then d else regionDie s t.ctx at_
  match freeOwner s d' with
  | none => (s, d, i)
  | some j =>
    let s := setToken s d i { t with len := at_ - t.base }
    (setToken s d' j { t with base := at_, len := t.base + t.len - at_, recalls := [] }, d', j)

/-- After a change: the recalls whose holder has the token back, with no shares out and no joint hold, end, and their
flags fall (R183, R199). -/
def endRecalls (s : State) (d i : Nat) : State :=
  match tokenAt s d i with
  | none => s
  | some t =>
    if t.n ≠ 0 || jointlyHeld s d i then s
    else
      let mine := t.recalls.filter (fun r => r.holder == t.owner)
      let s := setToken s d i { t with recalls := t.recalls.filter (fun r => r.holder != t.owner),
                                       recaller := if t.recaller = some t.owner then none else t.recaller }
      mine.foldl (fun s r => oweFall s r.crew (some r.flag) r.scope) s

/-- A holder has returned: the falls of the recalls span it too (R183). -/
def noteReturn (s : State) (t : Token) (h : W64) : Token :=
  { t with recalls := t.recalls.map (fun r => { r with scope := max r.scope (spanScope s r.holder h) }) }

/-- Is a recall pending by another holder than the owner (R183)? -/
def foreignRecall (t : Token) : Bool := match t.recaller with | some r => r != t.owner | none => false

/-- Entries that a LEND needs at each die: its splits, and its share. -/
def lendNeeds (s : State) (d : Nat) (t : Token) (a n : Nat) (share : Bool) : List Nat :=
  let home (x : Nat) : Nat := if t.peer.isSome then d else regionDie s t.ctx x
  let pd := if a = t.base then d else home a
  (if a = t.base then [] else [home a]) ++ (if a + n = t.base + t.len then [] else [home (a + n)]) ++ (if share then [pd] else [])

/-- Cut a token at the ends of [a, a + n); the piece's place. -/
def carve (s : State) (d i : Nat) (t : Token) (a n : Nat) : State × Nat × Nat :=
  let r := if a = t.base then (s, d, i) else splitAt s d i t a
  match tokenAt r.1 r.2.1 r.2.2 with
  | none => r
  | some p => if a + n = p.base + p.len then r else ((splitAt r.1 r.2.1 r.2.2 p (a + n)).1, r.2.1, r.2.2)

/-- Does the token's state allow a lend of the kind (R180)? -/
def lendStateOk (t : Token) (kind : Nat) : Bool :=
  match kind with
  | 0 => decide (t.state = .excl) && t.n == 0
  | 1 => decide (t.state = .excl) && t.n == 0 || decide (t.state = .shared)
  | _ => decide (t.state = .excl) && t.n == 0 || decide (t.state = .atomic)

/-- No L1 keeps a line of a region that turns ATOMIC (R297). -/
def dropRegion (s : State) (ctx a n : Nat) : State :=
  (s.clusters.map (·.1)).foldl (fun s cl => invalidateSpans s cl (spans s (dieNo cl) ctx a n)) s

/-- Carry out a lend that passed every check, with the transfer's actions (R180, R184). -/
def lendDo (s : State) (d i : Nat) (t : Token) (a n : Nat) (c : W64) (kind : Nat) : State :=
  let s := giveSide s t t.owner c a n
  let s := if kind = 2 then dropRegion s t.ctx a n else s
  let r := carve s d i t a n
  match tokenAt r.1 r.2.1 r.2.2 with
  | none => r.1
  | some p =>
    let s := if kind = 0 then setToken r.1 r.2.1 r.2.2 { p with owner := c, chain := p.chain ++ [p.owner] }
      else
        let s := setToken r.1 r.2.1 r.2.2 { p with state := if kind = 1 then .shared else .atomic, n := p.n + 1 }
        match freeOwner s r.2.1 with
        | none => s
        | some j => setShare s r.2.1 j { holder := c, atomic := kind == 2, tok := r.2.2 }
    let s := if holderClass c = 4 then request s (c.toNat % 512) (.peerLend (c.toNat % 512) t.ctx a n kind) else s
    endRecalls (takeSide s t.ctx p.owner c a n) r.2.1 r.2.2

/-- A peer that has no live dispatcher of the context refuses to be a holder (R286): a free answer. -/
def peerAnswers (s : State) (c : W64) : State × Bool := if holderClass c = 4 then (bump s, Config.freeBool s.fresh) else (s, true)

/-- LEND by an issuer that acts through `ids` (R180); a reserved kind, which a SEND can name, fails as a reserved class does
(R394, log 52). `queue`: the queue identity that a QPUSH may name. -/
def lend (s : State) (ctx : Nat) (ids : List W64) (a n : Nat) (c : W64) (kind : Nat) (queue : Option W64) : State × OwnAns :=
  if 6 < holderClass c || 2 < kind || !regionOk a n then (s, .format)
  else
    let cover := (coverOf s ctx a).filter (fun x => ids.contains x.2.2.owner && decide (a + n ≤ x.2.2.base + x.2.2.len))
    if !receiverOk s ctx queue c || (match cover with | some (_, _, t) => t.owner == c | none => false) then
      (s, .status (st cHolder 0))
    else
      let p := peerAnswers s c
      let s := p.1
      if !p.2 then (s, .status (st cHolder 0)) else match cover with
      | none => (s, .status (st cNotHeld 0))
      | some (d, i, t) =>
        let whole := decide (a = t.base ∧ n = t.len)
        if isBad t || !lendStateOk t kind || jointlyHeld s d i || (!whole && t.n != 0) || (kind != 0 && t.n == 65535) then
          (s, .status (st cMode (sharesOut s d i t)))
        else if foreignRecall t then (s, .status (st cRecalled 0))
        else if kind = 0 && decide (8 ≤ t.chain.length) then (s, .status (st cChain 0))
        else
          let need := lendNeeds s d t a n (kind != 0)
          if decide (ownersFree s 0 < need.count 0) || decide (ownersFree s 1 < need.count 1) then
            (s, .status (st cTableFull 0))
          else (lendDo s d i t a n c kind, .status stOk)

/-- Return one share to its token (R181): at n = 0 the token has its state without shares again. -/
def dropShare (s : State) (d j : Nat) (h : Share) : State :=
  match tokenAt s d h.tok with
  | none => delOwner s d j
  | some t =>
    let s := giveSide s t h.holder t.owner t.base t.len
    let s := setToken (delOwner s d j) d h.tok
      { noteReturn s t h.holder with n := t.n - 1, state := if t.n ≤ 1 then t.rest else t.state }
    endRecalls (takeSide s t.ctx h.holder t.owner t.base t.len) d h.tok

/-- A share of the region exactly, held by one of `ids`, nearest first. -/
def shareFor (s : State) (ctx : Nat) (ids : List W64) (a n : Nat) : Option (Nat × Nat × Share × Token) :=
  ids.findSome? (fun id => (allShares s).findSome? (fun e =>
    match tokenAt s e.1 e.2.2.tok with
    | some t => if e.2.2.holder == id && t.ctx == ctx && t.base == a && t.len == n then some (e.1, e.2.1, e.2.2, t) else none
    | none => none))

/-- Give an owned token back to the last lender on its chain (R181, R286). -/
def giveBack (s : State) (d i : Nat) (t : Token) : State :=
  match t.chain.getLast? with
  | none => s
  | some l =>
    let s := giveSide s t t.owner l t.base t.len
    if t.peer.isSome && t.chain.length = 1 then
      request (delOwner s d i) ((t.peer.getD 0) % 512) (.peerRetn ((t.peer.getD 0) % 512) t.ctx t.base t.len)
    else
      let s := setToken s d i { noteReturn s t t.owner with owner := l, chain := t.chain.dropLast }
      endRecalls (takeSide s t.ctx t.owner l t.base t.len) d i

/-- RETN (R181). -/
def retn (s : State) (ctx : Nat) (ids : List W64) (a n : Nat) : State × Nat :=
  match shareFor s ctx ids a n with
  | some (d, j, h, t) =>
    if isBad t || jointlyHeld s d j then (s, st cMode (sharesOut s d h.tok t)) else (dropShare s d j h, stOk)
  | none =>
    match (coverOf s ctx a).filter (fun x => ids.contains x.2.2.owner && x.2.2.base == a && x.2.2.len == n) with
    | none => (s, st cNotHeld 0)
    | some (d, i, t) =>
      if isBad t || t.n != 0 || jointlyHeld s d i then (s, st cMode (sharesOut s d i t))
      else if t.chain.isEmpty then (s, st cNotHeld 0)
      else (giveBack s d i t, stOk)

/-! The instructions. Each fibre performs its own operation, in slot order (R179). -/

/-- The issuer's accesses ordered as by FENCE.ar (R182). -/
def fenceAr (s : State) (cl scope : Nat) : State := acquireAt (releaseAt s cl scope) cl scope

def formatFault : FOut := .bad (fault .format)
def ansOut (o : Opd) (x : State × OwnAns) : State × FOut :=
  match x.2 with
  | .format => (x.1, formatFault)
  | .status v => (x.1, outRes o 1 v)

/-- Positions of the ownership words: d 32 bits, a, b, c 64 bits (R159, R160). A transfer is a release, which waits for the
acknowledgement of peer stores (R184, R400, log 3). -/
def ownSpec (f : RRR) (nsrc : Nat) (opt rel : Bool) : WordSpec :=
  { mSpec f (pDstG false) (pSrc true) (if 2 ≤ nsrc then pSrc true else pNone) (if 3 ≤ nsrc then pSrc true else pNone) opt with rel := rel }

def execLend (f : RRR) (s : State) : Out :=
  issueWord (ownSpec f 3 (decide (f.opt.toNat < 3)) true) (fun a act s =>
    let r := eachFibre (fun i s => ansOut f.d (lend s a.ctx a.ids (opdVal s a i f.a 2) (opdVal s a i f.b 2)
      (BitVec.ofNat 64 (opdVal s a i f.c 2)) f.opt.toNat none)) act s
    finishPend r.1 a r.2) s

def execRetn (f : RRR) (s : State) : Out :=
  issueWord (ownSpec f 2 (noOpt f.opt.toNat) true) (fun a act s =>
    let r := eachFibre (fun i s =>
      let x := retn s a.ctx a.ids (opdVal s a i f.a 2) (opdVal s a i f.b 2)
      (x.1, outRes f.d 1 x.2)) act s
    finishPend r.1 a r.2) s

/-- The token that starts at `a` and is owned by one of `ids`. -/
def ownedAt (s : State) (ctx : Nat) (ids : List W64) (a : Nat) : Option (Nat × Nat × Token) :=
  (coverOf s ctx a).filter (fun x => ids.contains x.2.2.owner && x.2.2.base == a)

/-- SPLIT of the issuer's token at a into [a, b) and the rest (R182). -/
def split (s : State) (cl ctx : Nat) (ids : List W64) (a b : Nat) : State × OwnAns :=
  match ownedAt s ctx ids a with
  | none => (s, .status (st cNotHeld 0))
  | some (d, i, t) =>
    if b % 64 ≠ 0 || b ≤ a || t.base + t.len ≤ b then (s, .format)
    else if isBad t || t.n != 0 || jointlyHeld s d i then (s, .status (st cMode (sharesOut s d i t)))
    else if foreignRecall t then (s, .status (st cRecalled 0))
    else if (freeOwner s (if t.peer.isSome then d else regionDie s ctx b)).isNone then (s, .status (st cTableFull 0))
    else ((splitAt (fenceAr s cl (ownScope s t.owner)) d i t b).1, .status stOk)

/-- MERGE of the issuer's tokens at a and at b (R182). A token that is ORPHAN or POISON, or jointly held, is MODE, and one under a
foreign recall RECALLED (R183), before any MISMATCH: the model's choice (log 27). -/
def merge (s : State) (cl ctx : Nat) (ids : List W64) (a b : Nat) : State × Nat :=
  match ownedAt s ctx ids a, ownedAt s ctx ids b with
  | some (d, i, t), some (e, j, u) =>
    if isBad t || isBad u || jointlyHeld s d i || jointlyHeld s e j then
      (s, st cMode (max (sharesOut s d i t) (sharesOut s e j u)))
    else if foreignRecall t || foreignRecall u then (s, st cRecalled 0)
    else if t.base + t.len = b && t.state = .excl && u.state = .excl && t.n = 0 && u.n = 0 && t.chain = u.chain
        && t.recaller.isNone && u.recaller.isNone && t.len + u.len ≤ 2 ^ 40 && t.owner = u.owner && t.peer = u.peer then
      let s := fenceAr s cl (ownScope s t.owner)
      (delOwner (setToken s d i { t with len := t.len + u.len }) e j, stOk)
    else (s, st cMismatch 0)
  | _, _ => (s, st cNotHeld 0)

def execSplit (f : RRR) (s : State) : Out :=
  issueWord (ownSpec f 2 (noOpt f.opt.toNat) true) (fun a act s =>
    let r := eachFibre (fun i s => ansOut f.d (split s a.ref.cl a.ctx a.ids (opdVal s a i f.a 2) (opdVal s a i f.b 2))) act s
    finishPend r.1 a r.2) s

def execMerge (f : RRR) (s : State) : Out :=
  issueWord (ownSpec f 2 (noOpt f.opt.toNat) true) (fun a act s =>
    let r := eachFibre (fun i s =>
      let x := merge s a.ref.cl a.ctx a.ids (opdVal s a i f.a 2) (opdVal s a i f.b 2)
      (x.1, outRes f.d 1 x.2)) act s
    finishPend r.1 a r.2) s

/-- The issuer's holder that stands nearest the owner on the chain. -/
def nearestLender (ids chain : List W64) : Option W64 := chain.reverse.find? (fun h => ids.contains h)

/-- RECALL (R183): the mark goes to the recaller, unless a holder nearer the root has it. -/
def recallToken (s : State) (r : CrewRef) (ctx : Nat) (ids : List W64) (a n : Nat) (fl : Option Nat) : State × Nat :=
  match (coverOf s ctx a).filter (fun x => x.2.2.base == a && x.2.2.len == n) with
  | none => (s, st cNotHeld 0)
  | some (d, i, t) =>
    match nearestLender ids t.chain with
    | none => (s, st cNotHeld 0)
    | some h =>
      if isBad t then (s, st cMode (sharesOut s d i t))
      else
        let place (x : W64) : Nat := (placeOf (· == x) t.chain).getD 8
        let keep := match t.recaller with | some o => decide (place o < place h) | none => false
        let s := setToken s d i { t with recaller := if keep then t.recaller else some h,
                                         recalls := match fl with
                                           | none => t.recalls
                                           | some x => t.recalls ++ [{ holder := h, crew := r, flag := x, scope := ownScope s h }] }
        (endRecalls (raiseFlag s r fl) d i, stOk)

/-- RECALL for the fibres in turn; when the flag's count is 15 the rest wait, with what is done (R16). -/
def recallAll (f : RRR) (a : At) : List Nat → List (Nat × Nat) → State → State × List (Nat × Nat) × Bool
  | [], done, s => (s, done, true)
  | i :: t, done, s =>
    let fl := flagOf (f.opt.toNat % 16)
    match crewOf s a.ref with
    | none => (s, done, true)
    | some c =>
      if flagFull c fl then (s, done, false)
      else
        let x := recallToken s a.ref a.ctx a.ids (opdVal s a i f.a 2) (opdVal s a i f.b 2) fl
        recallAll f a t (done ++ [(i, x.2)]) x.1

def execRecall (f : RRR) (s : State) : Out :=
  issueWord (ownSpec f 2 (flagOk (f.opt.toNat % 16) && decide (f.opt.toNat < 16)) false) (fun a act s =>
    let done := match a.b.wait with | .recalling l _ => l | _ => []
    let r := recallAll f a (act.filter (fun i => !done.any (fun e => e.1 == i))) done s
    if r.2.2 then finishPend r.1 a (r.2.1.map (fun e => (e.1, outRes f.d 1 e.2)))
    else waitAt r.1 a (.recalling r.2.1 false) false) s

/-- The view and level of the nearest entry that covers byte `a` (R185). -/
def ownqView (s : State) (d i : Nat) (t : Token) (ids : List W64) : Nat × Nat :=
  let sh := sharesOf s d i
  let at_ (id : W64) : Option Nat :=
    if t.owner == id then some (match t.state with | .excl => 1 | .shared => 2 | .atomic => 4 | .orphan => 6 | .poison => 7)
    else match sh.find? (fun e => e.2.holder == id) with
      | some e => some (match t.state with | .orphan => 6 | .poison => 7 | _ => if e.2.atomic then 5 else 3)
      | none => none
  match (List.range ids.length).findSome? (fun l => (at_ ((ids[l]?).getD 0#64)).map (fun v => (v, l))) with
  | some x => x
  | none => (match t.state with | .orphan => 6 | .poison => 7 | _ => 0, 3)

/-- OWNQ's value (R185). -/
def ownqVal (s : State) (ctx : Nat) (ids : List W64) (a : Nat) : Nat :=
  match coverOf s ctx a with
  | none => 3 * 2 ^ 3 + noToken * 2 ^ 32
  | some (d, i, t) =>
    let v := ownqView s d i t ids
    v.1 + v.2 * 2 ^ 3 + bNat t.recaller.isSome * 2 ^ 5 + bNat (t.chain.any (fun h => ids.contains h)) * 2 ^ 6
      + min t.n 255 * 2 ^ 8 + t.chain.length * 2 ^ 16 + tokenId d i * 2 ^ 32

def execOwnq (f : RRR) (s : State) : Out :=
  issueWord (mSpec f (pDstG true) (pSrc true) pNone pNone (noOpt f.opt.toNat)) (fun a act s =>
    finishPend s a (act.map (fun i =>
      let va := opdVal s a i f.a 2
      (i, if 2 ^ 57 ≤ va then .bad { fault .protection with addr := va } else outRes f.d 2 (ownqVal s a.ctx a.ids va))))) s

end Sys2Proof.Machine
end

