-- ==== Sys2Proof/Machine/Bank.lean ====
section
/-! DEFINITION. Bank configuration (R186-R188), the re-index of the L1 (R187, R308) and the poison lists (R306). -/

namespace Sys2Proof.Machine

/-- Modes by code (R159). -/
def modeOf (n : Nat) : BankMode := match n % 4 with | 0 => .way | 1 => .pad | 2 => .fifo | _ => .off
def modeCode (m : BankMode) : Nat := match m with | .way => 0 | .pad => 1 | .fifo => 2 | .off => 3

/-! Poison lists (R306). -/

/-- The physical address of a line (R387): of peer memory as its page maps it on the die; where the page is mapped no
more, the member and the offset in the page (log 52). -/
def linePa (s : State) (die k : Nat) : Nat :=
  if !isPeer k then k
  else match translate s none die (peerCtx k) (peerVa k) with
    | .ok e => e.pa + peerVa k % 2 ^ e.bits
    | .error _ => 2 ^ 51 + peerMember k * 2 ^ 40 + peerVa k % 2 ^ 16

/-- The entry of a poisoned line of a cluster. -/
def poisonEntry (s : State) (cl : Nat) (e : L1Line) : W64 :=
  BitVec.ofNat 64 (e.ctx % 2 ^ 12 * 2 ^ 52 + linePa s (dieNo cl) e.key % 2 ^ 52 / 64 * 64 + bNat (e.dirty != 0#64))

/-- Enter one poisoned line; when the list then holds 32 entries, they spill to the die's ring, with one event. -/
def enterPoison (s : State) (cl : Nat) (e : L1Line) : State :=
  let s := poisonLine s e.key
  let l := (clusterOf s cl).poisonList ++ [poisonEntry s cl e]
  if l.length < 32 then updCluster s cl (fun c => { c with poisonList := l })
  else
    let s := updDie s (dieNo cl) (fun d => { d with ring := d.ring ++ l })
    emit (updCluster s cl (fun c => { c with poisonList := [] })) (.poisonSpill (dieNo cl))

/-- Would the spills of a re-index overflow the die's ring of 65,536 entries? -/
def ringFull (s : State) (cl : Nat) : Bool :=
  let c := clusterOf s cl
  decide (65536 < (dieOf s (dieNo cl)).ring.length + (c.poisonList.length + (c.l1.filter (·.poison)).length) / 32 * 32)

/-- Empty the L1 for a re-index: dirty lines are written back, poisoned ones entered, the victim tags cleared (R308). -/
def reindex (s : State) (cl : Nat) : State :=
  let bad := (clusterOf s cl).l1.filter (·.poison)
  let s := writeBackAll s cl (fun _ => true)
  let s := bad.foldl (fun s e => enterPoison s cl e) s
  updCluster s cl (fun c => { c with l1 := [], victims := [] })

/-! BANKCFG. -/

/-- Allowed counts of WAY banks (R186). -/
def wayOk (n : Nat) : Bool := [0, 4, 8, 16, 32, 64, 128, 256].contains n

/-- Does a sender's free-slot counter on the die name the bank (R312)? -/
def fifoNamed (s : State) (cl n : Nat) : Bool :=
  s.clusters.any (fun c => c.2.freeSlots.any (fun x => x.1 == cl && x.2.contains n))

/-- BANKCFG's status, before anything changes (R186). -/
def bankCheck (s : State) (cl ts lo n : Nat) (m : BankMode) : Nat :=
  let c := clusterOf s cl
  let named := (List.range n).map (fun i => lo + i)
  let was (b : Nat) : BankMode := (bankOf c b).mode
  if n = 0 || 384 < lo + n then st 0x14 0
  else match named.find? (fun b => (was b == .pad || was b == .fifo) && (bankOf c b).owner != ts) with
    | some b => st 0x12 b
    | none =>
      let ways := wayCount c
      let after := ways - (named.filter (fun b => was b == .way)).length + (if m = .way then n else 0)
      if !wayOk after then st 0x11 0
      else
        let inFlight := match teamOf s cl ts with | some t => !t.ranges.isEmpty | none => false
        if named.any (fun b => was b == .pad && m != .pad && inFlight)
            || named.any (fun b => was b == .fifo && m != .fifo && (!(bankOf c b).slots.isEmpty || fifoNamed s cl b)) then st 0x13 0
        else
          let locked := (c.l1.filter (fun e => e.lock.isSome)).length
          if after ≠ ways && locked ≠ 0 then st 0x10 locked else stOk

/-- The banks of [lo, lo + n) that change their mode. -/
def bankChanged (c : Cluster) (lo n : Nat) (m : BankMode) : List Nat :=
  ((List.range n).map (fun i => lo + i)).filter (fun b => (bankOf c b).mode != m)

/-- Does the change touch a WAY bank, so that the L1 is re-indexed (R187)? -/
def bankTouchesWay (c : Cluster) (lo n : Nat) (m : BankMode) : Bool :=
  let changed := bankChanged c lo n m
  m == .way && !changed.isEmpty || changed.any (fun b => (bankOf c b).mode == .way)

/-- Make the change (R187). -/
def bankApply (s : State) (cl ts lo n : Nat) (m : BankMode) : State :=
  let c := clusterOf s cl
  let changed := bankChanged c lo n m
  let set (c : Cluster) (b : Nat) : Cluster :=
    setBank c b { mode := m, owner := if m = .pad || m = .fifo then ts else 0, bound := none, slots := [] }
  let s := if bankTouchesWay c lo n m then reindex s cl else s
  let s := updCluster s cl (fun c => changed.foldl set c)
  match teamOf s cl ts with
  | none => s
  | some t =>
    let list := t.banks.filter (fun b => !(changed.contains b)) ++ (if m = .pad then changed else [])
    if list = t.banks then s
    else
      let s := updTeam s cl ts (fun t => { t with banks := list })
      updCluster s cl (fun c => list.foldl zeroBank c)

/-- Would the change, if it is made, re-index the L1? -/
def bankReindexes (s : State) (r : CrewRef) (lo n : Nat) (m : BankMode) : Bool :=
  bankCheck s r.cl r.ts lo n m == stOk && bankTouchesWay (clusterOf s r.cl) lo n m

/-- One fibre's change with its status, and those of a word in slot order. -/
def bankOne (r : CrewRef) (m : BankMode) (d : Opd) (lo n : Nat) (s : State) : State × FOut :=
  let v := bankCheck s r.cl r.ts lo n m
  (if v = stOk then bankApply s r.cl r.ts lo n m else s, outRes d 1 v)
def bankAll (r : CrewRef) (m : BankMode) (d : Opd) : List (Nat × Nat × Nat) → State → State × List (Nat × FOut)
  | [], s => (s, [])
  | (i, lo, n) :: t, s =>
    let x := bankOne r m d lo n s
    let y := bankAll r m d t x.1
    (y.1, (i, x.2) :: y.2)

/-- The changes of a BANKCFG, or its wait for room in the ring for a re-index that it makes (R306, R308). -/
def bankRun (s : State) (a : At) (m : BankMode) (d : Opd) (l : List (Nat × Nat × Nat)) : State :=
  if ringFull s a.ref.cl && l.any (fun e => bankReindexes s a.ref e.2.1 e.2.2 m) then waitAt s a (.ring m d l) false
  else
    let r := bankAll a.ref m d l s
    finishPend r.1 a r.2

/-- BANKCFG (R186, R187), in the cluster's single order of such operations (R308). -/
def execBankcfg (f : RRR) (s : State) : Out :=
  issueWord (mSpec f (pDstG false) (pSrc false) (pSrc false) pNone (decide (f.opt.toNat < 4))) (fun a act s =>
    if turnHeld s a then takeTurn s a
    else bankRun s a (modeOf f.opt.toNat) f.d (act.map (fun i => (i, opdVal s a i f.a 1, opdVal s a i f.b 1)))) s

/-- BANKQ's value for a bank (R188). -/
def bankqVal (c : Cluster) (ts b : Nat) : Nat :=
  let x := bankOf c b
  let owned := x.mode == .pad || x.mode == .fifo
  modeCode x.mode + (if owned then x.owner * 2 ^ 8 + bNat (x.owner == ts) * 2 ^ 13 else 0)

/-- BANKQ.count's value (R188). -/
def bankqCount (c : Cluster) (t : Team) : Nat :=
  wayCount c + (banksIn c .off).length * 2 ^ 9 + t.banks.length * 2 ^ 18

def execBankq (f : RRR) (s : State) : Out :=
  issueWord (mSpec f (pDstG false) (pSrc false) pNone pNone (decide (f.opt.toNat < 2))) (fun a act s =>
    let c := clusterOf s a.ref.cl
    finishPend s a (act.map (fun i =>
      let b := opdVal s a i f.a 1 % 512
      (i, if f.opt.toNat = 1 then outRes f.d 1 (bankqCount c a.team)
        else if 383 < b then .bad (fault .illegal) else outRes f.d 1 (bankqVal c a.ref.ts b))))) s

/-- The places of the BANKCFGs of a die that wait for room in its ring. -/
def ringWaiters (s : State) (die : Nat) : List (CrewRef × Nat) :=
  (s.clusters.filter (fun c => dieNo c.1 == die)).flatMap (fun c => c.2.teams.flatMap (fun t => if t.2.killed then [] else
    ((List.range t.2.crews.length).zip t.2.crews).flatMap (fun w => if w.2.stopped then [] else
      (((List.range w.2.batches.length).zip w.2.batches).filter (fun b => waitsRing b.2)).map (fun b =>
        ({ cl := c.1, ts := t.1, cr := w.1 }, b.1)))))

/-- A BANKCFG that waits goes on where the ring has room, also while its crew is in its handler (R308); in a REP sequence that the
trap holds, its word is issued again after ERET. -/
def goOnRing (s : State) (w : CrewRef × Nat) : State :=
  match atOf s w.1 w.2 with
  | none => s
  | some a => match a.b.wait with
    | .ring m d l =>
      if ringFull s a.ref.cl then s
      else besideCur s a.ref a.b (fun s => if a.b.rep && !mayAct a.crew a.b then waitAt s a .none false else bankRun s a m d l)
    | _ => s

/-- L2_POISON_LIST_HANDOFF: Occon takes the first `n` entries of a die's ring (R306); a re-index that waited goes on. -/
def execL2PoisonListHandoff (die n : Nat) (s : State) : Out :=
  let l := (dieOf s die).ring
  let s := updDie s die (fun d => { d with ring := d.ring.drop n })
  .next (emit ((ringWaiters s die).foldl goOnRing s) (.poisonHandoff (l.take n)))

end Sys2Proof.Machine
end

