-- ==== Sys2Proof/Machine/Queue.lean ====
section
/-! DEFINITION. Queues in memory (R189-R193, R277): QINIT, QPUSH, QPOP, QPOLL, QWAIT and their events. -/

namespace Sys2Proof.Machine

/-! Memory of a queue, at its home (R189). -/

/-- The location of a mapped virtual address. -/
def vaLoc (s : State) (die ctx va : Nat) : Option Nat :=
  match translate s none die ctx va with
  | .ok e => some (locOf e va)
  | .error _ => none

def vaBytes (s : State) (die ctx va n : Nat) : List Byte :=
  match vaLoc s die ctx va with
  | none => List.replicate n 0#8
  | some k => homeBytes s k n
def vaNat (s : State) (die ctx va n : Nat) : Nat := leNat (vaBytes s die ctx va n)

/-- The read of `n` bytes that a queue access makes at their home (R314, R399). -/
def vaSeen (s : State) (die ctx va n : Nat) : State :=
  match vaLoc s die ctx va with
  | none => s
  | some k => (homeFetch s die k n ctx false true).1

/-- Write a value as an atomic at its home does (R170). -/
def vaPut (s : State) (die ctx va n v : Nat) : State :=
  match vaLoc s die ctx va with
  | none => s
  | some k => homeWrite s die k ctx (leBytes n v) false

/-- The header of a queue. -/
structure QHead where
  head : Nat
  tail : Nat
  logcap : Nat
  work : Bool
  qnum : Nat
  waiters : Nat
  bad : Bool
  deriving DecidableEq, Repr

/-- Read a header; `bad`: the FORMAT conditions of R189. -/
def qHead (s : State) (die ctx a : Nat) : QHead :=
  let l := vaBytes s die ctx a 32
  let w := leAt l 8 4
  let cap := slice w 0 5
  let n := (leAt l 4 4 + 2 ^ 32 - leAt l 0 4) % 2 ^ 32
  { head := leAt l 0 4, tail := leAt l 4 4, logcap := cap, work := tb w 5, qnum := slice w 8 24, waiters := leAt l 16 2,
    bad := slice w 6 2 != 0 || leAt l 12 4 != 0 || leAt l 18 6 != 0 || leAt l 24 8 != 0 || cap == 0 || decide (20 < cap)
      || slice w 8 24 == 0 || decide (2 ^ cap < n) }

def slotVa (a cap i : Nat) : Nat := a + 32 + 16 * (i % 2 ^ cap)

/-! Checks (R189). The access kind is atomic; QINIT needs entries that permit stores (R190). -/

/-- The first failing page of [a, a + n), walked granule by granule. -/
def pagesFault (s : State) (cl : Option Nat) (die ctx : Nat) (x : Acc) (a : Nat) : Nat → Nat → State × Option FaultInfo
  | 0, _ => (s, none)
  | n + 1, va =>
    match xlate s cl die ctx va with
    | (s, .error .absent) => (s, some (accFault .notPresent x a va noToken))
    | (s, .error (.bad _)) => (s, some (accFault .protection x a va noToken))
    | (s, .error .late) => (s, some (accFault .timeout x a va noToken))
    | (s, .ok e) =>
      if isWindow e || (decide (x.kind ≠ .store) && !e.rd) || !e.wr then (s, some (accFault .protection x a va noToken))
      else pagesFault s cl die ctx x a n ((va / 65536 + 1) * 65536)

def granules (a n : Nat) : Nat := if n = 0 then 0 else (a + n - 1) / 65536 - a / 65536 + 1

/-- What stops the access to the line of byte `va` of the queue at `a`, by a cluster or from outside: poison, with the covering
token's id (R280), an isolated port (R386), or a peer that refuses or is lost (R399, R401); `rd`: the line is read, so that an access of
a cluster waits where its holder does not answer. -/
def lineFault (s : State) (cl : Option Nat) (die ctx : Nat) (x : Acc) (rd : Bool) (a va : Nat) : Option FaultInfo :=
  match vaLoc s die ctx va with
  | none => none
  | some k =>
    let id := match coverOf s ctx va with | some (d, i, _) => tokenId d i | none => noToken
    let bad := match cl with | some c => homePoison s c k | none => poisoned s k
    if rd && bad then some (accFault .poison x a a id)
    else if behindIsolated s k then some (accFault .timeout x a a noToken)
    else match peerFault s k with
      | some f => some (accFault f x a a id)
      | none => if rd && cl.isSome && quiet s k && (isPeer k || !homeHolds s k 1) then
          some { accFault .notPresent x a a noToken with quiet := some k } else none

/-- The checks of a range that a queue instruction needs: its pages, its tokens for accesses of kind `k`, the lines that hold the first
`touch` bytes, of which those with the first `seen` bytes are read. -/
def rangeCheck (s : State) (cl : Nat) (ctx : Nat) (ids : List W64) (x : Acc) (k : AccKind) (a n touch seen : Nat) : State × Option FaultInfo :=
  match pagesFault s (some cl) (dieNo cl) ctx x a (granules a n) a with
  | (s, some f) => (s, some f)
  | (s, none) =>
    match tokensCover s ctx ids k a n with
    | some (k, t) => (s, some (accFault k x a a t))
    | none => (s, (List.range (lineCount a touch)).findSome? (fun i =>
        lineFault s (some cl) (dieNo cl) ctx x (decide (i < lineCount a seen)) a (a + 64 * i)))

def qAcc : Acc := { kind := .atomic, n := 16, pol := .normal }

/-- The issuing cluster's line of byte `va` goes, as before an atomic (R170). -/
def clearAt (s : State) (cl ctx va : Nat) : State := match vaLoc s (dieNo cl) ctx va with | some k => amoClear s cl k | none => s

/-- A queue access reads `n` bytes in one line: the issuing cluster's line goes, and the home answers (R170, R189). -/
def qTouch (s : State) (cl ctx va n : Nat) : State := vaSeen (clearAt s cl ctx va) (dieNo cl) ctx va n

/-- Check the header, read it, and check header and slots: a live header, or the fault. No line changes (R280). -/
def qOpen (s : State) (cl ctx : Nat) (ids : List W64) (a : Nat) : State × Except FaultInfo QHead :=
  if 2 ^ 57 ≤ a then (s, .error (accFault .protection qAcc a a noToken))
  else if a % 64 ≠ 0 then (s, .error (accFault .misaligned qAcc a a noToken))
  else match rangeCheck s cl ctx ids qAcc .atomic a 32 32 32 with
    | (s, some f) => (s, .error f)
    | (s, none) =>
      let h := qHead (clearAt s cl ctx a) (dieNo cl) ctx a
      if h.bad then (s, .error (accFault .format qAcc a 0 noToken))
      else match rangeCheck s cl ctx ids qAcc .atomic a (32 + 16 * 2 ^ h.logcap) 0 0 with
        | (s, some f) => (s, .error f)
        | (s, none) => (s, .ok h)

/-- The check of the slot that item `i` has or takes: its line as the header's, and its reserved word (R189, log 52). -/
def slotFault (s : State) (cl ctx a : Nat) (h : QHead) (i : Nat) : Option FaultInfo :=
  let va := slotVa a h.logcap i
  match lineFault s (some cl) (dieNo cl) ctx qAcc true a va with
  | some f => some f
  | none => if vaNat (clearAt s cl ctx va) (dieNo cl) ctx (va + 12) 4 ≠ 0 then some (accFault .format qAcc a 0 noToken) else none

/-! QINIT (R190). -/

/-- Does the queue hold waiters or an item with a token? -/
def qBusy (s : State) (die ctx a : Nat) (h : QHead) : Bool :=
  h.waiters != 0 || (s.die0.waiters ++ s.die1.waiters).any (fun w => w.ctx == ctx && w.queue == h.qnum)
  || (decide (0 < h.logcap) && decide (h.logcap ≤ 20)
      && (List.range (min ((h.tail + 2 ^ 32 - h.head) % 2 ^ 32) (2 ^ h.logcap))).any (fun i =>
           vaNat s die ctx (slotVa a h.logcap (h.head + i) + 8) 4 != noToken))

def qLive (s : State) (ctx q : Nat) : Bool := match ctxOf s ctx with | some c => (look c.queues q).isSome | none => false

/-- Write the slots of a new queue. -/
def qFill (s : State) (die ctx a : Nat) : Nat → State
  | 0 => s
  | n + 1 =>
    let s := qFill s die ctx a n
    let va := a + 32 + 16 * n
    vaPut (vaPut s die ctx va 8 0) die ctx (va + 8) 8 noToken

/-- Bytes of a queue's header and slots. -/
def queueBytes (cap : Nat) : Nat := 32 + 16 * 2 ^ cap

/-- The lines of the header and of the slots that QINIT writes leave the cluster, and lose their poison where it covers them
(R166, R170). -/
def qClear (s : State) (cl ctx a n : Nat) : State :=
  let s := (List.range (lineCount a n)).foldl (fun s i => clearAt s cl ctx (a + 64 * i)) s
  (List.range (n / 64)).foldl (fun s i => match vaLoc s (dieNo cl) ctx (a + 64 * i) with | some k => unpoison s k 64 | none => s) s

/-- Bytes that QINIT needs entries for: the header and slots, for QINIT.free those that the header tells of (R190). -/
def qinitBytes (s : State) (cl ctx a cap : Nat) (free : Bool) : Nat :=
  let c := if free then slice (vaNat (clearAt s cl ctx a) (dieNo cl) ctx (a + 8) 4) 0 5 else cap
  if c = 0 || 20 < c then 32 else queueBytes c

/-- QINIT for one fibre. -/
def qinit (s : State) (cl ctx : Nat) (ids : List W64) (a b : Nat) (free : Bool) : State × Except FaultInfo Nat :=
  let die := dieNo cl
  let cap := slice b 0 5
  if 2 ^ 57 ≤ a then (s, .error (accFault .protection qAcc a a noToken))
  else if a % 64 ≠ 0 then (s, .error (accFault .misaligned qAcc a a noToken))
  else if !free && (b / 64 != 0 || cap == 0 || decide (20 < cap)) then (s, .error (accFault .format qAcc a 0 noToken))
  else match rangeCheck s cl ctx ids qAcc .store a 32 32 32 with
    | (s, some f) => (s, .error f)
    | (s, none) =>
    let n := qinitBytes s cl ctx a cap free
    match rangeCheck s cl ctx ids qAcc .store a n (if free then 32 else n) 32 with
    | (s, some f) => (s, .error f)
    | (s, none) =>
      let s := qTouch s cl ctx a 32
      let h := qHead s die ctx a
      let live := qLive s ctx h.qnum
      if live && qBusy s die ctx a h then (s, .ok (st 0x13 0))
      else
        let s1 := if live then updCtx s ctx (fun c => { c with queues := del c.queues h.qnum }) else s
        if free then (vaPut s1 die ctx (a + 9) 3 0, .ok stOk)
        else match (ctxOf s1 ctx).bind (fun c => freeKey c.queues 1 65536) with
          | none => (s, .ok (st 0x23 0))
          | some q =>
            let s := qClear (updCtx s1 ctx (fun c => { c with queues := put c.queues q a })) cl ctx a n
            let s := vaPut s die ctx a 8 0
            let s := vaPut s die ctx (a + 8) 8 (b % 64 + q * 256)
            let s := vaPut (vaPut s die ctx (a + 16) 8 0) die ctx (a + 24) 8 0
            (qFill s die ctx a (2 ^ cap), .ok (st 0 q))

/-- Positions of a queue word's d, a, b. -/
def qSpec (f : RRR) (d a b c : Pos) (opt : Bool) : WordSpec := mSpec f d a b c opt

def execQinit (f : RRR) (s : State) : Out :=
  let free := f.opt.toNat == 1
  issueWord (qSpec f (pDstG false) (pSrc true) (if free then pNone else pSrc false) pNone (decide (f.opt.toNat < 2)))
    (fun a act s =>
      let r := eachFibre (fun i s =>
        match qinit s a.ref.cl a.ctx a.ids (opdVal s a i f.a 2) (opdVal s a i f.b 1) free with
        | (s, .ok v) => (s, outRes f.d 1 v)
        | (s, .error e) => (s, .bad e)) act s
      finishPend r.1 a r.2) s

/-! Tokens of items (R191, R192). -/

/-- Pass a carried token from the queue to a holder; the lender chain stays, so a RETN goes to the pusher. -/
def passToken (s : State) (ctx q tok : Nat) (id : W64) : State :=
  if tok = noToken then s
  else
    let d := tok / 2 ^ 31
    let i := tok % 2 ^ 17
    match tokenAt s d i with
    | none => s
    | some t =>
      if t.owner != queueHolder ctx q || t.ctx != ctx then s
      else takeLines (setToken s d i { t with owner := id }) ctx id t.base t.len

/-- The registers of a removed item. -/
def itemRegs (item tok : Nat) : List W32 :=
  [BitVec.ofNat 32 item, BitVec.ofNat 32 (item / 2 ^ 32), 0#32, BitVec.ofNat 32 tok]
/-- The registers without an item, with a status. -/
def noItem (code : Nat) : List W32 := [0#32, 0#32, BitVec.ofNat 32 (st code 0), BitVec.ofNat 32 noToken]

/-! Hand-off (R191, R192). -/

/-- The oldest waiter on a queue, and its die. -/
def oldestWaiter (s : State) (ctx q : Nat) : Option (Nat × Waiter) :=
  match s.die0.waiters.find? (fun w => w.ctx == ctx && w.queue == q) with
  | some w => some (0, w)
  | none => (s.die1.waiters.find? (fun w => w.ctx == ctx && w.queue == q)).map (fun w => (1, w))

def dropWaiter (s : State) (d : Nat) (w : Waiter) : State :=
  updDie s d (fun x => { x with waiters := x.waiters.filter (fun y => y != w) })

/-- Write what a waiting fibre has. -/
def giveDone (w : Waiter) (v : QDone) (b : Batch) : Batch :=
  match b.wait with
  | .queue k d fs => { b with wait := .queue k d (fs.map (fun x =>
      if x.slot = w.slot && x.listed then { x with listed := false, done := some v } else x)) }
  | _ => b

/-- Hand an item to the oldest waiter; WAITERS falls (R192). -/
def handOff (s : State) (die ctx a : Nat) (h : QHead) (d : Nat) (w : Waiter) (item tok : Nat) : State :=
  let s := dropWaiter s d w
  let s := vaPut s die ctx (a + 16) 2 (h.waiters - 1)
  let s := match teamOf s w.crew.cl w.crew.ts with
    | some t => acquireAt (passToken s ctx h.qnum tok (crewHolder ctx t.gid w.crew)) w.crew.cl 5
    | none => s
  updCrew s w.crew (fun c => { c with batches := c.batches.map (giveDone w (.item (itemRegs item tok))) })

/-- Is the queue full for a push, which comes before the removals of its cycle (R191, R193)? -/
def qFull (s : State) (ctx : Nat) (h : QHead) : Bool :=
  decide (2 ^ h.logcap ≤ (h.tail + 2 ^ 32 - h.head) % 2 ^ 32 + (s.popped.filter (· == (ctx, h.qnum))).length)

/-- The waiter to whom a push hands its item. -/
def qReceiver (s : State) (ctx : Nat) (h : QHead) : Option (Nat × Waiter) := if h.work then oldestWaiter s ctx h.qnum else none

/-- Insert an item, or hand it over (R191): the status. -/
def qInsert (s : State) (die ctx a : Nat) (h : QHead) (item tok : Nat) : State × Nat :=
  match qReceiver s ctx h with
  | some (d, w) => (handOff s die ctx a h d w item tok, stOk)
  | none =>
    if qFull s ctx h then (s, st 0x20 0)
    else
      let va := slotVa a h.logcap h.tail
      let s := vaPut (vaPut s die ctx va 8 item) die ctx (va + 8) 4 tok
      (vaPut s die ctx (a + 4) 4 ((h.tail + 1) % 2 ^ 32), stOk)

/-- A push with the token lend of `.tok`, by an issuer's holders (R191, R393): a fault, or the status. A lend is undone
when the queue is full. -/
def qPushCore (s : State) (die ctx : Nat) (ids : List W64) (a : Nat) (h : QHead) (item : Nat) (tok : Option (Nat × Nat)) :
    State × OwnAns :=
  match tok with
  | none => let r := qInsert s die ctx a h item noToken; (r.1, .status r.2)
  | some (base, n) =>
    let q := queueHolder ctx h.qnum
    match lend s ctx ids base n q 0 (some q) with
    | (s1, .status 0) =>
      let id := match coverOf s1 ctx base with | some (d, i, _) => tokenId d i | none => noToken
      let r := qInsert s1 die ctx a h item id
      if r.2 = stOk then (r.1, .status stOk) else (s, .status r.2)
    | (_, ans) => (s, ans)

/-- Is the queue bound as some connection's OUTQ (R395)? -/
def isOutq (s : State) (ctx a : Nat) : Bool := s.conns.any (fun c => c.2.type == 1 && c.2.ctx == ctx && c.2.outq.toNat == a)

/-- QPUSH for one fibre: the insert is a release at DEVICE scope, into an OUTQ at SYSTEM scope, completed before. A fault changes no
line (R280). -/
def qpushFibre (f : RRR) (a : At) (i : Nat) (s : State) : State × FOut :=
  let cl := a.ref.cl
  let q := opdVal s a i f.a 2
  match qOpen s cl a.ctx a.ids q with
  | (s, .error e) => (s, .bad e)
  | (s, .ok h) =>
    let inserts := !((qReceiver s a.ctx h).isSome || qFull s a.ctx h)
    match (if inserts then slotFault s cl a.ctx q h h.tail else none) with
    | some e => (s, .bad e)
    | none =>
      let t := qTouch s cl a.ctx q 32
      let t := if inserts then qTouch t cl a.ctx (slotVa q h.logcap h.tail) 16 else t
      let t := releaseAt t cl (if isOutq s a.ctx q then 7 else 5)
      let tok := if f.opt.toNat = 1 then
          let v := quadVal s a i f.c
          some (v % 2 ^ 64, v / 2 ^ 64)
        else none
      match qPushCore t (dieNo cl) a.ctx a.ids q h (opdVal s a i f.b 2) tok with
      | (_, .format) => (s, formatFault)
      | (t, .status v) => (t, outRes f.d 1 v)

/-- QPUSH is a release, which waits for the acknowledgement of peer stores (R191, R400). -/
def execQpush (f : RRR) (s : State) : Out :=
  issueWord { qSpec f (pDstG false) (pSrc true) (pSrc true) (if f.opt.toNat = 1 then pQuad else pNone) (decide (f.opt.toNat < 2)) with rel := true }
    (fun a act s =>
      let r := eachFibre (qpushFibre f a) act s
      finishPend r.1 a r.2) s

/-! Removal (R192). -/

/-- Remove the head item of a queue for a holder: the item and its token. -/
def qRemove (s : State) (die ctx a : Nat) (h : QHead) (id : W64) : State × Option (Nat × Nat) :=
  if h.head = h.tail then (s, none)
  else
    let va := slotVa a h.logcap h.head
    let item := vaNat s die ctx va 8
    let tok := vaNat s die ctx (va + 8) 4
    let s := vaPut s die ctx a 4 ((h.head + 1) % 2 ^ 32)
    (passToken s ctx h.qnum tok id, some (item, tok))

/-- One try of a fibre at a queue whose header `h` is good: its answer, or the header when there is no item. -/
def qTake (a : At) (q : Nat) (h : QHead) (s : State) : State × Except QHead QDone :=
  let cl := a.ref.cl
  match (if h.head = h.tail then none else slotFault s cl a.ctx q h h.head) with
  | some e => (s, .ok (.bad e))
  | none =>
    let s := qTouch s cl a.ctx q 32
    if h.head = h.tail then (s, .error h)
    else match qRemove (qTouch s cl a.ctx (slotVa q h.logcap h.head) 16) (dieNo cl) a.ctx q h (crewHolder a.ctx a.team.gid a.ref) with
      | (s, some x) => (acquireAt { s with popped := (a.ctx, h.qnum) :: s.popped } cl 5, .ok (.item (itemRegs x.1 x.2)))
      | (s, none) => (s, .error h)

/-- One try of a fibre. -/
def qTry (a : At) (q : Nat) (s : State) : State × Except QHead QDone :=
  match qOpen s a.ref.cl a.ctx a.ids q with
  | (s, .error e) => (s, .ok (.bad e))
  | (s, .ok h) => qTake a q h s

/-- The writes of a Q destination. -/
def quadRes (d : Opd) (l : List W32) : FRes :=
  let v := (l.zip (List.range 4)).foldl (fun n x => n + x.1.toNat * 2 ^ (32 * x.2)) 0
  res d 4 v 0
def doneOut (d : Opd) (x : QDone) : FOut := match x with | .item l => .ok (quadRes d l) | .bad e => .bad e

/-- Cycles of the wait after failure `k` (R192). -/
def pollWait (k : Nat) : Nat := 64 * 2 ^ min (k - 1) 10

/-- Every fibre of the wait that polls tries once more (R192). A try without an item has failed at the end of the cycle, `late`: a
push of the same cycle comes first (R193). -/
def pollRound (a : At) (late : Bool) : List QFibre → State → State × List QFibre
  | [], s => (s, [])
  | x :: t, s =>
    if x.done.isSome || x.listed then let r := pollRound a late t s; (r.1, x :: r.2)
    else
      let y := qTry a x.addr s
      let x' := match y.2 with
        | .ok v => { x with done := some v }
        | .error _ => if !late then x else
            { x with tries := x.tries + 1, done := if x.tries + 1 = x.limit then some (.item (noItem 0x21)) else none }
      let r := pollRound a late t y.1
      (r.1, x' :: r.2)

/-- The end of a queue wait, or its next round: results when every fibre has one (R192), else the wait, with the
priority lowered by the failures; before the end of the cycle, for the tries at its end. -/
def queueNext (s : State) (a : At) (d : Opd) (late : Bool) (fs : List QFibre) : State :=
  if fs.all (·.done.isSome) then
    let s := updCrew s a.ref (fun c => { c with backoff := 0 })
    finishPend s a (fs.filterMap (fun x => x.done.map (fun v => (x.slot, doneOut d v))))
  else if !late then waitAt s a (.queue s.cycle d fs) false
  else
    let k := (fs.map (fun x => if x.done.isNone && !x.listed then x.tries else 0)).foldl max 0
    let s := updCrew s a.ref (fun c => { c with backoff := min k 8 })
    waitAt s a (.queue (s.cycle + pollWait k) d fs) true

/-- The fibres of a QPOP or QPOLL begin their tries, at most `limit i` of them, or any number for 0. -/
def pollStart (f : RRR) (limit : Nat → Nat) (a : At) (act : List Nat) (s : State) : State :=
  let fs := act.map (fun i => ({ slot := i, addr := opdVal s a i f.a 2, queue := 0, tries := 0, limit := limit i,
                                 listed := false, done := none } : QFibre))
  let r := pollRound a false fs s
  queueNext r.1 a f.d false r.2

/-- QPOP tries once. -/
def execQpop (f : RRR) (s : State) : Out :=
  issueWord (qSpec f pQuad (pSrc true) pNone pNone (noOpt f.opt.toNat)) (pollStart f (fun _ => 1)) s

def execQpoll (f : RRR) (s : State) : Out :=
  issueWord (qSpec f pQuad (pSrc true) (pSrc false) pNone (noOpt f.opt.toNat)) (fun a act s =>
    pollStart f (fun i => opdVal s a i f.b 1) a act s) s

/-- A die's places for waiting fibres. -/
def maxWaiters : Nat := 1024

/-- QWAIT for one fibre: an item, CLASS, a place on the waiter list of the queue's home, or polling when it is full. -/
def qwaitFibre (a : At) (q i : Nat) (s : State) : State × QFibre :=
  let x : QFibre := { slot := i, addr := q, queue := 0, tries := 0, limit := 0, listed := false, done := none }
  match qOpen s a.ref.cl a.ctx a.ids q with
  | (s, .error e) => (s, { x with done := some (.bad e) })
  | (s, .ok h) =>
    if !h.work then (qTouch s a.ref.cl a.ctx q 32, { x with done := some (.item (noItem 0x22)) })
    else match qTake a q h s with
      | (s, .ok v) => (s, { x with done := some v })
      | (s, .error h) =>
        let die := match vaLoc s (dieNo a.ref.cl) a.ctx q with | some k => homeDie k (dieNo a.ref.cl) | none => 0
        if maxWaiters ≤ (dieOf s die).waiters.length then (s, { x with tries := 1 })
        else
          let w : Waiter := { ctx := a.ctx, queue := h.qnum, crew := a.ref, slot := i }
          let s := updDie s die (fun d => { d with waiters := d.waiters ++ [w] })
          (vaPut s (dieNo a.ref.cl) a.ctx (q + 16) 2 (h.waiters + 1), { x with queue := h.qnum, listed := true })

def qwaitAll (f : RRR) (a : At) : List Nat → State → State × List QFibre
  | [], s => (s, [])
  | i :: t, s =>
    let x := qwaitFibre a (opdVal s a i f.a 2) i s
    let r := qwaitAll f a t x.1
    (r.1, x.2 :: r.2)

def execQwait (f : RRR) (s : State) : Out :=
  issueWord (qSpec f pQuad (pSrc true) pNone pNone (noOpt f.opt.toNat)) (fun a act s =>
    let r := qwaitAll f a act s
    queueNext r.1 a f.d true r.2) s

/-- The queue waits of a batch. -/
def queueWait (b : Batch) : Option (Nat × Opd × List QFibre) := match b.wait with | .queue k d fs => some (k, d, fs) | _ => none

/-- QPOLL_RETRY: the batch that `issue` names tries at the end of a cycle, when its wait is over (R192, R193). -/
def execQpollRetry (s : State) : Out :=
  match issuer s with
  | none => .next s
  | some a =>
    match queueWait a.b with
    | none => .next s
    | some (wake, d, fs) =>
      if s.cycle < wake || fs.all (fun x => x.done.isSome || x.listed) then .next s
      else
        let r := pollRound a true fs s
        .next (if a.crew.cur.any (fun m => a.b.mask.getLsbD m) then queueNext r.1 a d true r.2
          else keepCur r.1 a.ref (fun s => queueNext (wakeBatch s a) a d true r.2))

end Sys2Proof.Machine
end

