-- ==== Sys2Proof/Machine/System.lean ====
section
/-! DEFINITION. System instructions (R34, R35, R238-R251): TRAP, ERET, RDSYS, WRSYS, TLBINV, TOKADM, CKPT, HALT. -/

namespace Sys2Proof.Machine

/-! Deferred results of one destination. -/

/-- Reserve a destination: its bit is pending until `deliver` (R311). None for `void`. -/
def pendDst (i : Nat) (o : Opd) : Option PDst :=
  match o.cls with | .g => some (.g i o.num) | .k => some (.k o.num) | _ => none
def reserve (s : State) (r : CrewRef) (d : Option PDst) : State :=
  match d with
  | none => s
  | some x => updCrew s r (fun c => { c with pend := c.pend ++ [{ dst := x, val := none, ready := false }] })

def markReady (l : List Pend) (d : PDst) (v : W32) : List Pend :=
  match l with
  | [] => []
  | p :: t => if p.dst = d && !p.ready then { p with val := some v, ready := true } :: t else p :: markReady t d v
/-- The producer's result for a reserved destination. -/
def deliver (s : State) (r : CrewRef) (d : Option PDst) (v : Nat) : State :=
  match d with
  | none => s
  | some x => updCrew s r (fun c => { c with pend := markReady c.pend x (BitVec.ofNat 32 v) })

/-! TRAP and ERET (R244, R245). -/

def eSpec (f : RRR) (d a b : Pos) (opt ct plain priv : Bool) : WordSpec :=
  rrrSpec { port := 0, d := d, a := a, b := b, c := pNone, ty := f.ty.toNat == 0, opt := opt } f ct plain priv

def execTrap (f : RRR) (s : State) : Out :=
  issueWord (eSpec f pNone pGks pNone (noOpt f.opt.toNat) true false false) (fun a act s =>
    raiseTrap s a (act.map (fun i => (i, { fault .trap with addr := opdVal s a i f.a 1, pc := a.pc })))
      a.b.mask (a.slots.map (fun i => (i, clauseEnd a.b))) (a.pc + 8) false) s

/-- ERET (R245); another TRAPPC is checked as a target of this word (R43). -/
def execEret (f : RRR) (s : State) : Out :=
  issueWord (eSpec f pNone { n := 1, g := false, k := true, p := false, sp := [0, 1] } pNone (noOpt f.opt.toNat) true true true)
    (fun a act s =>
      match a.crew.trap with
      | none => faultAll s a act .illegal
      | some t =>
        let again := BitVec.ofNat 32 (opdVal s a (act.headD 0) f.a 1)
        let pc := a.crew.trappc.toNat
        if pc = t.trap.t then updCrew s a.ref (fun c => fixTicket (resumeTrap s.cycle (leaveTrap s.cycle c t) t again))
        else match checkTarget s a pc with
          | (s, some e) => finishTransfer s a (a.slots.map (fun i => (i, e))) []
          | (s, none) => updCrew s a.ref (fun c => fixTicket (redirectTrap s.cycle (leaveTrap s.cycle c t) t pc))) s

/-! System registers (R35). -/

/-- A register of R35: number, width, whether the user view reads it, whether it may be written. -/
structure SysReg where
  num : Nat
  width : Nat
  user : Bool
  rw : Bool
  deriving DecidableEq, Repr

def sysReg (num width : Nat) (user rw : Bool) : SysReg := { num := num, width := width, user := user, rw := rw }
def sysRegs : List SysReg :=
  [ sysReg 0x000 64 true false, sysReg 0x001 12 true true, sysReg 0x002 5 true false, sysReg 0x003 5 true false,
    sysReg 0x004 32 true false, sysReg 0x005 33 true false, sysReg 0x006 16 true false, sysReg 0x007 8 true false,
    sysReg 0x008 4 true false, sysReg 0x009 9 true false, sysReg 0x00A 64 true true, sysReg 0x00B 24 true false,
    sysReg 0x010 64 false true, sysReg 0x011 17 true true, sysReg 0x012 52 false true, sysReg 0x013 64 false true,
    sysReg 0x014 32 true true, sysReg 0x015 64 false true, sysReg 0x016 64 false true, sysReg 0x017 64 false true,
    sysReg 0x018 32 false false, sysReg 0x020 16 true true, sysReg 0x021 8 true true, sysReg 0x022 8 true true,
    sysReg 0x023 2 true true, sysReg 0x024 768 true false, sysReg 0x025 2 true false ]

def sysRegOf (n : Nat) : Option SysReg := sysRegs.find? (fun r => r.num == n)

/-- BANKMAP: two bits for each bank. -/
def bankMap (c : Cluster) : Nat := (List.range 384).foldl (fun m b => m + modeCode (bankOf c b).mode * 2 ^ (2 * b)) 0

/-- A system register as fibre `i` of the issuer reads it (R35). -/
def sysVal (s : State) (a : At) (i num : Nat) : Nat :=
  let cl := clusterOf s a.ref.cl
  let g := gridOf s a.team.ctx a.team.gid
  let ctx (f : CtxRegs → Nat) : Nat := ((ctxOf s a.ctx).map (fun c => f c.regs)).getD 0
  match num with
  | 0x000 => s.cycle
  | 0x001 => a.crew.ctx
  | 0x002 => i
  | 0x003 => a.ref.cr
  | 0x004 => a.team.teamno
  | 0x005 => (g.map (·.teams)).getD 0
  | 0x006 => a.team.gid
  | 0x007 => a.ref.cl
  | 0x008 => (g.map (·.depth)).getD 0
  | 0x009 => a.crew.win
  | 0x00A => a.crew.stat.toNat
  | 0x00B => padSize a.team
  | 0x010 => ctx (·.objbase.toNat)
  | 0x011 => ctx (·.objcount)
  | 0x012 => ctx (·.ptbase)
  | 0x013 => ctx (·.privbase.toNat)
  | 0x014 => ctx (·.privmax.toNat)
  | 0x015 => ctx (·.faultbase.toNat)
  | 0x016 => ctx (·.trapvec.toNat)
  | 0x017 => a.crew.trappc.toNat
  | 0x018 => a.crew.trapcause.toNat
  | 0x020 => cl.cslope.toNat
  | 0x021 => bNat cl.expert * 128 + cl.win
  | 0x022 => bNat a.team.urgency.expert * 128 + urgencyMark a.team
  | 0x023 => ctx (·.poison.toNat)
  | 0x024 => bankMap cl
  | 0x025 => cl.thermal.toNat
  | _ => 0

/-- The 64-bit word that the word select names; bits beyond the register's width read as zero. -/
def sysWord (r : SysReg) (v word : Nat) : Nat := v % 2 ^ r.width / 2 ^ (64 * word) % 2 ^ 64

def sysOpd : Opd := { cls := .g, num := 0 }

/-- RDSYS and its clearing form (R34, R246). -/
def execRead (f : SYSF) (clr : Bool) (s : State) : Out :=
  let r := sysRegOf f.num.toNat
  issueWord { port := some 0, ct := false, gd := f.gd, plain := false,
              legal := fun w => r.isSome && f.rsv == 0#4 && f.bc == 0#4 && f.hi == 0#2 && f.a == sysOpd
                && (!clr || f.num == 0x00A#12) && posOk w (pDst true) f.d,
              priv := (match r with | some x => !x.user | none => false), regs := [(f.d, 2)] }
    (fun a act s =>
      let outs := act.map (fun i => (i, outRes f.d 2 (match r with | some x => sysWord x (sysVal s a i x.num) f.word.toNat | none => 0)))
      let s := if clr then updCrew s a.ref (fun c => { c with stat := BitVec.ofNat 64 (c.stat.toNat / 2 ^ 11 * 2 ^ 11) }) else s
      finishWord s a outs) s

def execRdsys (f : SYSF) (s : State) : Out := execRead f false s
def execRdsysClr (f : SYSF) (s : State) : Out := execRead f true s

/-- Write the low bits of a value into a register; a fault, or the new state (R246). An OBJCOUNT above 65,536 is cut to its 17
bits, and a PRIVMAX or a FAULTBASE that is no multiple of 64 KiB is held as written (log 50). Every crew of the context sees a new value
of a context register at once, where R246 leaves open until the TLBINV .ctx which it sees (log 50). -/
def sysWrite (s : State) (a : At) (num v : Nat) : Except FKind State :=
  let reg (f : CtxRegs → CtxRegs) : Except FKind State := .ok (updCtx s a.ctx (fun c => { c with regs := f c.regs }))
  let w : W64 := BitVec.ofNat 64 v
  match num with
  | 0x00A => .ok (updCrew s a.ref (fun c => { c with stat := BitVec.ofNat 64 (c.stat.toNat / 2 ^ 11 * 2 ^ 11 + v % 2 ^ 11) }))
  | 0x010 => reg (fun r => { r with objbase := w })
  | 0x011 => reg (fun r => { r with objcount := v % 2 ^ 17 })
  | 0x012 => reg (fun r => { r with ptbase := v % 2 ^ 52 })
  | 0x013 => reg (fun r => { r with privbase := w })
  | 0x014 => reg (fun r => { r with privmax := BitVec.ofNat 32 v })
  | 0x015 => reg (fun r => { r with faultbase := w })
  | 0x016 => reg (fun r => { r with trapvec := w })
  | 0x017 => .ok (updCrew s a.ref (fun c => { c with trappc := w }))
  | 0x023 => if v % 4 < 2 then reg (fun r => { r with poison := BitVec.ofNat 2 v }) else .error .format
  | _ => .error .illegal

/-- CTXID: only a context that Occon has created. -/
def ctxidWrite (s : State) (a : At) (v : Nat) : Except FKind State :=
  match ctxOf s (v % 2 ^ 12) with
  | none => .error .format
  | some _ => .ok (updCrew s a.ref (fun c => { c with ctx := v % 2 ^ 12 }))

/-- THROTTLE (R272). -/
def throttleWrite (s : State) (a : At) (v : Nat) : Except FKind State :=
  let w := v % 64
  if tb v 7 then
    (if w = 0 || 32 < w then .error .format
     else .ok (updCluster s a.ref.cl (fun c => { c with expert := true, win := w, half := false })))
  else .ok (updCluster s a.ref.cl (fun c => { c with expert := false, half := c.expert || c.half }))

/-- URGENCY (R274). -/
def urgencyWrite (s : State) (a : At) (v : Nat) : Except FKind State :=
  let f (u : Urgency) : Urgency := if tb v 7 then { u with expert := true, fixed := v % 32 } else { u with expert := false }
  .ok (updTeam s a.ref.cl a.ref.ts (fun t => { t with urgency := f t.urgency }))

/-- CSLOPE (R276). A WAVE from 65 to 255, of which the rule says nothing, is taken as that many crews (log 50). -/
def cslopeWrite (s : State) (a : At) (v : Nat) : Except FKind State :=
  .ok (updCluster s a.ref.cl (fun c => { c with cslope := BitVec.ofNat 16 v }))

/-- A write for one fibre: nothing beyond word 0, which holds every bit of a writable register (R246). -/
def writeFibre (f : SYSF) (g : State → At → Nat → Except FKind State) (a : At) (i : Nat) (s : State) : State × FOut :=
  if f.word ≠ 0#6 then (s, .ok noRes)
  else match g s a (opdVal s a i f.a 2) with
    | .error k => (s, .bad (fault k))
    | .ok s' => (s', .ok noRes)

/-- WRSYS of a register (R34, R246). Only the privileged view writes; a read-only register raises ILLEGAL there. -/
def execWrite (f : SYSF) (g : State → At → Nat → Except FKind State) (s : State) : Out :=
  let r := sysRegOf f.num.toNat
  issueWord { port := some 0, ct := false, gd := f.gd, plain := false,
              legal := fun w => r.isSome && f.rsv == 0#4 && f.bc == 0#4 && f.hi == 0#2 && !f.clr && f.d == sysOpd
                && posOk w (pSrc true) f.a,
              priv := true, regs := [(f.a, 2)] }
    (fun a act s =>
      if !(match r with | some x => x.rw | none => false) then faultAll s a act .illegal
      else let x := eachFibre (writeFibre f g a) act s; finishWord x.1 a x.2) s

def execWrsys (f : SYSF) (s : State) : Out := execWrite f (fun s a v => sysWrite s a f.num.toNat v) s
def execWrsysCtxid (f : SYSF) (s : State) : Out := execWrite f ctxidWrite s
def execWrsysThrottle (f : SYSF) (s : State) : Out := execWrite f throttleWrite s
def execWrsysUrgency (f : SYSF) (s : State) : Out := execWrite f urgencyWrite s
def execWrsysCslope (f : SYSF) (s : State) : Out := execWrite f cslopeWrite s

/-! TLBINV (R247). -/

/-- Remove TLB entries of a context that satisfy `p` everywhere. -/
def tlbDrop (s : State) (ctx : Nat) (p : TlbEntry → Bool) : State :=
  let f (l : List TlbEntry) : List TlbEntry := l.filter (fun e => !(e.ctx == ctx && p e))
  { mapClusters s (fun _ c => { c with tlb := f c.tlb }) with
    die0 := { s.die0 with tlb := f s.die0.tlb }, die1 := { s.die1 with tlb := f s.die1.tlb } }
/-- Remove cached records of a context that satisfy `p`. -/
def recDrop (s : State) (ctx : Nat) (p : RecEntry → Bool) : State :=
  mapClusters s (fun _ c => { c with recs := c.recs.filter (fun e => !(e.ctx == ctx && p e)) })

def tlbinv (s : State) (ctx kind x y : Nat) : State :=
  match kind with
  | 0 => tlbDrop s ctx (fun e => x / 2 ^ e.bits == e.va / 2 ^ e.bits)
  | 1 => tlbDrop s ctx (fun e => decide (e.va < x + y) && decide (x < e.va + 2 ^ e.bits) && decide (0 < y))
  | 2 => recDrop (tlbDrop s ctx (fun _ => true)) ctx (fun _ => true)
  | _ => recDrop s ctx (fun e => e.idx == x % 2 ^ 16)

/-- TLBINV (R241). A field to which a kind gives no meaning may hold any legal source (log 25). -/
def execTlbinv (f : RRR) (s : State) : Out :=
  issueWord (eSpec f (pDstG false) (pSrc true) (pSrc true) (decide (f.opt.toNat < 4)) false false true) (fun a act s =>
    let r := lowestOnly (fun i s =>
      (tlbinv s a.ctx f.opt.toNat (opdVal s a i f.a 2) (opdVal s a i f.b 2), outRes f.d 1 stOk)) act s
    finishPend r.1 a r.2) s

/-! TOKADM (R248). -/

/-- Discard the shares of a token. -/
def dropShares (s : State) (d i : Nat) : State := (sharesOf s d i).foldl (fun s e => delOwner s d e.1) s

def tokadm (s : State) (ctx op x y : Nat) : State × OwnAns :=
  let h : W64 := BitVec.ofNat 64 y
  if (op = 0 && 6 < holderClass h) || (op = 1 && y ≠ 0) then (s, .format)
  else match (coverOf s ctx x).filter (fun e => e.2.2.base == x) with
    | none => (s, .status (st cNotHeld 0))
    | some (d, i, t) =>
      if op = 1 then
        (if t.state = .orphan then (setToken (dropShares s d i) d i { t with state := .poison, n := 0 }, .status stOk)
         else (s, .status (st cMode t.n)))
      else if !isBad t then (s, .status (st cMode t.n))
      else if !receiverOk s ctx none h then (s, .status (st cHolder 0))
      else
      let p := peerAnswers s h
      let s := p.1
      if !p.2 then (s, .status (st cHolder 0))
      else
        let s := setToken (dropShares s d i) d i
          { t with state := .excl, owner := h, n := 0, chain := [], recaller := none, recalls := [], rest := .excl }
        let s := (s.clusters.map (·.1)).foldl (fun s cl =>
          let sp := spans s (dieNo cl) ctx t.base t.len
          l1Invalidate s cl (fun e => inSpans sp e.key)) s
        (acquireFor (takeLines s ctx h t.base t.len) h 7, .status stOk)

def execTokadm (f : RRR) (s : State) : Out :=
  issueWord (eSpec f (pDstG false) (pSrc true) (pSrc true) (decide (f.opt.toNat < 2)) false true true) (fun a act s =>
    let r := lowestOnly (fun i s =>
      ansOut f.d (tokadm s a.ctx f.opt.toNat (opdVal s a i f.a 2) (opdVal s a i f.b 2))) act s
    finishPend r.1 a r.2) s

/-! CKPT (R249). -/

def hbmSize : Nat := 0x6000000000
def safeBase : Nat := 2 ^ 50 + 2 ^ 49

/-- Does the image at CXL physical address `x` lie in the safe-tier window? -/
def ckptRangeOk (s : State) (x : Nat) : Bool :=
  x % 2 ^ 30 == 0 && decide (safeBase ≤ x) && decide (x + hbmSize ≤ safeBase + safeLen s)

def execCkpt (f : RRR) (s : State) : Out :=
  issueWord (eSpec f (pDstG false) (pSrc true) pNone (noOpt f.opt.toNat) false true true) (fun a act s =>
    let i := act.headD 0
    let x := opdVal s a i f.a 2
    let others := (act.drop 1).map (fun j => (j, FOut.ok noRes))
    if !ckptRangeOk s x then finishPend s a ((i, outRes f.d 1 (st 0x14 0)) :: others)
    else if s.ckpt.isSome then finishPend s a ((i, outRes f.d 1 (st 0x13 0)) :: others)
    else
      let d := pendDst i f.d
      let s := { (reserve s a.ref d) with ckpt := some { base := x, crew := a.ref, dest := d } }
      updCrew s a.ref (fun c => advance s.cycle c a.bi)) s

/-- The memory after the copy: every expander byte of the image holds its device byte, and its lines carry the device's poison (R403). It
goes by the safe-tier name: clean lines that an L2 holds under the other name keep what they were filled with (R404). -/
def ckptMem (s : State) (x : Nat) : State :=
  let off := (x - safeBase) / 8
  let named (k : Nat) : Bool := decide (x ≤ k) && decide (k < x + hbmSize)
  let inImage (k : Nat) : Bool := decide (2 ^ 50 ≤ k) && decide (k < safeBase) &&
    (let p := slice k 46 3
     let o := k % 2 ^ 46
     decide ((cxlPort s p).sbase + off ≤ o) && decide (o < (cxlPort s p).sbase + off + hbmSize / 8))
  let src := s.mem.filter (fun e => decide (e.1 < hbmSize))
  let m := src.foldl (fun m e => cWrite m (expander s (x + e.1)) e.2) (s.mem.filter (fun e => !inImage e.1))
  let clean (k : Nat) : Bool := inImage k && homeHolds s k 1 && (look s.cxlDirty k).isNone && (look s.cxlHeld k).isNone
  let bytes := (s.die0.l2 ++ s.die1.l2).flatMap (fun e => ((List.range 128).map (e.key + ·)).filter clean)
  let bad := s.poison.filter (fun l => decide (l < hbmSize))
  { s with mem := m, cxlDirty := s.cxlDirty.filter (fun e => !named e.1),
           cxlHeld := bytes.foldl (fun h k => put h k (cRead s.mem k)) (s.cxlHeld.filter (fun e => !named e.1)),
           cxlPoison := s.cxlPoison.filter (fun l => !inImage l) ++ bad.map (fun l => expander s (x + l)),
           poison := s.poison.filter (fun l => !named l) ++ (bad.map (· + x)).filter (fun l => homeHolds s l 64) }

/-- Does the root port answer nothing for now? -/
def portQuiet (s : State) (p : Nat) : Bool := (cxlPort s p).silent && !(cxlPort s p).isolated

/-- Does CKPT wait for a root port that has not completed its writes (R405)? -/
def ckptWaits (s : State) : Bool := (List.range 8).any (fun p => portQuiet s p && (cxlPort s p).asked.isSome)

/-- CKPT_COMPLETE: every write is persistent, or a port that failed is reported; the writes to a port that does not answer wait for it
(R249, R405). -/
def execCkptComplete (s : State) : Out :=
  match s.ckpt with
  | none => .next s
  | some c =>
    match (List.range 8).find? (fun p => (cxlPort s p).isolated) with
    | some p => .next (deliver { s with ckpt := none } c.crew c.dest (st 0x35 p))
    | none =>
      if (List.range 8).any (portQuiet s) then .next ((List.range 8).foldl askPort s)
      else .next (deliver { ckptMem s c.base with ckpt := none } c.crew c.dest stOk)

/-! HALT (R251). -/

/-- Kill the crew's grid with a code for the driver; a privileged grid that Occon started only loses the crew (R240). -/
def haltGrid (s : State) (r : CrewRef) (t : Team) (code : Nat) : State :=
  match gridOf s t.ctx t.gid with
  | none => stopCrew s r
  | some g =>
    if g.priv then stopCrew s r
    else
      let s := updGrid (killTree s t.ctx t.gid) t.ctx t.gid (fun g => { g with killCode := code })
      stopCrew (emit s (.killed t.ctx t.gid code)) r

/-- HALT (R251). Where several fibres are active with different codes, that of the lowest one counts (log 50). -/
def execHalt (f : RRR) (s : State) : Out :=
  issueWord (eSpec f pNone pGks pNone (noOpt f.opt.toNat) true true true) (fun a act s =>
    haltGrid s a.ref a.team (opdVal s a (act.headD 0) f.a 1)) s

end Sys2Proof.Machine
end

