-- ==== Sys2Proof/Machine/Grid.lean ====
section
/-! DEFINITION. Placement, launch and start of teams, and how teams, grids and clusters leave (R132-R136, R256-R264). -/

namespace Sys2Proof.Machine

/-! Placement (R256-R259). -/

/-- Every crew of the team has finished: it holds no crew and no register granule (R120, R261). -/
def teamFinished (t : Team) : Bool := t.started && t.crews.all (fun c => c.live == 0#32 && c.trapWait.isEmpty && c.launches.isEmpty)

/-- Register granules in use, as (first, count); a saved team has given its own up (R372). -/
def runsUsed (c : Cluster) : List (Nat × Nat) :=
  c.teams.flatMap (fun t => if t.2.saved || teamFinished t.2 then [] else t.2.crews.map (fun w => (w.base / 256, w.win / 8)))

/-- The lowest-numbered run of `n` free granules (R257). -/
def freeRun (used : List (Nat × Nat)) (n : Nat) : Option Nat :=
  (List.range (513 - n)).find? (fun g => used.all (fun u => decide (u.1 + u.2 ≤ g) || decide (g + n ≤ u.1)))

/-- Runs for the crews of a team, in crew order. -/
def runsFor (n : Nat) : Nat → List (Nat × Nat) → Option (List Nat)
  | 0, _ => some []
  | k + 1, used =>
    match freeRun used n with
    | none => none
    | some g => (runsFor n k ((g, n) :: used)).map (g :: ·)

/-- Crew positions in use on a cluster (R267). -/
def posUsed (c : Cluster) : List Nat := c.teams.flatMap (fun t => if teamFinished t.2 then [] else t.2.crews.map (·.pos))

/-- The register runs for a team of the grid on a cluster, when it fits (R257). -/
def teamFits (c : Cluster) (g : Grid) : Option (List Nat) :=
  if 32 ≤ c.teams.length || 64 < (posUsed c).length + g.crews || (banksIn c .off).length < g.banks then none
  else runsFor g.w8 g.crews (runsUsed c)

/-- The first cluster after the cursor that takes the grid's next team, `shut` clusters apart (R256). -/
def findPlace (s : State) (g : Grid) (cursor : Nat) (shut : Nat → Bool) : Option (Nat × List Nat) :=
  (List.range 192).findSome? (fun i =>
    let x := (cursor + 1 + i) % 192
    if !g.cmask.getLsbD x || (clusterOf s x).fenced || shut x then none
    else (teamFits (clusterOf s x) g).map (fun r => (x, r)))

/-- A crew before its team's start. -/
def newCrew (pos base win ctx cycle : Nat) (priv : Bool) : Crew :=
  { pos := pos, base := base, win := win, live := 0#32, preds := [], k := [], flags := [], flagScope := [], stat := 0#64,
    batches := [], groups := [], yields := false, pend := [], falls := [], launches := [], priv := priv, trap := none, trapWait := [],
    trappc := 0#64, trapcause := 0#32, cur := none, ctx := ctx, pass := 0, backoff := 0, issued := 0, cand := false, candSince := cycle,
    issuedAt := cycle, prec := none, losses := 0, arrivedAt := 0, mem := false, memRow := 0, memWait := none, stopped := false,
    restored := false }

def newTeam (g : Grid) (crews : List Crew) (banks : List Nat) (cycle : Nat) : Team :=
  { ctx := g.ctx, gid := g.gid, teamno := g.nextTeam, crews := crews, banks := banks, bars := [], ranges := [],
    leases := [], mstat := none, chunkScopes := [], urgency := { expert := false, fixed := 0, mark := 0 }, placedAt := cycle,
    started := false, banksDone := false, killed := false, saved := false }

/-- Give PAD banks to a team: the lowest OFF banks, set to PAD and zeroed (R257). -/
def takeBanks (s : State) (x ts n : Nat) : State × List Nat :=
  let l := (banksIn (clusterOf s x) .off).take n
  (updCluster s x (fun c => l.foldl (fun c b => zeroBank (setBank c b { mode := .pad, owner := ts, bound := none, slots := [] }) b) c), l)

/-- W by the hits of an epoch (R270). -/
def windowOf (h : Nat) : Nat :=
  if h < 16 then 32 else if h < 32 then 16 else if h < 64 then 8 else if h < 128 then 4 else if h < 256 then 2 else 1

/-- The end of one epoch of a cluster (R270, R272): in expert mode, and at the end of the epoch in which that mode ended,
W stays. -/
def endEpoch (c : Cluster) : Cluster :=
  { c with epoch := c.epoch + 1, hits := 0, half := c.expert,
           win := if c.expert || c.half then c.win else windowOf (if wayCount c = 0 then 0 else c.hits) }

/-- The ends of every epoch up to cycle `now`. After the third nothing but the count changes: an epoch in which the cluster
had no team has no hits. -/
def endEpochs (now : Nat) (c : Cluster) : Cluster :=
  { (List.range (min 3 (now / 1024 - c.epoch))).foldl (fun c _ => endEpoch c) c with epoch := max c.epoch (now / 1024) }

/-- A cluster that receives a team after a time without one (R270). -/
def wakeCluster (s : State) (x : Nat) : State :=
  if (clusterOf s x).teams.isEmpty then updCluster s x (endEpochs s.cycle) else s

/-- Place the next team of a grid (R257). -/
def placeTeam (s : State) (g : Grid) (x : Nat) (runs : List Nat) : State :=
  let s := wakeCluster s x
  let c := clusterOf s x
  match freeKey c.teams 0 32 with
  | none => s
  | some ts =>
    let pos := (List.range 64).filter (fun p => !(posUsed c).contains p)
    let crews := (runs.zip pos).map (fun e => newCrew e.2 (e.1 * 256) (g.w8 * 8) g.ctx s.cycle g.priv)
    let b := takeBanks s x ts g.banks
    let s := setTeam b.1 x ts (newTeam g crews b.2 s.cycle)
    let s := updGrid s g.ctx g.gid (fun g => { g with nextTeam := g.nextTeam + 1, nextSince := s.cycle, reserved := false })
    updCtx s g.ctx (fun k => { k with cursor := x })

def cursorOf (s : State) (ctx : Nat) : Nat := ((ctxOf s ctx).map (·.cursor)).getD 0

/-- Place the teams of a COOP grid from its next on, all or none (R258). At most 6,144 teams are resident. -/
def placeCoop (s : State) (ctx gid : Nat) (shut : Nat → Bool) : Nat → Option State
  | 0 => none
  | n + 1 =>
    match gridOf s ctx gid with
    | none => none
    | some g =>
      if g.teams ≤ g.nextTeam then some s
      else match findPlace s g (cursorOf s ctx) shut with
        | none => none
        | some (x, r) => placeCoop (placeTeam s g x r) ctx gid shut n

/-- Grids of a context with a pending team, in the order of their launch, which is their order in the list. -/
def pendingGrids (s : State) (ctx : Nat) : List Grid :=
  s.grids.filter (fun g => g.ctx == ctx && !g.coop && !g.killed && decide (g.nextTeam < g.teams))

/-- The first grid of the list whose next team fits outside the clusters that an earlier grid has reserved. -/
def pickGrid (s : State) (cursor : Nat) (shut : BitVec 192) : List Grid → Option (Grid × Nat × List Nat)
  | [] => none
  | g :: t =>
    match findPlace s g cursor (fun x => shut.getLsbD x) with
    | some (x, r) => some (g, x, r)
    | none => pickGrid s cursor (if g.reserved then shut ||| g.cmask else shut) t

/-- Contexts in the order in which placement serves them (R259). -/
def placeOrder (s : State) : List Nat :=
  let l := (s.ctxs.filter (fun c => decide (c.2.phase = .running))).map (·.1)
  l.filter (fun c => decide (s.lastPlaced < c)) ++ l.filter (fun c => decide (c ≤ s.lastPlaced))

/-- The next placement, if any pending team fits. -/
def nextPlacement (s : State) : Option (Grid × Nat × List Nat) :=
  (placeOrder s).findSome? (fun c => pickGrid s (cursorOf s c) 0 (pendingGrids s c))

/-- Place pending teams while one fits; at most 6,144 are resident. -/
def placeAll (s : State) : Nat → State
  | 0 => s
  | n + 1 =>
    match nextPlacement s with
    | none => s
    | some (g, x, r) => placeAll { placeTeam s g x r with lastPlaced := g.ctx } n

def maxTeams : Nat := 6144

/-- PLACEMENT_RESERVATION: the next team of a grid has waited 2^20 cycles (R259). -/
def reservationDue (s : State) (g : Grid) : Bool :=
  (match ctxOf s g.ctx with | some c => decide (c.phase = .running) | none => false) && !g.coop && !g.killed && !g.reserved && decide (g.nextTeam < g.teams) && decide (g.nextSince + 2 ^ 20 ≤ s.cycle)
def execPlacementReservation (ctx gid : Nat) (s : State) : Out :=
  .next (updGrid s ctx gid (fun g => if reservationDue s g then { g with reserved := true } else g))

/-! Kills (R251, R262, R263). -/

/-- The team-directory entry (R363), with its resident bit. -/
def directoryEntry (t : Team) (here : Bool) : List Byte :=
  leBytes 8 (t.gid + bNat here * 2 ^ 16 + t.teamno % 2 ^ 32 * 2 ^ 32) ++ leBytes 8 0
def faultBase (s : State) (ctx : Nat) : Nat := ((ctxOf s ctx).map (fun c => c.regs.faultbase.toNat)).getD 0

/-- Write a team's directory entry, or say why it cannot be written. -/
def writeDirectory (s : State) (x ts : Nat) (t : Team) (here : Bool) : State × Option Unreached :=
  writeHome s (dieNo x) t.ctx (faultBase s t.ctx + 16 * (32 * x + ts)) (directoryEntry t here)

/-- The kill that follows a directory write that failed: a privileged grid that Occon started only stops (R240, R363). -/
def directoryKill (s : State) (x ts : Nat) (t : Team) (here : Bool) : State :=
  let s := emit s (.directory t.ctx t.gid (directoryEntry t here))
  match gridOf s t.ctx t.gid with
  | none => s
  | some g =>
    if g.priv then updTeam s x ts (fun t => { t with crews := t.crews.map (fun c => { c with stopped := true }) })
    else killTree s t.ctx t.gid

/-! Team start (R260). -/

def startCrew (cycle entry : Nat) (kinit : List W32) (c : Crew) : Crew :=
  { c with live := BitVec.allOnes 32, k := cWrites [] 0 kinit, cur := none,
           batches := [headBatch entry (BitVec.allOnes 32) .none cycle false], candSince := cycle }

/-- The team's crews with their starting state (R22); the cluster's instruction cache is invalidated (R45). -/
def startTeam (s : State) (x ts : Nat) (t : Team) (g : Grid) : State :=
  let s := updCluster s x (fun c => { c with rf := t.crews.foldl (fun rf w => cClear rf w.base (32 * w.win)) c.rf, icache := [] })
  updTeam (acquireAt s x 5) x ts (fun t => { t with started := true, crews := t.crews.map (startCrew s.cycle g.entry.toNat g.kinit) })

/-- TEAM_START: a placed team starts; a failed directory write kills its grid before any crew issues (R260, R363). -/
def execTeamStart (x ts : Nat) (s : State) : Out :=
  match teamOf s x ts with
  | none => .next s
  | some t =>
    match gridOf s t.ctx t.gid with
    | none => .next s
    | some g =>
      if t.started || g.killed || t.saved then .next s
      else match writeDirectory s x ts t true with
        | (s, none) => .next (startTeam s x ts t g)
        | (s, some _) => .next (directoryKill (startTeam s x ts t g) x ts t true)

/-! LAUNCH (R132-R135). -/

/-- A LAUNCH block (R132). -/
structure LaunchBlock where
  entry : Nat
  teams : Nat
  w8 : Nat
  crews : Nat
  banks : Nat
  coop : Bool
  cmask : BitVec 192
  kinit : List W32
  ntok : Nat
  toks : List (Nat × Nat × Nat)
  deriving DecidableEq, Repr

def launchBlock (l : List Byte) : LaunchBlock :=
  let w := leAt l 0x0C 4
  let n := slice (leAt l 0x48 4) 0 4
  { entry := leAt l 0 8, teams := leAt l 8 4 + 1, w8 := slice w 0 6, crews := slice w 8 5 + 1, banks := slice w 16 9, coop := tb w 25,
    cmask := BitVec.ofNat 192 (leAt l 0x10 24), kinit := (List.range 8).map (fun i => BitVec.ofNat 32 (leAt l (0x28 + 4 * i) 4)),
    ntok := n,
    toks := if 8 < n then [] else (List.range n).map (fun i =>
      let v := leAt l (0x50 + 16 * i) 16
      (v % 2 ^ 64, slice v 64 40, v / 2 ^ 104)) }

/-- Bytes of the block that check 1 bounds (R134). -/
def launchExtent (ntok : Nat) : Nat := if 8 < ntok then 0x50 else 0x50 + 16 * ntok

/-- Check 2 of R134. -/
def launchBad (l : List Byte) : Bool :=
  let b := launchBlock l
  let w := leAt l 0x0C 4
  b.entry % 8 != 0 || decide (b.w8 < 2) || decide (32 < b.w8) || slice w 6 2 != 0 || slice w 13 3 != 0 || decide (384 < b.banks)
    || slice w 26 6 != 0 || b.cmask == 0 || decide (8 < b.ntok) || slice (leAt l 0x48 4) 4 28 != 0 || leAt l 0x4C 4 != 0
    || b.toks.any (fun t => t.1 % 64 != 0 || t.2.1 == 0 || t.2.1 % 64 != 0 || decide (2 < t.2.2))

def engReg (n : Nat) : Opd := { cls := .g, num := n }

/-- Is a PAD byte range touched by an in-flight write range? -/
def padReadBlocked (t : Team) (lo n : Nat) : Bool := decide (0 < n) && padBlocked t lo (lo + n - 1) false

/-- LAUNCH for slot 0 of crew 0: checks 1 and 2, then the block waits for LAUNCH_STATUS (R132, R134). -/
def launchFor (f : ENG) (a : At) (s : State) : State × FOut :=
  let off := f.off.toNat
  if off % 16 ≠ 0 then (s, .bad (fault .misaligned))
  else if padSize a.team < off + 0x50 then (s, .bad (fault .bounds))
  else
    let n := launchExtent (slice (padNat s a.ref.cl a.ref.ts (off + 0x48) 4) 0 4)
    if padSize a.team < off + n then (s, .bad (fault .bounds))
    else
      let l := padBytes s a.ref.cl a.ref.ts off n
      if launchBad l then (s, .bad (fault .format))
      else
        let fl := flagOf f.fa.toNat
        let s := raiseFlag (reserve s a.ref (some (.g 0 f.st))) a.ref fl
        (updCrew s a.ref (fun c => { c with launches := c.launches ++ [{ block := l, dest := .g 0 f.st, flag := fl, ctx := a.ctx }] }), .ok noRes)

/-- LAUNCH (R132, R134), which lends and so waits for the acknowledgement of peer stores (R400, log 3). It waits for a range in flight that writes any of the bytes that a block can have at most (log 50). -/
def execLaunch (f : ENG) (s : State) : Out :=
  issueWord { port := some 0, ct := false, gd := f.gd, plain := false, priv := false,
              legal := fun w => decide (f.st < w) && f.src == 0 && flagOk f.fa.toNat && f.fb == 15#4 && !f.rsv,
              regs := [(engReg f.st, 1)], rel := true }
    (fun a act s =>
      let mine := a.ref.cr == 0 && act.contains 0
      if mine && flagFull a.crew (flagOf f.fa.toNat) then waitAt s a .flagFull false
      else if mine && padReadBlocked a.team f.off.toNat 0xD0 then waitAt s a .padRange false
      else
        let r := eachFibre (fun i s => if mine && i == 0 then launchFor f a s else (s, .bad (fault .illegal))) act s
        finishWord r.1 a r.2) s

/-- Check 4 of R134 for the descriptors: the index of the first that fails. -/
def launchTokens (s : State) (ctx : Nat) (ids : List W64) : Nat → List (Nat × Nat × Nat) → List (Nat × Nat × Nat) → Option Nat
  | _, _, [] => none
  | i, before, d :: t =>
    let covered := match coverOf s ctx d.1 with
      | some (_, _, k) => ids.contains k.owner && decide (d.1 + d.2.1 ≤ k.base + k.len) && !isBad k && lendStateOk k d.2.2
      | none => false
    if !covered || before.any (fun e => decide (e.1 < d.1 + d.2.1) && decide (d.1 < e.1 + e.2.1)) then some i
    else launchTokens s ctx ids (i + 1) (before ++ [d]) t

/-- Grid ids that are taken: live, or retired and not yet reported (R136). -/
def gidsUsed (s : State) (ctx : Nat) : List (Nat × Unit) :=
  (s.grids.filter (fun g => g.ctx == ctx)).map (fun g => (g.gid, ()))
    ++ ((ctxOf s ctx).map (fun c => c.retired.map (fun e => (e.1, ())))).getD []

/-- Check 5 of R134 but for the COOP trial. -/
def launchShort (s : State) (b : LaunchBlock) : Bool :=
  decide (131072 < 32 * (8 * b.w8) * b.crews)
    || ((List.range 192).filter (fun x => b.cmask.getLsbD x)).all (fun x => decide (384 - wayCount (clusterOf s x) < b.banks))

/-- Clusters reserved by a waiting team (R258). -/
def reservedBy (s : State) (x : Nat) : Bool := s.grids.any (fun g => g.reserved && g.cmask.getLsbD x)

/-- Lend the descriptors in order to the child (R133): the index of the first that fails, the earlier ones given back. -/
def launchLends (ctx : Nat) (ids : List W64) (child : W64) : Nat → List (Nat × Nat × Nat) → List (Nat × Nat × Nat) → State → State × Option Nat
  | _, _, [], s => (s, none)
  | i, done, d :: t, s =>
    match lend s ctx ids d.1 d.2.1 child d.2.2 none with
    | (s, .status 0) => launchLends ctx ids child (i + 1) (d :: done) t s
    | _ => (done.foldl (fun s e => (retn s ctx [child] e.1 e.2.1).1) s, some i)

/-- The child grid of a LAUNCH, in the context `x` in which the crew acts (R246). -/
def childGrid (s : State) (b : LaunchBlock) (x : Nat) (g : Grid) (t : Team) (r : CrewRef) (fl : Option Nat) (gid : Nat) : Grid :=
  { ctx := x, gid := gid, launchedBy := crewHolder x g.gid r,
    launcher := some { crew := r, team := teamHolder t.ctx t.gid r.cl r.ts, flag := fl },
    parent := some (g.ctx, g.gid), depth := g.depth + 1, teams := b.teams, cmask := b.cmask, w8 := b.w8, crews := b.crews, banks := b.banks,
    coop := b.coop, entry := BitVec.ofNat 64 b.entry, kinit := b.kinit, priv := false, nextTeam := 0, nextSince := s.cycle,
    reserved := false, unfinished := b.teams, children := 0, gen := 0, killed := false, killCode := 0 }

/-- Checks 3 to 5, the lends and the placement (R134): the status, and the grid's effects when it is OK. -/
def launchDecide (s : State) (r : CrewRef) (t : Team) (c : Crew) (g : Grid) (p : LaunchPend) : State × Nat :=
  let b := launchBlock p.block
  let x := p.ctx
  let ids := identities t { c with ctx := x } r
  if 10 ≤ g.depth then (s, st 0x02 0)
  else match launchTokens s x ids 0 [] b.toks with
    | some i => (s, st 0x03 (i * 2 ^ 16))
    | none =>
      match freeKey (gidsUsed s x) 0 65536 with
      | none => (s, st 0x01 0)
      | some gid =>
        let made := { s with grids := s.grids ++ [childGrid s b x g t r p.flag gid] }
        let coop := if b.coop then placeCoop made x gid (reservedBy s) (maxTeams + 1) else none
        if launchShort s b || (b.coop && coop.isNone) then (s, st 0x01 0)
        else match launchLends x ids (gridHolder x gid) 0 [] b.toks made with
          | (s', some i) => ({ s' with grids := s'.grids.filter (fun k => !(k.ctx == x && k.gid == gid)) }, st 0x03 (i * 2 ^ 16))
          | (s, none) =>
            let s := releaseAt s r.cl 5
            let s := updGrid s g.ctx g.gid (fun g => { g with children := g.children + 1 })
            let s := if b.coop then (placeCoop s x gid (reservedBy s) (maxTeams + 1)).getD s else placeAll s maxTeams
            (s, st 0 gid)

/-- LAUNCH_STATUS: the oldest undecided LAUNCH of the crew that `issue` names gets its status; unless that is OK its flag
falls again, with no release (R134). -/
def execLaunchStatus (s : State) : Out :=
  match s.issue with
  | none => .next s
  | some i =>
    let r := i.crew
    match teamOf s r.cl r.ts, crewOf s r with
    | some t, some c =>
      match c.launches with
      | [] => .next s
      | p :: rest =>
        let s := updCrew s r (fun c => { c with launches := rest })
        match gridOf s t.ctx t.gid with
        | none => .next s
        | some g =>
          let x := if g.killed then (s, st 0x01 0) else launchDecide s r t c g p
          let s := deliver x.1 r (some p.dest) x.2
          .next (if x.2 / 2 ^ 24 = 0 then s else oweFall s r p.flag 0)
    | _, _ => .next s

/-! Bank release (R261). -/

/-- In-flight ranges of the team that hold its banks: those of ATTACHED operations. -/
def attachedRange (s : State) (t : Team) : Bool :=
  t.ranges.any (fun r => match opOf s r.op with | some o => !o.detached | none => true)

/-- Zero and set OFF the team's PAD and FIFO banks (R186, R261). -/
def freeTeamBanks (s : State) (x ts : Nat) : State :=
  let l := (banksIn (clusterOf s x) .pad ++ banksIn (clusterOf s x) .fifo).filter (fun b => (bankOf (clusterOf s x) b).owner == ts)
  let s := updCluster s x (fun c => l.foldl (fun c b => zeroBank (setBank c b { mode := .off, owner := 0, bound := none, slots := [] }) b) c)
  let mine (o : EngOp) : Bool := o.detached && !o.orphaned && o.crew.cl == x && o.crew.ts == ts
  let s := { s with ops := s.ops.map (fun o => if mine o.2 then (o.1, { o.2 with blockGone := true }) else o) }
  updTeam s x ts (fun t => { t with banks := [], ranges := [], banksDone := true })

def bankReleaseDue (s : State) (t : Team) : Bool := teamFinished t && !t.banksDone && !attachedRange s t && !t.saved

/-- TEAM_BANK_RELEASE (R261). -/
def execTeamBankRelease (x ts : Nat) (s : State) : Out :=
  match teamOf s x ts with
  | none => .next s
  | some t => if bankReleaseDue s t then .next (freeTeamBanks s x ts) else .next s

/-! Team exit (R262). -/

/-- Is the operation one of the team's? -/
def opOfTeam (x ts : Nat) (t : Team) (o : EngOp) : Bool :=
  !o.orphaned && o.crew.cl == x && o.crew.ts == ts && o.ctx == t.ctx && o.gid == t.gid

/-- Grids that the team launched and that have not retired. -/
def childrenOf (s : State) (x ts : Nat) (t : Team) : List Grid :=
  s.grids.filter (fun g => match g.launcher with | some l => l.team == teamHolder t.ctx t.gid x ts | none => false)

/-- Remove the waiters on queues that satisfy `p`; the queues' WAITERS fall (R192). -/
def dropWaiters (s : State) (p : Waiter → Bool) : State :=
  let gone := (s.die0.waiters ++ s.die1.waiters).filter p
  let s := gone.foldl (fun s w =>
    match (ctxOf s w.ctx).bind (fun c => look c.queues w.queue) with
    | none => s
    | some a => vaPut s 0 w.ctx (a + 16) 2 ((qHead s 0 w.ctx a).waiters - 1)) s
  { s with die0 := { s.die0 with waiters := s.die0.waiters.filter (fun w => !p w) },
           die1 := { s.die1 with waiters := s.die1.waiters.filter (fun w => !p w) } }

/-- Holder identities of a team and its crews. -/
def teamIds (x ts : Nat) (t : Team) : List W64 :=
  teamHolder t.ctx t.gid x ts :: (List.range t.crews.length).map (fun i => crewHolder t.ctx t.gid { cl := x, ts := ts, cr := i })

/-- The chain after an exit: the team's and crews' entries removed, cut back before the grid's where the grid becomes the
owner (R262). -/
def exitChain (mine : List W64) (g : W64) (owned : Bool) (chain : List W64) : List W64 :=
  let l := chain.filter (fun h => !mine.contains h)
  if owned then l.takeWhile (fun h => h != g) else l

/-- One token's passage at an exit (R262, R289). -/
def exitToken (mine : List W64) (g : W64) (d i : Nat) (s : State) : State :=
  match tokenAt s d i with
  | none => s
  | some t =>
    let owned := mine.contains t.owner && !isBad t
    let t' := { t with owner := if owned then g else t.owner, chain := if isBad t then t.chain else exitChain mine g owned t.chain,
                       recaller := match t.recaller with | some h => if mine.contains h then none else some h | none => none,
                       recalls := (if owned then noteReturn s t t.owner else t).recalls.filter (fun r => !mine.contains r.holder) }
    let s := if owned then giveSide s t t.owner g t.base t.len else s
    let s := setToken s d i t'
    if owned then endRecalls (takeSide s t.ctx t.owner g t.base t.len) d i else s

/-- Pass every entry of the team to its grid; shares are returned (R262). -/
def passEntries (s : State) (ctx gid : Nat) (mine : List W64) : State :=
  let sh := (allShares s).filter (fun e => mine.contains e.2.2.holder &&
    (match tokenAt s e.1 e.2.2.tok with | some t => !isBad t | none => true))
  let s := sh.foldl (fun s e => dropShare s e.1 e.2.1 e.2.2) s
  (allTokens s).foldl (fun s e => if e.2.2.ctx = ctx then exitToken mine (gridHolder ctx gid) e.1 e.2.1 s else s) s

/-- Nothing later reaches the crews of the slot on the exited team's behalf. -/
def forgetTeam (s : State) (x ts : Nat) : State :=
  let mine (r : CrewRef) : Bool := r.cl == x && r.ts == ts
  let s := { s with ops := s.ops.map (fun o => if mine o.2.crew then (o.1, { o.2 with orphaned := true }) else o),
                    ckpt := s.ckpt.map (fun c => if mine c.crew then { c with dest := none } else c),
                    loads := s.loads.map (fun l => if l.crew.any mine then { l with crew := none, dest := none } else l) }
  let s := mapTokens s (fun _ _ t => { t with recalls := t.recalls.filter (fun r => !mine r.crew) })
  let s := updCluster s x (fun c => { c with walkers := c.walkers.map (fun w => if w.2.ts = ts then (w.1, { w.2 with flag := none }) else w),
                                             waves := c.waves.filter (fun w => w.ts != ts),
                                             leaseq := c.leaseq.filter (fun q => match q with | .handle t _ => t != ts | .request t _ _ => t != ts | .mma _ => true),
                                             engines := c.engines.map (fun e => match e.hold with
                                               | .lease t _ => if t = ts then { e with hold := .free } else e
                                               | _ => e) })
  dropWaiters s (fun w => mine w.crew)

/-- Everything a killed team left unreleased (R262 step 6). -/
def killLogOf (s : State) (x ts : Nat) (t : Team) : DriverEvent :=
  let mine := teamIds x ts t
  let toks := (allTokens s).filter (fun e => mine.contains e.2.2.owner)
  let shs := (allShares s).filter (fun e => mine.contains e.2.2.holder)
  .killLog t.ctx t.gid t.teamno
    (toks.map (fun e => tokenReport e.1 e.2.1 e.2.2 4 0 0)
      ++ shs.filterMap (fun e => (tokenAt s e.1 e.2.2.tok).map (fun k => shareReport e.1 k e.2.2 4 0 0)))
    (((clusterOf s x).l1.filter (fun e => e.lock == some ts)).map (·.key)) (t.leases.map (fun l => (l.1, l.2.engine)))
    (((s.die0.waiters ++ s.die1.waiters).filter (fun w => w.crew.cl == x && w.crew.ts == ts)).map (fun w => (w.queue, w.crew.cr, w.slot)))
    ((s.ops.filter (fun o => opOfTeam x ts t o.2 && o.2.detached)).map (fun o => (o.2.kind, o.2.crew.cr, o.2.block)))

/-- Unlock the team's L1 lines. -/
def unlockTeam (s : State) (x ts : Nat) : State :=
  updCluster s x (fun c => { c with l1 := c.l1.map (fun e => if e.lock = some ts then { e with lock := none } else e) })

/-- Is the exit of the team due: retired, or killed with its children gone and its operations stopped (R261, R262)? -/
def exitDue (s : State) (x ts : Nat) (t : Team) : Bool :=
  (t.killed || (teamFinished t && t.banksDone && !t.saved))
    && (childrenOf s x ts t).isEmpty && !s.ops.any (fun o => opOfTeam x ts t o.2 && !o.2.detached)

/-- Steps 2 to 7 of R262. -/
def exitTeam (s : State) (x ts : Nat) (t : Team) : State :=
  let mine := teamIds x ts t
  let log := killLogOf s x ts t
  let s := unlockTeam s x ts
  let s := (List.range t.crews.length).foldl (fun s i => (List.range 16).foldl (fun s id =>
    abandon s { cl := x, ts := ts, cr := i } (atBar id)) s) s
  let s := updTeam s x ts (fun t => { t with bars := [] })
  let s := if (clusterOf s x).fenced then s else passEntries s t.ctx t.gid mine
  let s := if t.banksDone then s else freeTeamBanks s x ts
  let s := if t.killed then emit s log else s
  let s := forgetTeam s x ts
  let w := writeDirectory s x ts t false
  let s := updCluster w.1 x (fun c => { c with teams := del c.teams ts })
  let s := { s with ctxs := s.ctxs.map (fun k =>
    (k.1, { k.2 with retired := k.2.retired.filter (fun e => e.2.1 != teamHolder t.ctx t.gid x ts) })) }
  let s := updGrid s t.ctx t.gid (fun g => { g with unfinished := g.unfinished - 1 })
  if w.2.isNone then s
  else
    let live := match gridOf s t.ctx t.gid with | some g => decide (0 < g.unfinished) && !g.killed | none => false
    let s' := if live then directoryKill s x ts t false else emit s (.directory t.ctx t.gid (directoryEntry t false))
    s'

/-- TEAM_EXIT (R262). -/
def execTeamExit (x ts : Nat) (s : State) : Out :=
  match teamOf s x ts with
  | none => .next s
  | some t => if exitDue s x ts t then .next (exitTeam s x ts t) else .next s

/-! Grid retirement and kill (R135, R263). -/

/-- A token becomes ORPHAN, with its report; operations that hold it jointly stop (R199, R288). -/
def orphanToken (s : State) (d i : Nat) (t : Token) (cause cl dev : Nat) : State :=
  let t' := { t with state := .orphan }
  let s := emit (setToken s d i t') (.tokenReport (tokenReport d i t' cause cl dev))
  let mine (h : Nat × Nat) : Bool := h.1 == d && (h.2 == i || (sharesOf s d i).any (fun e => e.1 == h.2))
  { s with ops := s.ops.map (fun o =>
      if o.2.holds.any mine then (o.1, { o.2 with halt := if o.2.halt = 0 then 0x34 else o.2.halt, lost := o.2.lost ++ [(t.base, t.len)] })
      else o) }

/-- Orphan the tokens that a lost holder owns or shares, or that satisfy `q`. -/
def orphanWhere (s : State) (p : W64 → Bool) (q : Token → Bool) (cause cl dev : Nat) : State :=
  ((allTokens s).filter (fun e => !isBad e.2.2 && (p e.2.2.owner || q e.2.2
    || (sharesOf s e.1 e.2.1).any (fun h => p h.2.holder)))).foldl (fun s e => orphanToken s e.1 e.2.1 e.2.2 cause cl dev) s

/-- Release every entry held at GRID span (R263). -/
def releaseGrid (s : State) (ctx gid : Nat) : State :=
  let g := gridHolder ctx gid
  let sh := (allShares s).filter (fun e => e.2.2.holder == g && (match tokenAt s e.1 e.2.2.tok with | some t => !isBad t | none => true))
  let s := sh.foldl (fun s e => dropShare s e.1 e.2.1 e.2.2) s
  let own := (allTokens s).filter (fun e => e.2.2.owner == g && !isBad e.2.2)
  own.foldl (fun s e =>
    if e.2.2.chain.isEmpty then orphanToken s e.1 e.2.1 e.2.2 5 0 0 else giveBack s e.1 e.2.1 e.2.2) s

/-- The LWAITs of the launching team that wait for the child learn of its end (R136). -/
def learnChild (s : State) (ctx gid : Nat) (l : Launcher) (v : Nat) : State :=
  updTeam s l.crew.cl l.crew.ts (fun t =>
    if teamHolder t.ctx t.gid l.crew.cl l.crew.ts = l.team then
      { t with crews := t.crews.map (fun c => if c.ctx = ctx then { c with batches := c.batches.map (lwaitLearn gid v) } else c) }
    else t)

/-- Has the last team retired, and are the peer stores acknowledged that the retirement's release waits for (R263, R400)? -/
def retireDue (s : State) (g : Grid) : Bool := g.unfinished == 0 && !unacked s

/-- GRID_RETIRE: the last team has retired (R135, R263). -/
def execGridRetire (ctx gid : Nat) (s : State) : Out :=
  match gridOf s ctx gid with
  | none => .next s
  | some g =>
    if !retireDue s g then .next s
    else
      let s := (s.clusters.filter (fun c => g.cmask.getLsbD c.1)).foldl (fun s c => releaseAt s c.1 7) s
      let s := releaseGrid s ctx gid
      let s := { s with grids := s.grids.filter (fun x => !(x.ctx == ctx && x.gid == gid)) }
      let s := match g.parent with
        | some p => updGrid s p.1 p.2 (fun x => { x with children := x.children - 1 })
        | none => s
      match g.launcher with
      | none => .next s
      | some l =>
        let s := updCtx s ctx (fun k => { k with retired := k.retired ++ [(gid, l.team, g.killed)] })
        let s := learnChild s ctx gid l (bNat g.killed)
        .next (oweFall s l.crew l.flag 7)

/-- The teams of a grid: cluster, slot. -/
def teamsOf (s : State) (ctx gid : Nat) : List (Nat × Nat × Team) :=
  s.clusters.flatMap (fun c => (c.2.teams.filter (fun t => t.2.ctx == ctx && t.2.gid == gid)).map (fun t => (c.1, t.1, t.2)))

/-- Kill one team (R262 step 1): its crews stop and its ATTACHED operations abort. -/
def killTeam (s : State) (x ts : Nat) (t : Team) : State :=
  let s := { s with ops := (s.ops.filter (fun o => !(opOfTeam x ts t o.2 && decide (o.2.phase = .held)))).map (fun o =>
    if opOfTeam x ts t o.2 && !o.2.detached then (o.1, { o.2 with halt := if o.2.halt = 0 then 0x36 else o.2.halt })
    else if opOfTeam x ts t o.2 && decide (o.2.phase = .saved) then (o.1, { o.2 with phase := .queued }) else o) }
  updTeam s x ts (fun t => { t with killed := true })

def killDue (s : State) (g : Grid) : Bool :=
  g.killed && (decide (g.nextTeam < g.teams) || (teamsOf s g.ctx g.gid).any (fun t => !t.2.2.killed))

/-- GRID_KILL: every team of a killed grid is killed, its pending teams are given up, and the waiters of its barrier are
released (R139, R263). -/
def execGridKill (ctx gid : Nat) (s : State) : Out :=
  match gridOf s ctx gid with
  | none => .next s
  | some g =>
    if !g.killed then .next s
    else
      let l := teamsOf s ctx gid
      let s := l.foldl (fun s t => (List.range t.2.2.crews.length).foldl (fun s i =>
        abandon s { cl := t.1, ts := t.2.1, cr := i } atGbar) s) s
      let s := l.foldl (fun s t => killTeam s t.1 t.2.1 t.2.2) s
      .next (updGrid s ctx gid (fun g => { g with nextTeam := g.teams, unfinished := g.unfinished - (g.teams - g.nextTeam) }))

/-! Clusters (R264). -/

/-- CLUSTER_FENCE: the resident teams stop and their ATTACHED operations abort, their tokens become ORPHAN, the dirty lines
are lost, their grids are killed (R264, R288). -/
def execClusterFence (x : Nat) (s : State) : Out :=
  if 192 ≤ x || (clusterOf s x).fenced then .next s
  else
    let l := (clusterOf s x).teams
    let mine := l.flatMap (fun t => teamIds x t.1 t.2)
    let s := updCluster s x (fun c => { c with fenced := true, l1 := [] })
    let s := { s with ops := s.ops.map (fun o =>
      if o.2.crew.cl == x && !o.2.orphaned && !o.2.detached && o.2.halt == 0 then (o.1, { o.2 with halt := 0x36 }) else o) }
    let s := orphanWhere s (fun h => mine.contains h) (fun _ => false) 1 x 0
    let s := l.foldl (fun s t => killTree s t.2.ctx t.2.gid) s
    .next (emit s (.clusterFenced x))

/-- CLUSTER_REINSTATE: the cluster takes teams again (R259, R264). -/
def execClusterReinstate (x : Nat) (s : State) : Out :=
  if 192 ≤ x then .next s else .next (placeAll (updCluster s x (fun c => { c with fenced := false })) maxTeams)

end Sys2Proof.Machine
end

