-- ==== Sys2Proof/Machine/Sched.lean ====
section
/-! DEFINITION. Issue: which batch a crew takes, which crew a scheduler takes, the beginning of a clause, and the events
that end a crew's waits (R16, R36-R41, R99, R123-R124, R137-R138, R265-R276, R364-R369). -/

namespace Sys2Proof.Machine

/-! Batches and crews. -/

/-- May a wait of the batch end: while the crew is in its handler those of its other batches end too, which then stand ready (R265,
R277, R356), but for a REP sequence, whose fields the trap holds (R364)? -/
def mayEnd (c : Crew) (b : Batch) : Bool := mayAct c b || (c.trap.isSome && !b.handler && !b.rep)

/-- Ready at its word or header; a RECALL whose flag count has fallen goes on with its word, as does an operation on the L1 whose turn
has come (R308). -/
def isReady (b : Batch) : Bool := match b.wait with | .none => true | .recalling _ again => again | .l1Held _ again => again | _ => false

/-- An open REP sequence keeps the crew's other batches from issuing unless it is held on a ticket (R18, R367). -/
def repBars (c : Crew) : Bool :=
  decide (0 < repLeft c.stat)
    && !c.batches.any (fun x => inSeq c.trap.isSome x && (match x.wait with | .ticket _ _ => true | _ => false))

/-- The earlier of two batches: one whose clause has begun (R41), then by R265 ready-since, the place, the lowest slot. -/
def batchLt (x y : Nat × Batch) : Bool :=
  let k (b : Batch) : Nat × Nat × Nat := (b.readySince, batchPc b, (lowSlot b.mask).getD 32)
  let a := k x.2
  let b := k y.2
  if x.2.begun != y.2.begun then x.2.begun
  else decide (a.1 < b.1) || (a.1 == b.1 && (decide (a.2.1 < b.2.1) || (a.2.1 == b.2.1 && decide (a.2.2 < b.2.2))))

/-- The crew's batches with their places. -/
def placed (c : Crew) : List (Nat × Batch) := (List.range c.batches.length).zip c.batches

/-- The batch that the crew issues next: one of its open REP sequence, else that of its open clause, else by R265 the first
of the ready ones. -/
def nextBatch (c : Crew) : Option (Nat × Batch) :=
  let l := (placed c).filter (fun e => isReady e.2 && mayAct c e.2)
  if repBars c then leastBy batchLt (l.filter (fun e => inSeq c.trap.isSome e.2))
  else match c.cur with
    | some m => l.find? (fun e => e.2.mask.getLsbD m && e.2.begun)
    | none => leastBy batchLt l

/-- A crew that issues at all: not while its context is restored (R376). -/
def crewRuns (s : State) (t : Team) (c : Crew) : Bool :=
  t.started && !t.killed && !t.saved && !c.stopped && (match gridOf s t.ctx t.gid with | some g => !g.killed | none => false)
    && (match ctxOf s t.ctx with | some x => decide (x.phase ≠ .saved) | none => true)

/-! The throttle (R270-R272). -/

/-- The crews of a cluster: slot, number, team, crew. -/
def crewList (c : Cluster) : List (Nat × Nat × Team × Crew) :=
  c.teams.flatMap (fun t => (List.zip (List.range t.2.crews.length) t.2.crews).map (fun w => (t.1, w.1, t.2, w.2)))

/-- Crews in the memory set. -/
def memCount (c : Cluster) : Nat := ((crewList c).filter (fun w => w.2.2.2.mem)).length

/-- The cluster's other crews that wait for admission, with the cycles since which they do. -/
def memWaiters (c : Cluster) (w : Crew) : List Nat :=
  (crewList c).filterMap (fun x => if x.2.2.2.pos = w.pos then none else x.2.2.2.memWait)

/-- A crew that has begun 64 memory clauses in a row leaves the set when another waits to join (R271). -/
def memYield (c : Cluster) (w : Crew) : Crew := if w.mem && decide (64 ≤ w.memRow) && !(memWaiters c w).isEmpty then leaveMem w else w

/-- A crew that stands ready at a memory clause (R271): it joins the set where there is room, those that have waited longer
first (log 49), or it waits. -/
def memJoin (cycle : Nat) (c : Cluster) (w : Crew) : Crew :=
  let since := w.memWait.getD cycle
  let before := (memWaiters c w).filter (fun t => decide (t < since) || (w.memWait.isNone && t == since))
  if w.mem then { w with memWait := none }
  else if memCount c + before.length < c.win then { w with mem := true, memRow := 0, memWait := none }
  else { w with memWait := some since }

def epochDue (s : State) (c : Cluster) : Bool := !c.teams.isEmpty && decide (c.epoch < s.cycle / 1024)

/-- THROTTLE_EPOCH_END (R270, R272). -/
def execThrottleEpochEnd (x : Nat) (s : State) : Out :=
  if !epochDue s (clusterOf s x) then .next s
  else .next (updCluster s x (endEpochs s.cycle))

def bypassDue (s : State) (c : Crew) : Bool := match c.memWait with | some w => decide (w + 1024 ≤ s.cycle) | none => false

/-- THROTTLE_BYPASS_ADMIT: a memory clause of the crew that `issue` names has waited 1,024 cycles (R271). -/
def execThrottleBypassAdmit (s : State) : Out :=
  match s.issue with
  | none => .next s
  | some i =>
    match crewOf s i.crew with
    | none => .next s
    | some c =>
      if !bypassDue s c then .next s
      else .next (updCrew s i.crew (fun c => { c with mem := true, memWait := none, memRow := 0 }))

/-! Beginning a clause (R36-R45, R265). -/

/-- Does a batch join another that begins the clause at its header (R265)? -/
def joinsAt (b x : Batch) : Bool := !x.begun && isReady x && x.header == b.header && x.handler == b.handler

/-- The crew with every ready batch at the header of batch `bi` joined to it, now last. -/
def joinReady (c : Crew) (b : Batch) : Crew :=
  let rest := c.batches.filter (fun x => !joinsAt b x)
  let m := (c.batches.filter (joinsAt b)).foldl (fun m x => m ||| x.mask) b.mask
  { c with batches := rest ++ [{ b with mask := m }] }

/-- A fault at a header, for every fibre of the batch (R36, R43, R45). -/
def headerFault (s : State) (a : At) (k : FKind) : State :=
  let l := a.slots.map (fun i => (i, { fault k with width := 8, acc := 1, fetch := true, addr := a.b.header, va := a.b.header,
                                                    pc := a.b.header, needEx := true }))
  if k = .notPresent then updCrew (parkFibres s a l) a.ref (fun c => dropEmpty c a.bi)
  else raiseTrap s a l a.b.mask [] a.b.header true

/-- The batch's clause has begun. -/
def openClause (h : W64) (bi : Nat) (c : Crew) : Crew :=
  { c with batches := modAt c.batches bi (fun b =>
             { b with hdr := h, begun := true, stale := false, yields := b.begun && b.yields,
                       wait := if b.begun then b.wait else .none }),
           cur := ((c.batches[bi]?).bind (fun b => lowSlot b.mask)) }

/-- The clause begins for a batch whose header has passed its checks (R268, R271). Leaving the header's wait is an acquire
(R38, R123). A memory clause was admitted by the throttle when the scheduler found the crew a candidate. -/
def beginClause (s : State) (a : At) (h : W64) : State :=
  let m := hdrWait h
  let s := if m = 0 then s else acquireAt s a.ref.cl (flagScopes a.crew m)
  updCrew s a.ref (fun c => openClause h a.bi
    { (if tb (hdrPorts h) 1 then { c with memRow := c.memRow + 1 } else leaveMem c) with
      pass := c.pass + (1 + c.backoff) * (if a.urgent then 1 else 2), memWait := if tb (hdrPorts h) 1 then none else c.memWait })

/-- A header that no clause can begin at, whatever its flags (R36, R37). -/
def headerBad (h : W64) : Bool := hdrTag h != 0xA || hdrPorts h == 0 || hdrRsv h != 0

/-- CLAUSE_BEGIN: the batch that `issue` names reads its header and begins its clause, with every ready batch at that
header, or waits for the header's flags, and is not ready while it does (R38, R265); a batch that comes back into the middle
of a clause reads the header again for KC (R44). -/
def execClauseBegin (s : State) : Out :=
  match issuer s with
  | none => .next s
  | some a =>
    if !isReady a.b || (a.b.begun && !a.b.stale) then .next s
    else if a.b.header % 8 ≠ 0 then .next (headerFault s a .misaligned)
    else match fetch64 s a.ref.cl a.ctx a.b.header with
      | (s, .error k) => .next (headerFault s a k)
      | (s, .ok h) =>
        if headerBad h then .next (headerFault s a .illegal)
        else if a.b.begun then .next (updCrew s a.ref (openClause h a.bi))
        else if !flagsClear a.crew (hdrWait h) then
          .next (updCrew s a.ref (fun c => { c with batches := modAt c.batches a.bi (fun b => { b with wait := .flags (hdrWait h) }) }))
        else
          let s := updCrew s a.ref (fun c => joinReady c a.b)
          match atOf s a.ref (((crewOf s a.ref).map (fun c => c.batches.length - 1)).getD 0) with
          | none => .next s
          | some a => .next (beginClause s a h)

/-- Does a ready batch stand at a header whose flags are not clear? Then it is not ready (R265). -/
def flagsPend (s : State) (r : CrewRef) (c : Crew) (b : Batch) : Bool :=
  !b.begun && isReady b && b.header % 8 == 0 && (match (fetch64 s r.cl c.ctx b.header).2 with
    | .ok h => !headerBad h && !flagsClear c (hdrWait h)
    | .error _ => false)

/-! Ends of waits. -/

/-- RESULT_WRITE: the producers' results of the crew that `issue` names are written (R99). -/
def execResultWrite (s : State) : Out :=
  match s.issue with
  | none => .next s
  | some i => .next (settle s i.crew)

/-- A fall of flag `f` with its release's scope (R16, R123); batches that waited for a lower count look again. -/
def fallFlag (f scope : Nat) (c : Crew) : Crew :=
  if flagCount c f = 0 then c
  else
    let c := flagDown c f
    { c with flagScope := if flagCount c f = 0 then cWrite c.flagScope f (BitVec.ofNat 4 scope) else c.flagScope,
             batches := c.batches.map (fun b => match b.wait with
               | .flagFull => { b with wait := .none }
               | .recalling l _ => { b with wait := .recalling l true }
               | _ => b) }

/-- FLAG_COMPLETION: the oldest fall that the crew is owed (R16). -/
def execFlagCompletion (s : State) : Out :=
  match s.issue with
  | none => .next s
  | some i =>
    match crewOf s i.crew with
    | none => .next s
    | some c =>
      match c.falls with
      | [] => .next s
      | (f, sc) :: t => .next (updCrew s i.crew (fun c => fallFlag f sc { c with falls := t }))

/-- Does a draining batch's wait end: no pending bit of its fibres or of a k-register (R39)? Stores are accepted when they
issue. -/
def drained (c : Crew) (b : Batch) : Bool :=
  c.pend.all (fun p => match p.dst with | .g i _ => !b.mask.getLsbD i | .k _ => false | .gone => true)

/-- DRAIN_RELEASE (R39). -/
def execDrainRelease (s : State) : Out :=
  match issuer s with
  | none => .next s
  | some a =>
    if decide (a.b.wait = .drain) && drained a.crew a.b then
      .next (updCrew s a.ref (fun c => { c with batches := modAt c.batches a.bi (readyAt s.cycle) }))
    else .next s

/-- Has the wait of the batch ended that WAIT_END ends: flags, LWAIT, or a queue (R16, R123, R136, R192)? -/
def waitOver (a : At) : Bool :=
  match a.b.wait with
  | .flags m => flagsClear a.crew m
  | .lwait _ l => l.all (fun e => e.2.2.isSome)
  | .queue _ _ fs => fs.all (·.done.isSome)
  | _ => false

/-- WAIT_END: a WAIT goes on past its word, a header wait is ready, and LWAIT and a queue wait write their results and go on
(R123, R136, R192). Leaving a wait on flags is an acquire at their scope. -/
def execWaitEnd (s : State) : Out :=
  match issuer s with
  | none => .next s
  | some a =>
    if !waitOver a then .next s
    else match a.b.wait with
      | .flags m =>
        let s := if a.b.begun then acquireAt s a.ref.cl (flagScopes a.crew m) else s
        .next (keepCur s a.ref (fun s =>
          let s := wakeBatch s a
          if a.b.begun then updCrew s a.ref (fun c => advance s.cycle c a.bi) else s))
      | .lwait d l => .next (keepCur s a.ref (fun s => lwaitReport (wakeBatch s a) a d l))
      | .queue _ d fs => .next (keepCur s a.ref (fun s => queueNext (wakeBatch s a) a d true fs))
      | _ => .next (wakeBatch s a)

/-- SLEEP_EXPIRY (R124). -/
def execSleepExpiry (s : State) : Out :=
  match issuer s with
  | none => .next s
  | some a =>
    match a.b.wait with
    | .sleep w => if s.cycle < w then .next s
                  else .next (keepCur s a.ref (fun s => updCrew (wakeBatch s a) a.ref (fun c => advance s.cycle c a.bi)))
    | _ => .next s

def lossPrecDue (c : Crew) : Bool := c.prec.isNone && decide (16 ≤ c.losses)

/-- BANK_LOSS_PRECEDENCE: the crew that `issue` names has lost 16 bank conflicts in a row (R269). -/
def execBankLossPrecedence (s : State) : Out :=
  match s.issue with
  | none => .next s
  | some i =>
    match crewOf s i.crew with
    | none => .next s
    | some c => if lossPrecDue c then .next (updCrew s i.crew (fun c => { c with prec := some s.cycle })) else .next s

def waitPrecDue (s : State) (c : Crew) : Bool := c.cand && c.prec.isNone && decide (max c.candSince c.issuedAt + 1024 ≤ s.cycle)

/-- ISSUE_WAIT_PRECEDENCE: a candidate has not issued for 1,024 cycles (R269). -/
def execIssueWaitPrecedence (s : State) : Out :=
  match s.issue with
  | none => .next s
  | some i =>
    match crewOf s i.crew with
    | none => .next s
    | some c => if waitPrecDue s c then .next (updCrew s i.crew (fun c => { c with prec := some s.cycle })) else .next s

/-! Barriers (R137, R138, R253, R273, R276). -/

/-- The crews of a team that a set names, by number. -/
def namedCrews (t : Team) (m : W32) : List Nat := (List.range t.crews.length).filter (fun i => m.getLsbD i)

/-- Has every named crew of the barrier arrived? A crew with no LIVE fibre counts as arrived. -/
def barFull (t : Team) (o : BarObj) : Bool :=
  match o.set with
  | none => false
  | some m => (namedCrews t m).all (fun i => o.arrived.getLsbD i || (match t.crews[i]? with | some c => c.live == 0#32 | none => true))

/-- The batches of an opened barrier wait for their wave. -/
def waveWait (w : Waiting) : Waiting := match w with | .bar _ _ d => .wave d | .gbar d => .wave d | w => w
def toWave (p : Batch → Bool) (c : Crew) : Crew :=
  { c with batches := c.batches.map (fun b => if p b then { b with wait := waveWait b.wait } else b) }

/-- The predictor's mark after an opening (R273): the last to arrive, then the fewest words, then the higher number. -/
def predictMark (t : Team) (l : List Nat) : Nat :=
  let key (i : Nat) : Nat × Nat := match t.crews[i]? with | some c => (c.arrivedAt, c.issued) | none => (0, 0)
  let later (x y : Nat) : Bool :=
    let a := key x
    let b := key y
    decide (b.1 < a.1) || (a.1 == b.1 && (decide (a.2 < b.2) || (a.2 == b.2 && decide (y < x))))
  (leastBy later l).getD t.urgency.mark

/-- The team after an opening in which the crews of `l` arrived. -/
def afterOpening (t : Team) (l : List Nat) : Team :=
  let u := t.urgency
  { t with urgency := if u.expert || l.isEmpty then u else { u with mark := predictMark t l },
           crews := t.crews.map (fun c => { c with issued := 0 }) }

/-- Queue the crews of one team's opening on its cluster: openings of one cycle stand in rising team slot, and the first of an
empty queue is released at once (R276). -/
def queueWaves (s : State) (x ts : Nat) (l : List WaveItem) : State :=
  if l.isEmpty then s
  else updCluster s x (fun c =>
    let later (w : WaveItem) : Bool := w.opened == s.cycle && decide (ts < w.ts)
    { c with waveAt := if c.waves.isEmpty then s.cycle else c.waveAt,
             waves := c.waves.filter (fun w => !later w) ++ l ++ c.waves.filter later })

/-- BARRIER_OPEN (R137). -/
def execBarrierOpen (x ts id : Nat) (s : State) : Out :=
  match teamOf s x ts with
  | none => .next s
  | some t =>
    let o := barObj t id
    if !barFull t o || 16 ≤ id || t.saved then .next s
    else
      let l := (namedCrews t (o.set.getD 0#32)).filter (fun i => match t.crews[i]? with | some c => c.live != 0#32 | none => false)
      let s := updTeam s x ts (fun t => { afterOpening t l with bars := put t.bars id { arrived := 0#32, set := none, gen := (o.gen + 1) % 2 ^ 32 } })
      let s := l.foldl (fun s i => updCrew s { cl := x, ts := ts, cr := i } (toWave (atBar id))) s
      .next (queueWaves s x ts (l.map (fun i => { ts := ts, cr := i, grid := false, opened := s.cycle })))

/-- Has every crew of a started team arrived at the grid barrier? -/
def gridArrived (t : Team) : Bool := t.started && t.crews.all (fun c => c.live == 0#32 || allParked c atGbar)

def gbarFull (s : State) (g : Grid) : Bool :=
  let l := teamsOf s g.ctx g.gid
  g.coop && !g.killed && l.all (fun t => gridArrived t.2.2 && !t.2.2.saved) && l.any (fun t => t.2.2.crews.any (fun c => allParked c atGbar))

/-- Insert a team by its number. -/
def insTeam (t : Nat × Nat × Team) : List (Nat × Nat × Team) → List (Nat × Nat × Team)
  | [] => [t]
  | u :: r => if t.2.2.teamno < u.2.2.teamno then t :: u :: r else u :: insTeam t r

/-- GRID_BARRIER_OPEN (R138): each cluster queues its own crews, by team and crew number. -/
def execGridBarrierOpen (ctx gid : Nat) (s : State) : Out :=
  match gridOf s ctx gid with
  | none => .next s
  | some g =>
    if !gbarFull s g then .next s
    else
      let teams := (teamsOf s ctx gid).foldl (fun l t => insTeam t l) []
      let s := updGrid s ctx gid (fun g => { g with gen := g.gen + 1 })
      .next (teams.foldl (fun s t =>
        let l := (List.range t.2.2.crews.length).filter (fun i => match t.2.2.crews[i]? with | some c => c.live != 0#32 | none => false)
        let s := updTeam s t.1 t.2.1 (fun t => afterOpening t l)
        let s := l.foldl (fun s i => updCrew s { cl := t.1, ts := t.2.1, cr := i } (toWave atGbar)) s
        queueWaves s t.1 t.2.1 (l.map (fun i => { ts := t.2.1, cr := i, grid := true, opened := s.cycle }))) s)

def isWave (b : Batch) : Bool := match b.wait with | .wave _ => true | _ => false

/-- Release one crew: its acquire first, then d := 0 (R137, R138, R253). -/
def releaseWave (x : Nat) (s : State) (w : WaveItem) : State :=
  releaseBar s.cycle isWave (acquireAt s x (if w.grid then 5 else 2)) { cl := x, ts := w.ts, cr := w.cr } 0

def waveDue (s : State) (c : Cluster) : Bool := !c.waves.isEmpty && decide (c.waveAt ≤ s.cycle)

/-- BARRIER_WAVE_RELEASE: the next wave of a cluster, CSLOPE read at its start (R276, R415). -/
def execBarrierWaveRelease (x : Nat) (s : State) : Out :=
  let c := clusterOf s x
  if !waveDue s c then .next s
  else
    let n := slice c.cslope.toNat 8 8
    let l := if n = 0 then c.waves else c.waves.take n
    let s := l.foldl (releaseWave x) s
    .next (updCluster s x (fun c => { c with waves := c.waves.drop l.length, waveAt := c.waveAt + slice c.cslope.toNat 0 8 }))

/-! Traps and tickets (R364-R369). -/

/-- A fault inside the handler, which is no second trap (R240). -/
def handlerFault (c : Crew) : Option TrapWait := c.trapWait.find? (fun w => w.batch.handler)

def trapDue (c : Crew) : Bool := !c.trapWait.isEmpty && (c.trap.isNone || (handlerFault c).isSome)

/-- TRAP_ENTRY (R364, R365). -/
def execTrapEntry (s : State) : Out :=
  match s.issue with
  | none => .next s
  | some i =>
    match crewOf s i.crew with
    | none => .next s
    | some c =>
      match c.trap, handlerFault c with
      | none, _ => .next (enterTrap s i.crew)
      | some _, some w =>
        .next (fatalFault (updCrew s i.crew (fun c => { c with trapWait := c.trapWait.filter (fun x => !x.batch.handler) })) i.crew w.faults)
      | some _, none => .next s

/-- A batch that holds the ticket, or waits for an entry to close (R368). -/
def holdsTicket (t : Nat) (b : Batch) : Bool := match b.wait with | .ticket (some x) _ => x == t | _ => false
def awaitsEntry (b : Batch) : Bool := match b.wait with | .ticket none _ => true | _ => false

/-- The trap of a batch whose ticket is denied (R369). -/
def deniedTrap (t : Nat) (b : Batch) : TrapWait :=
  let fs := match b.wait with | .ticket _ l => l | _ => []
  { faults := fs.map (fun e => (e.1, { e.2 with pc := batchPc b, ticket := some t })), batch := { b with wait := .none }, moved := [],
    t := batchPc b, atHeader := !b.begun }

/-- The crew after an answer: denied batches trap, mapped ones and those that wait for an entry look again. -/
def answerCrew (cycle t : Nat) (denied : Bool) (c : Crew) : Crew :=
  let bad := if denied then c.batches.filter (holdsTicket t) else []
  let rest := if denied then c.batches.filter (fun b => !holdsTicket t b) else c.batches
  fixTicket { c with batches := rest.map (fun b => if holdsTicket t b || awaitsEntry b then readyAt cycle b else b),
                     trapWait := c.trapWait ++ bad.map (deniedTrap t) }

/-- PAGE_ANSWER: an answer for an open ticket closes its entry; any other is discarded (R368, R369). A batch of a saved
context issues its word again after the restore, or traps where the page is denied (R369). -/
def execPageAnswer (ticket : BitVec 16) (denied : Bool) (s : State) : Out :=
  let t := ticket.toNat
  match look s.pages (t % 512) with
  | none => .next s
  | some e =>
    if e.gen % 128 ≠ t / 512 then .next s
    else .next (mapCrews { s with pages := del s.pages (t % 512) } (fun _ c =>
      answerCrew s.cycle t denied c))

/-! What an issue takes of its scheduler (R266, R267, R269, R273, R414). -/

/-- What an issue takes of its scheduler: its port, the cycles for which it holds a datapath, and how many words it is; none
for the beginning of a clause. -/
structure WordUse where
  port : Option Nat
  cycles : Nat
  words : Nat
  deriving DecidableEq, Repr

/-- The datapaths of a port on scheduler `sch`, by their keys. -/
def pathsOf (sch port : Nat) : List Nat := if port = 3 then [5 * sch, 5 * sch + 1] else [5 * sch + 4 - port]
def freePath (c : Cluster) (cycle sch port : Nat) : Option Nat :=
  (pathsOf sch port).find? (fun k => decide ((look c.ports k).getD 0 ≤ cycle))
def portFree (c : Cluster) (cycle sch : Nat) (p : Option Nat) : Bool :=
  match p with | none => true | some p => (freePath c cycle sch p).isSome

/-- The datapath that a word takes is in use until its last slot group has passed. -/
def takePort (cycle sch : Nat) (u : WordUse) (c : Cluster) : Cluster :=
  match u.port.bind (freePath c cycle sch) with
  | none => c
  | some k => { c with ports := put c.ports k (cycle + u.cycles) }

/-- The point whose cap a rail is under: at rest its own; on its way the one nearer to 0.55 V of the two between which it is (R414). -/
def capPoint (c : Cluster) : Nat := if c.rail < c.railTo then c.rail + 1 else c.rail

/-- Cycles of each 8-cycle window in which a scheduler may issue, by the point whose cap holds (R414). -/
def railCap (point : Nat) : Nat := match point with | 0 => 8 | 1 => 8 | 2 => 6 | 3 => 4 | _ => 2

/-- The cycles of the window of `cycle` in which the scheduler has issued. -/
def spentIn (c : Cluster) (sch cycle : Nat) : List Nat := ((look c.spent sch).getD []).filter (fun t => t / 8 == cycle / 8)

/-- Has the scheduler issued in as many cycles of this window, before this one, as the rail allows (R414)? -/
def railHolds (c : Cluster) (sch cycle : Nat) : Bool :=
  decide (railCap (capPoint c) ≤ ((spentIn c sch cycle).filter (fun t => t != cycle)).length)

/-- The scheduler issues in this cycle. -/
def spend (sch cycle : Nat) (c : Cluster) : Cluster :=
  { c with spent := put c.spent sch ((spentIn c sch cycle).filter (fun t => t != cycle) ++ [cycle]) }

/-- Another crew of the scheduler has issued: those that YIELD put off may go on (R40, R125). -/
def endYield (r : CrewRef) (sch : Nat) (x : CrewRef) (c : Crew) : Crew :=
  if x == r || c.pos % 2 != sch || !(c.yields || c.batches.any (fun b => b.yields && !b.begun)) then c
  else { c with yields := false, batches := c.batches.map (fun b => if b.begun then b else { b with yields := false }) }

/-- A crew's word has issued: it holds its port, and the crew's waits for an issue begin anew (R266, R269, R273). -/
def countIssue (s : State) (r : CrewRef) (u : WordUse) : State :=
  match crewOf s r with
  | none => s
  | some c =>
    let s := updCluster s r.cl (fun k => spend (c.pos % 2) s.cycle (takePort s.cycle (c.pos % 2) u k))
    let s := updCluster s r.cl (fun k => { k with teams := k.teams.map (fun t => (t.1, mapTeamCrews r.cl t.1 (endYield r (c.pos % 2)) t.2)) })
    updCrew s r (fun c => { c with issued := c.issued + u.words, issuedAt := s.cycle, prec := none, losses := 0, yields := false })

end Sys2Proof.Machine
end

