-- ==== Sys2Proof/Machine/Tensor.lean ====
section
/-! DEFINITION. Operands of engine operations: bounding ranges and footprints (R198, R417), the engine's accesses at the home
and to PAD with the stop conditions they meet (R298, R332, R351), and element values (R66-R72). -/

namespace Sys2Proof.Machine

/-- An operand: its record, whether its addresses are PAD offsets, and the source format of a TLF tensor. -/
structure Opnd where
  r : ObjRec
  pad : Bool
  src : Nat
  deriving DecidableEq, Repr

/-! TLF tensors (R81, R84, R417). -/

/-- Largest term count of a format (R81). -/
def termMax (f : Nat) : Nat :=
  match f with | 2 => 5 | 3 => 6 | 4 => 3 | 5 => 2 | 6 => 2 | 7 => 4 | 8 => 2 | 9 => 1 | _ => 0

/-- The formats that a TLF header may name. -/
def isTlfSrc (f : Nat) : Bool := decide (2 ≤ f) && decide (f ≤ 9)

/-- The extent of a dimension, 1 at or above RANK. -/
def ObjRec.dim (r : ObjRec) (d : Nat) : Nat := if d < r.rank then r.extAt d else 1
def ObjRec.nb0 (r : ObjRec) : Nat := (r.dim 0 + 31) / 32
/-- Blocks of a TLF tensor. -/
def ObjRec.blocks (r : ObjRec) : Nat := r.nb0 * r.dim 1 * r.dim 2 * r.dim 3 * r.dim 4
def idxAt (idx : List Nat) (d : Nat) : Nat := (idx[d]?).getD 0
/-- The number of the block that holds an element (R84). -/
def ObjRec.blockNo (r : ObjRec) (idx : List Nat) : Nat :=
  idxAt idx 0 / 32 + r.nb0 * (idxAt idx 1 + r.dim 1 * (idxAt idx 2 + r.dim 2 * (idxAt idx 3 + r.dim 3 * idxAt idx 4)))
/-- Granules of a block with `t` term bytes. -/
def granulesOf (t : Nat) : Nat := (16 + t + 15) / 16
/-- Bytes of the payload area (R417). -/
def payload (r : ObjRec) (src : Nat) : Nat := 16 * granulesOf (32 * termMax src) * r.blocks

/-! Bounding ranges. -/

/-- What one index adds to the strided sum of R29. -/
def ObjRec.axis (r : ObjRec) (d i : Nat) : Int :=
  if r.layout = 2 && d = 0 then (i / 16 : Nat) * r.strAt 0 + ((i % 16 * r.unit : Nat) : Int)
  else if r.layout = 2 && d = 1 then (i / 16 : Nat) * r.strAt 1 + ((i % 16 * 16 * r.unit : Nat) : Int)
  else (i : Int) * r.strAt d

/-- The indices of [lo, hi] at which `axis` can be least or greatest: the ends, and the ends of their tiles. -/
def axisEnds (lo hi : Nat) : List Nat :=
  [lo, hi] ++ (if lo / 16 < hi / 16 then [lo / 16 * 16 + 15, hi / 16 * 16] else [])
    ++ (if lo / 16 + 1 < hi / 16 then [lo / 16 * 16 + 16, hi / 16 * 16 - 1] else [])

def minInt (l : List Int) : Int := (leastBy (fun a b => decide (a < b)) l).getD 0
def maxInt (l : List Int) : Int := (leastBy (fun a b => decide (b < a)) l).getD 0

/-- The least and the greatest strided sum over a box of corners `lo` and `hi`. -/
def ObjRec.extremes (r : ObjRec) (lo hi : List Nat) : Int × Int :=
  (List.range 5).foldl (fun (acc : Int × Int) d =>
    let v := (axisEnds (idxAt lo d) (idxAt hi d)).map (r.axis d)
    (acc.1 + minInt v, acc.2 + maxInt v)) (0, 0)

/-- A byte range: first and last byte. -/
structure Span where
  lo : Int
  hi : Int
  deriving DecidableEq, Repr

/-- The bounding ranges of a box of an operand: its lowest to its highest byte, for MXFP4 with the scales; a TLF operand
has its footprint, index and payload (R417). -/
def Opnd.spans (o : Opnd) (lo hi : List Nat) : List Span :=
  let r := o.r
  if r.fmt = fmtTlf then
    [{ lo := r.tlfidx, hi := r.tlfidx + 4 * r.blocks - 1 }, { lo := r.base, hi := r.base + payload r o.src - 1 }]
  else
    let x := r.extremes lo hi
    if r.fmt = fmtMx then
      let top := (List.range r.rank).foldl (fun (n : Int) d => n + ((r.extAt d : Int) - 1) * r.strAt d) 0
      [{ lo := r.base + x.1 / 2, hi := r.base + 16 * (((top + 2) / 2 + 15) / 16) + x.2 / 32 }]
    else if isNib r.fmt then [{ lo := r.base + (r.elemoff + x.1) / 2, hi := r.base + (r.elemoff + x.2) / 2 }]
    else [{ lo := r.base + x.1, hi := r.base + x.2 + r.unit - 1 }]

/-- One range over several. -/
def hull (l : List Span) : Span := { lo := minInt (l.map (·.lo)), hi := maxInt (l.map (·.hi)) }
def Span.meets (a b : Span) : Bool := decide (a.lo ≤ b.hi) && decide (b.lo ≤ a.hi)
def spansMeet (l m : List Span) : Bool := l.any (fun a => m.any a.meets)
def Span.va (a : Span) : Nat := wrapNat 64 a.lo
def Span.len (a : Span) : Nat := (a.hi - a.lo + 1).toNat
/-- Does a PAD range reach beyond PADSIZE? -/
def Span.outside (size : Nat) (a : Span) : Bool := decide (a.lo < 0) || decide ((size : Int) ≤ a.hi)

/-- Operands overlap in one space. -/
def opndsMeet (x : Opnd) (l : List Span) (y : Opnd) (m : List Span) : Bool := x.pad == y.pad && spansMeet l m

/-! Accesses at the home (R298), with the stop conditions of R332 and R351. -/

/-- A stop condition: code, FADDR, the malformed page-table entry that it met, and whether a write met it. -/
structure EErr where
  code : Nat
  addr : Nat
  pte : Option Nat
  wr : Bool
  deriving DecidableEq, Repr

def eerr (code addr : Nat) : EErr := { code := code, addr := addr, pte := none, wr := false }
def eFormat : EErr := eerr 0x33 0

/-- No condition yet: the holder of a location that the engine reads does not answer (R386, R401). Its unit waits. -/
def eQuiet (k : Nat) : EErr := eerr 0 k

/-- Would a read of the location have to be answered by a holder that does not answer? -/
def unanswered (s : State) (k : Nat) : Bool := quiet s k && (isPeer k || !homeHolds s (k / 64 * 64) 64)

/-- The engine condition of a fault that a peer's own tables answer (R399, log 31). -/
def refusedCode (k : FKind) : Nat :=
  match k with | .notPresent => 0x30 | .poison => 0x32 | .orphan => 0x34 | .unowned => 0x34 | .ownmode => 0x34 | .timeout => 0x35 | _ => 0x31
def refusedErr (k : FKind) (a : Nat) : EErr := eerr (refusedCode k) (if refusedCode k = 0x34 then 0 else a)

/-- Does the byte lie in a region whose entry, held jointly by the operation, has turned ORPHAN or POISON (R199)? -/
def heldBad (o : EngOp) (a : Nat) : Bool := o.lost.any (fun r => decide (r.1 ≤ a) && decide (a < r.1 + r.2))

/-- The location of byte `a` for an engine, and whether its line is poisoned. Only a COPY that names the group writes a
multicast window (R379, R380). -/
def engByte (s : State) (o : EngOp) (a : Nat) (write : Bool) : Except EErr (Nat × Bool) :=
  if 2 ^ 57 ≤ a then .error (eerr 0x31 a)
  else match translate s none (dieNo o.crew.cl) o.ctx a with
    | .error .absent => .error { eerr 0x30 a with wr := write }
    | .error (.bad p) => .error { eerr 0x31 a with pte := some p }
    | .error .late => .error (eerr 0x35 a)
    | .ok e =>
      if isWindow e && write && e.wr && o.kind == .copy && o.aux == slice e.pa 38 6 + 1 then
        (if heldBad o a then .error (eerr 0x34 0) else .ok (locOf e a, false))
      else if isWindow e || (!write && !e.rd) || (write && !e.wr) then .error (eerr 0x31 a)
      else if heldBad o a then .error (eerr 0x34 0)
      else if behindIsolated s (locOf e a) then .error (eerr 0x35 a)
      else match peerFault s (locOf e a) with
        | some f => .error (refusedErr f a)
        | none => if !write && unanswered s (locOf e a) then .error (eQuiet (locOf e a)) else .ok (locOf e a, poisoned s (locOf e a))

/-- Bytes [a, a + n) cut at 64-byte lines. -/
def linePieces (a n : Nat) : List (Nat × Nat) :=
  if n = 0 then [] else
  (List.range ((a + n - 1) / 64 - a / 64 + 1)).map (fun i =>
    let lo := max a ((a / 64 + i) * 64)
    (lo, min (a + n) ((a / 64 + i + 1) * 64) - lo))

/-- A read as the L2 sees it: its first byte and how many bytes of one 64-byte line; none for a read of the line, whose fill
brings a whole L2 line (R313). -/
abbrev Fetch := Nat × Nat
def Fetch.line (f : Fetch) : Nat := f.1 / 64 * 64

/-- What an engine has read: the bytes, the reads, and the lines that are poisoned, each with its virtual address. -/
structure Got where
  bytes : List Byte
  lines : List Fetch
  bad : List (Nat × Nat)
  deriving DecidableEq, Repr

def Got.none : Got := { bytes := [], lines := [], bad := [] }
/-- The reads of dense data are of whole lines. -/
def Got.dense (g : Got) : Got := { g with lines := g.lines.map (fun f => (f.line, 0)) }
def Got.app (x y : Got) : Got := { bytes := x.bytes ++ y.bytes, lines := x.lines ++ y.lines, bad := x.bad ++ y.bad }

/-- Read pieces in order; the first condition met ends the read. -/
def engPieces (s : State) (o : EngOp) : List (Nat × Nat) → Except EErr Got
  | [] => .ok Got.none
  | (a, n) :: t =>
    match engByte s o a false with
    | .error e => .error e
    | .ok (k, bad) =>
      match engPieces s o t with
      | .error e => .error e
      | .ok g => .ok (Got.app { bytes := homeBytes s k n, lines := [(k, n)], bad := if bad then [(k / 64 * 64, a)] else [] } g)

/-- Read `n` bytes of an operand. -/
def engRead (s : State) (o : EngOp) (pad : Bool) (a n : Nat) : Except EErr Got :=
  if pad then .ok { bytes := padBytes s o.crew.cl o.crew.ts a n, lines := [], bad := [] } else engPieces s o (linePieces a n)

/-- The L2 and the links see the reads of an engine, each once (R314); a read of a TLF block brings sectors only (R313). -/
def noteReads (s : State) (o : EngOp) (l : List Fetch) : State :=
  l.eraseDups.foldl (fun s f => (homeFetch s (dieNo o.crew.cl) f.1 (if f.2 = 0 then 64 else f.2) o.ctx false (f.2 == 0)).1) s

/-! Writes. A cell is a byte's place, the mask of its bits that are written, and their value. -/

structure Cell where
  key : Nat
  mask : Nat
  val : Nat
  deriving DecidableEq, Repr

/-- Cells of the bytes [a, a + ...) of a destination, or the condition that the write meets. -/
def engCells (s : State) (o : EngOp) (pad : Bool) (a : Nat) (l : List Byte) : Except EErr (List Cell) :=
  if pad then .ok ((List.range l.length).map (fun i => { key := a + i, mask := 255, val := (l.getD i 0#8).toNat }))
  else
    (linePieces a l.length).foldr (fun p acc =>
      match engByte s o p.1 true, acc with
      | .error e, _ => .error e
      | .ok _, .error e => .error e
      | .ok (k, _), .ok c => .ok ((List.range p.2).map (fun i => { key := k + i, mask := 255, val := (l.getD (p.1 + i - a) 0#8).toNat }) ++ c))
      (.ok [])

/-- The cell of a 4-bit element. -/
def engNibble (s : State) (o : EngOp) (pad : Bool) (a : Nat) (high : Bool) (v : Nat) : Except EErr (List Cell) :=
  match engCells s o pad a [BitVec.ofNat 8 (if high then v * 16 else v)] with
  | .error e => .error e
  | .ok l => .ok (l.map (fun c => { c with mask := if high then 0xF0 else 0x0F }))

/-- Cells by place, the later ones over the earlier: mask and value. -/
def mergeCells (l : List Cell) : List (Nat × Nat × Nat) :=
  l.foldl (fun m c =>
    let old := (look m c.key).getD (0, 0)
    put m c.key (old.1 ||| c.mask, (old.2 &&& (255 - c.mask)) ||| (c.val &&& c.mask))) []

/-- A byte under a cell. -/
def cellByte (old : Byte) (c : Nat × Nat) : Byte := BitVec.ofNat 8 ((old.toNat &&& (255 - c.1)) ||| c.2)

/-- A copy engine's write of a whole 128-byte line of local memory that its home L2 does not hold goes to memory without
allocating (R385). -/
def passesL2 (s : State) (line : Nat) (m : List (Nat × Nat × Nat)) : Bool :=
  decide (line < 2 ^ 50) && (m.filter (fun c => c.1 / 128 == line / 128 && c.2.1 == 255)).length == 128
    && !(dieOf s (homeDie line 0)).l2.any (fun e => e.key == line / 128 * 128)

/-- Write the cells of one line at the home, past the local L2 copies of peer memory (R298): whole when all its bytes are written (R166, R345), else run by run. `tlf`: the L2
allocates only the sectors written (R313). -/
def writeLine (s : State) (die ctx : Nat) (copy tlf : Bool) (line : Nat) (m : List (Nat × Nat × Nat)) : State :=
  let cells := m.filter (fun c => c.1 / 64 * 64 == line)
  let byte (i : Nat) : Byte := match look cells (line + i) with | some c => cellByte (homeByte s (line + i)) c | none => 0#8
  let used : W64 := cells.foldl (fun w c => w ||| (1#64 <<< (c.1 % 64))) 0#64
  let bytes (r : Nat × Nat) : List Byte := (List.range r.2).map (fun i => byte (r.1 + i))
  let past := copy && passesL2 s line m
  let s' := (dirtyRuns used).foldl (fun s r =>
    if past then homePuts (unpoison s (line + r.1) r.2) (line + r.1) (bytes r)
    else homePast (unpoison s (line + r.1) r.2) die (line + r.1) ctx (bytes r) false (!tlf)) s
  if cells.length = 64 && cells.any (fun c => c.2.1 != 255) && poisoned s line then poisonLine s' line else s'

/-- Write cells at their homes. -/
def writeCells (s : State) (die ctx : Nat) (copy tlf : Bool) (l : List Cell) : State :=
  let m := mergeCells l
  (m.map (fun c => c.1 / 64 * 64)).eraseDups.foldl (fun s line => writeLine s die ctx copy tlf line m) s

/-- Write the cells of a destination, which may be in TLF. -/
def engCommit (s : State) (o : EngOp) (pad tlf : Bool) (l : List Cell) : State :=
  if pad then
    (mergeCells l).foldl (fun s c => padWrite s o.crew.cl o.crew.ts c.1
      [cellByte ((padBytes s o.crew.cl o.crew.ts c.1 1).headD 0#8) c.2]) s
  else writeCells s (dieNo o.crew.cl) o.ctx (o.kind == .copy || o.kind == .gxfer) tlf l

/-! Element values (R66-R72). -/

/-- The exact value of a code under a scale byte, with INT4RSV. -/
def codeVal (fmt x scale : Nat) : FVal × Nat :=
  match fmt with
  | 1 => (fpVal fp32 x, 0)
  | 2 => (fpVal bf16 x, 0)
  | 3 => (fpVal fp16 x, 0)
  | 4 => (fpVal e4m3 x, 0)
  | 5 => (fpVal e5m2 x, 0)
  | 6 =>
    if scale = 255 then (.nan, 0)
    else match fpVal e2m1 x with
      | .fin n m e => (.fin n m (e + ((scale : Int) - 127)), 0)
      | v => (v, 0)
  | 7 => (ofInt (sext 8 x), 0)
  | 8 => if x % 16 = 8 then (ofInt 0, stInt4Rsv) else (ofInt (sext 4 x), 0)
  | 9 => (l6Val x, 0)
  | _ => (ofInt (sext 32 x), 0)

/-- An element as it stands: its code, the scale byte of its MX block, and what was read. -/
structure Elem where
  code : Nat
  scale : Nat
  got : Got
  deriving DecidableEq, Repr

/-- Read one element of a dense operand: its bytes, then its scale. -/
def engElem (s : State) (o : EngOp) (x : Opnd) (idx : List Nat) : Except EErr Elem :=
  let p := x.r.addr idx
  match engRead s o x.pad p.1 (max (fmtBits x.r.fmt / 8) 1) with
  | .error e => .error e
  | .ok g =>
    let v := leNat g.bytes
    let c := if isNib x.r.fmt then (if p.2 then v / 16 else v % 16) else v
    if x.r.fmt = fmtMx then
      match engRead s o x.pad (x.r.scaleAddr idx) 1 with
      | .error e => .error e
      | .ok q => .ok { code := c, scale := leNat q.bytes, got := (Got.app g q).dense }
    else .ok { code := c, scale := 0, got := g.dense }

end Sys2Proof.Machine
end

