-- ==== Sys2Proof/Machine/Terms.lean ====
section
/-! DEFINITION. Term lists and TLF blocks (R80-R86), block sums and Screed sums (R87-R89, R230, R354), conversions between
formats (R77-R79). -/

namespace Sys2Proof.Machine

/-! Terms (R80). -/

/-- The non-zero digits of the non-adjacent form, least significant first: negative, place. -/
def nafDigits : Nat → Nat → Nat → List (Bool × Nat)
  | 0, _, _ => []
  | n + 1, m, j =>
    if m = 0 then []
    else if m % 4 = 1 then (false, j) :: nafDigits n (m / 2) (j + 1)
    else if m % 4 = 3 then (true, j) :: nafDigits n (m / 2 + 1) (j + 1)
    else nafDigits n (m / 2) (j + 1)

/-- A term: negative, exponent, and for L6 the place of its constant. -/
structure Term where
  neg : Bool
  exp : Int
  f : Nat
  deriving DecidableEq, Repr

/-- Terms of a value, most significant first. -/
def termsOf (x : FVal) : List Term :=
  match x with
  | .fin neg m e => ((nafDigits (m.log2 + 2) m 0).map (fun d => { neg := neg != d.1, exp := e + d.2, f := 0 })).reverse
  | _ => []

/-- Terms of an element of a format: an L6 element is one term. -/
def elemTerms (fmt code : Nat) (x : FVal) : List Term :=
  if fmt = fmtL6 then
    (if code % 64 = 0x20 then [] else [{ neg := tb code 5, exp := (slice code 2 3 : Int) - 4, f := code % 4 }])
  else termsOf x

/-- Term count of an A element (R322). -/
def termCount (fmt code : Nat) (x : FVal) : Nat := (elemTerms fmt code x).length

/-! TLF blocks (R82-R86). -/

def isSpecial (x : FVal) : Bool := match x with | .nan => true | .inf _ => true | .fin _ _ _ => false

/-- A decoded block: NaN block, values and counts. -/
structure TlfBlock where
  nan : Bool
  vals : List FVal
  counts : List Nat
  deriving DecidableEq, Repr

def TlfBlock.zero : TlfBlock := { nan := false, vals := List.replicate 32 (.fin false 0 0), counts := List.replicate 32 0 }

def tlfTotal (h : List Byte) : Nat := leAt h 12 2
def tlfCounts (h : List Byte) : List Nat := (List.range 32).map (fun j => slice (leAt h 0 12) (3 * j) 3)
def tlfGranules (h : List Byte) : Nat := if tlfTotal h = 0xFFFF then 1 else granulesOf (tlfTotal h)

/-- The value and the offset of a term byte. -/
def tlfTerm (fmt top b : Nat) : FVal × Nat :=
  if fmt = fmtL6 then
    let o := slice b 2 5
    (.fin (tb b 7) (l6Const (b % 4)) ((top : Int) - 140 - o), o)
  else (.fin (tb b 7) 1 ((top : Int) - 124 - (b % 128 : Nat)), b % 128)

/-- One element's value from its term bytes; none when the offsets do not rise by 2 (R86). -/
def tlfElem (fmt top : Nat) : List Nat → Option Nat → Option FVal
  | [], _ => some (.fin false 0 0)
  | b :: t, last =>
    let x := tlfTerm fmt top b
    if (match last with | none => false | some o => decide (x.2 < o + 2)) then none
    else (tlfElem fmt top t (some x.2)).map (fun v => (fAdd x.1 v).1)

/-- Split term bytes by counts. -/
def tlfSplit : List Nat → List Nat → List (List Nat)
  | [], _ => []
  | c :: t, l => l.take c :: tlfSplit t (l.drop c)

/-- The checks of R86 on a header but for the place of the block; `valid`: elements of the block inside EXT0. -/
def tlfHeaderBad (h : List Byte) (fmt valid : Nat) : Bool :=
  let top := leAt h 14 1
  let total := tlfTotal h
  let counts := tlfCounts h
  let empty := total == 0 || total == 0xFFFF
  leAt h 15 1 != fmt || counts.any (fun c => c == 7 || decide (termMax fmt < c)) || (counts.drop valid).any (· != 0)
    || (total != counts.sum && total != 0xFFFF) || (top == 0 && !(total == 0 || (total == 0xFFFF && counts.sum == 0)))
    || (top != 0 && empty)

/-- Decode a block whose header is good, from its term bytes. -/
def tlfDecode (h : List Byte) (fmt : Nat) (body : List Nat) : Option TlfBlock :=
  if tlfTotal h = 0xFFFF then some { nan := true, vals := List.replicate 32 .nan, counts := List.replicate 32 0 }
  else
    let els := (tlfSplit (tlfCounts h) body).map (fun l => tlfElem fmt (leAt h 14 1) l none)
    if els.any (·.isNone) then none
    else some { nan := false, vals := els.map (fun v => v.getD .nan), counts := tlfCounts h }

/-- A rounded block: its bytes, padded to granules, its sticky bits, and the elements that CLIP rounded. -/
structure TlfOut where
  bytes : List Byte
  sticky : Nat
  clipped : Nat
  deriving DecidableEq, Repr

/-- Terms of an element against TOP; those that reach below 2^(TOP - 251) are rounded first (R85). -/
def clipTerms (fmt : Nat) (mode : RMode) (top : Nat) (code : Nat) (x : FVal) (dith : Nat) : List Term × Bool :=
  let l := elemTerms fmt code x
  let q : Int := (top : Int) - 251
  if l.all (fun t => decide (q ≤ t.exp)) then (l, false)
  else match x with
    | .fin n m e =>
      let r := (roundInt mode dith n m (e - q)).1
      (termsOf (.fin (decide (r < 0)) r.natAbs q), true)
    | _ => (l, false)

/-- Encode one block of elements of a source format: code, value, dither (R82-R85). Fewer than 32 leave zeros. -/
def tlfEncode (fmt : Nat) (mode : RMode) (l : List (Nat × FVal × Nat)) : TlfOut :=
  if l.any (fun e => isSpecial e.2.1) then
    { bytes := leBytes 16 (fmt * 2 ^ 120 + 0xFFFF * 2 ^ 96), sticky := stNv, clipped := 0 }
  else
    let raw := l.flatMap (fun e => (elemTerms fmt e.1 e.2.1).map (·.exp))
    let top := if raw.isEmpty then 0 else (max (maxInt raw + 124) 1).toNat
    let els := l.map (fun e => clipTerms fmt mode top e.1 e.2.1 e.2.2)
    let byte (t : Term) : Nat :=
      let o := ((top : Int) - 124 - t.exp).toNat
      (if t.neg then 128 else 0) + (if fmt = fmtL6 then o * 4 + t.f else o)
    let body := els.flatMap (fun e => e.1.map byte)
    let counts := ((List.range els.length).map (fun j => ((els[j]?).map (fun e => e.1.length)).getD 0 * 2 ^ (3 * j))).sum
    let clipped := (els.filter (·.2)).length
    { bytes := leBytes 16 (fmt * 2 ^ 120 + top * 2 ^ 112 + body.length * 2 ^ 96 + counts) ++ body.map (BitVec.ofNat 8 ·)
        ++ List.replicate (16 * granulesOf body.length - 16 - body.length) 0#8,
      sticky := if clipped = 0 then 0 else stClip ||| stNx, clipped := clipped }

/-! Sums. -/

/-- The finite, non-zero members of a multiset. -/
def nonZeros (l : List FVal) : List FVal := l.filter (fun x => !isZero x)

/-- The greatest ⌊log₂|p|⌋ of non-zero finite values. -/
def topLog (l : List FVal) : Int := maxInt (l.map (fun x => match x with | .fin _ m e => fLog m e | _ => 0))

/-- What special members make of a sum: NaN or an infinity. -/
def specialSum (l : List FVal) : Option FVal :=
  if l.any isNan then some .nan
  else
    let pos := l.any (fun x => x == .inf false)
    let neg := l.any (fun x => x == .inf true)
    if pos && neg then some .nan else if pos then some (.inf false) else if neg then some (.inf true) else none

/-- A value in units of 2^u: the signed number, truncated towards zero, and whether it changed. -/
def truncUnits (u : Int) (x : FVal) : Int × Bool :=
  match x with
  | .fin n m e =>
    let sg (k : Nat) : Int := if n then -(k : Int) else k
    if u ≤ e then (sg (shl m (e - u)), false)
    else
      let d := 2 ^ (u - e).toNat
      (sg (m / d), decide (m % d ≠ 0))
  | _ => (0, false)

/-- The same, rounded towards minus infinity. -/
def floorUnits (u : Int) (x : FVal) : Int × Bool :=
  let t := truncUnits u x
  (if t.2 && isNeg x then t.1 - 1 else t.1, t.2)

def sumUnits (f : FVal → Int × Bool) (l : List FVal) : Int × Bool :=
  l.foldl (fun acc x => let v := f x; (acc.1 + v.1, acc.2 || v.2)) (0, false)

/-- S × 2^u as a value. -/
def unitsVal (v u : Int) : FVal := .fin (decide (v < 0)) v.natAbs u

/-- BlockSum (R88): the FP32 code, or none for SKIP. -/
def blockSum (l : List FVal) : Option Nat :=
  match specialSum l with
  | some x => some (roundFp fp32 .rne 0 x).code
  | none =>
    let nz := nonZeros l
    if nz.isEmpty then none
    else
      let u := topLog nz - 62
      let sum := sumUnits (truncUnits u) nz
      if sum.1 = 0 then some 0
      else
        let x := floorMag fp32 sum.1.natAbs u
        if sum.2 && x.2.1 ≠ 0 && 2 * x.2.1 = x.2.2 && x.1 < fp32.maxc then some (signed fp32 (decide (sum.1 < 0)) (x.1 + 1))
        else some (roundFp fp32 .rne 0 (unitsVal sum.1 u)).code

/-- C after a K-block of a float pair (R87). -/
def accFloat (c : Nat) (l : List FVal) : Nat :=
  match blockSum l with
  | none => c
  | some b => (roundFp fp32 .rne 0 (fAdd (fpVal fp32 c) (fpVal fp32 b)).1).code

/-- An integer value; a negative exponent, which only a hand-made block can give, is dropped (R89, log 50). The product of a hand-made NaN
block is NaN (R83), of which the integer sum of R89 says nothing: it adds 0 and sets no bit, the model's choice (log 50). -/
def intOf (x : FVal) : Int := match x with | .fin n m e => (if n then -1 else 1) * (shl m e : Int) | _ => 0

/-- C after a K-block of an integer pair, with SAT (R89). -/
def accInt (c : Nat) (l : List FVal) : Nat × Nat :=
  let y := sext 32 c + (l.map intOf).foldl (· + ·) 0
  let z := max (-(2 ^ 31)) (min (2 ^ 31 - 1) y)
  (wrapNat 32 z, if z = y then 0 else stSat)

/-- The argument that ScreedSum hands to Round, and whether it is final (R230). -/
def screedArg (l : List FVal) : FVal :=
  match specialSum l with
  | some x => x
  | none =>
    let nz := nonZeros l
    if nz.isEmpty then .fin (!l.isEmpty && l.all isNeg) 0 0
    else
      let u := topLog nz - 122
      let sum := sumUnits (floorUnits u) nz
      if sum.1 = 0 && !sum.2 then .fin false 0 0
      else if sum.2 then unitsVal (2 * sum.1 + 1) (u - 1) else unitsVal sum.1 u

/-- The smallest normal magnitude of a format is 2^(1 - bias). -/
def belowNormal (t : FpFmt) (x : FVal) : Bool :=
  match x with | .fin _ m e => m != 0 && decide (fLog m e < 1 - (t.bias : Int)) | _ => false

/-- ScreedSum with the sticky bits of R354, judged against the exact sum. -/
def screedSum (t : FpFmt) (mode : RMode) (dith : Nat) (l : List FVal) : Rounded :=
  let r := roundFp t mode dith (screedArg l)
  if l.any isSpecial then r
  else
    let exact := l.foldl (fun acc x => (fAdd acc x).1) (.fin false 0 0)
    let nx := !fEq (fpVal t r.code) exact
    { r with sticky := (r.sticky &&& (stOf ||| stNv)) ||| (if nx then stNx else 0)
                         ||| (if nx && belowNormal t exact then stUf else 0) }

/-! Conversions (R78, R79). -/

def fpOf (fmt : Nat) : FpFmt := match fmt with | 1 => fp32 | 2 => bf16 | 3 => fp16 | 4 => e4m3 | _ => e5m2
def isIntFmt (f : Nat) : Bool := f == fmtInt8 || f == fmtInt4 || f == fmtInt32
/-- Width and range of an integer format. -/
def intBits (f : Nat) : Nat := if f = fmtInt8 then 8 else if f = fmtInt4 then 4 else 32
def intHi (f : Nat) : Int := 2 ^ (intBits f - 1) - 1
def intLo (f : Nat) : Int := if f = fmtInt4 then -7 else -(2 ^ (intBits f - 1))

/-- One element into a format other than MXFP4 and TLF; `ints`: the source is an integer source, whose element may be a NaN of a
TLF NaN block (R75, R83); one that saturates sets SAT and, since the result differs from it, NX (R77). -/
def convert (fmt : Nat) (ints : Bool) (mode : RMode) (dith : Nat) (x : FVal) : Rounded :=
  if isIntFmt fmt then
    if ints && !isNan x then
      let v := intOf x
      let z := max (intLo fmt) (min (intHi fmt) v)
      { code := wrapNat (intBits fmt) z, sticky := if z = v then 0 else stSat + stNx }
    else
      let r := toInt mode dith (intLo fmt) (intHi fmt) x
      { code := wrapNat (intBits fmt) r.1, sticky := r.2 }
  else if fmt = fmtL6 then roundL6 mode dith x
  else roundFp (fpOf fmt) mode dith x

end Sys2Proof.Machine
end

