-- ==== Sys2Proof/Machine/Engine.lean ====
section
/-! DEFINITION. Engine commands in general (R195-R205): the word's checks, the entries they rely on, the stalls, acceptance,
and the end of an operation. -/

namespace Sys2Proof.Machine

/-! The word (R195-R197). -/

/-- An ENG command as its word names it, for the issuing fibre. -/
structure EngCmd where
  kind : OpKind
  off : Nat
  stat : Nat
  aux : Nat
  fa : Option Nat
  fb : Option Nat
  slot : Nat
  deriving DecidableEq, Repr

/-- What a command that passed checks 1 to 3 asks for: the operation, its PAD ranges, its global operands with the accesses
they are checked for, and a multicast's receivers. -/
structure EngPlan where
  op : EngOp
  ranges : List PadRange
  globals : List (Span × List AccKind)
  receivers : List Nat
  bank : Nat
  /-- the multicast group whose window a COPY writes (R383) -/
  window : Option Nat
  deriving DecidableEq, Repr

/-- The checks of an ENG word: `src`: MCENSUS's source; `pair`: MBOUND's pair; flags that must be 15. -/
def engSpec (f : ENG) (src pair a15 b15 : Bool) : WordSpec :=
  { port := some 0, ct := false, gd := f.gd, plain := false, priv := false,
    legal := fun w => (if pair then f.st % 2 == 0 && decide (f.st + 1 < w) else decide (f.st < w))
      && (if src then decide (f.src < w) else f.src == 0)
      && (if a15 then f.fa == 15#4 else flagOk f.fa.toNat) && (if b15 then f.fb == 15#4 else flagOk f.fb.toNat) && !f.rsv,
    regs := (engReg f.st, if pair then 2 else 1) :: (if src then [(engReg f.src, 1)] else []) }

/-- An operation as its issue makes it. -/
def newOp (c : EngCmd) (a : At) (image : List Byte) (recs : List (List Byte)) : EngOp :=
  { kind := c.kind, phase := .held, ctx := a.ctx, gid := a.team.gid, crew := a.ref, orphaned := false, blockGone := false, block := c.off,
    image := image, recs := recs, fa := c.fa, fb := c.fb, dest := .g c.slot c.stat, detached := false, scope := 7,
    aux := c.aux, poison := 0, holds := [], engine := 0, lease := none, g := 2, d := 0, thermal := false, progress := [],
    tiles := [], nextTile := 0, groupFree := [], lastBegan := [], ended := 0, stops := [], halt := 0, lost := [], srcFreeDone := false, clipped := 0,
    sticky := 0, rows := 0, skipped := 0, kblocks := 0, before := 0, stalled := 0, driven := false, waits := none, stallNo := 0, work := [],
    firstKb := [], logged := [], kept := [], granule := 0, wseq := 0,
    sentTo := [], owed := [], refusals := [], fifoLeft := [], skippedRx := [], started := 0, msg := [], parts := [],
    result := none, failrank := 0 }

/-- The command of a held operation. -/
def heldCmd (o : EngOp) : EngCmd :=
  { kind := o.kind, off := o.block, stat := (match o.dest with | .g _ n => n | .k n => n | .gone => 0), aux := o.aux, fa := o.fa, fb := o.fb,
    slot := (match o.dest with | .g i _ => i | _ => 0) }

/-! Checks (R198). -/

/-- Check 1 for a block of `n` bytes, after the alignment of the ENG offset (R47). -/
def engBlock (s : State) (a : At) (off n : Nat) : Except FaultInfo (List Byte) :=
  if off % 16 ≠ 0 then .error (fault .misaligned)
  else if padSize a.team < off + n then .error (fault .bounds)
  else .ok (padBytes s a.ref.cl a.ref.ts off n)

/-- A record with its checks and rights (R31): read 0, write 1, engine 2, copy 3. -/
def engRec (s : State) (a : At) (idx : Nat) (realign : Bool) (need : List Nat) : State × Except FaultInfo (List Byte) :=
  match recRead s a.ref.cl a.ctx idx with
  | (s, .error e) => (s, .error (recFault (fault e.kind) e))
  | (s, .ok img) =>
    if recBad (recOf img) realign then (s, .error (fault .format))
    else if !rightsOk (recOf img) need then (s, .error (fault .protection))
    else (s, .ok img)

/-- Several records in order. -/
def engRecs (s : State) (a : At) (realign : Bool) : List (Nat × List Nat) → State × Except FaultInfo (List (List Byte))
  | [] => (s, .ok [])
  | (i, need) :: t =>
    match engRec s a i realign need with
    | (s, .error f) => (s, .error f)
    | (s, .ok img) =>
      match engRecs s a realign t with
      | (s, .error f) => (s, .error f)
      | (s, .ok l) => (s, .ok (img :: l))

/-- The worst token fault over [a, e) with the first byte that meets it (R165, R198). -/
def firstFault (s : State) (ctx : Nat) (ids : List W64) (k : AccKind) : Nat → Nat → Nat → Option (FKind × Nat × Nat)
  | 0, _, _ => none
  | n + 1, a, e =>
    if e ≤ a then none
    else
      let rest := firstFault s ctx ids k n (regionEnd s ctx a) e
      match tokenCheck s ctx ids a k, rest with
      | .ok _, r => r
      | .error f, none => some (f.1, f.2, a)
      | .error f, some g => if tokRank g.1 < tokRank f.1 then some g else some (f.1, f.2, a)

/-- The entry on which a passing check of byte `a` rests: the token, or the share (R199). -/
def reliedAt (s : State) (ctx : Nat) (ids : List W64) (k : AccKind) (a : Nat) : List (Nat × Nat) :=
  match coverOf s ctx a with
  | none => []
  | some (d, i, t) =>
    match ids.find? (fun id => (holds s d i t id k).2) with
    | none => []
    | some id =>
      if t.owner = id && ownerMay t.state k then [(d, i)]
      else ((sharesOf s d i).filter (fun e => e.2.holder == id && shareMay e.2.atomic k)).map (fun e => (d, e.1)) |>.take 1

def reliedOn (s : State) (ctx : Nat) (ids : List W64) (k : AccKind) : Nat → Nat → Nat → List (Nat × Nat)
  | 0, _, _ => []
  | n + 1, a, e => if e ≤ a then [] else reliedAt s ctx ids k a ++ reliedOn s ctx ids k n (regionEnd s ctx a) e

/-- One check of check 4. -/
def entryFault (s : State) (ctx : Nat) (ids : List W64) (x : Span × List AccKind) : Option FaultInfo :=
  x.2.findSome? (fun k => (firstFault s ctx ids k (regionBound s) x.1.va (x.1.va + x.1.len)).map (fun f =>
    { fault f.1 with addr := f.2.2, tokenId := f.2.1 }))

/-- Check 4: the fault of the first operand that fails, or the entries relied on. -/
def engEntries (s : State) (ctx : Nat) (ids : List W64) (l : List (Span × List AccKind)) : Except FaultInfo (List (Nat × Nat)) :=
  match l.findSome? (entryFault s ctx ids) with
  | some f => .error f
  | none => .ok ((l.flatMap (fun x => x.2.flatMap (fun k =>
      reliedOn s ctx ids k (regionBound s) x.1.va (x.1.va + x.1.len)))).eraseDups)

/-! Multicast windows (R379, R383). -/

/-- The virtual range of a group's window. -/
def windowSpan (g : McastGroup) : Span := { lo := g.winva.toNat, hi := g.winva.toNat + g.wlen - 1 }

/-- The group of the context whose window one of the ranges meets. -/
def windowMet (s : State) (ctx : Nat) (l : List Span) : Option Nat :=
  (s.groups.find? (fun g => g.2.valid && g.2.ctx == ctx && decide (0 < g.2.wlen) && l.any (Span.meets (windowSpan g.2)))).map (·.1)

/-- Is a global operand named in a window? -/
def opndInWindow (s : State) (ctx : Nat) (o : Opnd) (l : List Span) : Bool := !o.pad && (windowMet s ctx l).isSome

/-- Writes of a group that are accepted and not complete. -/
def windowWrites (s : State) (g : Nat) : Nat :=
  (s.ops.filter (fun o => o.2.kind == .copy && decide (o.2.phase ≠ .held) && o.2.aux == g + 1)).length

def windowStall (s : State) (g : Option Nat) : Bool :=
  match g with
  | none => false
  | some g => match look s.groups g with | some e => decide (2 ^ e.acklog ≤ windowWrites s g) | none => false

/-- A write of the group takes its WSEQ. -/
def takeWseq (s : State) (g : Option Nat) (n : Nat) : State :=
  match g with
  | none => s
  | some g => match look s.groups g with
    | none => s
    | some e => updOp { s with groups := put s.groups g { e with wseq := (e.wseq + 1) % 2 ^ 32 } } n (fun o => { o with wseq := e.wseq })

/-! Stalls (R198, R201, R310, R348). -/

def rangesMeet (x y : PadRange) : Bool := decide (x.lo ≤ y.hi) && decide (y.lo ≤ x.hi)

/-- Do the new ranges conflict with those in flight, or want more than are free? Chunk maps conflict with chunk maps. -/
def rangesStall (t : Team) (l : List PadRange) : Bool :=
  let live := t.ranges.filter (fun r => !r.guard)
  let new := l.filter (fun r => !r.guard)
  decide (8 < live.length + new.length)
    || new.any (fun x => live.any (fun y => rangesMeet x y && (x.write || y.write)))
    || (l.filter (·.guard)).any (fun x => t.ranges.any (fun y => y.guard && rangesMeet x y))

/-- Would a flag's count pass 15? A command may name one flag twice (R349). -/
def flagsStall (c : Crew) (fa fb : Option Nat) : Bool :=
  flagFull c fa || flagFull c fb || (match fa, fb with | some x, some y => x == y && decide (14 ≤ flagCount c x) | _, _ => false)

/-- Copy engine of a cluster's copy port (R340). -/
def copyEngineOf (cl : Nat) : Nat := cl % 96 % 32

/-- Is the operation for the copy engine `e` of a die? -/
def onCopyEngine (die e : Nat) (o : EngOp) : Bool :=
  (o.kind == .copy || o.kind == .gxfer) && dieNo o.crew.cl == die && o.engine == e

def queuedOps (s : State) (p : EngOp → Bool) : Nat := (s.ops.filter (fun o => o.2.phase == .queued && p o.2)).length

/-- Is the operation under lease key `h` of the team in slot `ts`? -/
def underLease (cl ts h : Nat) (o : EngOp) : Bool := o.kind == .mma && o.crew.cl == cl && o.crew.ts == ts && o.lease == some h

/-- Is the queue of the command's unit full (R198, R329)? -/
def queueStall (s : State) (o : EngOp) : Bool :=
  match o.kind with
  | .mma => match o.lease with
    | some h => decide (16 ≤ queuedOps s (underLease o.crew.cl o.crew.ts h))
    | none => decide (32 ≤ ((clusterOf s o.crew.cl).leaseq.filter (fun q => match q with | .mma _ => true | _ => false)).length)
  | .census => false
  | .coll => decide (64 ≤ (s.ops.filter (fun x => x.2.kind == .coll && decide (x.2.phase ≠ .held) && dieNo x.2.crew.cl == dieNo o.crew.cl)).length)
  | _ => decide (32 ≤ queuedOps s (onCopyEngine (dieNo o.crew.cl) o.engine))

/-- The banks of the messages that a sender has under way or unread at a receiver, and the free-slot counter (R312). -/
def slotsOut (c : Cluster) (rx : Nat) : List Nat := (look c.freeSlots rx).getD []
def freeSlot (c : Cluster) (rx : Nat) : Nat := 2 - (slotsOut c rx).length
def setSlots (c : Cluster) (rx : Nat) (l : List Nat) : Cluster :=
  { c with freeSlots := if l.isEmpty then del c.freeSlots rx else put c.freeSlots rx l }
def takeSlot (c : Cluster) (rx bank : Nat) : Cluster := setSlots c rx (slotsOut c rx ++ [bank])
def giveSlot (c : Cluster) (rx bank : Nat) : Cluster := setSlots c rx ((slotsOut c rx).erase bank)

def engStalls (s : State) (a : At) (p : EngPlan) : Bool :=
  flagsStall a.crew p.op.fa p.op.fb || rangesStall a.team p.ranges || queueStall s p.op
    || p.receivers.any (fun x => freeSlot (clusterOf s a.ref.cl) x == 0) || windowStall s p.window
    || (decide (4 ≤ p.op.scope) && unacked s)

/-! Acceptance (R198, R200, R298). -/

/-- Accept: the operation takes the next number, its flags rise, its ranges are registered, the issuer's stores are performed
as far as the release and the operands need. -/
def engAccept (s : State) (a : At) (p : EngPlan) : State :=
  let n := s.nextOp
  let o := { p.op with phase := .queued, started := s.cycle + 18, stallNo := s.fresh }
  let s := takeWseq (bump { s with ops := put s.ops n o, nextOp := n + 1 }) p.window n
  let s := raiseFlag (raiseFlag s a.ref o.fa) a.ref o.fb
  let s := updTeam s a.ref.cl a.ref.ts (fun t => { t with ranges := t.ranges ++ p.ranges.map (fun r => { r with op := n }) })
  let s := releaseAt s a.ref.cl o.scope
  let s := p.globals.foldl (fun s x => writeBackSpans s a.ref.cl (spans s (dieNo a.ref.cl) o.ctx x.1.va x.1.len)) s
  let s := updCluster s a.ref.cl (fun c =>
    let c := p.receivers.foldl (fun c x => takeSlot c x p.bank) c
    if o.kind = .mma && o.lease.isNone then { c with leaseq := c.leaseq ++ [.mma n] } else c)
  deliver s a.ref (some o.dest) 0

/-- The word goes on for its batch. -/
def engGo (s : State) (a : At) : State := finishFaults s a [] []

/-- The reservation of a command that faults or is withdrawn clears without a write (R197, R359). -/
def unreserve (s : State) (r : CrewRef) (d : PDst) : State :=
  updCrew s r (fun c => { c with pend := match placeOf (fun p => decide (p.dst = d) && !p.ready) c.pend with
    | some i => delAt c.pend i
    | none => c.pend })

/-- Issue a command: checks 1 to 4, the status checks, the stalls, acceptance. `held`: its number while a stall holds it. -/
def engIssue (check : EngCmd → At → State → State × Except FaultInfo EngPlan) (status : State → At → EngOp → Option Nat)
    (c : EngCmd) (held : Option Nat) (a : At) (s : State) : State :=
  let drop (s : State) : State := match held with | none => s | some n => { s with ops := del s.ops n }
  let bad (s : State) (f : FaultInfo) : State :=
    let s := match held with | none => s | some _ => unreserve s a.ref (.g c.slot c.stat)
    finishFaults (drop s) a [(c.slot, { f with pc := a.pc })] []
  match check c a s with
  | (s, .error f) => bad s f
  | (s, .ok p) =>
    match engEntries s a.ctx a.ids p.globals with
    | .error f => bad s f
    | .ok l =>
      let p := { p with op := { p.op with holds := l } }
      let s := if held.isSome then s else reserve s a.ref (some p.op.dest)
      match status s a p.op with
      | some v => engGo (deliver (drop s) a.ref (some p.op.dest) v) a
      | none =>
        if !engStalls s a p then engGo (engAccept (drop s) a p) a
        else match held with
          | some _ => s
          | none => waitAt { s with ops := put s.ops s.nextOp (newOp c a [] []), nextOp := s.nextOp + 1 } a (.eng s.nextOp) false

/-! The end of an operation (R200, R204). -/

/-- Does the operation wait for a holder that does not answer the read of its next unit (R386, R401)? -/
def opQuiet (s : State) (o : EngOp) : Bool := match o.waits with | some k => quiet s k | none => false

/-- Where one of the reads has no answer, the operation waits for it. -/
def holdOp (s : State) (n : Nat) (l : List EErr) : Option State :=
  (l.find? (fun e => e.code == 0)).map (fun e => updOp (askHolder s e.addr) n (fun o => { o with waits := some e.addr }))

/-- The stores to peer memory that `f` makes are those of a unit of the operation (R351). -/
def asUnit (n unit : Nat) (f : State → State) (s : State) : State :=
  let k := s.ua.out.length
  let t := f s
  { t with ua := { t.ua with out := t.ua.out.take k ++ (t.ua.out.drop k).map (fun x => { x with op := some (n, unit) }) } }

/-- Has a store of the operation no acknowledgement yet (R351)? -/
def opUnacked (s : State) (n : Nat) : Bool := s.ua.out.any (fun x => x.op.any (·.1 == n))

/-- PAD accesses that waited for a range look again (R310). -/
def wakeRanges (s : State) (x ts : Nat) : State :=
  updTeam s x ts (fun t => { t with crews := t.crews.map (fun c =>
    { c with batches := c.batches.map (fun b => if b.wait = .padRange then { b with wait := .none } else b) }) })

/-- Free the ranges of an operation that satisfy `p`. -/
def freeRanges (s : State) (o : EngOp) (n : Nat) (p : PadRange → Bool) : State :=
  if o.orphaned then s
  else wakeRanges (updTeam s o.crew.cl o.crew.ts (fun t => { t with ranges := t.ranges.filter (fun r => !(r.op == n && p r)) }))
    o.crew.cl o.crew.ts

/-- Open or join the page requests of an operation that stopped for NOTPRESENT (R204, R333). -/
def askPages (s : State) (o : EngOp) (l : List EErr) : State :=
  l.foldl (fun s e =>
    let s := match e.pte with | some p => emit s (.badPte p) | none => s
    if e.code = 0x30 then (pageRequest s o.ctx e.addr { fault .notPresent with needRd := !e.wr, needWr := e.wr }).1 else s) s

/-- Write bytes into the block of an operation, unless its team is gone (R350). -/
def writeBlock (s : State) (o : EngOp) (off : Nat) (l : List Byte) : State :=
  if o.orphaned || o.blockGone then s else padWrite s o.crew.cl o.crew.ts (o.block + off) l

/-- Is the crew's team saved, to be restored? -/
def teamSaved (s : State) (r : CrewRef) : Bool := match teamOf s r.cl r.ts with | some t => t.saved && !t.killed | none => false

/-- The operation ends: its status fields stand in the block already; the issuing cluster drops its lines of the global
destination, the flags fall, the ranges are freed, the entries are held no longer. What stands in the saved state of a team
changes there (R205, `finishColl`). -/
def endOp (s : State) (n : Nat) (o : EngOp) (dest : List Span) (code faddr : Nat) : State :=
  let s := dest.foldl (fun s x => invalidateSpans s o.crew.cl (spans s (dieNo o.crew.cl) o.ctx x.va x.len)) s
  let kept := teamSaved s o.crew
  let s := if kept then s else freeRanges s o n (fun _ => true)
  let s := { s with ops := del s.ops n }
  let s := if code ≠ 0 && (o.orphaned || o.blockGone || (match ctxOf s o.ctx with | some c => decide (c.phase = .destroyed) | none => false)) then
    emit s (.engineStatus o.ctx code faddr) else s
  let s := if o.orphaned || kept then s
    else
      let s := orStat s o.crew o.sticky
      let s := if o.srcFreeDone then s else oweFall s o.crew o.fa o.scope
      oweFall s o.crew o.fb o.scope
  o.holds.foldl (fun s h => match look (dieOf s h.1).owners h.2 with
    | some (.token _) => endRecalls s h.1 h.2
    | some (.share x) => endRecalls s h.1 x.tok
    | none => s) s

/-- The first of the stop conditions by R203 and R333: lowest unit, earliest K-block, order within it. -/
def firstStop (l : List StopRec) : Option StopRec :=
  leastBy (fun x y => decide (x.unit < y.unit) || (x.unit == y.unit && (decide (x.kb < y.kb)
    || (x.kb == y.kb && decide (x.order < y.order))))) l

/-- STATUS and FADDR: a condition met, or a stop asked from outside with the lowest unit that failed or is incomplete. -/
def stopStatus (o : EngOp) (incomplete : Option Nat) : Nat × Nat :=
  match firstStop o.stops with
  | some r => if o.halt = 0 then (st r.code r.unit, r.faddr) else (st o.halt r.unit, 0)
  | none => match incomplete with
    | some u => if o.halt = 0 then (0, 0) else (st o.halt u, 0)
    | none => (0, 0)

/-- A running or waiting operation with a stop condition, or asked to stop, starts no further unit (R204, R332). -/
def stopDue (o : EngOp) : Bool :=
  (decide (o.phase = .queued) || decide (o.phase = .running)) && (o.halt != 0 || !o.stops.isEmpty) && decide (o.kind ≠ .coll)

/-- ENG_OP_STOP is due: also for a saved operation whose team will not be restored. -/
def stopNow (s : State) (o : EngOp) : Bool := stopDue o || (decide (o.phase = .saved) && o.halt != 0 && !teamSaved s o.crew)

def execEngOpStop (n : Nat) (s : State) : Out :=
  match opOf s n with
  | none => .next s
  | some o => if stopNow s o then .next (updOp s n (fun o => { o with phase := .stopping })) else .next s

end Sys2Proof.Machine
end

