-- ==== Sys2Proof/Machine/Mma.lean ====
section
/-! DEFINITION. The term engines: MMA, MBOUND and MCENSUS (R211-R219), their events (R318-R337), MSTAT's quantities (R210). -/

namespace Sys2Proof.Machine

/-! The block (R212, R213). -/

/-- An MMA as its block and records describe it. -/
structure MmaPar where
  a : Opnd
  b : Opnd
  c : Opnd
  m : Opnd
  sparse : Nat
  morg : Nat
  norg : Nat
  korg : Nat
  batch : Nat
  mlen : Nat
  nlen : Nat
  klen : Nat
  crow : Nat
  ccol : Nat
  cw : Nat
  fmtA : Nat
  deriving DecidableEq, Repr

/-- Columns that one lane covers (R211). -/
def laneCols (fmtB : Nat) : Nat :=
  match fmtB with | 2 => 16 | 3 => 16 | 4 => 32 | 5 => 32 | 6 => 64 | 7 => 32 | 8 => 64 | _ => 0

/-- The format pairs of R211. -/
def pairOk (a b c : Nat) : Bool :=
  if isIntFmt b then (a == fmtInt8 || a == fmtInt4) && b != fmtInt32 && c == fmtInt32
  else if a = fmtL6 then b == 4 && c == fmtFp32
  else decide (2 ≤ a) && decide (a ≤ 6) && decide (2 ≤ b) && decide (b ≤ 6) && c == fmtFp32

def mmaFlags (img : List Byte) : Nat := leAt img 8 8

/-- The MMA of a block image with records A, B, C and, where B is sparse, the metadata. -/
def mmaPar (img : List Byte) (recs : List (List Byte)) : MmaPar :=
  let f := mmaFlags img
  let r (i : Nat) : ObjRec := recOf ((recs[i]?).getD [])
  let w (o : Nat) : Nat := leAt img o 4
  { a := { r := r 0, pad := tb f 0, src := slice f 32 8 }, b := { r := r 1, pad := tb f 1, src := 0 },
    c := { r := r 2, pad := tb f 2, src := 0 }, m := { r := r 3, pad := false, src := 0 }, sparse := slice f 4 2,
    morg := w 0x10, norg := w 0x14, korg := w 0x18, batch := w 0x1C, mlen := w 0x20, nlen := w 0x24, klen := w 0x28,
    crow := w 0x30, ccol := w 0x34, cw := laneCols (r 1).fmt, fmtA := if (r 0).fmt = fmtTlf then slice f 32 8 else (r 0).fmt }

def MmaPar.nkb (p : MmaPar) : Nat := (p.klen + 31) / 32
def MmaPar.units (p : MmaPar) : Nat := p.mlen / 32 * (p.nlen / p.cw)
/-- Group size and kept rows of B (R216). -/
def MmaPar.gr (p : MmaPar) : Nat := if p.sparse = 1 then 4 else if p.sparse = 2 then 8 else 1
def MmaPar.kept (p : MmaPar) : Nat := if p.sparse = 1 then 2 else if p.sparse = 2 then 4 else 1
/-- B's row of K index `k`: the first kept row of its group. -/
def MmaPar.brow (p : MmaPar) (k : Nat) : Nat := k / p.gr * p.kept

/-- An index of a record, dimension 2 at BATCH for a rank of 3 or more. -/
def batchIdx (r : ObjRec) (i0 i1 batch : Nat) : List Nat := [i0, i1, if 3 ≤ r.rank then batch else 0, 0, 0]

/-- Corners of the boxes of A, B, C and the metadata. -/
def MmaPar.boxA (p : MmaPar) : List Nat × List Nat :=
  (batchIdx p.a.r p.korg p.morg p.batch, batchIdx p.a.r (p.korg + p.klen - 1) (p.morg + p.mlen - 1) p.batch)
def MmaPar.boxB (p : MmaPar) : List Nat × List Nat :=
  (batchIdx p.b.r p.norg (p.brow p.korg) p.batch,
   batchIdx p.b.r (p.norg + p.nlen - 1) ((p.korg + p.klen) / p.gr * p.kept - 1) p.batch)
def MmaPar.boxC (p : MmaPar) : List Nat × List Nat :=
  (batchIdx p.c.r p.ccol p.crow p.batch, batchIdx p.c.r (p.ccol + p.nlen - 1) (p.crow + p.mlen - 1) p.batch)
/-- The metadata byte of a column, the first of its two under 4:8. -/
def MmaPar.metaCol (p : MmaPar) (n : Nat) : Nat := if p.sparse = 1 then n / 2 else 2 * n
def MmaPar.boxM (p : MmaPar) : List Nat × List Nat :=
  ([p.metaCol p.norg, p.korg / p.gr, 0, 0, 0],
   [p.metaCol (p.norg + p.nlen - 1) + (if p.sparse = 2 then 1 else 0), (p.korg + p.klen) / p.gr - 1, 0, 0, 0])

def spansOf (o : Opnd) (b : List Nat × List Nat) : List Span := o.spans b.1 b.2

/-- Global spans of an operand with the accesses they are checked for. -/
def globalSpans (o : Opnd) (l : List Span) (k : List AccKind) : List (Span × List AccKind) :=
  if o.pad then [] else l.map (fun x => (x, k))
/-- PAD range of an operand: the hull of its spans. -/
def padRanges (o : Opnd) (l : List Span) (write free : Bool) : List PadRange :=
  if o.pad then [{ lo := (hull l).lo.toNat, hi := (hull l).hi.toNat, write := write, op := 0, atSrcFree := free, guard := false }] else []

def blockRange (off n : Nat) : PadRange := { lo := off, hi := off + n - 1, write := true, op := 0, atSrcFree := false, guard := false }

/-! Checks. -/

/-- Check 2: reserved fields and values of the block (R212). -/
def mmaBlockBad (img : List Byte) : Bool :=
  let f := mmaFlags img
  tb f 3 || slice f 4 2 == 3 || slice f 6 2 == 3 || decide (slice f 8 3 < 2) || slice f 13 19 != 0 || slice f 40 24 != 0
    || leAt img 0x2C 4 != 0 || leAt img 0x38 8 != 0 || leAt img 0x44 4 != 0 || leAt img 0x58 0x28 != 0
    || leAt img 0x20 4 == 0 || leAt img 0x20 4 % 32 != 0 || leAt img 0x28 4 == 0 || decide (2097120 < leAt img 0x28 4)

/-- An MMA's own fields, which MCENSUS does not read (R216, R219). -/
def mmaFieldsBad (img : List Byte) : Bool := leAt img 0x24 4 == 0 || (slice (mmaFlags img) 4 2 != 0) != (leAt img 6 2 != 0xFFFF)

/-- Formats, layouts and lengths that R211, R213 and R216 ask for; the sizes follow from them. -/
def mmaShapeBad (p : MmaPar) : Bool :=
  let tlf := p.a.r.fmt == fmtTlf
  p.cw == 0 || !pairOk p.fmtA p.b.r.fmt p.c.r.fmt || p.nlen % p.cw != 0
    || (!tlf && p.a.src != 0) || (tlf && (!isTlfSrc p.a.src || p.korg % 32 != 0))
    || decide (2 < p.b.r.layout) || decide (2 < p.c.r.layout)
    || (p.a.r.fmt == fmtMx && (p.a.r.layout != 0 || p.korg % 32 != 0))
    || (p.b.r.fmt == fmtMx && (p.b.r.layout != 1 || p.korg % 32 != 0))
    || (p.sparse != 0 && (p.korg % p.gr != 0 || p.klen % p.gr != 0 || p.m.r.fmt != fmtInt8 || p.m.r.layout != 0 || p.m.r.rank != 2))

/-- An index beyond an extent. -/
def boxBad (r : ObjRec) (b : List Nat × List Nat) : Bool := !indexOk r b.1 || !indexOk r b.2

/-- PROGRESS entries. -/
def progressOf (l : List Byte) (n : Nat) : List Nat := (List.range n).map (fun v => leAt l (2 * v) 2)

/-- Checks 1 to 3 of an MMA (R198, R212, R213): the parameters, the block image, the records, the progress. -/
def mmaCheck (c : EngCmd) (a : At) (s : State) : State × Except FaultInfo (MmaPar × List Byte × List (List Byte) × List Nat) :=
  match engBlock s a c.off 0x80 with
  | .error f => (s, .error f)
  | .ok img =>
    if mmaBlockBad img || mmaFieldsBad img then (s, .error (fault .format))
    else
      let sp := slice (mmaFlags img) 4 2
      let want := [(leAt img 0 2, [0, 2]), (leAt img 2 2, [0, 2]), (leAt img 4 2, [0, 1, 2])] ++ (if sp = 0 then [] else [(leAt img 6 2, [0, 2])])
      match engRecs s a false want with
      | (s, .error f) => (s, .error f)
      | (s, .ok recs) =>
        let p := mmaPar img recs
        let size := padSize a.team
        let sa := spansOf p.a p.boxA
        let sb := spansOf p.b p.boxB
        let sc := spansOf p.c p.boxC
        let out (o : Opnd) (l : List Span) : Bool := o.pad && l.any (Span.outside size)
        if size < c.off + 0x80 + 2 * p.units || out p.a sa || out p.b sb || out p.c sc then (s, .error (fault .bounds))
        else if mmaShapeBad p then (s, .error (fault .format))
        else if opndsMeet p.c sc p.a sa || opndsMeet p.c sc p.b sb || opndInWindow s a.ctx p.a sa || opndInWindow s a.ctx p.b sb
            || opndInWindow s a.ctx p.c sc || (p.sparse != 0 && opndInWindow s a.ctx p.m (spansOf p.m p.boxM)) then
          (s, .error (fault .format))
        else if boxBad p.a.r p.boxA || boxBad p.b.r p.boxB || (p.sparse != 0 && boxBad p.m.r p.boxM) || boxBad p.c.r p.boxC then
          (s, .error (fault .bounds))
        else
          let prog := progressOf (padBytes s a.ref.cl a.ref.ts (c.off + 0x80) (2 * p.units)) p.units
          if prog.any (fun x => decide (p.nkb < x)) then (s, .error (fault .format)) else (s, .ok (p, img, recs, prog))

/-- The poison policy of an operation at issue: 0 TRAP, 1 ZERO-AND-LOG (R212). -/
def policyAt (s : State) (ctx field : Nat) : Nat :=
  match field with
  | 1 => 0
  | 2 => 1
  | _ => ((ctxOf s ctx).map (fun c => c.regs.poison.toNat % 2)).getD 0

def mmaPlan (c : EngCmd) (a : At) (s : State) : State × Except FaultInfo EngPlan :=
  match mmaCheck c a s with
  | (s, .error f) => (s, .error f)
  | (s, .ok (p, img, recs, prog)) =>
    let f := mmaFlags img
    let h := if tb f 11 then some (slice f 12 1) else none
    let l := h.bind (fun h => look a.team.leases h)
    let o := { newOp c a img recs with scope := slice f 8 3, poison := policyAt s a.ctx (slice f 6 2), lease := h,
                                       g := (l.map (·.g)).getD 2, d := (l.map (·.d)).getD 0, progress := prog, firstKb := prog }
    let sa := spansOf p.a p.boxA
    let sb := spansOf p.b p.boxB
    let sc := spansOf p.c p.boxC
    (s, .ok { op := o, receivers := [], bank := 0, window := none,
              ranges := blockRange c.off (0x80 + 2 * p.units) :: (padRanges p.a sa false false ++ padRanges p.b sb false false
                ++ padRanges p.c sc true false),
              globals := globalSpans p.a sa [.load] ++ globalSpans p.b sb [.load]
                ++ (if p.sparse = 0 then [] else globalSpans p.m (spansOf p.m p.boxM) [.load]) ++ globalSpans p.c sc [.store] })

/-- Check 5: NOTHELD (R203, R329). -/
def mmaStatus (_s : State) (a : At) (o : EngOp) : Option Nat :=
  match o.lease with
  | none => none
  | some h => if (look a.team.leases h).isSome then none else some (st 0x40 0)

/-- The command that an ENG word gives its issuing fibre. -/
def engCmd (s : State) (f : ENG) (k : OpKind) (src : Bool) (a : At) (i : Nat) : EngCmd :=
  { kind := k, off := f.off.toNat, stat := f.st, aux := if src then opdVal s a i (engReg f.src) 1 else 0,
    fa := flagOf f.fa.toNat, fb := flagOf f.fb.toNat, slot := i }

def execMma (f : ENG) (s : State) : Out :=
  issueWord (engSpec f false false false true) (fun a act s =>
    engIssue mmaPlan mmaStatus (engCmd s f .mma false a (act.headD 0)) none a s) s

/-! MBOUND (R218). -/

def mboundVal (p : MmaPar) : Nat := (p.units + 23) / 24 * p.nkb * (32 * termMax p.fmtA + 2) + 18

/-- MBOUND: checks 1 to 3 of the MMA, then the bound in the pair. -/
def execMbound (f : ENG) (s : State) : Out :=
  issueWord (engSpec f false true true true) (fun a act s =>
    if padReadBlocked a.team f.off.toNat 0x80 then waitAt s a .padRange false
    else
      let i := act.headD 0
      match mmaCheck (engCmd s f .mma false a i) a s with
      | (s, .error e) => finishFaults s a [(i, { e with pc := a.pc })] []
      | (s, .ok (p, _, _, _)) => finishPend s a [(i, outRes (engReg f.st) 2 (mboundVal p))]) s

/-! Reading A, B, metadata and C (R215, R216, R324, R325, R336). -/

/-- What a staging has met: values, conditions in order, lines read, poisoned lines to log with their operand. -/
structure Stage (α : Type) where
  val : α
  errs : List EErr
  lines : List Fetch
  bad : List (Nat × Nat)
  sticky : Nat

def Stage.pure {α : Type} (v : α) : Stage α := { val := v, errs := [], lines := [], bad := [], sticky := 0 }

/-- Stage a list of items in order. -/
def stageAll {α β : Type} (f : α → Stage β) (l : List α) : Stage (List β) :=
  let r := l.map f
  { val := r.map (·.val), errs := r.flatMap (·.errs), lines := r.flatMap (·.lines), bad := r.flatMap (·.bad),
    sticky := r.foldl (fun n x => n ||| x.sticky) 0 }

/-- Poison on what was read: a condition under TRAP, else lines to log for operand `k`. -/
def poisonOf (zero : Bool) (k : Nat) (g : Got) : List EErr × List (Nat × Nat) :=
  match g.bad with
  | [] => ([], [])
  | (_, va) :: _ => if zero then ([], g.bad.map (fun b => (k, b.1))) else ([eerr 0x32 va], [])

def zeroVal : FVal := .fin false 0 0

/-- A dense element of operand `k`: its code and value; zero where it is poisoned under ZERO-AND-LOG. -/
def stageElem (s : State) (o : EngOp) (zero : Bool) (k : Nat) (x : Opnd) (idx : List Nat) : Stage (Nat × FVal) :=
  match engElem s o x idx with
  | .error e => { Stage.pure (0x20, zeroVal) with errs := [e] }
  | .ok e =>
    let p := poisonOf zero k e.got
    let v := codeVal x.r.fmt e.code e.scale
    if e.got.bad.isEmpty then { Stage.pure (e.code, v.1) with lines := e.got.lines, sticky := v.2 }
    else { val := (0x20, zeroVal), errs := p.1, lines := e.got.lines, bad := p.2, sticky := 0 }

/-- A TLF block's granule and header bytes, or a condition (R84, R86); no bytes where one of them is poisoned. -/
def tlfHead (s : State) (o : EngOp) (x : Opnd) (l : Nat) : Except EErr (Nat × List Byte × Got) :=
  match engRead s o x.pad (x.r.tlfidx + 4 * l) 4 with
  | .error e => .error e
  | .ok g =>
    let gran := leNat g.bytes
    if !g.bad.isEmpty then .ok (0, [], g)
    else if payload x.r x.src ≤ 16 * gran then .error eFormat
    else match engRead s o x.pad (x.r.base + 16 * gran) 16 with
      | .error e => .error e
      | .ok h => .ok (gran, if h.bad.isEmpty then h.bytes else [], { h with lines := g.lines ++ h.lines })

/-- A TLF block's address and header bytes; its TOTAL stays inside the payload area. -/
def tlfHeader (s : State) (o : EngOp) (x : Opnd) (l : Nat) : Except EErr (Nat × List Byte × Got) :=
  match tlfHead s o x l with
  | .error e => .error e
  | .ok (gran, h, g) =>
    if !h.isEmpty && decide (payload x.r x.src < 16 * (gran + tlfGranules h)) then .error eFormat else .ok (x.r.base + 16 * gran, h, g)

/-- Does block 0 of the tensor, where it can be read, name another source format (R86)? -/
def tlfMixed (s : State) (o : EngOp) (x : Opnd) : Bool :=
  match tlfHead s o x 0 with | .ok (_, h, _) => !h.isEmpty && leAt h 15 1 != x.src | .error _ => false

/-- Elements of the block at `idx` that lie inside EXT0. -/
def blockValid (x : Opnd) (idx : List Nat) : Nat := min 32 (x.r.extAt 0 - idxAt idx 0 / 32 * 32)

/-- One TLF block of operand A, decoded; 32 zeros where it is poisoned under ZERO-AND-LOG. -/
def stageTlf (s : State) (o : EngOp) (zero : Bool) (x : Opnd) (idx : List Nat) : Stage TlfBlock :=
  let fail (e : EErr) : Stage TlfBlock := { Stage.pure TlfBlock.zero with errs := [e] }
  match tlfHeader s o x (x.r.blockNo idx) with
  | .error e => fail e
  | .ok (va, h, g) =>
    let p := poisonOf zero 0 g
    if !g.bad.isEmpty then { val := TlfBlock.zero, errs := p.1, lines := g.lines, bad := p.2, sticky := 0 }
    else if tlfHeaderBad h x.src (blockValid x idx) || tlfMixed s o x then fail eFormat
    else
      let n := if tlfTotal h = 0xFFFF then 0 else tlfTotal h
      match engRead s o x.pad (va + 16) n with
      | .error e => fail e
      | .ok b =>
        let q := poisonOf zero 0 b
        if !b.bad.isEmpty then { val := TlfBlock.zero, errs := q.1, lines := g.lines ++ b.lines, bad := q.2, sticky := 0 }
        else match tlfDecode h x.src (b.bytes.map (·.toNat)) with
          | none => fail eFormat
          | some t => { Stage.pure t with lines := g.lines ++ b.lines }

/-- The K indices of a K-block. -/
def MmaPar.ks (p : MmaPar) (kb : Nat) : List Nat :=
  (List.range (min 32 (p.klen - 32 * kb))).map (fun j => p.korg + 32 * kb + j)
/-- First row and first column of tile block `v` (R214). -/
def MmaPar.row0 (p : MmaPar) (v : Nat) : Nat := v % (p.mlen / 32) * 32
def MmaPar.col0 (p : MmaPar) (v : Nat) : Nat := v / (p.mlen / 32) * p.cw

/-- A staging of rows, with the lines that each row needs. -/
structure Rows (α : Type) where
  all : Stage α
  rows : List (List Fetch)

/-- A's elements of a K-block: for each lane, for each row of the block, value and term count. -/
def stageA (s : State) (o : EngOp) (p : MmaPar) (v kb : Nat) : Rows (List (List (FVal × Nat))) :=
  let zero := o.poison == 1
  let ks := p.ks kb
  let m (i : Nat) : Nat := p.morg + p.row0 v + i
  if p.a.r.fmt = fmtTlf then
    let r := stageAll (fun i => stageTlf s o zero p.a (batchIdx p.a.r (p.korg + 32 * kb) (m i) p.batch)) (List.range 32)
    { all := { r with val := r.val.map (fun b => (b.vals.zip b.counts).take ks.length) }, rows := ks.map (fun _ => r.lines) }
  else
    let l := (List.range 32).map (fun i => ks.map (fun k => stageElem s o zero 0 p.a (batchIdx p.a.r k (m i) p.batch)))
    { all := stageAll (fun r => let x := stageAll id r; { x with val := x.val.map (fun e => (e.2, termCount p.fmtA e.1 e.2)) }) l,
      rows := (List.range ks.length).map (fun j => l.flatMap (fun r => ((r[j]?).map (·.lines)).getD [])) }

/-- The kept positions of a group for a column, none where the metadata is poisoned under ZERO-AND-LOG. -/
def stageMeta (s : State) (o : EngOp) (p : MmaPar) (g n : Nat) : Stage (Option (List Nat)) :=
  let zero := o.poison == 1
  let els := (List.range (if p.sparse = 2 then 2 else 1)).map (fun i => [p.metaCol n + i, g, 0, 0, 0])
  let r := els.map (fun idx => engRead s o false (p.m.r.addr idx).1 1)
  match r.findSome? (fun x => match x with | .error e => some e | .ok _ => none) with
  | some e => { Stage.pure none with errs := [e] }
  | none =>
    let got := (r.foldl (fun acc x => match x with | .ok y => Got.app acc y | .error _ => acc) Got.none).dense
    let q := poisonOf zero 2 got
    if !got.bad.isEmpty then { val := none, errs := q.1, lines := got.lines, bad := q.2, sticky := 0 }
    else
      let w := leNat got.bytes
      let x := if p.sparse = 1 then slice w (4 * (n % 2)) 4 else w
      let pos := (List.range p.kept).map (fun e => if p.sparse = 1 then slice x (2 * e) 2 else slice x (3 * e) 3)
      let rising := (pos.zip pos.tail).all (fun e => decide (e.1 < e.2))
      if !rising || (p.sparse == 2 && slice x 12 4 != 0) then { Stage.pure none with errs := [eFormat] }
      else { Stage.pure (some pos) with lines := got.lines }

/-- B's values of a K-block: for each K index, for each column of the tile block; the metadata first (R333). -/
def stageB (s : State) (o : EngOp) (p : MmaPar) (v kb : Nat) : Rows (List (List FVal)) :=
  let zero := o.poison == 1
  let ks := p.ks kb
  let cols := (List.range p.cw).map (fun n => p.norg + p.col0 v + n)
  let elem (n r : Nat) : Stage (Nat × FVal) := stageElem s o zero 1 p.b (batchIdx p.b.r n r p.batch)
  if p.sparse = 0 then
    let l := ks.map (fun k => stageAll (fun n => elem n k) cols)
    let r := stageAll id l
    { all := { r with val := r.val.map (fun l => l.map (·.2)) }, rows := l.map (·.lines) }
  else
    let gs := (ks.map (fun k => k / p.gr)).eraseDups
    let md := stageAll (fun g => stageAll (fun n => stageMeta s o p g n) cols) gs
    let bl := gs.map (fun g => stageAll (fun e => stageAll (fun n => elem n (g * p.kept + e)) cols) (List.range p.kept))
    let bs := stageAll id bl
    let value (gi k c : Nat) : FVal :=
      match ((md.val[gi]?).bind (fun l => l[c]?)).bind id with
      | none => zeroVal
      | some pos => match placeOf (fun x => x == k % p.gr) pos with
        | none => zeroVal
        | some e => ((((bs.val[gi]?).bind (fun l => l[e]?)).bind (fun l => l[c]?)).map (·.2)).getD zeroVal
    { all := { val := ks.map (fun k => (List.range p.cw).map (fun c => value (k / p.gr - (gs.headD 0)) k c)),
               errs := md.errs ++ bs.errs, lines := md.lines ++ bs.lines, bad := md.bad ++ bs.bad, sticky := md.sticky ||| bs.sticky },
      rows := ks.map (fun k => ((bl[k / p.gr - gs.headD 0]?).map (·.lines)).getD []) }

/-- Indices of C's elements of a tile block, row by row. -/
def MmaPar.cIdx (p : MmaPar) (v : Nat) : List (List Nat) :=
  (List.range 32).flatMap (fun i => (List.range p.cw).map (fun n =>
    batchIdx p.c.r (p.ccol + p.col0 v + n) (p.crow + p.row0 v + i) p.batch))

/-- C's codes; poison in C always stops (R217). -/
def stageC (s : State) (o : EngOp) (p : MmaPar) (v : Nat) : Stage (List W32) :=
  let r := stageAll (fun idx => stageElem s o false 3 p.c idx) (p.cIdx v)
  { val := r.val.map (fun e => BitVec.ofNat 32 e.1), errs := r.errs, lines := r.lines, bad := r.bad, sticky := 0 }

/-! The values (R215). -/

/-- C after a K-block: rows of A (lane by lane), rows of B (K index by K index), and SAT. -/
def kBlockC (ints : Bool) (cw : Nat) (a : List (List (FVal × Nat))) (b : List (List FVal)) (c : List W32) : List W32 × Nat :=
  let one (i n : Nat) : Nat × Nat :=
    let old := (c.getD (i * cw + n) 0#32).toNat
    let ps := (((a[i]?).getD []).zip b).map (fun e => (fMul e.1.1 ((e.2[n]?).getD zeroVal)).1)
    if ints then accInt old ps else (accFloat old ps, 0)
  let r := (List.range 32).flatMap (fun i => (List.range cw).map (fun n => one i n))
  (r.map (fun e => BitVec.ofNat 32 e.1), r.foldl (fun m e => m ||| e.2) 0)

/-! The timing recurrence (R322, R323). -/

/-- The rows that a subgroup takes, with its lanes' counts: index in the K-block, counts. -/
def subRows (a : List (List (FVal × Nat))) (lanes : List Nat) (nrow : Nat) : List (Nat × List Nat) :=
  ((List.range nrow).map (fun j => (j, lanes.map (fun i => ((((a[i]?).getD [])[j]?).map (·.2)).getD 0)))).filter
    (fun r => r.2.any (fun t => decide (0 < t)))

def maxNat (l : List Nat) : Nat := l.foldl max 0

/-- The recurrence of one subgroup from relative cycle 0: `delay` the cycle at which each row is staged, `hist` the finishing
times of the rows before, the latest first, `last` the entry of the row before. The cycle at which the last row is finished. -/
def subTime (dense : Bool) (d : Nat) (delay : List Nat) : List (Nat × List Nat) → List (List Nat) → Nat → Nat
  | [], hist, _ => maxNat (hist.headD [])
  | (j, t) :: rest, hist, last =>
    let e := max (max (if dense then j else 0) ((delay[j]?).getD 0)) (max (if hist.isEmpty then 0 else last + 1) (maxNat ((hist[d - 1]?).getD [])))
    let f := List.zipWith (fun i n => max e ((((hist.headD [])[i]?).getD 0)) + n) (List.range t.length) t
    subTime dense d delay rest (f :: hist) e

/-- Lanes of each subgroup for a G code. -/
def subgroups (g : Nat) : List (List Nat) :=
  let n := 8 * 2 ^ g
  (List.range (32 / n)).map (fun s => (List.range n).map (fun i => s * n + i))

/-- Cycles of a K-block with its barrier, rows fetched and rows skipped (R319, R322). -/
def kBlockTime (dense : Bool) (g d : Nat) (delay : List Nat) (a : List (List (FVal × Nat))) (nrow : Nat) : Nat × Nat × Nat :=
  let rows := (subgroups g).map (fun l => subRows a l nrow)
  let bar := max (maxNat (rows.map (fun r => subTime dense (2 ^ d) delay r [] 0))) (if dense then nrow else 0)
  let taken := (rows.map List.length).sum
  (bar + 2, taken, rows.length * nrow - taken)

/-! Logging under ZERO-AND-LOG (R336). -/

/-- Elements of a box in the order of their linear index. -/
def boxIdx (b : List Nat × List Nat) (step : Nat) : List (List Nat) :=
  (List.range (idxAt b.2 1 - idxAt b.1 1 + 1)).flatMap (fun j =>
    (List.range ((idxAt b.2 0 - idxAt b.1 0) / step + 1)).map (fun i =>
      [idxAt b.1 0 + i * step, idxAt b.1 1 + j, idxAt b.1 2, 0, 0]))

/-- Does one of the reads meet the line? -/
def Got.meets (g : Got) (line : Nat) : Bool := g.lines.any (fun f => f.line == line)

/-- Does the element, or for a TLF operand its block, have a byte in the line? -/
def touchesLine (s : State) (o : EngOp) (x : Opnd) (line : Nat) (idx : List Nat) : Bool :=
  if x.r.fmt = fmtTlf then
    let l := x.r.blockNo idx
    let gran := match engRead s o x.pad (x.r.tlfidx + 4 * l) 4 with | .ok g => some (leNat g.bytes, g) | .error _ => none
    match gran with
    | none => false
    | some (n, e) =>
      e.meets line || (match engRead s o x.pad (x.r.base + 16 * n) 16 with
        | .error _ => false
        | .ok h => match engRead s o x.pad (x.r.base + 16 * n) (16 * min (tlfGranules h.bytes) (granulesOf (32 * termMax x.src))) with
          | .ok g => g.meets line
          | .error _ => h.meets line)
  else match engElem s o x idx with | .ok e => e.got.meets line | .error _ => false

/-- Does the operation read the element of operand `k` at `idx`: in a K-block that some tile block had not completed at issue? -/
def readsElem (o : EngOp) (p : MmaPar) (k : Nat) (idx : List Nat) : Bool :=
  let nr := p.mlen / 32
  let due (v i : Nat) : Bool := decide ((o.firstKb[v]?).getD 0 ≤ (i - p.korg) / 32)
  let cols := if k = 2 then (if p.sparse = 1 then [2 * idxAt idx 0, 2 * idxAt idx 0 + 1] else [idxAt idx 0 / 2]) else [idxAt idx 0]
  (List.range p.units).any (fun v =>
    if k = 0 then v % nr == (idxAt idx 1 - p.morg) / 32 && due v (idxAt idx 0)
    else cols.any (fun n => v / nr == (n - p.norg) / p.cw) && due v (idxAt idx 1 / (if k = 1 then p.kept else 1) * p.gr))

/-- The error-log entry of a poisoned line of operand `k`: 0 A, 1 B, 2 metadata. -/
def zeroEntry (s : State) (o : EngOp) (p : MmaPar) (k line : Nat) : List Byte :=
  let x := if k = 0 then p.a else if k = 1 then p.b else p.m
  let box := if k = 0 then p.boxA else if k = 1 then p.boxB else p.boxM
  let idx := ((boxIdx box (if x.r.fmt = fmtTlf then 32 else 1)).find? (fun i => readsElem o p k i && touchesLine s o x line i)).getD box.1
  leBytes 8 line
    ++ leBytes 8 (o.ctx + o.gid * 2 ^ 12 + o.crew.cl * 2 ^ 28 + o.engine * 2 ^ 36 + k * 2 ^ 37)
    ++ leBytes 8 (leAt o.image (if k = 0 then 0 else if k = 1 then 2 else 6) 2 + idxAt idx 0 * 2 ^ 32)
    ++ leBytes 8 (idxAt idx 1 + idxAt idx 2 * 2 ^ 32)

/-- Log each poisoned line of the operation once, and set POISONZ. -/
def logZeros (s : State) (n : Nat) (o : EngOp) (p : MmaPar) (l : List (Nat × Nat)) : State :=
  let had := ((opOf s n).map (·.logged)).getD []
  let new := (l.filter (fun b => !had.contains b.2)).foldl (fun acc b => if acc.any (fun x => x.2 == b.2) then acc else acc ++ [b]) []
  if l.isEmpty then s
  else
    let s := updCluster s o.crew.cl (fun c => { c with errlog := c.errlog ++ new.map (fun b => zeroEntry s o p b.1 b.2),
                                                       errcount := c.errcount + new.length })
    updOp s n (fun o => { o with logged := o.logged ++ new.map (·.2), sticky := o.sticky ||| stPoisonZ })

/-! Staging (R324). -/

/-- The shortest time of a read by the level of the hierarchy that holds the line (R194); the spec gives none for a peer or an
expander. -/
def shortestRead (s : State) (die : Nat) (f : Fetch) : Nat :=
  let h := homeDie f.1 die
  if l2Holds (dieOf s h) f.1 (if f.2 = 0 then 64 else f.2) then (if h = die then 220 else 280) else if f.1 < 2 ^ 50 then 600 else 0

/-- The longest: 5 ms to the loss of a peer, or the time-out of a CXL port, in cycles of 2.7 GHz (R324, R401, R405). -/
def longestRead (s : State) : Nat := s.cxl.foldl (fun n c => max n (c.2.timeoutMs * 2700000)) 13500000

/-- The time of the reads of `l`, within those bounds. -/
def readTime (s : State) (die free : Nat) (l : List Fetch) : Nat :=
  if l.isEmpty then 0 else min (longestRead s) (max (maxNat (l.map (shortestRead s die))) free)

/-- The conditions that the staging of K-block `kb` of a tile block meets, with no effect. -/
def stageErrs (s : State) (o : EngOp) (v kb : Nat) : List EErr :=
  let p := mmaPar o.image o.recs
  if p.nkb ≤ kb then [] else (stageA s o p v kb).all.errs ++ (stageB s o p v kb).all.errs

/-- The load pipe stages K-block `kb` of tile block `v` from cycle `since` on; `c`: what the read of C met. The operands, or none
when a condition is met; that K-block's sticky bits are then not set (log 50). -/
def stageOps (s : State) (n : Nat) (o : EngOp) (v kb since : Nat) (c : Stage (List W32)) : State × Option StagedK :=
  let p := mmaPar o.image o.recs
  let die := dieNo o.crew.cl
  let a := stageA s o p v kb
  let b := stageB s o p v kb
  let errs := a.all.errs ++ b.all.errs ++ c.errs
  let ready := (List.range b.rows.length).map (fun j =>
    let l := ((a.rows[j]?).getD [] ++ (b.rows[j]?).getD []).eraseDups
    if l.isEmpty then 0 else since + readTime s die (Config.operandDelay o.stallNo v kb j) l)
  let s := noteReads s o (a.all.lines ++ b.all.lines ++ c.lines)
  let s := logZeros s n o p (a.all.bad ++ b.all.bad)
  match errs with
  | e :: _ =>
    let r : StopRec := { unit := v, code := e.code, faddr := e.addr, kb := kb, order := 0 }
    (updOp (askPages s o errs) n (fun o => { o with stops := o.stops ++ [r] }), none)
  | [] => (s, some { a := a.all.val, b := b.all.val, ready := ready, sticky := a.all.sticky ||| b.all.sticky })

/-! Tile blocks. -/

/-- K-block `t.kb` of a tile block begins at `T` with its staged operands. -/
def beginK (o : EngOp) (p : MmaPar) (T : Nat) (t : TileRun) (k : StagedK) : TileRun :=
  let nrow := (p.ks t.kb).length
  let dense := p.a.r.fmt != fmtTlf
  let v := kBlockC (isIntFmt p.b.r.fmt) p.cw k.a k.b t.c
  let x := kBlockTime dense o.g o.d (k.ready.map (· - T)) k.a nrow
  { t with next := v.1, began := T, at_ := T + x.1, work := (kBlockTime dense o.g o.d [] k.a nrow).1, sticky := v.2 ||| k.sticky,
           rows := x.2.1, skipped := x.2.2, ahead := none }

/-- The tile block goes on to its next K-block, whose operands are staged already; meanwhile those of the one after it are
staged (R324). None when that meets a condition: the sticky bits of the operands that were staged without one are set all the same. -/
def goOnK (s : State) (n : Nat) (o : EngOp) (T : Nat) (t : TileRun) (k : StagedK) : State × Option TileRun :=
  let p := mmaPar o.image o.recs
  let t := beginK o p T t k
  if p.nkb ≤ t.kb + 1 then (s, some t)
  else match stageOps s n o t.v (t.kb + 1) T (Stage.pure []) with
    | (s, none) => (updOp s n (fun o => { o with sticky := o.sticky ||| k.sticky }), none)
    | (s, some k) => (s, some { t with ahead := some k })

/-- Cells of a tile block's C, or the conditions that its write meets. -/
def tileCells (s : State) (o : EngOp) (p : MmaPar) (t : TileRun) : Except (List EErr) (List Cell) :=
  let l := (t.c.zip (p.cIdx t.v)).map (fun e => engCells s o p.c.pad (p.c.r.addr e.2).1 (leBytes 4 e.1.toNat))
  let errs := l.filterMap (fun x => match x with | .error e => some e | .ok _ => none)
  if errs.isEmpty then .ok (l.flatMap (fun x => match x with | .ok c => c | .error _ => []))
  else .error errs

/-- A tile block ends at a K-block boundary: C is written and PROGRESS recorded, or it fails at the write (R214, R332). -/
def endTile (s : State) (n : Nat) (o : EngOp) (t : TileRun) : State :=
  let p := mmaPar o.image o.recs
  match tileCells s o p t with
  | .ok cells => updOp (asUnit n t.v (fun s => engCommit s o p.c.pad false cells) s) n (fun o => { o with progress := modAt o.progress t.v (fun _ => t.kb) })
  | .error errs =>
    let e := errs.headD eFormat
    let r : StopRec := { unit := t.v, code := e.code, faddr := e.addr, kb := t.kb, order := 1 }
    updOp (askPages s o errs) n (fun o => { o with stops := o.stops ++ [r] })

/-- A tile block that ends at a boundary because the operation stops counts as failing where it still needs a byte behind an isolated
port (R203, R386). -/
def countBehind (s : State) (n : Nat) (o : EngOp) (t : TileRun) : State :=
  if !s.cxl.any (·.2.isolated) then s
  else match (List.range ((mmaPar o.image o.recs).nkb - t.kb)).findSome? (fun i =>
      ((stageErrs s o t.v (t.kb + i)).find? (fun e => e.code == 0x35)).map (fun e => (i, e))) with
    | none => s
    | some (i, e) => updOp s n (fun o => { o with stops := o.stops ++ [{ unit := t.v, code := 0x35, faddr := e.addr, kb := t.kb + i, order := 0 }] })

/-- The group of a tile falls free; its last K-block began at `began`. -/
def freeGroup (s : State) (n : Nat) (grp began at_ : Nat) : State :=
  updOp s n (fun o => { o with tiles := o.tiles.filter (fun t => t.grp != grp), groupFree := o.groupFree ++ [(grp, at_)],
                               lastBegan := put o.lastBegan grp began, ended := max o.ended at_ })

/-- Leases and engines that an MMA may start on (R318, R329). -/
def startable (cl : Nat) (e : TermEngine) (n : Nat) (o : EngOp) : Bool :=
  match e.hold with
  | .free => false
  | .implicit m => m == n && o.lease.isNone
  | .lease ts h => underLease cl ts h o

/-- The lease that an operation runs under. -/
def leaseOf (s : State) (o : EngOp) : Option Lease :=
  match o.lease with
  | none => none
  | some h => (teamOf s o.crew.cl o.crew.ts).bind (fun t => look t.leases h)

/-- Does the engine of a re-driven MMA wait for its crew's first issue after the restore (R360)? A crew that stands in waits alone has
nothing to issue first (log 42). -/
def awaitsIssue (s : State) (o : EngOp) : Bool :=
  !o.orphaned && (match crewOf s o.crew with | some c => c.restored && c.batches.any isReady | none => false)

/-- The MMA that engine `e` of a cluster starts next, when it may start now: a lease's count must not be spent. -/
def nextMma (s : State) (cl e : Nat) : Option (Nat × EngOp) :=
  match (clusterOf s cl).engines[e]? with
  | none => none
  | some x =>
    if x.running.isSome then none
    else match s.ops.find? (fun o => o.2.kind == .mma && o.2.crew.cl == cl && decide (o.2.phase = .queued) && startable cl x o.1 o.2) with
      | none => none
      | some (n, o) =>
        if s.cycle < o.started || awaitsIssue s o || (match leaseOf s o with | some l => l.left == 0 | none => false) then none else some (n, o)

def setEngine (s : State) (cl e : Nat) (f : TermEngine → TermEngine) : State :=
  updCluster s cl (fun c => { c with engines := modAt c.engines e f })

/-- MMA_START (R318, R321, R329): the operation counts one of its lease, and its 24 groups stand free. -/
def execMmaStart (cl e : Nat) (s : State) : Out :=
  match nextMma s cl e with
  | none => .next s
  | some (n, o) =>
    let th := match leaseOf s o with | some l => l.thermal | none => o.thermal
    let s := updOp s n (fun o => { o with phase := .running, engine := e, started := s.cycle, ended := s.cycle, thermal := th,
                                          groupFree := (List.range 24).map (fun g => (g, s.cycle)),
                                          lastBegan := (List.range 24).map (fun g => (g, s.cycle - 18)), work := [] })
    let s := setEngine s cl e (fun x => { x with running := some n })
    match o.lease with
    | none => .next s
    | some h => .next (updTeam s cl o.crew.ts (fun t => { t with leases := t.leases.map (fun l =>
        if l.1 = h then (l.1, { l.2 with left := l.2.left - 1 }) else l) }))

/-- The first group to fall free, the lower number first (R321). -/
def firstGroup (o : EngOp) : Option (Nat × Nat) :=
  leastBy (fun x y => decide (x.2 < y.2) || (x.2 == y.2 && decide (x.1 < y.1))) o.groupFree

/-- Is the next tile block one of those that begin with the engine, on the group of its own number (R321)? -/
def initialTile (s : State) (o : EngOp) : Bool := decide (o.started = s.cycle) && decide (o.nextTile < 24)

/-- The group that takes the next tile block, and since when it is free. -/
def tileGroup (s : State) (o : EngOp) : Option (Nat × Nat) := if initialTile s o then some (o.nextTile, s.cycle) else firstGroup o

/-- A condition that one of the first tile blocks meets keeps none of the others from beginning with the engine. -/
def tileDue (s : State) (o : EngOp) : Bool :=
  o.kind == .mma && decide (o.phase = .running) && !opQuiet s o && ((o.halt == 0 && o.stops.isEmpty) || initialTile s o)
    && decide (o.nextTile < (mmaPar o.image o.recs).units) && (match tileGroup s o with | some g => decide (g.2 ≤ s.cycle) | none => false)

/-- TILE_BLOCK_START (R214, R321, R324): C is read and the first K-block's operands are staged, at the latest moment that R324
allows; the first K-block begins once C has been read, and the operands of the second are staged. A tile block that is complete
already takes no cycle. -/
def execTileBlockStart (n : Nat) (s0 : State) : Out :=
  match opOf s0 n with
  | none => .next s0
  | some o =>
    if !tileDue s0 o then .next s0
    else match tileGroup s0 o with
      | none => .next s0
      | some (g, at_) =>
        let p := mmaPar o.image o.recs
        let kb := (o.progress[o.nextTile]?).getD 0
        let s := updOp s0 n (fun o => { o with nextTile := o.nextTile + 1 })
        let c := stageC s0 o p o.nextTile
        if p.nkb ≤ kb then .next s
        else match holdOp s0 n (c.errs ++ stageErrs s0 o o.nextTile kb ++ stageErrs s0 o o.nextTile (kb + 1)) with
        | some s => .next s
        | none =>
          let T := at_ + readTime s (dieNo o.crew.cl) (Config.operandDelay o.stallNo o.nextTile p.nkb 0) c.lines
          let t : TileRun := { v := o.nextTile, grp := g, kb := kb, c := c.val, next := [], began := T, at_ := T, work := 0, sticky := 0,
                               rows := 0, skipped := 0, ahead := none }
          let s := updOp s n (fun o => { o with groupFree := o.groupFree.filter (fun x => x.1 != g) })
          match stageOps s n o t.v kb ((look o.lastBegan g).getD at_) c with
          | (s, none) => .next (freeGroup s n g at_ at_)
          | (s, some k) =>
            match goOnK s n o T t k with
            | (s, none) => .next (freeGroup s n g at_ at_)
            | (s, some t) => .next (updOp s n (fun o => { o with tiles := o.tiles ++ [t] }))

/-- Does every tile block of the operation end at its K-block (R204, R332)? -/
def tilesEnd (o : EngOp) : Bool := decide (o.phase = .stopping) || o.halt != 0 || !o.stops.isEmpty

/-- The tile block in a group, when its barrier has come. It stands there while a read that goes with it has no answer. -/
def barrierTile (s : State) (o : EngOp) (grp : Nat) : Option TileRun :=
  if opQuiet s o && !tilesEnd o then none else o.tiles.find? (fun t => t.grp == grp && decide (t.at_ ≤ s.cycle))

/-- The K-block in progress ends: its sticky bits and its counts (R319, R324). -/
def countK (t : TileRun) (o : EngOp) : EngOp :=
  { o with sticky := o.sticky ||| t.sticky, rows := o.rows + t.rows, skipped := o.skipped + t.skipped, kblocks := o.kblocks + 1,
           work := put o.work t.v ((look o.work t.v).getD 0 + t.work) }

/-- K_BLOCK_BARRIER (R322, R332): the block sums round into C; the tile block ends, stops, or goes to its next K-block. What was
staged ahead of an end is dropped, but for its sticky bits. -/
def execKBlockBarrier (n grp : Nat) (s : State) : Out :=
  match opOf s n with
  | none => .next s
  | some o =>
    match barrierTile s o grp with
    | none => .next s
    | some t0 =>
      let p := mmaPar o.image o.recs
      let t := { t0 with kb := t0.kb + 1, c := t0.next, at_ := max t0.at_ (if o.waits.isSome then s.cycle else 0) }
      let ends := decide (p.nkb ≤ t.kb) || tilesEnd o
      match (if ends then none else holdOp s n (stageErrs s o t.v (t.kb + 1))) with
      | some s => .next s
      | none =>
      let s := updOp s n (countK t0)
      match (if ends then none else t0.ahead) with
      | none =>
        let s := updOp s n (fun o => { o with sticky := o.sticky ||| (t0.ahead.map (·.sticky)).getD 0 })
        .next (freeGroup (countBehind (endTile s n o t) n o t) n grp t.began t.at_)
      | some k => match goOnK s n o t.at_ t k with
        | (s, none) => .next (freeGroup s n grp t.at_ t.at_)
        | (s, some t) => .next (updOp s n (fun o => { o with tiles := o.tiles.map (fun x => if x.grp = grp then t else x) }))

/-! Completion of MMA and MCENSUS. -/

/-- R321 with every operand ready: cycles of the tile blocks, in their order, on 24 groups. -/
def workTime (l : List Nat) : Nat :=
  maxNat (l.foldl (fun g d => modAt g ((leastBy (fun x y => decide ((g[x]?).getD 0 < (g[y]?).getD 0)) (List.range 24)).getD 0) (· + d))
    (List.replicate 24 0))

/-- The cycles since the engine's start, and those of them that are stalls: what R321 and R322 do not need (R324). -/
def cyclesOf (o : EngOp) : Nat := if o.groupFree.isEmpty then 0 else o.ended - o.started
def stallOf (o : EngOp) : Nat := cyclesOf o - workTime (o.work.map (·.2))

def mmaDone (s : State) (n : Nat) (o : EngOp) : Bool :=
  let ended := decide (o.phase = .stopping) || (decide (o.phase = .running) && decide ((mmaPar o.image o.recs).units ≤ o.nextTile) && !stopDue o)
  ended && o.tiles.isEmpty && !opUnacked s n && (decide (o.ended ≤ s.cycle) || o.groupFree.isEmpty)

/-- The lowest tile block that is not complete. -/
def mmaOpen (p : MmaPar) (o : EngOp) : Option Nat := placeOf (fun x => decide (x < p.nkb)) o.progress

/-- MSTAT's quantities of an operation that has ended (R210, R319). -/
def mstatOf (p : MmaPar) (o : EngOp) : MStat :=
  { cycles := o.before + cyclesOf o, stalls := o.stalled + stallOf o,
    place := o.engine + bNat o.thermal * 2 + o.g * 4 + o.d * 16, rows := o.rows, skipped := o.skipped, kblocks := o.kblocks,
    bound := mboundVal p }

/-- The engine that ran an operation is free of it; an implicit lease ends (R207). -/
def releaseEngine (s : State) (n : Nat) (o : EngOp) : State :=
  updCluster s o.crew.cl (fun c => { c with
    engines := c.engines.map (fun e =>
      let e := if e.running = some n then { e with running := none } else e
      if e.hold = .implicit n then { e with hold := .free } else e),
    leaseq := c.leaseq.filter (fun q => decide (q ≠ .mma n)) })

/-- The end of an MMA: PROGRESS, PROG, STATUS and FADDR, then R200. -/
def endMma (s : State) (n : Nat) (o : EngOp) : State :=
  let p := mmaPar o.image o.recs
  let x := stopStatus o (mmaOpen p o)
  let s := writeBlock s o 0x80 (o.progress.flatMap (fun v => leBytes 2 v))
  let s := writeBlock s o 0x50 (leBytes 4 (o.progress.filter (fun v => decide (p.nkb ≤ v))).length ++ leBytes 4 o.progress.sum)
  let s := writeBlock s o 0x40 (leBytes 4 x.1)
  let s := writeBlock s o 0x48 (leBytes 8 x.2)
  let s := if o.orphaned then s else updTeam s o.crew.cl o.crew.ts (fun t => { t with mstat := some (mstatOf p o) })
  endOp (releaseEngine s n o) n o (if p.c.pad then [] else spansOf p.c p.boxC) x.1 x.2

/-! MCENSUS (R219, R337). -/

def censusBytes (p : MmaPar) : Nat := 16 + 4 * (p.mlen / 32) * p.nkb

/-- Checks 1 to 3 of MCENSUS. -/
def censusPlan (c : EngCmd) (a : At) (s : State) : State × Except FaultInfo EngPlan :=
  match engBlock s a c.off 0x80 with
  | .error f => (s, .error f)
  | .ok img =>
    let p0 := mmaPar img []
    if c.aux % 16 ≠ 0 then (s, .error (fault .misaligned))
    else if padSize a.team < c.aux + censusBytes p0 then (s, .error (fault .bounds))
    else if mmaBlockBad img then (s, .error (fault .format))
    else match engRecs s a false [(leAt img 0 2, [0, 2])] with
      | (s, .error f) => (s, .error f)
      | (s, .ok recs) =>
        let p := mmaPar img recs
        let sa := spansOf p.a p.boxA
        if p.a.pad && sa.any (Span.outside (padSize a.team)) then (s, .error (fault .bounds))
        else if p.a.r.fmt ≠ fmtTlf || !isTlfSrc p.a.src || p.korg % 32 ≠ 0 || opndInWindow s a.ctx p.a sa then (s, .error (fault .format))
        else if boxBad p.a.r p.boxA then (s, .error (fault .bounds))
        else
          let o := { newOp c a img recs with scope := slice (mmaFlags img) 8 3 }
          (s, .ok { op := o, receivers := [], bank := 0, window := none, globals := globalSpans p.a sa [.load],
                    ranges := blockRange c.off 0x80 :: blockRange c.aux (censusBytes p) :: padRanges p.a sa false false })

def execMcensus (f : ENG) (s : State) : Out :=
  issueWord (engSpec f true false false true) (fun a act s =>
    engIssue censusPlan (fun _ _ _ => none) (engCmd s f .census true a (act.headD 0)) none a s) s

/-- The header of one row's block for the census: term counts of the K-block, whether it is a NaN block. -/
def censusRow (s : State) (o : EngOp) (p : MmaPar) (m kb : Nat) : Except EErr (Nat × Bool × Got) :=
  let idx := batchIdx p.a.r (p.korg + 32 * kb) m p.batch
  match tlfHeader s o p.a (p.a.r.blockNo idx) with
  | .error e => .error e
  | .ok (_, h, g) =>
    match g.bad with
    | (_, va) :: _ => .error (eerr 0x32 va)
    | [] =>
      if tlfHeaderBad h p.a.src (blockValid p.a idx) || tlfMixed s o p.a then .error eFormat
      else .ok (((tlfCounts h).take (p.ks kb).length).sum, tlfTotal h == 0xFFFF, g)

/-- One row block of the census: its entries, terms and NaN blocks, or the conditions it meets. -/
def censusBlock (s : State) (o : EngOp) (p : MmaPar) (r : Nat) : List EErr × List Nat × Nat × Nat × List Fetch :=
  let cells := (List.range p.nkb).map (fun kb => (List.range 32).map (fun i => censusRow s o p (p.morg + 32 * r + i) kb))
  let flat := cells.flatten
  let errs := flat.filterMap (fun x => match x with | .error e => some e | .ok _ => none)
  let count (x : Except EErr (Nat × Bool × Got)) : Nat := match x with | .ok v => v.1 | .error _ => 0
  let entries := cells.flatMap (fun row => (List.range 4).map (fun g => maxNat (((row.drop (8 * g)).take 8).map count)))
  (errs, entries, (flat.map count).sum, (flat.filter (fun x => match x with | .ok v => v.2.1 | .error _ => false)).length,
   flat.flatMap (fun x => match x with | .ok v => v.2.2.lines | .error _ => []))

/-- The census of row blocks from `r` on: writes each block's entries; terms, NaN blocks, and the block that failed. -/
def censusRun (o : EngOp) (p : MmaPar) : Nat → Nat → Nat → Nat → State → State × Nat × Nat × Option (Nat × EErr)
  | 0, _, terms, nans, s => (s, terms, nans, none)
  | n + 1, r, terms, nans, s =>
    match censusBlock s o p r with
    | (e :: t, _, _, _, lines) => (askPages (noteReads s o lines) o (e :: t), terms, nans, some (r, e))
    | ([], entries, k, m, lines) =>
      let s := noteReads s o lines
      let s := if o.orphaned then s else
        padWrite s o.crew.cl o.crew.ts (o.aux + 16 + 4 * r * p.nkb) (entries.map (BitVec.ofNat 8 ·))
      censusRun o p n (r + 1) (terms + k) (nans + m) s

/-- The conditions of the first row block of the census that meets any. -/
def censusErrs (s : State) (o : EngOp) : List EErr :=
  let p := mmaPar o.image o.recs
  ((List.range (p.mlen / 32)).findSome? (fun r => let l := (censusBlock s o p r).1; if l.isEmpty then none else some l)).getD []

/-- MCENSUS runs and ends as one step, or waits for a read that has no answer; a stop asked before it ran leaves every row block out. -/
def endCensus (s : State) (n : Nat) (o : EngOp) : State :=
  match (if o.halt = 0 then holdOp s n (censusErrs s o) else none) with
  | some s => s
  | none =>
  let p := mmaPar o.image o.recs
  let x := if o.halt = 0 then censusRun o p (p.mlen / 32) 0 0 0 s else (s, 0, 0, none)
  let code := match x.2.2.2 with | some (r, e) => st e.code r | none => if o.halt = 0 then 0 else st o.halt 0
  let faddr := match x.2.2.2 with | some (_, e) => e.addr | none => 0
  let s := if o.orphaned then x.1 else
    padWrite x.1 o.crew.cl o.crew.ts o.aux (leBytes 8 x.2.1 ++ leBytes 4 x.2.2.1 ++ leBytes 4 code)
  endOp s n o [] code faddr

end Sys2Proof.Machine
end

