-- ==== Sys2Proof/Machine/Copy.lean ====
section
/-! DEFINITION. COPY (R220-R225, R339-R351): the block, its checks, and the bytes that one destination chunk receives. -/

namespace Sys2Proof.Machine

/-! The block (R220). -/

/-- A copy or grid transfer as its block and records describe it; a grid transfer reads its source through the stencil. -/
structure XferPar where
  src : Opnd
  dst : Opnd
  sorg : List Nat
  dorg : List Nat
  bext : List Nat
  perm : Bool
  mode : RMode
  seed : Nat
  cmap : Option Nat
  sfifo : Bool
  mcast : Bool
  detached : Bool
  scope : Nat
  bank : Nat
  mask : Nat
  deriving DecidableEq, Repr

def cmapOf (n : Nat) : Option Nat := if n = 0xFFFFFF then none else some n

/-- A COPY of a block image with its source and destination records. -/
def copyPar (img : List Byte) (recs : List (List Byte)) : XferPar :=
  let f := leAt img 4 4
  let r (i : Nat) : ObjRec := recOf ((recs[i]?).getD [])
  let w (o : Nat) : List Nat := (List.range 5).map (fun d => leAt img (o + 4 * d) 4)
  { src := { r := r 0, pad := tb f 0, src := slice f 12 8 }, dst := { r := r 1, pad := tb f 1, src := (r 0).fmt },
    sorg := w 0x10, dorg := w 0x28, bext := w 0x40, perm := tb f 5, mode := rmodeOf (slice f 10 2), seed := leAt img 8 4,
    cmap := cmapOf (leAt img 0x54 3), sfifo := tb f 2, mcast := tb f 3, detached := tb f 4, scope := slice f 7 3,
    bank := slice (leAt img 0x0C 4) 0 9, mask := leAt img 0x58 12 }

/-- Check 2 of a COPY (R220, R223, R224). -/
def copyBlockBad (img : List Byte) : Bool :=
  let f := leAt img 4 4
  let p := copyPar img []
  let fifo := p.sfifo || p.mcast
  slice f 20 12 != 0 || decide (1 < slice f 5 2) || decide (p.scope < 2) || decide (383 < p.bank) || (!fifo && p.bank != 0)
    || slice (leAt img 0x0C 4) 9 23 != 0 || leAt img 0x24 4 != 0 || leAt img 0x3C 4 != 0 || leAt img 0x57 1 != 0
    || leAt img 0x64 4 != 0 || leAt img 0x78 8 != 0 || (p.sfifo && (leAt img 0 2 != 0 || p.perm || p.mcast))
    || (p.mcast && (leAt img 2 2 != 0 || p.dst.pad || p.perm || p.cmap.isSome || p.mask == 0)) || (!p.mcast && p.mask != 0)
    || (p.detached && (p.src.pad || p.dst.pad || fifo || p.cmap.isSome)) || p.bext.any (· == 0)

/-! Boxes and chunks (R222, R343). -/

/-- Perm: the exchange of dimensions 0 and 1. -/
def permIdx (perm : Bool) (l : List Nat) : List Nat := if perm then [idxAt l 1, idxAt l 0, idxAt l 2, idxAt l 3, idxAt l 4] else l
def addIdx (a b : List Nat) : List Nat := (List.range 5).map (fun d => idxAt a d + idxAt b d)
def lastOf (ext : List Nat) : List Nat := ext.map (· - 1)

def XferPar.srcIdx (p : XferPar) (b : List Nat) : List Nat := addIdx p.sorg (permIdx p.perm b)
def XferPar.dstIdx (p : XferPar) (b : List Nat) : List Nat := addIdx p.dorg b
def XferPar.srcBox (p : XferPar) : List Nat × List Nat := (p.sorg, p.srcIdx (lastOf p.bext))
def XferPar.dstBox (p : XferPar) : List Nat × List Nat := (p.dorg, p.dstIdx (lastOf p.bext))

/-- Elements of the box, and the index of the `l`-th, dimension 0 fastest. -/
def boxCount (ext : List Nat) : Nat := ext.foldl (· * ·) 1
def boxAt (ext : List Nat) (l : Nat) : List Nat :=
  (ext.foldl (fun (acc : List Nat × Nat) e => (acc.1 ++ [acc.2 % max e 1], acc.2 / max e 1)) ([], l)).1

/-- Extents are 1 or more below RANK and 1 above. -/
def bextBad (rank : Nat) (ext : List Nat) : Bool :=
  (List.range 5).any (fun d => if d < rank then idxAt ext d == 0 else idxAt ext d != 1)

/-- Elements of a chunk of a format. -/
def chunkElems (fmt : Nat) : Nat := if isNib fmt then 1024 else 512 / max (fmtBits fmt / 8) 1

def XferPar.chunks (p : XferPar) : Nat :=
  if p.mcast then 1
  else if p.dst.r.fmt = fmtTlf then (p.dst.r.blocks + 15) / 16
  else (boxCount p.bext + chunkElems p.dst.r.fmt - 1) / chunkElems p.dst.r.fmt

/-- Box indices of chunk `c` of a destination that is not TLF. -/
def XferPar.chunkBox (p : XferPar) (c : Nat) : List (List Nat) :=
  let e := chunkElems p.dst.r.fmt
  (List.range (min e (boxCount p.bext - c * e))).map (fun j => boxAt p.bext (c * e + j))

def XferPar.mapBytes (p : XferPar) : Nat := (p.chunks + 7) / 8

/-- Bytes of `n` packed elements. -/
def packedBytes (fmt n : Nat) : Nat := (n * fmtBits fmt + 7) / 8

/-! Checks 3 (R198, R221, R224, R343). -/

/-- An MXFP4 destination box that cuts a block. -/
def mxBoxBad (p : XferPar) : Bool :=
  let d := p.dst.r.layout
  let hi := idxAt p.dorg d + idxAt p.bext d
  p.dst.r.fmt == fmtMx && (idxAt p.dorg d % 32 != 0 || (hi % 32 != 0 && hi != p.dst.r.extAt d))

/-- Formats and boxes that a COPY does not take. -/
def copyShapeBad (p : XferPar) : Bool :=
  let two := !p.sfifo && !p.mcast
  let tlfD := !p.mcast && p.dst.r.fmt == fmtTlf
  let tlfS := !p.sfifo && p.src.r.fmt == fmtTlf
  (two && p.src.r.rank != p.dst.r.rank) || (p.perm && decide (p.src.r.rank < 2))
    || (if tlfS then !isTlfSrc p.src.src else p.src.src != 0)
    || (tlfD && (tlfS || !isTlfSrc p.src.r.fmt || p.dorg.any (· != 0) || (List.range 5).any (fun d => idxAt p.bext d != p.dst.r.dim d)))
    || mxBoxBad p || (p.mcast && (tlfS || decide (512 < packedBytes p.src.r.fmt (boxCount p.bext))))

/-- The window rules of R379. -/
def copyWindowBad (s : State) (ctx : Nat) (p : XferPar) (ss sd : List Span) : Bool :=
  (!p.sfifo && opndInWindow s ctx p.src ss)
    || (!p.mcast && opndInWindow s ctx p.dst sd && (p.cmap.isSome || (match (windowMet s ctx sd).bind (look s.groups) with
        | some g => sd.any (fun a => decide (a.lo < (windowSpan g).lo) || decide ((windowSpan g).hi < a.hi))
        | none => false)))

/-- The ranges that a transfer registers: block, operands, and the chunk map as a guard. -/
def xferRanges (p : XferPar) (off : Nat) (ss sd : List Span) : List PadRange :=
  blockRange off 0x80 :: (padRanges p.src ss false true ++ padRanges p.dst sd true false
    ++ (match p.cmap with
      | some m => [{ lo := m, hi := m + p.mapBytes - 1, write := false, op := 0, atSrcFree := false, guard := true }]
      | none => []))

/-- A PAD range of the operation overlaps its own chunk map (R201). -/
def mapMeets (l : List PadRange) : Bool :=
  (l.filter (·.guard)).any (fun m => l.any (fun r => !r.guard && rangesMeet m r))

/-- Receivers of a multicast. -/
def receiversOf (p : XferPar) (cl : Nat) : List Nat :=
  if p.mcast then ((List.range 96).filter (tb p.mask)).map (fun i => 96 * dieNo cl + i) else []

/-- The operation of a transfer that passed its checks; a chunk map's bits are its progress (R222). -/
def xferOp (s : State) (c : EngCmd) (a : At) (p : XferPar) (img : List Byte) (recs : List (List Byte)) (win : Option Nat) : EngOp :=
  { newOp c a img recs with scope := p.scope, detached := p.detached, engine := copyEngineOf a.ref.cl,
                            progress := [0, match p.cmap with | some m => padNat s a.ref.cl a.ref.ts m p.mapBytes | none => 0],
                            aux := match win with | some g => g + 1 | none => 0 }

def copyRecs (img : List Byte) : List (Nat × List Nat) :=
  let p := copyPar img []
  (if p.sfifo then [] else [(leAt img 0 2, [0, 3])]) ++ (if p.mcast then [] else [(leAt img 2 2, [1, 3])])

/-- Check 1 for the chunk map that a block names: `p` gives the parameters from the destination's record, which fixes the map's
size; where that record cannot be read, the map is as small as a map of the box can be (log 36). -/
def cmapBad (s : State) (a : At) (dst : Nat) (p : List Byte → XferPar) : Bool :=
  match (p []).cmap with
  | none => false
  | some m =>
    let n := match (recRead s a.ref.cl a.ctx dst).2 with
      | .ok r => (p r).mapBytes
      | .error _ => (boxCount (p []).bext + 8191) / 8192
    decide (padSize a.team < m + n)

/-- Checks 1 to 3 of a COPY. -/
def copyPlan (c : EngCmd) (a : At) (s : State) : State × Except FaultInfo EngPlan :=
  match engBlock s a c.off 0x80 with
  | .error f => (s, .error f)
  | .ok img =>
    if cmapBad s a (leAt img 2 2) (fun r => copyPar img [[], r]) then (s, .error (fault .bounds))
    else if copyBlockBad img then (s, .error (fault .format))
    else match engRecs s a true (copyRecs img) with
      | (s, .error f) => (s, .error f)
      | (s, .ok l) =>
        let recs := if (copyPar img []).sfifo then [] :: l else l
        let p := copyPar img recs
        let ss := if p.sfifo then [] else spansOf p.src p.srcBox
        let sd := if p.mcast then [] else spansOf p.dst p.dstBox
        let size := padSize a.team
        let ranges := xferRanges { p with src := { p.src with pad := p.src.pad && !p.sfifo } } c.off ss sd
        let bank := bankOf (clusterOf s a.ref.cl) p.bank
        if (p.src.pad && ss.any (Span.outside size)) || (p.dst.pad && sd.any (Span.outside size)) then (s, .error (fault .bounds))
        else if bextBad (if p.mcast then p.src.r.rank else p.dst.r.rank) p.bext || copyShapeBad p || opndsMeet p.src ss p.dst sd || mapMeets ranges || copyWindowBad s a.ctx p ss sd
            || (p.sfifo && !(decide (bank.mode = .fifo) && bank.owner == a.ref.ts)) then (s, .error (fault .format))
        else if (!p.sfifo && boxBad p.src.r p.srcBox) || (!p.mcast && boxBad p.dst.r p.dstBox) then (s, .error (fault .bounds))
        else
          let win := if p.mcast || p.dst.pad then none else windowMet s a.ctx sd
          (s, .ok { op := xferOp s c a p img recs win, ranges := ranges, receivers := receiversOf p a.ref.cl, bank := p.bank, window := win,
                    globals := globalSpans p.src ss [.load] ++ globalSpans p.dst sd [.store] })

def execCopy (f : ENG) (s : State) : Out :=
  issueWord (engSpec f false false false false) (fun a act s =>
    engIssue copyPlan (fun _ _ _ => none) (engCmd s f .copy false a (act.headD 0)) none a s) s

/-! Source elements (R78, R344, R351). -/

/-- A source element: its code, its value, and the scale byte of its MXFP4 block. -/
structure XVal where
  code : Nat
  val : FVal
  scale : Nat
  deriving DecidableEq, Repr

def XVal.zero : XVal := { code := 0, val := zeroVal, scale := 0 }

/-- The source element of box index `b`. -/
def copySrc (s : State) (o : EngOp) (p : XferPar) (b : List Nat) : Stage XVal :=
  let idx := p.srcIdx b
  if p.src.r.fmt = fmtTlf then
    let r := stageTlf s o false p.src idx
    { val := { code := 0, val := (r.val.vals[idxAt idx 0 % 32]?).getD zeroVal, scale := 0 }, errs := r.errs, lines := r.lines,
      bad := r.bad, sticky := r.sticky }
  else match engElem s o p.src idx with
    | .error e => { Stage.pure XVal.zero with errs := [e] }
    | .ok e =>
      let v := codeVal p.src.r.fmt e.code e.scale
      { val := { code := e.code, val := v.1, scale := e.scale }, errs := (poisonOf false 0 e.got).1, lines := e.got.lines, bad := [],
        sticky := v.2 }

/-- The element's bits as a copy of one format moves them. -/
def sameCode (fmt code : Nat) : Nat := if fmt = fmtInt4 && code = 8 then 0 else code

/-- Is the source an integer source (R78)? -/
def intSource (p : XferPar) : Bool := isIntFmt (if p.src.r.fmt = fmtTlf then p.src.src else p.src.r.fmt)

def XferPar.dith (p : XferPar) (t : List Nat) : Nat := dither p.seed (p.dst.r.lin t)

/-- The code that box index `b` receives in a destination other than MXFP4 and TLF. -/
def copyCode (s : State) (o : EngOp) (p : XferPar) (b : List Nat) : Stage Nat :=
  let r := copySrc s o p b
  let q : Rounded := if p.src.r.fmt = p.dst.r.fmt then { code := sameCode p.dst.r.fmt r.val.code, sticky := 0 }
    else convert p.dst.r.fmt (intSource p) p.mode (p.dith (p.dstIdx b)) r.val.val
  { val := q.code, errs := r.errs, lines := r.lines, bad := r.bad, sticky := r.sticky ||| q.sticky }

/-! Chunks. -/

/-- What a chunk makes: the cells it writes or the conditions it meets, the lines it read, sticky bits, clipped elements. -/
structure ChunkOut where
  cells : List Cell
  errs : List EErr
  lines : List Fetch
  sticky : Nat
  clipped : Nat
  /-- source elements read of MXFP4 blocks that have chunks still to come, and the places of those that no chunk needs any more -/
  kept : List KeptElem := []
  spent : List Nat := []
  /-- the granule after the chunk's last block -/
  granule : Nat := 0
  deriving DecidableEq, Repr

/-- Writes of a chunk, or the conditions that they meet. -/
def joinCells (l : List (Except EErr (List Cell))) : List EErr × List Cell :=
  (l.filterMap (fun x => match x with | .error e => some e | .ok _ => none),
   l.flatMap (fun x => match x with | .ok c => c | .error _ => []))

/-- A chunk of reads that met `errs`, and writes; conditions of the writes count when the reads met none. -/
def chunkOut (errs : List EErr) (lines : List Fetch) (sticky clipped : Nat) (w : List (Except EErr (List Cell))) : ChunkOut :=
  let j := joinCells w
  { cells := j.2, errs := if errs.isEmpty then j.1 else errs, lines := lines, sticky := sticky, clipped := clipped }

/-- The write of one destination element. -/
def putElem (s : State) (o : EngOp) (d : Opnd) (t : List Nat) (code : Nat) : Except EErr (List Cell) :=
  let a := d.r.addr t
  if isNib d.r.fmt then engNibble s o d.pad a.1 a.2 code else engCells s o d.pad a.1 (leBytes (fmtBits d.r.fmt / 8) code)

/-- A chunk of a destination of plain elements; `gen` gives each element's code. -/
def plainChunk (s : State) (o : EngOp) (p : XferPar) (gen : List Nat → Stage Nat) (c : Nat) : ChunkOut :=
  let bs := p.chunkBox c
  let r := stageAll gen bs
  chunkOut r.errs r.lines r.sticky 0 ((bs.zip r.val).map (fun x => putElem s o p.dst (p.dstIdx x.1) x.2))

/-- The destination index with dimension `d` at `v`. -/
def atDim (t : List Nat) (d v : Nat) : List Nat := modAt t d (fun _ => v)

/-- Scale and codes of an MXFP4 block from its elements; `moves`: a copy between MXFP4 records (R344). -/
def mxBlock (p : XferPar) (moves : Bool) (fresh : Nat) (ts : List (List Nat)) (l : List XVal) : Nat × List Rounded :=
  if moves then
    let sc := (l.map (·.scale)).eraseDups
    (if sc.length ≤ 1 then sc.headD 0 else (Config.freeScale fresh).toNat, l.map (fun x => { code := x.code, sticky := 0 }))
  else match mxScale (l.map (·.val)) with
    | none => (0xFF, l.map (fun _ => { code := 0, sticky := stNv }))
    | some c => (c, (ts.zip l).map (fun x => mxElem c p.mode (p.dith x.1) x.2.val))

/-- Is chunk `c` done: the progress LOW and the mask from it on (R222, R347)? A chunk map in PAD holds the same bits; stores keep off
it while the operation runs (R201). -/
def chunkSet (o : EngOp) (c : Nat) : Bool := decide (c < idxAt o.progress 0) || tb (idxAt o.progress 1) (c - idxAt o.progress 0)

/-- The linear place of a box index. -/
def boxLin (ext b : List Nat) : Nat :=
  ((List.range 5).foldl (fun (acc : Nat × Nat) d => (acc.1 + idxAt b d * acc.2, acc.2 * idxAt ext d)) (0, 1)).1

/-- A source element, read now unless an earlier chunk has read it (R341). -/
def keptOr (o : EngOp) (p : XferPar) (memb : List Nat → Stage XVal) (b : List Nat) : Stage XVal :=
  match o.kept.find? (fun k => k.place == boxLin p.bext b) with
  | some k => { Stage.pure { code := k.code, val := k.val, scale := k.scale } with sticky := k.sticky }
  | none => memb b

/-- What a chunk writes of the MXFP4 block that starts at index `t0`: its own elements, and with the block's first element
the scale byte and the padding codes (R79, R222). A FIFO message carries codes only. Every element of the block is read once, and kept
until the last chunk that holds one of them (R341). -/
def mxBlockOut (s : State) (o : EngOp) (p : XferPar) (memb : List Nat → Stage XVal) (mine : List (List Nat)) (c fresh : Nat)
    (t0 : List Nat) : ChunkOut :=
  let d := p.dst.r.layout
  let i0 := idxAt t0 d
  let ts := (List.range (min 32 (p.dst.r.extAt d - i0))).map (fun k => atDim t0 d (i0 + k))
  let boxOf (t : List Nat) : List Nat := (List.range 5).map (fun k => idxAt t k - idxAt p.dorg k)
  let st := ts.map (fun t => keptOr o p memb (boxOf t))
  let q := mxBlock p (p.sfifo || p.src.r.fmt == fmtMx) fresh ts (st.map (·.val))
  let own := ((ts.zip q.2).zip st).filter (fun x => mine.contains x.1.1)
  let first := mine.contains t0
  let pad := if first then (List.range (32 - ts.length)).map (fun k => putElem s o p.dst (atDim t0 d (i0 + ts.length + k)) 0) else []
  let scale := if first && !p.sfifo then [engCells s o p.dst.pad (p.dst.r.scaleAddr t0) [BitVec.ofNat 8 q.1]] else []
  let places := ts.map (fun t => boxLin p.bext (boxOf t))
  let more := places.any (fun l => l / 1024 != c && !chunkSet o (l / 1024))
  let kept := if !more then [] else (places.zip st).map (fun x =>
    { place := x.1, code := x.2.val.code, val := x.2.val.val, scale := x.2.val.scale, sticky := x.2.sticky : KeptElem })
  { chunkOut (st.flatMap (·.errs)) (st.flatMap (·.lines)) (own.foldl (fun n x => n ||| x.1.2.sticky ||| x.2.sticky) 0) 0
      (own.map (fun x => putElem s o p.dst x.1.1 x.1.2.code) ++ scale ++ pad) with kept := kept, spent := if more then [] else places }

/-- A chunk of an MXFP4 destination. -/
def mxChunk (s : State) (o : EngOp) (p : XferPar) (memb : List Nat → Stage XVal) (c : Nat) : ChunkOut :=
  let mine := (p.chunkBox c).map p.dstIdx
  let d := p.dst.r.layout
  let starts := (mine.map (fun t => atDim t d (idxAt t d / 32 * 32))).eraseDups
  let l := ((List.range starts.length).zip starts).map (fun x => mxBlockOut s o p memb mine c (s.fresh + x.1) x.2)
  { cells := l.flatMap (·.cells), errs := l.flatMap (·.errs), lines := l.flatMap (·.lines),
    sticky := l.foldl (fun n x => n ||| x.sticky) 0, clipped := 0, kept := l.flatMap (·.kept), spent := l.flatMap (·.spent) }

/-! TLF destinations (R84, R341). -/

/-- Indices of the elements of block `b`. -/
def tlfBlockIdx (r : ObjRec) (b : Nat) : List (List Nat) :=
  let rest := boxAt [r.dim 1, r.dim 2, r.dim 3, r.dim 4] (b / r.nb0)
  let i0 := b % r.nb0 * 32
  (List.range (min 32 (r.dim 0 - i0))).map (fun k => (i0 + k) :: rest)

/-- Block `b` encoded from its source elements: with the conditions and lines of its reads. -/
def tlfBlockOut (s : State) (o : EngOp) (p : XferPar) (b : Nat) : Stage TlfOut :=
  let ts := tlfBlockIdx p.dst.r b
  let r := stageAll (copySrc s o p) ts
  let q := tlfEncode p.dst.src p.mode ((ts.zip r.val).map (fun x => (x.2.code, x.2.val, p.dith x.1)))
  { val := q, errs := r.errs, lines := r.lines, bad := r.bad, sticky := r.sticky ||| q.sticky }

/-- Bytes of the destination that the engine reads back to find its place. -/
def destRead (s : State) (o : EngOp) (pad : Bool) (a n : Nat) : Except EErr (List Byte) :=
  if pad then .ok (padBytes s o.crew.cl o.crew.ts a n)
  else (linePieces a n).foldr (fun x acc =>
    match engByte s o x.1 true, acc with
    | .error e, _ => .error e
    | .ok _, .error e => .error e
    | .ok (k, bad), .ok l => if unanswered s k then .error (eQuiet k) else if bad then .error (eerr 0x32 x.1) else .ok (homeBytes s k x.2 ++ l)) (.ok [])

/-- The granule at which chunk `c` starts: after block 16c - 1 as its index entry and header give it. A window cannot be read; there
the engine has written that block itself and knows its end. -/
def tlfStart (s : State) (o : EngOp) (p : XferPar) (c : Nat) : Except EErr Nat :=
  if c = 0 then .ok 0
  else if o.aux ≠ 0 then .ok o.granule
  else match destRead s o p.dst.pad (p.dst.r.tlfidx + 4 * (16 * c - 1)) 4 with
    | .error e => .error e
    | .ok l =>
      if payload p.dst.r p.dst.src ≤ 16 * leNat l then .error eFormat
      else match destRead s o p.dst.pad (p.dst.r.base + 16 * leNat l) 16 with
        | .error e => .error e
        | .ok h => .ok (leNat l + tlfGranules h)

/-- Writes of blocks from number `b` on, from granule `g` on. -/
def tlfWrites (s : State) (o : EngOp) (p : XferPar) : Nat → Nat → List TlfOut → List (Except EErr (List Cell))
  | _, _, [] => []
  | b, g, x :: t =>
    let n := x.bytes.length / 16
    if payload p.dst.r p.dst.src < 16 * (g + n) then [.error eFormat]
    else engCells s o p.dst.pad (p.dst.r.tlfidx + 4 * b) (leBytes 4 g) :: engCells s o p.dst.pad (p.dst.r.base + 16 * g) x.bytes
      :: tlfWrites s o p (b + 1) (g + n) t

def tlfChunk (s : State) (o : EngOp) (p : XferPar) (c : Nat) : ChunkOut :=
  match tlfStart s o p c with
  | .error e => { cells := [], errs := [e], lines := [], sticky := 0, clipped := 0 }
  | .ok g =>
    let r := stageAll (tlfBlockOut s o p) ((List.range (min 16 (p.dst.r.blocks - 16 * c))).map (16 * c + ·))
    { chunkOut r.errs r.lines r.sticky ((r.val.map (·.clipped)).sum) (tlfWrites s o p (16 * c) g r.val) with
      granule := g + (r.val.map (fun x => x.bytes.length / 16)).sum }

/-! FIFO messages (R224). -/

/-- Element `l` of a packed message. -/
def packedElem (fmt : Nat) (m : List Byte) (l : Nat) : Nat :=
  if isNib fmt then (let b := leAt m (l / 2) 1; if l % 2 = 0 then b % 16 else b / 16)
  else leAt m (l * (fmtBits fmt / 8)) (fmtBits fmt / 8)

/-- Codes packed as a message, a trailing half byte padded with zero. -/
def packElems (fmt : Nat) (l : List Nat) : List Byte :=
  if isNib fmt then (List.range ((l.length + 1) / 2)).map (fun i => BitVec.ofNat 8 ((l[2 * i]?).getD 0 % 16 + (l[2 * i + 1]?).getD 0 * 16))
  else l.flatMap (leBytes (fmtBits fmt / 8))

/-- The chunk of a FIFO reception: the message's bytes as elements; another size than the box's is a stop. -/
def fifoChunk (s : State) (o : EngOp) (p : XferPar) (m : List Byte) (c : Nat) : ChunkOut :=
  let code (b : List Nat) : Nat := packedElem p.dst.r.fmt m (boxLin p.bext b)
  let elem (x : Nat) : Stage Nat :=
    { Stage.pure (sameCode p.dst.r.fmt x) with sticky := if p.dst.r.fmt = fmtInt4 && x = 8 then stInt4Rsv else 0 }
  if m.length ≠ packedBytes p.dst.r.fmt (boxCount p.bext) then { cells := [], errs := [eFormat], lines := [], sticky := 0, clipped := 0 }
  else if p.dst.r.fmt = fmtMx then mxChunk s o p (fun b => Stage.pure { XVal.zero with code := code b }) c
  else plainChunk s o p (fun b => elem (code b)) c

/-- The message of a multicast: the source box packed in its format. -/
def mcastMessage (s : State) (o : EngOp) (p : XferPar) : Stage (List Byte) :=
  let r := stageAll (copySrc s o p) ((List.range (boxCount p.bext)).map (boxAt p.bext))
  { val := packElems p.src.r.fmt (r.val.map (fun x => sameCode p.src.r.fmt x.code)), errs := r.errs, lines := r.lines, bad := r.bad,
    sticky := r.sticky }

/-- The chunk of a COPY that neither receives nor sends a message. -/
def copyChunk (s : State) (o : EngOp) (p : XferPar) (c : Nat) : ChunkOut :=
  if p.dst.r.fmt = fmtTlf then tlfChunk s o p c
  else if p.dst.r.fmt = fmtMx then mxChunk s o p (copySrc s o p) c
  else plainChunk s o p (copyCode s o p) c

end Sys2Proof.Machine
end

