-- ==== Sys2Proof/Machine/Screed.lean ====
section
/-! DEFINITION. GXFER (R226-R230, R338, R352-R354): its block, the stencil record, its checks, and its elements. -/

namespace Sys2Proof.Machine

/-! Records in global memory that a command reads at issue (R198, R227, R232). -/

/-- Check pieces of a record as loads of the issuing fibre. -/
def engLoadCheck (s : State) (a : At) : List (Nat × Nat) → State × Except FaultInfo (List Nat)
  | [] => (s, .ok [])
  | (va, n) :: t =>
    match checkVa s a { kind := .load, n := n, pol := .bypass } va va true false with
    | (s, .error f) => (s, .error { f with width := 16 })
    | (s, .ok (.pad _)) => (s, .ok [])
    | (s, .ok (.mem k _)) =>
      match engLoadCheck s a t with
      | (s, .error f) => (s, .error f)
      | (s, .ok l) => (s, .ok (k :: l))

/-- Read a record of `n` bytes at its home, after the cluster's own stores to it. -/
def engLoad (s : State) (a : At) (va n : Nat) : State × Except FaultInfo (List Byte) :=
  if 2 ^ 57 < va + n then (s, .error { accFault .protection { kind := .load, n := 16, pol := .bypass } va va noToken with width := 16 })
  else
    let ps := linePieces va n
    match engLoadCheck s a ps with
    | (s, .error f) => (s, .error f)
    | (s, .ok ks) =>
      let s := writeBackSpans s a.ref.cl (spans s (dieNo a.ref.cl) a.ctx va n)
      ((ks.zip ps).foldl (fun s x => (homeRead s (dieNo a.ref.cl) x.1 x.2.2 a.ctx false).1) s,
       .ok ((ks.zip ps).flatMap (fun x => homeBytes s x.1 x.2.2)))

/-! The block and the stencil (R226, R227). -/

/-- A stencil record. -/
structure Stencil where
  ext : List Nat
  cen : List Nat
  rank : Nat
  dexp : Nat
  bad : Bool
  img : List Byte
  deriving DecidableEq, Repr

def Stencil.weight (x : Stencil) (o : List Nat) : Int := sext 16 (leAt x.img (0x10 + 2 * (idxAt o 0 + 3 * idxAt o 1 + 9 * idxAt o 2)) 2)

/-- The 27 offsets of a stencil. -/
def offsets27 : List (List Nat) := (List.range 27).map (fun i => [i % 3, i / 3 % 3, i / 9])

def insideExt (ext o : List Nat) : Bool := (List.range 3).all (fun d => decide (idxAt o d < idxAt ext d))

def stencilOf (l : List Byte) : Stencil :=
  let b0 := leAt l 0 1
  let b1 := leAt l 1 1
  let ext := (List.range 3).map (fun d => slice b0 (2 * d) 2)
  let cen := (List.range 3).map (fun d => slice b1 (2 * d) 2)
  let rank := leAt l 2 1
  let x : Stencil := { ext := ext, cen := cen, rank := rank, dexp := slice (leAt l 3 1) 0 4, bad := false, img := l }
  { x with bad := slice b0 6 2 != 0 || slice b1 6 2 != 0 || slice (leAt l 3 1) 4 4 != 0 || leAt l 4 12 != 0 || leAt l 0x46 0x3A != 0
      || decide (12 < x.dexp) || rank == 0 || decide (3 < rank)
      || (List.range 3).any (fun d => if d < rank then idxAt ext d == 0 else idxAt ext d != 1)
      || (List.range 3).any (fun d => decide (idxAt ext d ≤ idxAt cen d))
      || offsets27.any (fun o => !insideExt ext o && x.weight o != 0) }

/-- What a grid transfer adds to a transfer's parameters: mode 0 RESTRICT, 1 PROLONG, 2 INJECT. -/
structure GxPar where
  mode : Nat
  cell : Bool
  bnd : List Nat
  add : Bool
  stencil : Nat
  deriving DecidableEq, Repr

def gxPar (img : List Byte) : GxPar :=
  let f := leAt img 4 4
  { mode := slice f 3 2, cell := tb f 5, bnd := [slice f 6 2, slice f 8 2, slice f 10 2], add := tb f 17, stencil := leAt img 0x10 8 }

/-- The transfer of a GXFER block: its source is the whole source grid. -/
def gxferPar (img : List Byte) (recs : List (List Byte)) : XferPar :=
  let f := leAt img 4 4
  let r (i : Nat) : ObjRec := recOf ((recs[i]?).getD [])
  let w (o : Nat) : List Nat := (List.range 3).map (fun d => leAt img (o + 4 * d) 4)
  { src := { r := r 0, pad := tb f 0, src := 0 }, dst := { r := r 1, pad := tb f 1, src := 0 }, sorg := [0, 0, 0, 0, 0],
    dorg := w 0x18 ++ [0, 0], bext := w 0x28 ++ [1, 1], perm := false, mode := rmodeOf (slice f 15 2), seed := leAt img 8 4,
    cmap := cmapOf (leAt img 0x0C 3), sfifo := false, mcast := false, detached := tb f 2, scope := slice f 12 3, bank := 0, mask := 0 }

/-- Check 2 of a GXFER. -/
def gxferBlockBad (img : List Byte) : Bool :=
  let p := gxferPar img []
  let g := gxPar img
  g.mode == 3 || slice (leAt img 4 4) 18 14 != 0 || decide (p.scope < 2) || leAt img 0x0F 1 != 0 || leAt img 0x24 4 != 0
    || leAt img 0x34 4 != 0 || leAt img 0x3C 4 != 0 || leAt img 0x48 0x38 != 0 || g.stencil % 128 != 0 || (g.mode == 2 && g.stencil != 0)
    || (p.detached && (p.src.pad || p.dst.pad || p.cmap.isSome))

/-! Grids (R228, R352). -/

/-- Do a fine and a coarse extent fit the family? -/
def pairFits (cell : Bool) (fine coarse : Nat) : Bool :=
  if cell then fine % 2 == 0 && decide (2 ≤ fine) && coarse == fine / 2
  else fine % 2 == 1 && decide (3 ≤ fine) && coarse == (fine + 1) / 2

def gxferShapeBad (p : XferPar) (g : GxPar) (x : Option Stencil) : Bool :=
  let rank := p.src.r.rank
  rank != p.dst.r.rank || decide (3 < rank) || (match x with | some x => x.rank != rank | none => false)
    || !([1, 2, 3].contains p.src.r.fmt) || !([1, 2, 3, 4, 5].contains p.dst.r.fmt)
    || decide (2 < p.src.r.layout) || decide (2 < p.dst.r.layout)
    || (List.range rank).any (fun d =>
        let a := p.src.r.extAt d
        let b := p.dst.r.extAt d
        if g.mode = 1 then !pairFits g.cell b a else !pairFits g.cell a b)

/-- The boundary rule of one dimension of extent `n`. -/
def bndMap (rule : Nat) (cell : Bool) (n : Nat) (j : Int) : Option Nat :=
  let k : Int :=
    if 0 ≤ j && j < n then j
    else match rule with
      | 1 => if cell then (if j < 0 then -1 - j else 2 * n - 1 - j) else (if j < 0 then -j else 2 * (n - 1) - j)
      | 2 => if cell then j % n else j % (n - 1)
      | 3 => if j < 0 then 0 else n - 1
      | _ => j
  if 0 ≤ k && k < n then some k.toNat else none

/-- Every dimension of an index, or none. -/
def allDims : List (Option Nat) → Option (List Nat)
  | [] => some []
  | none :: _ => none
  | some x :: t => (allDims t).map (x :: ·)

/-- The source index of offset `o` for destination index `i`, before the boundary rule (R229). -/
def sourceAt (mode : Nat) (i o c : Nat) : Option Int :=
  match mode with
  | 0 => some (2 * i + o - c)
  | 1 => if ((i : Int) - o + c) % 2 = 0 then some (((i : Int) - o + c) / 2) else none
  | _ => some (2 * i)

def sourceIdx (p : XferPar) (g : GxPar) (cen i o : List Nat) : Option (List Nat) :=
  allDims ((List.range 5).map (fun d =>
    if p.src.r.rank ≤ d then some 0
    else match sourceAt g.mode (idxAt i d) (idxAt o d) (idxAt cen d) with
      | none => none
      | some j => bndMap (idxAt g.bnd d) g.cell (p.src.r.extAt d) j))

/-- Contributions to destination index `i`: source index and weight as a value. -/
def contributions (p : XferPar) (g : GxPar) (x : Stencil) (i : List Nat) : List (List Nat × FVal) :=
  if g.mode = 2 then ((sourceIdx p g [] i []).map (fun j => (j, FVal.fin false 1 0))).toList
  else offsets27.filterMap (fun o =>
    let w := x.weight o
    if w = 0 then none else (sourceIdx p g x.cen i o).map (fun j => (j, .fin (decide (w < 0)) w.natAbs (-(x.dexp : Int)))))

/-- One weighted element read at its home. -/
def weighted (s : State) (o : EngOp) (d : Opnd) (e : List Nat × FVal) : Stage FVal :=
  match engElem s o d e.1 with
  | .error f => { Stage.pure zeroVal with errs := [f] }
  | .ok v => { val := (fMul (codeVal d.r.fmt v.code v.scale).1 e.2).1, errs := (poisonOf false 0 v.got).1, lines := v.got.lines,
               bad := [], sticky := 0 }

/-- The code of a destination element of a GXFER (R229, R230). -/
def gxferCode (s : State) (o : EngOp) (p : XferPar) (g : GxPar) (x : Stencil) (b : List Nat) : Stage Nat :=
  let i := p.dstIdx b
  let l := stageAll (weighted s o p.src) (contributions p g x i)
  let m := if g.add then stageAll (weighted s o p.dst) [(i, .fin false 1 0)] else stageAll (weighted s o p.dst) []
  let q := screedSum (fpOf p.dst.r.fmt) p.mode (p.dith i) (l.val ++ m.val)
  { val := q.code, errs := l.errs ++ m.errs, lines := l.lines ++ m.lines, bad := [], sticky := q.sticky }

def gxferChunk (s : State) (o : EngOp) (p : XferPar) (c : Nat) : ChunkOut :=
  plainChunk s o p (gxferCode s o p (gxPar o.image) (stencilOf ((o.recs[2]?).getD []))) c

/-! Checks. -/

/-- The stencil of a command that names one. -/
def readStencil (s : State) (a : At) (g : GxPar) : State × Except FaultInfo (List Byte) :=
  if g.mode = 2 then (s, .ok []) else engLoad s a g.stencil 128

/-- Checks 1 to 3 of a GXFER. -/
def gxferPlan (c : EngCmd) (a : At) (s : State) : State × Except FaultInfo EngPlan :=
  match engBlock s a c.off 0x80 with
  | .error f => (s, .error f)
  | .ok img =>
    let g := gxPar img
    if cmapBad s a (leAt img 2 2) (fun r => gxferPar img [[], r]) then (s, .error (fault .bounds))
    else if gxferBlockBad img then (s, .error (fault .format))
    else match engRecs s a false [(leAt img 0 2, [0, 3]), (leAt img 2 2, if g.add then [0, 1, 3] else [1, 3])] with
      | (s, .error f) => (s, .error f)
      | (s, .ok recs) =>
        match readStencil s a g with
        | (s, .error f) => (s, .error f)
        | (s, .ok st) =>
          let p := gxferPar img recs
          let ss := spansOf p.src (p.sorg, p.src.r.ext.map (· - 1))
          let sd := spansOf p.dst p.dstBox
          let size := padSize a.team
          let ranges := xferRanges p c.off ss sd
          if g.mode ≠ 2 && (stencilOf st).bad then (s, .error (fault .format))
          else if (p.src.pad && ss.any (Span.outside size)) || (p.dst.pad && sd.any (Span.outside size)) then (s, .error (fault .bounds))
          else if bextBad p.dst.r.rank p.bext || gxferShapeBad p g (if g.mode = 2 then none else some (stencilOf st)) || opndsMeet p.src ss p.dst sd || mapMeets ranges
              || opndInWindow s a.ctx p.src ss || opndInWindow s a.ctx p.dst sd then (s, .error (fault .format))
          else if boxBad p.dst.r p.dstBox then (s, .error (fault .bounds))
          else
            let rec_ : Span := { lo := g.stencil, hi := g.stencil + 127 }
            (s, .ok { op := xferOp s c a p img (recs ++ [st]) none, ranges := ranges, receivers := [], bank := 0, window := none,
                      globals := globalSpans p.src ss [.load] ++ globalSpans p.dst sd (if g.add then [.load, .store] else [.store])
                        ++ (if g.mode = 2 then [] else [(rec_, [.load])]) })

def execGxfer (f : ENG) (s : State) : Out :=
  issueWord (engSpec f false false false false) (fun a act s =>
    engIssue gxferPlan (fun _ _ _ => none) (engCmd s f .gxfer false a (act.headD 0)) none a s) s

end Sys2Proof.Machine
end

