-- ==== Sys2Proof/Machine/Xfer.lean ====
section
/-! DEFINITION. The copy engines (R204, R222-R224, R312, R340-R350): start, chunks, SRCFREE, multicast within the die and into
windows (R380-R384, R402), completion. -/

namespace Sys2Proof.Machine

/-- The parameters of a COPY or GXFER in progress. -/
def xferPar (o : EngOp) : XferPar := if o.kind = .gxfer then gxferPar o.image o.recs else copyPar o.image o.recs

def isXfer (o : EngOp) : Bool := o.kind == .copy || o.kind == .gxfer

/-! Start (R341). -/

def runningOn (s : State) (die e : Nat) : Nat := (s.ops.filter (fun o => onCopyEngine die e o.2 && decide (o.2.phase = .running))).length

/-- The operation that a copy engine starts next: at most four run at once. -/
def nextCopy (s : State) (die e : Nat) : Option Nat :=
  if 4 ≤ runningOn s die e then none
  else (s.ops.find? (fun o => onCopyEngine die e o.2 && decide (o.2.phase = .queued))).map (·.1)

/-- The cycles that a chunk of 512 destination bytes takes at the rates of R342; the times of the model are its own (log 1). -/
def chunkTime (o : EngOp) : Nat :=
  let p := xferPar o
  let n := chunkElems p.dst.r.fmt
  (if o.kind = .gxfer then n / 8 else max 4 (n * fmtBits p.src.r.fmt / 1024))
    + (if p.dst.r.fmt = fmtTlf || p.dst.r.fmt = fmtMx then 32 else 0)

def execCopyOpStart (die e : Nat) (s : State) : Out :=
  match nextCopy s die e with
  | none => .next s
  | some n => .next (updOp s n (fun o => { o with phase := .running, ended := s.cycle + chunkTime o }))

/-! Progress (R222, R347). -/

/-- The lowest chunk that is not done. -/
def firstOpen (o : EngOp) (p : XferPar) : Option Nat :=
  ((List.range (p.chunks - o.nextTile)).find? (fun i => !chunkSet o (o.nextTile + i))).map (o.nextTile + ·)

/-- Progress after chunk `c`: the low mark moves over the chunks that are done. -/
def markProgress (l : List Nat) (c : Nat) : List Nat :=
  let lo := idxAt l 0
  let m := idxAt l 1 ||| 2 ^ (c - lo)
  let k := ((List.range 65).find? (fun i => !tb m i)).getD 65
  [lo + k, m / 2 ^ k]

/-- Chunk `c` is done: the progress goes on, and its map bit is set. -/
def markChunk (s : State) (n : Nat) (o : EngOp) (p : XferPar) (c : Nat) : State :=
  let s := updOp s n (fun x => { x with nextTile := if firstOpen o p = some c then c + 1 else x.nextTile,
                                        ended := s.cycle + chunkTime o, progress := markProgress x.progress c })
  match p.cmap with
  | none => s
  | some m =>
    if o.orphaned || o.blockGone then s
    else
      let b := padNat s o.crew.cl o.crew.ts (m + c / 8) 1
      let s := padWrite s o.crew.cl o.crew.ts (m + c / 8) [BitVec.ofNat 8 (b ||| 2 ^ (c % 8))]
      updTeam s o.crew.cl o.crew.ts (fun t => { t with chunkScopes := put t.chunkScopes (8 * m + c) p.scope })

/-! FIFO messages (R224, R312). -/

/-- Is the head message of the bank taken by another operation that has not freed it? -/
def headTaken (s : State) (n : Nat) (o : EngOp) (p : XferPar) : Bool :=
  s.ops.any (fun x => x.1 != n && x.2.kind == .copy && x.2.crew.cl == o.crew.cl && (copyPar x.2.image []).sfifo
    && (copyPar x.2.image []).bank == p.bank && !x.2.msg.isEmpty && !x.2.srcFreeDone)

/-- The message that a FIFO source reads. -/
def fifoHead (s : State) (n : Nat) (o : EngOp) (p : XferPar) : Option (List Byte) :=
  if headTaken s n o p then none else (bankOf (clusterOf s o.crew.cl) p.bank).slots.head?.map (·.bytes)

/-- Restore one slot at receiver `x` to a sender. -/
def restoreSlot (s : State) (sender x bank : Nat) : State :=
  updCluster s sender (fun c => giveSlot c x bank)

/-- Free the head slot of a bank: the sender's counter rises; an empty bank is bound to nobody. -/
def popMessage (s : State) (cl bank : Nat) : State :=
  let b := bankOf (clusterOf s cl) bank
  match b.slots with
  | [] => s
  | m :: t =>
    restoreSlot (updCluster s cl (fun c => setBank c bank { b with slots := t, bound := if t.isEmpty then none else b.bound }))
      m.sender cl bank

/-! Multicast windows (R380-R383, R402). -/

/-- The dispatcher grids of a context. -/
def dispatcherIds (s : State) (ctx : Nat) : List W64 :=
  (s.grids.filter (fun g => g.ctx == ctx && g.parent.isNone && g.launcher.isNone && !g.priv)).map (fun g => gridHolder ctx g.gid)

/-- The code of a token fault at a member. -/
def mcastTokenCode (k : FKind) : Nat := match k with | .unowned => 0x05 | .ownmode => 0x06 | _ => 0x0E

/-- The fault of several ranges that comes first by R165. -/
def worstToken (l : List (Option (FKind × Nat))) : Option (FKind × Nat) := leastBy (fun x y => decide (tokRank x.1 < tokRank y.1)) (l.filterMap id)

/-- Perform a message at this device as a member, whole or not at all, or refuse it (R382). -/
def mcastPerform (s : State) (m : McastMsg) : State × Nat :=
  match s.bindings.find? (fun b => b.2.sender == m.sender && b.2.group == m.group && b.2.ctx == m.ctx) with
  | none => (s, 0x20)
  | some (_, b) =>
    if m.runs.any (fun r => decide (b.len < r.1 + r.2.length)) then (s, 0x04)
    else
      let ps := m.runs.flatMap (fun r => (linePieces (b.rbase + r.1) r.2.length).map (fun x => ((x, r), translate s none 0 m.ctx x.1)))
      let s := (ps.map (·.2)).foldl (fun s x => match x with | .error e => reportBad s e | .ok _ => s) s
      let at_ (x : ((Nat × Nat) × (Nat × List (Byte × Byte))) × Except WalkErr TlbEntry) (p : Nat → Bool) : Bool :=
        match x.2 with | .ok e => p (locOf e x.1.1.1) | .error _ => false
      if ps.any (fun x => decide (2 ^ 57 ≤ x.1.1.1)) then (s, 0x02)
      else if ps.any (fun x => match x.2 with | .error .absent => true | _ => false) then (s, 0x01)
      else if ps.any (fun x => match x.2 with | .ok e => isWindow e || !e.wr | .error .late => false | .error _ => true) then (s, 0x02)
      else if ps.any (fun x => at_ x (behindIsolated s) || (match x.2 with | .error .late => true | _ => false)) then (s, 0x0F)
      else match ps.findSome? (fun x => match x.2 with | .ok e => peerFault s (locOf e x.1.1.1) | .error _ => none) with
      | some k => (s, kindCode k)
      | none => match worstToken (m.runs.map (fun r => tokensCover s m.ctx (dispatcherIds s m.ctx) .store (b.rbase + r.1) r.2.length)) with
        | some f => (s, mcastTokenCode f.1)
        | none =>
          let cells := ps.flatMap (fun x => match x.2 with
            | .ok e => (List.range x.1.1.2).map (fun i =>
                let y := (x.1.2.2[x.1.1.1 + i - (b.rbase + x.1.2.1)]?).getD (0#8, 0#8)
                { key := locOf e (x.1.1.1 + i), mask := y.2.toNat, val := y.1.toNat : Cell })
            | .error _ => [])
          (writeCells s 0 m.ctx false false cells, 0)

/-- MCAST_RECEIVE: a message of another device, answered (R382). -/
def execMcastReceive (m : McastMsg) (s : State) : Out :=
  let r := mcastPerform s m
  .next (send r.1 (.mcastAnswer m.sender r.2))

/-- A member's first refusal is its response. -/
def addRefusal (l : List (Nat × Nat)) (m code : Nat) : List (Nat × Nat) := if code = 0 || (look l m).isSome then l else put l m code

/-- One message of the operation to one member. -/
def sendMember (m : McastMsg) (n : Nat) (s : State) (x : Nat) : State :=
  let sent (s : State) : State := updOp s n (fun o => { o with sentTo := if o.sentTo.contains x then o.sentTo else o.sentTo ++ [x] })
  if x = s.boot.member then
    let r := mcastPerform s m
    updOp (sent r.1) n (fun o => { o with refusals := addRefusal o.refusals x r.2 })
  else updOp (sent (send s (.mcast x m))) n (fun o => { o with owed := put o.owed x ((look o.owed x).getD 0 + 1) })

/-- Runs of consecutive bytes. -/
def byteRuns (l : List (Nat × Nat × Nat)) : List (Nat × List (Byte × Byte)) :=
  (l.foldl (fun (acc : List (Nat × List (Byte × Byte))) c =>
    let b := (BitVec.ofNat 8 c.2.2, BitVec.ofNat 8 c.2.1)
    match acc with
    | (a, m) :: t => if a + m.length = c.1 then (a, m ++ [b]) :: t else (c.1, [b]) :: acc
    | [] => [(c.1, [b])]) []).reverse

/-- Replicate a chunk's cells as one message to every member of the group (R383). -/
def sendWindow (s : State) (n : Nat) (o : EngOp) (g : McastGroup) (cells : List Cell) : State :=
  let m : McastMsg := { sender := s.boot.devnum.getD 0, group := o.aux - 1, ctx := o.ctx,
                        runs := (byteRuns (mergeCells cells)).map (fun r => (r.1 % 2 ^ 38, r.2)) }
  g.members.foldl (sendMember m n) s

/-- The group that the operation may write, when its entry is still valid for the context. -/
def openGroup (s : State) (o : EngOp) : Option McastGroup :=
  (look s.groups (o.aux - 1)).filter (fun g => g.valid && g.ctx == o.ctx)

/-- A member's answer to one message. -/
def mcastAnswered (s : State) (n x code : Nat) : State :=
  updOp s n (fun o => match look o.owed x with
    | none => o
    | some k => { o with owed := if k ≤ 1 then del o.owed x else put o.owed x (k - 1), refusals := addRefusal o.refusals x code })

/-- MCAST_MEMBER_TIMEOUT: no response within one PEERTO (R382, R401). -/
def execMcastMemberTimeout (n x : Nat) (s : State) : Out :=
  .next (updOp s n (fun o => if (look o.owed x).isSome then
    { o with owed := del o.owed x, refusals := addRefusal o.refusals x 0x0F } else o))

/-! Chunks (R221-R223, R341-R346). -/

/-- May chunk `c` be written now? -/
def chunkDue (s : State) (n : Nat) (o : EngOp) (c : Nat) : Bool :=
  let p := xferPar o
  isXfer o && decide (o.phase = .running) && !opQuiet s o && decide (o.ended ≤ s.cycle) && o.halt == 0 && o.stops.isEmpty && decide (c < p.chunks)
    && !chunkSet o c
    && (p.mcast || p.dst.r.fmt != fmtTlf || firstOpen o p == some c)
    && (p.cmap.isSome || decide (c < idxAt o.progress 0 + 64)) && (!p.sfifo || (fifoHead s n o p).isSome)

/-- The bytes of chunk `c`. -/
def chunkOf (s : State) (n : Nat) (o : EngOp) (p : XferPar) (c : Nat) : ChunkOut :=
  if o.kind = .gxfer then gxferChunk s o p c
  else if o.aux ≠ 0 && (openGroup s o).isNone then
    { cells := [], errs := [eerr 0x31 (p.dst.r.addr p.dorg).1], lines := [], sticky := 0, clipped := 0 }
  else if p.sfifo then fifoChunk s o p ((fifoHead s n o p).getD []) c
  else copyChunk s o p c

/-- The unit failed. The spec does not say whether the sticky bits of what it read before it stopped are set: they are not (log 50). -/
def failChunk (s : State) (n : Nat) (o : EngOp) (c : Nat) (errs : List EErr) : State :=
  let e := errs.headD eFormat
  updOp (askPages s o errs) n (fun o => { o with stops := o.stops ++ [{ unit := c, code := e.code, faddr := e.addr, kb := 0, order := 0 }] })

/-- Write a chunk and drop the issuing cluster's lines that hold its bytes (R346). -/
def writeChunk (s : State) (n : Nat) (o : EngOp) (p : XferPar) (cells : List Cell) : State :=
  if o.aux ≠ 0 then (match openGroup s o with | some g => sendWindow s n o g cells | none => s)
  else
    let s := engCommit s o p.dst.pad (p.dst.r.fmt == fmtTlf) cells
    if p.dst.pad then s
    else invalidateSpans s o.crew.cl (((cells.map (fun c => c.key / 64 * 64)).eraseDups).map (fun k => (k, k + 64)))

/-- COPY_CHUNK_DONE. A multicast's chunk is its message, which goes to every receiver. -/
def execCopyChunkDone (n c : Nat) (s : State) : Out :=
  match opOf s n with
  | none => .next s
  | some o =>
    if !chunkDue s n o c then .next s
    else
      let p := xferPar o
      if p.mcast then
        let r := mcastMessage s o p
        match holdOp s n r.errs with
        | some s => .next s
        | none =>
        let s := noteReads s o r.lines
        if !r.errs.isEmpty then .next (failChunk s n o c r.errs)
        else .next (updOp (markChunk s n o p c) n (fun o => { o with msg := r.val, fifoLeft := receiversOf p o.crew.cl,
                                                                     sticky := o.sticky ||| r.sticky }))
      else
        let r := chunkOf s n o p c
        match holdOp s n r.errs with
        | some s => .next s
        | none =>
        let m := if p.sfifo then (fifoHead s n o p).getD [] else []
        let s := { noteReads s o r.lines with fresh := s.fresh + 1024 }
        let s := if p.sfifo then updOp s n (fun o => { o with msg := m }) else s
        if !r.errs.isEmpty then .next (failChunk s n o c r.errs)
        else
          let s := asUnit n c (fun s => writeChunk s n o p r.cells) s
          .next (updOp (markChunk s n o p c) n (fun o => { o with
            sticky := o.sticky ||| r.sticky, clipped := o.clipped + r.clipped, granule := r.granule,
            kept := o.kept.filter (fun k => !r.spent.contains k.place && !r.kept.any (fun x => x.place == k.place)) ++ r.kept }))

/-! SRCFREE (R223, R349). -/

def srcFreeDue (o : EngOp) : Bool :=
  isXfer o && decide (o.phase = .running) && o.halt == 0 && o.stops.isEmpty && !o.srcFreeDone && (firstOpen o (xferPar o)).isNone

/-- The slot that a FIFO source took is freed. -/
def freeFifo (s : State) (o : EngOp) (p : XferPar) : State :=
  if p.sfifo && !o.msg.isEmpty && !o.srcFreeDone then popMessage s o.crew.cl p.bank else s

/-- Every source byte has been read: SRCFREE falls and carries no write. -/
def fallSrcFree (s : State) (n : Nat) (o : EngOp) : State :=
  let s := freeRanges (freeFifo s o (xferPar o)) o n (·.atSrcFree)
  let s := updOp s n (fun o => { o with srcFreeDone := true })
  if o.orphaned then s else oweFall s o.crew o.fa 0

/-! Multicast within the die (R224, R312). -/

/-- Has an earlier multicast of the same sender to the same bank still to reach receiver `x`? -/
def earlierMessage (s : State) (n : Nat) (o : EngOp) (x : Nat) : Bool :=
  s.ops.any (fun e => decide (e.1 < n) && e.2.kind == .copy && decide (e.2.phase ≠ .held) && e.2.crew.cl == o.crew.cl
    && (let p := copyPar e.2.image []
        p.mcast && p.bank == (copyPar o.image []).bank && (receiversOf p e.2.crew.cl).contains x
          && (e.2.fifoLeft.contains x || (e.2.msg.isEmpty && decide (e.2.phase ≠ .stopping)))))

def arriveDue (s : State) (n : Nat) (o : EngOp) (x : Nat) : Bool := o.fifoLeft.contains x && !earlierMessage s n o x

/-- FIFO_MESSAGE_ARRIVE: the message reaches receiver `x`, or `x` is skipped. -/
def execFifoMessageArrive (n x : Nat) (s : State) : Out :=
  match opOf s n with
  | none => .next s
  | some o =>
    if !arriveDue s n o x then .next s
    else
      let bank := (copyPar o.image []).bank
      let b := bankOf (clusterOf s x) bank
      let s := updOp s n (fun o => { o with fifoLeft := o.fifoLeft.filter (· != x) })
      if decide (b.mode = .fifo) && (b.bound.isNone || b.bound == some o.crew.cl) && decide (b.slots.length < 2) then
        .next (updCluster s x (fun c => setBank c bank
          { b with bound := some o.crew.cl, slots := b.slots ++ [{ sender := o.crew.cl, bytes := o.msg }] }))
      else .next (updOp (restoreSlot s o.crew.cl x bank) n (fun o => { o with skippedRx := o.skippedRx ++ [x] }))

/-! Completion (R200, R204, R224, R350, R383). -/

def xferDone (s : State) (n : Nat) (o : EngOp) : Bool :=
  isXfer o && !opUnacked s n && (decide (o.phase = .stopping) || (decide (o.phase = .running) && o.srcFreeDone)) && o.fifoLeft.isEmpty && o.owed.isEmpty

/-- The acknowledgement record (R383). -/
def ackRecord (o : EngOp) : List Byte :=
  let refused := o.refusals.take 28
  leBytes 4 o.wseq
    ++ leBytes 4 (o.sentTo.length + o.refusals.length * 2 ^ 10 + bNat (decide (28 < o.refusals.length)) * 2 ^ 20)
    ++ leBytes 8 (o.crew.cl + o.crew.ts * 2 ^ 8 + o.crew.cr * 2 ^ 13 + o.block * 2 ^ 32)
    ++ (List.range 28).flatMap (fun i => leBytes 4 (match refused[i]? with | some r => r.1 % 2 ^ 9 + r.2 * 2 ^ 16 | none => 0))

/-- A window write performs its record; the status when the record cannot be written. -/
def performAck (s : State) (o : EngOp) : State × Option (Nat × Nat) :=
  match look s.groups (o.aux - 1) with
  | none => (s, none)
  | some g =>
    let va := wrapNat 64 (g.ackbase.toNat + 128 * (o.wseq % 2 ^ g.acklog))
    match writeHome s (dieNo o.crew.cl) o.ctx va (ackRecord o) with
    | (s, none) => (s, none)
    | (s, some e) =>
      let code := match e with | .absent => 0x30 | .forbidden => 0x31 | .late => 0x35 | .lost => 0x34
      (emit s (.ackRecordLost o.ctx va (ackRecord o)), some (st code 0, va))

def minNat (l : List Nat) : Nat := (leastBy (fun a b => decide (a < b)) l).getD 0

/-- The end of a COPY or GXFER. -/
def endXfer (s : State) (n : Nat) (o : EngOp) : State :=
  let p := xferPar o
  let x := stopStatus o (firstOpen o p)
  let x := if x.1 ≠ 0 then x
    else if !o.skippedRx.isEmpty then (st 0x37 (minNat o.skippedRx), 0)
    else if !o.refusals.isEmpty then (st 0x37 (minNat (o.refusals.map (·.1))), 0)
    else x
  let r := if o.aux ≠ 0 then performAck s o else (s, none)
  let x := r.2.getD x
  let s := if p.mcast && o.msg.isEmpty then (receiversOf p o.crew.cl).foldl (fun s y => restoreSlot s o.crew.cl y p.bank) r.1 else r.1
  let s := freeFifo s o p
  let s := if o.kind = .gxfer then writeBlock (writeBlock s o 0x38 (leBytes 4 x.1)) o 0x40 (leBytes 8 x.2)
    else writeBlock s o 0x68 (leBytes 4 x.1 ++ leBytes 4 o.clipped ++ leBytes 8 x.2)
  endOp s n o (if p.mcast || p.dst.pad || o.aux != 0 then [] else spansOf p.dst p.dstBox) x.1 x.2

end Sys2Proof.Machine
end

