-- ==== Sys2Proof/Machine/Area.lean ====
section
/-! DEFINITION. The save area as a place (R373, R374): where its team records stand, and what an operation that runs on while its
context is saved writes into them (R205). -/

namespace Sys2Proof.Machine

/-- A team record of an area: where it stands in the image and what its head says. -/
structure TeamImg where
  off : Nat
  cl : Nat
  ts : Nat
  crews : Nat
  banks : Nat
  nlock : Nat
  /-- bytes of each crew record -/
  size : List Nat
  deriving DecidableEq, Repr

/-- Sizes of `n` crew records from `off` on; none when one has no legal window. -/
def crewSizes (l : List Byte) : Nat → Nat → Option (List Nat)
  | 0, _ => some []
  | n + 1, off =>
    let w := slice (leAt l (off + 0x10) 4) 0 6
    if w < 2 || 32 < w || 32 < slice (leAt l (off + 0x34) 4) 0 6 || 32 < slice (leAt l (off + 0x34) 4) 6 6 then none
    else (crewSizes l n (off + 0x580 + 1024 * w)).map (fun t => (0x580 + 1024 * w) :: t)

def TeamImg.crewOff (t : TeamImg) (i : Nat) : Nat := t.off + 256 + (t.size.take i).sum
def TeamImg.padOff (t : TeamImg) : Nat := t.off + 256 + t.size.sum
def TeamImg.lockOff (t : TeamImg) : Nat := t.padOff + 1024 * t.banks
def TeamImg.fin (t : TeamImg) : Nat := t.lockOff + 16 * t.nlock

/-- The team records of an area; none when one is malformed. -/
def teamImgs (l : List Byte) : Nat → Nat → Option (List TeamImg)
  | 0, _ => some []
  | n + 1, off =>
    let w := leAt l off 4
    match crewSizes l (slice w 13 5 + 1) (off + 256) with
    | none => none
    | some size =>
      let t : TeamImg := { off := off, cl := slice w 0 8, ts := slice w 8 5, crews := slice w 13 5 + 1, banks := slice w 18 9,
                           nlock := leAt l (off + 0xC) 4, size := size }
      if 192 ≤ t.cl || slice w 27 5 ≠ 0 || 384 < t.banks || l.length < t.fin then none
      else (teamImgs l n ((t.fin + 255) / 256 * 256)).map (t :: ·)

def areaTeams (l : List Byte) : Option (List TeamImg) := teamImgs l (leAt l 0x10 4) 0x100

/-- Write bytes into a save area. -/
def areaPut (s : State) (at_ : AreaAt) (off ctx : Nat) (l : List Byte) : State :=
  match at_ with
  | .va die c a => (writeHome s die c (a + off) l).1
  | .pa a => (linePieces (a + off) l.length).foldl (fun s p =>
      if behindIsolated s p.1 then s else homeWrite s 0 p.1 ctx ((l.drop (p.1 - (a + off))).take p.2) false) s

/-- The team's in-flight ranges, which its record lists. -/
def liveRanges (t : Team) : List PadRange := t.ranges.filter (fun r => !r.guard)

/-- The bytes at a save area; zeros for those that cannot be reached (R386, R399). -/
def areaGet (s : State) (at_ : AreaAt) (n : Nat) : List Byte :=
  let get (k m : Nat) : List Byte := if behindIsolated s k || (peerFault s k).isSome then List.replicate m 0#8 else homeBytes s k m
  match at_ with
  | .pa a => (linePieces a n).flatMap (fun p => get p.1 p.2)
  | .va die c a => (linePieces a n).flatMap (fun p => match translate s none die c p.1 with
    | .ok e => get (locOf e p.1) p.2
    | .error _ => List.replicate p.2 0#8)

/-- The image of a context's last save. -/
def areaImage (s : State) (x : Nat) : List Byte :=
  match (ctxOf s x).bind (·.area) with
  | none => []
  | some p => areaGet s p (leNat ((areaGet s p 16).drop 8))

/-- The crew's team while it is saved. -/
def savedTeamOf (s : State) (r : CrewRef) : Option Team := if teamSaved s r then teamOf s r.cl r.ts else none

/-- Write into the saved state of a crew's team, and into the image that a restore under way has read. -/
def savedPut (s : State) (r : CrewRef) (off : TeamImg → Nat) (l : List Byte) : State :=
  match savedTeamOf s r with
  | none => s
  | some t =>
    match ((areaTeams (areaImage s t.ctx)).getD []).find? (fun i => i.cl == r.cl && i.ts == r.ts) with
    | none => s
    | some i =>
      let s := match (ctxOf s t.ctx).bind (·.area) with | some p => areaPut s p (off i) t.ctx l | none => s
      { s with loads := s.loads.map (fun k => if k.ctx = t.ctx then { k with image := bytesPut k.image (off i) l } else k) }

/-- Bytes of the saved state of a crew's team. -/
def savedGet (s : State) (r : CrewRef) (off : TeamImg → Nat) (n : Nat) : Nat :=
  match savedTeamOf s r with
  | none => 0
  | some t =>
    let img := areaImage s t.ctx
    match ((areaTeams img).getD []).find? (fun i => i.cl == r.cl && i.ts == r.ts) with
    | none => 0
    | some i => leAt img (off i) n

/-- A flag of a saved crew falls (R205). -/
def savedFall (s : State) (r : CrewRef) (scope : Nat) (fl : Option Nat) : State :=
  match fl with
  | none => s
  | some f =>
    let w := savedGet s r (fun i => i.crewOff r.cr + 0x18) 8
    let s := savedPut s r (fun i => i.crewOff r.cr + 0x18) (leBytes 8 (if slice w (4 * f) 4 = 0 then w else w - 2 ^ (4 * f)))
    updCrew s r (fun c => { c with flagScope := cWrite c.flagScope f (BitVec.ofNat 4 scope) })

/-- Sticky bits of a saved crew. -/
def savedStat (s : State) (r : CrewRef) (sticky : Nat) : State :=
  savedPut s r (fun i => i.crewOff r.cr) (leBytes 8 (savedGet s r (fun i => i.crewOff r.cr) 8 ||| sticky))

/-- The in-flight ranges of an operation leave the record of a saved team. -/
def savedRanges (s : State) (r : CrewRef) (n : Nat) : State :=
  match savedTeamOf s r with
  | none => s
  | some t =>
    (((List.range 8).zip (liveRanges t)).filter (fun e => e.2.op == n)).foldl (fun s e =>
      savedPut s r (fun i => i.off + 0x10 + 8 * e.1) (leBytes 8 (0x7FFF * 2 ^ 49))) s

end Sys2Proof.Machine
end

