-- ==== Sys2Proof/Machine/Link.lean ====
section
/-! DEFINITION. The Ethernet link's frames and their retry (R397, R398), and the requests that the M8 sends on its connections
(R391, R395, R406). -/

namespace Sys2Proof.Machine

/-! The link (R397, R398). -/

/-- Bytes that a packet carries. -/
def pktBytes (p : RocePkt) : Nat :=
  match p with
  | .send _ _ l => l.length | .sendImm _ _ _ l => l.length | .writeFirst _ _ _ _ _ l => l.length | .writeMiddle _ _ l => l.length
  | .writeLast _ _ l => l.length | .writeOnly _ _ _ _ _ l => l.length | .churnWrite _ _ x => 256 + 4 * x.vals.length
  | .readResponse _ _ _ l => l.length | _ => 8

/-- Bytes of a frame in the replay buffer: the shim and the packet's bytes. -/
def frameBytes (b : FrameBody) : Nat := 16 + (match b with | .roce p => pktBytes p | _ => 0)

/-- Bytes in the replay buffer, of 256 MiB. -/
def replayUsed (e : Eth) : Nat := (e.unacked.map (fun f => frameBytes f.2)).sum
def replaySize : Nat := 2 ^ 28

/-- Must a new key be installed: before a packet number comes to 2^62 (R397)? -/
def keySpent (e : Eth) : Bool := decide (2 ^ 62 - 1 ≤ e.pn) || decide (2 ^ 62 - 1 ≤ e.rxPn)

/-- A new key in both directions, under which packet numbers start again (R397). -/
def newKey (e : Eth) : Eth := { e with sak := e.sak + 1, pn := 0, rxPn := 0 }

/-- The port under the key that the next frame has. -/
def freshKey (e : Eth) : Eth := if keySpent e then newKey e else e

/-- Put one frame on the link, under the next packet number; a pending NAK goes with it (R397, R398). -/
def putFrame (s : State) (seq : W32) (b : FrameBody) : State :=
  let e := freshKey s.eth
  send { s with eth := { e with pn := e.pn + 1, nakOut := false, ownNaks := e.ownNaks + (if e.nakOut then 1 else 0), lastTx := s.cycle } }
    (.frame e.sak e.pn seq e.rxExpect e.nakOut b)

/-- Is there room in the replay buffer? -/
def frameFits (e : Eth) (b : FrameBody) : Bool := decide (replayUsed e + frameBytes b ≤ replaySize)

/-- A new frame leaves, and stays in the replay buffer until it is acknowledged. -/
def newFrame (s : State) (b : FrameBody) : State :=
  let seq := s.eth.txNext
  putFrame { s with eth := { s.eth with txNext := seq + 1#32, unacked := s.eth.unacked ++ [(seq, b)] } } seq b

/-- Send a frame; behind others it waits for room in the replay buffer. A link that is down carries nothing. -/
def sendFrame (s : State) (b : FrameBody) : State :=
  if !s.eth.up then s
  else if s.eth.waiting.isEmpty && frameFits s.eth b then newFrame s b
  else { s with eth := { s.eth with waiting := s.eth.waiting ++ [b] } }

def sendPkt (s : State) (p : RocePkt) : State := sendFrame s (.roce p)

/-- Waiting frames leave in order while there is room. -/
def sendWaiting : List FrameBody → State → State
  | [], s => { s with eth := { s.eth with waiting := [] } }
  | b :: l, s => if frameFits s.eth b then sendWaiting l (newFrame s b) else { s with eth := { s.eth with waiting := b :: l } }

/-- Is `seq` before `ack`, modulo 2^32? -/
def before (seq ack : W32) : Bool := decide (0 < (ack - seq).toNat) && decide ((ack - seq).toNat ≤ 2 ^ 31)

/-- ACK acknowledges every earlier frame. -/
def dropAcked (s : State) (ack : W32) : State :=
  { s with eth := { s.eth with unacked := s.eth.unacked.filter (fun f => !before f.1 ack) } }

/-- ACK acknowledges every earlier frame; frames that waited for room go on. -/
def takeAck (s : State) (ack : W32) : State := let s := dropAcked s ack; sendWaiting s.eth.waiting s

/-- NAKs of one SEQ that take the link down. -/
def nakLimit : Nat := 64

/-- A NAK: every unacknowledged frame from ACK on is sent again, in order, before any other. -/
def takeNak (s : State) (ack : W32) : State :=
  let n := if s.eth.nakSeq = ack then s.eth.naks + 1 else 1
  let s := dropAcked { s with eth := { s.eth with naks := n, nakSeq := ack } } ack
  let s := s.eth.unacked.foldl (fun s f => putFrame s f.1 f.2) s
  sendWaiting s.eth.waiting s

/-- LINK_NAK (R398). -/
def execLinkNak (ack : W32) (s : State) : Out := if s.eth.up && decide (s.boot.phase ≠ .recovery) then .next (takeNak s ack) else .next s

/-- Is the link dead: no valid frame for 10 ms, or one SEQ NAKed 64 times, by either side (R398)? -/
def linkDead (s : State) : Bool :=
  s.eth.up && (decide (s.eth.lastRx + 27000000 ≤ s.cycle) || decide (nakLimit ≤ s.eth.naks) || decide (nakLimit ≤ s.eth.ownNaks))

/-- LINK_DOWN: what the link held is lost to it, and the driver has an event (R398). -/
def execLinkDown (s : State) : Out :=
  if linkDead s then
    .next (emit { s with eth := { s.eth with up := false, unacked := [], waiting := [], naks := 0, ownNaks := 0, nakOut := false } } .linkDown)
  else .next s

/-- LINK_UP: the link comes up with a fresh SEQ (R398). -/
def execLinkUp (s : State) : Out :=
  if s.eth.up || decide (s.boot.phase = .recovery) then .next s
  else .next { s with eth := { s.eth with up := true, rxExpect := 0#32, txNext := 0#32, unacked := [], waiting := [], naks := 0,
                                          ownNaks := 0, nakOut := false, lastRx := s.cycle, lastTx := s.cycle } }

/-- The cycle at which a control frame is due: 16 µs after the last frame sent, or 2 µs after a drop that no frame has told the
partner of. None while egress stalls (R398). -/
def controlAt (s : State) : Option Nat :=
  if !s.eth.up || decide (s.boot.phase = .recovery) || !s.eth.waiting.isEmpty || !frameFits s.eth .control then none
  else some (if s.eth.nakOut then min (s.eth.nakAt + 5400) (s.eth.lastTx + 43200) else s.eth.lastTx + 43200)

/-- RETRY_CONTROL_FRAME: an idle side sends a control frame (R398). -/
def execRetryControlFrame (s : State) : Out :=
  match controlAt s with
  | some t => if t ≤ s.cycle then .next (newFrame s .control) else .next s
  | none => .next s

def rekeyDue (s : State) : Bool := keySpent s.eth

/-- SAK_REKEY (R397); in recovery there is no key (R412). -/
def execSakRekey (s : State) : Out := if s.boot.phase = .recovery then .next s else .next { s with eth := newKey s.eth }

/-- MKA_FRAME: Occon's key agreement takes the frame; keys come with SAK_REKEY (R397). In recovery no frame but an image is accepted
(R412). -/
def execMkaFrame (s : State) : Out := if s.boot.phase = .recovery then .next s else .next { s with eth := { s.eth with lastRx := s.cycle } }

/-- A frame or packet is dropped and counted. -/
def dropFrame (s : State) : State := { s with eth := { s.eth with dropped := s.eth.dropped + 1 } }

/-- The link's events, the first that is due. -/
def linkDue (s : State) : Option Instr :=
  if linkDead s then some .linkDown
  else if rekeyDue s && decide (s.boot.phase ≠ .recovery) then some .sakRekey
  else match controlAt s with
    | some t => if t ≤ s.cycle then some .retryControlFrame else none
    | none => none

/-- Cycles at which something becomes due on the link. -/
def linkTimes (s : State) : List Nat := (if s.eth.up then [s.eth.lastRx + 27000000] else []) ++ (controlAt s).toList

/-! Order on a connection (R391, R392). -/

/-- A connection on which nothing has passed: both sides begin at PSN 0 (log 53). -/
def QpState.start : QpState := { ePsn := 0, nPsn := 0, hold := false, write := none, atomics := [] }

def qpOf (s : State) (i : Nat) : QpState := (look s.eth.qps i).getD QpState.start
def setQp (s : State) (i : Nat) (q : QpState) : State := { s with eth := { s.eth with qps := put s.eth.qps i q } }

/-- PSNs count modulo 2^24. -/
def psnAdd (p n : Nat) : Nat := (p + n) % 2 ^ 24

/-- Does PSN `p` not lie after `q`? -/
def psnLe (p q : Nat) : Bool := decide ((q + 2 ^ 24 - p) % 2 ^ 24 < 2 ^ 23)

/-! The M8 as requester (R395, R396, R406). -/

/-- Send a request of the M8 on a connection under the next PSN; it waits for its acknowledgement. -/
def sendRequest (s : State) (i : Nat) (f : Nat → RocePkt) (item : Option (Nat × Nat)) : State :=
  let q := qpOf s i
  let s := sendPkt (setQp s i { q with nPsn := psnAdd q.nPsn 1 }) (f q.nPsn)
  { s with eth := { s.eth with sent := s.eth.sent ++ [{ conn := i, psn := q.nPsn, pkt := f q.nPsn, tries := 0, since := s.cycle, item := item }] } }

/-- Send the connection's requests from PSN `p` on again, in order. -/
def resendFrom (s : State) (i p : Nat) : State :=
  let again (x : Sent) : Bool := x.conn == i && psnLe p x.psn
  let s := (s.eth.sent.filter again).foldl (fun s x => sendPkt s x.pkt) s
  { s with eth := { s.eth with sent := s.eth.sent.map (fun x => if again x then { x with since := s.cycle } else x) } }

/-- The oldest request on a connection that waits for its acknowledgement. -/
def oldestSent (s : State) (i : Nat) : Option Sent := s.eth.sent.find? (fun x => x.conn == i)

/-- The requests up to PSN `p` are done; an OUTQ item among them is retired (R395). -/
def retire (s : State) (i p : Nat) : State :=
  { s with eth := { s.eth with sent := s.eth.sent.filter (fun x => !(x.conn == i && psnLe x.psn p)) } }

/-- Cycles of ACKTO, 4.096 µs × 2^ACKTO (R390). -/
def ackCycles (ackto : Nat) : Nat := (110592 * 2 ^ ackto + 9) / 10

/-- The cycle at which a connection's oldest request times out. -/
def ackAt (s : State) (i : Nat) (c : Conn) : Option Nat :=
  if c.type = 0 then none else (oldestSent s i).map (fun x => x.since + ackCycles c.ackto)

/-- A Churn's part in pieces of at most `k` values. -/
def partPieces (k : Nat) (x : CollPart) : List CollPart :=
  if x.vals.isEmpty then [x]
  else (List.range ((x.vals.length + k - 1) / k)).map (fun i => { x with first := k * i, vals := (x.vals.drop (k * i)).take k })

/-- Values that a Churn's packet carries beside 256 bytes that name them: a path MTU (R389, log 53). -/
def churnPiece : Nat := 960

/-- LINK 2: a Churn's part goes to the devices `l` on the connections of TYPE 2 that Occon opened to their Churns, values as RDMA
WRITEs and a notice as a SEND (R406). -/
def sendOverEth (s : State) (l : List Nat) (x : CollPart) : State :=
  s.conns.foldl (fun s e =>
    if e.2.type = 2 && (look s.churns e.1).any l.contains then
      (partPieces churnPiece x).foldl (fun s y =>
        sendRequest s e.1 (fun n => if y.fail = 0 then .churnWrite e.2.destqp n y else .churnSend e.2.destqp n y) none) s
    else s) s

end Sys2Proof.Machine
end

