-- ==== Sys2Proof/Machine/Coll.lean ====
section
/-! DEFINITION. COLL and the Churn (R231-R236, R406-R408): the block and the communicator, the exchange tier by tier through the
staging buffers, completion, MISMATCH and TIMEOUT. -/

namespace Sys2Proof.Machine

/-! The block and the communicator (R231-R233). -/

/-- A tier of a communicator. -/
structure Tier where
  size : Nat
  link : Nat
  wire : Nat
  mode : RMode
  ef : Bool
  seed : Nat
  resid : Nat
  bad : Bool
  deriving DecidableEq, Repr

/-- Tier `t` of a communicator record. -/
def tierOf (l : List Byte) (t : Nat) : Tier :=
  let w := leAt l (0x10 + 24 * t) 4
  let x : Tier := { size := slice w 0 16, link := slice w 16 4, wire := slice w 20 8, mode := rmodeOf (slice w 28 2), ef := tb w 30,
                    seed := leAt l (0x14 + 24 * t) 4, resid := leAt l (0x18 + 24 * t) 8, bad := tb w 31 }
  { x with bad := x.bad || x.size == 0 || decide (2 < x.link) || x.wire == 0 || decide (6 < x.wire) || leAt l (0x20 + 24 * t) 8 != 0
      || (!x.ef && x.resid != 0) }

/-- A COLL as its block, its records (source, destination, communicator) describe it. -/
structure CollPar where
  comm : Nat
  op : Nat
  rop : Nat
  rank : Nat
  root : Nat
  count : Nat
  seq : Nat
  src : Opnd
  dst : Opnd
  tiers : List Tier
  lag : Bool
  members : Nat
  map : Nat
  deriving DecidableEq, Repr

def collPar (img : List Byte) (recs : List (List Byte)) : CollPar :=
  let r (i : Nat) : ObjRec := recOf ((recs[i]?).getD [])
  let c := (recs[2]?).getD []
  let w (o : Nat) : Nat := leAt img o 4
  { comm := leAt img 0 8, op := slice (w 0x0C) 0 3, rop := slice (w 0x0C) 3 2, rank := w 0x10, root := w 0x14, count := w 0x18,
    seq := w 0x1C, src := { r := r 0, pad := false, src := 0 }, dst := { r := r 1, pad := false, src := 0 },
    tiers := (List.range (slice (leAt c 0 4) 0 2)).map (tierOf c), lag := tb (leAt c 0 4) 2, members := leAt c 8 4, map := leAt c 0x58 8 }

/-- Ranks in a part at tier `t`: the product of the lower SIZEs. -/
def partSize (l : List Tier) (t : Nat) : Nat := ((l.take t).map (·.size)).foldl (· * ·) 1

/-- Does rank `r` lead its part at tier `t`? -/
def leads (p : CollPar) (t : Nat) : Bool := p.rank % partSize p.tiers t == 0

/-- Leaders of the parts of the rank's group at tier `t`, by digit. -/
def groupLeaders (p : CollPar) (t : Nat) : List Nat :=
  let base := p.rank - p.rank % partSize p.tiers (t + 1)
  (List.range (match p.tiers[t]? with | some x => x.size | none => 0)).map (fun h => base + h * partSize p.tiers t)

/-- Does the member read a source: all but the BROADCAST members that are not the root. -/
def readsSource (p : CollPar) : Bool := p.op != 3 || p.rank == p.root

/-- Elements that the destination receives. -/
def CollPar.outCount (p : CollPar) : Nat :=
  match p.op with | 1 => p.count / max p.members 1 | 2 => p.count * p.members | _ => p.count

/-! Checks (R198, R231, R232, R234). -/

def collBlockBad (img : List Byte) : Bool :=
  let p := collPar img []
  let w := leAt img 0x0C 4
  decide (3 < p.op) || p.rop == 3 || slice w 5 27 != 0 || leAt img 0x28 0x18 != 0 || p.comm % 128 != 0 || (p.op != 3 && p.root != 0)

/-- The communicator record's own requirements. -/
def commBad (p : CollPar) (c : List Byte) : Bool :=
  p.tiers.isEmpty || slice (leAt c 0 4) 3 29 != 0 || leAt c 4 4 == 0 || leAt c 0x0C 4 != 0 || p.tiers.any (·.bad)
    || leAt c (0x10 + 24 * p.tiers.length) (24 * (3 - p.tiers.length)) != 0 || leAt c 0x60 0x20 != 0
    || partSize p.tiers p.tiers.length != p.members || (p.tiers.any (·.ef) && (p.rop != 0 || decide (2 ≤ p.op)))
    || decide (p.members ≤ p.rank) || (p.op == 3 && decide (p.members ≤ p.root)) || (p.op == 1 && p.count % p.members != 0)

def collFormatBad (r : ObjRec) : Bool := r.rank != 1 || r.layout != 0 || !([1, 2].contains r.fmt)

/-- The range of the first `n` elements of a record. -/
def elemSpan (o : Opnd) (n : Nat) : List Span := if n = 0 then [] else spansOf o ([0, 0, 0, 0, 0], [n - 1, 0, 0, 0, 0])

/-- The residual buffers of the parts that the member leads. -/
def residSpans (p : CollPar) : List Span :=
  ((List.range p.tiers.length).zip p.tiers).filterMap (fun e =>
    if e.2.ef && leads p e.1 && p.count != 0 then some { lo := e.2.resid, hi := e.2.resid + 4 * p.count - 1 } else none)

/-- The communicator and the member map's entry, as loads. -/
def readComm (s : State) (a : At) (img : List Byte) : State × Except FaultInfo (List Byte × Nat) :=
  match engLoad s a (leAt img 0 8) 128 with
  | (s, .error f) => (s, .error f)
  | (s, .ok c) =>
    match engLoad s a (wrapNat 64 (leAt c 0x58 8 + 4 * leAt img 0x10 4)) 4 with
    | (s, .error f) => (s, .error f)
    | (s, .ok m) => (s, .ok (c, leNat m))

/-- Records of the block, in order: a BROADCAST member that is not the root reads no source record. -/
def collRecs (img : List Byte) : List (Nat × List Nat) :=
  (if readsSource (collPar img []) then [(leAt img 8 2, [0, 3])] else []) ++ [(leAt img 0x0A 2, [1, 3])]

/-- Checks 1 to 3 of a COLL (R198). The order of the reads is the model's (log 28): the records of the two operands, then the
communicator and its MAP entry, and then what they ask for. -/
def collPlan (c : EngCmd) (a : At) (s : State) : State × Except FaultInfo EngPlan :=
  match engBlock s a c.off 0x40 with
  | .error f => (s, .error f)
  | .ok img =>
    if collBlockBad img then (s, .error (fault .format))
    else match engRecs s a false (collRecs img) with
      | (s, .error f) => (s, .error f)
      | (s, .ok l) =>
        match readComm s a img with
        | (s, .error f) => (s, .error f)
        | (s, .ok (cm, m)) =>
          let rs := readsSource (collPar img [])
          let recs := (if rs then l else [] :: l) ++ [cm]
          let p := collPar img recs
          let ss := if rs then elemSpan p.src p.count else []
          let sd := elemSpan p.dst p.outCount
          let re := residSpans p
          if (rs && collFormatBad p.src.r) || collFormatBad p.dst.r || commBad p cm || (rs && decide (2 ≤ p.op) && p.src.r.fmt != p.dst.r.fmt)
              || m != s.boot.devnum.getD 0 + a.ref.cl * 2 ^ 16 || opndInWindow s a.ctx p.src (ss ++ sd ++ re) then
            (s, .error (fault .format))
          else if (rs && decide (p.src.r.extAt 0 < p.count)) || decide (p.dst.r.extAt 0 < p.outCount) then (s, .error (fault .bounds))
          else
            (s, .ok { op := newOp c a img recs, ranges := [blockRange c.off 0x40], receivers := [], bank := 0, window := none,
                      globals := ss.map (fun x => (x, [.load])) ++ sd.map (fun x => (x, [.store])) ++ re.map (fun x => (x, [.load, .store])) })

def execColl (f : ENG) (s : State) : Out :=
  issueWord (engSpec f false false false false) (fun a act s =>
    engIssue collPlan (fun _ _ _ => none) (engCmd s f .coll false a (act.headD 0)) none a s) s

/-! Wire values (R234). -/

/-- The value of a wire code; an MXFP4 code carries its scale byte above it. -/
def wireVal (fmt : Nat) (w : W32) : FVal := if fmt = fmtMx then (codeVal fmtMx (w.toNat % 256) (slice w.toNat 8 8)).1 else fpVal (fpOf fmt) w.toNat

/-- Dither of element `e` of leader `l` at a tier. -/
def wireDither (t : Tier) (seq l e : Nat) : Nat := dither (t.seed ^^^ seq) (e + 2 ^ 32 * l)

/-- Wire codes of FP32 codes with their sticky bits, by blocks of 32 for MXFP4. -/
def toWire (t : Tier) (seq l : Nat) (xs : List Nat) : List (Nat × Nat) :=
  if t.wire = fmtMx then
    (List.range ((xs.length + 31) / 32)).flatMap (fun q =>
      let b := (xs.drop (32 * q)).take 32
      match mxScale (b.map (fpVal fp32)) with
      | none => b.map (fun _ => (0xFF00, stNv))
      | some c => ((List.range b.length).zip b).map (fun e =>
          let r := mxElem c t.mode (wireDither t seq l (32 * q + e.1)) (fpVal fp32 e.2)
          (r.code + c * 256, r.sticky)))
  else ((List.range xs.length).zip xs).map (fun e =>
    let r := roundFp (fpOf t.wire) t.mode (wireDither t seq l e.1) (fpVal fp32 e.2)
    (r.code, r.sticky))

/-- A value as FP32 under RNE. -/
def toFp32 (x : FVal) : Nat := (roundFp fp32 .rne 0 x).code

/-- Op of R234: the running FP32 code and the next part's value. -/
def collOp (rop acc : Nat) (x : FVal) : Nat :=
  match rop with
  | 0 => (roundRes fp32 .rne (fAdd (fpVal fp32 acc) x)).code
  | 1 => fPick fp32 true acc (toFp32 x)
  | _ => fPick fp32 false acc (toFp32 x)

/-- The fold of a group's parts for element `e`, in the order of the digit. -/
def foldElem (p : CollPar) (t : Tier) (parts : List CollPart) (e : Nat) : W32 :=
  let x (w : CollPart) : FVal := wireVal t.wire ((w.vals[e]?).getD 0#32)
  match parts with
  | [] => 0#32
  | w :: r => BitVec.ofNat 32 (r.foldl (fun acc v => collOp p.rop acc (x v)) (toFp32 (x w)))

/-! The exchange (R233-R236, R406). -/

/-- What a member states of its operation (R236). A started COLL keeps its ordinal in `aux`. -/
def statement (p : CollPar) : List Nat := [p.op, p.rop, p.count, p.seq, p.root]

/-- What the buffers hold of the operation's step. -/
def ofStep (s : State) (o : EngOp) (p : CollPar) : List CollPart :=
  s.staging.filter (fun x => x.ctx == o.ctx && x.comm == p.comm && x.ord == o.aux)

/-- A part from its pieces, once they have all come. -/
def wholePart (l : List CollPart) : Option CollPart :=
  match l with
  | [] => none
  | x :: _ =>
    let v := (List.range x.total).map (fun i => l.findSome? (fun y => if y.first ≤ i then y.vals[i - y.first]? else none))
    if v.any (·.isNone) then none else some { x with first := 0, vals := v.filterMap id }

/-- The staged part of leader `l` at tier `t` of the operation's step, once it is whole. -/
def staged (s : State) (o : EngOp) (p : CollPar) (t l : Nat) : Option CollPart :=
  wholePart ((ofStep s o p).filter (fun x => x.tier == t && x.leader == l && x.fail == 0))

/-- All parts of the member's group at tier `t`, or none. -/
def groupParts (s : State) (o : EngOp) (p : CollPar) (t : Nat) : Option (List CollPart) :=
  let l := (groupLeaders p t).map (staged s o p t)
  if l.any (·.isNone) then none else some (l.filterMap id)

/-- Does a part come of another statement than the member's, or of a leader that has ended with MISMATCH? -/
def atOdds (o : EngOp) (p : CollPar) (x : CollPart) : Bool := x.fail == 1 || x.params != statement p || x.record != (o.recs[2]?).getD []

/-- Do members of the step disagree (R236)? -/
def disagree (s : State) (o : EngOp) (p : CollPar) : Bool := (ofStep s o p).any (atOdds o p)

/-- What the group at tier `t` makes of its parts: the fold, or for ALLGATHER and BROADCAST the elements in rank order. -/
def groupValue (p : CollPar) (t : Nat) (parts : List CollPart) : List W32 :=
  if 2 ≤ p.op then parts.flatMap (·.vals)
  else match p.tiers[t]? with
    | none => []
    | some x => (List.range p.count).map (foldElem p x parts)

def orSticky (l : List CollPart) : Nat := l.foldl (fun n x => n ||| x.sticky) 0

/-- A piece stands in the buffers once for its step. -/
def stagePart (s : State) (x : CollPart) : State :=
  { s with staging := s.staging.filter (fun y => !(y.ctx == x.ctx && y.comm == x.comm && y.tier == x.tier && y.leader == x.leader
      && y.ord == x.ord && y.first == x.first && y.fail == x.fail)) ++ [x] }

/-- The residual of element range of a tier: its FP32 codes, or the conditions of its read. -/
def readResid (s : State) (o : EngOp) (t : Tier) (n : Nat) : Except EErr (List Nat) :=
  match engRead s o false t.resid (4 * n) with
  | .error e => .error e
  | .ok g => match g.bad with
    | (_, va) :: _ => .error (eerr 0x32 va)
    | [] => .ok ((List.range n).map (fun e => leAt g.bytes (4 * e) 4))

/-- The member stops of its own accord, or waits for a holder that does not answer (R386, R401). -/
def failColl (s : State) (n : Nat) (o : EngOp) (e : EErr) : State :=
  match holdOp s n [e] with
  | some s => s
  | none => updOp (askPages s o [e]) n (fun o =>
      { o with stops := o.stops ++ [{ unit := 0, code := e.code, faddr := e.addr, kb := 0, order := 0 }] })

/-- The other devices on which MAP places ranks of the member's group at tier `t` (R232, R233). The entries are read as the Churn
sends (log 41). -/
def groupDevices (s : State) (o : EngOp) (p : CollPar) (t : Nat) : List Nat :=
  let n := partSize p.tiers (t + 1)
  ((List.range n).map (fun i =>
    vaNat s (dieNo o.crew.cl) o.ctx ((p.map + 4 * (p.rank - p.rank % n + i)) % 2 ^ 64) 4 % 2 ^ 16)).eraseDups.filter
      (· != s.boot.devnum.getD 0)

/-- LINK 1: UALink writes of at most 256 bytes into the staging buffers of the members of this device's pod (R399, R406). -/
def sendOverUa (s : State) (l : List Nat) (x : CollPart) : State :=
  (l.filter (fun d => d / 512 == s.boot.devnum.getD 0 / 512)).foldl (fun s d =>
    (partPieces 64 x).foldl (fun s y => request s (d % 512) (.staging (d % 512) y)) s) s

/-- A part goes to the Churns of the devices `l` over a tier's link (R406). -/
def sendPart (s : State) (x : Tier) (l : List Nat) (part : CollPart) : State :=
  match x.link with | 0 => s | 1 => sendOverUa s l part | _ => sendOverEth s l part

/-- Something that the member gives at tier `t`. -/
def partOf (o : EngOp) (p : CollPar) (t fail : Nat) (vals : List W32) (sticky : Nat) : CollPart :=
  { ctx := o.ctx, comm := p.comm, ord := o.aux, tier := t, leader := p.rank, params := if fail = 1 then [] else statement p,
    record := if fail = 1 then [] else (o.recs[2]?).getD [], vals := vals, sticky := sticky, first := 0, total := vals.length, fail := fail }

/-- The members that the part of tier 0 does not reach learn over their tiers' links that this one has contributed (R236, log 41). -/
def tellPresent (s : State) (o : EngOp) (p : CollPar) : State :=
  ((List.range p.tiers.length).zip p.tiers).foldl (fun s e =>
    if e.1 = 0 then s
    else sendPart s e.2 ((groupDevices s o p e.1).filter (fun d => !(groupDevices s o p (e.1 - 1)).contains d)) (partOf o p 0 2 [] 0)) s

/-- The part that the member leads at tier `t` is staged and, over a link, sent. -/
def giveStaged (s : State) (o : EngOp) (p : CollPar) (t : Nat) (x : Tier) (vals : List W32) (sticky : Nat) : State :=
  let part := partOf o p t 0 vals sticky
  let s := sendPart (stagePart s part) x (groupDevices s o p t) part
  if t = 0 then tellPresent s o p else s

/-- The member gives its part's wire value at tier `t` of the FP32 codes (or bits) `v`; with error feedback the residual is
read and written, and its earlier content kept for R236. -/
def givePart (s : State) (n : Nat) (o : EngOp) (p : CollPar) (t : Nat) (v : List W32) (sticky : Nat) : State :=
  match p.tiers[t]? with
  | none => s
  | some x =>
    if 2 ≤ p.op then giveStaged s o p t x v sticky
    else if !x.ef then
      let w := toWire x p.seq p.rank (v.map (·.toNat))
      giveStaged s o p t x (w.map (fun e => BitVec.ofNat 32 e.1)) (w.foldl (fun k e => k ||| e.2) sticky)
    else match readResid s o x p.count with
      | .error e => failColl s n o e
      | .ok res =>
        let xs := (v.zip res).map (fun e => toFp32 (fAdd (fpVal fp32 e.1.toNat) (fpVal fp32 e.2)).1)
        let w := toWire x p.seq p.rank xs
        let new := (xs.zip w).map (fun e => toFp32 (fAdd (fpVal fp32 e.1) (fNeg (wireVal x.wire (BitVec.ofNat 32 e.2.1)))).1)
        match engCells s o false x.resid (new.flatMap (leBytes 4)) with
        | .error e => failColl s n o e
        | .ok cells =>
          let s := updOp (asUnit n 0 (fun s => engCommit s o false false cells) s) n (fun o =>
            { o with parts := o.parts ++ [partOf o p t 0 (res.map (BitVec.ofNat 32 ·)) 0] })
          giveStaged s o p t x (w.map (fun e => BitVec.ofNat 32 e.1)) (w.foldl (fun k e => k ||| e.2) sticky)

/-- The member's state on its communicator. -/
def commState (s : State) (ctx : Nat) (p : CollPar) : Option CommState :=
  (((ctxOf s ctx).map (·.comms)).getD []).find? (fun x => x.comm == p.comm && x.rank == p.rank)

/-- The SEQ that the member's next COLL has: any, on a communicator not used before (R231, R407). -/
def nextSeq (s : State) (ctx : Nat) (p : CollPar) : Option Nat := (commState s ctx p).map (fun c => (c.seq + 1) % 2 ^ 32)

/-- How far a SEQ lies past the next one, mod 2^32: 2^31 is the next one itself, and less lies before it. -/
def seqPlace (next : Option Nat) (seq : Nat) : Nat := match next with | none => 2 ^ 31 | some k => (seq + 3 * 2 ^ 31 - k) % 2 ^ 32

/-- COLLs of the same member that are not complete and run before this one: in SEQ order (R235). -/
def earlierColls (s : State) (n : Nat) (o : EngOp) (p : CollPar) : List EngOp :=
  let k := nextSeq s o.ctx p
  let place (q : CollPar) : Nat := seqPlace k q.seq
  let before (m : Nat) (x : EngOp) (q : CollPar) : Bool :=
    match x.phase, o.phase with
    | .running, .running => decide (x.aux < o.aux)
    | .running, _ => true
    | _, .running => false
    | _, _ => decide (place q < place p) || (place q == place p && decide (m < n))
  (s.ops.filter (fun x => x.1 != n && x.2.kind == .coll && decide (x.2.phase ≠ .held) && x.2.ctx == o.ctx
    && (let q := collPar x.2.image x.2.recs; q.comm == p.comm && q.rank == p.rank && before x.1 x.2 q))).map (·.2)

/-- Has an operation finished all but its outermost tier? -/
def innerDone (s : State) (o : EngOp) : Bool :=
  let p := collPar o.image o.recs
  decide (o.phase = .running) && (List.range (p.tiers.length - 1)).all (fun t => (groupParts s o p t).isSome)

/-- May the member give its part at tier `t`: outermost exchanges run in order (R235)? -/
def mayGive (s : State) (n : Nat) (o : EngOp) (p : CollPar) (t : Nat) : Bool := decide (t + 1 < p.tiers.length) || (earlierColls s n o p).isEmpty

/-- The tier at which the member has a part to give now: it leads, it has the value, and it has not given it. -/
def giveDue (s : State) (n : Nat) (o : EngOp) : Option Nat :=
  let p := collPar o.image o.recs
  if o.kind ≠ .coll || o.phase ≠ .running || o.halt ≠ 0 || !o.stops.isEmpty || o.result.isSome || opQuiet s o || disagree s o p then none
  else (List.range p.tiers.length).find? (fun t => decide (1 ≤ t) && leads p t && (staged s o p t p.rank).isNone
    && (groupParts s o p (t - 1)).isSome && mayGive s n o p t)

/-- Give the part that is due. -/
def giveNext (s : State) (n : Nat) (o : EngOp) : State :=
  let p := collPar o.image o.recs
  match giveDue s n o with
  | none => s
  | some t => match groupParts s o p (t - 1) with
    | none => s
    | some l => givePart s n o p t (groupValue p (t - 1) l) (orSticky l)

/-- The Churns pass on what has come together: every COLL of the device gives the parts that are due, tier by tier. -/
def churn : Nat → State → State
  | 0, s => s
  | k + 1, s =>
    if s.ops.any (fun x => (giveDue s x.1 x.2).isSome) then
      churn k (s.ops.foldl (fun s x => match opOf s x.1 with | some o => giveNext s x.1 o | none => s) s)
    else s

/-- Rounds of the Churns after one change: no tier can start more exchanges than this. -/
def churnBound (s : State) : Nat := 3 * s.ops.length + 3

/-! Start and SRCFREE (R235). -/

/-- May the member start: nothing earlier of it is left, or under LAG 1 only operations that are at their outermost tier. A SEQ that is
not the next one starts too, and its step shows the disagreement (R236, log 41). -/
def collMayStart (s : State) (n : Nat) (o : EngOp) : Bool :=
  let p := collPar o.image o.recs
  let l := earlierColls s n o p
  l.isEmpty || (p.lag && decide (2 ≤ p.tiers.length) && l.all (innerDone s))

def collStartDue (s : State) (n : Nat) (o : EngOp) : Bool :=
  o.kind == .coll && decide (o.phase = .queued) && o.halt == 0 && o.stops.isEmpty && !opQuiet s o && collMayStart s n o

/-- The source's codes. -/
def collSource (s : State) (o : EngOp) (p : CollPar) : Stage (List Nat) :=
  stageAll (fun e =>
    match engElem s o p.src [e, 0, 0, 0, 0] with
    | .error f => { Stage.pure 0 with errs := [f] }
    | .ok v => { val := v.code, errs := (poisonOf false 0 v.got).1, lines := v.got.lines, bad := [], sticky := 0 })
    (if readsSource p then List.range p.count else [])

/-- What a COLL's start reads: its source, and with error feedback the residual of tier 0. -/
def startErrs (s : State) (o : EngOp) (p : CollPar) (l : List EErr) : List EErr :=
  l ++ (match p.tiers.head? with
    | some x => if x.ef && decide (p.op < 2) then (match readResid s o x p.count with | .error e => [e] | .ok _ => []) else []
    | none => [])

/-- The member's step begins: its state on the communicator goes on. -/
def collBegin (s : State) (n : Nat) (o : EngOp) (p : CollPar) : State :=
  let k := ((commState s o.ctx p).map (·.steps)).getD 0
  let s := updCtx s o.ctx (fun c => { c with comms := c.comms.filter (fun x => !(x.comm == p.comm && x.rank == p.rank))
    ++ [{ comm := p.comm, rank := p.rank, seq := p.seq, steps := k + 1 }] })
  updOp s n (fun o => { o with phase := .running, aux := k, started := s.cycle })

/-- A COLL starts: its source is read, SRCFREE falls, and it gives its part of tier 0. Where a holder does not answer what it reads, it
waits. -/
def startColl (s : State) (n : Nat) (o : EngOp) : State :=
  let p := collPar o.image o.recs
  let r := collSource s o p
  match holdOp s n (startErrs s o p r.errs) with
  | some s => s
  | none =>
  let s := noteReads (collBegin s n o p) o r.lines
  match r.errs with
  | e :: _ => failColl s n o e
  | [] =>
    let s := updOp s n (fun o => { o with srcFreeDone := true })
    let s := if o.orphaned then s else if teamSaved s o.crew then savedFall s o.crew 0 o.fa else oweFall s o.crew o.fa 0
    let v := r.val.map (fun c => BitVec.ofNat 32 (if 2 ≤ p.op then c else toFp32 (fpVal (fpOf p.src.r.fmt) c)))
    match opOf s n with
    | none => s
    | some o => let s := givePart s n o p 0 v 0; churn (churnBound s) s

/-- SRCFREE_FALL of a COPY or GXFER (R349), or the start of a COLL, which reads its whole source (R235), or its going on after a
wait for an answer. -/
def execSrcfreeFall (n : Nat) (s : State) : Out :=
  match opOf s n with
  | none => .next s
  | some o =>
    if srcFreeDue o then .next (fallSrcFree s n o)
    else if collStartDue s n o then .next (startColl s n o)
    else if (giveDue s n o).isSome then .next (churn (churnBound s) s)
    else .next s

/-! Completion (R234, R236, R408). -/

/-- The value of the whole operation at the member. -/
def collValue (s : State) (o : EngOp) (p : CollPar) : Option (List W32 × Nat) :=
  (groupParts s o p (p.tiers.length - 1)).map (fun l => (groupValue p (p.tiers.length - 1) l, orSticky l))

/-- Has rank `r` contributed, as this device knows by its part of tier 0 or by its word? -/
def present (l : List CollPart) (r : Nat) : Bool := l.any (fun x => x.tier == 0 && x.leader == r && x.fail != 1)

/-- The ranks that have not contributed (R236); where all have, the leaders of the parts that the member waits for (log 41). -/
def missingRanks (s : State) (o : EngOp) (p : CollPar) : List Nat :=
  let l := ofStep s o p
  let m := (List.range p.members).filter (fun r => !present l r)
  if m.isEmpty then (List.range p.tiers.length).flatMap (fun t => (groupLeaders p t).filter (fun r => (staged s o p t r).isNone)) else m

/-- The cycle at which a started COLL has waited for the communicator's TIMEOUT, in microseconds (R232, R236). -/
def collLimit (o : EngOp) : Nat := o.started + leAt ((o.recs[2]?).getD []) 4 4 * 2700

/-- COLL_TIMEOUT is due: the time has passed and some member has not contributed. -/
def collLate (s : State) (o : EngOp) : Bool :=
  o.kind == .coll && decide (o.phase = .running) && o.result.isNone && decide (collLimit o ≤ s.cycle)
    && !(missingRanks s o (collPar o.image o.recs)).isEmpty

/-- COLL_TIMEOUT: some member has not contributed within TIMEOUT of this member's start (R236, R408). -/
def execCollTimeout (n : Nat) (s : State) : Out :=
  match opOf s n with
  | none => .next s
  | some o =>
    if collLate s o then
      .next (updOp s n (fun o => { o with result := some 0x35, failrank := minNat (missingRanks s o (collPar o.image o.recs)) }))
    else .next s

def collDone (s : State) (n : Nat) (o : EngOp) : Bool :=
  let p := collPar o.image o.recs
  o.kind == .coll && (decide (o.phase = .queued) && (o.halt != 0 || !o.stops.isEmpty)
    || decide (o.phase = .stopping) && !opUnacked s n
    || decide (o.phase = .running) && (o.halt != 0 || !o.stops.isEmpty || o.result.isSome || disagree s o p
        || (collValue s o p).isSome && (earlierColls s n o p).isEmpty))

/-- Codes of the destination's elements, with the sticky bits of their conversion. -/
def collOut (p : CollPar) (v : List W32) : List Nat × Nat :=
  if 2 ≤ p.op then (v.map (·.toNat), 0)
  else
    let r := v.map (fun x => roundFp (fpOf p.dst.r.fmt) .rne 0 (fpVal fp32 x.toNat))
    let mine := if p.op = 1 then (r.drop (p.rank * p.outCount)).take p.outCount else r
    (mine.map (·.code), r.foldl (fun n x => n ||| x.sticky) 0)

/-- Cells of the elements that `keep` leaves to be written. -/
def collCells (s : State) (o : EngOp) (d : Opnd) (keep : Nat → Bool) (l : List Nat) : List EErr × List Cell :=
  joinCells (((List.range l.length).zip l).map (fun e => if keep e.1 then .ok [] else putElem s o d [e.1, 0, 0, 0, 0] e.2))

/-- After MISMATCH or TIMEOUT each residual element keeps the value this operation gave it or has its prior one (R236). -/
def undoResid (s : State) (o : EngOp) (p : CollPar) : State :=
  o.parts.foldl (fun s x => match p.tiers[x.tier]? with
    | none => s
    | some t => ((List.range x.vals.length).zip x.vals).foldl (fun s e =>
        if Config.collKeeps (s.fresh + e.1) then
          (match engCells s o false (t.resid + 4 * e.1) (leBytes 4 e.2.toNat) with
            | .ok c => engCommit s o false false c
            | .error _ => s)
        else s) s) s

/-- A member that ends with MISMATCH tells the groups in which it has not given the part that it leads. -/
def giveMismatch (s : State) (o : EngOp) (p : CollPar) : State :=
  ((List.range p.tiers.length).zip p.tiers).foldl (fun s e =>
    if !leads p e.1 || (staged s o p e.1 p.rank).isSome then s
    else sendPart (stagePart s (partOf o p e.1 1 [] 0)) e.2 (groupDevices s o p e.1) (partOf o p e.1 1 [] 0)) s

/-- What the end of a COLL writes into the saved state of its team (R205): STATUS and FAILRANK `l`, sticky bits, the flags, and
the ranges it had. -/
def savedEnd (s : State) (n : Nat) (o : EngOp) (l : List Byte) : State :=
  let s := savedStat (savedPut s o.crew (fun i => i.padOff + o.block + 0x20) l) o.crew o.sticky
  let s := if o.srcFreeDone then s else savedFall s o.crew o.scope o.fa
  savedRanges (savedFall s o.crew o.scope o.fb) o.crew n

/-- STATUS, FAILRANK, and the end by R200, at SYSTEM scope. -/
def leaveColl (s : State) (n : Nat) (o : EngOp) (p : CollPar) (code : Nat) : State :=
  let l := leBytes 4 code ++ leBytes 4 (if code / 2 ^ 24 = 0x35 then o.failrank else 0)
  let s := if teamSaved s o.crew then savedEnd s n o l else writeBlock s o 0x20 l
  let s := endOp s n o (elemSpan p.dst p.outCount) code 0
  churn (churnBound s) s

/-- The end, once every store of the COLL to peer memory is acknowledged (R351, R400). -/
def finishColl (s : State) (n : Nat) (o : EngOp) (p : CollPar) (code : Nat) : State :=
  if opUnacked s n then updOp s n (fun x => { x with phase := .stopping, result := some code, sticky := o.sticky })
  else leaveColl s n o p code

/-- The value that the operation computes at the member, where the parts of its outermost group come of its own statement. -/
def ownValue (s : State) (o : EngOp) (p : CollPar) : List Nat :=
  match groupParts s o p (p.tiers.length - 1) with
  | some l => if l.any (atOdds o p) then [] else (collOut p (groupValue p (p.tiers.length - 1) l)).1
  | none => []

/-- The end after MISMATCH or TIMEOUT: each destination element holds its prior or its new value (R236). -/
def endFailed (s : State) (n : Nat) (o : EngOp) (p : CollPar) (code : Nat) : State :=
  let s := { asUnit n 0 (fun s => undoResid s o p) s with fresh := s.fresh + p.count }
  let out := ownValue s o p
  let w := collCells s o p.dst (fun i => Config.collKeeps (s.fresh + i)) out
  let s := if w.1.isEmpty then asUnit n 0 (fun s => engCommit s o false false w.2) s else s
  let s := { s with fresh := s.fresh + out.length }
  finishColl (if code / 2 ^ 24 = 0x38 then giveMismatch s o p else s) n o p code

/-- The end of a COLL. -/
def endColl (s : State) (n : Nat) (o : EngOp) : State :=
  let p := collPar o.image o.recs
  let x := stopStatus o (some 0)
  if o.phase = .stopping then leaveColl s n o p (if x.1 ≠ 0 then x.1 else o.result.getD 0)
  else if x.1 ≠ 0 then finishColl s n o p x.1
  else if disagree s o p then endFailed s n o p (st 0x38 0)
  else if o.result.isSome then endFailed s n o p (st 0x35 0)
  else match collValue s o p with
    | none => s
    | some v =>
      let out := collOut p v.1
      let w := collCells s o p.dst (fun _ => false) out.1
      match w.1 with
      | e :: _ => finishColl (askPages s o w.1) n o p (st e.code 0)
      | [] => finishColl (asUnit n 0 (fun s => engCommit s o false false w.2) s) n { o with sticky := v.2 ||| out.2 } p 0

/-- A part arrives from another device's Churn (R406). -/
def churnReceive (s : State) (x : CollPart) : State := let s := stagePart s x; churn (churnBound s) s

end Sys2Proof.Machine
end

