-- ==== Sys2Proof/Machine/Lease.lean ====
section
/-! DEFINITION. Term-engine leases (R206-R210, R329, R330), CWAIT (R225), the acceptance of held commands and the completion
of engine operations (R198, R200). -/

namespace Sys2Proof.Machine

/-! The arbiter (R207, R330). -/

/-- The sample that a request of a cycle goes by: of the sample's own cycle, the one before (R416). -/
def heatAt (c : Cluster) (cycle : Nat) : BitVec 2 := if c.sampledAt = some cycle then c.thermalWas else c.thermal

/-- Number of the engine whose comparator alone has tripped. -/
def hotEngine (c : Cluster) (cycle : Nat) : Option Nat :=
  if heatAt c cycle = 1#2 then some 0 else if heatAt c cycle = 2#2 then some 1 else none

def engineFree (c : Cluster) (e : Nat) : Bool := match c.engines[e]? with | some x => decide (x.hold = .free) && x.running.isNone | none => false

/-- The engine that a request would be granted now, and whether heat chose it. -/
def grantEngine (c : Cluster) (cycle : Nat) : Option (Nat × Bool) :=
  match hotEngine c cycle with
  | some h => if engineFree c (1 - h) then some (1 - h, true) else none
  | none => if engineFree c 0 then some (0, false) else if engineFree c 1 then some (1, false) else none

def holdEngine (s : State) (cl e : Nat) (h : EngHold) : State := setEngine s cl e (fun x => { x with hold := h })

/-- A new lease of a team (R209). -/
def newLease (count : Nat) : Lease := { engine := none, count := count, left := 0, g := 2, d := 0, freed := false, thermal := false }

def updLeases (s : State) (cl ts : Nat) (f : List (Nat × Lease) → List (Nat × Lease)) : State :=
  updTeam s cl ts (fun t => { t with leases := f t.leases })

/-- The lease under key `k` takes an engine. -/
def takeEngine (s : State) (cl ts k e : Nat) (th : Bool) : State :=
  holdEngine (updLeases s cl ts (fun l => l.map (fun x =>
    if x.1 = k then (x.1, { x.2 with engine := some e, left := if x.2.left = 0 then x.2.count else x.2.left, thermal := th }) else x))) cl e (.lease ts k)

/-- The batch of a crew that waits for a lease, with its fibre and d. -/
def leaseWaiter (s : State) (r : CrewRef) : Option (Nat × Nat × Opd) :=
  (crewOf s r).bind (fun c => (placed c).findSome? (fun e => match e.2.wait with
    | .lease i d => some (e.1, i, d)
    | _ => none))

/-- MLEASE's status reaches its fibre, and its batch goes on. -/
def leaseAnswer (s : State) (r : CrewRef) (v : Nat) : State :=
  match leaseWaiter s r with
  | none => s
  | some (bi, i, d) => match atOf s r bi with
    | none => s
    | some a => besideCur s r a.b (fun s => finishWord s a [(i, outRes d 1 v)])

/-- The lowest handle that the team does not hold (R206). -/
def freeHandle (t : Team) : Option Nat := [0, 1].find? (fun h => (look t.leases h).isNone)

/-- LEASE_GRANT: the oldest request of the cluster is granted an engine, MLEASE's under the lowest free handle. Where the team
has come to hold two leases since the request, its status is LIMIT (log 37). -/
def execLeaseGrant (cl : Nat) (s : State) : Out :=
  let c := clusterOf s cl
  match c.leaseq, grantEngine c s.cycle with
  | q :: t, some (e, th) =>
    let s := updCluster s cl (fun c => { c with leaseq := t })
    match q with
    | .mma n => .next (updOp (holdEngine s cl e (.implicit n)) n (fun o => { o with thermal := th }))
    | .handle ts k => .next (takeEngine s cl ts k e th)
    | .request ts cr n =>
      match (teamOf s cl ts).bind freeHandle with
      | some h => .next (leaseAnswer (takeEngine (updLeases s cl ts (fun l => put l h (newLease n))) cl ts h e th)
          { cl := cl, ts := ts, cr := cr } (st 0 h))
      | none => .next (leaseAnswer s { cl := cl, ts := ts, cr := cr } (st 0x41 0))
  | _, _ => .next s

/-- MMAs under a lease that are accepted and not complete. -/
def leaseOps (s : State) (cl ts k : Nat) : Bool := s.ops.any (fun o => underLease cl ts k o.2 && decide (o.2.phase ≠ .held))

/-- Could the oldest waiting request take engine `e` if it were free? A request that may take only the cool engine (R330) does not wait
for the tripped one, so that a spent lease on that one is renewed (R207): the model's choice (log 37). -/
def wanted (c : Cluster) (cycle e : Nat) : Bool := !c.leaseq.isEmpty && hotEngine c cycle != some e

/-- Is a lease's hold of engine `e` at an end or its count spent, at an operation boundary? -/
def expiryDue (s : State) (cl e : Nat) : Bool :=
  match (clusterOf s cl).engines[e]? with
  | none => false
  | some x => x.running.isNone && (match x.hold with
    | .lease ts k => (match (teamOf s cl ts).bind (fun t => look t.leases k) with
      | none => true
      | some l => (l.freed && !leaseOps s cl ts k) || l.left == 0)
    | _ => false)

/-- LEASE_EXPIRY: a freed lease without MMAs ends; a spent one passes the engine to a waiting request and waits in its turn,
or its count is renewed (R207, R208). -/
def execLeaseExpiry (cl e : Nat) (s : State) : Out :=
  if !expiryDue s cl e then .next s
  else match (clusterOf s cl).engines[e]? with
    | none => .next s
    | some x => match x.hold with
      | .lease ts k =>
        let free := holdEngine s cl e .free
        match (teamOf s cl ts).bind (fun t => look t.leases k) with
        | none => .next free
        | some l =>
          if l.freed && !leaseOps s cl ts k then .next (updLeases free cl ts (fun l => del l k))
          else if wanted (clusterOf s cl) s.cycle e then
            .next (updCluster (updLeases free cl ts (fun m => put m k { l with engine := none, left := 0 })) cl
              (fun c => { c with leaseq := c.leaseq ++ [.handle ts k] }))
          else .next (updLeases s cl ts (fun m => put m k { l with left := l.count }))
      | _ => .next s

/-! MLEASE, MFREE, MCFG, MSTAT (R206-R210). -/

/-- The checks of an RRR word of the engines: d, and up to three 32-bit sources (R195, R196). -/
def lSpec (f : RRR) (nsrc : Nat) (opt : Bool) : WordSpec :=
  rrrSpec { port := 0, d := pDstG false, a := pSrc false, b := if 2 ≤ nsrc then pSrc false else pNone,
            c := if 3 ≤ nsrc then pSrc false else pNone, ty := f.ty.toNat == 0, opt := opt } f false false false

/-- MLEASE for the issuing fibre. -/
def mleaseFor (f : RRR) (a : At) (i : Nat) (s : State) : State :=
  let c := opdVal s a i f.a 1 % 128
  let done (s : State) (v : Nat) : State := finishWord s a [(i, outRes f.d 1 v)]
  if c = 0 || 64 < c then done s (st 0x42 0)
  else match freeHandle a.team with
    | none => done s (st 0x41 0)
    | some h =>
      let k := clusterOf s a.ref.cl
      if f.opt.toNat = 1 then
        match k.leaseq, grantEngine k s.cycle with
        | [], some (e, th) =>
          done (takeEngine (updLeases s a.ref.cl a.ref.ts (fun l => put l h (newLease c))) a.ref.cl a.ref.ts h e th) (st 0 h)
        | _, _ => done s (st 0x43 0)
      else
        waitAt (updCluster s a.ref.cl (fun k => { k with leaseq := k.leaseq ++ [.request a.ref.ts a.ref.cr c] })) a (.lease i f.d) false

def execMlease (f : RRR) (s : State) : Out :=
  issueWord (lSpec f 1 (decide (f.opt.toNat < 2))) (fun a act s => mleaseFor f a (act.headD 0) s) s

/-- A lease freed with MMAs outstanding moves to a key of its own; its engine, its waiting request and its MMAs follow. -/
def retireLease (s : State) (cl ts h : Nat) (l : Lease) : State :=
  let k := ((List.range 64).find? (fun i => match teamOf s cl ts with | some t => (look t.leases (i + 4)).isNone | none => true)).getD 0 + 4
  let s := updLeases s cl ts (fun m => put (del m h) k { l with freed := true })
  let s := updCluster s cl (fun c => { c with
    engines := c.engines.map (fun e => if e.hold = .lease ts h then { e with hold := .lease ts k } else e),
    leaseq := c.leaseq.map (fun q => if q = .handle ts h then .handle ts k else q) })
  { s with ops := s.ops.map (fun o => if underLease cl ts h o.2 && decide (o.2.phase ≠ .held) then (o.1, { o.2 with lease := some k }) else o) }

/-- A lease without MMAs ends. -/
def endLease (s : State) (cl ts h : Nat) : State :=
  let s := updLeases s cl ts (fun m => del m h)
  updCluster s cl (fun c => { c with
    engines := c.engines.map (fun e => if e.hold = .lease ts h then { e with hold := .free } else e),
    leaseq := c.leaseq.filter (fun q => decide (q ≠ .handle ts h)) })

/-- MFREE of a handle. -/
def mfree (s : State) (cl ts h : Nat) : State × Nat :=
  match (teamOf s cl ts).bind (fun t => look t.leases h) with
  | none => (s, st 0x40 0)
  | some l => (if leaseOps s cl ts h then retireLease s cl ts h l else endLease s cl ts h, stOk)

def execMfree (f : RRR) (s : State) : Out :=
  issueWord (lSpec f 1 (noOpt f.opt.toNat)) (fun a act s =>
    let i := act.headD 0
    let r := mfree s a.ref.cl a.ref.ts (opdVal s a i f.a 1 % 2)
    finishWord r.1 a [(i, outRes f.d 1 r.2)]) s

def execMcfg (f : RRR) (s : State) : Out :=
  issueWord (lSpec f 1 (decide (f.opt.toNat < 16) && decide (f.opt.toNat % 4 < 3))) (fun a act s =>
    let i := act.headD 0
    let h := opdVal s a i f.a 1 % 2
    match look a.team.leases h with
    | none => finishWord s a [(i, outRes f.d 1 (st 0x40 0))]
    | some l => finishWord (updLeases s a.ref.cl a.ref.ts (fun m => put m h { l with g := f.opt.toNat % 4, d := f.opt.toNat / 4 })) a
        [(i, outRes f.d 1 stOk)]) s

/-- The quantity that MSTAT's selector names (R210). -/
def mstatVal (c : Cluster) (t : Team) (sel : Nat) : Nat :=
  match t.mstat, sel with
  | none, _ => 0
  | some _, 7 => c.fused
  | some _, 8 => c.trips
  | some m, 0 => m.cycles
  | some m, 1 => m.stalls
  | some m, 2 => m.place
  | some m, 3 => m.rows
  | some m, 4 => m.skipped
  | some m, 5 => m.kblocks
  | some m, 6 => m.bound
  | some _, _ => 0

def execMstat (f : RRR) (s : State) : Out :=
  issueWord (lSpec f 1 (noOpt f.opt.toNat)) (fun a act s =>
    finishWord s a (act.map (fun i => (i, outRes f.d 1 (mstatVal (clusterOf s a.ref.cl) a.team (opdVal s a i f.a 1 % 16) % 2 ^ 32))))) s

/-! CWAIT (R225). -/

/-- First and last map byte of the 32 chunks from `b` on. -/
def mapLo (a b : Nat) : Nat := a + b / 8
def mapHi (a b : Nat) : Nat := a + (b + 31) / 8

/-- The selected chunks whose bits are set. -/
def mapBits (s : State) (cl ts a b c : Nat) : Nat := (padNat s cl ts (mapLo a b) 5 / 2 ^ (b % 8)) % 2 ^ 32 &&& c

/-- Does the fibre's wait go on: a selected bit is clear, and a running operation's map overlaps its bytes? -/
def mapBusy (s : State) (t : Team) (cl ts : Nat) (x : Nat × Nat × W32) : Bool :=
  mapBits s cl ts x.1 x.2.1 x.2.2.toNat != x.2.2.toNat
    && t.ranges.any (fun r => r.guard && decide (mapLo x.1 x.2.1 ≤ r.hi) && decide (r.lo ≤ mapHi x.1 x.2.1))

def execCwait (f : RRR) (s : State) : Out :=
  issueWord (lSpec f 3 (decide (f.opt.toNat < 2))) (fun a act s =>
    let x (i : Nat) : Nat × Nat × W32 := (opdVal s a i f.a 1, opdVal s a i f.b 1, BitVec.ofNat 32 (opdVal s a i f.c 1))
    let inside (i : Nat) : Bool := decide (mapHi (x i).1 (x i).2.1 < padSize a.team)
    let good := act.filter inside
    if good.any (fun i => padBlocked a.team (mapLo (x i).1 (x i).2.1) (mapHi (x i).1 (x i).2.1) false) then waitAt s a .padRange false
    else if f.opt.toNat = 0 && good.any (fun i => mapBusy s a.team a.ref.cl a.ref.ts (x i)) then waitAt s a (.cwait (good.map x)) true
    else
      let v (i : Nat) : Nat := mapBits s a.ref.cl a.ref.ts (x i).1 (x i).2.1 (x i).2.2.toNat
      let outs := act.map (fun i => (i, if inside i then outRes f.d 1 (v i) else .bad { fault .bounds with addr := (x i).1 }))
      let scopes := good.flatMap (fun i => (maskSlots (BitVec.ofNat 32 (v i))).filterMap (fun j => look a.team.chunkScopes (8 * (x i).1 + (x i).2.1 + j)))
      finishWord (if scopes.isEmpty then s else acquireAt s a.ref.cl (maxNat scopes)) a outs) s

/-- Is the wait over that CWAIT_END ends: CWAIT's, that of an L1 access behind a BANKCFG (R225, R308), that for an answer or for the
acknowledgement of stores (R386, R400, R401)? -/
def cwaitOver (s : State) (a : At) : Bool :=
  match a.b.wait with
  | .cwait l => !l.any (mapBusy s a.team a.ref.cl a.ref.ts)
  | .l1Held n again => !again && !ringHeld s a.ref.cl && (n == 0 || !heldBefore s a.ref.cl (some n))
  | .answer l => !l.all (quiet s)
  | .acks => !unacked s
  | _ => false

/-- The batch looks at its word again; an operation on the L1 keeps its place in the order until it is done (R308). -/
def lookAgain (cycle : Nat) (b : Batch) : Batch :=
  match b.wait with
  | .l1Held (n + 1) _ => { readyAt cycle b with wait := .l1Held (n + 1) true }
  | _ => readyAt cycle b

/-- CWAIT_END: the batch looks at its word again. -/
def execCwaitEnd (s : State) : Out :=
  match issuer s with
  | none => .next s
  | some a =>
    if cwaitOver s a then .next (updCrew s a.ref (fun c => { c with batches := modAt c.batches a.bi (lookAgain s.cycle) }))
    else .next s

/-! Acceptance of a held command (R198). -/

/-- Checks 1 to 3 of a kind of command, and its status checks. -/
def planOf (k : OpKind) : EngCmd → At → State → State × Except FaultInfo EngPlan :=
  match k with | .mma => mmaPlan | .census => censusPlan | .copy => copyPlan | .gxfer => gxferPlan | .coll => collPlan
def statusOf (k : OpKind) : State → At → EngOp → Option Nat := match k with | .mma => mmaStatus | _ => fun _ _ _ => none

/-- The batch that a held command stands for. -/
def heldAt (s : State) (n : Nat) (o : EngOp) : Option At :=
  match crewOf s o.crew with
  | none => none
  | some c => ((placed c).find? (fun e => decide (e.2.wait = .eng n) && mayAct c e.2)).bind (fun e => atOf s o.crew e.1)

/-- The use that an engine command makes of its scheduler (R237). -/
def engUse : WordUse := { port := some 0, cycles := 1, words := 1 }

/-- Does the held command go on: its scheduler may issue and has port E free, and a check now fails, or no stall is left (R237,
R414)? -/
def heldReady (s : State) (n : Nat) (o : EngOp) : Bool :=
  match heldAt s n o with
  | none => false
  | some a => crewRuns s a.team a.crew && portFree (clusterOf s a.ref.cl) s.cycle (a.crew.pos % 2) engUse.port
      && !railHolds (clusterOf s a.ref.cl) (a.crew.pos % 2) s.cycle && (match planOf o.kind (heldCmd o) a s with
    | (_, .error _) => true
    | (s, .ok p) => match engEntries s a.ctx a.ids p.globals with
      | .error _ => true
      | .ok _ => (statusOf o.kind s a p.op).isSome || !engStalls s a p)

/-- ENG_ACCEPT: a command that a stall held is checked again, issues and is accepted. -/
def execEngAccept (n : Nat) (s : State) : Out :=
  match opOf s n with
  | none => .next s
  | some o =>
    if o.phase ≠ .held || !heldReady s n o then .next s
    else match heldAt s n o with
      | none => .next s
      | some a => .next (countIssue (besideCur s a.ref a.b (fun s => engIssue (planOf o.kind) (statusOf o.kind) (heldCmd o) (some n) a s)) a.ref engUse)

/-! Completion (R200, R204). -/

def opDone (s : State) (n : Nat) (o : EngOp) : Bool :=
  match o.kind with
  | .mma => mmaDone s n o
  | .census => decide (o.phase ≠ .held) && !opQuiet s o
  | .coll => collDone s n o
  | _ => xferDone s n o

/-- ENG_OP_COMPLETE. -/
def execEngOpComplete (n : Nat) (s : State) : Out :=
  match opOf s n with
  | none => .next s
  | some o =>
    if !opDone s n o then .next s
    else .next (match o.kind with
      | .mma => endMma s n o
      | .census => endCensus s n o
      | .coll => endColl s n o
      | _ => endXfer s n o)

/-! Which event of the engines is due. -/

/-- The event due for an operation. -/
def opDue (s : State) (n : Nat) (o : EngOp) : Option Instr :=
  if o.phase = .held then (if heldReady s n o then some (.engAccept n) else none)
  else if tileDue s o && initialTile s o then some (.tileBlockStart n)
  else if stopNow s o then some (.engOpStop n)
  else if opDone s n o then some (.engOpComplete n)
  else if srcFreeDue o || collStartDue s n o || (giveDue s n o).isSome then some (.srcfreeFall n)
  else if collLate s o then some (.collTimeout n)
  else match o.tiles.find? (fun t => (barrierTile s o t.grp).isSome) with
    | some t => some (.kBlockBarrier n t.grp)
    | none =>
      if tileDue s o then some (.tileBlockStart n)
      else if !isXfer o || o.phase ≠ .running then none
      else match firstOpen o (xferPar o) with
        | some c => if chunkDue s n o c then some (.copyChunkDone n c) else none
        | none => none

/-- The message that reaches its receiver first of those that arrive in a cycle: by the sender's cluster (R312). -/
def fifoDue (s : State) : Option Instr :=
  let l := s.ops.filterMap (fun o => (o.2.fifoLeft.find? (arriveDue s o.1 o.2)).map (fun x => (o.2.crew.cl, o.1, x)))
  (leastBy (fun (a b : Nat × Nat × Nat) => decide (a.1 < b.1)) l).map (fun e => .fifoMessageArrive e.2.1 e.2.2)

/-- The event due at a cluster's term engines and arbiter. -/
def engineDue (s : State) (cl : Nat) (c : Cluster) : Option Instr :=
  match [0, 1].find? (fun e => (nextMma s cl e).isSome) with
  | some e => some (.mmaStart cl e)
  | none => match [0, 1].find? (expiryDue s cl) with
    | some e => some (.leaseExpiry cl e)
    | none => if !c.leaseq.isEmpty && (grantEngine c s.cycle).isSome then some (.leaseGrant cl) else none

/-- The event due at a copy engine. -/
def copyDue (s : State) : Option Instr :=
  s.ops.findSome? (fun o =>
    if isXfer o.2 && decide (o.2.phase = .queued) && (nextCopy s (dieNo o.2.crew.cl) o.2.engine).isSome then
      some (.copyOpStart (dieNo o.2.crew.cl) o.2.engine) else none)

/-- The event due at the engines. -/
def enginesDue (s : State) : Option Instr :=
  match s.clusters.findSome? (fun c => engineDue s c.1 c.2) with
  | some i => some i
  | none => match copyDue s with
    | some i => some i
    | none => s.ops.findSome? (fun o => opDue s o.1 o.2)

/-- Cycles at which an operation has something due. -/
def opTimes (o : EngOp) : List Nat :=
  if isXfer o then (if o.phase = .running then [o.ended] else [])
  else if o.kind = .coll then (if o.phase = .running then [collLimit o] else [])
  else if o.kind ≠ .mma then []
  else match o.phase with
    | .queued => [o.started]
    | .running => o.tiles.map (·.at_) ++ o.groupFree.map (·.2) ++ [o.ended]
    | .stopping => o.tiles.map (·.at_) ++ [o.ended]
    | .held => []
    | .saved => []

end Sys2Proof.Machine
end

