-- ==== Sys2Proof/Machine/CtxSave.lean ====
section
/-! DEFINITION. Saving and restoring a context (R250, R307, R310, R335, R359, R360, R372-R376): CTXSV, CTXLD, and the
placement attempts, which also serve the restores that wait for room. -/

namespace Sys2Proof.Machine

/-- The state a meaning answers, when it answers one. -/
def nextOf (s : State) (o : Out) : State := match o with | .next t => t | _ => s

/-! The parts of a context. -/

/-- The resident teams of a context: cluster, slot, team. -/
def ctxTeams (s : State) (x : Nat) : List (Nat × Nat × Team) :=
  s.clusters.flatMap (fun c => (c.2.teams.filter (fun t => t.2.ctx == x)).map (fun t => (c.1, t.1, t.2)))

def ctxCrews (s : State) (x : Nat) : List CrewRef :=
  (ctxTeams s x).flatMap (fun t => (List.range t.2.2.crews.length).map (fun i => { cl := t.1, ts := t.2.1, cr := i }))

def teamIs (s : State) (x cl ts : Nat) : Bool := match teamOf s cl ts with | some t => t.ctx == x | none => false

/-- Is the operation the context's: one of a resident team, or a DETACHED one whose team has gone (R350)? -/
def ofCtx (s : State) (x : Nat) (o : EngOp) : Bool := if o.orphaned then o.ctx == x else teamIs s x o.crew.cl o.crew.ts

/-- The operations of a context in the order of their acceptance. -/
def ctxOps (s : State) (x : Nat) : List (Nat × EngOp) := s.ops.filter (fun o => ofCtx s x o.2)

/-- The locations of the context's accesses that are outstanding to holders which do not answer (R372, R386, R401). -/
def answersOut (s : State) (x : Nat) : List Nat :=
  (ctxTeams s x).flatMap (fun t => t.2.2.crews.flatMap (fun c => c.batches.flatMap (fun b => match b.wait with
    | .answer l => l.filter (quiet s)
    | _ => [])))
    ++ (match s.ckpt with
      | some k => if teamIs s x k.crew.cl k.crew.ts then ((List.range 8).filter (portQuiet s)).map (fun p => 2 ^ 50 + p * 2 ^ 46) else []
      | none => [])

/-! Step 1: issue stops. -/

/-- Commands held at issue and requests for leases are withdrawn (R359). -/
def withdraw (s : State) (x : Nat) : State :=
  let s := ((ctxOps s x).filter (fun o => decide (o.2.phase = .held))).foldl (fun s o =>
    unreserve { s with ops := del s.ops o.1 } o.2.crew o.2.dest) s
  mapClusters s (fun cl c => { c with leaseq := c.leaseq.filter (fun q => match q with
    | .request ts _ _ => !teamIs s x cl ts
    | _ => true) })

/-! Step 2: fibre work settles. -/

/-- The statuses of a crew's undecided LAUNCHes. -/
def settleLaunches (r : CrewRef) : Nat → State → State
  | 0, s => s
  | n + 1, s => settleLaunches r n (nextOf s (execLaunchStatus { s with issue := some { crew := r, bi := 0 } }))

/-- Every flag fall that the crew is owed (R16). -/
def settleFalls (s : State) (r : CrewRef) : State :=
  updCrew s r (fun c => c.falls.foldl (fun c f => fallFlag f.1 f.2 c) { c with falls := [] })

/-- A crew's queue waits: fibres that have a result go on, the others stand at the word (R192, R374). -/
def settleQueues (r : CrewRef) : Nat → State → State
  | 0, s => s
  | n + 1, s =>
    match (crewOf s r).bind (fun c => (placed c).findSome? (fun e => (queueWait e.2).map (fun q => (e.1, q.2.1, q.2.2)))) with
    | none => s
    | some (bi, d, fs) =>
      let todo := slotsMask ((fs.filter (·.done.isNone)).map (·.slot))
      let done := fs.filter (·.done.isSome)
      let s := updCrew s r (fun c => { c with
        batches := modAt c.batches bi (fun b => { b with mask := if done.isEmpty then b.mask else b.mask &&& ~~~todo, wait := .none })
          ++ (match c.batches[bi]? with
              | some b => addBatch [] { b with mask := if done.isEmpty then 0#32 else b.mask &&& todo, wait := .none }
              | none => []) })
      settleQueues r n (if done.isEmpty then s else match atOf s r bi with
        | none => s
        | some a => settle (queueNext s a d true done) r)

/-- An interrupted SLEEP is complete (R374). -/
def endSleeps (cycle : Nat) : Nat → Crew → Crew
  | 0, c => c
  | n + 1, c =>
    match placeOf (fun b => match b.wait with | .sleep _ => true | _ => false) c.batches with
    | none => c
    | some i => endSleeps cycle n (advance cycle c i)

/-- How a batch stands in a saved crew (R374): the parked ones stay parked, the others stand at their word. -/
def savedBatch (b : Batch) : Batch :=
  { b with stale := b.begun, wait := match b.wait with
    | .repHold => .repHold
    | .bar i m d => .bar i m d
    | .gbar d => .gbar d
    | .group p m => .group p m
    | .ticket t l => .ticket t l
    | .recalling l _ => .recalling l true
    | _ => .none }

def savedCrew (cycle : Nat) (c : Crew) : Crew :=
  let c := endSleeps cycle c.batches.length c
  { c with batches := c.batches.map savedBatch, cur := none, memWait := none, cand := false, prec := none }

/-- CFLUSH walkers of the context finish. -/
def endWalkers (s : State) (x : Nat) : State :=
  (s.clusters.flatMap (fun c => (c.2.walkers.filter (fun w => teamIs s x c.1 w.2.ts)).map (fun w => (c.1, w.1)))).foldl
    (fun s w => nextOf s (execCflushWalkDone w.1 w.2 s)) s

/-- Crews of the context that a barrier has released leave it. -/
def endWaves (s : State) (x : Nat) : State :=
  (s.clusters.map (·.1)).foldl (fun s cl =>
    let mine (w : WaveItem) : Bool := teamIs s x cl w.ts
    let s := ((clusterOf s cl).waves.filter mine).foldl (releaseWave cl) s
    updCluster s cl (fun c => { c with waves := c.waves.filter (fun w => !mine w) })) s

/-- One crew's results and falls. -/
def settleCrew (s : State) (r : CrewRef) : State :=
  let n := match crewOf s r with | some c => c.launches.length | none => 0
  let s := settleFalls (settle (settleLaunches r n (settle s r)) r) r
  settleQueues r 32 s

def settleCtx (s0 : State) (x : Nat) : State :=
  let s := endWaves (endWalkers s0 x) x
  let s := if (match s.ckpt with | some k => teamIs s x k.crew.cl k.crew.ts | none => false) then nextOf s (execCkptComplete s) else s
  let s := (ctxCrews s x).foldl settleCrew s
  let s := dropWaiters s (fun w => teamIs s x w.crew.cl w.crew.ts)
  { s with issue := s0.issue }

/-! Step 3: the engines drain (R205, R335). -/

/-- A tile block completes the K-block that it is in. -/
def drainTile (s : State) (n : Nat) (t0 : TileRun) : State :=
  let s := updOp s n (countK t0)
  match opOf s n with
  | none => s
  | some o =>
    let t := { t0 with kb := t0.kb + 1, c := t0.next }
    let s := endTile s n o t
    freeGroup (if tilesEnd o then countBehind s n o t else s) n t0.grp t0.began t0.at_

/-- An MMA drains: it ends when a condition was met or it is complete, else its progress is recorded in its block. -/
def drainMma (s : State) (n : Nat) (o : EngOp) : State :=
  let s := o.tiles.foldl (fun s t => drainTile s n t) s
  match opOf s n with
  | none => s
  | some o =>
    let p := mmaPar o.image o.recs
    if !opUnacked s n && (o.halt ≠ 0 || !o.stops.isEmpty || o.phase = .stopping || (o.phase = .running && (mmaOpen p o).isNone)) then endMma s n o
    else if o.phase = .queued then updOp (releaseEngine s n o) n (fun o => { o with phase := .saved })
    else
      let s := writeBlock s o 0x80 (o.progress.flatMap (fun v => leBytes 2 v))
      let s := writeBlock s o 0x50 (leBytes 4 (o.progress.filter (fun v => decide (p.nkb ≤ v))).length ++ leBytes 4 o.progress.sum)
      updOp (releaseEngine s n o) n (fun o => { o with phase := .saved, before := o.before + cyclesOf o, stalled := o.stalled + stallOf o,
                                                       groupFree := [], work := [], nextTile := 0, started := s.cycle })

/-- A copy drains to a chunk boundary: messages under way arrive, and what is complete ends. What still waits for answers ends after
the restore (log 42). -/
def drainXfer (s : State) (n : Nat) (o : EngOp) : State :=
  let s := o.fifoLeft.foldl (fun s x => nextOf s (execFifoMessageArrive n x s)) s
  let s := match opOf s n with | some o => if srcFreeDue o then fallSrcFree s n o else s | none => s
  let s := updOp s n (fun o => if o.halt ≠ 0 || !o.stops.isEmpty then { o with phase := .stopping } else o)
  match opOf s n with
  | none => s
  | some o => if xferDone s n o then endXfer s n o else updOp s n (fun o => { o with phase := .saved })

def drainOp (s : State) (e : Nat × EngOp) : State :=
  let s := updOp s e.1 (fun o => { o with driven := o.driven || decide (o.phase ≠ .queued) })
  match opOf s e.1 with
  | none => s
  | some o => match o.kind with
    | .mma => drainMma s e.1 o
    | .census => endCensus s e.1 o
    | .coll => s
    | _ => drainXfer s e.1 o

def drainCtx (s : State) (x : Nat) : State :=
  let s := (ctxOps s x).foldl drainOp s
  (ctxCrews s x).foldl settleFalls s

/-! Step 4: the L1 (R303, R307). -/

/-- Dirty lines of the context are written back, and those that its teams locked. -/
def cleanCtx (s : State) (x : Nat) : State :=
  (s.clusters.map (·.1)).foldl (fun s cl => writeBackAll s cl (fun e => e.ctx == x
    || (match e.lock with | some ts => teamIs s x cl ts | none => false))) s

/-- Lines that a team has locked, by the addresses that CLOCK named, in rising order. -/
def lockVas (c : Cluster) (ts : Nat) : List Nat :=
  ((c.l1.filter (fun e => e.lock == some ts)).foldl (fun m e => put m e.lockVa ()) ([] : List (Nat × Unit))).map (·.1)

/-! Step 5: the save area (R373-R375). -/

def areaMax : Nat := 208 * 2 ^ 20

/-- Bytes of a record, filled up with zeros. -/
def padTo (n : Nat) (l : List Byte) : List Byte := l.take n ++ List.replicate (n - l.length) 0#8

/-- Zeros up to the next multiple of `n`. -/
def alignTo (n : Nat) (l : List Byte) : List Byte := l ++ List.replicate ((n - l.length % n) % n) 0#8

def ticketBits (w : Waiting) : Option Nat := match w with | .ticket (some t) _ => some t | _ => none
def isParked (w : Waiting) : Bool := match w with | .bar _ _ _ => true | .gbar _ => true | .group _ _ => true | _ => false

/-- A batch record. -/
def batchRecord (b : Batch) : List Byte :=
  leBytes 8 b.header ++ leBytes 4 b.mask.toNat
    ++ leBytes 4 (b.next % 16 + bNat b.begun * 2 ^ 4 + bNat (ticketBits b.wait).isSome * 2 ^ 5 + bNat b.handler * 2 ^ 6
        + bNat (isParked b.wait) * 2 ^ 7 + bNat (decide (b.wait = .repHold)) * 2 ^ 8 + (ticketBits b.wait).getD 0 * 2 ^ 16)

/-- The batch of a trap that awaits entry: its fibres are still parked, on the ticket whose denial it is (R365). -/
def awaiting (w : TrapWait) : Batch :=
  { w.batch with wait := match w.faults with
    | (_, f) :: _ => (match f.ticket with | some t => .ticket (some t) [] | none => .none)
    | [] => .none }

/-- The batches that a crew's record holds. -/
def recordBatches (c : Crew) : List Batch := (c.batches ++ c.trapWait.map awaiting).take 32

def groupRecord (g : Group) : List Byte := leBytes 8 g.addr ++ leBytes 4 g.mask.toNat ++ leBytes 4 g.arrivals.toNat

/-- SLOTS: two bits for each slot (R13). -/
def slotBits (live : W32) : Nat := (maskSlots live).foldl (fun n i => n + 4 ^ i) 0

/-- A crew record. -/
def crewRecord (k : Cluster) (c : Crew) : List Byte :=
  let x := match c.trap with | some t => t.x.toNat | none => 0
  let tt := match c.trap with | some t => t.trap.t | none => 0
  let rep := match c.trap with | some t => t.rep.toNat | none => 0
  leBytes 8 c.stat.toNat ++ leBytes 8 (slotBits c.live)
    ++ leBytes 4 (c.win / 8 % 64 + bNat c.priv * 2 ^ 6 + bNat c.trap.isSome * 2 ^ 7 + bNat (!c.trapWait.isEmpty) * 2 ^ 8)
    ++ leBytes 4 x
    ++ leBytes 8 ((List.range 12).foldl (fun n f => n + flagCount c f * 16 ^ f) 0)
    ++ leBytes 8 c.trappc.toNat ++ leBytes 8 tt ++ leBytes 4 c.trapcause.toNat
    ++ leBytes 4 ((recordBatches c).length + min 32 c.groups.length * 64) ++ leBytes 8 rep
    ++ (List.range 64).flatMap (fun i => leBytes 4 (cRead c.k i).toNat)
    ++ padTo 512 ((recordBatches c).flatMap batchRecord) ++ padTo 512 ((c.groups.take 32).flatMap groupRecord)
    ++ (List.range 32).flatMap (fun i => leBytes 2 (predWord c i))
    ++ (List.range (32 * c.win)).flatMap (fun i => leBytes 4 (cRead k.rf (c.base + i)).toNat)

/-- An entry of RANGES; an unused one has no byte range and names no record. -/
def rangeRecord (ids : List Nat) (r : Option PadRange) : List Byte :=
  match r with
  | none => leBytes 8 (0x7FFF * 2 ^ 49)
  | some r => leBytes 8 (r.lo % 2 ^ 24 + r.hi % 2 ^ 24 * 2 ^ 24 + bNat r.write * 2 ^ 48
      + ((placeOf (fun n => n == r.op) ids).getD 0x7FFF) * 2 ^ 49)

def leaseRecord (l : Option Lease) : List Byte :=
  match l with
  | none => leBytes 8 0
  | some l => leBytes 8 (1 + bNat l.engine.isSome * 2 + l.left % 128 * 4 + l.g % 4 * 2 ^ 9 + l.d % 4 * 2 ^ 11 + l.engine.getD 0 % 2 * 2 ^ 13)

/-- A team record: `ids` are the operations that have an engine record. -/
def teamRecord (s : State) (ids : List Nat) (cl ts : Nat) (t : Team) : List Byte :=
  let k := clusterOf s cl
  let locks := lockVas k ts
  let head :=
    leBytes 4 (cl + ts * 2 ^ 8 + (t.crews.length - 1) * 2 ^ 13 + t.banks.length * 2 ^ 18) ++ leBytes 4 t.teamno
      ++ leBytes 4 t.gid ++ leBytes 4 locks.length
      ++ (List.range 8).flatMap (fun i => rangeRecord ids ((liveRanges t)[i]?))
      ++ (List.range 16).flatMap (fun i => leBytes 4 (barObj t i).arrived.toNat ++ leBytes 4 (barObj t i).gen)
      ++ leaseRecord (look t.leases 0) ++ leaseRecord (look t.leases 1)
      ++ leBytes 8 (bNat t.urgency.expert * 128 + urgencyMark t + t.urgency.mark % 32 * 2 ^ 8)
  padTo 256 head ++ t.crews.flatMap (crewRecord k) ++ t.banks.flatMap (fun b => cReads k.sram (b * 1024) 1024)
    ++ locks.flatMap (fun a => leBytes 8 a ++ leBytes 8 64)

/-- TEAM of an engine record whose team has gone. -/
def noTeamRecord : Nat := 0xFFFF

/-- An engine record; `teams` gives the place of each team record. -/
def engineRecord (teams : List (Nat × Nat)) (o : EngOp) : List Byte :=
  let kind := match o.kind with | .mma => 0 | .gxfer => 2 | _ => 1
  let map := isXfer o && (xferPar o).cmap.isSome
  let team := if o.orphaned then noTeamRecord else (placeOf (fun t => t == (o.crew.cl, o.crew.ts)) teams).getD noTeamRecord
  let prog := match o.kind with
    | .mma => (o.progress.filter (fun v => decide ((mmaPar o.image o.recs).nkb ≤ v))).length + o.progress.sum % 2 ^ 32 * 2 ^ 32
    | _ => if map then 0 else idxAt o.progress 0
  let done := match o.kind with | .mma => 0 | _ => if map then 0 else idxAt o.progress 1 / 2
  padTo 64 (leBytes 8 (kind + bNat o.driven * 4 + bNat o.detached * 8 + team * 2 ^ 16 + o.crew.cr * 2 ^ 32
      + o.fa.getD 15 * 2 ^ 37 + o.fb.getD 15 * 2 ^ 41)
    ++ leBytes 8 (o.block % 2 ^ 24) ++ leBytes 8 prog ++ leBytes 8 done)
    ++ padTo 128 o.image ++ (List.range 4).flatMap (fun i => padTo 128 ((o.recs[i]?).getD []))

/-- The operations of a context that get an engine record. -/
def recordOps (s : State) (x : Nat) : List (Nat × EngOp) := (ctxOps s x).filter (fun o => decide (o.2.phase = .saved))

/-- The whole area. -/
def areaBytes (s : State) (x : Nat) : List Byte :=
  let teams := ctxTeams s x
  let ops := recordOps s x
  let body := teams.foldl (fun l t => alignTo 256 (l ++ teamRecord s (ops.map (·.1)) t.1 t.2.1 t.2.2)) []
  let eng := ops.flatMap (fun o => engineRecord (teams.map (fun t => (t.1, t.2.1))) o.2)
  let r := match ctxOf s x with
    | some c => [c.regs.objbase.toNat, c.regs.objcount, c.regs.ptbase, c.regs.privbase.toNat, c.regs.privmax.toNat,
                 c.regs.faultbase.toNat, c.regs.trapvec.toNat, c.regs.poison.toNat]
    | none => []
  padTo 256 (leBytes 4 1 ++ leBytes 4 x ++ leBytes 8 (256 + body.length + eng.length) ++ leBytes 4 teams.length ++ leBytes 4 ops.length
    ++ leBytes 8 s.cycle ++ padTo 64 (r.flatMap (leBytes 8)) ++ leBytes 8 (cursorOf s x) ++ leBytes 8 (256 + body.length))
    ++ body ++ eng

def areaAcc : Acc := { kind := .store, n := 16, pol := .bypass }

/-- Write the area at its home; the fault of the first page that is absent or not writable, or of the first line that cannot be
reached, with the driver events of the walks. -/
def writeArea (s : State) (a : At) (b : Nat) (l : List Byte) : Except (FaultInfo × List DriverEvent) State :=
  let die := dieNo a.ref.cl
  if 2 ^ 57 < b + l.length then .error (accFault .protection areaAcc b b noToken, s.events)
  else match pagesFault s none die a.ctx areaAcc b (granules b l.length) b with
    | (s, some f) => .error (f, s.events)
    | (s, none) => match (linePieces b l.length).findSome? (fun p => lineFault s none die a.ctx areaAcc false b p.1) with
      | some f => .error (f, s.events)
      | none =>
        let s := invalidateSpans s a.ref.cl (spans s die a.ctx b l.length)
        .ok ((linePieces b l.length).foldl (fun s p => (writeHome s die a.ctx p.1 ((l.drop (p.1 - b)).take p.2)).1) s)

/-! Step 6: the resources are freed. -/

/-- Registers and PAD banks of a saved team are zeroed and freed, but for the registers of a finished team, which R261 has freed; its
leases give up their engines. -/
def freeSaved (s : State) (e : Nat × Nat × Team) : State :=
  let (cl, ts, t) := e
  let s := unlockTeam s cl ts
  let s := updCluster s cl (fun c =>
    let c := t.banks.foldl (fun c b => zeroBank (setBank c b { mode := .off, owner := 0, bound := none, slots := [] }) b) c
    { c with rf := if teamFinished t then c.rf else t.crews.foldl (fun rf w => cClear rf w.base (32 * w.win)) c.rf,
             leaseq := c.leaseq.filter (fun q => match q with | .handle k _ => k != ts | .request k _ _ => k != ts | .mma _ => true),
             engines := c.engines.map (fun x => match x.hold with
               | .lease k _ => if k = ts then { x with hold := .free } else x
               | _ => x) })
  updTeam s cl ts (fun t => { t with saved := true, banks := [], leases := t.leases.map (fun l => (l.1, { l.2 with engine := none })) })

def freeCtx (s : State) (x : Nat) : State :=
  updCtx ((ctxTeams s x).foldl freeSaved s) x (fun c => { c with phase := .saved })

/-- Steps 1 to 6 of R372; `write` writes the area. -/
def saveCtx (s : State) (x : Nat) (area : AreaAt) (write : State → List Byte → Except (FaultInfo × List DriverEvent) State) :
    Except (FaultInfo × List DriverEvent) State :=
  let s := drainCtx (settleCtx (withdraw s x) x) x
  let s := mapCrews s (fun r c => if teamIs s x r.cl r.ts then savedCrew s.cycle c else c)
  let s := cleanCtx s x
  match write s (areaBytes s x) with
  | .error f => .error f
  | .ok s => .ok (updCtx (freeCtx s x) x (fun c => { c with area := some area }))

/-! CTXSV (R250). -/

def phaseOf (s : State) (x : Nat) : Option CtxPhase := (ctxOf s x).map (·.phase)
def loadPends (s : State) (x : Nat) : Bool := s.loads.any (fun l => l.ctx == x)

/-- CTXSV for one fibre; none while accesses of the context are outstanding to holders that do not answer, which delay its save
(R372, log 42). -/
def ctxsvFor (f : RRR) (a : At) (i : Nat) (s : State) : State × Option FOut :=
  let x := opdVal s a i f.a 1 % 2 ^ 12
  let b := opdVal s a i f.b 2
  let ans (s : State) (v : Nat) : State × Option FOut := (s, some (outRes f.d 1 v))
  if b % 4096 ≠ 0 then (s, some (.bad { fault .misaligned with addr := b }))
  else if x = a.team.ctx then ans s (st 0x51 0)
  else if loadPends s x then ans s (st 0x13 0)
  else if phaseOf s x ≠ some .running then ans s (st 0x50 0)
  else if (tokensCover s a.ctx a.ids .store b areaMax).isSome then ans s (st cNotHeld 0)
  else if !(answersOut s x).isEmpty then (s, none)
  else match saveCtx s x (.va (dieNo a.ref.cl) a.ctx b) (fun s l => writeArea s a b l) with
    | .error e => ({ s with events := e.2 }, some (.bad e.1))
    | .ok s => ans s stOk

/-- CTXSV and CTXLD: a of class G, K or special, guard p15 (R242). -/
def ctxSpec (f : RRR) : WordSpec := eSpec f (pDstG false) pGks (pSrc true) (noOpt f.opt.toNat) false true true

def execCtxsv (f : RRR) (s : State) : Out :=
  issueWord (ctxSpec f) (fun a act s =>
    let i := act.headD 0
    match ctxsvFor f a i s with
    | (s, some o) => finishPend s a ((i, o) :: (act.drop 1).map (fun j => (j, FOut.ok noRes)))
    | (s, none) => waitAt s a (.answer (answersOut s (opdVal s a i f.a 1 % 2 ^ 12))) false) s

/-! CTXLD (R376). -/

/-- Reserved bits or values in a crew status word (R7, R17). -/
def statBad (w : Nat) : Bool := slice w 11 33 != 0 || slice w 45 2 == 3

/-- The crew status words of an area. -/
def areaStats (l : List Byte) : List Nat :=
  ((areaTeams l).getD []).flatMap (fun t => (List.range t.crews).map (fun i => leAt l (t.crewOff i) 8))

/-- Is an area malformed (R7, R373, R376)? -/
def areaBad (l : List Byte) : Bool :=
  leAt l 0 4 != 1 || leAt l 4 4 / 2 ^ 12 != 0 || leAt l 0x61 7 != 0 || (List.range 0x90).any (fun i => leAt l (0x70 + i) 1 != 0)
    || (areaTeams l).isNone || (areaStats l).any statBad || decide (1 < leAt l 0x58 8) || decide (l.length < leAt l 0x68 8 + 704 * leAt l 0x14 4)
    || (List.range (leAt l 0x14 4)).any (fun i =>
      let w := leAt l (leAt l 0x68 8 + 704 * i) 8
      slice w 0 2 == 3 || slice w 4 12 != 0 || slice w 45 19 != 0 || (slice w 16 16 != noTeamRecord && decide (leAt l 0x10 4 ≤ slice w 16 16)))

/-- The saved team that a record belongs to. -/
def savedTeam (s : State) (x : Nat) (i : TeamImg) : Option Team :=
  (teamOf s i.cl i.ts).filter (fun t => t.saved && !t.killed && t.ctx == x && t.crews.length == i.crews)

/-- Registers and banks for one team, taken under R257, or none; a finished team has no registers any more (R261). A team with locked
lines also waits for a BANKCFG that holds the L1 (R308). -/
def takeTeam (s : State) (x : Nat) (i : TeamImg) : Option State :=
  match savedTeam s x i with
  | none => some s
  | some t =>
    let c := clusterOf s i.cl
    if (banksIn c .off).length < i.banks then none
    else if 0 < i.nlock && ringHeld s i.cl then none
    else
      let b := takeBanks s i.cl i.ts i.banks
      if teamFinished t then some (setTeam b.1 i.cl i.ts { t with saved := false, banks := b.2 })
      else match runsFor (((t.crews[0]?).map (·.win)).getD 16 / 8) t.crews.length (runsUsed c) with
        | none => none
        | some r =>
          let crews := (t.crews.zip r).map (fun e => { e.1 with base := 256 * e.2 })
          some (setTeam b.1 i.cl i.ts { t with saved := false, banks := b.2, crews := crews })

/-- A batch record as restored: the parked state that the device kept for it, else a batch at its word. One that stood on a
ticket issues its word again (R369, R376); one whose trap awaits entry stays with the trap. -/
def batchFrom (cycle : Nat) (old : Crew) (l : List Byte) : Option Batch :=
  let w := leAt l 12 4
  let m := BitVec.ofNat 32 (leAt l 8 4) &&& old.live
  match old.batches.find? (fun b => b.header == leAt l 0 8 && b.next == w % 16 && b.begun == tb w 4 && b.mask &&& m == m) with
  | some b => if m = 0#32 then none
    else some { b with mask := m, readySince := cycle, stale := b.begun, wait := match b.wait with | .ticket _ _ => .none | w => w }
  | none =>
    let m := old.trapWait.foldl (fun m t => m &&& ~~~t.batch.mask) m
    if m = 0#32 then none
    else some { headBatch (leAt l 0 8) m .none cycle (tb w 6) with next := w % 16, begun := tb w 4, stale := tb w 4 }

def groupFrom (cycle : Nat) (old : Crew) (l : List Byte) : Option Group :=
  (old.groups.find? (fun g => g.addr == leAt l 0 8 && g.mask.toNat == leAt l 8 4)).map (fun g =>
    { g with arrivals := BitVec.ofNat 32 (leAt l 12 4), since := cycle })

/-- The trap state of a crew; the count of its groups stands still from the restore on (R357, R376). -/
def trapFrom (cycle : Nat) (old : Crew) (l : List Byte) : Option TrapState :=
  if tb (leAt l 0x10 4) 7 then
    old.trap.map (fun t => { t with enteredAt := cycle, x := BitVec.ofNat 32 (leAt l 0x14 4), rep := BitVec.ofNat 64 (leAt l 0x38 8),
                                    trap := { t.trap with t := leAt l 0x28 8 } })
  else none

/-- A crew as its record says; what no record holds the device has kept. -/
def crewFrom (cycle : Nat) (old : Crew) (l : List Byte) : Crew :=
  let w := leAt l 0x10 4
  let n := leAt l 0x34 4
  let slots := leAt l 8 8
  let old := { old with live := slotsMask ((List.range 32).filter (fun i => tb slots (2 * i))) }
  fixTicket { old with
    stat := BitVec.ofNat 64 (leAt l 0 8), priv := tb w 6, trap := trapFrom cycle old l, restored := true,
    flags := (List.range 12).foldl (fun m f => cWrite m f (BitVec.ofNat 4 (slice (leAt l 0x18 8) (4 * f) 4))) [],
    trappc := BitVec.ofNat 64 (leAt l 0x20 8), trapcause := BitVec.ofNat 32 (leAt l 0x30 4),
    k := (List.range 64).foldl (fun m i => cWrite m i (BitVec.ofNat 32 (leAt l (0x40 + 4 * i) 4))) [],
    batches := (List.range (slice n 0 6)).filterMap (fun i => batchFrom cycle old ((l.drop (0x140 + 16 * i)).take 16)),
    groups := (List.range (slice n 6 6)).filterMap (fun i => groupFrom cycle old ((l.drop (0x340 + 16 * i)).take 16)),
    preds := (List.range 32).foldl (fun m i => cWrite m i (BitVec.ofNat 16 (leAt l (0x540 + 2 * i) 2 % 2 ^ 15))) [] }

/-- The registers of a crew from its record. -/
def windowFrom (rf : Cells 32) (c : Crew) (l : List Byte) : Cells 32 :=
  (List.range (32 * c.win)).foldl (fun m i => cWrite m (c.base + i) (BitVec.ofNat 32 (leAt l (0x580 + 4 * i) 4))) rf

/-- The ranges of the operations that are not complete. -/
def rangesFrom (ops : List (Nat × EngOp)) (t : Team) (l : List Byte) : List PadRange :=
  t.ranges.filter (·.guard) ++ (((List.range 8).zip (liveRanges t)).filter (fun e => (look ops e.2.op).isSome)).map (fun e =>
    let w := leAt l (0x10 + 8 * e.1) 8
    { e.2 with lo := slice w 0 24, hi := slice w 24 24, write := tb w 48 })

def barsFrom (t : Team) (l : List Byte) : List (Nat × BarObj) :=
  (List.range 16).foldl (fun m i =>
    let o : BarObj := { barObj t i with arrived := BitVec.ofNat 32 (leAt l (0x50 + 8 * i) 4), gen := leAt l (0x54 + 8 * i) 4 }
    if o = { arrived := 0#32, set := none, gen := 0 } then del m i else put m i o) t.bars

/-- The team's leases, each to be requested again. -/
def leasesFrom (t : Team) (l : List Byte) : List (Nat × Lease) :=
  t.leases.filterMap (fun e =>
    let w := leAt l (0xD0 + 8 * e.1) 8
    if 2 ≤ e.1 then some e
    else if tb w 0 then some (e.1, { e.2 with left := slice w 2 7, g := slice w 9 2, d := slice w 11 2, engine := none })
    else none)

def teamFrom (cycle : Nat) (ops : List (Nat × EngOp)) (img : List Byte) (i : TeamImg) (t : Team) : Team :=
  let l := img.drop i.off
  { t with
    teamno := leAt l 4 4, ranges := rangesFrom ops t l, bars := barsFrom t l, leases := leasesFrom t l,
    urgency := { expert := tb (leAt l 0xE0 8) 7, fixed := if tb (leAt l 0xE0 8) 7 then slice (leAt l 0xE0 8) 0 5 else t.urgency.fixed,
                 mark := slice (leAt l 0xE0 8) 8 5 },
    crews := ((List.range t.crews.length).zip t.crews).map (fun e => crewFrom cycle e.2 (img.drop (i.crewOff e.1))) }

/-- Lock one line again, as CLOCK would for the first crew of the team that may load it (R307). -/
def relockLine (s : State) (cl ts va : Nat) : State × Bool :=
  let crews := (teamOf s cl ts).map (·.crews.length)
  ((List.range (crews.getD 0)).findSome? (fun i =>
    match teamOf s cl ts, crewOf s { cl := cl, ts := ts, cr := i } with
    | some t, some c =>
      match clockRun { ref := { cl := cl, ts := ts, cr := i }, bi := 0, team := t, crew := c, b := headBatch 0 0#32 .none 0 false } 1 va 0 0 s with
      | (s, .ok n) => some (s, n % 2 ^ 16 == 1)
      | (_, .error _) => none
    | _, _ => none)).getD (s, false)

/-- Lock the recorded lines again; the lines refused are counted in the area, at 0x0E8 of the team's head (R307, log 42). -/
def relock (s : State) (x : Nat) (at_ : AreaAt) (img : List Byte) (i : TeamImg) : State :=
  let vas := (List.range i.nlock).flatMap (fun j =>
    (List.range (leAt img (i.lockOff + 16 * j + 8) 8 / 64)).map (fun n => leAt img (i.lockOff + 16 * j) 8 + 64 * n))
  let r := vas.foldl (fun (p : State × Nat) va =>
    let y := relockLine p.1 i.cl i.ts va
    (y.1, if y.2 then p.2 else p.2 + 1)) (s, 0)
  if r.2 = 0 then r.1 else areaPut r.1 at_ (i.off + 0xE8) x (leBytes 4 r.2)

/-- Restore one team: its windows, its PAD image, its records, its locks, and its requests for leases. -/
def loadTeam (x : Nat) (at_ : AreaAt) (img : List Byte) (s : State) (i : TeamImg) : State :=
  match (teamOf s i.cl i.ts).filter (fun t => t.ctx == x && t.crews.length == i.crews && !t.killed) with
  | none => s
  | some t =>
    let t' := teamFrom s.cycle s.ops img i t
    let s := setTeam s i.cl i.ts t'
    let s := updCluster s i.cl (fun c =>
      { c with rf := if teamFinished t then c.rf
                     else ((List.range t.crews.length).zip t.crews).foldl (fun m e => windowFrom m e.2 (img.drop (i.crewOff e.1))) c.rf,
               sram := ((List.range t.banks.length).zip t.banks).foldl (fun m e =>
                 cWrites m (e.2 * 1024) ((img.drop (i.padOff + 1024 * e.1)).take 1024)) c.sram,
               leaseq := c.leaseq ++ t'.leases.map (fun l => .handle i.ts l.1) })
    relock (acquireAt s i.cl 5) x at_ img i

/-- The engine records of an area, in its order. -/
def engineImgs (img : List Byte) : List (List Byte) :=
  (List.range (leAt img 0x14 4)).map (fun i => (img.drop (leAt img 0x68 8 + 704 * i)).take 704)

/-- Is the record of the operation? Records and operations stand in one order, so the first record that is left is its own. -/
def imgOf (teams : List TeamImg) (o : EngOp) (l : List Byte) : Bool :=
  let kind := match o.kind with | .mma => 0 | .gxfer => 2 | _ => 1
  let w := leAt l 0 8
  slice w 0 2 == kind && slice w 32 5 == o.crew.cr && leAt l 8 8 == o.block
    && (match teams[slice w 16 16]? with
      | some t => !o.orphaned && t.cl == o.crew.cl && t.ts == o.crew.ts
      | none => o.orphaned && slice w 16 16 == noTeamRecord)

/-- An operation as its record says (R375); an MMA's progress stands in its restored block. -/
def opFrom (s : State) (o : EngOp) (l : List Byte) : EngOp :=
  let w := leAt l 0 8
  let o := { o with
    detached := tb w 3, fa := flagOf (slice w 37 4), fb := flagOf (slice w 41 4),
    image := bytesPut o.image 0 ((l.drop 0x40).take (min 128 o.image.length)),
    recs := (List.range o.recs.length).map (fun i =>
      let r := (o.recs[i]?).getD []
      if i < 4 then bytesPut r 0 ((l.drop (0xC0 + 128 * i)).take (min 128 r.length)) else r) }
  match o.kind with
  | .mma => { o with progress := (List.range o.progress.length).map (fun v => padNat s o.crew.cl o.crew.ts (o.block + 0x80 + 2 * v) 2) }
  | _ => match (xferPar o).cmap with
    | some m => if o.orphaned then o else { o with progress := [0, padNat s o.crew.cl o.crew.ts m (xferPar o).mapBytes], nextTile := 0 }
    | none => { o with progress := [leAt l 0x10 8, 2 * leAt l 0x18 8], nextTile := 0 }

/-- Re-drive one operation: it is queued again for its engine. Its first issue slot is the restore's cycle until the crew has
issued (R360, log 42). The records that are left. -/
def redrive (teams : List TeamImg) (p : State × List (List Byte)) (e : Nat × EngOp) : State × List (List Byte) :=
  let i := placeOf (imgOf teams e.2) p.2
  let o := match i.bind (p.2[·]?) with | some l => opFrom p.1 e.2 l | none => e.2
  let s := { p.1 with ops := put p.1.ops e.1 { o with phase := .queued, started := p.1.cycle + 18, stallNo := p.1.fresh }, fresh := p.1.fresh + 1 }
  (if o.kind = .mma && o.lease.isNone then updCluster s o.crew.cl (fun c => { c with leaseq := c.leaseq ++ [.mma e.1] }) else s,
   match i with | some i => delAt p.2 i | none => p.2)

/-- The context registers of an area. -/
def regsFrom (img : List Byte) (old : CtxRegs) : CtxRegs :=
  let r (i : Nat) : Nat := leAt img (0x20 + 8 * i) 8
  { old with objbase := BitVec.ofNat 64 (r 0), objcount := r 1 % 2 ^ 17, ptbase := r 2 % 2 ^ 52, privbase := BitVec.ofNat 64 (r 3),
             privmax := BitVec.ofNat 32 (r 4), faultbase := BitVec.ofNat 64 (r 5), trapvec := BitVec.ofNat 64 (r 6),
             poison := BitVec.ofNat 2 (r 7) }

/-- Step 2 of R376. -/
def loadRegs (s : State) (x : Nat) (img : List Byte) : State :=
  tlbinv (updCtx s x (fun c => { c with regs := regsFrom img c.regs, cursor := leAt img 0x60 1 })) x 2 0 0

/-- The records that are still to be restored. -/
def loadLeft (l : LoadPend) : List TeamImg := ((areaTeams l.image).getD []).drop l.done

/-- Step 3 of R376: team after team takes its room and is restored, until one finds none. -/
def loadTeams (l : LoadPend) : List TeamImg → State → State × Nat
  | [], s => (s, 0)
  | i :: t, s =>
    match takeTeam s l.ctx i with
    | none => (s, 0)
    | some s => let r := loadTeams l t (loadTeam l.ctx l.area l.image s i); (r.1, r.2 + 1)

/-- Steps 3 to 5 of R376 as far as there is room: the state, and what is left of the restore. -/
def driveLoad (s : State) (l : LoadPend) : State × Option LoadPend :=
  let r := loadTeams l (loadLeft l) s
  let l := { l with done := l.done + r.2 }
  if !(loadLeft l).isEmpty then (r.1, some l)
  else
    let s := r.1
    let teams := (areaTeams l.image).getD []
    let s := (((ctxOps s l.ctx).filter (fun o => decide (o.2.phase = .saved))).foldl (redrive teams) (s, engineImgs l.image)).1
    (updCtx s l.ctx (fun c => { c with phase := .running }), none)

/-- A CTXLD that has waited gets its status. -/
def answerLoad (s : State) (l : LoadPend) : State := match l.crew with | some r => deliver s r l.dest stOk | none => s

/-- The restores that wait go on where there is room. -/
def serveLoads (s : State) : State :=
  s.loads.foldl (fun s l =>
    match driveLoad s l with
    | (s, some k) => { s with loads := s.loads.map (fun x => if x.ctx = l.ctx then k else x) }
    | (s, none) => answerLoad { s with loads := s.loads.filter (fun k => k.ctx != l.ctx) } l) s

/-- Does a restore that waits have room for its next team? -/
def loadFits (s : State) : Bool :=
  s.loads.any (fun l => match loadLeft l with | [] => true | i :: _ => (takeTeam s l.ctx i).isSome)

/-- CTXLD for one fibre: the status, a fault, or none while it waits for room. -/
def ctxldFor (f : RRR) (a : At) (i : Nat) (s : State) : State × Option FOut :=
  let x := opdVal s a i f.a 1 % 2 ^ 12
  let b := opdVal s a i f.b 2
  let ans (s : State) (v : Nat) : State × Option FOut := (s, some (outRes f.d 1 v))
  if x = a.team.ctx then ans s (st 0x51 0)
  else if loadPends s x then ans s (st 0x13 0)
  else if phaseOf s x ≠ some .saved then ans s (st 0x50 0)
  else if (tokensCover s a.ctx a.ids .load b areaMax).isSome then ans s (st cNotHeld 0)
  else match engLoad s a b 256 with
    | (s, .error e) => (s, some (.bad e))
    | (s, .ok h) =>
      if leAt h 0 4 ≠ 1 || leAt h 8 8 < 256 || areaMax < leAt h 8 8 then (s, some (.bad (fault .format)))
      else match engLoad s a b (leAt h 8 8) with
        | (s, .error e) => (s, some (.bad e))
        | (s, .ok img) =>
          if areaBad img then (s, some (.bad (fault .format)))
          else if leAt img 4 4 ≠ x then ans s (st 0x50 0)
          else
            let l : LoadPend := { ctx := x, area := .va (dieNo a.ref.cl) a.ctx b, image := img, done := 0, crew := some a.ref,
                                  dest := pendDst i f.d }
            match driveLoad (loadRegs s x img) l with
            | (s, none) => ans s stOk
            | (s, some l) => ({ reserve s a.ref l.dest with loads := s.loads ++ [l] }, none)

def execCtxld (f : RRR) (s : State) : Out :=
  issueWord (ctxSpec f) (fun a act s =>
    let i := act.headD 0
    let others := (act.drop 1).map (fun j => (j, FOut.ok noRes))
    match ctxldFor f a i s with
    | (s, some o) => finishPend s a ((i, o) :: others)
    | (s, none) => updCrew s a.ref (fun c => advance s.cycle c a.bi)) s

/-- PLACEMENT_ATTEMPT: room is free again; restores that wait take it, then pending teams (R259, R376). -/
def execPlacementAttempt (s : State) : Out := .next (placeAll (serveLoads s) maxTeams)

/-! Occon acting for the driver (R372, R376, log 51). -/

/-- The lines that hold `n` bytes at a physical address, written at their homes. -/
def writeAreaPa (ctx pa : Nat) (s : State) (l : List Byte) : Except (FaultInfo × List DriverEvent) State :=
  if (linePieces pa l.length).any (fun p => behindIsolated s p.1) then .error (fault .timeout, s.events)
  else .ok ((linePieces pa l.length).foldl (fun s p => homeWrite s 0 p.1 ctx ((l.drop (p.1 - pa)).take p.2) false) s)

/-- Occon pre-empts a running context. -/
def occonSave (x pa : Nat) (s : State) : State :=
  if phaseOf s x ≠ some .running || loadPends s x || pa % 4096 ≠ 0 then s
  else match saveCtx s x (.pa pa) (writeAreaPa x pa) with | .ok s => s | .error _ => s

/-- Occon restores a saved context from an area that it can read and that is well formed; else nothing happens. -/
def occonLoad (x pa : Nat) (s : State) : State :=
  let n := min (leNat (homeBytes s (pa + 8) 8)) areaMax
  let img := homeBytes s pa n
  if phaseOf s x ≠ some .saved || loadPends s x || (linePieces pa (max 256 n)).any (fun p => behindIsolated s p.1)
      || img.length < 256 || areaBad img || leAt img 4 4 ≠ x then s
  else
    let l : LoadPend := { ctx := x, area := .pa pa, image := img, done := 0, crew := none, dest := none }
    match driveLoad (loadRegs s x img) l with
    | (s, none) => s
    | (s, some l) => { s with loads := s.loads ++ [l] }

end Sys2Proof.Machine
end

