-- ==== Sys2Proof/Machine/Admin.lean ====
section
/-! DEFINITION. What Occon does at the driver's request and at soft errors: contexts and dispatchers (R314, R350, R411), root
tokens and token reports (R282, R284), errors (R305, R377), accounting (R314), multicast tables (R380, R381, R402). -/

namespace Sys2Proof.Machine

/-! Contexts (R411). -/

/-- A footprint that R132 would allow a grid of one team. -/
def newGridOk (n : NewGrid) : Bool :=
  decide (n.cluster < 192) && decide (2 ≤ n.w8) && decide (n.w8 ≤ 32) && decide (1 ≤ n.crews) && decide (n.crews ≤ 32)
    && decide (n.banks ≤ 384) && decide (n.kinit.length ≤ 8)

/-- A grid of one team at depth 1 on one cluster. -/
def occonGrid (s : State) (ctx gid : Nat) (n : NewGrid) : Grid :=
  { ctx := ctx, gid := gid, launchedBy := 0#64, launcher := none, parent := none, depth := 1, teams := 1,
    cmask := BitVec.ofNat 192 (2 ^ n.cluster), w8 := n.w8, crews := n.crews, banks := n.banks, coop := false, entry := n.entry,
    kinit := n.kinit, priv := n.privileged, nextTeam := 0, nextSince := s.cycle, reserved := false, unfinished := 1, children := 0,
    gen := 0, killed := false, killCode := 0 }

/-- The L2 counters of a context begin at zero (R314). -/
def clearCounts (s : State) (ctx : Nat) : State :=
  { s with die0 := { s.die0 with counts := del s.die0.counts ctx }, die1 := { s.die1 with counts := del s.die1.counts ctx } }

/-- Occon starts a grid; with a dispatcher the placement cursor is set to its cluster (R256). -/
def startGrid (s : State) (ctx : Nat) (n : NewGrid) : State :=
  match freeKey (gidsUsed s ctx) 0 65536 with
  | none => s
  | some gid =>
    let s := { s with grids := s.grids ++ [occonGrid s ctx gid n] }
    if n.privileged then s else updCtx s ctx (fun c => { c with cursor := n.cluster })

/-- A region that overlaps no token of its context (R179, R282). -/
def regionFree (s : State) (ctx base len : Nat) : Bool :=
  regionOk base len && (allTokens s).all (fun e => e.2.2.ctx != ctx || decide (base + len ≤ e.2.2.base) || decide (e.2.2.base + e.2.2.len ≤ base))

/-- May a root token cover the region: no page of it maps a peer's memory, and only the root of a window, `win`, a multicast
window (R282, R381)? -/
def rootOk (s : State) (ctx base len : Nat) (win : Bool) : Bool :=
  (List.range (granules base len)).all (fun i =>
    match translate s none 0 ctx (max base ((base / 65536 + i) * 65536)) with
    | .ok e => !isPeer (locOf e base) && (win || !isWindow e)
    | .error _ => true)

/-- Create a root token (R282). -/
def createRoot (s : State) (ctx : Nat) (owner : W64) (base len : Nat) (win : Bool) : State :=
  let d := regionDie s ctx base
  if !regionFree s ctx base len || !rootOk s ctx base len win then s
  else match freeOwner s d with
    | none => s
    | some i => setToken s d i { ctx := ctx, base := base, len := len, state := .excl, owner := owner, n := 0, chain := [],
                                 recaller := none, recalls := [], peer := none, rest := .excl }

/-- Does something of a destroyed context remain? -/
def ctxGone (s : State) (ctx : Nat) : Bool :=
  !s.grids.any (fun g => g.ctx == ctx) && (ctxTeams s ctx).isEmpty && !(allTokens s).any (fun e => e.2.2.ctx == ctx)

/-- May a context of this number be created? -/
def ctxFree (s : State) (ctx : Nat) : Bool :=
  decide (ctx < 4096) && (match phaseOf s ctx with | none => true | some p => decide (p = .destroyed) && ctxGone s ctx)

/-- THROTTLE in basic mode, as a write of bit [7] = 0 leaves it after the epochs that have ended (R270, R272, R411). -/
def basicThrottle (cycle : Nat) (c : Cluster) : Cluster :=
  let c := endEpochs cycle c
  { c with expert := false, half := c.expert || c.half }

/-- CONTEXT_CREATE: the registers, the dispatcher or in its place a privileged grid, the root tokens that it owns (R411, log 43). -/
def execContextCreate (n : NewCtx) (s : State) : Out :=
  if s.boot.phase ≠ .up || !ctxFree s n.ctx || !newGridOk n.grid then .next s
  else
    let c : Ctx := { phase := .running, area := none, regs := { n.regs with poison := 0#2 }, cursor := n.grid.cluster, queues := [], comms := [], retired := [] }
    let s := clearCounts { s with ctxs := put s.ctxs n.ctx c } n.ctx
    let s := startGrid (updCluster s n.grid.cluster (basicThrottle s.cycle)) n.ctx n.grid
    match s.grids.find? (fun g => g.ctx == n.ctx) with
    | none => .next s
    | some g => .next (n.roots.foldl (fun s r => createRoot s n.ctx (gridHolder n.ctx g.gid) r.1 r.2 false) s)

/-- The crew of a stopped privileged grid starts again (R240). -/
def restartCrew (s : State) (n : NewGrid) (c : Crew) : Crew :=
  if c.stopped then { startCrew s.cycle n.entry.toNat n.kinit { c with trap := none, trapWait := [], groups := [], pend := [] } with stopped := false }
  else c

/-- The resident teams of the context's privileged grids on a cluster that have a stopped crew. -/
def stoppedTeams (s : State) (ctx cl : Nat) : List (Nat × Nat × Team) :=
  (ctxTeams s ctx).filter (fun t => t.1 == cl && t.2.2.crews.any (·.stopped)
    && (match gridOf s ctx t.2.2.gid with | some g => g.priv && !g.killed | none => false))

/-- DISPATCHER_START (R240, R411): a stopped privileged grid is restarted; else a privileged grid or, where the context has no
dispatcher, a new dispatcher is started. -/
def execDispatcherStart (ctx : Nat) (n : NewGrid) (s : State) : Out :=
  if phaseOf s ctx ≠ some .running || !newGridOk n then .next s
  else if n.privileged then
    let l := stoppedTeams s ctx n.cluster
    if l.isEmpty then .next (startGrid s ctx n)
    else .next (l.foldl (fun s t => updTeam s t.1 t.2.1 (fun t => { t with crews := t.crews.map (restartCrew s n) })) s)
  else if (dispatcherIds s ctx).isEmpty then .next (startGrid s ctx n)
  else .next s

/-- The accounting record of a die for a context (R314). -/
def accountRecord (s : State) (die ctx : Nat) : List Byte :=
  let k := l2Count (dieOf s die) ctx
  leBytes 8 (ctx % 2 ^ 12 + die % 2 * 2 ^ 12) ++ leBytes 8 k.fills.toNat ++ leBytes 8 k.hits.toNat ++ leBytes 8 k.wbacks.toNat
    ++ leBytes 8 k.evicts.toNat ++ leBytes 24 0

/-- L2_ACCOUNTING_REQUEST (R314). -/
def execL2AccountingRequest (die ctx : Nat) (s : State) : Out :=
  if die < 2 && (phaseOf s ctx).isSome then .next (emit s (.accounting (accountRecord s die ctx))) else .next s

/-- CONTEXT_DESTROY: the context's operations stop with ABORTED, its grids are killed, and its accounting records go to the driver
(R314, R350). -/
def execContextDestroy (ctx : Nat) (s : State) : Out :=
  match phaseOf s ctx with
  | none => .next s
  | some .destroyed => .next s
  | some _ =>
    let s := { s with
      ops := s.ops.map (fun o => if ofCtx s ctx o.2 && o.2.halt == 0 then (o.1, { o.2 with halt := 0x36 }) else o),
      grids := s.grids.map (fun g => if g.ctx == ctx then { g with killed := true } else g),
      loads := s.loads.filter (fun l => l.ctx != ctx) }
    let s := emit (emit s (.accounting (accountRecord s 0 ctx))) (.accounting (accountRecord s 1 ctx))
    .next (updCtx (clearCounts s ctx) ctx (fun c => { c with phase := .destroyed }))

/-! Root tokens (R282, R284). -/

/-- ROOT_TOKEN_CREATE: for the dispatcher of a context, or for a HOST identity. -/
def execRootTokenCreate (r : RootReq) (s : State) : Out :=
  match r.host, (dispatcherIds s r.ctx).head? with
  | some h, _ => if hostOk s r.ctx h then .next (createRoot s r.ctx (hostHolder h) r.base r.len false) else .next s
  | none, some g => .next (createRoot s r.ctx g r.base r.len false)
  | none, none => .next s

/-- Is the owner one that Occon creates root tokens for? -/
def rootOwner (s : State) (t : Token) : Bool := holderClass t.owner == 5 || (dispatcherIds s t.ctx).contains t.owner

/-- ROOT_TOKEN_DESTROY under the conditions of R282. -/
def execRootTokenDestroy (ctx base : Nat) (s : State) : Out :=
  match (coverOf s ctx base).filter (fun e => e.2.2.base == base) with
  | none => .next s
  | some (d, i, t) =>
    if t.state = .excl && rootOwner s t && t.n = 0 && t.chain.isEmpty && t.recaller.isNone && !jointlyHeld s d i && t.peer.isNone then
      .next (delOwner s d i)
    else .next s

/-- TOKEN_REPORT_REQUEST: one report for each entry of a context (R284). -/
def execTokenReportRequest (ctx : Nat) (s : State) : Out :=
  let toks := ((allTokens s).filter (fun e => e.2.2.ctx == ctx)).map (fun e => tokenReport e.1 e.2.1 e.2.2 0 0 0)
  let shs := (allShares s).filterMap (fun e => match tokenAt s e.1 e.2.2.tok with
    | some t => if t.ctx = ctx then some (shareReport e.1 t e.2.2 0 0 0) else none
    | none => none)
  .next ((toks ++ shs).foldl (fun s r => emit s (.tokenReport r)) s)

/-! Errors (R305, R377). -/

/-- A clean line is fetched anew, and goes where its home cannot be reached. -/
def refetch (s : State) (cl : Nat) (e : L1Line) : State :=
  if behindIsolated s e.key || (peerFault s e.key).isSome then updCluster s cl (fun c => l1Drop c e.key)
  else
    let r := fillBytes s cl e.key e.ctx false
    updCluster r.1 cl (fun c => l1Put c { e with data := BitVec.ofNat 512 (leNat r.2), poison := poisoned r.1 e.key })

/-- L1_SOFT_ERROR on a line of a cluster: an uncorrectable one has a clean line fetched anew and poisons a dirty one; each is
counted and reported. -/
def execL1SoftError (cl line : Nat) (correctable : Bool) (s : State) : Out :=
  match l1Find (clusterOf s cl) line with
  | none => .next s
  | some e =>
    let s := updCluster s cl (fun c => { c with errcount := c.errcount + 1 })
    let s := emit s (.clusterErrors cl (clusterOf s cl).errcount)
    if correctable then .next s
    else if e.dirty = 0#64 then .next (refetch s cl e)
    else .next (updCluster s cl (fun c => l1Put c { e with poison := true }))

def countError (s : State) (k : Nat) : State :=
  emit (updDie s (homeDie k 0) (fun d => { d with errcount := d.errcount + 1 })) (.softError k)

/-- Is the location device memory or CXL memory (R387)? -/
def isLocal (k : Nat) : Bool := decide (k < hbmSize) || isCxl k

/-- Is the location a copy of peer memory that an L2 holds? -/
def peerCopy (s : State) (k : Nat) : Bool := isPeer k && (peerHeld s.die0 k || peerHeld s.die1 k)

/-- L2_HBM_SOFT_ERROR: the line is poisoned at its home, or as a copy of peer memory; counted and reported. -/
def execL2HbmSoftError (pa : Nat) (s : State) : Out :=
  if isLocal pa || peerCopy s pa then .next (countError (poisonLine s pa) (pa / 64 * 64)) else .next s

/-- CXL_POISON_RESPONSE: the line is poisoned in its expander and wherever it is cached. -/
def execCxlPoisonResponse (pa : Nat) (s : State) : Out :=
  if !isCxl pa then .next s
  else
    let s := mapClusters (poisonLine (expanderPoison s (expander s (pa / 64 * 64)) true) pa) (fun _ c =>
      { c with l1 := c.l1.map (fun e => if e.key = pa / 64 * 64 then { e with poison := true } else e) })
    .next (countError s (pa / 64 * 64))

/-! Multicast tables. -/

def groupEntryOk (e : McastGroup) : Bool :=
  decide (e.wlen < 2 ^ 38) && e.wlen % 65536 == 0 && e.ackbase.toNat % 128 == 0 && decide (e.acklog ≤ 16) && decide (e.wseq < 2 ^ 32)
    && e.members.all (fun m => decide (m < 512))

/-- MCAST_GROUP_WRITE: the entry, and with a valid one the root token over its window, which the dispatcher owns (R380, R381). -/
def execMcastGroupWrite (g : Nat) (e : McastGroup) (s : State) : Out :=
  if 64 ≤ g || !groupEntryOk e then .next s
  else
    let s := { s with groups := put s.groups g e }
    match e.valid, (dispatcherIds s e.ctx).head? with
    | true, some h => .next (createRoot s e.ctx h e.winva.toNat e.wlen true)
    | _, _ => .next s

/-- MCAST_BINDING_WRITE (R402). -/
def execMcastBindingWrite (i : Nat) (e : McastBinding) (s : State) : Out :=
  if 256 ≤ i || 64 ≤ e.group || e.rbase % 65536 ≠ 0 || e.len % 65536 ≠ 0 then .next s
  else .next { s with bindings := put s.bindings i e }

end Sys2Proof.Machine
end

