-- ==== Sys2Proof/Machine/Eth.lean ====
section
/-! DEFINITION. The Ethernet port's connections (R389-R396): the host's requests, the M8's own, and the frames that carry them. -/

namespace Sys2Proof.Machine

/-! Connections (R390). -/

/-- An open connection; in recovery there is none (R412). -/
def connOf (s : State) (i : Nat) : Option Conn :=
  (look s.conns i).filter (fun c => (c.type == 1 || c.type == 2) && decide (s.boot.phase ≠ .recovery))

/-- NAK codes of the RoCEv2 standard. -/
def nakSequence : Nat := 0
def nakInvalid : Nat := 1
def nakAccess : Nat := 2
def nakOperational : Nat := 3

/-- Perform the request at connection `i`'s expected PSN, which stands for `n` PSNs; dropped where the connection is closed (R390,
R392). -/
def performAt (i n : Nat) (f : Conn → Nat → State → State) (s : State) : Out :=
  match connOf s i with
  | none => .next (dropFrame s)
  | some c =>
    let q := qpOf s i
    .next (f c q.ePsn (setQp s i { q with ePsn := psnAdd q.ePsn n, hold := false }))

/-- A host's request on connection `i`; the Churn's connections refuse it (R392). -/
def onHost (i n : Nat) (f : Conn → Nat → State → State) : State → Out :=
  performAt i n (fun c p s => if c.type = 1 then f c p s else sendPkt s (.nak c.destqp p nakInvalid))

/-! Closing (R288, R396). -/

/-- A queue that a connection reaches: its header passes R189 but for tokens (R393); with the driver events of the walks (R370). -/
def reachQueue (s : State) (ctx a : Nat) : State × Option QHead :=
  if a = 0 || a % 64 ≠ 0 || 2 ^ 57 < a + 32 then (s, none)
  else match pagesFault s none 0 ctx qAcc a (granules a 32) a, lineFault s none 0 ctx qAcc true a a with
    | (t, none), none =>
      let h := qHead s 0 ctx a
      if h.bad then (t, none)
      else match pagesFault t none 0 ctx qAcc a (granules a (queueBytes h.logcap)) a with
        | (t, none) => (t, some h)
        | (t, some _) => (t, none)
    | (t, _), _ => (t, none)

def boundQueue (s : State) (ctx a : Nat) : Option QHead := (reachQueue s ctx a).2

/-- The walks to a connection's queue have reported what they met (R370). -/
def toldQueue (s : State) (ctx a : Nat) : State := { s with events := (reachQueue s ctx a).1.events }

/-- Items still in the queue at OUTQ, each with its token id. -/
def outItems (s : State) (c : Conn) : List (Nat × Nat) :=
  match boundQueue s c.ctx c.outq.toNat with
  | none => []
  | some h => (List.range ((h.tail + 2 ^ 32 - h.head) % 2 ^ 32)).map (fun i =>
      let va := slotVa c.outq.toNat h.logcap (h.head + i)
      (vaNat s 0 c.ctx va 8, vaNat s 0 c.ctx (va + 8) 4))

/-- What a connection keeps of its packets and requests goes. -/
def dropConn (s : State) (i : Nat) : State :=
  { s with eth := { s.eth with sent := s.eth.sent.filter (fun x => x.conn != i), qps := del s.eth.qps i } }

/-- Close a connection: TYPE 0, the host's tokens become ORPHAN, the items under way and those still in OUTQ are dropped and
reported. -/
def closeConn (s : State) (i : Nat) (c : Conn) : State :=
  let s := toldQueue { s with conns := put s.conns i { c with type := 0 }, churns := del s.churns i } c.ctx c.outq.toNat
  if c.type ≠ 1 then emit (dropConn s i) (.connClosed i [])
  else
    let items := (s.eth.sent.filter (fun x => x.conn == i)).filterMap (·.item) ++ outItems s c
    let s := match boundQueue s c.ctx c.outq.toNat with
      | some h => vaPut s 0 c.ctx c.outq.toNat 4 h.tail
      | none => s
    let s := orphanWhere (dropConn s i) (fun h => h == hostHolder c.host) (fun _ => false) 3 0 0
    emit s (.connClosed i items)

/-- CONNECTION_CLOSE at the driver's request. -/
def execConnectionClose (i : Nat) (s : State) : Out :=
  match connOf s i with
  | none => .next s
  | some c => .next (closeConn s i c)

def connEntryOk (e : Conn) : Bool :=
  decide (e.destqp < 2 ^ 24) && decide (e.ctx < 4096) && decide (e.host < 256) && decide (e.type < 3) && decide (e.retry < 8)
    && decide (e.ackto < 32) && decide (e.rnrt < 32) && (e.type != 2 || e.host == 0) && decide (e.peerip < 2 ^ 128)
    && decide (e.peermac < 2 ^ 48)

/-- CONN_TABLE_WRITE: two entries of TYPE 1 never hold one HOST number; writing TYPE 0 closes the connection. -/
def execConnTableWrite (i : Nat) (e : Conn) (s : State) : Out :=
  if 1024 ≤ i || s.boot.phase = .recovery || !connEntryOk e || (e.type == 1 && s.conns.any (fun x => x.1 != i && x.2.type == 1 && x.2.host == e.host)) then .next s
  else
    let s := match connOf s i with
      | some c => if e.type = 0 || c.host ≠ e.host || c.ctx ≠ e.ctx || c.type ≠ e.type then closeConn s i c else s
      | none => s
    .next { s with conns := put s.conns i e }

/-! SENDs (R393, R394). -/

/-- Does the slot that a host's item takes fail R189 (log 52)? -/
def hostSlotBad (s : State) (c : Conn) (h : QHead) : Bool :=
  let va := slotVa c.inq.toNat h.logcap h.tail
  !(qReceiver s c.ctx h).isSome && !qFull s c.ctx h
    && ((lineFault s none 0 c.ctx qAcc true c.inq.toNat va).isSome || vaNat s 0 c.ctx (va + 12) 4 != 0)

/-- The work queue at INQ that a SEND of this payload pushes into, or none (R393). -/
def sendQueue (s : State) (c : Conn) (payload : List Byte) : Option QHead :=
  if payload.length = 8 || payload.length = 24 then
    (boundQueue s c.ctx c.inq.toNat).filter (fun h => h.work && !hostSlotBad s c h)
  else none

/-- SEND_ONLY: a QPUSH by the HOST identity into INQ. A full queue leaves the packet to be sent again, and what follows it. -/
def execSendOnly (i : Nat) (payload : List Byte) : State → Out :=
  onHost i 1 (fun c p s =>
    match sendQueue s c payload with
    | none => sendPkt (toldQueue s c.ctx c.inq.toNat) (.nak c.destqp p nakInvalid)
    | some h =>
      match qPushCore s 0 c.ctx [hostHolder c.host] c.inq.toNat h (leAt payload 0 8)
          (if payload.length = 24 then some (leAt payload 8 8, leAt payload 16 8) else none) with
        | (s, .format) => sendPkt s (.nak c.destqp p nakAccess)
        | (s, .status v) =>
          if v = stOk then sendPkt s (.ack c.destqp p)
          else if v = st 0x20 0 then sendPkt (setQp s i { qpOf s i with ePsn := p, hold := true }) (.rnrNak c.destqp p c.rnrt)
          else sendPkt s (.nak c.destqp p nakAccess))

/-- Reserved bytes of a token message that are not zero (R394). -/
def transferBad (op : Nat) (l : List Byte) : Bool := leAt l 25 7 != 0 || (op != 1 && leAt l 16 9 != 0)

/-- The status of a token message (R394): of a bad one HOLDER, as of every FORMAT (log 52). -/
def hostTransfer (s : State) (c : Conn) (op : Nat) (l : List Byte) : State × Nat :=
  let base := leAt l 0 8
  let n := leAt l 8 8
  if transferBad op l then (s, st cHolder 0)
  else if op = 1 then
    match lend s c.ctx [hostHolder c.host] base n (BitVec.ofNat 64 (leAt l 16 8)) (leAt l 24 1) none with
    | (s, .status v) => (s, v)
    | (s, .format) => (s, st cHolder 0)
  else retn s c.ctx [hostHolder c.host] base n

/-- SEND_ONLY_WITH_IMMEDIATE: LEND or RETN by the HOST identity; the status goes back with the payload. -/
def execSendOnlyWithImmediate (i : Nat) (imm : W32) (payload : List Byte) : State → Out :=
  onHost i 1 (fun c p s =>
    let op := imm.toNat / 2 ^ 24
    if payload.length ≠ 32 || (op ≠ 1 && op ≠ 2) then sendPkt s (.nak c.destqp p nakInvalid)
    else
      let r := hostTransfer s c op payload
      sendRequest (sendPkt r.1 (.ack c.destqp p)) i (fun n => .sendImm c.destqp n (BitVec.ofNat 32 r.2) payload) none)

/-! RDMA and atomics (R392). -/

/-- The first check that an access of a host or a peer fails: its kind, and whether it is an operational error. -/
def remoteFault (s : State) (ctx : Nat) (id : W64) (k : AccKind) (va n : Nat) : Option (FKind × Bool) :=
  let ps := linePieces va n
  let page (p : Nat × Nat) : Option (FKind × Bool) := match translate s none 0 ctx p.1 with
    | .error .absent => some (.notPresent, false)
    | .error (.bad _) => some (.protection, false)
    | .error .late => some (.timeout, true)
    | .ok e => if isWindow e || (decide (k ≠ .store) && !e.rd) || (decide (k ≠ .load) && !e.wr) then some (.protection, false) else none
  let any (f : Nat → Bool) : Bool := ps.any (fun p => match vaLoc s 0 ctx p.1 with | some x => f x | none => false)
  if 2 ^ 57 < va + n then some (.protection, false)
  else if k = .atomic && va % n ≠ 0 then some (.misaligned, false)
  else match ps.findSome? page with
    | some f => some f
    | none => match tokensCover s ctx [id] k va n with
      | some f => some (f.1, false)
      | none =>
        if k ≠ .store && any (poisoned s) then some (.poison, true)
        else if any (behindIsolated s) then some (.timeout, true)
        else (ps.findSome? (fun p => (vaLoc s 0 ctx p.1).bind (peerFault s))).map (fun f => (f, false))

/-- A request under its key and its checks, or its refusal with the driver's event. A wrong key is told as PROTECTION. -/
def underKey (i : Nat) (rkey : W32) (k : AccKind) (va n : Nat) (f : Conn → Nat → State → State) (c : Conn) (p : Nat) (s : State) : State :=
  match (if rkey = c.rkey then remoteFault s c.ctx (hostHolder c.host) k va n else some (.protection, false)) with
  | none => f c p s
  | some (e, oper) => sendPkt (emit s (.hostRefused i (kindCode e) va n)) (.nak c.destqp p (if oper then nakOperational else nakAccess))

/-- Write bytes at their homes. -/
def hostWrite (s : State) (ctx va : Nat) (l : List Byte) : State :=
  (linePieces va l.length).foldl (fun s p => match vaLoc s 0 ctx p.1 with
    | some k => homeWrite s 0 k ctx ((l.drop (p.1 - va)).take p.2) false
    | none => s) s

/-- Read bytes at their homes. -/
def hostRead (s : State) (ctx va n : Nat) : State × List Byte :=
  (linePieces va n).foldl (fun r p => match vaLoc r.1 0 ctx p.1 with
    | some k => let x := homeRead r.1 0 k p.2 ctx false; (x.1, r.2 ++ x.2)
    | none => r) (s, [])

/-- The path MTU (R389), and the longest message of the RoCEv2 standard. -/
def pathMtu : Nat := 4096
def maxMessage : Nat := 2 ^ 31

/-- One packet of an RDMA WRITE: a store of its payload. -/
def rdmaStore (i : Nat) (rkey : W32) (va : Nat) (bytes : List Byte) (c : Conn) (p : Nat) (s : State) : State :=
  if pathMtu < bytes.length then sendPkt s (.nak c.destqp p nakInvalid)
  else underKey i rkey .store va bytes.length (fun c p s => sendPkt (hostWrite s c.ctx va bytes) (.ack c.destqp p)) c p s

/-- RDMA_WRITE: one packet of an RDMA WRITE. -/
def execRdmaWrite (i : Nat) (rkey : W32) (va : W64) (bytes : List Byte) : State → Out := onHost i 1 (rdmaStore i rkey va.toNat bytes)

/-- What an RDMA WRITE of several packets still has to come after this packet, of which `left` bytes are to come with it. -/
def setWrite (s : State) (i : Nat) (w : Option (W32 × Nat × Nat)) : State := setQp s i { qpOf s i with write := w }

/-- The First packet of an RDMA WRITE (R391). -/
def execWriteFirst (i : Nat) (rkey : W32) (va : W64) (len : Nat) (bytes : List Byte) : State → Out :=
  onHost i 1 (fun c p s =>
    if bytes.length ≠ pathMtu || len ≤ pathMtu || maxMessage < len then sendPkt s (.nak c.destqp p nakInvalid)
    else rdmaStore i rkey va.toNat bytes c p (setWrite s i (some (rkey, va.toNat + pathMtu, len - pathMtu))))

/-- A Middle or Last packet goes on at the running address, under the key of the First (R391). -/
def execWriteOn (i : Nat) (last : Bool) (bytes : List Byte) : State → Out :=
  onHost i 1 (fun c p s =>
    match (qpOf s i).write with
    | none => sendPkt s (.nak c.destqp p nakInvalid)
    | some (rkey, va, left) =>
      if last && bytes.length == left then rdmaStore i rkey va bytes c p (setWrite s i none)
      else if !last && bytes.length == pathMtu && decide (pathMtu < left) then
        rdmaStore i rkey va bytes c p (setWrite s i (some (rkey, va + pathMtu, left - pathMtu)))
      else sendPkt (setWrite s i none) (.nak c.destqp p nakInvalid))

/-- Packets that answer a READ of `n` bytes. -/
def readCount (n : Nat) : Nat := max 1 ((n + pathMtu - 1) / pathMtu)

/-- Opcode of response `j` of `n`: Only, First, Last, Middle. -/
def readOpcode (n j : Nat) : Nat := if n = 1 then 0x10 else if j = 0 then 0x0D else if j + 1 = n then 0x0F else 0x0E

/-- The responses to a READ, from PSN `p` on. -/
def sendRead (s : State) (qp p : Nat) (l : List Byte) : State :=
  (List.range (readCount l.length)).foldl (fun s j =>
    sendPkt s (.readResponse qp (psnAdd p j) (readOpcode (readCount l.length) j) ((l.drop (pathMtu * j)).take pathMtu))) s

/-- A READ. -/
def rdmaLoad (i : Nat) (rkey : W32) (va n : Nat) (c : Conn) (p : Nat) (s : State) : State :=
  if maxMessage < n then sendPkt s (.nak c.destqp p nakInvalid)
  else underKey i rkey .load va n (fun c p s => let r := hostRead s c.ctx va n; sendRead r.1 c.destqp p r.2) c p s

/-- RDMA_READ_REQUEST. -/
def execRdmaReadRequest (i : Nat) (rkey : W32) (va : W64) (n : Nat) : State → Out := onHost i (readCount n) (rdmaLoad i rkey va.toNat n)

/-- Atomics whose answers a connection keeps for a retransmission (log 53). -/
def savedAtomics : Nat := 16

/-- A host's or a peer's atomic of `n` bytes at the home, one step there (R287, R299); `m` is what a pod member is asked for where the
home is its memory. -/
def remoteAtomic (s : State) (ctx va n : Nat) (m : PeerOp) (op : Nat → Nat) : State × Nat :=
  match vaLoc s 0 ctx va with
  | some k => amoHome (freshPeer s ctx k n) 0 ctx k n m op
  | none => (s, 0)

/-- A 64-bit atomic at the home, answered with the old value, which is kept for a retransmission. -/
def hostAtomic (i : Nat) (rkey : W32) (va : W64) (m : PeerOp) (op : Nat → Nat) : State → Out :=
  onHost i 1 (underKey i rkey .atomic va.toNat 8 (fun c p s =>
    let r := remoteAtomic s c.ctx va.toNat 8 m op
    let s := r.1
    let q := qpOf s i
    sendPkt (setQp s i { q with atomics := ((p, BitVec.ofNat 64 r.2) :: q.atomics).take savedAtomics })
      (.atomicAck c.destqp p (BitVec.ofNat 64 r.2))))

/-- COMPARE_SWAP: ACAS.z64. -/
def execCompareSwap (i : Nat) (rkey : W32) (va : W64) (compare swap : W64) : State → Out :=
  hostAtomic i rkey va (8, swap.toNat, compare.toNat) (fun old => if old = compare.toNat then swap.toNat else old)

/-- FETCH_ADD: AADD.z64. -/
def execFetchAdd (i : Nat) (rkey : W32) (va : W64) (v : W64) : State → Out :=
  hostAtomic i rkey va (0, v.toNat, 0) (fun old => (old + v.toNat) % 2 ^ 64)

/-- INVALID_REQUEST: an opcode that the responder does not accept (R391); an RDMA WRITE under way is given up. -/
def execInvalidRequest (i : Nat) (_opcode : Nat) : State → Out :=
  performAt i 1 (fun c p s => sendPkt (setWrite s i none) (.nak c.destqp p nakInvalid))

/-- A piece of a part of another device's Churn, or its notice, on a connection of TYPE 2 (R389, R392, R406). -/
def execChurnWrite (i : Nat) (x : CollPart) : State → Out :=
  performAt i 1 (fun c p s =>
    if c.type = 2 && decide (x.vals.length ≤ churnPiece) then sendPkt (churnReceive s x) (.ack c.destqp p)
    else sendPkt s (.nak c.destqp p nakInvalid))

/-! The M8 as requester (R395, R396). -/

/-- An answer to this side's requests on connection `i`, dropped and counted where it is closed (R390). -/
def onAnswer (i : Nat) (f : State → State) (s : State) : Out := if (connOf s i).isSome then .next (f s) else .next (dropFrame s)

/-- ACK: the oldest request on the connection is done; an OUTQ item is retired. -/
def execAck (i : Nat) : State → Out := onAnswer i (fun s => match oldestSent s i with | some x => retire s i x.psn | none => s)

/-- The requests before PSN `p` are done, and those from it on are sent again. -/
def retryFrom (i p : Nat) (s : State) : State := resendFrom (retire s i (psnAdd p (2 ^ 24 - 1))) i p

/-- RNR_NAK: the same item is sent again, and what followed it. -/
def execRnrNak (i : Nat) : State → Out := onAnswer i (fun s => match oldestSent s i with | some x => resendFrom s i x.psn | none => s)

/-- A NAK of the partner: after a sequence error the requests from its PSN on are sent again; another one leaves its request to the
time-out (log 53). -/
def execNak (i p code : Nat) : State → Out :=
  onAnswer i (fun s => if code = nakSequence then retryFrom i p s else retire s i (psnAdd p (2 ^ 24 - 1)))

/-- Has the connection's oldest request waited for ACKTO? -/
def ackLate (s : State) (i : Nat) (c : Conn) : Bool := match ackAt s i c with | some t => decide (t ≤ s.cycle) | none => false

/-- ACK_TIMEOUT: a retransmission, or the connection closes when RETRY is exhausted. -/
def execAckTimeout (i : Nat) (s : State) : Out :=
  match connOf s i, oldestSent s i with
  | some c, some x =>
    if !ackLate s i c then .next s
    else if c.retry ≤ x.tries then .next (closeConn s i c)
    else
      let more (y : Sent) : Sent := if y.conn = i && y.psn = x.psn then { y with tries := y.tries + 1 } else y
      .next (resendFrom { s with eth := { s.eth with sent := s.eth.sent.map more } } i x.psn)
  | _, _ => .next s

/-- Has a host connection an OUTQ item to send, and none under way? -/
def outqDue (s : State) (i : Nat) (c : Conn) : Bool :=
  c.type == 1 && s.eth.up && !s.eth.sent.any (fun x => x.conn == i && x.item.isSome) && !(outItems s c).isEmpty

/-- OUTQ_SEND: the connection removes an item and sends it; a carried token passes to the HOST identity (R395). No fibre stands there to
raise FORMAT (R7): a non-zero reserved word of the slot is passed over, and a queue whose header is bad sends nothing (log 52). -/
def execOutqSend (i : Nat) (s : State) : Out :=
  match connOf s i with
  | none => .next s
  | some c =>
    if !outqDue s i c then .next s
    else match boundQueue s c.ctx c.outq.toNat with
      | none => .next s
      | some h => match qRemove s 0 c.ctx c.outq.toNat h (hostHolder c.host) with
        | (s, none) => .next s
        | (s, some (item, tok)) =>
          let region := if tok = noToken then none else tokenAt s (tok / 2 ^ 31) (tok % 2 ^ 17)
          let payload := leBytes 8 item ++ (match region with | some t => leBytes 8 t.base ++ leBytes 8 t.len | none => [])
          .next (sendRequest s i (fun n => .send c.destqp n payload) (some (item, tok)))

/-! Frames that arrive. -/

/-- Entry number of a queue-pair number. -/
def entryOf (qp : Nat) : Nat := if qp < 0x100 then 1024 else qp - 0x100

/-- A request with its PSN (R392): at the expected one it is performed, `goesOn` while an RDMA WRITE is under way and no other
request; an earlier one is a retransmission; a later one is dropped, and the first such is told with a NAK. -/
def takeRequest (i p : Nat) (goesOn : Bool) (again : Conn → State → State) (f : State → Out) (s : State) : Out :=
  match connOf s i with
  | none => .next (dropFrame s)
  | some c =>
    let q := qpOf s i
    if p = q.ePsn then (if q.write.isSome && !goesOn then execInvalidRequest i 0 s else f s)
    else if psnLe p q.ePsn then .next (again c s)
    else if q.hold then .next (dropFrame s)
    else .next (sendPkt (dropFrame (setQp s i { q with hold := true })) (.nak c.destqp q.ePsn nakSequence))

/-- A retransmitted request that has been performed is only acknowledged. -/
def ackAgain (i : Nat) (c : Conn) (s : State) : State := sendPkt s (.ack c.destqp (psnAdd (qpOf s i).ePsn (2 ^ 24 - 1)))

/-- A retransmitted atomic has its answer again. -/
def atomicAgain (i p : Nat) (c : Conn) (s : State) : State :=
  match look (qpOf s i).atomics p with | some v => sendPkt s (.atomicAck c.destqp p v) | none => dropFrame s

/-- What a packet does. The Churn's own writes come on connections of TYPE 2 (R392, R406). -/
def takePkt (p : RocePkt) (s : State) : Out :=
  match p with
  | .send qp n l => let i := entryOf qp; takeRequest i n false (ackAgain i) (execSendOnly i l) s
  | .sendImm qp n v l => let i := entryOf qp; takeRequest i n false (ackAgain i) (execSendOnlyWithImmediate i v l) s
  | .writeFirst qp n k va len l => let i := entryOf qp; takeRequest i n false (ackAgain i) (execWriteFirst i k va len l) s
  | .writeMiddle qp n l => let i := entryOf qp; takeRequest i n true (ackAgain i) (execWriteOn i false l) s
  | .writeLast qp n l => let i := entryOf qp; takeRequest i n true (ackAgain i) (execWriteOn i true l) s
  | .writeOnly qp n k va len l => let i := entryOf qp
    takeRequest i n false (ackAgain i) (if len = l.length then execRdmaWrite i k va l else execInvalidRequest i 0x0A) s
  | .churnWrite qp n x => let i := entryOf qp; takeRequest i n false (ackAgain i) (execChurnWrite i x) s
  | .churnSend qp n x => let i := entryOf qp; takeRequest i n false (ackAgain i) (execChurnWrite i x) s
  | .read qp n k va m => let i := entryOf qp
    takeRequest i n false (fun c s => if c.type = 1 then rdmaLoad i k va.toNat m c n s else ackAgain i c s) (execRdmaReadRequest i k va m) s
  | .cas qp n k va c v => let i := entryOf qp; takeRequest i n false (atomicAgain i n) (execCompareSwap i k va c v) s
  | .fadd qp n k va v => let i := entryOf qp; takeRequest i n false (atomicAgain i n) (execFetchAdd i k va v) s
  | .unsupported qp n o => let i := entryOf qp; takeRequest i n false (ackAgain i) (execInvalidRequest i o) s
  | .ack qp n => let i := entryOf qp; onAnswer i (fun s => retire s i n) s
  | .atomicAck qp n _ => let i := entryOf qp; onAnswer i (fun s => retire s i n) s
  | .rnrNak qp n _ => let i := entryOf qp; onAnswer i (retryFrom i n) s
  | .nak qp n code => execNak (entryOf qp) n code s
  | .readResponse qp _ _ _ => onAnswer (entryOf qp) (fun s => s) s

/-- The longest frame (R389). -/
def maxFrame : Nat := 9216

/-- Does a frame pass MACsec: its integrity, under the key in use, and a packet number beyond every one accepted; and are the shim's
reserved bits zero (R397)? -/
def frameOk (e : Eth) (f : Frame) : Bool := f.intact && f.sak == e.sak && decide (e.rxPn ≤ f.pn) && f.shimZero

/-- A frame out of SEQ order is dropped; the next frame sent tells the partner (R398). -/
def wantNak (s : State) : State :=
  if s.eth.nakOut then s else { s with eth := { s.eth with nakOut := true, nakAt := s.cycle } }

/-- FRAME_RECEIVE (R389, R397, R398): a frame that is too long or fails MACsec is dropped and counted; its ACK and NAK are taken; it
is accepted only in SEQ order. -/
def execFrameReceive (f : Frame) (s : State) : Out :=
  if !s.eth.up || decide (s.boot.phase = .recovery) || decide (maxFrame < f.size) then .next (dropFrame s)
  else if f.body = .mka then execMkaFrame s
  else if !frameOk s.eth f then .next (dropFrame s)
  else
    let s := { s with eth := freshKey { s.eth with lastRx := s.cycle, rxPn := f.pn + 1 } }
    let s := if f.nak then takeNak s f.ack else takeAck s f.ack
    if f.seq ≠ s.eth.rxExpect then .next (wantNak s)
    else
      let s := { s with eth := { s.eth with rxExpect := f.seq + 1#32, ownNaks := 0 } }
      match f.body with
      | .control => .next s
      | .mka => .next s
      | .foreign => .next (dropFrame s)
      | .roce p => takePkt p s

end Sys2Proof.Machine
end

