-- ==== Sys2Proof/Machine/Fabric.lean ====
section
/-! DEFINITION. UALink (R286, R288, R399-R401) and the CXL root ports (R386, R403-R405) as this device sees them. -/

namespace Sys2Proof.Machine

/-! Peers. -/

/-- Device number of a member of this device's pod (R388). -/
def deviceOf (s : State) (member : Nat) : Nat := s.boot.devnum.getD 0 / 512 * 512 + member

/-- The runs of enabled bytes of a write, each with its first byte's place. -/
def enabledRuns (l : List (Option Byte)) : List (Nat × List Byte) :=
  (((List.range l.length).zip l).foldl (fun (acc : List (Nat × List Byte)) e =>
    match e.2, acc with
    | none, _ => acc
    | some b, (a, m) :: t => if a + m.length = e.1 then (a, m ++ [b]) :: t else (e.1, [b]) :: acc
    | some b, [] => [(e.1, [b])]) []).reverse

/-- A write from `va` on of the bytes whose enable is set: each run at once, so that one of a whole line clears its poison (R166). -/
def writeEnabled (s : State) (ctx va : Nat) (l : List (Option Byte)) : State :=
  (enabledRuns l).foldl (fun s r => hostWrite s ctx (va + r.1) r.2) s

/-- Op of an atomic by its number: AADD, AFADD, AMIN, AMAX, AAND, AOR, AXOR, AXCHG, ACAS, and the signed AMIN and AMAX
(R171, R399). -/
def peerOp (op w v cmp old : Nat) : Nat :=
  match op with
  | 0 => (old + v) % 2 ^ w
  | 1 => afaddVal old v
  | 2 => min old v
  | 3 => max old v
  | 4 => old &&& v
  | 5 => old ||| v
  | 6 => old ^^^ v
  | 7 => v
  | 8 => if old = cmp then v else old
  | 9 => if sext w old ≤ sext w v then old else v
  | _ => if sext w v ≤ sext w old then old else v

/-- An access of a peer under its PEER entry, or the answer that refuses it (R165, R399). -/
def peerAccess (s : State) (member ctx : Nat) (k : AccKind) (va n : Nat) (f : State → State) : State :=
  match remoteFault s ctx (peerHolder (deviceOf s member)) k va n with
  | some e => send s (.peerAnswer member (kindCode e.1) [])
  | none => f s

/-- PEER_TRANSACTION (R399). -/
def execPeerTransaction (t : PeerTxn) (s : State) : Out :=
  match t with
  | .read m ctx va n =>
    if n < 64 || 256 < n then .next (send s (.peerAnswer m (kindCode .illegal) []))
    else .next (peerAccess s m ctx .load va.toNat n (fun s =>
      let r := hostRead s ctx va.toNat n
      send r.1 (.peerAnswer m 0 r.2)))
  | .write m ctx va l =>
    if 256 < l.length then .next (send s (.peerAnswer m (kindCode .illegal) []))
    else .next (peerAccess s m ctx .store va.toNat l.length (fun s => send (writeEnabled s ctx va.toNat l) (.peerAnswer m 0 [])))
  | .atomic m ctx va op wide v cmp =>
    let n := if wide then 8 else 4
    if 10 < op || (op == 1 && wide) then .next (send s (.peerAnswer m (kindCode .illegal) []))
    else .next (peerAccess s m ctx .atomic va.toNat n (fun s =>
      let v := v.toNat % 2 ^ (8 * n)
      let cmp := cmp.toNat % 2 ^ (8 * n)
      let r := remoteAtomic s ctx va.toNat n (op, v, cmp) (peerOp op (8 * n) v cmp)
      send r.1 (.peerAnswer m 0 (leBytes n r.2))))
  | .mcastAnswer n m code => .next (mcastAnswered s n m code)
  | .staging x => if 64 < x.vals.length then .next s else .next (churnReceive s x)

/-! Silence (R401, R405). -/

/-- Operations whose unit waited for a holder that answers now, or never will, go on. -/
def endWaits (s : State) : State :=
  { s with ops := s.ops.map (fun o => if opQuiet s o.2 then o else (o.1, { o.2 with waits := none })) }

/-- PEERTO in cycles, and the 5 ms of silence after which a member is lost. -/
def peerTimeout (s : State) : Nat := s.ua.peerto * 2700
def lossTime : Nat := 13500000

def resendDue (s : State) (x : Unanswered) : Bool := decide (x.last + peerTimeout s ≤ s.cycle)

/-- PEER_REQUEST_TIMEOUT: every request to the member that has had no response within PEERTO is sent again (R401). -/
def execPeerRequestTimeout (m : Nat) (s : State) : Out :=
  let late (x : Unanswered) : Bool := x.member == m && resendDue s x
  let t := (s.ua.out.filter late).foldl (fun s x => send s x.req) s
  .next { t with ua := { t.ua with out := t.ua.out.map (fun x => if late x then { x with last := s.cycle } else x) } }

/-- Chunk `c` of an operation is open again. -/
def reopenChunk (l : List Nat) (c : Nat) : List Nat :=
  let lo := idxAt l 0
  if c < lo then [c, idxAt l 1 * 2 ^ (lo - c) + (2 ^ (lo - c) - 2)] else [lo, idxAt l 1 - (if tb (idxAt l 1) (c - lo) then 2 ^ (c - lo) else 0)]

/-- A chunk's map bit is clear again. -/
def unmapChunk (s : State) (o : EngOp) (c : Nat) : State :=
  match (xferPar o).cmap with
  | none => s
  | some m =>
    if !isXfer o || o.orphaned || o.blockGone then s
    else
      let b := padNat s o.crew.cl o.crew.ts (m + c / 8) 1
      padWrite s o.crew.cl o.crew.ts (m + c / 8) [BitVec.ofNat 8 (b - (if tb b (c % 8) then 2 ^ (c % 8) else 0))]

/-- A unit whose stores the lost member has not acknowledged fails with ORPHAN, and is not done (R351, R401, log 3). -/
def failUnit (s : State) (n u : Nat) : State :=
  match opOf s n with
  | none => s
  | some o =>
    if o.stops.any (fun r => r.unit == u) then s
    else updOp (unmapChunk s o u) n (fun o => { o with
      stops := o.stops ++ [{ unit := u, code := 0x34, faddr := 0, kb := 0, order := 0 }],
      nextTile := if isXfer o then min o.nextTile u else o.nextTile,
      progress := if isXfer o then reopenChunk o.progress u
                  else if o.kind = .mma then modAt o.progress u (fun _ => (o.firstKb[u]?).getD 0) else o.progress })

/-- PEER_LOST: the member's tokens and the mirrors that it lent become ORPHAN; what waits for its answers waits no longer (R288, R401). -/
def execPeerLost (m : Nat) (s : State) : Out :=
  if 512 ≤ m || m = s.boot.member || s.ua.lost.contains m then .next s
  else
    let d := deviceOf s m
    let units := ((s.ua.out.filter (fun x => x.member == m)).filterMap (·.op)).eraseDups
    let s := { s with ua := { s.ua with lost := s.ua.lost ++ [m], out := s.ua.out.filter (fun x => x.member != m) } }
    let s := units.foldl (fun s u => failUnit s u.1 u.2) s
    .next (emit (endWaits (orphanWhere s (fun h => h == peerHolder d) (fun t => t.peer == some d) 2 0 d)) (.memberLost m))

/-- The event due on UALink: a member that has not answered for 5 ms is lost, a request is sent again. -/
def peerDue (s : State) : Option Instr :=
  match s.ua.out.find? (fun x => decide (x.first + lossTime ≤ s.cycle) && decide (x.member < 512) && x.member != s.boot.member
      && !s.ua.lost.contains x.member) with
  | some x => some (.peerLost x.member)
  | none => (s.ua.out.find? (resendDue s)).map (fun x => .peerRequestTimeout x.member)

def peerTimes (s : State) : List Nat := s.ua.out.flatMap (fun x => [x.first + lossTime, x.last + peerTimeout s])

/-- A mirror enters the owner table of die 0, owned by this device's dispatcher: the answer's code (R283, R286). -/
def enterMirror (s : State) (dev ctx base len kind : Nat) : State × Nat :=
  match (dispatcherIds s ctx).head?, freeOwner s 0 with
  | none, _ => (s, st cHolder 0)
  | some _, none => (s, st cTableFull 0)
  | some g, some i =>
    if !regionFree s ctx base len || 2 < kind then (s, st cHolder 0)
    else
      let may : TokState := if kind = 0 then .excl else if kind = 1 then .shared else .atomic
      let t : Token := { ctx := ctx, base := base, len := len, state := may, owner := g, n := 0, chain := [peerHolder dev], recaller := none,
                         recalls := [], peer := some dev, rest := may }
      let s := newPeerEpoch (setToken s 0 i t) (peerKey (dev % 512) ctx base) len
      (takeSide s ctx (peerHolder dev) g base len, stOk)

/-- PEER_OWNERSHIP_REQUEST: a LEND to this device, or the return of what this device lent (R286). -/
def execPeerOwnershipRequest (r : OwnReq) (s : State) : Out :=
  match r with
  | .lend dev ctx base len kind => let x := enterMirror s dev ctx base len kind; .next (send x.1 (.peerAnswer (dev % 512) x.2 []))
  | .retnHere dev ctx base len => let x := retn s ctx [peerHolder dev] base len; .next (send x.1 (.peerAnswer (dev % 512) x.2 []))

/-! CXL root ports. -/

def behindPort (port k : Nat) : Bool := isCxl k && portOf k == port

def setPort (s : State) (p : Nat) (b : Bool) : State := { s with cxl := put s.cxl p { cxlPort s p with isolated := b, asked := none } }

/-- A line behind an isolated port leaves the L2: dirty sectors are discarded, counted and reported (R386). -/
def discardLine (die : Nat) (s : State) (e : L2Line) : State :=
  if e.dirty = 0#4 then s
  else emit (updDie s die (fun d => { d with errcount := d.errcount + 1 })) (.cxlDiscard e.key true)

def dropBehind (s : State) (die port : Nat) : State :=
  let s := ((dieOf s die).l2.filter (fun e => behindPort port e.key)).foldl (discardLine die) s
  updDie s die (fun d => { d with l2 := d.l2.filter (fun e => !behindPort port e.key) })

/-- CXL_PORT_ISOLATE (R386, R405). -/
def execCxlPortIsolate (p : Nat) (s : State) : Out :=
  if 8 ≤ p || (cxlPort s p).isolated then .next s
  else
    let s := dropBehind (dropBehind (setPort s p true) 0 p) 1 p
    .next (emit (endWaits { s with cxlDirty := s.cxlDirty.filter (fun b => !behindPort p b.1),
                                   cxlHeld := s.cxlHeld.filter (fun b => !behindPort p b.1),
                                   poison := s.poison.filter (fun k => !behindPort p k) }) (.cxlIsolated p))

/-- The cycle at which a root port has left a request without its completion for its time-out (R405). -/
def isolateAt (p : CxlPort) : Option Nat := if p.silent && !p.isolated then p.asked.map (· + p.timeoutMs * 2700000) else none

def cxlDue (s : State) : Option Instr :=
  (s.cxl.find? (fun e => decide (e.1 < 8) && (isolateAt e.2).any (fun t => decide (t ≤ s.cycle)))).map (fun e => .cxlPortIsolate e.1)

def cxlTimes (s : State) : List Nat := s.cxl.filterMap (fun e => isolateAt e.2)

/-- CXL_PORT_REINSTATE: later accesses proceed (R405). -/
def execCxlPortReinstate (p : Nat) (s : State) : Out := if 8 ≤ p then .next s else .next (setPort s p false)

end Sys2Proof.Machine
end

