-- ==== Sys2Proof/Machine/BringUp.lean ====
section
/-! DEFINITION. Bring-up, the Occon image, identity, rails and heat (R388, R410-R416). -/

namespace Sys2Proof.Machine

/-! The image (R412). -/

def imageSig (l : List Byte) : List Byte := (l.drop 0x781).take 1280
def imageKey (l : List Byte) : List Byte := (l.drop 0x80).take 1793
def imagePayload (l : List Byte) : List Byte := (l.drop 0xC81).take (leAt l 0xC 4)

/-- Does the boot ROM accept the image over `fuses` blown bits? -/
def imageOk (fuses : Nat) (l : List Byte) : Bool :=
  leAt l 0 4 == 0x4F434331 && decide (leAt l 4 1 < 4) && decide (fuses ≤ leAt l 8 4) && decide (leAt l 8 4 ≤ 64)
    && decide (leAt l 0xC 4 ≤ 2 ^ 24) && decide (0xC81 + leAt l 0xC 4 ≤ l.length)
    && decide (Config.shake256 (imagePayload l) = (l.drop 0x10).take 64)
    && decide (Config.shake256 (imageKey l) = Config.vendorKeyDigest (leAt l 4 1))
    && Config.falconVerify (imageKey l) (l.take 0x80) (imageSig l)

/-- The boot state after an image: accepted, bring-up runs to step 9, or ends with the device fenced where a stack fails training;
rejected, recovery. -/
def bootOf (fuses : Nat) (failing : List Nat) (l : List Byte) : Boot :=
  if imageOk fuses l then
    { phase := if failing.isEmpty then .waitDevNum else .fencedDevice, devnum := none, member := 0, fuses := fuses, rollback := leAt l 8 4,
      digest := (l.drop 0x10).take 64, failing := failing }
  else { phase := .recovery, devnum := none, member := 0, fuses := fuses, rollback := 0, digest := [], failing := failing }

/-- A root port after step 7 (R404, R405): trained, its interleave set as Occon finds it. -/
def trained (p : CxlPort) : CxlPort :=
  { CxlPort.reset with sbase := p.setBase, slen := p.setLen, silent := p.silent, setBase := p.setBase, setLen := p.setLen }

/-- The M8 after steps 1 to 8 of R410, or those that were reached. Expander memory behind the root ports keeps its bytes and its poison;
what the links and the driver have been told stays told, and what lies outside the device stays as it is. -/
def bringUp (s : State) (l : List Byte) : State :=
  let b := bootOf s.boot.fuses s.boot.failing l
  let s' : State := newPeerEpoch { State.reset with
    boot := b, mem := s.mem.filter (fun e => isCxl e.1), cxlPoison := s.cxlPoison,
    cxl := s.cxl.map (fun p => (p.1, trained p.2)), eth := { Eth.reset with up := decide (b.phase = .waitDevNum) },
    ua := { Ua.reset with absent := s.ua.absent, refused := s.ua.refused, silent := s.ua.silent },
    inputs := s.inputs, events := s.events, egress := s.egress, fresh := s.fresh } (2 ^ 52) (2 ^ 78)
  emit s' (.bootStatus (decide (b.phase = .waitDevNum)))

/-- PACKAGE_RESET with the flash's image (R410). -/
def execPackageReset (image : List Byte) (s : State) : Out := .next (bringUp s image)

/-- RECOVERY_IMAGE_LOAD: in recovery only, a loaded image passes the same checks (R412). -/
def execRecoveryImageLoad (image : List Byte) (s : State) : Out :=
  if s.boot.phase ≠ .recovery then .next s
  else if imageOk s.boot.fuses image then .next (send (bringUp s image) (.imageAccepted true))
  else .next (send s (.imageAccepted false))

/-- ROLLBACK_COMMIT: one fuse bit more, up to the running image's ROLLBACK (R412). -/
def execRollbackCommit (s : State) : Out :=
  if s.boot.phase = .recovery then .next s
  else .next { s with boot := { s.boot with fuses := if s.boot.fuses < s.boot.rollback then s.boot.fuses + 1 else s.boot.fuses } }

/-- DEVICE_NUMBER_SET: step 9 of R410; never while a context lives (R388). -/
def execDeviceNumberSet (n : Nat) (s : State) : Out :=
  if 12288 ≤ n || (s.boot.phase ≠ .waitDevNum && s.boot.phase ≠ .up) || s.ctxs.any (fun c => decide (c.2.phase ≠ .destroyed)) then .next s
  else .next { s with boot := { s.boot with phase := .up, devnum := some n, member := n % 512 } }

/-! Attestation (R413). -/

/-- Bytes 0x00 to 0xFF of a report. -/
def reportHead (s : State) (nonce : List Byte) : List Byte :=
  padTo 256 (leBytes 4 0x4F435131 ++ leBytes 4 (s.boot.devnum.getD 0xFFFF) ++ leBytes 8 Config.serialNumber.toNat
    ++ leBytes 8 s.boot.fuses ++ padTo 32 nonce ++ padTo 64 s.boot.digest ++ padTo 64 (Config.configDigest s.boot.fuses)
    ++ padTo 64 Config.identityKeyDigest)

/-- ATTESTATION_REQUEST. -/
def execAttestationRequest (nonce : List Byte) (s : State) : Out :=
  if s.boot.phase = .recovery then .next s
  else
    let h := reportHead s nonce
    .next (emit s (.attestation (h ++ padTo 1280 (Config.falconSign (Config.shake256 h)))))

/-! Rails and heat (R414-R416). -/

/-- CSLOPE of a rail point. -/
def pointSlope (p : Nat) : W16 :=
  match p with | 0 => 0x0000#16 | 1 => 0x1008#16 | 2 => 0x0810#16 | 3 => 0x0420#16 | _ => 0x0240#16

/-- A rail starts to move toward a point (R414). One that turns back stands between the point ahead of it and the one it left. -/
def aimRail (point : Nat) (c : Cluster) : Cluster :=
  if c.rail < c.railTo && point ≤ c.rail then { c with rail := c.rail + 1, railTo := point }
  else if c.railTo < c.rail && c.rail ≤ point then { c with rail := c.rail - 1, railTo := point }
  else { c with railTo := point }

/-- Does the point lie on the rail's way, before its end? -/
def onWay (point : Nat) (c : Cluster) : Bool :=
  (decide (c.rail < point) && decide (point < c.railTo)) || (decide (point < c.rail) && decide (c.railTo < point))

/-- RAIL_POINT_CHANGE: a cluster's rail reaches a point (R415), and goes on where it lies on its way. -/
def execRailPointChange (cl point : Nat) (s : State) : Out :=
  if 192 ≤ cl || 5 ≤ point then .next s
  else .next (updCluster s cl (fun c =>
    { c with rail := point, railTo := if onWay point c then c.railTo else point, cslope := pointSlope point }))

/-- Comparators that trip at a sample. -/
def newTrips (old new : BitVec 2) : Nat := ((List.range 2).filter (fun i => new.getLsbD i && !old.getLsbD i)).length

/-- Has the cluster been sampled in this epoch? -/
def sampled (c : Cluster) (cycle : Nat) : Bool := match c.sampledAt with | some t => t / 1024 == cycle / 1024 | none => false

/-- THERMAL_SAMPLE (R416), once in an epoch: THERMAL holds the sample, the one before is kept for the requests of its cycle, and trips are
counted (R210). -/
def execThermalSample (cl : Nat) (trips : BitVec 2) (s : State) : Out :=
  if 192 ≤ cl || sampled (clusterOf s cl) s.cycle then .next s
  else .next (updCluster s cl (fun c => { c with thermalWas := c.thermal, thermal := trips, sampledAt := some s.cycle,
                                                 trips := (c.trips + newTrips c.thermal trips) % 2 ^ 32 }))

/-- PACKAGE_OVERTEMP: Occon moves the clusters toward point 4; with every cluster there, it fences the whole device (R416, R288). -/
def execPackageOvertemp (s : State) : Out :=
  if (List.range 192).all (fun x => (clusterOf s x).rail == 4 && (clusterOf s x).railTo == 4) then
    let s := (List.range 192).foldl (fun s x => nextOf s (execClusterFence x s)) s
    .next (emit { s with boot := { s.boot with phase := .fencedDevice } } .deviceFenced)
  else .next ((List.range 192).foldl (fun s x => updCluster s x (aimRail 4)) s)

/-! What Occon does for the driver, sets, and finds outside the device (log 51). -/

/-- Peer ranges without the part [a, b). -/
def cutRange (a b : Nat) (e : Nat × Nat × FKind) : List (Nat × Nat × FKind) :=
  [(e.1, min e.2.1 a, e.2.2), (max e.1 b, e.2.1, e.2.2)].filter (fun x => decide (x.1 < x.2.1))

def setUa (s : State) (f : Ua → Ua) : State := { s with ua := f s.ua }
def setCxl (s : State) (p : Nat) (f : CxlPort → CxlPort) : State := if 8 ≤ p then s else { s with cxl := put s.cxl p (f (cxlPort s p)) }

/-- A member with a number in a list, or no longer. -/
def listed (l : List Nat) (m : Nat) (b : Bool) : List Nat := l.filter (· != m) ++ (if b then [m] else [])

def occonAct (k : OcconCmd) (s : State) : State :=
  match k with
  | .preempt x pa => occonSave x pa s
  | .restore x pa => occonLoad x pa s
  | .peerTimeout us => if us < 10 || 1000 < us then s else setUa s (fun u => { u with peerto := us })
  | .portTimeout p ms => if ms < 1 || 100 < ms then s else setCxl s p (fun c => { c with timeoutMs := ms })
  | .moveRail cl point => if 192 ≤ cl || 5 ≤ point then s else updCluster s cl (aimRail point)
  | .attach p base len gpf =>
    if base % 4096 ≠ 0 || len % 4096 ≠ 0 || 2 ^ 46 < base + len then s
    else setCxl s p (fun c => { c with setBase := base, setLen := if gpf then len else 0 })
  | .stackFault i bad => if 8 ≤ i then s else { s with boot := { s.boot with failing := listed s.boot.failing i bad } }
  | .podMember m present => if 512 ≤ m then s else setUa s (fun u => { u with absent := listed u.absent m (!present) })
  | .peerTables m ctx va len kind =>
    if 512 ≤ m || 4096 ≤ ctx || 2 ^ 57 < va + len then s
    else setUa s (fun u => { u with
      refused := (kind.map (fun f => (peerKey m ctx va, peerKey m ctx va + len, f))).toList
        ++ u.refused.flatMap (cutRange (peerKey m ctx va) (peerKey m ctx va + len)) })
  | .peerSilent m b =>
    if 512 ≤ m then s
    else endWaits (setUa s (fun u => { u with silent := listed u.silent m b, out := if b then u.out else u.out.filter (fun x => x.member != m) }))
  | .portSilent p b => endWaits (setCxl s p (fun c => { c with silent := b, asked := if b then c.asked else none }))
  | .churnLink i d => match connOf s i with
    | some c => if c.type = 2 && decide (d < 12288) then { s with churns := put s.churns i d } else s
    | none => s

/-- May Occon do this now? A save waits for the context's accesses that are outstanding to holders which do not answer (R372). -/
def occonMay (s : State) (k : OcconCmd) : Bool :=
  match k with | .preempt x _ => phaseOf s x != some .running || (answersOut s x).isEmpty | _ => true

/-- The first of the commands that Occon may take, and the others. -/
def takeCommand (s : State) : List OcconCmd → Option (OcconCmd × List OcconCmd)
  | [] => none
  | k :: t => if occonMay s k then some (k, t) else (takeCommand s t).map (fun e => (e.1, k :: e.2))

end Sys2Proof.Machine
end

