-- ==== Sys2Proof/Machine/Words.lean ====
section
/-! DEFINITION. Words as crews issue them: fetch, REP, fusion, the choice of the next issue, and the internal events that
are due (R18, R45, R54-R58, R265-R268). -/

namespace Sys2Proof.Machine

/-- The meaning of an instruction word, for the words that REP repeats and that fusion joins. -/
def execWord (i : Instr) (s : State) : Out :=
  match i with
  | .addRRR f => execAddRRR f s
  | .addRI17 f => execAddRI17 f s
  | .addRI32 f => execAddRI32 f s
  | .addx f => execAddx f s
  | .subRRR f => execSubRRR f s
  | .subRI17 f => execSubRI17 f s
  | .subRI32 f => execSubRI32 f s
  | .subx f => execSubx f s
  | .neg f => execNeg f s
  | .mulRRR f => execMulRRR f s
  | .mulRI17 f => execMulRI17 f s
  | .mulRI32 f => execMulRI32 f s
  | .mulh f => execMulh f s
  | .mad f => execMad f s
  | .abs f => execAbs f s
  | .minRRR f => execMinRRR f s
  | .minRI17 f => execMinRI17 f s
  | .maxRRR f => execMaxRRR f s
  | .maxRI17 f => execMaxRI17 f s
  | .clamp f => execClamp f s
  | .andRRR f => execAndRRR f s
  | .andRI17 f => execAndRI17 f s
  | .andRI32 f => execAndRI32 f s
  | .orRRR f => execOrRRR f s
  | .orRI17 f => execOrRI17 f s
  | .orRI32 f => execOrRI32 f s
  | .xorRRR f => execXorRRR f s
  | .xorRI17 f => execXorRI17 f s
  | .xorRI32 f => execXorRI32 f s
  | .not f => execNot f s
  | .andnRRR f => execAndnRRR f s
  | .andnRI17 f => execAndnRI17 f s
  | .andnRI32 f => execAndnRI32 f s
  | .shlRRR f => execShlRRR f s
  | .shlRI17 f => execShlRI17 f s
  | .shrRRR f => execShrRRR f s
  | .shrRI17 f => execShrRI17 f s
  | .rotRRR f => execRotRRR f s
  | .rotRI17 f => execRotRI17 f s
  | .clz f => execClz f s
  | .ctz f => execCtz f s
  | .popc f => execPopc f s
  | .brev f => execBrev f s
  | .bfxRRR f => execBfxRRR f s
  | .bfxRI17 f => execBfxRI17 f s
  | .bfi f => execBfi f s
  | .bswz f => execBswz f s
  | .sel f => execSel f s
  | .cmpRRR f => execCmpRRR f s
  | .cmpRI17 f => execCmpRI17 f s
  | .mov f => execMov f s
  | .leaRRR f => execLeaRRR f s
  | .leaRI17 f => execLeaRI17 f s
  | .movi f => execMovi f s
  | .movk f => execMovk f s
  | .pand f => execPand f s
  | .por f => execPor f s
  | .pxor f => execPxor f s
  | .pnot f => execPnot f s
  | .p2g f => execP2g f s
  | .g2p f => execG2p f s
  | .div f => execDiv f s
  | .rem f => execRem f s
  | .bra f => execBra f s
  | .call f => execCall f s
  | .fspawn f => execFspawn f s
  | .brx f => execBrx f s
  | .callx f => execCallx f s
  | .ret f => execRet f s
  | .nop f => execNop f s
  | .hint f => execHint f s
  | .fend f => execFend f s
  | .join f => execJoin f s
  | .active f => execActive f s
  | .wait f => execWait f s
  | .sleep f => execSleep f s
  | .yield f => execYield f s
  | .lwait f => execLwait f s
  | .bar f => execBar f s
  | .gbar f => execGbar f s
  | .rep f => execRep f s
  | .launch f => execLaunch f s
  | .lxch f => execLxch f s
  | .vote f => execVote f s
  | .ballot f => execBallot f s
  | .redux f => execRedux f s
  | .scan f => execScan f s
  | .matchq f => execMatchq f s
  | .fadd f => execFadd f s
  | .fsub f => execFsub f s
  | .fmul f => execFmul f s
  | .ffma f => execFfma f s
  | .fmin f => execFmin f s
  | .fmax f => execFmax f s
  | .fcmp f => execFcmp f s
  | .fclass f => execFclass f s
  | .frnd f => execFrnd f s
  | .hpadd f => execHpadd f s
  | .hpmul f => execHpmul f s
  | .hpfma f => execHpfma f s
  | .fcvt f => execFcvt f s
  | .f2i f => execF2i f s
  | .i2f f => execI2f f s
  | .pack8 f => execPack8 f s
  | .unpack8 f => execUnpack8 f s
  | .mxq f => execMxq f s
  | .rcp f => execRcp f s
  | .rsq f => execRsq f s
  | .sqrt f => execSqrt f s
  | .exp2 f => execExp2 f s
  | .log2 f => execLog2 f s
  | .sin f => execSin f s
  | .cos f => execCos f s
  | .tanh f => execTanh f s
  | .ld f => execLd f s
  | .st f => execSt f s
  | .lds f => execLds f s
  | .sts f => execSts f s
  | .pref f => execPref f s
  | .aadd f => execAadd f s
  | .afadd f => execAfadd f s
  | .amin f => execAmin f s
  | .amax f => execAmax f s
  | .aand f => execAand f s
  | .aor f => execAor f s
  | .axor f => execAxor f s
  | .axchg f => execAxchg f s
  | .acas f => execAcas f s
  | .fence f => execFence f s
  | .cflush f => execCflush f s
  | .cinv f => execCinv f s
  | .clock f => execClock f s
  | .cunlock f => execCunlock f s
  | .cdemote f => execCdemote f s
  | .lend f => execLend f s
  | .retn f => execRetn f s
  | .split f => execSplit f s
  | .merge f => execMerge f s
  | .recallWord f => execRecall f s
  | .ownq f => execOwnq f s
  | .bankcfg f => execBankcfg f s
  | .bankq f => execBankq f s
  | .qinit f => execQinit f s
  | .qpush f => execQpush f s
  | .qpop f => execQpop f s
  | .qpoll f => execQpoll f s
  | .qwait f => execQwait f s
  | .mma f => execMma f s
  | .mbound f => execMbound f s
  | .mcensus f => execMcensus f s
  | .copy f => execCopy f s
  | .gxfer f => execGxfer f s
  | .coll f => execColl f s
  | .mlease f => execMlease f s
  | .mfree f => execMfree f s
  | .mcfg f => execMcfg f s
  | .mstat f => execMstat f s
  | .cwait f => execCwait f s
  | .trap f => execTrap f s
  | .eret f => execEret f s
  | .rdsys f => execRdsys f s
  | .rdsysClr f => execRdsysClr f s
  | .wrsys f => execWrsys f s
  | .wrsysCtxid f => execWrsysCtxid f s
  | .wrsysThrottle f => execWrsysThrottle f s
  | .wrsysUrgency f => execWrsysUrgency f s
  | .wrsysCslope f => execWrsysCslope f s
  | .tlbinv f => execTlbinv f s
  | .tokadm f => execTokadm f s
  | .ckpt f => execCkpt f s
  | .halt f => execHalt f s
  | .ctxsv f => execCtxsv f s
  | .ctxld f => execCtxld f s
  | .reservedOpcode f => execReservedOpcode f s
  | _ => .next s

/-! Fetch (R45). -/


/-- A failed fetch of a word within a clause: it belongs to that word, for every fibre of the batch. -/
def fetchFail (s : State) (a : At) (k : FKind) : State :=
  let l := a.slots.map (fun i => (i, { fault k with width := 8, acc := 1, fetch := true, addr := a.pc, va := a.pc, pc := a.pc,
                                                    needEx := true }))
  if k = .notPresent then updCrew (parkFibres s a l) a.ref (fun c => dropEmpty c a.bi)
  else raiseTrap s a l a.b.mask [] a.pc false

/-! REP (R54, R56). -/

/-- The word of the repeat that is next, its named fields advanced. -/
def repeatWord (c : Crew) (w : Nat) : Instr := decodeAdv (advOf (repMask c.stat) (repStep c.stat) (repDone c.stat)) w

/-- REPEAT_ISSUE: one repeat of the word that the open sequence of the batch repeats. -/
def execRepeatIssue (s : State) : Out :=
  match issuer s with
  | none => .next s
  | some a =>
    if !a.b.rep || !isReady a.b then .next s
    else match fetch64 s a.ref.cl a.ctx a.pc with
      | (s, .error k) => .next (fetchFail s a k)
      | (s, .ok w) =>
        if repDone a.crew.stat = 0 && repMisused (openRep a.crew) w.toNat then .next (repIllegal s a)
        else execWord (repeatWord a.crew w.toNat) s

/-! Fusion (R57, R58). -/

/-- A register as a fused dependency names it. -/
def sameReg (d x : Opd) : Bool := d.cls != .s && decide (d = x)

/-- What fusion looks at in a word: guard, destination, type. -/
def fuseHead (i : Instr) : Option (Guard × Opd × Nat) :=
  match i with
  | .fmul f => some (f.gd, f.d, f.ty.toNat)
  | .hpmul f => some (f.gd, f.d, f.ty.toNat)
  | .fcmp f => some (f.gd, f.d, f.ty.toNat)
  | .cmpRRR f => some (f.gd, f.d, f.ty.toNat)
  | .cmpRI17 f => some (f.gd, f.d, f.ty.toNat)
  | .shlRRR f => some (f.gd, f.d, f.ty.toNat)
  | .shlRI17 f => some (f.gd, f.d, f.ty.toNat)
  | .andRRR f => some (f.gd, f.d, f.ty.toNat)
  | .andRI17 f => some (f.gd, f.d, f.ty.toNat)
  | .andRI32 f => some (f.gd, ri32Dst f, 2)
  | .fcvt f => some (f.gd, f.d, f.ty.toNat)
  | _ => none

/-- Is the type 32 bits wide? -/
def ty32 (t : Nat) : Bool := t == 2 || t == 6

/-- ADD of a 32-bit type that reads `d`: its guard. -/
def addReads (d : Opd) (i : Instr) : Option Guard :=
  match i with
  | .addRRR f => if ty32 f.ty.toNat && (sameReg d f.a || sameReg d f.b) then some f.gd else none
  | .addRI17 f => if ty32 f.ty.toNat && sameReg d f.a then some f.gd else none
  | .addRI32 f => if sameReg d { cls := if f.k then .k else .g, num := f.a } then some f.gd else none
  | _ => none

/-- CMP of type `t` that reads `d` as a: its guard. -/
def cmpReads (d : Opd) (t : Nat) (i : Instr) : Option Guard :=
  match i with
  | .cmpRRR f => if f.ty.toNat = t && sameReg d f.a then some f.gd else none
  | .cmpRI17 f => if f.ty.toNat = t && sameReg d f.a then some f.gd else none
  | _ => none

/-- SEL whose selector is `d`: its guard. -/
def selReads (d : Opd) (i : Instr) : Option Guard :=
  match i with
  | .sel f => if sameReg d f.c then some f.gd else none
  | _ => none

/-- The guard of the second word of a pair that R57 lists. -/
def pairGuard (i j : Instr) : Option Guard :=
  match fuseHead i with
  | none => none
  | some (_, d, t) =>
    match i, j with
    | .fmul _, .fadd f => if f.ty.toNat = t && (sameReg d f.a || sameReg d f.b) then some f.gd else none
    | .fmul _, .fsub f => if f.ty.toNat = t && sameReg d f.a then some f.gd else none
    | .hpmul _, .hpadd f => if f.ty.toNat = t && (sameReg d f.a || sameReg d f.b) then some f.gd else none
    | .cmpRRR _, _ => selReads d j
    | .cmpRI17 _, _ => selReads d j
    | .fcmp _, _ => selReads d j
    | .shlRRR _, _ => if ty32 t then addReads d j else none
    | .shlRI17 _, _ => if ty32 t then addReads d j else none
    | .andRRR _, _ => cmpReads d t j
    | .andRI17 _, _ => cmpReads d t j
    | .andRI32 _, _ => cmpReads d t j
    | _, _ => none

/-- Do two words fuse? -/
def pairFuses (i j : Instr) : Bool := match fuseHead i with | some (g, _, _) => pairGuard i j == some g | none => false

/-- Do three words fuse: FMUL of type .f32, FCVT of its result, PACK8 of that? R57's table does not say which source names the earlier
destination: FCVT's a, and PACK8's a or b, is the model's choice (log 50). -/
def tripleFuses (i j k : Instr) : Bool :=
  match i, j, k with
  | .fmul f, .fcvt g, .pack8 h =>
    f.ty.toNat == 8 && sameReg f.d g.a && (sameReg g.d h.a || sameReg g.d h.b) && decide (f.gd = g.gd) && decide (g.gd = h.gd)
  | _, _, _ => false

/-- The word at place `n` of the batch's clause as fetch reads it now; the reads leave no trace when nothing is fused. -/
def peekWord (s : State) (a : At) (n : Nat) : Option Instr :=
  if hdrCount a.b.hdr < n then none
  else match (fetch64 s a.ref.cl a.ctx (a.b.header + 8 * (n + 1))).2 with
    | .ok w => some (decodeWord w.toNat)
    | .error _ => none

/-- The fusable sequence at the batch's word. -/
def fusable (s : State) (a : At) : List Instr :=
  if a.b.rep then []
  else match peekWord s a a.b.next with
    | none => []
    | some i =>
      if (fuseHead i).isNone then []
      else match peekWord s a (a.b.next + 1) with
        | none => []
        | some j =>
          if pairFuses i j then [i, j]
          else match i, j with
            | .fmul _, .fcvt _ => match peekWord s a (a.b.next + 2) with
              | some k => if tripleFuses i j k then [i, j, k] else []
              | none => []
            | _, _ => []

/-- Has the batch gone on by one word with all its fibres? It drains behind the last one where the header asks so. -/
def wentOn (s : State) (a : At) (n : Nat) : Bool :=
  match crewOf s a.ref with
  | none => false
  | some c => c.trapWait.length == a.crew.trapWait.length && (match c.batches[a.bi]? with
    | none => false
    | some b => b.mask == a.b.mask && (decide (b.wait = .none) || (decide (b.wait = .drain) && !b.begun))
        && ((b.begun && b.header == a.b.header && b.next == n + 1) || (!b.begun && n == hdrCount a.b.hdr)))

/-- Does the batch wait at word `n` of its clause for a pending register? -/
def stuckAt (s : State) (a : At) (n : Nat) : Bool :=
  match (crewOf s a.ref).bind (fun c => c.batches[a.bi]?) with
  | some b => b.mask == a.b.mask && decide (b.wait = .hazard) && b.begun && b.header == a.b.header && b.next == n
  | none => false

/-- What comes of a fusable sequence: its words run, or they wait together for a register of one of them (R311). -/
inductive Fused where
  | done (s : State)
  | hazard

/-- Issue the words in order, each result written before the next; none when a word would fault or stall on anything but a
register. -/
def runFused (a : At) : Nat → List Instr → State → Option Fused
  | _, [], s => some (.done s)
  | n, i :: t, s =>
    match execWord i s with
    | .next s' => if wentOn s' a n then runFused a (n + 1) t (settle s' a.ref)
                  else if stuckAt s' a n then some .hazard else none
    | _ => none

/-- The destinations of a fused FMUL, FCVT and PACK8. -/
def tripleDests (l : List Instr) : List Opd :=
  match l with
  | [.fmul f, .fcvt g, .pack8 h] => [f.d, g.d, h.d]
  | _ => []

/-- A fused FMUL, FCVT and PACK8 sets the pending bits of its three destinations together, and they clear together (R158). -/
def pendTriple (a : At) (l : List Instr) (s : State) : State :=
  let act := match l with | i :: _ => (match fuseHead i with | some (g, _, _) => active a g | none => []) | [] => []
  let cl := clusterOf s a.ref.cl
  updCrew s a.ref (fun c => { c with pend := c.pend ++ (tripleDests l).flatMap (fun d =>
    match d.cls with
    | .g => act.map (fun i => { dst := .g i d.num, val := some (gRead cl c i d.num), ready := true })
    | .k => (act.take 1).map (fun _ => { dst := .k d.num, val := some (cRead c.k d.num), ready := true })
    | _ => []) })

/-- What comes of the fused sequence at the batch's word. -/
def fusedTry (s : State) : Option Fused :=
  match issuer s with
  | none => none
  | some a => match fusable s a with
    | [] => none
    | l => (runFused a a.b.next l s).map (fun r => match r with
      | .done s => .done (if l.length = 3 then pendTriple a l s else s)
      | .hazard => .hazard)

/-- FUSED_ISSUE: the sequence issues as one, with the effect of its words in order (R57). -/
def execFusedIssue (s : State) : Out :=
  match issuer s, fusedTry s with
  | some a, some (.done s) => .next (updCluster s a.ref.cl (fun c => { c with fused := (c.fused + 1) % 2 ^ 32 }))
  | some a, some .hazard => .next (waitAt s a .hazard false)
  | _, _ => .next s

/-! What a word needs of its scheduler (R37, R99, R140, R157, R194, R266-R269). -/

/-- Port class of an opcode, as its bit of PORTS: 3 V, 2 S, 1 M, 0 E (R51). REP, the hints and the reserved opcodes have
none. -/
def portClass (op : Nat) : Option Nat :=
  if reservedOp op || op = 0x0D8 || (0x2C0 ≤ op && op ≤ 0x2DF) then none
  else if op < 0x028 || (0x040 ≤ op && op ≤ 0x057) || (0x0E8 ≤ op && op ≤ 0x10B) then some 3
  else if op < 0x040 || (0x110 ≤ op && op ≤ 0x11F) then some 2
  else if 0x180 ≤ op && op ≤ 0x1AE then some 1
  else some 0

/-- Cycles for which a word holds its datapath, with `g` slot groups of the batch (R99, R140, R157, R194, R237, R252). -/
def occupancy (w g : Nat) : Nat :=
  let op := slice w 54 10
  let t := slice w 5 4
  let wide := decide (t % 4 = 3 && t < 8)
  if op < 0x028 then (if wide then (if 5 ≤ op && op ≤ 7 then 4 * g else 2 * g) else g)
  else if op < 0x040 then (if wide then 4 * g else if t % 4 = 2 then 2 * g else g)
  else if op < 0x050 then (if slice w 25 4 % 4 = 3 then (if op = 0x042 then 4 * g else 2 * g) else g)
  else if op < 0x058 then g
  else if op = 0x0EB || op = 0x0EC then (if wide || t = 8 then 2 * g else g)
  else if 0x0E8 ≤ op && op ≤ 0x10B then g
  else if op = 0x111 then (if wide then 2 * g else g)
  else if op = 0x112 then (if slice w 2 2 = 3 then 2 * g else g)
  else if op = 0x11D || op = 0x11E then 2 * g
  else if 0x110 ≤ op && op ≤ 0x11F then g
  else if 0x180 ≤ op && op ≤ 0x184 then (if t = 13 then 4 * g else if wide then 2 * g else g)
  else if (0x188 ≤ op && op ≤ 0x190) || (0x1A0 ≤ op && op ≤ 0x1A5) || (0x1AA ≤ op && op ≤ 0x1AE) then g
  else 1

/-- Slot groups that hold a fibre of the batch (R266). -/
def slotGroups (m : W32) : Nat := ((List.range 4).filter (fun q => slice m.toNat (8 * q) 8 != 0)).length

/-- Registers that a type's operand names. -/
def tyRegs (t : BitVec 4) : Nat := if t.toNat < 8 && tyWide t.toNat then 2 else 1

/-- The sources of an RRR word with the registers that each names, 0 for a field the word does not use (R97, R143, R114,
R159, R195, R241). -/
def rrrSources (i : Instr) : Option (RRR × Nat × Nat × Nat) :=
  match i with
  | .addRRR f | .subRRR f | .mulRRR f | .mulh f | .minRRR f | .maxRRR f | .andRRR f | .orRRR f | .xorRRR f | .andnRRR f
  | .cmpRRR f | .div f | .rem f | .addx f | .subx f | .sel f => some (f, tyRegs f.ty, tyRegs f.ty, 0)
  | .mad f | .clamp f => some (f, tyRegs f.ty, tyRegs f.ty, tyRegs f.ty)
  | .neg f | .abs f | .not f | .clz f | .ctz f | .popc f | .brev f | .mov f | .matchq f | .redux f | .scan f => some (f, tyRegs f.ty, 0, 0)
  | .shlRRR f | .shrRRR f | .rotRRR f | .bfxRRR f | .lxch f => some (f, tyRegs f.ty, 1, 0)
  | .bfi f => some (f, tyRegs f.ty, tyRegs f.ty, 1)
  | .leaRRR f => some (f, 2, tyRegs f.ty, 0)
  | .bswz f | .ffma f | .hpfma f => some (f, 1, 1, 1)
  | .g2p f | .fadd f | .fsub f | .fmul f | .fmin f | .fmax f | .fcmp f | .hpadd f | .hpmul f | .pack8 f
  | .bankcfg f => some (f, 1, 1, 0)
  | .mxq f => some (f, 1, if f.opt.toNat = 3 then 1 else 0, 0)
  | .fcvt f | .f2i f => some (f, 1, 0, if f.opt.toNat % 4 = 3 then 1 else 0)
  | .i2f f => some (f, if f.opt.toNat / 4 % 4 = 3 then 2 else 1, 0, if f.opt.toNat % 4 = 3 then 1 else 0)
  | .p2g f | .fclass f | .frnd f | .unpack8 f | .rcp f | .rsq f | .sqrt f | .exp2 f | .log2 f | .sin f | .cos f | .tanh f
  | .sleep f | .lwait f | .vote f | .ballot f | .mlease f | .mfree f | .mcfg f | .mstat f | .trap f | .halt f
  | .bankq f => some (f, 1, 0, 0)
  | .brx f | .callx f | .ret f | .ownq f | .qpop f | .qwait f | .ckpt f => some (f, 2, 0, 0)
  | .qinit f => some (f, 2, if f.opt.toNat = 1 then 0 else 1, 0)
  | .cflush f | .cinv f | .clock f | .cunlock f | .cdemote f | .qpoll f => some (f, 2, 1, 0)
  | .lend f => some (f, 2, 2, 2)
  | .retn f | .split f | .merge f | .recallWord f | .tlbinv f | .tokadm f => some (f, 2, 2, 0)
  | .qpush f => some (f, 2, 2, if f.opt.toNat = 1 then 4 else 0)
  | .ctxsv f | .ctxld f => some (f, 1, 2, 0)
  | .cwait f => some (f, 1, 1, 1)
  | _ => none

/-- The g-register sources of a word: each operand with how many registers it names. -/
def sourceOpds (i : Instr) : List (Opd × Nat) :=
  match rrrSources i with
  | some (f, a, b, c) => [(f.a, a), (f.b, b), (f.c, c)]
  | none =>
    match i with
    | .addRI17 f | .subRI17 f | .mulRI17 f | .minRI17 f | .maxRI17 f | .andRI17 f | .orRI17 f | .xorRI17 f | .andnRI17 f
    | .shlRI17 f | .shrRI17 f | .rotRI17 f | .cmpRI17 f | .bfxRI17 f => [(f.a, tyRegs f.ty)]
    | .leaRI17 f => [(f.a, 2)]
    | .addRI32 f | .subRI32 f | .mulRI32 f | .andRI32 f | .orRI32 f | .xorRI32 f | .andnRI32 f =>
      [({ cls := if f.k then .k else .g, num := f.a }, 1)]
    | .ld f | .lds f | .pref f | .sts f => [(memBase f, if memPair f then 2 else 1)]
    | .st f => [(memBase f, if memPair f then 2 else 1), (memData f false, memRegs f.ty.toNat)]
    | .aadd f | .afadd f | .amin f | .amax f | .aand f | .aor f | .axor f | .axchg f =>
      [({ cls := if f.kb then .k else .g, num := f.base }, 2), ({ cls := .g, num := f.b }, tyRegs f.ty)]
    | .acas f => [({ cls := if f.kb then .k else .g, num := f.base }, 2), ({ cls := .g, num := f.b }, tyRegs f.ty),
                  ({ cls := .g, num := f.c }, tyRegs f.ty)]
    | .mcensus f => [({ cls := .g, num := f.src }, 1)]
    | .wrsys f | .wrsysCtxid f | .wrsysThrottle f | .wrsysUrgency f | .wrsysCslope f => [(f.a, 2)]
    | _ => []

/-- The g-registers that words read, each once (R269). -/
def gSources (l : List Instr) : List Nat :=
  (l.flatMap (fun i => (sourceOpds i).flatMap (fun e => if e.1.cls = .g then (List.range e.2).map (e.1.num + ·) else []))).eraseDups

/-- The read banks of a set of registers, and whether one bank is read for two of them. -/
def banksOf (l : List Nat) : List Nat := (l.map (· % 8)).eraseDups
def bankTwice (l : List Nat) : Bool := decide ((banksOf l).length < l.length)

/-- The use of the words `l` that the word `w` heads; a fused FMUL, FCVT and PACK8 takes port S (R57, R158). A word that reads
one bank for two registers takes one more cycle (R269). -/
def useOf (m : W32) (w : Nat) (l : List Instr) : WordUse :=
  { port := if l.length = 3 then some 2 else portClass (slice w 54 10),
    cycles := occupancy w (slotGroups m) + (if bankTwice (gSources l) then 1 else 0), words := l.length }

/-! Candidates (R268). -/

/-- A candidate: its crew and batch, what its word needs, the banks it reads, and the age of its clause (R269). -/
structure Cand where
  ref : CrewRef
  crew : Crew
  yields : Bool
  use : WordUse
  banks : List Nat
  age : Nat

/-- A word that does not issue for now: operands, ranges, flags, walkers, the L1's re-index, an acknowledgement, an engine, a REP
sequence (R16, R18, R198, R308, R311, R400). -/
def isStall (w : Waiting) : Bool :=
  match w with
  | .hazard | .padRange | .flagFull | .walkers | .ring _ _ _ | .l1Held _ _ | .acks | .eng _ | .recalling _ _ | .repBusy => true
  | _ => false

def stalledAt (s : State) (r : CrewRef) (bi : Nat) : Bool :=
  match (crewOf s r).bind (fun c => c.batches[bi]?) with | some b => isStall b.wait | none => false

/-- Could the word stall? `acks`: a peer store has no acknowledgement yet. -/
def mayStall (acks : Bool) (t : Team) (c : Crew) (i : Instr) : Bool :=
  !c.pend.isEmpty || !t.ranges.isEmpty || acks || (match i with
    | .launch _ | .mma _ | .mbound _ | .mcensus _ | .copy _ | .gxfer _ | .coll _ | .cflush _ | .recallWord _ | .bankcfg _ => true
    | .rep _ => decide (0 < repLeft c.stat)
    | _ => false)

/-- The state in which the words that issue together have stalled, if they would. -/
def stallOfWord (s : State) (r : CrewRef) (bi : Nat) (l : List Instr) : Option State :=
  let s' := { s with issue := some { crew := r, bi := bi } }
  match ((match l with | [] => .next s | [i] => execWord i s' | _ => execFusedIssue s') : Out) with
  | .next t => if stalledAt t r bi then some { t with issue := s.issue } else none
  | _ => none

/-- The state in which the crew's next batch stands at its word, its header read: `s` itself where its clause is open; none
where the header faults. -/
def atWord (s : State) (r : CrewRef) (bi : Nat) (b : Batch) : Option (State × Nat) :=
  if b.begun && !b.stale then some (s, bi)
  else match execClauseBegin { s with issue := some { crew := r, bi := bi } } with
    | .next t => match (crewOf t r).bind nextBatch with
      | some (bi, b) => if b.begun && !b.stale then some (t, bi) else none
      | none => none
    | _ => none

/-- The instructions that the batch at a word issues together: a fused sequence, or the word as a repeat or by itself. -/
def wordsAt (s : State) (a : At) (w : Nat) : List Instr :=
  if a.b.rep then [repeatWord a.crew w]
  else if (fusedTry { s with issue := some { crew := a.ref, bi := a.bi } }).isSome then fusable s a
  else [decodeWord w]

/-- Is the batch at the header of a memory clause? -/
def atMemClause (s : State) (r : CrewRef) (c : Crew) (b : Batch) : Bool :=
  !b.begun && b.header % 8 == 0 && (match (fetch64 s r.cl c.ctx b.header).2 with
    | .ok h => !headerBad h && tb (hdrPorts h) 1
    | .error _ => false)

/-- The memory set as the scheduler finds the crew: in it where the crew needs it and may (R271). A ready memory clause of another
batch goes on waiting for admission. -/
def throttleCrew (s : State) (r : CrewRef) (c : Crew) (nb : Option (Nat × Batch)) : Crew :=
  let cl := clusterOf s r.cl
  let c := memYield cl c
  match nb with
  | some (_, b) =>
    if atMemClause s r c b then memJoin s.cycle cl c
    else if c.memWait.isSome && c.batches.any (fun x => isReady x && mayAct c x && atMemClause s r c x) then c
    else { c with memWait := none }
  | none => { c with memWait := none }

/-- Does the batch's fetch, of its header or of its word, wait for a holder that does not answer (R386, R401)? -/
def fetchWaits (s : State) (r : CrewRef) (c : Crew) (b : Batch) : Bool :=
  (if b.begun && !b.stale then false else b.header % 8 == 0 && fetchQuiet s r.cl c.ctx b.header)
    || (b.begun && fetchQuiet s r.cl c.ctx (batchPc b))

/-- A crew that a scheduler looks at: the state with its place in the memory set, and where its word stalls with that; the
candidate, if it is one. -/
def readCand (s : State) (r : CrewRef) : State × Option Cand :=
  match teamOf s r.cl r.ts, crewOf s r with
  | some t, some c0 =>
    let nb := if crewRuns s t c0 then nextBatch c0 else none
    let c := throttleCrew s r c0 nb
    let s := if c.mem == c0.mem && c.memRow == c0.memRow && c.memWait == c0.memWait then s else updCrew s r (fun _ => c)
    match nb with
    | none => (s, none)
    | some (bi, b) =>
      let yields := c.yields || (b.yields && !b.begun)
      let cand (u : WordUse) (l : List Nat) (age : Nat) : Option Cand :=
        if portFree (clusterOf s r.cl) s.cycle (c.pos % 2) u.port then
          some { ref := r, crew := c, yields := yields, use := u, banks := banksOf l, age := age }
        else none
      let faulty := cand { port := none, cycles := 1, words := 0 } [] s.cycle
      if (c.memWait.isSome && atMemClause s r c b) || fetchWaits s r c b then (s, none)
      else match atWord s r bi b with
        | none => (s, faulty)
        | some (s', bi') =>
          match atOf s' r bi' with
          | none => (s, faulty)
          | some a =>
            match (fetch64 s' r.cl a.ctx a.pc).2 with
            | .error _ => (s, faulty)
            | .ok w =>
              let l := wordsAt s' a w.toNat
              let age := if a.b.next = 0 && !a.b.rep then s.cycle else a.b.opened
              match if mayStall (unacked s') t c (l.headD (.reservedOpcode w)) || ringHeld s' r.cl || heldBefore s' r.cl none then stallOfWord s' r bi' l else none with
              | some q => (if b.begun && !b.stale then q else s, none)
              | none => (s, cand (useOf a.b.mask w.toNat l) (gSources l) age)
  | _, _ => (s, none)

/-- The crews of a scheduler, by slot and number. -/
def crewsOf (s : State) (x sch : Nat) : List CrewRef :=
  (crewList (clusterOf s x)).filterMap (fun e => if e.2.2.2.pos % 2 = sch then some { cl := x, ts := e.1, cr := e.2.1 } else none)

def readCands (s : State) : List CrewRef → State × List Cand
  | [] => (s, [])
  | r :: t =>
    let x := readCand s r
    let y := readCands x.1 t
    (y.1, x.2.toList ++ y.2)

/-- A crew that has become a candidate takes up the smallest pass of the others (R268). -/
def markCand (cycle : Nat) (l : List Cand) (k : Cand) : Cand :=
  if k.crew.cand then k
  else
    let low := leastBy (fun a b => decide (a < b)) ((l.filter (fun x => x.crew.pos != k.crew.pos)).map (fun x => x.crew.pass))
    { k with crew := { k.crew with cand := true, candSince := cycle, pass := max k.crew.pass (low.getD k.crew.pass) } }

/-- The crews of the scheduler with their marks. -/
def markCrews (s : State) (rs : List CrewRef) (l : List Cand) : State :=
  rs.foldl (fun s r => match l.find? (fun k => k.ref == r) with
    | some k => if (crewOf s r).any (·.cand) then s
                else updCrew s r (fun c => { c with cand := true, candSince := k.crew.candSince, pass := k.crew.pass })
    | none => if (crewOf s r).any (·.cand) then updCrew s r (fun c => { c with cand := false }) else s) s

/-! The picks (R268, R269). -/

/-- Rank of two candidates (R268): precedence, pass, candidate since, position. -/
def crewBefore (x y : Cand) : Bool :=
  let a := x.crew
  let b := y.crew
  let pa := a.prec.getD (2 ^ 64)
  let pb := b.prec.getD (2 ^ 64)
  if pa != pb then decide (pa < pb)
  else if a.pass != b.pass then decide (a.pass < b.pass)
  else if a.candSince != b.candSince then decide (a.candSince < b.candSince)
  else decide (a.pos < b.pos)

/-- The candidates of a cycle: those that YIELD put off stand back while another could issue, unless they have precedence
(R40, R125, R275). -/
def notYielding (l : List Cand) : List Cand :=
  let k := l.filter (fun c => !c.yields || c.crew.prec.isSome)
  if k.isEmpty then l else k

/-- The first and the second pick. -/
def twoPicks (l : List Cand) : Option (Cand × Option Cand) :=
  (leastBy crewBefore l).map (fun a =>
    (a, leastBy crewBefore (l.filter (fun c => c.ref != a.ref && c.use.port != a.use.port))))

/-- Does the first pick win a bank conflict: by precedence, then by the age of its clause (R269)? -/
def firstWins (a b : Cand) : Bool :=
  let pa := a.crew.prec.getD (2 ^ 64)
  let pb := b.crew.prec.getD (2 ^ 64)
  if pa != pb then decide (pa < pb) else decide (a.age ≤ b.age)

/-- What issues of the picks, and who loses. -/
def settlePicks (p : Cand × Option Cand) : List CrewRef × Option CrewRef :=
  match p.2 with
  | none => ([p.1.ref], none)
  | some b =>
    if !p.1.banks.any b.banks.contains then ([p.1.ref, b.ref], none)
    else if firstWins p.1 b then ([p.1.ref], some b.ref) else ([b.ref], some p.1.ref)

/-- One scheduler's cycle: its crews' marks and its picks. -/
def schedule (s : State) (x sch : Nat) : State × List CrewRef :=
  let rs := crewsOf s x sch
  let y := readCands s rs
  let l := y.2.map (markCand s.cycle y.2)
  let s := markCrews y.1 rs l
  match (if railHolds (clusterOf s x) sch s.cycle then none else twoPicks (notYielding l)) with
  | none => (s, [])
  | some p =>
    let q := settlePicks p
    (match q.2 with | some r => updCrew s r (fun c => { c with losses := c.losses + 1 }) | none => s, q.1)

/-- The schedulers of clusters with teams: 2 × cluster + scheduler. -/
def schedulers (s : State) : List Nat :=
  (s.clusters.filter (fun c => !c.2.teams.isEmpty)).flatMap (fun c => [2 * c.1, 2 * c.1 + 1])

/-- The first pick that can still issue, with the picks after it. -/
def livePick (s : State) : List CrewRef → Option (CrewRef × Nat × List CrewRef)
  | [] => none
  | r :: t =>
    match teamOf s r.cl r.ts, crewOf s r with
    | some k, some c => match (if crewRuns s k c then nextBatch c else none) with
      | some (bi, _) => some (r, bi, t)
      | none => livePick s t
    | _, _ => livePick s t

/-- The first of the schedulers that picks, with what it picks. -/
def firstScheduler (s : State) : List Nat → State × Option (CrewRef × Nat)
  | [] => (s, none)
  | i :: t =>
    let y := schedule s (i / 2) (i % 2)
    match livePick y.1 y.2 with
    | some (r, bi, l) => ({ y.1 with turn := i + 1, picks := l }, some (r, bi))
    | none => firstScheduler y.1 t

/-- The next issue of this cycle: what a scheduler still has to issue, else the next scheduler's picks. -/
def nextIssue (s : State) : State × Option (CrewRef × Nat) :=
  match livePick s s.picks with
  | some (r, bi, l) => ({ s with picks := l }, some (r, bi))
  | none => firstScheduler { s with picks := [] } ((schedulers s).filter (fun i => decide (s.turn ≤ i)))

/-! The issue of a pick. -/

/-- The first issue of a crew after its restore is an acquire at DEVICE scope, and its MMAs' engines start 18 cycles after it
(R360, R376). -/
def firstIssue (s : State) (r : CrewRef) : State :=
  if !(crewOf s r).any (·.restored) then s
  else
    let s := updCrew (acquireAt s r.cl 5) r (fun c => { c with restored := false })
    { s with ops := s.ops.map (fun o =>
        if o.2.crew == r && o.2.kind == .mma && o.2.phase == .queued && !o.2.orphaned then (o.1, { o.2 with started := s.cycle + 18 }) else o) }

/-- What stands next for a batch at a word: a step with what it takes of its scheduler, or a fetch that fails. -/
inductive Fetched where
  | word (s : State) (i : Instr) (u : WordUse)
  | stop (s : State)

/-- The step that the batch `bi` of a crew takes: its clause's beginning, a repeat, a fused sequence, or its word. -/
def issueStep (s : State) (r : CrewRef) (bi : Nat) : Fetched :=
  let s := firstIssue s r
  match atOf s r bi with
  | none => .stop s
  | some a =>
    if !a.b.begun || a.b.stale then .word s .clauseBegin { port := none, cycles := 0, words := 0 }
    else
      let s := if a.b.next = 0 && !a.b.rep then
          updCrew s r (fun c => { c with batches := modAt c.batches bi (fun b => { b with opened := s.cycle }) })
        else s
      match (fetch64 s r.cl a.ctx a.pc) with
      | (s, .error k) => .stop (fetchFail s a k)
      | (s, .ok w) =>
        let l := wordsAt s a w.toNat
        .word s (if a.b.rep then .repeatIssue else if 1 < l.length then .fusedIssue else decodeWord w.toNat) (useOf a.b.mask w.toNat l)

/-- After a pick's step: a clause that has begun goes on to its first word in the same cycle, and a word that stalled has not
issued. -/
def afterIssue (r : CrewRef) (bi : Nat) (u : WordUse) (o : Out) : Out :=
  match o with
  | .next t =>
    if u.words = 0 then
      .next (match (crewOf t r).bind nextBatch with
        | some (_, b) => if b.begun && !b.stale then { t with picks := r :: t.picks } else t
        | none => t)
    else if stalledAt t r bi then .next t else .next (countIssue t r u)
  | o => o

/-! Internal events (each is due when its own condition holds). -/

def bare (i : Instr) : Option Issue × Instr := (none, i)

/-- The event that a wait of a batch has due. -/
def batchDue (s : State) (r : CrewRef) (c : Crew) (e : Nat × Batch) : Option Instr :=
  if !mayEnd c e.2 then none
  else match e.2.wait with
    | .drain => if drained c e.2 then some .drainRelease else none
    | .sleep w => if w ≤ s.cycle then some .sleepExpiry else none
    | .queue _ _ fs => if fs.all (·.done.isSome) then some .waitEnd
        else none
    | .none => if flagsPend s r c e.2 then some .clauseBegin else none
    | _ => match atOf s r e.1 with
      | some a => if waitOver a then some .waitEnd else if cwaitOver s a then some .cwaitEnd else none
      | none => none

/-- The event due for a crew: its batch's place, and the event. -/
def crewDue (s : State) (r : CrewRef) (t : Team) (c : Crew) : Option (Nat × Instr) :=
  if t.saved then none
  else if c.pend.any (·.ready) then some (0, .resultWrite)
  else if !c.launches.isEmpty then some (0, .launchStatus)
  else if !crewRuns s t c then none
  else if trapDue c then some (0, .trapEntry)
  else if c.groups.any (groupFull c) then some (0, .groupComplete)
  else if c.groups.any (groupLate s.cycle c) then some (0, .convergenceTimeout)
  else if bypassDue s c then some (0, .throttleBypassAdmit)
  else if waitPrecDue s c then some (0, .issueWaitPrecedence)
  else if lossPrecDue c then some (0, .bankLossPrecedence)
  else (placed c).findSome? (fun e => (batchDue s r c e).map (fun i => (e.1, i)))

/-- The event due on a cluster. -/
def clusterDue (s : State) (x : Nat) (c : Cluster) : Option (Option Issue × Instr) :=
  let team (t : Nat × Team) : Option (Option Issue × Instr) :=
    if !t.2.started && !t.2.saved && (match gridOf s t.2.ctx t.2.gid with | some g => !g.killed | none => false) then
      some (bare (.teamStart x t.1))
    else if bankReleaseDue s t.2 then some (bare (.teamBankRelease x t.1))
    else if exitDue s x t.1 t.2 then some (bare (.teamExit x t.1))
    else (List.range t.2.crews.length).findSome? (fun i => match t.2.crews[i]? with
      | none => none
      | some w => (crewDue s { cl := x, ts := t.1, cr := i } t.2 w).map (fun e =>
          (some { crew := { cl := x, ts := t.1, cr := i }, bi := e.1 }, e.2)))
  if epochDue s c then some (bare (.throttleEpochEnd x))
  else match c.teams.findSome? team with
    | some e => some e
    | none =>
      (c.walkers.find? (fun w => walkDue s x w.2)).map (fun w => bare (.cflushWalkDone x w.1))

/-- The event due for a grid. -/
def gridDue (s : State) (g : Grid) : Option (Option Issue × Instr) :=
  if killDue s g then some (bare (.gridKill g.ctx g.gid))
  else if retireDue s g then some (bare (.gridRetire g.ctx g.gid))
  else if reservationDue s g then some (bare (.placementReservation g.ctx g.gid))
  else none

/-- The event due at the ports: on UALink or at a root port, of the Ethernet link, a time-out of a connection, an item to send. -/
def portDue (s : State) : Option Instr :=
  match (peerDue s).orElse (fun _ => (cxlDue s).orElse (fun _ => linkDue s)) with
  | some i => some i
  | none => match s.conns.find? (fun c => ackLate s c.1 c.2) with
    | some c => some (.ackTimeout c.1)
    | none => (s.conns.find? (fun c => outqDue s c.1 c.2)).map (fun c => .outqSend c.1)

/-- The first internal event that is due, with the crew and batch it acts on. -/
def dueEvent (s : State) : Option (Option Issue × Instr) :=
  match s.grids.findSome? (gridDue s) with
  | some e => some e
  | none =>
    match s.clusters.findSome? (fun c => clusterDue s c.1 c.2) with
    | some e => some e
    | none =>
      if s.ckpt.isSome && !ckptWaits s then some (bare .ckptComplete)
      else if loadFits s || (nextPlacement s).isSome then some (bare .placementAttempt)
      else (portDue s).map bare

/-! The end of a cycle: what comes after every issue of the cycle (R16, R276). -/

/-- A batch whose tries at a queue are due (R192), after the pushes of the cycle (R193). -/
def retryDue (s : State) (t : Team) (c : Crew) : Option Nat :=
  if !crewRuns s t c then none
  else (placed c).findSome? (fun e => match e.2.wait with
    | .queue w _ fs => if mayAct c e.2 && decide (w ≤ s.cycle) && !fs.all (fun x => x.done.isSome || x.listed) then some e.1 else none
    | _ => none)

/-- What is due for a crew at the end of the cycle: a flag falls, or a batch tries its queue. -/
def crewLate (s : State) (r : CrewRef) (t : Team) (c : Crew) : Option (Option Issue × Instr) :=
  if !c.falls.isEmpty then some (some { crew := r, bi := 0 }, .flagCompletion)
  else (retryDue s t c).map (fun bi => (some { crew := r, bi := bi }, .qpollRetry))

/-- A barrier object of the team that opens, or what its crews have due. -/
def teamLate (s : State) (x : Nat) (t : Nat × Team) : Option (Option Issue × Instr) :=
  if t.2.saved then none
  else match t.2.bars.find? (fun o => barFull t.2 o.2) with
    | some o => some (bare (.barrierOpen x t.1 o.1))
    | none => (List.range t.2.crews.length).findSome? (fun i => match t.2.crews[i]? with
      | none => none
      | some w => crewLate s { cl := x, ts := t.1, cr := i } t.2 w)

/-- The event that closes the cycle: what the engines have done, whose sticky bits a same-cycle RDSYS does not clear (R34); the openings
of barriers, before the waves that they queue (R276); a flag's completion, which a same-cycle issue precedes (R16), and the tries at
queues; messages that arrive (R312). -/
def lateEvent (s : State) : Option (Option Issue × Instr) :=
  match enginesDue s with
  | some i => some (bare i)
  | none =>
  match s.grids.findSome? (fun g => if gbarFull s g then some (bare (.gridBarrierOpen g.ctx g.gid)) else none) with
  | some e => some e
  | none =>
    match s.clusters.findSome? (fun c => c.2.teams.findSome? (teamLate s c.1)) with
    | some e => some e
    | none => match fifoDue s with
    | some i => some (bare i)
    | none => s.clusters.findSome? (fun c => if waveDue s c.2 then some (bare (.barrierWaveRelease c.1)) else none)

/-- No scheduler issues any more in this cycle. -/
def closeCycle (s : State) : State := { s with turn := 384, picks := [] }

/-! Time. -/

/-- Cycles at which a crew's waits end. -/
def crewTimes (c : Crew) : List Nat :=
  c.batches.filterMap (fun b => match b.wait with | .sleep w => some w | .queue w _ _ => some w | _ => none)
    ++ (c.groups.filter (fun g => !g.late && g.handler == c.trap.isSome)).map (fun g => g.since + 2 ^ 24)
    ++ (match c.memWait with | some w => [w + 1024] | none => [])

/-- Cycles at which something becomes due. -/
def timers (s : State) : List Nat :=
  s.clusters.flatMap (fun c => c.2.teams.flatMap (fun t => t.2.crews.flatMap crewTimes)
      ++ (if railHolds c.2 0 s.cycle || railHolds c.2 1 s.cycle then [(s.cycle / 8 + 1) * 8] else [])
      ++ (if c.2.waves.isEmpty then [] else [c.2.waveAt]) ++ c.2.ports.map (·.2) ++ (if c.2.teams.isEmpty then [] else [(c.2.epoch + 1) * 1024]))
    ++ s.grids.filterMap (fun g => if g.coop || g.reserved || g.teams ≤ g.nextTeam then none else some (g.nextSince + 2 ^ 20))
    ++ s.ops.flatMap (fun o => opTimes o.2) ++ peerTimes s ++ cxlTimes s ++ linkTimes s ++ s.conns.filterMap (fun c => ackAt s c.1 c.2)

/-- When no scheduler of this cycle has an issue left: the next cycle, or the next timer when none had any. -/
def passTime (s : State) : State :=
  let s := { s with popped := [] }
  if s.turn ≠ 0 then { s with cycle := (s.cycle + 1) % 2 ^ 64, turn := 0, picks := [] }
  else
    let l := (timers s).filter (fun t => decide (s.cycle < t))
    { s with cycle := ((leastBy (fun a b => decide (a < b)) l).getD (s.cycle + 1)) % 2 ^ 64 }

/-- Does the device take the input: in recovery only an image, or a reset (R412)? -/
def mayEnter (s : State) (i : Instr) : Bool :=
  decide (s.boot.phase ≠ .recovery) || (match i with | .packageReset _ => true | .recoveryImageLoad _ => true | _ => false)

/-- What enters the machine from outside: the events of the driver, of Occon and of the links. -/
def isInput (i : Instr) : Bool :=
  match i with
  | .clusterFence _ => true | .clusterReinstate _ => true | .pageAnswer _ _ => true
  | .contextCreate _ => true | .contextDestroy _ => true | .rootTokenCreate _ => true | .rootTokenDestroy _ _ => true
  | .tokenReportRequest _ => true | .l1SoftError _ _ _ => true | .l2HbmSoftError _ => true | .cxlPoisonResponse _ => true
  | .l2AccountingRequest _ _ => true | .mcastGroupWrite _ _ => true | .mcastBindingWrite _ _ => true | .mcastReceive _ => true
  | .mcastMemberTimeout _ _ => true | .connTableWrite _ _ => true | .sendOnly _ _ => true
  | .sendOnlyWithImmediate _ _ _ => true | .rdmaWrite _ _ _ _ => true | .rdmaReadRequest _ _ _ _ => true
  | .compareSwap _ _ _ _ _ => true | .fetchAdd _ _ _ _ => true | .invalidRequest _ _ => true | .ack _ => true
  | .rnrNak _ => true | .connectionClose _ => true | .frameReceive _ => true | .linkNak _ => true
  | .peerTransaction _ => true | .peerRequestTimeout _ => true | .peerLost _ => true | .cxlPortIsolate _ => true
  | .cxlPortReinstate _ => true | .packageReset _ => true | .recoveryImageLoad _ => true | .attestationRequest _ => true
  | .railPointChange _ _ => true | .thermalSample _ _ => true | .dispatcherStart _ _ => true | .peerOwnershipRequest _ => true
  | .deviceNumberSet _ => true | .l2PoisonListHandoff _ _ => true
  | .sakRekey => true | .mkaFrame => true | .rollbackCommit => true | .packageOvertemp => true | .linkUp => true
  | _ => false

end Sys2Proof.Machine
end

