-- ==== Sys2Proof/Machine/Dispatch.lean ====
section
/-! DEFINITION. One arm for every step of the opcode table. -/

namespace Sys2Proof.Machine

def exec (i : Instr) (s : State) : Host.Outcome State Fault Refusal :=
  match i with
  | .addRRR a => Sys2Proof.Machine.execAddRRR a s
  | .addRI17 a => Sys2Proof.Machine.execAddRI17 a s
  | .addRI32 a => Sys2Proof.Machine.execAddRI32 a s
  | .addx a => Sys2Proof.Machine.execAddx a s
  | .subRRR a => Sys2Proof.Machine.execSubRRR a s
  | .subRI17 a => Sys2Proof.Machine.execSubRI17 a s
  | .subRI32 a => Sys2Proof.Machine.execSubRI32 a s
  | .subx a => Sys2Proof.Machine.execSubx a s
  | .neg a => Sys2Proof.Machine.execNeg a s
  | .mulRRR a => Sys2Proof.Machine.execMulRRR a s
  | .mulRI17 a => Sys2Proof.Machine.execMulRI17 a s
  | .mulRI32 a => Sys2Proof.Machine.execMulRI32 a s
  | .mulh a => Sys2Proof.Machine.execMulh a s
  | .mad a => Sys2Proof.Machine.execMad a s
  | .abs a => Sys2Proof.Machine.execAbs a s
  | .minRRR a => Sys2Proof.Machine.execMinRRR a s
  | .minRI17 a => Sys2Proof.Machine.execMinRI17 a s
  | .maxRRR a => Sys2Proof.Machine.execMaxRRR a s
  | .maxRI17 a => Sys2Proof.Machine.execMaxRI17 a s
  | .clamp a => Sys2Proof.Machine.execClamp a s
  | .andRRR a => Sys2Proof.Machine.execAndRRR a s
  | .andRI17 a => Sys2Proof.Machine.execAndRI17 a s
  | .andRI32 a => Sys2Proof.Machine.execAndRI32 a s
  | .orRRR a => Sys2Proof.Machine.execOrRRR a s
  | .orRI17 a => Sys2Proof.Machine.execOrRI17 a s
  | .orRI32 a => Sys2Proof.Machine.execOrRI32 a s
  | .xorRRR a => Sys2Proof.Machine.execXorRRR a s
  | .xorRI17 a => Sys2Proof.Machine.execXorRI17 a s
  | .xorRI32 a => Sys2Proof.Machine.execXorRI32 a s
  | .not a => Sys2Proof.Machine.execNot a s
  | .andnRRR a => Sys2Proof.Machine.execAndnRRR a s
  | .andnRI17 a => Sys2Proof.Machine.execAndnRI17 a s
  | .andnRI32 a => Sys2Proof.Machine.execAndnRI32 a s
  | .shlRRR a => Sys2Proof.Machine.execShlRRR a s
  | .shlRI17 a => Sys2Proof.Machine.execShlRI17 a s
  | .shrRRR a => Sys2Proof.Machine.execShrRRR a s
  | .shrRI17 a => Sys2Proof.Machine.execShrRI17 a s
  | .rotRRR a => Sys2Proof.Machine.execRotRRR a s
  | .rotRI17 a => Sys2Proof.Machine.execRotRI17 a s
  | .clz a => Sys2Proof.Machine.execClz a s
  | .ctz a => Sys2Proof.Machine.execCtz a s
  | .popc a => Sys2Proof.Machine.execPopc a s
  | .brev a => Sys2Proof.Machine.execBrev a s
  | .bfxRRR a => Sys2Proof.Machine.execBfxRRR a s
  | .bfxRI17 a => Sys2Proof.Machine.execBfxRI17 a s
  | .bfi a => Sys2Proof.Machine.execBfi a s
  | .bswz a => Sys2Proof.Machine.execBswz a s
  | .sel a => Sys2Proof.Machine.execSel a s
  | .cmpRRR a => Sys2Proof.Machine.execCmpRRR a s
  | .cmpRI17 a => Sys2Proof.Machine.execCmpRI17 a s
  | .mov a => Sys2Proof.Machine.execMov a s
  | .leaRRR a => Sys2Proof.Machine.execLeaRRR a s
  | .leaRI17 a => Sys2Proof.Machine.execLeaRI17 a s
  | .movi a => Sys2Proof.Machine.execMovi a s
  | .movk a => Sys2Proof.Machine.execMovk a s
  | .pand a => Sys2Proof.Machine.execPand a s
  | .por a => Sys2Proof.Machine.execPor a s
  | .pxor a => Sys2Proof.Machine.execPxor a s
  | .pnot a => Sys2Proof.Machine.execPnot a s
  | .p2g a => Sys2Proof.Machine.execP2g a s
  | .g2p a => Sys2Proof.Machine.execG2p a s
  | .div a => Sys2Proof.Machine.execDiv a s
  | .rem a => Sys2Proof.Machine.execRem a s
  | .bra a => Sys2Proof.Machine.execBra a s
  | .call a => Sys2Proof.Machine.execCall a s
  | .fspawn a => Sys2Proof.Machine.execFspawn a s
  | .brx a => Sys2Proof.Machine.execBrx a s
  | .callx a => Sys2Proof.Machine.execCallx a s
  | .ret a => Sys2Proof.Machine.execRet a s
  | .nop a => Sys2Proof.Machine.execNop a s
  | .hint a => Sys2Proof.Machine.execHint a s
  | .fend a => Sys2Proof.Machine.execFend a s
  | .join a => Sys2Proof.Machine.execJoin a s
  | .active a => Sys2Proof.Machine.execActive a s
  | .wait a => Sys2Proof.Machine.execWait a s
  | .sleep a => Sys2Proof.Machine.execSleep a s
  | .yield a => Sys2Proof.Machine.execYield a s
  | .lwait a => Sys2Proof.Machine.execLwait a s
  | .bar a => Sys2Proof.Machine.execBar a s
  | .gbar a => Sys2Proof.Machine.execGbar a s
  | .rep a => Sys2Proof.Machine.execRep a s
  | .launch a => Sys2Proof.Machine.execLaunch a s
  | .lxch a => Sys2Proof.Machine.execLxch a s
  | .vote a => Sys2Proof.Machine.execVote a s
  | .ballot a => Sys2Proof.Machine.execBallot a s
  | .redux a => Sys2Proof.Machine.execRedux a s
  | .scan a => Sys2Proof.Machine.execScan a s
  | .matchq a => Sys2Proof.Machine.execMatchq a s
  | .fadd a => Sys2Proof.Machine.execFadd a s
  | .fsub a => Sys2Proof.Machine.execFsub a s
  | .fmul a => Sys2Proof.Machine.execFmul a s
  | .ffma a => Sys2Proof.Machine.execFfma a s
  | .fmin a => Sys2Proof.Machine.execFmin a s
  | .fmax a => Sys2Proof.Machine.execFmax a s
  | .fcmp a => Sys2Proof.Machine.execFcmp a s
  | .fclass a => Sys2Proof.Machine.execFclass a s
  | .frnd a => Sys2Proof.Machine.execFrnd a s
  | .hpadd a => Sys2Proof.Machine.execHpadd a s
  | .hpmul a => Sys2Proof.Machine.execHpmul a s
  | .hpfma a => Sys2Proof.Machine.execHpfma a s
  | .fcvt a => Sys2Proof.Machine.execFcvt a s
  | .f2i a => Sys2Proof.Machine.execF2i a s
  | .i2f a => Sys2Proof.Machine.execI2f a s
  | .pack8 a => Sys2Proof.Machine.execPack8 a s
  | .unpack8 a => Sys2Proof.Machine.execUnpack8 a s
  | .mxq a => Sys2Proof.Machine.execMxq a s
  | .rcp a => Sys2Proof.Machine.execRcp a s
  | .rsq a => Sys2Proof.Machine.execRsq a s
  | .sqrt a => Sys2Proof.Machine.execSqrt a s
  | .exp2 a => Sys2Proof.Machine.execExp2 a s
  | .log2 a => Sys2Proof.Machine.execLog2 a s
  | .sin a => Sys2Proof.Machine.execSin a s
  | .cos a => Sys2Proof.Machine.execCos a s
  | .tanh a => Sys2Proof.Machine.execTanh a s
  | .ld a => Sys2Proof.Machine.execLd a s
  | .st a => Sys2Proof.Machine.execSt a s
  | .lds a => Sys2Proof.Machine.execLds a s
  | .sts a => Sys2Proof.Machine.execSts a s
  | .pref a => Sys2Proof.Machine.execPref a s
  | .aadd a => Sys2Proof.Machine.execAadd a s
  | .afadd a => Sys2Proof.Machine.execAfadd a s
  | .amin a => Sys2Proof.Machine.execAmin a s
  | .amax a => Sys2Proof.Machine.execAmax a s
  | .aand a => Sys2Proof.Machine.execAand a s
  | .aor a => Sys2Proof.Machine.execAor a s
  | .axor a => Sys2Proof.Machine.execAxor a s
  | .axchg a => Sys2Proof.Machine.execAxchg a s
  | .acas a => Sys2Proof.Machine.execAcas a s
  | .fence a => Sys2Proof.Machine.execFence a s
  | .cflush a => Sys2Proof.Machine.execCflush a s
  | .cinv a => Sys2Proof.Machine.execCinv a s
  | .clock a => Sys2Proof.Machine.execClock a s
  | .cunlock a => Sys2Proof.Machine.execCunlock a s
  | .cdemote a => Sys2Proof.Machine.execCdemote a s
  | .lend a => Sys2Proof.Machine.execLend a s
  | .retn a => Sys2Proof.Machine.execRetn a s
  | .split a => Sys2Proof.Machine.execSplit a s
  | .merge a => Sys2Proof.Machine.execMerge a s
  | .recallWord a => Sys2Proof.Machine.execRecall a s
  | .ownq a => Sys2Proof.Machine.execOwnq a s
  | .bankcfg a => Sys2Proof.Machine.execBankcfg a s
  | .bankq a => Sys2Proof.Machine.execBankq a s
  | .qinit a => Sys2Proof.Machine.execQinit a s
  | .qpush a => Sys2Proof.Machine.execQpush a s
  | .qpop a => Sys2Proof.Machine.execQpop a s
  | .qpoll a => Sys2Proof.Machine.execQpoll a s
  | .qwait a => Sys2Proof.Machine.execQwait a s
  | .mma a => Sys2Proof.Machine.execMma a s
  | .mbound a => Sys2Proof.Machine.execMbound a s
  | .mcensus a => Sys2Proof.Machine.execMcensus a s
  | .copy a => Sys2Proof.Machine.execCopy a s
  | .gxfer a => Sys2Proof.Machine.execGxfer a s
  | .coll a => Sys2Proof.Machine.execColl a s
  | .mlease a => Sys2Proof.Machine.execMlease a s
  | .mfree a => Sys2Proof.Machine.execMfree a s
  | .mcfg a => Sys2Proof.Machine.execMcfg a s
  | .mstat a => Sys2Proof.Machine.execMstat a s
  | .cwait a => Sys2Proof.Machine.execCwait a s
  | .trap a => Sys2Proof.Machine.execTrap a s
  | .eret a => Sys2Proof.Machine.execEret a s
  | .rdsys a => Sys2Proof.Machine.execRdsys a s
  | .rdsysClr a => Sys2Proof.Machine.execRdsysClr a s
  | .wrsys a => Sys2Proof.Machine.execWrsys a s
  | .wrsysCtxid a => Sys2Proof.Machine.execWrsysCtxid a s
  | .wrsysThrottle a => Sys2Proof.Machine.execWrsysThrottle a s
  | .wrsysUrgency a => Sys2Proof.Machine.execWrsysUrgency a s
  | .wrsysCslope a => Sys2Proof.Machine.execWrsysCslope a s
  | .tlbinv a => Sys2Proof.Machine.execTlbinv a s
  | .tokadm a => Sys2Proof.Machine.execTokadm a s
  | .ckpt a => Sys2Proof.Machine.execCkpt a s
  | .halt a => Sys2Proof.Machine.execHalt a s
  | .ctxsv a => Sys2Proof.Machine.execCtxsv a s
  | .ctxld a => Sys2Proof.Machine.execCtxld a s
  | .barrierOpen a b c => Sys2Proof.Machine.execBarrierOpen a b c s
  | .gridBarrierOpen a b => Sys2Proof.Machine.execGridBarrierOpen a b s
  | .barrierWaveRelease a => Sys2Proof.Machine.execBarrierWaveRelease a s
  | .placementReservation a b => Sys2Proof.Machine.execPlacementReservation a b s
  | .teamStart a b => Sys2Proof.Machine.execTeamStart a b s
  | .teamBankRelease a b => Sys2Proof.Machine.execTeamBankRelease a b s
  | .teamExit a b => Sys2Proof.Machine.execTeamExit a b s
  | .gridRetire a b => Sys2Proof.Machine.execGridRetire a b s
  | .gridKill a b => Sys2Proof.Machine.execGridKill a b s
  | .clusterFence a => Sys2Proof.Machine.execClusterFence a s
  | .clusterReinstate a => Sys2Proof.Machine.execClusterReinstate a s
  | .throttleEpochEnd a => Sys2Proof.Machine.execThrottleEpochEnd a s
  | .engAccept a => Sys2Proof.Machine.execEngAccept a s
  | .leaseGrant a => Sys2Proof.Machine.execLeaseGrant a s
  | .leaseExpiry a b => Sys2Proof.Machine.execLeaseExpiry a b s
  | .mmaStart a b => Sys2Proof.Machine.execMmaStart a b s
  | .tileBlockStart a => Sys2Proof.Machine.execTileBlockStart a s
  | .kBlockBarrier a b => Sys2Proof.Machine.execKBlockBarrier a b s
  | .engOpStop a => Sys2Proof.Machine.execEngOpStop a s
  | .engOpComplete a => Sys2Proof.Machine.execEngOpComplete a s
  | .copyOpStart a b => Sys2Proof.Machine.execCopyOpStart a b s
  | .copyChunkDone a b => Sys2Proof.Machine.execCopyChunkDone a b s
  | .srcfreeFall a => Sys2Proof.Machine.execSrcfreeFall a s
  | .fifoMessageArrive a b => Sys2Proof.Machine.execFifoMessageArrive a b s
  | .collTimeout a => Sys2Proof.Machine.execCollTimeout a s
  | .cflushWalkDone a b => Sys2Proof.Machine.execCflushWalkDone a b s
  | .pageAnswer a b => Sys2Proof.Machine.execPageAnswer a b s
  | .contextCreate a => Sys2Proof.Machine.execContextCreate a s
  | .contextDestroy a => Sys2Proof.Machine.execContextDestroy a s
  | .rootTokenCreate a => Sys2Proof.Machine.execRootTokenCreate a s
  | .rootTokenDestroy a b => Sys2Proof.Machine.execRootTokenDestroy a b s
  | .tokenReportRequest a => Sys2Proof.Machine.execTokenReportRequest a s
  | .l1SoftError a b c => Sys2Proof.Machine.execL1SoftError a b c s
  | .l2HbmSoftError a => Sys2Proof.Machine.execL2HbmSoftError a s
  | .cxlPoisonResponse a => Sys2Proof.Machine.execCxlPoisonResponse a s
  | .l2AccountingRequest a b => Sys2Proof.Machine.execL2AccountingRequest a b s
  | .mcastGroupWrite a b => Sys2Proof.Machine.execMcastGroupWrite a b s
  | .mcastBindingWrite a b => Sys2Proof.Machine.execMcastBindingWrite a b s
  | .mcastReceive a => Sys2Proof.Machine.execMcastReceive a s
  | .mcastMemberTimeout a b => Sys2Proof.Machine.execMcastMemberTimeout a b s
  | .connTableWrite a b => Sys2Proof.Machine.execConnTableWrite a b s
  | .sendOnly a b => Sys2Proof.Machine.execSendOnly a b s
  | .sendOnlyWithImmediate a b c => Sys2Proof.Machine.execSendOnlyWithImmediate a b c s
  | .rdmaWrite a b c d => Sys2Proof.Machine.execRdmaWrite a b c d s
  | .rdmaReadRequest a b c d => Sys2Proof.Machine.execRdmaReadRequest a b c d s
  | .compareSwap a b c d e => Sys2Proof.Machine.execCompareSwap a b c d e s
  | .fetchAdd a b c d => Sys2Proof.Machine.execFetchAdd a b c d s
  | .invalidRequest a b => Sys2Proof.Machine.execInvalidRequest a b s
  | .ack a => Sys2Proof.Machine.execAck a s
  | .rnrNak a => Sys2Proof.Machine.execRnrNak a s
  | .outqSend a => Sys2Proof.Machine.execOutqSend a s
  | .ackTimeout a => Sys2Proof.Machine.execAckTimeout a s
  | .connectionClose a => Sys2Proof.Machine.execConnectionClose a s
  | .frameReceive a => Sys2Proof.Machine.execFrameReceive a s
  | .linkNak a => Sys2Proof.Machine.execLinkNak a s
  | .peerTransaction a => Sys2Proof.Machine.execPeerTransaction a s
  | .peerRequestTimeout a => Sys2Proof.Machine.execPeerRequestTimeout a s
  | .peerLost a => Sys2Proof.Machine.execPeerLost a s
  | .cxlPortIsolate a => Sys2Proof.Machine.execCxlPortIsolate a s
  | .cxlPortReinstate a => Sys2Proof.Machine.execCxlPortReinstate a s
  | .packageReset a => Sys2Proof.Machine.execPackageReset a s
  | .recoveryImageLoad a => Sys2Proof.Machine.execRecoveryImageLoad a s
  | .attestationRequest a => Sys2Proof.Machine.execAttestationRequest a s
  | .railPointChange a b => Sys2Proof.Machine.execRailPointChange a b s
  | .thermalSample a b => Sys2Proof.Machine.execThermalSample a b s
  | .reservedOpcode a => Sys2Proof.Machine.execReservedOpcode a s
  | .dispatcherStart a b => Sys2Proof.Machine.execDispatcherStart a b s
  | .peerOwnershipRequest a => Sys2Proof.Machine.execPeerOwnershipRequest a s
  | .deviceNumberSet a => Sys2Proof.Machine.execDeviceNumberSet a s
  | .l2PoisonListHandoff a b => Sys2Proof.Machine.execL2PoisonListHandoff a b s
  | .clauseBegin => Sys2Proof.Machine.execClauseBegin s
  | .repeatIssue => Sys2Proof.Machine.execRepeatIssue s
  | .fusedIssue => Sys2Proof.Machine.execFusedIssue s
  | .resultWrite => Sys2Proof.Machine.execResultWrite s
  | .launchStatus => Sys2Proof.Machine.execLaunchStatus s
  | .drainRelease => Sys2Proof.Machine.execDrainRelease s
  | .flagCompletion => Sys2Proof.Machine.execFlagCompletion s
  | .waitEnd => Sys2Proof.Machine.execWaitEnd s
  | .sleepExpiry => Sys2Proof.Machine.execSleepExpiry s
  | .groupComplete => Sys2Proof.Machine.execGroupComplete s
  | .convergenceTimeout => Sys2Proof.Machine.execConvergenceTimeout s
  | .qpollRetry => Sys2Proof.Machine.execQpollRetry s
  | .cwaitEnd => Sys2Proof.Machine.execCwaitEnd s
  | .bankLossPrecedence => Sys2Proof.Machine.execBankLossPrecedence s
  | .issueWaitPrecedence => Sys2Proof.Machine.execIssueWaitPrecedence s
  | .throttleBypassAdmit => Sys2Proof.Machine.execThrottleBypassAdmit s
  | .trapEntry => Sys2Proof.Machine.execTrapEntry s
  | .placementAttempt => Sys2Proof.Machine.execPlacementAttempt s
  | .retryControlFrame => Sys2Proof.Machine.execRetryControlFrame s
  | .linkDown => Sys2Proof.Machine.execLinkDown s
  | .sakRekey => Sys2Proof.Machine.execSakRekey s
  | .mkaFrame => Sys2Proof.Machine.execMkaFrame s
  | .ckptComplete => Sys2Proof.Machine.execCkptComplete s
  | .rollbackCommit => Sys2Proof.Machine.execRollbackCommit s
  | .packageOvertemp => Sys2Proof.Machine.execPackageOvertemp s
  | .linkUp => Sys2Proof.Machine.execLinkUp s

end Sys2Proof.Machine
end

