-- ==== Sys2Proof/Machine/Step.lean ====
section
/-! DEFINITION. One step of the M8: an input, else what the driver asks of Occon, else an internal event that is due, else the next
issue, else an event of the cycle's end, else time. -/

namespace Sys2Proof.Machine

/-- One step (log 1 says how the order of steps is chosen). -/
def step (s : State) : Host.Outcome State Fault Refusal :=
  match s.inputs with
  | i :: t => if isInput i && mayEnter s i then exec i { s with inputs := t } else .next { s with inputs := t }
  | [] =>
    match takeCommand s s.commands with
    | some (k, t) => .next (occonAct k { s with commands := t })
    | none =>
      match dueEvent s with
      | some (b, i) => exec i { s with issue := b }
      | none =>
        match nextIssue s with
        | (s, some (r, bi)) =>
          match issueStep { s with issue := some { crew := r, bi := bi } } r bi with
          | .stop s => .next s
          | .word s i u => afterIssue r bi u (exec i s)
        | (s, none) =>
          match lateEvent s with
          | some (b, i) => exec i (closeCycle { s with issue := b })
          | none => .next (passTime s)

/-! The probe of one word. -/

/-- Words in memory, each stored little-endian. -/
def placeWords (m : Memory) : List (Nat × Nat) → Memory
  | [] => m
  | (a, w) :: t => placeWords (cWrites m a (leBytes 8 w)) t

/-- A clause header with every port, for one word, or for two where the word is REP (R36, R55). -/
def probeHeader (w : Nat) : Nat := 0xA0F0000000000000 + (if slice w 54 10 = 0x0D8 then 2 ^ 56 else 0)

def probeVa : Nat := 0x100
def probePa : Nat := 0x40000000
def probeTable : Nat := 0x10000

/-- `s` with a program loaded from outside that holds the word: the device is up, context 1 maps one executable page of 1 GiB, and
a privileged crew stands at the word in a clause that has begun (the log says how a program comes to run). -/
def State.withFetchWord (s : State) (nbits w : Nat) : State :=
  let w := w % 2 ^ nbits % 2 ^ 64
  let h := probeHeader w
  let regs : CtxRegs := { objbase := 0#64, objcount := 0, ptbase := probeTable, privbase := 0#64, privmax := 0#32,
                          faultbase := 0#64, trapvec := 0#64, poison := 0#2 }
  let ctx : Ctx := { phase := .running, area := none, regs := regs, cursor := 0, queues := [], comms := [], retired := [] }
  let g : Grid := { ctx := 1, gid := 0, launchedBy := 0#64, launcher := none, parent := none, depth := 1, teams := 1, cmask := 1#192,
                    w8 := 2, crews := 1, banks := 0, coop := false, entry := 0x100#64, kinit := [], priv := true, nextTeam := 1,
                    nextSince := s.cycle, reserved := false, unfinished := 1, children := 0, gen := 0, killed := false,
                    killCode := 0 }
  let b : Batch := { headBatch probeVa (BitVec.allOnes 32) .none s.cycle false with hdr := BitVec.ofNat 64 h, begun := true }
  let c : Crew := { newCrew 0 0 16 1 s.cycle true with live := BitVec.allOnes 32, batches := [b], cur := some 0 }
  let t : Team := { newTeam { g with nextTeam := 0 } [c] [] s.cycle with started := true }
  { s with boot := { s.boot with phase := .up, devnum := some 0 }, ctxs := put s.ctxs 1 ctx, grids := [g],
           clusters := [(0, { Cluster.reset with teams := [(0, t)] })], inputs := [], commands := [], picks := [], turn := 0,
           mem := placeWords s.mem
             [(probeTable, probeTable + 0x1001), (probeTable + 0x1000, probeTable + 0x2001), (probeTable + 0x2000, probePa + 0x1F),
              (probePa + probeVa, h), (probePa + probeVa + 8, w)] }

end Sys2Proof.Machine
end

