-- ==== Sys2Proof/Safety.lean ====
section
/-! DEFINITION. What counts as a safe run of the M8, in the terms that the statements use: the invariant that every step
keeps, what a word needs to run, and what it writes and leaves alone. -/

namespace Sys2Proof.Machine

/-- Sparse storage in canonical form everywhere: memory, and on each cluster the register file and the SRAM. -/
def cellsOk (s : State) : Bool := Memory.wf s.mem && s.clusters.all (fun c => cWf c.2.rf && cWf c.2.sram)

/-! Words. -/

/-- The word at the batch that `issue` names passes checks 2 to 5 of R53 for some fibre, and none of its registers is
pending (R311); a word that may release finds no store to peer memory unacknowledged (R173). `sp` says what the word needs. -/
structure Passes (s : State) (a : At) (sp : WordSpec) : Prop where
  here : issuer s = some a
  framed : framed a sp.port sp.ct = true
  plain : sp.plain = true → guardPlain sp.gd = true
  act : active a sp.gd ≠ []
  legal : sp.legal a.crew.win = true
  view : sp.priv = true → a.crew.priv = true
  free : hazard a.crew (active a sp.gd) sp.regs = false
  acked : sp.rel = true → unacked s = false

/-- `s` with the registers of the cluster and one crew of the team `t` replaced, and nothing else. -/
def onCrew (s : State) (r : CrewRef) (t : Team) (rf : Cells 32) (c : Crew) : State :=
  setCluster s r.cl { clusterOf s r.cl with
    rf := rf, teams := put (clusterOf s r.cl).teams r.ts { t with crews := modAt t.crews r.cr (fun _ => c) } }

/-- What a fibre-local word yields for the fibre in a slot: the value of its destination of `n` registers, further
predicates, and sticky bits (R15, R17, R92, R94). -/
structure Yield where
  d : Opd
  n : Nat
  v : Nat → Nat
  ps : Nat → List (Nat × Bool)
  st : Nat → Nat

/-- A yield with one destination. -/
def yields (d : Opd) (n : Nat) (v st : Nat → Nat) : Yield := { d := d, n := n, v := v, ps := fun _ => [], st := st }

/-- Register `j` of a destination's value. -/
def regWord (v j : Nat) : W32 := BitVec.ofNat 32 (v / 2 ^ (32 * j))

/-- The predicates that the fibre in slot `i` writes, a destination of class P among them. -/
def Yield.preds (y : Yield) (i : Nat) : List (Nat × Bool) :=
  (if y.d.cls = .p then [(y.d.num, y.v i % 2 == 1)] else []) ++ y.ps i

/-- Predicates, sticky bits and batches of the crew `c'` after the fibres `act` of crew `c` wrote `y`: p15 ignores writes
(R12), every other predicate stands, and so does the status word below the REP fields but for the sticky bits (R17). Outside
a REP sequence the batch has gone on by one word (R41), and a clause that ends draining takes the crew out of the memory set (R271), one that ends with YIELD makes it yield (R40). -/
structure CrewAfter (cycle bi : Nat) (act : List Nat) (y : Yield) (c c' : Crew) : Prop where
  p : ∀ i ∈ act, ∀ e ∈ y.preds i, e.1 < 15 → pRead c' i e.1 = e.2
  pOther : ∀ i m, (i ∈ act → ∀ e ∈ y.preds i, e.1 ≠ m) → pRead c' i m = pRead c i m
  st : ∀ b < 45, c'.stat.getLsbD b = (c.stat.getLsbD b || (decide (b < 11) && act.any (fun i => tb (y.st i) b)))
  moved : ∀ b, c.batches[bi]? = some b → b.rep = false → c'.batches = modAt c.batches bi (fun _ => nextWord cycle b)
  memset : (c'.mem, c'.memRow) = (c.mem, c.memRow) ∨ (c'.mem, c'.memRow) = (false, 0)
  stays : ∀ b, c.batches[bi]? = some b → b.rep = false → (nextWord cycle b).wait ≠ .drain → (c'.mem, c'.memRow) = (c.mem, c.memRow)
  yield : ∀ b, c.batches[bi]? = some b → b.rep = false →
    c'.yields = (c.yields || (!(nextWord cycle b).begun && hdrYield b.hdr))

/-- `t` is `s` after the word's fibres `act` wrote `y` at once: the destination's registers hold the values, a k-register
that of the lowest fibre (R15), every other register and everything else of the machine stands as before. -/
def Wrote (s t : State) (a : At) (act : List Nat) (y : Yield) : Prop :=
  ∃ rf c', t = onCrew s a.ref a.team rf c' ∧ CrewAfter s.cycle a.bi act y a.crew c'
    ∧ (y.d.cls = .g → y.d.num + y.n ≤ a.crew.win →
        ∀ i ∈ act, ∀ j < y.n, cRead rf (regNo a.crew i (y.d.num + j)) = regWord (y.v i) j)
    ∧ (∀ key, (y.d.cls = .g → ∀ i ∈ act, ∀ j < y.n, regNo a.crew i (y.d.num + j) ≠ key) →
        cRead rf key = cRead (clusterOf s a.ref.cl).rf key)
    ∧ (y.d.cls = .k → ∀ i, act.head? = some i → ∀ j < y.n, cRead c'.k (y.d.num + j) = regWord (y.v i) j)
    ∧ (∀ m, (y.d.cls = .k → m < y.d.num ∨ y.d.num + y.n ≤ m) → cRead c'.k m = cRead a.crew.k m)
    ∧ { c' with
          k := a.crew.k, preds := a.crew.preds, stat := a.crew.stat, batches := a.crew.batches, cur := a.crew.cur,
          mem := a.crew.mem, memRow := a.crew.memRow, yields := a.crew.yields } = a.crew

/-- The pending results of a word of variable latency (R99, R311): one for each register of each fibre, a k-register's
from the lowest fibre alone (R15). -/
def laterPends (d : Opd) (n : Nat) (l : List (Nat × Nat)) : List Pend :=
  match d.cls with
  | .g => l.flatMap (fun e => (List.range n).map (fun j => { dst := .g e.1 (d.num + j), val := some (regWord e.2 j), ready := true }))
  | .k => (l.take 1).flatMap (fun e => (List.range n).map (fun j => { dst := .k (d.num + j), val := some (regWord e.2 j), ready := true }))
  | _ => []

/-- `t` is `u` after the word's fibres `act` have made `y` pending: predicates at once, registers when RESULT_WRITE comes
(R99); nothing but the crew changes, every register and everything else of the crew stands as in `u`. -/
def Later (u t : State) (a : At) (act : List Nat) (y : Yield) : Prop :=
  ∃ F, t = updCrew u a.ref F ∧ ∀ c, CrewAfter u.cycle a.bi act y c (F c)
    ∧ (F c).pend = c.pend ++ laterPends y.d y.n (act.map (fun i => (i, y.v i)))
    ∧ { F c with
          pend := c.pend, preds := c.preds, stat := c.stat, batches := c.batches, cur := c.cur, mem := c.mem, memRow := c.memRow,
          yields := c.yields } = c

end Sys2Proof.Machine
end

