-- ==== Sys2Proof/Certificates/Slice0/Obligations.lean ====
section
/-! DEFINITION. The statements for the provers, and the terms they use. -/

namespace Sys2Proof.Machine

/-! Fibre-local words: each names its checks and what it yields to the fibre in a slot. -/

/-- A word that computes at once: its checks, and its yield from the state at issue. -/
structure LocalWord where
  sp : WordSpec
  y : State → At → Yield

/-- The checks of an RRR word of a port, with its positions. -/
def rrrChecks (port : Nat) (f : RRR) (d a b c : Pos) (ok : Bool) : WordSpec :=
  rrrSpec { port := port, d := d, a := a, b := b, c := c, ty := ok, opt := true } f false false false

/-- The checks of an RI17 word. -/
def ri17Checks (f : RI17) (d a : Pos) (ok : Bool) : WordSpec :=
  { port := some 3, ct := false, gd := f.gd, plain := false, legal := fun w => ok && posOk w d f.d && posOk w a f.a, priv := false,
    regs := posRegs d f.d ++ posRegs a f.a }

/-- The operand a of an RI32 word. -/
def ri32A (f : RI32) : Opd := { cls := if f.k then .k else .g, num := f.a }

/-- The checks of an RI32 word that reads a. -/
def ri32Checks (f : RI32) : WordSpec :=
  { port := some 3, ct := false, gd := f.gd, plain := false, priv := false,
    legal := fun w => posOk w (pDst false) (ri32Dst f) && posOk w { pSrc false with p := false, sp := [] } (ri32A f),
    regs := posRegs (pDst false) (ri32Dst f) ++ posRegs { pSrc false with p := false, sp := [] } (ri32A f) }

/-- Src(x, t) of an operand (R92). -/
def srcAt (s : State) (a : At) (i t : Nat) (o : Opd) : Int := srcOf t (opdVal s a i o (tyN t))
/-- Bits(x, t) of an operand (R92). -/
def bitsAt (s : State) (a : At) (i t : Nat) (o : Opd) : Nat := bitsOf t (opdVal s a i o (tyN t))
/-- The immediate of an RI17 word as operand b (R50). -/
def immOf (f : RI17) : Nat := wrapNat 64 (sext 17 f.imm.toNat)

/-- An arithmetic yield (R101): the exact value, wrapped, or saturated with SAT set when that changes it. -/
def exactYield (d : Opd) (t : Nat) (sat : Bool) (v : Nat → Int) : Yield :=
  yields d (tyN t) (fun i => if sat then putOf t (satTy t (v i)) else putOf t (v i))
    (fun i => if sat && decide (satTy t (v i) ≠ v i) then stSat else 0)

/-- An RRR arithmetic word of one to three sources. -/
def arithWord (f : RRR) (n : Nat) (sat signed : Bool) (v : Int → Int → Int → Int) : LocalWord :=
  let t := f.ty.toNat
  let w := tyWide t
  { sp := rrrChecks 3 f (pDst w) (pSrc w) (if 2 ≤ n then pSrc w else pNone) (if 3 ≤ n then pSrc w else pNone)
      (isIntTy t && (!signed || tySigned t) && decide (f.opt.toNat < (if sat then 2 else 1))),
    y := fun s a => exactYield f.d t (f.opt.toNat == 1) (fun i =>
      v (srcAt s a i t f.a) (if 2 ≤ n then srcAt s a i t f.b else 0) (if 3 ≤ n then srcAt s a i t f.c else 0)) }

/-- An RI17 arithmetic word. -/
def arithWordI (f : RI17) (sat : Bool) (v : Int → Int → Int) : LocalWord :=
  let t := f.ty.toNat
  { sp := ri17Checks f (pDst (tyWide t)) (pSrc (tyWide t)) (isIntTy t && decide (f.opt.toNat < (if sat then 2 else 1))),
    y := fun s a => exactYield f.d t (f.opt.toNat == 1) (fun i => v (srcAt s a i t f.a) (srcOf t (immOf f))) }

/-- An RI32 arithmetic word, of type .s32. -/
def arithWordL (f : RI32) (v : Int → Int → Int) : LocalWord :=
  { sp := ri32Checks f,
    y := fun s a => exactYield (ri32Dst f) 2 false (fun i => v (srcAt s a i 2 (ri32A f)) (srcOf 2 f.imm.toNat)) }

/-- The integer arithmetic words with their exact values (R101). -/
def arithOf (i : Instr) : Option LocalWord :=
  match i with
  | .addRRR f => some (arithWord f 2 true false (fun a b _ => a + b))
  | .addRI17 f => some (arithWordI f true (fun a b => a + b))
  | .addRI32 f => some (arithWordL f (fun a b => a + b))
  | .subRRR f => some (arithWord f 2 true false (fun a b _ => a - b))
  | .subRI17 f => some (arithWordI f true (fun a b => a - b))
  | .subRI32 f => some (arithWordL f (fun a b => a - b))
  | .mulRRR f => some (arithWord f 2 true false (fun a b _ => a * b))
  | .mulRI17 f => some (arithWordI f true (fun a b => a * b))
  | .mulRI32 f => some (arithWordL f (fun a b => a * b))
  | .mulh f => some (arithWord f 2 false false (fun a b _ => (a * b).fdiv (2 ^ tyW f.ty.toNat)))
  | .mad f => some (arithWord f 3 true false (fun a b c => a * b + c))
  | .neg f => some (arithWord f 1 true true (fun a _ _ => -a))
  | .abs f => some (arithWord f 1 true true (fun a _ _ => max a (-a)))
  | .minRRR f => some (arithWord f 2 false false (fun a b _ => min a b))
  | .minRI17 f => some (arithWordI f false (fun a b => min a b))
  | .maxRRR f => some (arithWord f 2 false false (fun a b _ => max a b))
  | .maxRI17 f => some (arithWordI f false (fun a b => max a b))
  | .clamp f => some (arithWord f 3 false false (fun a lo hi => min (max a lo) hi))
  | _ => none

/-- ADDX and SUBX (R102): the W-bit sum or difference through predicate c, which takes the carry or borrow out. -/
def carryWord (f : RRR) (sub : Bool) : LocalWord :=
  let t := f.ty.toNat
  let w := tyWide t
  let x (s : State) (a : At) (i : Nat) : Nat := bitsAt s a i t f.a
  let y (s : State) (a : At) (i : Nat) : Nat := bitsAt s a i t f.b
  let c (s : State) (a : At) (i : Nat) : Nat := opdVal s a i f.c 1
  { sp := rrrChecks 3 f { pDst w with p := false } (pSrc w) (pSrc w) pPred (isIntTy t && f.opt.toNat == 0),
    y := fun s a =>
      { d := f.d, n := tyN t,
        v := fun i => putOf t (if sub then (x s a i : Int) - y s a i - c s a i else x s a i + y s a i + c s a i),
        ps := fun i => [(f.c.num, if sub then decide (x s a i < y s a i + c s a i) else decide (2 ^ tyW t ≤ x s a i + y s a i + c s a i))],
        st := fun _ => 0 } }

def carryOf (i : Instr) : Option LocalWord :=
  match i with
  | .addx f => some (carryWord f false)
  | .subx f => some (carryWord f true)
  | _ => none

/-- A word that maps the bit patterns of its operands to a result of its type. -/
def bitsWord (f : RRR) (n : Nat) (v : Nat → Nat → Nat) : LocalWord :=
  let t := f.ty.toNat
  let w := tyWide t
  { sp := rrrChecks 3 f (pDst w) (pSrc w) (if 2 ≤ n then pSrc w else pNone) pNone (isIntTy t && f.opt.toNat == 0),
    y := fun s a => yields f.d (tyN t) (fun i => putOf t (v (bitsAt s a i t f.a) (if 2 ≤ n then bitsAt s a i t f.b else 0)))
      (fun _ => 0) }
def bitsWordI (f : RI17) (v : Nat → Nat → Nat) : LocalWord :=
  let t := f.ty.toNat
  { sp := ri17Checks f (pDst (tyWide t)) (pSrc (tyWide t)) (isIntTy t && f.opt.toNat == 0),
    y := fun s a => yields f.d (tyN t) (fun i => putOf t (v (bitsAt s a i t f.a) (bitsOf t (immOf f)))) (fun _ => 0) }
def bitsWordL (f : RI32) (v : Nat → Nat → Nat) : LocalWord :=
  { sp := ri32Checks f,
    y := fun s a => yields (ri32Dst f) 1 (fun i => putOf 2 (v (bitsAt s a i 2 (ri32A f)) (bitsOf 2 f.imm.toNat))) (fun _ => 0) }

/-- The bits of `x` that are clear in `y`, within W bits. -/
def clearBits (t x y : Nat) : Nat := x &&& (2 ^ tyW t - 1 - y)

/-- Logic (R104). -/
def logicOf (i : Instr) : Option LocalWord :=
  match i with
  | .andRRR f => some (bitsWord f 2 (· &&& ·))
  | .andRI17 f => some (bitsWordI f (· &&& ·))
  | .andRI32 f => some (bitsWordL f (· &&& ·))
  | .orRRR f => some (bitsWord f 2 (· ||| ·))
  | .orRI17 f => some (bitsWordI f (· ||| ·))
  | .orRI32 f => some (bitsWordL f (· ||| ·))
  | .xorRRR f => some (bitsWord f 2 (· ^^^ ·))
  | .xorRI17 f => some (bitsWordI f (· ^^^ ·))
  | .xorRI32 f => some (bitsWordL f (· ^^^ ·))
  | .andnRRR f => some (bitsWord f 2 (clearBits f.ty.toNat))
  | .andnRI17 f => some (bitsWordI f (clearBits f.ty.toNat))
  | .andnRI32 f => some (bitsWordL f (clearBits 2))
  | .not f => some (bitsWord f 1 (fun x _ => 2 ^ tyW f.ty.toNat - 1 - x))
  | _ => none

/-- A shifting word: the count is the 32 bits of b, or the immediate. -/
def shiftWord (f : RRR) (v : Nat → Nat → Nat → Nat) : LocalWord :=
  let t := f.ty.toNat
  let w := tyWide t
  { sp := rrrChecks 3 f (pDst w) (pSrc w) (pSrc false) pNone (isIntTy t && f.opt.toNat == 0),
    y := fun s a => yields f.d (tyN t) (fun i => v t (opdVal s a i f.a (tyN t)) (opdVal s a i f.b 1 % 2 ^ 32)) (fun _ => 0) }
def shiftWordI (f : RI17) (v : Nat → Nat → Nat → Nat) : LocalWord :=
  let t := f.ty.toNat
  { sp := ri17Checks f (pDst (tyWide t)) (pSrc (tyWide t)) (isIntTy t && f.opt.toNat == 0),
    y := fun s a => yields f.d (tyN t) (fun i => v t (opdVal s a i f.a (tyN t)) (immOf f % 2 ^ 32)) (fun _ => 0) }

/-- Shifts and rotates by any count (R105): exact in the integers, then wrapped. -/
def shlVal (t x n : Nat) : Nat := putOf t (wrapTy t (srcOf t x * 2 ^ n))
def shrVal (t x n : Nat) : Nat := putOf t ((srcOf t x).fdiv (2 ^ n))
def rotVal (t x n : Nat) : Nat :=
  putOf t (((bitsOf t x * 2 ^ (n % tyW t)) % 2 ^ tyW t + (bitsOf t x * 2 ^ (n % tyW t)) / 2 ^ tyW t : Nat) : Int)

def shiftOf (i : Instr) : Option LocalWord :=
  match i with
  | .shlRRR f => some (shiftWord f shlVal)
  | .shlRI17 f => some (shiftWordI f shlVal)
  | .shrRRR f => some (shiftWord f shrVal)
  | .shrRI17 f => some (shiftWordI f shrVal)
  | .rotRRR f => some (shiftWord f rotVal)
  | .rotRI17 f => some (shiftWordI f rotVal)
  | _ => none
/-- A counting word writes one 32-bit register (R106). -/
def countWord (f : RRR) (v : Nat → Nat → Nat) : LocalWord :=
  let t := f.ty.toNat
  { sp := rrrChecks 3 f (pDst false) (pSrc (tyWide t)) pNone pNone (isIntTy t && f.opt.toNat == 0),
    y := fun s a => yields f.d 1 (fun i => v (tyW t) (bitsAt s a i t f.a)) (fun _ => 0) }

/-- A bit field of the W-bit pattern `x`, by position and length (R107). -/
def bfxVal (t x spec : Nat) : Nat :=
  let pos := min (slice spec 0 8) (tyW t)
  let len := min (slice spec 8 8) (tyW t - pos)
  let v := slice (bitsOf t x) pos len
  putOf t (if tySigned t ∧ 0 < len ∧ 2 ^ (len - 1) ≤ v then (v : Int) - 2 ^ len else v)

/-- BFI (R107). -/
def bfiVal (t x y spec : Nat) : Nat :=
  let pos := min (slice spec 0 8) (tyW t)
  let len := min (slice spec 8 8) (tyW t - pos)
  let m := (2 ^ len - 1) * 2 ^ pos
  putOf t (((bitsOf t x &&& (2 ^ tyW t - 1 - bitsOf t m)) ||| ((bitsOf t y * 2 ^ pos) &&& m) : Nat) : Int)

/-- Counts, bit fields and byte selection (R106, R107, R108). -/
def fieldOf (i : Instr) : Option LocalWord :=
  match i with
  | .clz f => some (countWord f leadZeros)
  | .ctz f => some (countWord f trailZeros)
  | .popc f => some (countWord f popCount)
  | .brev f => some (bitsWord f 1 (fun x _ => bitRev (tyW f.ty.toNat) x))
  | .bfxRRR f => some (shiftWord f bfxVal)
  | .bfxRI17 f =>
    let t := f.ty.toNat
    some { sp := ri17Checks f (pDst (tyWide t)) (pSrc (tyWide t)) (isIntTy t && f.opt.toNat == 0 && !f.imm.getLsbD 16),
           y := fun s a => yields f.d (tyN t) (fun i => bfxVal t (opdVal s a i f.a (tyN t)) (f.imm.toNat % 2 ^ 16)) (fun _ => 0) }
  | .bfi f =>
    let t := f.ty.toNat
    let w := tyWide t
    some { sp := rrrChecks 3 f (pDst w) (pSrc w) (pSrc w) (pSrc false) (isIntTy t && f.opt.toNat == 0),
           y := fun s a => yields f.d (tyN t)
             (fun i => bfiVal t (opdVal s a i f.a (tyN t)) (opdVal s a i f.b (tyN t)) (opdVal s a i f.c 1)) (fun _ => 0) }
  | .bswz f =>
    some { sp := rrrChecks 3 f (pDst false) (pSrc false) (pSrc false) (pSrc false) (f.ty.toNat == 6 && f.opt.toNat == 0),
           y := fun s a => yields f.d 1 (fun i => vBswz (opdVal s a i f.a 1) (opdVal s a i f.b 1) (opdVal s a i f.c 1)) (fun _ => 0) }
  | _ => none

/-- A comparing word (R109). -/
def cmpYield (d : Opd) (cc : Nat) (x y : Nat → Int) : Yield :=
  yields d 1 (fun i => if (match cc with
    | 0 => x i = y i | 1 => x i ≠ y i | 2 => x i < y i | 3 => x i ≤ y i | 4 => y i < x i | _ => y i ≤ x i : Bool) then 1 else 0) (fun _ => 0)

/-- Selection, comparison, moves and addresses (R109, R110, R111). -/
def moveOf (i : Instr) : Option LocalWord :=
  match i with
  | .sel f =>
    let t := f.ty.toNat
    let w := tyWide t
    some { sp := rrrChecks 3 f (pDst w) (pSrc w) (pSrc w) pPred (isIntTy t && f.opt.toNat == 0),
           y := fun s a => yields f.d (tyN t)
             (fun i => putOf t (if pRead a.crew i f.c.num then srcAt s a i t f.a else srcAt s a i t f.b)) (fun _ => 0) }
  | .cmpRRR f =>
    let t := f.ty.toNat
    some { sp := rrrChecks 3 f (pDst false) (pSrc (tyWide t)) (pSrc (tyWide t)) pNone (isIntTy t && decide (f.opt.toNat < 6)),
           y := fun s a => cmpYield f.d f.opt.toNat (fun i => srcAt s a i t f.a) (fun i => srcAt s a i t f.b) }
  | .cmpRI17 f =>
    let t := f.ty.toNat
    some { sp := ri17Checks f (pDst false) (pSrc (tyWide t)) (isIntTy t && decide (f.opt.toNat < 6)),
           y := fun s a => cmpYield f.d f.opt.toNat (fun i => srcAt s a i t f.a) (fun _ => srcOf t (immOf f)) }
  | .mov f =>
    let t := f.ty.toNat
    let w := tyWide t
    some { sp := rrrChecks 3 f (pDst w) (pSrc w) pNone pNone (isIntTy t && f.opt.toNat == 0),
           y := fun s a => yields f.d (tyN t) (fun i => putOf t (srcAt s a i t f.a)) (fun _ => 0) }
  | .leaRRR f =>
    let t := f.ty.toNat
    some { sp := rrrChecks 3 f (pDst true) (pSrc true) (pSrc (tyWide t)) pNone
             ((t == 2 || t == 6 || t == 3 || t == 7) && decide (f.opt.toNat < 8)),
           y := fun s a => yields f.d 2
             (fun i => wrapNat 64 (opdVal s a i f.a 2 + srcAt s a i t f.b * 2 ^ f.opt.toNat)) (fun _ => 0) }
  | .leaRI17 f =>
    some { sp := ri17Checks f (pDst true) (pSrc true) (f.ty.toNat == 2 && decide (f.opt.toNat < 8)),
           y := fun s a => yields f.d 2
             (fun i => wrapNat 64 (opdVal s a i f.a 2 + srcOf 2 (immOf f) * 2 ^ f.opt.toNat)) (fun _ => 0) }
  | .movi f =>
    some { sp := { port := some 3, ct := false, gd := f.gd, plain := false, priv := false,
                   legal := fun w => posOk w (pDst false) (ri32Dst f) && f.a == 0, regs := posRegs (pDst false) (ri32Dst f) },
           y := fun _ _ => yields (ri32Dst f) 1 (fun _ => f.imm.toNat) (fun _ => 0) }
  | .movk f =>
    some { sp := ri17Checks f (pDst false) pNone (f.ty.toNat == 6 && f.opt.toNat == 0),
           y := fun s a => yields f.d 1 (fun i =>
             let old := opdVal s a i f.d 1
             let half := f.imm.toNat % 2 ^ 16
             if f.imm.getLsbD 16 then slice old 0 16 + half * 2 ^ 16 else half + slice old 16 16 * 2 ^ 16) (fun _ => 0) }
  | _ => none

/-- A word over predicates (R112). -/
def predsWord (f : RRR) (two : Bool) (v : Bool → Bool → Bool) : LocalWord :=
  { sp := rrrChecks 3 f pPred pPred (if two then pPred else pNone) pNone (f.ty.toNat == 0 && f.opt.toNat == 0),
    y := fun _ a => yields f.d 1 (fun i => bNat (v (pRead a.crew i f.a.num) (pRead a.crew i f.b.num))) (fun _ => 0) }

/-- Predicate words, and the two that do nothing or read masks (R112, R118, R121). -/
def predOf (i : Instr) : Option LocalWord :=
  match i with
  | .pand f => some (predsWord f true (· && ·))
  | .por f => some (predsWord f true (· || ·))
  | .pxor f => some (predsWord f true (fun x y => x != y))
  | .pnot f => some (predsWord f false (fun x _ => !x))
  | .p2g f =>
    some { sp := rrrChecks 3 f (pDst false) (pSrc false) pNone pNone (f.ty.toNat == 6 && f.opt.toNat == 0),
           y := fun s a => yields f.d 1 (fun i => predWord a.crew i &&& slice (opdVal s a i f.a 1) 0 16) (fun _ => 0) }
  | .g2p f =>
    some { sp := rrrChecks 3 f pNone (pSrc false) (pSrc false) pNone (f.ty.toNat == 6 && f.opt.toNat == 0),
           y := fun s a => { d := { cls := .s, num := 0 }, n := 1, v := fun _ => 0, st := fun _ => 0,
                             ps := fun i => ((List.range 15).filter (fun j => tb (opdVal s a i f.b 1) j)).map
                               (fun j => (j, tb (opdVal s a i f.a 1) j)) } }
  | .active f =>
    some { sp := rrrChecks 0 f { pDst false with p := false } pNone pNone pNone (f.ty.toNat == 0 && decide (f.opt.toNat < 2)),
           y := fun _ a => yields f.d 1
             (fun _ => if f.opt.toNat = 1 then a.crew.live.toNat else (slotsMask (active a f.gd)).toNat) (fun _ => 0) }
  | .nop f =>
    some { sp := rrrChecks 0 f pNone pNone pNone pNone (f.ty.toNat == 0 && f.opt.toNat == 0),
           y := fun _ _ => yields { cls := .s, num := 0 } 1 (fun _ => 0) (fun _ => 0) }
  | _ => none

/-! Floating point. -/

/-- A float word of one rounding (R146). -/
def floatWord (f : RRR) (n : Nat) (op : FVal → FVal → FVal → FVal × Bool) : LocalWord :=
  let t := fmtOfTy f.ty.toNat
  let r (s : State) (a : At) (i : Nat) : Rounded :=
    roundRes t (rmodeOf f.opt.toNat) (op (fOpd t (opdVal s a i f.a 1)) (fOpd t (if 2 ≤ n then opdVal s a i f.b 1 else 0))
      (fOpd t (if 3 ≤ n then opdVal s a i f.c 1 else 0)))
  { sp := rrrChecks 3 f (pDstG false) pGks (if 2 ≤ n then pGks else pNone) (if 3 ≤ n then pGks else pNone)
      (decide (8 ≤ f.ty.toNat) && decide (f.ty.toNat ≤ 10) && decide (f.opt.toNat < 3)),
    y := fun s a => yields f.d 1 (fun i => (r s a i).code) (fun i => (r s a i).sticky) }

/-- A packed word: two elements, each rounded on its own (R151). -/
def packedWord (f : RRR) (n : Nat) (op : FVal → FVal → FVal → FVal × Bool) : LocalWord :=
  let t := fmtOfTy f.ty.toNat
  let r (s : State) (a : At) (i e : Nat) : Rounded :=
    roundRes t (rmodeOf f.opt.toNat) (op (fpVal t (half (opdVal s a i f.a 1) e))
      (fpVal t (half (opdVal s a i f.b 1) (bSel (slice f.opt.toNat 2 2) e))) (fpVal t (half (if 3 ≤ n then opdVal s a i f.c 1 else 0) e)))
  { sp := rrrChecks 3 f (pDstG false) pGks pGks (if 3 ≤ n then pGks else pNone)
      ((f.ty.toNat == 9 || f.ty.toNat == 10) && decide (f.opt.toNat < 16) && decide (f.opt.toNat % 4 < 3)),
    y := fun s a => yields f.d 1 (fun i => (r s a i 0).code + (r s a i 1).code * 2 ^ 16)
      (fun i => (r s a i 0).sticky ||| (r s a i 1).sticky) }

/-- A word over the codes of one float type, with no sticky bit. -/
def codesWord (f : RRR) (n : Nat) (d : Pos) (ok : Bool) (v : FpFmt → Nat → Nat → Nat) : LocalWord :=
  let t := fmtOfTy f.ty.toNat
  { sp := rrrChecks 3 f d pGks (if 2 ≤ n then pGks else pNone) pNone ok,
    y := fun s a => yields f.d 1
      (fun i => v t (fBits t (opdVal s a i f.a 1)) (fBits t (if 2 ≤ n then opdVal s a i f.b 1 else 0))) (fun _ => 0) }

/-- Floating-point words whose results stand at once (R146-R151). -/
def floatOf (i : Instr) : Option LocalWord :=
  match i with
  | .fadd f => some (floatWord f 2 (fun a b _ => fAdd a b))
  | .fsub f => some (floatWord f 2 (fun a b _ => fAdd a (fNeg b)))
  | .fmul f => some (floatWord f 2 (fun a b _ => fMul a b))
  | .ffma f => some (floatWord f 3 fFma)
  | .hpadd f => some (packedWord f 2 (fun a b _ => fAdd a b))
  | .hpmul f => some (packedWord f 2 (fun a b _ => fMul a b))
  | .hpfma f => some (packedWord f 3 fFma)
  | .fmin f => some (codesWord f 2 (pDstG false) (isFTy f.ty.toNat && f.opt.toNat == 0) (fun t x y => fPick t false x y))
  | .fmax f => some (codesWord f 2 (pDstG false) (isFTy f.ty.toNat && f.opt.toNat == 0) (fun t x y => fPick t true x y))
  | .fcmp f => some (codesWord f 2 (pDst false) (isFTy f.ty.toNat && decide (f.opt.toNat < 8))
      (fun t x y => bNat (fCmpHolds f.opt.toNat (fpVal t x) (fpVal t y))))
  | .fclass f => some (codesWord f 1 (pDstG false) (isFTy8 f.ty.toNat && f.opt.toNat == 0) (fun t x _ => 2 ^ fClassBit t x))
  | .frnd f =>
    let t := fmtOfTy f.ty.toNat
    some { sp := rrrChecks 3 f (pDstG false) pGks pNone pNone (isFTy f.ty.toNat && decide (f.opt.toNat < 3)),
           y := fun s a => yields f.d 1 (fun i => (fRound t (rmodeOf f.opt.toNat) (fBits t (opdVal s a i f.a 1))).code)
             (fun i => (fRound t (rmodeOf f.opt.toNat) (fBits t (opdVal s a i f.a 1))).sticky) }
  | _ => none

/-! Words of variable latency. -/

/-- The quotient and the remainder of a division (R103). -/
def quotRem (t : Nat) (a b : Int) : Int × Int :=
  if b = 0 then (0, 0) else if tySigned t ∧ a = tyLo t ∧ b = -1 then (tyLo t, 0) else (a.tdiv b, a.tmod b)

def divWord (f : RRR) (pick : Int × Int → Int) : LocalWord :=
  let t := f.ty.toNat
  let w := tyWide t
  { sp := rrrChecks 2 f (pDst w) (pSrc w) (pSrc w) pNone (isIntTy t && f.opt.toNat == 0),
    y := fun s a => yields f.d (tyN t) (fun i => putOf t (pick (quotRem t (srcAt s a i t f.a) (srcAt s a i t f.b))))
      (fun i => if srcAt s a i t f.b = 0 then stDivZero else 0) }

/-- A special function of one .f32 operand (R156). -/
def specialWord (f : RRR) (out : FVal → Rounded) : LocalWord :=
  { sp := rrrChecks 2 f (pDstG false) pGks pNone pNone (f.ty.toNat == 8 && f.opt.toNat == 0),
    y := fun s a => yields f.d 1 (fun i => (out (fpVal fp32 (opdVal s a i f.a 1))).code)
      (fun i => (out (fpVal fp32 (opdVal s a i f.a 1))).sticky) }

/-- A converting word: the rounding mode in options [1:0], the seed in c under RSTOCH (R144). -/
def convWord (f : RRR) (d a : Pos) (ok : Bool) (v st : RMode → Nat → Nat → Nat) : LocalWord :=
  let m := rmodeOf f.opt.toNat
  let c : Pos := if m = .rs then pGks else pNone
  { sp := rrrChecks 2 f d a pNone c ok,
    y := fun s w =>
      let dith (i : Nat) : Nat := dither (opdVal s w i f.c c.n) i
      yields f.d (if d.n = 2 then 2 else 1) (fun i => v m (dith i) (opdVal s w i f.a a.n)) (fun i => st m (dith i) (opdVal s w i f.a a.n)) }

def laterOf (i : Instr) : Option LocalWord :=
  match i with
  | .div f => some (divWord f Prod.fst)
  | .rem f => some (divWord f Prod.snd)
  | .rcp f => some (specialWord f rcpOut)
  | .rsq f => some (specialWord f rsqOut)
  | .sqrt f => some (specialWord f sqrtOut)
  | .exp2 f => some (specialWord f exp2Out)
  | .log2 f => some (specialWord f log2Out)
  | .sin f => some (specialWord f sinOut)
  | .cos f => some (specialWord f cosOut)
  | .tanh f => some (specialWord f tanhOut)
  | .fcvt f =>
    let r (m : RMode) (dith x : Nat) : Rounded := roundFp (fmtOfTy f.ty.toNat) m dith (xfVal (slice f.opt.toNat 2 3) x)
    some (convWord f (pDstG false) pGks (isFTy8 f.ty.toNat && decide (slice f.opt.toNat 2 3 < 6))
      (fun m dith x => (r m dith x).code) (fun m dith x => (r m dith x).sticky))
  | .f2i f =>
    let t := f.ty.toNat
    let r (m : RMode) (dith x : Nat) : Int × Nat := toInt m dith (tyLo t) (tyHi t) (xfVal (slice f.opt.toNat 2 3) x)
    some (convWord f (pDst (tyWide t)) pGks (isIntTy t && decide (slice f.opt.toNat 2 3 < 6))
      (fun m dith x => putOf t (r m dith x).1) (fun m dith x => (r m dith x).2))
  | .i2f f =>
    let xt := slice f.opt.toNat 2 3
    let r (m : RMode) (dith x : Nat) : Rounded := roundFp (fmtOfTy f.ty.toNat) m dith (ofInt (srcOf xt x))
    some (convWord f (pDstG false) (pSrc (tyWide xt)) (isFTy8 f.ty.toNat)
      (fun m dith x => (r m dith x).code) (fun m dith x => (r m dith x).sticky))
  | .pack8 f =>
    some { sp := rrrChecks 2 f (pDstG false) pGks pGks pNone (f.ty.toNat == 0 && decide (f.opt.toNat < 4)),
           y := fun s a => yields f.d 1 (fun i =>
             let k := 8 * f.opt.toNat
             let b := opdVal s a i f.b 1
             b % 2 ^ k + slice (opdVal s a i f.a 1) 0 8 * 2 ^ k + b / 2 ^ (k + 8) * 2 ^ (k + 8)) (fun _ => 0) }
  | .unpack8 f =>
    let r (x : Nat) : Rounded := roundFp fp32 .rne 0 (fpVal (fmtOfTy f.ty.toNat) (slice x (8 * f.opt.toNat) 8))
    some { sp := rrrChecks 2 f (pDstG false) pGks pNone pNone ((f.ty.toNat == 11 || f.ty.toNat == 12) && decide (f.opt.toNat < 4)),
           y := fun s a => yields f.d 1 (fun i => (r (opdVal s a i f.a 1)).code) (fun i => (r (opdVal s a i f.a 1)).sticky) }
  | _ => none

/-! Control (R113 to R126, R136 to R139, R54). -/

/-- A word that yields nothing. -/
def noYield : Yield := yields { cls := .s, num := 0 } 1 (fun _ => 0) (fun _ => 0)

/-- `t` is `u` with batch `a.bi` past its word, and nothing else changed. -/
def Onward (u t : State) (a : At) : Prop := Later u t a [] noYield

/-- Crew `c'` is `c` after batch `bi`, whose clause has header `h`, has left its place and each fibre of `l` stands at the header that
`tgt` names, fibres with one address in one batch (R116, R117); a clause that drains takes the crew out of the memory set (R271), one
with YIELD makes it yield (R40). -/
structure Moved (bi : Nat) (h : W64) (l : List Nat) (tgt : Nat → Nat) (c c' : Crew) : Prop where
  batches : ∃ new, c'.batches = delAt c.batches bi ++ new ∧ (new.map (·.header)).Nodup
    ∧ (∀ b ∈ new, b.begun = false ∧ ∀ i, b.mask.getLsbD i = true → i ∈ l ∧ tgt i = b.header)
    ∧ (∀ i ∈ l, ∃ b ∈ new, b.mask.getLsbD i = true)
  rest : { c' with batches := c.batches, cur := c.cur, mem := c.mem, memRow := c.memRow, yields := c.yields } = c
  memset : (c'.mem, c'.memRow) = if hdrDrain h then (false, 0) else (c.mem, c.memRow)
  yield : c'.yields = (c.yields || hdrYield h)

/-- The crew traps at the word of `a`: `t` is `s` with the batch out of its list and a fault of kind `k`, with the word's address, for
each fibre of `l`; nothing is written (R355, R356). -/
def Faulted (s t : State) (a : At) (l : List Nat) (k : FKind) : Prop :=
  ∃ c' tw, t = onCrew s a.ref a.team (clusterOf s a.ref.cl).rf c'
    ∧ c'.batches = delAt a.crew.batches a.bi ∧ c'.trapWait = a.crew.trapWait ++ [tw]
    ∧ tw.faults = l.map (fun j => (j, { fault k with pc := a.pc }))
    ∧ tw.batch = { a.b with wait := .none } ∧ tw.moved = [] ∧ tw.t = a.pc ∧ tw.atHeader = false
    ∧ { c' with batches := a.crew.batches, trapWait := a.crew.trapWait, cur := a.crew.cur } = a.crew

/-- A control transfer: what it needs, its target for the fibre in a slot, and its link register. -/
structure TransferWord where
  sp : WordSpec
  target : State → At → Nat → Nat
  link : Option Nat

def brChecks (f : BRF) (ct : Bool) (legal : Nat → Bool) (regs : List (Opd × Nat)) : WordSpec :=
  { port := some 0, ct := ct, gd := f.gd, plain := false, legal := legal, priv := false, regs := regs }

/-- The address of the word plus eight times its signed 32-bit offset (R47). -/
def brAddr (a : At) (f : BRF) : Nat := wrapNat 64 ((a.pc : Int) + 8 * sext 32 f.off.toNat)

/-- The five transfers that name a target (R116). -/
def transferOf (i : Instr) : Option TransferWord :=
  let indirect (f : RRR) (d : Pos) (link : Option Nat) : TransferWord :=
    { sp := rrrSpec { port := 0, d := d, a := pSrc true, b := pNone, c := pNone, ty := f.ty.toNat == 0, opt := noOpt f.opt.toNat }
        f true false false,
      target := fun s a i => opdVal s a i f.a 2, link := link }
  match i with
  | .bra f => some { sp := brChecks f true (fun _ => f.rsv == 0#9 && f.link == 0) [], target := fun _ a _ => brAddr a f, link := none }
  | .call f =>
    some { sp := brChecks f true (fun w => f.rsv == 0#9 && f.link % 2 == 0 && decide (f.link + 1 < w)) [({ cls := .g, num := f.link }, 2)],
           target := fun _ a _ => brAddr a f, link := some f.link }
  | .brx f => some (indirect f pNone none)
  | .callx f => some (indirect f { n := 2, g := true, k := false, p := false, sp := [] } (some f.d.num))
  | .ret f => some (indirect f pNone none)
  | _ => none

/-- A target of R43 that the cluster holds at hand: a multiple of 8 in an executable page of both TLBs, its line in the instruction
cache, with the tag of a header there. -/
structure WarmTarget (s : State) (a : At) (t : Nat) : Prop where
  aligned : t % 8 = 0
  low : t < 2 ^ 57
  held : ∃ (e : TlbEntry) (d : BitVec 512), tlbHit (clusterOf s a.ref.cl).tlb a.ctx t = some e ∧ e ∈ (dieOf s (dieNo a.ref.cl)).tlb
    ∧ e.ex = true ∧ look (clusterOf s a.ref.cl).icache (locOf e t / 64 * 64) = some d
    ∧ hdrTag (BitVec.ofNat 64 (d.toNat / 2 ^ (8 * (locOf e t % 64)))) = 0xA

/-- The slots that `n` fibres' FSPAWN starts: the lowest FREE ones, as far as there are any (R119). -/
def freshSlots (c : Crew) (n : Nat) : List Nat := ((List.range 32).filter (fun j => !c.live.getLsbD j)).take n

/-- The checks of FEND. -/
def fendChecks (f : RRR) : WordSpec :=
  rrrSpec { port := 0, d := pNone, a := pNone, b := pNone, c := pNone, ty := f.ty.toNat == 0, opt := noOpt f.opt.toNat } f true false false

/-- The checks of JOIN. -/
def joinChecks (f : RRR) : WordSpec :=
  rrrSpec { port := 0, d := pNone, a := pMask, b := pNone, c := pNone, ty := f.ty.toNat == 0, opt := noOpt f.opt.toNat } f true true false

/-- The batch parks at the group of this word and mask, of the handler or of the user's code (R126, R357); the crew leaves the memory
set (R271). -/
def parked (s : State) (a : At) (m : W32) (i : Instr) : State :=
  updCrew s a.ref (fun c => { c with
    groups := (match placeOf (fun g => g.addr == a.pc && g.mask == m && g.handler == a.b.handler) c.groups with
      | some j => modAt c.groups j (fun g => { g with arrivals := g.arrivals ||| a.b.mask })
      | none => c.groups ++ [{ addr := a.pc, mask := m, arrivals := a.b.mask, since := s.cycle, ins := i, handler := a.b.handler, late := false }]),
    cur := none, mem := false, memRow := 0, batches := modAt c.batches a.bi (fun b => { b with wait := .group a.pc m }) })

/-- A gathering word: what it needs, and its mask operand (R126). -/
def gatherOf (i : Instr) : Option (WordSpec × Opd) :=
  match i with
  | .join f => some (joinChecks f, f.a)
  | i => (crossOf i).map (fun x => (x.2, x.1.c))

/-- The crew after the batch of `a` alone has gathered: it stands last in the list, ready at its word, out of the memory set. -/
def regathered (s : State) (a : At) : Crew :=
  { a.crew with batches := delAt a.crew.batches a.bi ++ [readyAt s.cycle a.b], cur := none, mem := false, memRow := 0 }
/-- The state and place after that. -/
def regatheredState (s : State) (a : At) : State := updCrew s a.ref (fun _ => regathered s a)
def regatheredAt (s : State) (a : At) : At :=
  { a with bi := (delAt a.crew.batches a.bi).length, crew := regathered s a,
           team := { a.team with crews := modAt a.team.crews a.ref.cr (fun _ => regathered s a) },
           b := readyAt s.cycle a.b }

/-- Every LIVE fibre that the mask names is in the issuing batch, every fibre of the batch is named, none is in a trapped batch,
no group of its kind is open at the word, and in a trap the batch is the handler's: the group completes at once (R126, R357). -/
structure GathersAlone (a : At) (m : W32) : Prop where
  named : a.b.mask &&& ~~~m = 0#32
  here : m &&& a.crew.live = a.b.mask
  lone : ∀ g ∈ a.crew.groups, ¬ (g.addr = a.pc ∧ g.mask = m ∧ g.handler = a.b.handler)
  free : a.b.mask &&& trappedMask a.crew = 0#32
  open_ : ∀ b ∈ a.crew.batches, ¬ (b.wait = .group a.pc m ∧ b.handler = a.b.handler)
  view : a.b.handler = a.crew.trap.isSome

/-- The fold of REDUX and SCAN over operand values in slot order, with its sticky bits (R129): an exact sum, the least or greatest,
bits of all, of any, of an odd number; in .f32 a running sum, each step rounded, or FMIN or FMAX step by step. None of them is the
op's identity; one alone makes no step, so that a NaN stays as it is (log 50). -/
def foldOut (op t : Nat) (sat : Bool) (l : List Nat) : Nat × Nat :=
  if t = 8 then
    match l with
    | [] => (match op with | 0 => 0 | 1 => 0x7F800000 | _ => 0xFF800000, 0)
    | v :: r => match op with
      | 0 => r.foldl (fun acc y => let x := roundRes fp32 .rne (fAdd (fpVal fp32 acc.1) (fpVal fp32 y)); (x.code, acc.2 ||| x.sticky))
          (v % 2 ^ 32, 0)
      | 1 => (r.foldl (fPick fp32 false) (v % 2 ^ 32), 0)
      | _ => (r.foldl (fPick fp32 true) (v % 2 ^ 32), 0)
  else
    let xs := l.map (srcOf t)
    let bs := l.map (bitsOf t)
    match op with
    | 0 => (putOf t (if sat then satTy t xs.sum else xs.sum), if sat && decide (satTy t xs.sum ≠ xs.sum) then stSat else 0)
    | 1 => (putOf t (xs.min?.getD (tyHi t)), 0)
    | 2 => (putOf t (xs.max?.getD (tyLo t)), 0)
    | 3 => (putOf t ((bs.foldr (· &&& ·) (2 ^ tyW t - 1) : Nat) : Int), 0)
    | 4 => (putOf t ((bs.foldr (· ||| ·) 0 : Nat) : Int), 0)
    | _ => (putOf t ((bs.foldr (· ^^^ ·) 0 : Nat) : Int), 0)

/-- MXQ's word for the fibre in slot `j` of the block `e`, with its sticky bits (R79, R155): a special input anywhere gives scale
0xFF and code 0; else the scale is the greatest exponent less 2, clamped, 0 for a block of zeros, and the code the element over
the scale, rounded once to E2M1. -/
def blockWord (mode : RMode) (e : W32) (av bv : Nat → Nat) (j : Nat) : Nat × Nat :=
  let x (k : Nat) : FVal := fpVal fp32 (av k)
  if (maskSlots e).any (fun k => match x k with | .fin _ _ _ => false | _ => true) then (0xFF * 2 ^ 8, stNv)
  else
    let logs : List Int := (maskSlots e).filterMap (fun k => match x k with
      | .fin _ m p => if m = 0 then none else some ((m.log2 : Int) + p)
      | _ => none)
    let c : Int := match logs.max? with | none => 0 | some l => max 0 (min 254 (l - 2 + 127))
    match x j with
    | .fin n m p =>
      let r := roundFp e2m1 mode (dither (bv j) j) (.fin n m (p - (c - 127)))
      (c.toNat * 2 ^ 8 + r.code, r.sticky)
    | _ => (c.toNat * 2 ^ 8, stNv)

/-- What each cross-lane word yields for the fibre in a slot, over the effective mask `e`; `n` registers (R127 to R131). -/
def crossYield (i : Instr) (s : State) (a : At) (e : W32) : Option (RRR × Yield) :=
  let sl := maskSlots e
  match i with
  | .lxch f =>
    let t := f.ty.toNat
    let v (j : Nat) : Nat := putOf t (srcOf t (opdVal s a j f.a (tyN t)))
    some (f, yields f.d (tyN t) (fun j =>
      let b := opdVal s a j f.b 1
      let src : Int := match f.opt.toNat with
        | 0 => b % 32
        | 1 => (j + b % 32) % 32
        | 2 => (j : Int) + sext 6 b
        | _ => (j ^^^ (b % 32) : Nat)
      if 0 ≤ src ∧ src ≤ 31 ∧ e.getLsbD src.toNat = true then v src.toNat else v j) (fun _ => 0))
  | .vote f =>
    let yes := (sl.filter (fun j => opdVal s a j f.a 1 != 0)).length
    some (f, yields f.d 1 (fun _ => match f.opt.toNat with
      | 0 => if yes = sl.length then 1 else 0
      | 1 => if 0 < yes then 1 else 0
      | 2 => if yes = 0 ∨ yes = sl.length then 1 else 0
      | 3 => yes
      | _ => if sl.length < 2 * yes then 1 else 0) (fun _ => 0))
  | .ballot f =>
    some (f, yields f.d 1 (fun _ => (slotsMask (sl.filter (fun j => opdVal s a j f.a 1 != 0))).toNat) (fun _ => 0))
  | .matchq f =>
    let t := f.ty.toNat
    some (f, yields f.d 1 (fun j => (slotsMask (sl.filter (fun l =>
      opdVal s a l f.a (tyN t) % 2 ^ tyW t == opdVal s a j f.a (tyN t) % 2 ^ tyW t))).toNat) (fun _ => 0))
  | .redux f =>
    let r := foldOut (f.opt.toNat % 8) f.ty.toNat (tb f.opt.toNat 4) (sl.map (fun j => opdVal s a j f.a (tyN f.ty.toNat)))
    some (f, yields f.d (tyN f.ty.toNat) (fun _ => r.1) (fun _ => r.2))
  | .scan f =>
    let r (i : Nat) := foldOut (f.opt.toNat % 8) f.ty.toNat (tb f.opt.toNat 4)
      ((sl.filter (fun j => if tb f.opt.toNat 3 then decide (j < i) else decide (j ≤ i))).map
        (fun j => opdVal s a j f.a (tyN f.ty.toNat)))
    some (f, yields f.d (tyN f.ty.toNat) (fun i => (r i).1) (fun i => (r i).2))
  | _ => none

/-- The pending results of MXQ: the lowest fibre's, with the effective mask where c is a k-register, then the others' (R126, R155). -/
def mxqPends (f : RRR) (e : W32) (l : List (Nat × Nat)) : List Pend :=
  laterPends f.d 1 (l.take 1) ++ (if f.c.cls = .k then [{ dst := .k f.c.num, val := some e, ready := true }] else [])
    ++ (if f.d.cls = .g then laterPends f.d 1 (l.drop 1) else [])

/-- A batch that waits, with its clause suspended or not; a suspended one takes the crew out of the memory set (R122, R271). -/
def Waits (s : State) (a : At) (w : Waiting) (suspend : Bool) : State :=
  updCrew s a.ref (fun c => { c with batches := modAt c.batches a.bi (fun b => { b with wait := w }),
                                     cur := if suspend then none else c.cur, mem := !suspend && c.mem,
                                     memRow := if suspend then 0 else c.memRow })

/-- A word of port E with no type and no option. -/
def ctlChecks (f : RRR) (d a b : Pos) (plain : Bool) : WordSpec :=
  rrrSpec { port := 0, d := d, a := a, b := b, c := pNone, ty := f.ty.toNat == 0, opt := noOpt f.opt.toNat } f false plain false

/-- No batch of the crew waits at a barrier. -/
def noBarrier (c : Crew) : Prop := ∀ b ∈ c.batches, (∀ id, atBar id b = false) ∧ atGbar b = false

/-! REP, fusion and LAUNCH (R54 to R58, R132 to R135). -/

/-- The words of the tables above that stand at once. -/
def localOf (i : Instr) : Option LocalWord :=
  match arithOf i, carryOf i, logicOf i, shiftOf i, fieldOf i, moveOf i, predOf i, floatOf i with
  | some w, _, _, _, _, _, _, _ => some w
  | _, some w, _, _, _, _, _, _ => some w
  | _, _, some w, _, _, _, _, _ => some w
  | _, _, _, some w, _, _, _, _ => some w
  | _, _, _, _, some w, _, _, _ => some w
  | _, _, _, _, _, some w, _, _ => some w
  | _, _, _, _, _, _, some w, _ => some w
  | _, _, _, _, _, _, _, w => w

/-- The checks of LAUNCH. -/
def launchChecks (f : ENG) : WordSpec :=
  { port := some 0, ct := false, gd := f.gd, plain := false, priv := false,
    legal := fun w => decide (f.st < w) && f.src == 0 && flagOk f.fa.toNat && f.fb == 15#4 && !f.rsv, regs := [(engReg f.st, 1)], rel := true }

/-! Words that each fibre runs in slot order (R166, R179). -/

/-- A word whose fibres run in slot order: what it needs, whether it stalls, a fibre's run, whether the lowest fibre alone runs, and
what the word does after its fibres. -/
structure EachWord where
  sp : WordSpec
  stall : State → At → List Nat → Bool
  run : At → Nat → State → State × FOut
  lowest : Bool
  after : At → State → List (Nat × FOut) → State := fun _ s _ => s

def never : State → At → List Nat → Bool := fun _ _ _ => false

/-- The fibres' runs. -/
def EachWord.runs (w : EachWord) (a : At) (act : List Nat) (s : State) : State × List (Nat × FOut) :=
  let r := if w.lowest then lowestOnly (w.run a) act s else eachFibre (w.run a) act s
  (w.after a r.1 r.2, r.2)

/-- Atomics: type codes, the operation's number for a peer (R399), and the new value from old, b and c (R171, R172). -/
def atomicOf (i : Instr) : Option (AMO × List Nat × Bool × Nat × (Nat → Nat → Nat → Nat)) :=
  let int (f : AMO) (no : Nat) (v : Int → Int → Int) : Option (AMO × List Nat × Bool × Nat × (Nat → Nat → Nat → Nat)) :=
    some (f, [2, 6, 3, 7], false, no, fun old b _ => wrapNat (tyW f.ty.toNat) (v (srcOf f.ty.toNat old) (srcOf f.ty.toNat b)))
  match i with
  | .aadd f => int f 0 (· + ·)
  | .amin f => int f (if tySigned f.ty.toNat then 9 else 2) (fun x y => if y < x then y else x)
  | .amax f => int f (if tySigned f.ty.toNat then 10 else 3) (fun x y => if x < y then y else x)
  | .aand f => some (f, [6, 7], false, 4, fun old b _ => old &&& b)
  | .aor f => some (f, [6, 7], false, 5, fun old b _ => old ||| b)
  | .axor f => some (f, [6, 7], false, 6, fun old b _ => old ^^^ b)
  | .axchg f => some (f, [6, 7], false, 7, fun _ b _ => b)
  | .acas f => some (f, [6, 7], true, 8, fun old b c => if old % 2 ^ tyW f.ty.toNat = c % 2 ^ tyW f.ty.toNat then b else old)
  | .afadd f => some ({ f with ty := 6#4 }, if f.ty = 8#4 then [6] else [], false, 1,
      fun old b _ => (roundRes fp32 .rne (fAdd (fpVal fp32 old) (fpVal fp32 b))).code)
  | _ => none

/-- A PAD access of an atomic touches a byte range in flight (R310). -/
def atomicStalls (f : AMO) (s : State) (a : At) (act : List Nat) : Bool :=
  let x : Acc := { kind := .atomic, n := memBytes f.ty.toNat, pol := .normal }
  f.pad && act.any (fun i => match (amoAcc s a i f x).2 with
    | .ok (.pad off) => padBlocked a.team off (off + x.n - 1) true
    | _ => false)

/-- The words whose results are pending when they have gone on. -/
def pendingOf (i : Instr) : Option EachWord :=
  let mem (f : MEM) (sc : Bool) : EachWord :=
    { sp := memSpec f sc false, run := loadFibre f sc, lowest := sc,
      stall := fun s a l => memStalls s a f { kind := .load, n := memBytes f.ty.toNat, pol := .normal } (if sc then l.take 1 else l) }
  let range (f : RRR) (g : At → Nat → Nat → State → State × Except FaultInfo Nat) : EachWord :=
    { sp := rangeSpec f, stall := fun s a _ => turnHeld s a, lowest := false,
      run := fun a i s => match g a (opdVal s a i f.a 2) (opdVal s a i f.b 1) s with
        | (t, .ok v) => (t, outRes f.d 1 v)
        | (t, .error e) => (t, .bad e) }
  let own (f : RRR) (n : Nat) (ok : Bool) (g : At → Nat → State → State × FOut) : EachWord :=
    { sp := ownSpec f n ok true, stall := never, lowest := false, run := g }
  match i with
  | .ld f => some (mem f false)
  | .lds f => some (mem f true)
  | .cinv f => some (range f cinvRun)
  | .clock f => some (range f (fun a lo n s => clockRun a (lineCount lo n) lo 0 0 s))
  | .cunlock f => some (range f (fun a => markLines (fun e => e.lock == some a.ref.ts) (fun e => { e with lock := none }) a))
  | .cdemote f => some (range f (markLines (·.keep) (fun e => { e with keep := false })))
  | .lend f => some (own f 3 (decide (f.opt.toNat < 3)) (fun a i s => ansOut f.d
      (lend s a.ctx a.ids (opdVal s a i f.a 2) (opdVal s a i f.b 2) (BitVec.ofNat 64 (opdVal s a i f.c 2)) f.opt.toNat none)))
  | .retn f => some (own f 2 (noOpt f.opt.toNat) (fun a i s =>
      let x := retn s a.ctx a.ids (opdVal s a i f.a 2) (opdVal s a i f.b 2); (x.1, outRes f.d 1 x.2)))
  | .split f => some (own f 2 (noOpt f.opt.toNat) (fun a i s => ansOut f.d
      (split s a.ref.cl a.ctx a.ids (opdVal s a i f.a 2) (opdVal s a i f.b 2))))
  | .merge f => some (own f 2 (noOpt f.opt.toNat) (fun a i s =>
      let x := merge s a.ref.cl a.ctx a.ids (opdVal s a i f.a 2) (opdVal s a i f.b 2); (x.1, outRes f.d 1 x.2)))
  | .ownq f => some { sp := mSpec f (pDstG true) (pSrc true) pNone pNone (noOpt f.opt.toNat), stall := never, lowest := false,
                      run := fun a i s => (s, if 2 ^ 57 ≤ opdVal s a i f.a 2 then .bad { fault .protection with addr := opdVal s a i f.a 2 }
                        else outRes f.d 2 (ownqVal s a.ctx a.ids (opdVal s a i f.a 2))) }
  | .bankcfg f => some { sp := mSpec f (pDstG false) (pSrc false) (pSrc false) pNone (decide (f.opt.toNat < 4)),
                         stall := fun s a l => turnHeld s a || (ringFull s a.ref.cl && l.any (fun i =>
                           bankReindexes s a.ref (opdVal s a i f.a 1) (opdVal s a i f.b 1) (modeOf f.opt.toNat))),
                         lowest := false,
                         run := fun a i s =>
                           let v := bankCheck s a.ref.cl a.ref.ts (opdVal s a i f.a 1) (opdVal s a i f.b 1) (modeOf f.opt.toNat)
                           (if v = stOk then bankApply s a.ref.cl a.ref.ts (opdVal s a i f.a 1) (opdVal s a i f.b 1) (modeOf f.opt.toNat)
                            else s, outRes f.d 1 v) }
  | .bankq f => some { sp := mSpec f (pDstG false) (pSrc false) pNone pNone (decide (f.opt.toNat < 2)), stall := never, lowest := false,
                       run := fun a i s =>
                         let b := opdVal s a i f.a 1 % 512
                         (s, if f.opt.toNat = 1 then outRes f.d 1 (bankqCount (clusterOf s a.ref.cl) a.team)
                             else if 383 < b then .bad (fault .illegal) else outRes f.d 1 (bankqVal (clusterOf s a.ref.cl) a.ref.ts b)) }
  | .qinit f => some { sp := mSpec f (pDstG false) (pSrc true) (if f.opt.toNat == 1 then pNone else pSrc false) pNone (decide (f.opt.toNat < 2)),
                       stall := never, lowest := false,
                       run := fun a i s => match qinit s a.ref.cl a.ctx a.ids (opdVal s a i f.a 2) (opdVal s a i f.b 1) (f.opt.toNat == 1) with
                         | (t, .ok v) => (t, outRes f.d 1 v)
                         | (t, .error e) => (t, .bad e) }
  | .qpush f => some { sp := { mSpec f (pDstG false) (pSrc true) (pSrc true) (if f.opt.toNat = 1 then pQuad else pNone)
                               (decide (f.opt.toNat < 2)) with rel := true },
                       stall := never, lowest := false, run := qpushFibre f }
  | .tlbinv f => some { sp := eSpec f (pDstG false) (pSrc true) (pSrc true) (decide (f.opt.toNat < 4)) false false true,
                        stall := never, lowest := true,
                        run := fun a i s => (tlbinv s a.ctx f.opt.toNat (opdVal s a i f.a 2) (opdVal s a i f.b 2), outRes f.d 1 stOk) }
  | .tokadm f => some { sp := eSpec f (pDstG false) (pSrc true) (pSrc true) (decide (f.opt.toNat < 2)) false true true,
                        stall := never, lowest := true,
                        run := fun a i s => ansOut f.d (tokadm s a.ctx f.opt.toNat (opdVal s a i f.a 2) (opdVal s a i f.b 2)) }
  | i => (atomicOf i).map (fun x =>
      { sp := amoSpec x.1 x.2.1 x.2.2.1, stall := atomicStalls x.1, run := amoFibre x.1 x.2.2.2.1 x.2.2.2.2, lowest := false })

/-- The pending results of one fibre's register writes; a k-register's only where the fibre is the lowest (R15, R99). -/
def pendsFor (low : Bool) (e : Nat × FRes) : List Pend :=
  e.2.wr.filterMap (fun w => match w with
    | .g n v => some { dst := .g e.1 n, val := some v, ready := true }
    | .k n v => if low then some { dst := .k n, val := some v, ready := true } else none
    | .p _ _ => none)
def pendsOf (l : List (Nat × FRes)) : List Pend :=
  match l with
  | [] => []
  | e :: r => pendsFor true e ++ r.flatMap (pendsFor false)

/-- What the fibres' writes leave of predicate `m` of the fibre in slot `i`. -/
def predAfter (l : List (Nat × FRes)) (i m : Nat) (was : Bool) : Bool :=
  l.foldl (fun b e => e.2.wr.foldl (fun b w => match w with | .p n v => if e.1 = i ∧ n = m then v else b | _ => b) b) was

/-- `t` is `u` with the batch past its word and the results of `l` pending: predicates stand at once, and so do sticky bits. -/
def Pending (u t : State) (a : At) (l : List (Nat × FRes)) : Prop :=
  ∃ F, t = updCrew u a.ref F ∧ ∀ c, (F c).pend = c.pend ++ pendsOf l
    ∧ (∀ i, ∀ m < 15, pRead (F c) i m = predAfter l i m (pRead c i m))
    ∧ (∀ b < 45, (F c).stat.getLsbD b = (c.stat.getLsbD b || (decide (b < 11) && l.any (fun e => tb e.2.sticky b))))
    ∧ (∀ b, c.batches[a.bi]? = some b → b.rep = false → (F c).batches = modAt c.batches a.bi (fun _ => nextWord u.cycle b)
        ∧ (F c).mem = (decide ((nextWord u.cycle b).wait ≠ .drain) && c.mem)
        ∧ (F c).yields = (c.yields || (!(nextWord u.cycle b).begun && hdrYield b.hdr)))
    ∧ { F c with
          pend := c.pend, preds := c.preds, stat := c.stat, batches := c.batches, cur := c.cur, mem := c.mem, memRow := c.memRow,
          yields := c.yields } = c

/-- The words that store or do nothing to registers. -/
def onwardOf (i : Instr) : Option EachWord :=
  let x (f : MEM) : Acc := { kind := .store, n := memBytes f.ty.toNat, pol := .normal }
  let mem (f : MEM) (sc : Bool) : EachWord :=
    { sp := memSpec f sc false, run := storeFibre f sc, lowest := sc, stall := fun s a l => memStalls s a f (x f) (if sc then l.take 1 else l) }
  match i with
  | .st f => some { mem f false with after := fun a s l => (wholeLines (storedAt s a f (x f) l)).foldl (clearWhole a.ref.cl) s }
  | .sts f => some (mem f true)
  | .pref f => some { sp := memSpec f false true, stall := fun s a _ => decide (f.space ≠ 1#2) && ringHeld s a.ref.cl, run := prefFibre f,
                      lowest := false }
  | _ => none

/-- Both L2s have room for a few more sectors, so that no line of theirs goes (R313). -/
def Roomy (s : State) : Prop := ∀ d < 2, ((dieOf s d).l2.map (fun e => bits4 e.valid)).sum + 64 ≤ 5242880

/-- The crew traps at the word of `a` once the word's accesses left `u`: the batch is out of its list and waits for the entry with the
faults `l` (R355, R356). -/
def Trapped (u t : State) (a : At) (l : List (Nat × FaultInfo)) : Prop :=
  ∃ F tw, t = updCrew u a.ref F ∧ ∀ c, (F c).batches = delAt c.batches a.bi ∧ (F c).trapWait = c.trapWait ++ [tw]
    ∧ tw.faults = l ∧ tw.batch = { a.b with wait := .none } ∧ tw.moved = [] ∧ tw.t = a.pc ∧ tw.atHeader = false
    ∧ { F c with batches := c.batches, trapWait := c.trapWait, cur := c.cur } = c

/-- What an access to global memory answers: it stops with a fault of kind `k` that names the address and the token `tok`, and leaves
`u` (R164). -/
def Stops (s u : State) (a : At) (x : Acc) (va tok : Nat) (k : FKind) : Prop :=
  ∃ e, globalAcc s a x va = (u, .error e) ∧ e.kind = k ∧ e.addr = va ∧ e.width = x.n ∧ e.tokenId = tok

/-- The table of R165: does what the identities `ids` hold of the token permit the access? -/
def Permitted (s : State) (d i : Nat) (t : Token) (ids : List W64) (k : AccKind) : Prop :=
  (ids.contains t.owner = true ∧ (t.state = .excl ∨ (t.state = .shared ∧ k = .load) ∨ (t.state = .atomic ∧ k = .atomic)))
  ∨ ∃ e ∈ sharesOf s d i, ids.contains e.2.holder = true ∧ k = (if e.2.atomic then .atomic else .load)

/-- Do the identities hold an entry of the token at all? -/
def HoldsSome (s : State) (d i : Nat) (t : Token) (ids : List W64) : Prop :=
  ids.contains t.owner = true ∨ ∃ e ∈ sharesOf s d i, ids.contains e.2.holder = true

/-- The checks of FENCE, a release at some of its options and scopes. -/
def fenceChecks (f : RRR) : WordSpec :=
  { mSpec f pNone pNone pNone pNone (f.opt.toNat % 4 != 0) with
      rel := decide (f.opt.toNat % 4 / 2 = 1) && decide (4 ≤ f.opt.toNat / 4) }

/-- A flag of f0 to f11 has one more operation pending (R16). -/
def raised (fl : Option Nat) (c : Crew) : Crew := match fl with | none => c | some x => flagUp c x

/-! Ownership, queues, banks and the system words (R34, R35, R178 to R193, R238 to R251). -/

/-- The result of a queue wait for each fibre, when every fibre has its item or its refusal. -/
def waitResults (d : Opd) (l : List (Nat × List W32)) : List (Nat × FRes) := l.map (fun e => (e.1, quadRes d e.2))

/-- A fibre that begins to poll: its slot, its queue's address and its limit. -/
def newWait (i q n : Nat) : QFibre :=
  { slot := i, addr := q, queue := 0, tries := 0, limit := n, listed := false, done := none }

/-- The bytes of a queue lie in one page that the die's TLB holds, in device memory. -/
structure QueueMapped (s : State) (die ctx a n : Nat) (e : TlbEntry) : Prop where
  hit : ∀ va, a ≤ va → va < a + n → tlbHit (dieOf s die).tlb ctx va = some e
  device : ∀ va, a ≤ va → va < a + n → e.pa + va % 2 ^ e.bits < 2 ^ 50

/-- The lines of a range of device memory are at hand for a cluster: both TLBs hold one page of it, readable and writable, none of them
stands in its L1 or is poisoned, and its crews' tokens let them store there. -/
structure RangeAtHand (s : State) (cl ctx : Nat) (ids : List W64) (a n : Nat) : Prop where
  low : a + n ≤ 2 ^ 57
  held : ∃ e, e.rd = true ∧ e.wr = true ∧ ∀ va, a ≤ va → va < a + n →
    tlbHit (clusterOf s cl).tlb ctx va = some e ∧ tlbHit (dieOf s (dieNo cl)).tlb ctx va = some e
    ∧ e.pa + va % 2 ^ e.bits < 2 ^ 50 ∧ l1Find (clusterOf s cl) (e.pa + va % 2 ^ e.bits) = none
    ∧ poisoned s (e.pa + va % 2 ^ e.bits) = false
  covered : tokensCover s ctx ids .store a n = none

/-- The place that QINIT initialises with configuration `b` is at hand, its first 32 bytes and all of it (R190). -/
structure InitAtHand (s : State) (cl ctx : Nat) (ids : List W64) (a b : Nat) : Prop where
  aligned : a % 64 = 0
  config : b < 64 ∧ 1 ≤ b % 32 ∧ b % 32 ≤ 20
  header : tokensCover s ctx ids .store a 32 = none
  whole : RangeAtHand s cl ctx ids a (queueBytes (b % 32))

/-- A word of port E. -/
def sysChecks (f : RRR) (d a b : Pos) (ok ct plain priv : Bool) : WordSpec :=
  rrrSpec { port := 0, d := d, a := a, b := b, c := pNone, ty := f.ty.toNat == 0, opt := ok } f ct plain priv

/-- The checks of RDSYS. -/
def readChecks (f : SYSF) (clr : Bool) : WordSpec :=
  { port := some 0, ct := false, gd := f.gd, plain := false,
    legal := fun w => (sysRegOf f.num.toNat).isSome && f.rsv == 0#4 && f.bc == 0#4 && f.hi == 0#2 && f.a == sysOpd
      && (!clr || f.num == 0x00A#12) && posOk w (pDst true) f.d,
    priv := (match sysRegOf f.num.toNat with | some x => !x.user | none => false), regs := [(f.d, 2)] }

/-- The checks of WRSYS. -/
def writeChecks (f : SYSF) : WordSpec :=
  { port := some 0, ct := false, gd := f.gd, plain := false,
    legal := fun w => (sysRegOf f.num.toNat).isSome && f.rsv == 0#4 && f.bc == 0#4 && f.hi == 0#2 && !f.clr && f.d == sysOpd
      && posOk w (pSrc true) f.a,
    priv := true, regs := [(f.a, 2)] }

/-- R35's table: width and value of a system register as the fibre in a slot reads it. -/
def sysTable (s : State) (a : At) (i num : Nat) : Option (Nat × Nat) :=
  let cl := clusterOf s a.ref.cl
  let grid (f : Grid → Nat) : Nat := ((gridOf s a.team.ctx a.team.gid).map f).getD 0
  let ctx (f : CtxRegs → Nat) : Nat := ((ctxOf s a.ctx).map (fun c => f c.regs)).getD 0
  let u := a.team.urgency
  match num with
  | 0x000 => some (64, s.cycle)
  | 0x001 => some (12, a.crew.ctx)
  | 0x002 => some (5, i)
  | 0x003 => some (5, a.ref.cr)
  | 0x004 => some (32, a.team.teamno)
  | 0x005 => some (33, grid (·.teams))
  | 0x006 => some (16, a.team.gid)
  | 0x007 => some (8, a.ref.cl)
  | 0x008 => some (4, grid (·.depth))
  | 0x009 => some (9, a.crew.win)
  | 0x00A => some (64, a.crew.stat.toNat)
  | 0x00B => some (24, a.team.banks.length * 1024)
  | 0x010 => some (64, ctx (·.objbase.toNat))
  | 0x011 => some (17, ctx (·.objcount))
  | 0x012 => some (52, ctx (·.ptbase))
  | 0x013 => some (64, ctx (·.privbase.toNat))
  | 0x014 => some (32, ctx (·.privmax.toNat))
  | 0x015 => some (64, ctx (·.faultbase.toNat))
  | 0x016 => some (64, ctx (·.trapvec.toNat))
  | 0x017 => some (64, a.crew.trappc.toNat)
  | 0x018 => some (32, a.crew.trapcause.toNat)
  | 0x020 => some (16, cl.cslope.toNat)
  | 0x021 => some (8, bNat cl.expert * 128 + cl.win)
  | 0x022 => some (8, if u.expert then 128 + u.fixed else u.mark)
  | 0x023 => some (2, ctx (·.poison.toNat))
  | 0x024 => some (768, bankMap cl)
  | 0x025 => some (2, cl.thermal.toNat)
  | _ => none

/-- The crew with its sticky bits cleared, and the place that has it. -/
def clearedCrew (c : Crew) : Crew := { c with stat := BitVec.ofNat 64 (c.stat.toNat / 2 ^ 11 * 2 ^ 11) }
def clearedAt (a : At) : At :=
  { a with crew := clearedCrew a.crew, team := { a.team with crews := modAt a.team.crews a.ref.cr (fun _ => clearedCrew a.crew) } }

/-- What a row of WRSYS writes with (R246, R272, R274). -/
def wrsysWith (i : Instr) : Option (SYSF × (State → At → Nat → Except FKind State)) :=
  match i with
  | .wrsys f => some (f, fun s a v => sysWrite s a f.num.toNat v)
  | .wrsysCtxid f => some (f, ctxidWrite)
  | .wrsysThrottle f => some (f, throttleWrite)
  | .wrsysUrgency f => some (f, urgencyWrite)
  | .wrsysCslope f => some (f, cslopeWrite)
  | _ => none

/-! Engines and leases (R195 to R237, R318 to R350). -/

/-- A command that an engine performs: its fields, its kind, whether it names a source register, and its checks. -/
structure EngWord where
  f : ENG
  k : OpKind
  src : Bool
  plan : EngCmd → At → State → State × Except FaultInfo EngPlan
  status : State → At → EngOp → Option Nat

def engineOf (i : Instr) : Option EngWord :=
  match i with
  | .mma f => some { f := f, k := .mma, src := false, plan := mmaPlan, status := mmaStatus }
  | .mcensus f => some { f := f, k := .census, src := true, plan := censusPlan, status := fun _ _ _ => none }
  | .copy f => some { f := f, k := .copy, src := false, plan := copyPlan, status := fun _ _ _ => none }
  | .gxfer f => some { f := f, k := .gxfer, src := false, plan := gxferPlan, status := fun _ _ _ => none }
  | .coll f => some { f := f, k := .coll, src := false, plan := collPlan, status := fun _ _ _ => none }
  | _ => none

/-- The checks of its word: flag B of an MMA and a census is 15 (R196). -/
def EngWord.checks (w : EngWord) : WordSpec := engSpec w.f w.src false false (decide (w.k = .mma) || decide (w.k = .census))

/-- Its command for the lowest active fibre. -/
def EngWord.cmd (w : EngWord) (s : State) (a : At) : EngCmd := engCmd s w.f w.k w.src a ((active a w.f.gd).headD 0)

/-- The place of the issuing batch as the state `u` has it, after a word changed its team. -/
def here (u : State) (a : At) : At := (issuer u).getD a

/-- A flag's count as named once or twice by a command. -/
def timesNamed (fa fb : Option Nat) (x : Nat) : Nat := (if fa = some x then 1 else 0) + (if fb = some x then 1 else 0)

/-- The lease under key `k` of a team. -/
def leaseAt (s : State) (cl ts k : Nat) : Option Lease := (teamOf s cl ts).bind (fun t => look t.leases k)

/-- What holds term engine `e` of a cluster. -/
def holder (s : State) (cl e : Nat) : Option EngHold := ((clusterOf s cl).engines[e]?).map (·.hold)

/-- The falls that an operation owes its crew at its end: flag A, unless it has fallen, and flag B (R200, R349). -/
def owedFalls (o : EngOp) : List (Nat × Nat) :=
  (if o.srcFreeDone then [] else o.fa.toList.map (fun x => (x, o.scope))) ++ o.fb.toList.map (fun x => (x, o.scope))
/-- The fibres after a word that acts for its lowest one: its status, and nothing for the others. -/
def lowestResults (f : RRR) (act : List Nat) (v : Nat) : List (Nat × FRes) :=
  act.mapIdx (fun j i => (i, if j = 0 then res f.d 1 v 0 else noRes))


/-- The guard p15, not negated. -/
def always : Guard := { p := 15#4, neg := false }

/-- Words written out bit by bit from the layouts of R46 to R52, most significant bit first, with what they stand for. -/
def writtenWords : List (Nat × Instr) := [
  (0b0000000000111100000000100000010000000110000000000000000001000000,
    .addRRR { gd := always, d := ⟨.g, 1⟩, a := ⟨.g, 2⟩, b := ⟨.g, 3⟩, c := ⟨.g, 0⟩, ty := 2#4, opt := 0#5 }),
  (0b0001000001001110000010100000110000101100000000011111111111111111,
    .subRI17 { gd := { p := 3#4, neg := true }, d := ⟨.g, 5⟩, a := ⟨.k, 6⟩, ty := 6#4, opt := 0#8, imm := 0x1FFFF#17 }),
  (0b0001010000111100000100100000000011011110101011011011111011101111,
    .movi { gd := always, k := false, d := 9, a := 0, imm := 0xDEADBEEF#32 }),
  (0b0011000001111100000101000000000011111111111111111111111111111110,
    .call { gd := always, link := 10, rsv := 0#9, off := 0xFFFFFFFE#32 }),
  (0b0110000000111100000010000001000000000000000000000010000001001100,
    .ld { gd := always, data := 4, base := 8, off := 16#24, ty := 2#4, space := 1#2, policy := 2#2, kb := false }),
  (0b0110001000111100000000100000010000001000000000000100111011000000,
    .aadd { gd := always, d := 1, base := 2, b := 4, c := 0, ty := 2#4, order := 3#3, scope := 5#3, kb := true, pad := false, nd := false, rsv := 0#4 }),
  (0b1000000011111100000001100000000000000000000000100000000001011110,
    .copy { gd := always, st := 3, src := 0, off := 256#24, fa := 2#4, fb := 15#4, rsv := false }),
  (0b0011011000111100000000000000000000000000000001111000010000000000,
    .rep { gd := always, hi := 0#27, count := 7#6, mask := 8#4, step := 1#2, lo := 0#10 }),
  (0b1001000010111100000001000000000000000000000101000000000001000000,
    .rdsysClr { gd := always, d := ⟨.g, 2⟩, a := ⟨.g, 0⟩, rsv := 0#4, num := 0x00A#12, bc := 0#4, hi := 0#2, clr := true, word := 0#6 }),
  (0b1001000011111100000000000000010000000000010000100000000000000000,
    .wrsysThrottle { gd := always, d := ⟨.g, 0⟩, a := ⟨.g, 2⟩, rsv := 0#4, num := 0x021#12, bc := 0#4, hi := 0#2, clr := false, word := 0#6 }),
  (0b1011000101000000000000000000000000000000000000000000000000000000,
    .hint { op := 5#5, rest := 0#54 }),
  (0b0000011111000000000000000000000000000000000000000000000000000000,
    .reservedOpcode (BitVec.ofNat 64 0x07C0000000000000)),
  (0b0100000011000100000000101000000000000100000001100010000100000001,
    .ffma { gd := { p := 1#4, neg := false }, d := ⟨.g, 1⟩, a := ⟨.k, 64⟩, b := ⟨.g, 2⟩, c := ⟨.g, 3⟩, ty := 8#4, opt := 1#5 })]

/-- The checks of LWAIT. -/
def lwaitChecks (f : RRR) : WordSpec :=
  rrrSpec { port := 0, d := pDst false, a := pGks, b := pNone, c := pNone, ty := f.ty.toNat == 0, opt := satOnly f.opt.toNat } f false false false

/-- The grid ids that an LWAIT reports and frees: those of its fibres' children that have retired (R136). -/
def reported (s : State) (a : At) (f : RRR) : List Nat :=
  (active a f.gd).filterMap (fun i => match lwaitAnswer s a (opdVal s a i f.a 1 % 2 ^ 16) with
    | some v => if v < 2 then some (opdVal s a i f.a 1 % 2 ^ 16) else none
    | none => none)

/-- The ids `gone` of the issuing team's children are free again (R135). -/
def freeChildren (s : State) (a : At) (gone : List Nat) : State :=
  updCtx s a.ctx (fun x => { x with
    retired := x.retired.filter (fun e => !(gone.contains e.1 && e.2.1 == teamHolder a.team.ctx a.team.gid a.ref.cl a.ref.ts)) })

/-- The privileged instructions (R239) with their checks. -/
def privilegedOf (i : Instr) : Option WordSpec :=
  let e (f : RRR) (d a b : Pos) (ok ct plain : Bool) : WordSpec := sysChecks f d a b ok ct plain true
  match i with
  | .eret f => some (e f pNone { n := 1, g := false, k := true, p := false, sp := [0, 1] } pNone (noOpt f.opt.toNat) true true)
  | .tlbinv f => some (e f (pDstG false) (pSrc true) (pSrc true) (decide (f.opt.toNat < 4)) false false)
  | .tokadm f => some (e f (pDstG false) (pSrc true) (pSrc true) (decide (f.opt.toNat < 2)) false true)
  | .ckpt f => some (e f (pDstG false) (pSrc true) pNone (noOpt f.opt.toNat) false true)
  | .halt f => some (e f pNone pGks pNone (noOpt f.opt.toNat) true true)
  | .ctxsv f => some (ctxSpec f)
  | .ctxld f => some (ctxSpec f)
  | i => (wrsysWith i).map (fun x => writeChecks x.1)

/-- A queue that the issuing crew reaches at hand: its lines lie in one page of device memory that both TLBs hold readable and writable,
a token lets the crew use it, none of its lines stands in the L1 or is poisoned, and its header is good (R189). -/
structure WarmQueue (s : State) (a : At) (q : Nat) (h : QHead) : Prop where
  head : h = qHead s (dieNo a.ref.cl) a.ctx q
  good : h.bad = false
  aligned : q % 64 = 0
  low : q + queueBytes h.logcap ≤ 2 ^ 57
  held : ∃ e, e.rd = true ∧ e.wr = true ∧ ∀ va, q ≤ va → va < q + queueBytes h.logcap →
    tlbHit (clusterOf s a.ref.cl).tlb a.ctx va = some e ∧ tlbHit (dieOf s (dieNo a.ref.cl)).tlb a.ctx va = some e
    ∧ e.pa + va % 2 ^ e.bits < 2 ^ 50 ∧ l1Find (clusterOf s a.ref.cl) (e.pa + va % 2 ^ e.bits) = none
    ∧ poisoned s (e.pa + va % 2 ^ e.bits) = false
  covered : tokensCover s a.ctx a.ids .atomic q (queueBytes h.logcap) = none

/-- The item at the head of a queue, and its token. -/
def headItem (s : State) (a : At) (q : Nat) (h : QHead) : Nat := vaNat s (dieNo a.ref.cl) a.ctx (slotVa q h.logcap h.head) 8
/-- The queue holds an item without a token, in a slot whose reserved word is 0. -/
def HasItem (s : State) (a : At) (q : Nat) (h : QHead) : Prop :=
  h.head ≠ h.tail ∧ vaNat s (dieNo a.ref.cl) a.ctx (slotVa q h.logcap h.head + 8) 4 = noToken
  ∧ vaNat s (dieNo a.ref.cl) a.ctx (slotVa q h.logcap h.head + 12) 4 = 0

/-- The machine after the issuing crew has read the header of a queue at hand: its home L2 has served the read (R189, R314). -/
def seen (s : State) (a : At) (q : Nat) : State := vaSeen s (dieNo a.ref.cl) a.ctx q 32

/-- The machine after the issuing crew removed the head item (R192): header and slot are read, the head has moved, and the crew has
acquired at DEVICE scope. -/
def removed (s : State) (a : At) (q : Nat) (h : QHead) : State :=
  acquireAt { vaPut (vaSeen (seen s a q) (dieNo a.ref.cl) a.ctx (slotVa q h.logcap h.head) 16) (dieNo a.ref.cl) a.ctx q 4
    ((h.head + 1) % 2 ^ 32) with popped := (a.ctx, h.qnum) :: s.popped } a.ref.cl 5

/-- The crew's priority after its failed tries `k` (R277). -/
def backedOff (s : State) (a : At) (k : Nat) : State := updCrew s a.ref (fun c => { c with backoff := min k 8 })

/-- The most tries of a fibre that still polls. -/
def mostTries (fs : List QFibre) : Nat := (fs.map (fun x => if x.done.isNone && !x.listed then x.tries else 0)).foldl max 0

/-- Every fibre has its item or its refusal: `l` holds their registers. -/
def AllServed (fs : List QFibre) (l : List (Nat × List W32)) : Prop :=
  fs.map (fun x => x.done) = l.map (fun e => some (.item e.2)) ∧ fs.map (·.slot) = l.map (·.1)

/-- QPOP and QPOLL: what they need, and how often each fibre tries (R192). -/
def pollOf (i : Instr) : Option (RRR × WordSpec × (State → At → Nat → Nat)) :=
  match i with
  | .qpop f => some (f, mSpec f pQuad (pSrc true) pNone pNone (noOpt f.opt.toNat), fun _ _ _ => 1)
  | .qpoll f => some (f, mSpec f pQuad (pSrc true) (pSrc false) pNone (noOpt f.opt.toNat), fun s a j => opdVal s a j f.b 1)
  | _ => none

/-- The issuing batch is ready at its word. -/
def readied (s : State) (a : At) : State :=
  updCrew s a.ref (fun c => { c with batches := modAt c.batches a.bi (readyAt s.cycle) })
/-- The clause that another batch of the crew has open stays open. -/
def besides (t : State) (a : At) : State := updCrew t a.ref (fun x => { x with cur := a.crew.cur })

/-- Steps 1 to 4 of a context's save: what it does before its area is written (R372). -/
def beforeArea (s : State) (x : Nat) : State :=
  cleanCtx (let d := drainCtx (settleCtx (withdraw s x) x) x
    mapCrews d (fun r c => if teamIs d x r.cl r.ts then savedCrew d.cycle c else c)) x

/-- The `n` bytes at a virtual address can be written: the die's TLB holds every page of them, writable, and none is a window, behind
an isolated port, or memory of a peer that refuses. -/
structure AreaReachable (s : State) (die ctx b n : Nat) : Prop where
  low : b + n ≤ 2 ^ 57
  held : ∀ va, b ≤ va → va < b + n → ∃ e, tlbHit (dieOf s die).tlb ctx va = some e ∧ e.wr = true ∧ isWindow e = false
    ∧ behindIsolated s (locOf e va) = false ∧ peerFault s (locOf e va) = none

/-- The crew traps at a header: batch `a.bi` leaves the list and waits for the entry with the fault `k` for each of its fibres. -/
def TrapsAtHeader (u t : State) (a : At) (k : FKind) : Prop :=
  ∃ w, t = updCrew u a.ref (fun c => { c with batches := delAt c.batches a.bi, cur := none, trapWait := c.trapWait ++ [w] })
    ∧ w.atHeader = true ∧ w.t = a.b.header ∧ w.batch = { a.b with wait := .none } ∧ w.faults.map (·.1) = a.slots
    ∧ ∀ e ∈ w.faults, e.2.kind = k ∧ e.2.fetch = true ∧ e.2.addr = a.b.header

/-- A clause has begun, or goes on, for batch `bi` under header `h`: that batch alone changes, and nothing of the crew but its open clause, pass and standing in the memory set. -/
def Opens (h : W64) (bi : Nat) (c c' : Crew) : Prop :=
  c'.batches = modAt c.batches bi (fun x => { x with hdr := h, begun := true, stale := false, yields := x.begun && x.yields,
                                                     wait := if x.begun then x.wait else .none })
  ∧ { c' with batches := c.batches, cur := c.cur, pass := c.pass, mem := c.mem, memRow := c.memRow, memWait := c.memWait } = c

/-- The checks of the words that no table above has. -/
def otherChecks (i : Instr) : Option WordSpec :=
  match i with
  | .fspawn f => some (brChecks f false (fun _ => f.rsv == 0#9 && f.link == 0) [])
  | .fend f => some (fendChecks f)
  | .wait f => some (ctlChecks f pNone pMask pNone false)
  | .sleep f => some (ctlChecks f pNone pGks pNone false)
  | .yield f => some (ctlChecks f pNone pNone pNone false)
  | .lwait f => some (lwaitChecks f)
  | .bar f => some (ctlChecks f (pDst false) pMask { n := 1, g := false, k := true, p := false, sp := [0, 1] } true)
  | .gbar f => some { ctlChecks f (pDst false) pNone pNone true with rel := true }
  | .launch f => some (launchChecks f)
  | .fence f => some (fenceChecks f)
  | .cflush f => some (mSpec f pNone (pSrc true) (pSrc false) pNone (flagOk (f.opt.toNat % 16)))
  | .recallWord f => some (ownSpec f 2 (flagOk (f.opt.toNat % 16) && decide (f.opt.toNat < 16)) false)
  | .qwait f => some (mSpec f pQuad (pSrc true) pNone pNone (noOpt f.opt.toNat))
  | .mbound f => some (engSpec f false true true true)
  | .mlease f => some (lSpec f 1 (decide (f.opt.toNat < 2)))
  | .mfree f => some (lSpec f 1 (noOpt f.opt.toNat))
  | .mcfg f => some (lSpec f 1 (decide (f.opt.toNat < 16) && decide (f.opt.toNat % 4 < 3)))
  | .mstat f => some (lSpec f 1 (noOpt f.opt.toNat))
  | .cwait f => some (lSpec f 3 (decide (f.opt.toNat < 2)))
  | .trap f => some (sysChecks f pNone pGks pNone (noOpt f.opt.toNat) true false false)
  | .rdsys f => some (readChecks f false)
  | .rdsysClr f => some (readChecks f true)
  | _ => none

/-- What R53 checks of each word, but for REP (R55), the hints and the reserved opcodes. -/
def checksOf (i : Instr) : Option WordSpec :=
  [(localOf i).map (·.sp), (laterOf i).map (·.sp), (transferOf i).map (·.sp), (gatherOf i).map (·.1), (pendingOf i).map (·.sp),
   (onwardOf i).map (·.sp), (pollOf i).map (·.2.1), (engineOf i).map (·.checks), privilegedOf i, otherChecks i].findSome? id

/-- Connection `i` goes on past `n` PSNs. -/
def pastPsn (s : State) (i n : Nat) : State :=
  setQp s i { qpOf s i with ePsn := psnAdd (qpOf s i).ePsn n, hold := false }

end Sys2Proof.Machine

open Sys2Proof Sys2Proof.Machine

/-! The statements. -/

/-- R46 to R52: decode and encode agree. Decoding the word of a well-formed instruction gives it back, every operand at every value
that its field admits; every 64-bit word decodes to a well-formed instruction whose word it is. -/
def Obligations.EncodingRoundTrips : Prop :=
  (∀ (i : Instr) (n : Nat), wellFormed i = true → encode i = some n → n < 2 ^ 64 ∧ decodeWord n = i)
  ∧ (∀ n : Nat, n < 2 ^ 64 → wellFormed (decodeWord n) = true ∧ encode (decodeWord n) = some n)

/-- R46 to R52: words written out bit by bit decode to what they stand for. -/
def Obligations.WrittenWordsDecode : Prop :=
  ∀ x ∈ writtenWords, decodeWord x.1 = x.2

/-- One step: an input that the machine takes is performed, any other dropped (in recovery all but an image or a reset, R412); with no
input the first command to Occon that may be carried out, then the event that is due; else the crew that a scheduler picks takes its
step: its clause begins, or its repeat, its fused sequence, or the word that fetch reads at its address decodes and runs, and it has
issued unless it stalled; with no pick left the events that close the cycle come one by one, and then time passes. A fetch through an
entry of the TLB reads the eight bytes at the home. The order of these is the model's choice (log 1), and so are that inputs are taken
whole or dropped (log 49) and what the driver and Occon may raise as a command (log 51). -/
def Obligations.StepRunsWhatIsNext : Prop :=
  (∀ (s : State) (i : Instr) (l : List Instr), s.inputs = i :: l →
    (isInput i = true → mayEnter s i = true → step s = exec i { s with inputs := l })
    ∧ (isInput i = false ∨ mayEnter s i = false → step s = .next { s with inputs := l }))
  ∧ (∀ (s : State) (i : Instr), mayEnter s i = false ↔ s.boot.phase = .recovery ∧ ∀ l, i ≠ .packageReset l ∧ i ≠ .recoveryImageLoad l)
  ∧ (∀ (s : State) (k : OcconCmd) (l m : List OcconCmd), s.inputs = [] → s.commands = l ++ k :: m → (∀ x ∈ l, occonMay s x = false) →
    occonMay s k = true → step s = .next (occonAct k { s with commands := l ++ m }))
  ∧ (∀ (s : State) (b : Option Issue) (i : Instr), s.inputs = [] → (∀ x ∈ s.commands, occonMay s x = false) → dueEvent s = some (b, i) →
    step s = exec i { s with issue := b })
  ∧ (∀ s u : State, s.inputs = [] → (∀ x ∈ s.commands, occonMay s x = false) → dueEvent s = none → nextIssue s = (u, none) →
    (∀ b i, lateEvent u = some (b, i) → step s = exec i (closeCycle { u with issue := b }))
    ∧ (lateEvent u = none → step s = .next (passTime u)))
  ∧ (∀ (s u p q : State) (r : CrewRef) (bi : Nat) (a : At), s.inputs = [] → (∀ x ∈ s.commands, occonMay s x = false) → dueEvent s = none →
    nextIssue s = (u, some (r, bi)) → p = firstIssue { u with issue := some { crew := r, bi := bi } } r → atOf p r bi = some a →
    q = (if a.b.next = 0 ∧ a.b.rep = false then
          updCrew p r (fun c => { c with batches := modAt c.batches bi (fun b => { b with opened := p.cycle }) }) else p) →
    ((a.b.begun = false ∨ a.b.stale = true) →
      step s = afterIssue r bi { port := none, cycles := 0, words := 0 } (exec .clauseBegin p))
    ∧ (a.b.begun = true → a.b.stale = false →
      (∀ k t, fetch64 q r.cl a.ctx a.pc = (t, .error k) → step s = .next (fetchFail t a k))
      ∧ (∀ w t n, fetch64 q r.cl a.ctx a.pc = (t, .ok w) → n = wordsAt t a w.toNat →
          (a.b.rep = true → step s = afterIssue r bi (useOf a.b.mask w.toNat n) (exec .repeatIssue t))
          ∧ (a.b.rep = false → 1 < n.length → step s = afterIssue r bi (useOf a.b.mask w.toNat n) (exec .fusedIssue t))
          ∧ (a.b.rep = false → n.length ≤ 1 →
              step s = afterIssue r bi (useOf a.b.mask w.toNat n) (exec (decodeWord w.toNat) t)))))
  ∧ (∀ (r : CrewRef) (bi : Nat) (u : WordUse) (t : State), u.words ≠ 0 →
    afterIssue r bi u (.next t) = .next (if stalledAt t r bi then t else countIssue t r u))
  ∧ (∀ (r : CrewRef) (bi : Nat) (t : State), ∃ l, afterIssue r bi { port := none, cycles := 0, words := 0 } (.next t) = .next { t with picks := l })
  ∧ (∀ (s : State) (cl ctx va : Nat) (e : TlbEntry), va < 2 ^ 57 → tlbHit (clusterOf s cl).tlb ctx va = some e → e.ex = true →
    look (clusterOf s cl).icache (locOf e va / 64 * 64) = none → locOf e va % 8 = 0 → behindIsolated s (locOf e va) = false →
    peerFault s (locOf e va) = none →
    ∃ u, fetch64 s cl ctx va = (u, .ok (BitVec.ofNat 64 (homeNat s (locOf e va) 8))))

/-- R387, R21, R25: memory, registers and SRAM stay in canonical form (log 2: an unlisted byte reads zero): keys rise and no entry is
zero, so that equal contents are equal data. Every step keeps it. -/
def Obligations.StepKeepsCells : Prop :=
  ∀ s t : State, cellsOk s = true → step s = .next t → cellsOk t = true

/-- R301, R270, R276, R410, R411: the state after package reset: no context, no grid, no token, a device number awaited; device memory
zero and unpoisoned; banks 0 to 127 WAY and the others OFF; W 32 and CSLOPE at rail point 1; no team and no cached line. The cells
are in canonical form. (The other registers of a state without crews are the model's, log 20.) -/
def Obligations.ResetState : Prop :=
  cellsOk State.reset = true ∧ State.reset.boot.phase = .waitDevNum ∧ State.reset.boot.devnum = none
  ∧ (∀ x, ctxOf State.reset x = none) ∧ State.reset.grids = [] ∧ (∀ d i, tokenAt State.reset d i = none)
  ∧ (∀ k < 2 ^ 50, homeByte State.reset k = 0#8) ∧ (∀ k, poisoned State.reset k = false)
  ∧ (∀ x b, (bankOf (clusterOf State.reset x) b).mode = if b < 128 then .way else .off)
  ∧ (∀ x, (clusterOf State.reset x).win = 32 ∧ (clusterOf State.reset x).expert = false ∧ (clusterOf State.reset x).rail = 1
      ∧ (clusterOf State.reset x).cslope = 0x1008#16 ∧ (clusterOf State.reset x).teams = [] ∧ (clusterOf State.reset x).l1 = []
      ∧ (clusterOf State.reset x).fenced = false)
  ∧ State.reset.eth.up = true ∧ State.reset.eth.txNext = 0#32 ∧ State.reset.eth.rxExpect = 0#32 ∧ State.reset.ops = []

/-- R160, R387: bytes written to device memory, to CXL memory or to a peer's memory read back, every other byte reads as before, and
memory keeps its canonical form. -/
def Obligations.MemoryReadAfterWrite : Prop :=
  ∀ (s : State) (k : Nat) (l : List Byte), (k + l.length ≤ 2 ^ 51 ∨ 2 ^ 52 ≤ k) →
    homeBytes (homePuts s k l) k l.length = l
    ∧ (∀ j, j < k ∨ k + l.length ≤ j → homeByte (homePuts s k l) j = homeByte s j)
    ∧ (Memory.wf s.mem = true → Memory.wf (homePuts s k l).mem = true)

/-- R101, R102 (R53, R92, R94): an integer arithmetic word whose checks pass answers a next state, in which the destination of every
active fibre holds the exact value, saturated or wrapped, SAT is set as the rule says, ADDX and SUBX chain the carry through their
predicate, and nothing else has changed. -/
def Obligations.IntegerArithmeticWrites : Prop :=
  ∀ (i : Instr) (w : LocalWord), (arithOf i = some w ∨ carryOf i = some w) → ∀ (s : State) (a : At), Passes s a w.sp →
    ∃ t, exec i s = .next t ∧ Wrote s t a (active a w.sp.gd) (w.y s a)

/-- R104, R105: logic words, shifts and rotates by any count. -/
def Obligations.LogicAndShiftWrite : Prop :=
  ∀ (i : Instr) (w : LocalWord), (logicOf i = some w ∨ shiftOf i = some w) → ∀ (s : State) (a : At), Passes s a w.sp →
    ∃ t, exec i s = .next t ∧ Wrote s t a (active a w.sp.gd) (w.y s a)

/-- R106, R107, R108: counts, bit reversal, bit fields and byte selection. R109, R110, R111: SEL, CMP, MOV, LEA, MOVI, MOVK. R112,
R118, R121: predicate words, P2G and G2P, ACTIVE, and NOP, which writes nothing. -/
def Obligations.FieldAndMoveWordsWrite : Prop :=
  (∀ (i : Instr) (w : LocalWord), fieldOf i = some w → ∀ (s : State) (a : At), Passes s a w.sp →
    ∃ t, exec i s = .next t ∧ Wrote s t a (active a w.sp.gd) (w.y s a))
  ∧ (∀ (i : Instr) (w : LocalWord), moveOf i = some w → ∀ (s : State) (a : At), Passes s a w.sp →
    ∃ t, exec i s = .next t ∧ Wrote s t a (active a w.sp.gd) (w.y s a))
  ∧ (∀ (i : Instr) (w : LocalWord), predOf i = some w → ∀ (s : State) (a : At), Passes s a w.sp →
    ∃ t, exec i s = .next t ∧ Wrote s t a (active a w.sp.gd) (w.y s a))

/-- R146 to R151: float words that stand at once; exact results are rounded once, and the sticky bits are the rounding's. -/
def Obligations.FloatArithmeticWrites : Prop :=
  ∀ (i : Instr) (w : LocalWord), floatOf i = some w → ∀ (s : State) (a : At), Passes s a w.sp →
    ∃ t, exec i s = .next t ∧ Wrote s t a (active a w.sp.gd) (w.y s a)

/-- R99, R103, R144, R152 to R156: words of variable latency make their results pending and go on; the registers stand until
RESULT_WRITE. (That F2I takes d and I2F takes a of the operand classes stated here is the model's choice between R141 and R142,
log 50.) -/
def Obligations.VariableLatencyPends : Prop :=
  ∀ (i : Instr) (w : LocalWord), laterOf i = some w → ∀ (s : State) (a : At), Passes s a w.sp →
    ∃ t, exec i s = .next t ∧ Later s t a (active a w.sp.gd) (w.y s a)

/-- R51, R53, R355, R356: a word of a reserved opcode, a word whose port class the header's PORTS lacks, a control transfer that is not
last, and a word that may carry no guard and has one raise ILLEGAL for every fibre of the batch. R53, R48 to R50: a word of any other
opcode whose fields break its shape, class, type, option or register-number rules raises it for every fibre whose guard is true.
Nothing is written, and the batch waits for the trap. R12, R53: a word whose guard is false for every fibre does nothing; the batch goes
on, and behind a control transfer it stands at the header after the clause. -/
def Obligations.IllegalWordsTrap : Prop :=
  (∀ (i : Instr) (w : WordSpec) (s : State) (a : At), checksOf i = some w → issuer s = some a → a.slots ≠ [] →
    (framed a w.port w.ct = false → ∃ t, exec i s = .next t ∧ Faulted s t a a.slots .illegal)
    ∧ (framed a w.port w.ct = true → w.plain = true → guardPlain w.gd = false →
        ∃ t, exec i s = .next t ∧ Faulted s t a a.slots .illegal)
    ∧ (framed a w.port w.ct = true → (w.plain = true → guardPlain w.gd = true) →
        (active a w.gd ≠ [] → w.legal a.crew.win = false → ∃ t, exec i s = .next t ∧ Faulted s t a (active a w.gd) .illegal)
        ∧ (active a w.gd = [] → w.ct = false → ∃ t, exec i s = .next t ∧ Onward s t a)
        ∧ (active a w.gd = [] → w.ct = true → ∃ c', exec i s = .next (onCrew s a.ref a.team (clusterOf s a.ref.cl).rf c')
            ∧ Moved a.bi a.b.hdr a.slots (fun _ => clauseEnd a.b) a.crew c')))
  ∧ (∀ (a : At) (p : Nat) (ct : Bool), framed a (some p) ct = true ↔ (hdrPorts a.b.hdr).testBit p = true ∧ (ct = true → a.b.next = hdrCount a.b.hdr))
  ∧ (∀ (w : W64) (s : State) (a : At), issuer s = some a → a.slots ≠ [] →
    ∃ t, exec (.reservedOpcode w) s = .next t ∧ Faulted s t a a.slots .illegal)

/-- R116, R117 (R42, R43): a transfer whose targets pass their checks sends each fibre whose guard is true to its target, every other
fibre of the batch to the next header, and writes the link, the address of the word plus 8; nothing else changes but what reading
the targets' headers leaves (`u`), and that is nothing where the cluster holds them at hand. R43: a transfer to an address that is
no multiple of 8 raises MISALIGNED, with the target in the record, for each fibre whose guard is true; the crew waits for the trap
with the batch out of its list. -/
def Obligations.TransfersMoveFibres : Prop :=
  (∀ (i : Instr) (w : TransferWord), transferOf i = some w → ∀ (s : State) (a : At), Passes s a w.sp →
    let goes (u : State) : Prop := ∃ rf c', exec i s = .next (onCrew u a.ref a.team rf c')
      ∧ Moved a.bi a.b.hdr a.slots (fun j => if j ∈ active a w.sp.gd then w.target s a j else clauseEnd a.b) a.crew c'
      ∧ (∀ l, w.link = some l → l + 2 ≤ a.crew.win → ∀ j ∈ active a w.sp.gd, ∀ n < 2,
          cRead rf (regNo a.crew j (l + n)) = regWord (a.pc + 8) n)
      ∧ (∀ key, (∀ l, w.link = some l → ∀ j ∈ active a w.sp.gd, ∀ n < 2, regNo a.crew j (l + n) ≠ key) →
          cRead rf key = cRead (clusterOf s a.ref.cl).rf key)
    ((∀ j ∈ active a w.sp.gd, WarmTarget s a (w.target s a j)) → goes s)
    ∧ (∀ u, checkTargets s a ((active a w.sp.gd).map (fun j => (j, w.target s a j))) = (u, (active a w.sp.gd).map (fun j => (j, none))) →
        goes u))
  ∧ (∀ (i : Instr) (w : TransferWord), transferOf i = some w → ∀ (s : State) (a : At), Passes s a w.sp →
    (∀ j ∈ active a w.sp.gd, w.target s a j % 8 ≠ 0) →
    ∃ c' tw, exec i s = .next (onCrew s a.ref a.team (clusterOf s a.ref.cl).rf c')
      ∧ c'.batches = delAt a.crew.batches a.bi ∧ c'.trapWait = a.crew.trapWait ++ [tw]
      ∧ tw.faults.map (·.1) = active a w.sp.gd ∧ tw.batch.mask = a.b.mask ∧ tw.t = a.pc
      ∧ (∀ e ∈ tw.faults, e.2.kind = .misaligned ∧ e.2.addr = w.target s a e.1 ∧ e.2.pc = a.pc ∧ e.2.fetch = true)
      ∧ { c' with batches := a.crew.batches, trapWait := a.crew.trapWait, cur := a.crew.cur } = a.crew)

/-- R119, R22, R43: FSPAWN to a header that the cluster holds at hand starts a new fibre in the lowest FREE slots, one for each fibre
whose guard is true as far as there are any; the new fibres stand at the target as one batch, and the issuing batch goes on. To a
target that is no multiple of 8 it raises MISALIGNED for each of those fibres and starts none. A started slot is LIVE, its
registers and predicates read zero, and no other register changes. R120, R126, R137, R253: FEND ends the fibres whose guard is
true: their slots become FREE, their pending results and those still to come are discarded, and they leave every group and the trap
that the crew handles; the others of the batch stand at the next header. A crew whose last fibre ends leaves the memory set (R271).
Then the crew may arrive at a barrier; where no batch of it stands at one, it does nothing more, but a crew of a COOP grid without a
LIVE fibre left releases at DEVICE scope. -/
def Obligations.FibresStartAndEnd : Prop :=
  ((∀ (f : BRF) (s : State) (a : At) (new : List Nat), Passes s a (brChecks f false (fun _ => f.rsv == 0#9 && f.link == 0) []) →
    WarmTarget s a (brAddr a f) → new = freshSlots a.crew (active a f.gd).length →
    ∃ v, Onward (new.foldl (fun u j => startSlot u a.ref j) s) v a
      ∧ exec (.fspawn f) s = .next (if new = [] then v else updCrew v a.ref (fun c =>
          { c with batches := c.batches ++ [headBatch (brAddr a f) (slotsMask new) .none s.cycle false] })))
  ∧ (∀ (f : BRF) (s : State) (a : At), Passes s a (brChecks f false (fun _ => f.rsv == 0#9 && f.link == 0) []) →
    brAddr a f % 8 ≠ 0 →
    ∃ c' tw, exec (.fspawn f) s = .next (onCrew s a.ref a.team (clusterOf s a.ref.cl).rf c')
      ∧ c'.batches = delAt a.crew.batches a.bi ∧ c'.trapWait = a.crew.trapWait ++ [tw] ∧ tw.faults.map (·.1) = active a f.gd
      ∧ (∀ e ∈ tw.faults, e.2.kind = .misaligned ∧ e.2.addr = brAddr a f ∧ e.2.pc = a.pc)
      ∧ { c' with batches := a.crew.batches, trapWait := a.crew.trapWait, cur := a.crew.cur } = a.crew)
  ∧ (∀ (s : State) (r : CrewRef) (c : Crew) (j : Nat), crewOf s r = some c → j < 32 →
    ∃ c', crewOf (startSlot s r j) r = some c' ∧ c'.live = c.live ||| (1#32 <<< j)
      ∧ (∀ n < c.win, gRead (clusterOf (startSlot s r j) r.cl) c' j n = 0#32) ∧ (∀ n < 15, pRead c' j n = false)
      ∧ (∀ key, key < regNo c j 0 ∨ regNo c j 0 + c.win ≤ key →
          cRead (clusterOf (startSlot s r j) r.cl).rf key = cRead (clusterOf s r.cl).rf key)
      ∧ (∀ k n, k ≠ j → pRead c' k n = pRead c k n) ∧ { c' with live := c.live, preds := c.preds } = c))
  ∧ (∀ (f : RRR) (s : State) (a : At), Passes s a (fendChecks f) →
    ∃ u v w c' c1, v = onCrew u a.ref a.team (clusterOf s a.ref.cl).rf c' ∧ w = (List.range 16).foldl (fun u id => tryArrive u a.ref id) v
      ∧ exec (.fend f) s = .next (if teamCoop s a.team then gbarArrive w a.ref else w)
      ∧ (noBarrier a.crew → w = v ∧ (c1.live ≠ 0#32 → gbarArrive v a.ref = v) ∧ (c1.live = 0#32 → gbarArrive v a.ref = releaseAt v a.ref.cl 5))
      ∧ { u with ops := s.ops, ckpt := s.ckpt, loads := s.loads } = s
      ∧ (∀ n o, opOf s n = some o → ∃ o', opOf u n = some o' ∧ { o' with dest := o.dest } = o
          ∧ o'.dest = (match o.dest with
              | .g j m => if o.crew = a.ref ∧ j ∈ active a f.gd then .gone else .g j m
              | d => d))
      ∧ Moved a.bi a.b.hdr (a.slots.filter (fun j => !(active a f.gd).contains j)) (fun _ => clauseEnd a.b) c1 c'
      ∧ c1.live = a.crew.live &&& ~~~slotsMask (active a f.gd)
      ∧ (∀ p, p ∈ c1.pend ↔ p ∈ a.crew.pend ∧ ∀ j ∈ active a f.gd, ∀ n, p.dst ≠ .g j n)
      ∧ (∀ g ∈ c1.groups, g.arrivals &&& slotsMask (active a f.gd) = 0#32)
      ∧ (∀ l ∈ c1.launches, ∀ j ∈ active a f.gd, ∀ n, l.dest ≠ .g j n)
      ∧ (∀ x, c1.trap = some x → x.x &&& slotsMask (active a f.gd) = 0#32 ∧ x.trap.batch.mask &&& slotsMask (active a f.gd) = 0#32)
      ∧ (c1.mem, c1.memRow) = (if c1.live = 0#32 then (false, 0) else (a.crew.mem, a.crew.memRow))
      ∧ { c1 with live := a.crew.live, pend := a.crew.pend, groups := a.crew.groups, launches := a.crew.launches,
                  trap := a.crew.trap, mem := a.crew.mem, memRow := a.crew.memRow } = a.crew)

/-- R52, R125: a hint executes as NOP whatever its bits hold; YIELD goes on and asks that another crew issue first. -/
def Obligations.HintAndYieldGoOn : Prop :=
  (∀ (f : HINTF) (s : State) (a : At), issuer s = some a → ∃ t, exec (.hint f) s = .next t ∧ Onward s t a)
  ∧ (∀ (f : RRR) (s : State) (a : At), Passes s a (ctlChecks f pNone pNone pNone false) →
    ∃ t, exec (.yield f) s = .next t
      ∧ Onward (updCrew s a.ref (fun c => { c with batches := modAt c.batches a.bi (fun b => { b with yields := true }) })) t a)

/-- R123, R124: WAIT with every named count at 0 goes on as an acquire; else the batch parks. SLEEP parks the batch until at least the
largest count of its fibres has passed. R39, R123, R124, R16: the ends of waits. A WAIT whose counts are 0 goes on past its word
as an acquire, and a header's wait makes its batch ready; a sleeping batch whose time has come goes on past its word; a draining
batch with nothing pending becomes ready. A clause that another batch has open stays open. A flag that is owed a fall falls by
one, with the release's scope kept when it reaches 0. R136: LWAIT waits while a child that one of its fibres names lives; else, or
in its form that does not wait, each fibre has its answer, 2 for a child that lives, and the children that it reports are free,
after an acquire at SYSTEM scope. A waiting LWAIT whose fibres have all learnt their answers ends in the same way. The model's choices:
a flag keeps the scope of its last fall, and leaving a wait acquires at the widest of the named flags' scopes (log 29); LWAIT looks in
the context in which its crew acts, also in a handler (log 17). -/
def Obligations.WaitsBeginAndEnd : Prop :=
  ((∀ (f : RRR) (s : State) (a : At), Passes s a (ctlChecks f pNone pMask pNone false) →
    (flagsClear a.crew (opdVal s a 0 f.a 1 % 2 ^ 12) = true →
      ∃ t, exec (.wait f) s = .next t ∧ Onward (acquireAt s a.ref.cl (flagScopes a.crew (opdVal s a 0 f.a 1 % 2 ^ 12))) t a)
    ∧ (flagsClear a.crew (opdVal s a 0 f.a 1 % 2 ^ 12) = false →
      exec (.wait f) s = .next (Waits s a (.flags (opdVal s a 0 f.a 1 % 2 ^ 12)) true)))
  ∧ (∀ (f : RRR) (s : State) (a : At), Passes s a (ctlChecks f pNone pGks pNone false) →
    ∃ n, exec (.sleep f) s = .next (Waits s a (.sleep (s.cycle + n)) true)
      ∧ (∀ j ∈ active a f.gd, opdVal s a j f.a 1 ≤ n) ∧ ∃ j ∈ active a f.gd, opdVal s a j f.a 1 = n))
  ∧ (let ready (s : State) (a : At) : State := updCrew s a.ref (fun c => { c with batches := modAt c.batches a.bi (readyAt s.cycle) })
  let beside (t : State) (a : At) : State := updCrew t a.ref (fun x => { x with cur := a.crew.cur })
  (∀ (s : State) (a : At) (m : Nat), issuer s = some a → a.b.wait = .flags m → a.b.begun = true → flagsClear a.crew m = true →
    ∃ t, exec .waitEnd s = .next (beside t a) ∧ Onward (ready (acquireAt s a.ref.cl (flagScopes a.crew m)) a) t a)
  ∧ (∀ (s : State) (a : At) (m : Nat), issuer s = some a → a.b.wait = .flags m → a.b.begun = false → flagsClear a.crew m = true →
    exec .waitEnd s = .next (ready s a))
  ∧ (∀ (s : State) (a : At) (w : Nat), issuer s = some a → a.b.wait = .sleep w → w ≤ s.cycle →
    ∃ t, exec .sleepExpiry s = .next (beside t a) ∧ Onward (ready s a) t a)
  ∧ (∀ (s : State) (a : At), issuer s = some a → a.b.wait = .drain →
    (∀ p ∈ a.crew.pend, p.dst = .gone ∨ ∃ j n, p.dst = .g j n ∧ a.b.mask.getLsbD j = false) → exec .drainRelease s = .next (ready s a))
  ∧ (∀ (s : State) (i : Issue) (c : Crew) (f sc : Nat) (l : List (Nat × Nat)), s.issue = some i → crewOf s i.crew = some c →
    c.falls = (f, sc) :: l → sc < 16 → 0 < flagCount c f →
    ∃ F, exec .flagCompletion s = .next (updCrew s i.crew F) ∧ (F c).falls = l ∧ flagCount (F c) f = flagCount c f - 1
      ∧ (∀ g ≠ f, flagCount (F c) g = flagCount c g)
      ∧ (flagCount c f = 1 → (cRead (F c).flagScope f).toNat = sc)
      ∧ { F c with falls := c.falls, flags := c.flags, flagScope := c.flagScope, batches := c.batches } = c))
  ∧ ((∀ (f : RRR) (s : State) (a : At), Passes s a (lwaitChecks f) →
    let v (i : Nat) : Option Nat := lwaitAnswer s a (opdVal s a i f.a 1 % 2 ^ 16)
    (f.opt = 0#5 → (∃ i ∈ active a f.gd, v i = none) →
      exec (.lwait f) s = .next (Waits s a (.lwait f.d ((active a f.gd).map (fun i => (i, opdVal s a i f.a 1 % 2 ^ 16, v i)))) true))
    ∧ ((f.opt ≠ 0#5 ∨ ∀ i ∈ active a f.gd, v i ≠ none) → ∃ u t, exec (.lwait f) s = .next t
        ∧ Wrote u t (here u a) (active a f.gd) (yields f.d 1 (fun i => (v i).getD 2) (fun _ => 0))
        ∧ u = freeChildren (if reported s a f = [] then s else acquireAt s a.ref.cl 7) a (reported s a f)))
  ∧ (∀ (s : State) (a : At) (d : Opd) (l : List (Nat × Nat × Option Nat)) (v : Nat → Nat) (gone : List Nat), issuer s = some a →
    a.b.wait = .lwait d l → (∀ e ∈ l, e.2.2 = some (v e.1)) → a.b.mask ≠ 0#32 →
    gone = (l.filter (fun e => decide (v e.1 < 2))).map (·.2.1) →
    ∃ u w t, u = updCrew s a.ref (fun c => { c with batches := modAt c.batches a.bi (readyAt s.cycle) })
      ∧ w = freeChildren (if gone = [] then u else acquireAt u a.ref.cl 7) a gone
      ∧ Wrote w t (here w a) (l.map (·.1)) (yields d 1 v (fun _ => 0))
      ∧ exec .waitEnd s = .next (updCrew t a.ref (fun x => { x with cur := a.crew.cur }))))

/-- R126, R122, R115: a gathering word whose batch is named whole by its mask, while a named LIVE fibre has not arrived, parks the
batch in the group of its address and mask; as a repeat it raises CONVERGENCE instead. Where its mask names none of the batch it
raises ILLEGAL for every fibre. R126: where the issuing batch is the whole group, JOIN sends its fibres on as one batch, at the
next header. That the handler's groups are apart from those of the user's code is the model's reading (log 17). -/
def Obligations.GatheringWords : Prop :=
  (∀ (i : Instr) (w : WordSpec × Opd), gatherOf i = some w → ∀ (s : State) (a : At) (m : W32), Passes s a w.1 →
    m = BitVec.ofNat 32 (opdVal s a 0 w.2 1) →
    let same (g : Group) : Prop := g ∈ a.crew.groups ∧ g.addr = a.pc ∧ g.mask = m ∧ g.handler = a.b.handler
    (a.b.mask &&& ~~~m = 0#32 → (∀ g, same g → m &&& a.crew.live &&& ~~~(g.arrivals ||| a.b.mask) ≠ 0#32) →
      m &&& a.crew.live &&& ~~~a.b.mask ≠ 0#32 →
      exec i s = .next (if a.b.rep then faultAll s a a.slots .convergence else parked s a m i))
    ∧ (a.b.mask &&& m = 0#32 → a.b.rep = false → (∀ g, same g → m &&& a.crew.live &&& ~~~g.arrivals ≠ 0#32) →
      exec i s = .next (faultAll s a a.slots .illegal)))
  ∧ (∀ (f : RRR) (s : State) (a : At) (m : W32), Passes s a (joinChecks f) → m = BitVec.ofNat 32 (opdVal s a 0 f.a 1) → GathersAlone a m →
    ∃ c', exec (.join f) s = .next (onCrew s a.ref a.team (clusterOf s a.ref.cl).rf c')
      ∧ Moved a.bi a.b.hdr a.slots (fun _ => clauseEnd a.b) { a.crew with mem := false, memRow := 0 } c')

/-- R126 to R131: where the issuing batch is the whole group, a cross-lane word yields its exchange over the effective mask for each
fibre, writes that mask to a k-register c, and goes on. R155, R126, R79: MXQ's block is the effective mask; its results are
pending when the word has gone on, and its sticky bits stand. The model's choices: REDUX and SCAN of type .f32 set the sticky bits of
every step that each fibre's fold takes (log 24), a fold of one slot alone makes no step (log 50), and in a handler the groups are the
handler's own (log 17). -/
def Obligations.CrossLaneWordsExchange : Prop :=
  (∀ (i : Instr) (s : State) (a : At) (f : RRR) (y : Yield) (w : WordSpec × Opd) (m : W32), gatherOf i = some w → Passes s a w.1 →
    crossYield i (regatheredState s a) (regatheredAt s a) a.b.mask = some (f, y) →
    m = BitVec.ofNat 32 (opdVal s a 0 w.2 1) → GathersAlone a m →
    ∃ t, Wrote (regatheredState s a) t (regatheredAt s a) a.slots y
      ∧ exec i s = .next (if f.c.cls = .k then setK t a.ref f.c.num a.b.mask else t))
  ∧ (∀ (f : RRR) (s : State) (a : At) (w : WordSpec × Opd) (m : W32), gatherOf (.mxq f) = some w → Passes s a w.1 →
    m = BitVec.ofNat 32 (opdVal s a 0 f.c 1) → GathersAlone a m →
    ∃ F, exec (.mxq f) s = .next (updCrew (regatheredState s a) a.ref F)
      ∧ (F (regathered s a)).pend = a.crew.pend ++ mxqPends f a.b.mask (a.slots.map (fun j =>
          (j, (blockWord (rmodeOf f.opt.toNat) a.b.mask (fun k => opdVal s a k f.a 1) (fun k => opdVal s a k f.b 1) j).1)))
      ∧ (∀ b < 45, (F (regathered s a)).stat.getLsbD b = (a.crew.stat.getLsbD b || (decide (b < 11) && a.slots.any (fun j =>
          tb (blockWord (rmodeOf f.opt.toNat) a.b.mask (fun k => opdVal s a k f.a 1) (fun k => opdVal s a k f.b 1) j).2 b))))
      ∧ (a.b.rep = false → (F (regathered s a)).batches = delAt a.crew.batches a.bi ++ [nextWord s.cycle (readyAt s.cycle a.b)])
      ∧ { F (regathered s a) with
            pend := a.crew.pend, stat := a.crew.stat, batches := a.crew.batches, cur := a.crew.cur, mem := a.crew.mem,
            memRow := a.crew.memRow, yields := a.crew.yields } = a.crew)

/-- R126: GROUP_COMPLETE completes a group whose last missing fibre dropped out: a JOIN's LIVE fibres stand as one batch at the header
after its clause, and a cross-lane word runs once for the LIVE fibres that its mask names. A clause that another batch has open
stays open. CONVERGENCE_TIMEOUT raises CONVERGENCE for each fibre parked in a group that has waited 2^24 cycles, in one trap at
the group's word, and the group stays, late. -/
def Obligations.GroupsCompleteOrTimeOut : Prop :=
  (∀ (s : State) (i : Issue) (t : Team) (c : Crew) (g : Group) (b : Batch), s.issue = some i → teamOf s i.crew.cl i.crew.ts = some t →
    crewOf s i.crew = some c → c.groups.find? (groupFull c) = some g → c.batches.find? (inGroup g) = some b →
    (∀ f, g.ins = .join f → ∃ F, exec .groupComplete s = .next (updCrew s i.crew F)
      ∧ (∃ n, (F c).batches = c.batches.filter (fun x => !inGroup g x) ++ [n] ∧ n.header = clauseEnd b
          ∧ n.begun = false ∧ n.mask = g.mask &&& c.live)
      ∧ (F c).groups = c.groups.filter (fun x => !sameGroup g x) ∧ (F c).cur = c.cur
      ∧ ((F c).mem, (F c).memRow) = (if hdrDrain b.hdr then (false, 0) else (c.mem, c.memRow))
      ∧ (F c).yields = (c.yields || hdrYield b.hdr)
      ∧ { F c with batches := c.batches, groups := c.groups, mem := c.mem, memRow := c.memRow, yields := c.yields } = c)
    ∧ (∀ (f : RRR) (y : Yield) (sp : WordSpec) (c1 : Crew) (a : At), crossOf g.ins = some (f, sp) → sp.legal c.win = true →
      c1 = { c with groups := c.groups.filter (fun x => !sameGroup g x),
                    batches := c.batches.filter (fun x => !inGroup g x) ++ [{ readyAt s.cycle b with mask := g.mask &&& c.live }] } →
      a = { ref := i.crew, bi := (c.batches.filter (fun x => !inGroup g x)).length, crew := c1,
            team := { t with crews := modAt t.crews i.crew.cr (fun _ => c1) }, b := { readyAt s.cycle b with mask := g.mask &&& c.live } } →
      crossYield g.ins (updCrew s i.crew (fun _ => c1)) a (g.mask &&& c.live) = some (f, y) →
      ∃ u, Wrote (updCrew s i.crew (fun _ => c1)) u a (maskSlots (g.mask &&& c.live)) y
        ∧ exec .groupComplete s = .next (updCrew (if f.c.cls = .k then setK u i.crew f.c.num (g.mask &&& c.live) else u) i.crew
            (fun x => { x with cur := if c.cur.isSome then c.cur else x.cur }))))
  ∧ (∀ (s : State) (i : Issue) (c : Crew) (g : Group), s.issue = some i → crewOf s i.crew = some c →
    c.groups.find? (groupLate s.cycle c) = some g →
    ∃ F, exec .convergenceTimeout s = .next (updCrew s i.crew F)
      ∧ (F c).batches = c.batches.filter (fun b => !inGroup g b)
      ∧ (F c).groups = c.groups.map (fun x => if sameGroup g x then { x with late := true } else x)
      ∧ ((∀ b ∈ c.batches, inGroup g b = false) → (F c).trapWait = c.trapWait)
      ∧ ((∃ b ∈ c.batches, inGroup g b = true) → ∃ w, (F c).trapWait = c.trapWait ++ [w] ∧ w.t = g.addr ∧ w.atHeader = false
          ∧ (∀ j, w.batch.mask.getLsbD j = c.batches.any (fun b => inGroup g b && b.mask.getLsbD j))
          ∧ w.faults = (maskSlots w.batch.mask).map (fun j => (j, { fault .convergence with pc := g.addr })))
      ∧ { F c with batches := c.batches, groups := c.groups, trapWait := c.trapWait } = c)

/-- R137, R138, R122, R253: BAR parks its batch at the barrier that a names, `zero` naming every crew; when the last LIVE fibre of the
crew has parked, the crew has arrived, or its parked fibres raise ILLEGAL where their masks differ, name a crew that is not there
or not this one, or differ from the mask of the crews before. GBAR parks its batch at the grid barrier of a COOP grid, and a
crew's arrival is a release at DEVICE scope; in another grid it raises ILLEGAL. Under REP a batch that lacks a LIVE fibre raises
CONVERGENCE. (That a repeated GBAR in a grid that is not COOP raises ILLEGAL and not CONVERGENCE is the model's choice, log 50.) -/
def Obligations.BarriersPark : Prop :=
  (∀ (f : RRR) (s : State) (a : At) (id : Nat) (m : W32),
    Passes s a (ctlChecks f (pDst false) pMask { n := 1, g := false, k := true, p := false, sp := [0, 1] } true) →
    id = opdVal s a 0 f.a 1 % 16 →
    m = (if f.b.cls = .s ∧ f.b.num = 1 then BitVec.ofNat 32 (2 ^ a.team.crews.length - 1) else BitVec.ofNat 32 (opdVal s a 0 f.b 1)) →
    (a.b.rep = true → a.crew.live &&& ~~~a.b.mask ≠ 0#32 → exec (.bar f) s = .next (faultAll s a a.slots .convergence))
    ∧ ((a.b.rep = true → a.crew.live &&& ~~~a.b.mask = 0#32) →
      ∃ u c, u = Waits s a (.bar id m f.d) true ∧ crewOf u a.ref = some c ∧ (allParked c (atBar id) = false → exec (.bar f) s = .next u)
      ∧ (allParked c (atBar id) = true →
        let good : Prop := (∀ b ∈ c.batches, atBar id b = true → barSet b = m) ∧ m &&& ~~~(BitVec.ofNat 32 (2 ^ a.team.crews.length - 1)) = 0#32
          ∧ m.getLsbD a.ref.cr = true ∧ ∀ x, (barObj a.team id).set = some x → x = m
        (good → exec (.bar f) s = .next (updTeam (updCrew u a.ref (fun c => { c with arrivedAt := s.cycle })) a.ref.cl a.ref.ts (fun t =>
            { t with bars := put t.bars id { barObj a.team id with
                arrived := (barObj a.team id).arrived ||| (1#32 <<< a.ref.cr), set := some m } })))
        ∧ (¬ good → ∃ F, exec (.bar f) s = .next (updCrew u a.ref F) ∧ (F c).batches = c.batches.filter (fun b => !atBar id b)
            ∧ (∃ l, (F c).trapWait = c.trapWait ++ l ∧ l.map (·.t) = (c.batches.filter (atBar id)).map batchPc
                ∧ ∀ w ∈ l, ∀ e ∈ w.faults, e.2.kind = .illegal ∧ e.2.pc = w.t)
            ∧ { F c with batches := c.batches, trapWait := c.trapWait, cur := c.cur } = c))))
  ∧ (∀ (f : RRR) (s : State) (a : At) (g : Grid), Passes s a { ctlChecks f (pDst false) pNone pNone true with rel := true } →
    gridOf s a.team.ctx a.team.gid = some g →
    (g.coop = false → exec (.gbar f) s = .next (faultAll s a a.slots .illegal))
    ∧ (g.coop = true → a.b.rep = true → a.crew.live &&& ~~~a.b.mask ≠ 0#32 → exec (.gbar f) s = .next (faultAll s a a.slots .convergence))
    ∧ (g.coop = true → (a.b.rep = true → a.crew.live &&& ~~~a.b.mask = 0#32) →
      ∃ u c, u = Waits s a (.gbar f.d) true ∧ crewOf u a.ref = some c
        ∧ (c.live ≠ 0#32 → allParked c atGbar = false → exec (.gbar f) s = .next u)
        ∧ (allParked c atGbar = true →
          exec (.gbar f) s = .next (updCrew (releaseAt u a.ref.cl 5) a.ref (fun c => { c with arrivedAt := s.cycle })))))

/-- R137, R138, R273, R276: a barrier whose named crews have all arrived opens: the parked batches of those crews that have LIVE
fibres wait for their wave, the crews stand in their cluster's queue, its generation goes on and it is empty again; so does a grid
barrier for every team of its grid. A wave releases the crews at the head of its cluster's queue, as many as CSLOPE says (all for
0, 65 to 255 as they are, the model's choice, log 50), each by an acquire and then the release with status 0. R137, R139: the release of a crew whose batches at one word wait for
their wave: they go on past the word as one batch, and their fibres' destination holds the status `v`. (Batches at other words are
released apart, the model's choice, log 18.) -/
def Obligations.BarriersOpenAndRelease : Prop :=
  ((∀ (s : State) (x ts id : Nat) (t : Team), teamOf s x ts = some t → barFull t (barObj t id) = true → id < 16 → t.saved = false →
    ∃ u t', exec (.barrierOpen x ts id) s = .next u ∧ teamOf u x ts = some t'
      ∧ barObj t' id = { arrived := 0#32, set := none, gen := ((barObj t id).gen + 1) % 2 ^ 32 }
      ∧ (∀ j ≠ id, barObj t' j = barObj t j) ∧ t'.crews.length = t.crews.length
      ∧ (∀ (j : Nat) (c : Crew), t.crews[j]? = some c →
          (c.live ≠ 0#32 → (barObj t id).set.any (fun m => m.getLsbD j) = true →
            t'.crews[j]? = some { c with issued := 0, batches := c.batches.map (fun b => if atBar id b then { b with wait := waveWait b.wait } else b) }
            ∧ { ts := ts, cr := j, grid := false, opened := s.cycle } ∈ (clusterOf u x).waves)
          ∧ ((c.live = 0#32 ∨ (barObj t id).set.any (fun m => m.getLsbD j) = false) → t'.crews[j]? = some { c with issued := 0 }))
      ∧ (∀ w ∈ (clusterOf s x).waves, w ∈ (clusterOf u x).waves)
      ∧ { clusterOf u x with
            teams := (clusterOf s x).teams, waves := (clusterOf s x).waves, waveAt := (clusterOf s x).waveAt } = clusterOf s x
      ∧ (∀ y, y ≠ x → clusterOf u y = clusterOf s y) ∧ { u with clusters := s.clusters } = s)
  ∧ (∀ (s : State) (ctx gid : Nat) (g : Grid), gridOf s ctx gid = some g → gbarFull s g = true →
    ∃ u, exec (.gridBarrierOpen ctx gid) s = .next u ∧ gridOf u ctx gid = some { g with gen := g.gen + 1 }
      ∧ (∀ (x ts j : Nat) (t : Team) (c : Crew), teamOf s x ts = some t → t.ctx = ctx → t.gid = gid → t.crews[j]? = some c → c.live ≠ 0#32 →
          (∃ t', teamOf u x ts = some t' ∧ t'.crews[j]?
            = some { c with issued := 0, batches := c.batches.map (fun b => if atGbar b then { b with wait := waveWait b.wait } else b) })
          ∧ { ts := ts, cr := j, grid := true, opened := s.cycle } ∈ (clusterOf u x).waves)
      ∧ { u with clusters := s.clusters, grids := s.grids } = s)
  ∧ (∀ (s : State) (x : Nat), waveDue s (clusterOf s x) = true →
    ∃ u l, exec (.barrierWaveRelease x) s
        = .next (updCluster u x (fun c => { c with waves := c.waves.drop l.length, waveAt := c.waveAt + slice c.cslope.toNat 0 8 }))
      ∧ u = l.foldl (fun s w => releaseBar s.cycle isWave (acquireAt s x (if w.grid then 5 else 2)) { cl := x, ts := w.ts, cr := w.cr } 0) s
      ∧ l = (if slice (clusterOf s x).cslope.toNat 8 8 = 0 then (clusterOf s x).waves
             else (clusterOf s x).waves.take (slice (clusterOf s x).cslope.toNat 8 8))))
  ∧ (∀ (s : State) (r : CrewRef) (t : Team) (c : Crew) (b : Batch) (d : Opd) (v : Nat), teamOf s r.cl r.ts = some t →
    t.crews[r.cr]? = some c → c.batches.filter isWave = [b] → b.wait = .wave d →
    let c2 : Crew := { c with batches := c.batches.filter (fun x => !isWave x) ++ [readyAt s.cycle b] }
    let a2 : At := { ref := r, bi := (c.batches.filter (fun x => !isWave x)).length, crew := c2,
                     team := { t with crews := modAt t.crews r.cr (fun _ => c2) }, b := readyAt s.cycle b }
    Wrote (updCrew s r (fun _ => c2)) (releaseBar s.cycle isWave s r v) a2 (maskSlots b.mask) (yields d 1 (fun _ => v) (fun _ => 0)))

/-- R54, R18: REP opens its sequence: its count plus 1 repeats, its step mask and step code stand in the crew's status word, and the
batch stands at the word to repeat; the rest of the status word stands. While another sequence of the crew is open, it waits. R55:
a misused REP (the last word of its clause, a reserved step, a guard or bits that are not clear, a word that may not follow, or a
step mask that its fields lack) raises ILLEGAL for every fibre of the batch and opens no sequence; a sequence whose word could not
be read until its first repeat raises it then, at the REP word, and closes. R54, R56: a repeat issues the word with the fields of
the step mask advanced by the repeats done times the step, and writes what the word yields; while repeats are left and the
sequence is one batch's, one more is done, and the last one closes the sequence and goes on past the word. (Repeats left and done
are at most 64 together in every sequence that REP opens. That REP before a reserved opcode opens its sequence, whose repeat then
traps, is the model's choice, log 50, and so is what a trap keeps of a sequence that it cuts, log 16.) -/
def Obligations.RepeatSequences : Prop :=
  (∀ (f : REPF) (s : State) (a : At), issuer s = some a → a.b.next ≠ hdrCount a.b.hdr → f.step ≠ 3#2 → f.gd.p = 15#4 → f.gd.neg = false →
    f.hi = 0#27 → f.lo = 0#10 → (∀ w, (nextWordOf s a).2 = some w → repMisused f w.toNat = false) →
    (repLeft a.crew.stat ≠ 0 → exec (.rep f) s = .next (Waits (nextWordOf s a).1 a .repBusy true))
    ∧ (repLeft a.crew.stat = 0 → ∃ F, exec (.rep f) s = .next (updCrew (nextWordOf s a).1 a.ref F)
      ∧ repLeft (F a.crew).stat = f.count.toNat + 1 ∧ repDone (F a.crew).stat = 0 ∧ repMask (F a.crew).stat = f.mask.toNat
      ∧ repStep (F a.crew).stat = f.step.toNat ∧ (∀ b < 45, (F a.crew).stat.getLsbD b = a.crew.stat.getLsbD b)
      ∧ (F a.crew).batches = modAt a.crew.batches a.bi (fun b => { b with next := b.next + 1, rep := true })
      ∧ { F a.crew with stat := a.crew.stat, batches := a.crew.batches } = a.crew))
  ∧ ((∀ (f : REPF) (s : State) (a : At), issuer s = some a →
    (a.b.next = hdrCount a.b.hdr ∨ f.step = 3#2 ∨ f.gd.p ≠ 15#4 ∨ f.gd.neg = true ∨ f.hi ≠ 0#27 ∨ f.lo ≠ 0#10
      ∨ ∃ w, (nextWordOf s a).2 = some w ∧ repMisused f w.toNat = true) →
    exec (.rep f) s = .next (faultAll (nextWordOf s a).1 a a.slots .illegal))
  ∧ (∀ (s u : State) (a : At) (v : W64), issuer s = some a → a.b.rep = true → isReady a.b = true → a.b.mask ≠ 0#32 →
    fetch64 s a.ref.cl a.ctx a.pc = (u, .ok v) → repDone a.crew.stat = 0 → repMisused (openRep a.crew) v.toNat = true →
    ∃ t c' tw, exec .repeatIssue s = .next t ∧ crewOf t a.ref = some c' ∧ repLeft c'.stat = 0 ∧ c'.trapWait = a.crew.trapWait ++ [tw]
      ∧ c'.batches = delAt a.crew.batches a.bi
      ∧ tw.faults = a.slots.map (fun j => (j, { fault .illegal with pc := batchPc { a.b with next := a.b.next - 1 } }))))
  ∧ (∀ (s u : State) (a : At) (v : W64) (i : Instr) (w : LocalWord), issuer s = some a → a.b.rep = true → isReady a.b = true →
    fetch64 s a.ref.cl a.ctx a.pc = (u, .ok v) → (repDone a.crew.stat = 0 → repMisused (openRep a.crew) v.toNat = false) →
    decodeAdv (advOf (repMask a.crew.stat) (repStep a.crew.stat) (repDone a.crew.stat)) v.toNat = i → localOf i = some w →
    Passes u a w.sp → 1 ≤ repLeft a.crew.stat → repLeft a.crew.stat + repDone a.crew.stat ≤ 64 →
    (∀ b ∈ delAt a.crew.batches a.bi, inSeq a.b.handler b = false) →
    ∃ t, exec .repeatIssue s = .next t ∧ Wrote u t a (active a w.sp.gd) (w.y u a)
      ∧ ∃ c', crewOf t a.ref = some c' ∧ repLeft c'.stat = repLeft a.crew.stat - 1
          ∧ (1 < repLeft a.crew.stat → repDone c'.stat = repDone a.crew.stat + 1 ∧ repMask c'.stat = repMask a.crew.stat
              ∧ repStep c'.stat = repStep a.crew.stat ∧ c'.batches = { a.b with wait := .none } :: delAt a.crew.batches a.bi)
          ∧ (repLeft a.crew.stat = 1 →
              c'.batches = nextWord s.cycle { a.b with wait := .none } :: wakeRep a.b.handler (delAt a.crew.batches a.bi)))

/-- R57, R58, R158: a fused sequence of two or three words, whose words pass their checks in a crew without pending results, issues
as one: it has the effect of its words in order, each word's results written before the next, and counts as one fused sequence; a
fused FMUL, FCVT and PACK8 leaves its three destinations pending together. While a register of its first word is pending the whole
sequence waits (R311). (Which source of FCVT and of PACK8 names the earlier destination is the model's choice, log 50.) -/
def Obligations.FusedWordsRunInOrder : Prop :=
  let calm (c : Crew) : Prop := c.pend = []
  let fusedOnce (u : State) (a : At) : State := updCluster u a.ref.cl (fun c => { c with fused := (c.fused + 1) % 2 ^ 32 })
  let then_ (s t : State) (a : At) (i : Instr) (w : LocalWord) : Prop := exec i s = .next t
    ∧ (active a w.sp.gd ≠ [] → Wrote s t a (active a w.sp.gd) (w.y s a)) ∧ (active a w.sp.gd = [] → Onward s t a)
  let thenLater (s t : State) (a : At) (i : Instr) (w : LocalWord) : Prop := exec i s = .next t
    ∧ Later s t a (active a w.sp.gd) (w.y s a)
  (∀ (s : State) (a : At) (i j : Instr) (v w : LocalWord), issuer s = some a → a.b.begun = true → calm a.crew → fusable s a = [i, j] →
    localOf i = some v → localOf j = some w → Passes s a v.sp → w.sp.legal a.crew.win = true →
    ∃ t u b, then_ s t a i v ∧ issuer (settle t a.ref) = some b ∧ b.pc = a.pc + 8 ∧ then_ (settle t a.ref) u b j w
      ∧ exec .fusedIssue s = .next (fusedOnce (settle u a.ref) a))
  ∧ (∀ (s : State) (a : At) (i j k : Instr) (v w x : LocalWord), issuer s = some a → a.b.begun = true → calm a.crew →
    fusable s a = [i, j, k] → localOf i = some v → laterOf j = some w → laterOf k = some x → Passes s a v.sp →
    framed a (some 2) false = true → w.sp.legal a.crew.win = true → x.sp.legal a.crew.win = true →
    ∃ t u y b d c F, then_ s t a i v ∧ issuer (settle t a.ref) = some b ∧ thenLater (settle t a.ref) u b j w
      ∧ issuer (settle u a.ref) = some d ∧ thenLater (settle u a.ref) y d k x ∧ crewOf (settle y a.ref) a.ref = some c
      ∧ exec .fusedIssue s = .next (fusedOnce (updCrew (settle y a.ref) a.ref F) a)
      ∧ (∃ l, (F c).pend = c.pend ++ l ∧ (∀ p ∈ l, p.ready = true)
          ∧ (∀ g h n, fuseHead i = some (g, h, n) → ∀ d ∈ tripleDests [i, j, k], d.cls = .g → ∀ z ∈ active a g,
              { dst := .g z d.num, val := some (gRead (clusterOf (settle y a.ref) a.ref.cl) c z d.num), ready := true } ∈ l)
          ∧ ∀ p ∈ l, ∃ d ∈ tripleDests [i, j, k], (∃ z, p.dst = .g z d.num) ∨ p.dst = .k d.num)
      ∧ { F c with pend := c.pend } = c)
  ∧ (∀ (s : State) (a : At) (i : Instr) (l : List Instr) (v : LocalWord), issuer s = some a → a.b.begun = true → fusable s a = i :: l →
    localOf i = some v → framed a v.sp.port v.sp.ct = true → active a v.sp.gd ≠ [] → v.sp.legal a.crew.win = true →
    hazard a.crew (active a v.sp.gd) v.sp.regs = true → exec .fusedIssue s = .next (Waits s a .hazard false))

/-- R132, R134: LAUNCH by slot 0 of crew 0 whose block passes checks 1 and 2 reserves its status register, raises its flag, keeps the
block for LAUNCH_STATUS, and goes on. By any other fibre it raises ILLEGAL. R134, R135, R246: LAUNCH_STATUS. A grid at depth 10
launches nothing: status 0x02; a killed one, or a launch with no token for which there is no grid id or no room, 0x01; and the
flag falls. A launch with no token and no COOP flag, for which there is a grid id and room, makes a child grid in the context in
which its crew acted, at the next depth with the block's teams, crews, windows, banks and cluster mask, is a release at DEVICE
scope, and its status is OK with the grid id. (That a killed grid's launch answers NORESOURCE is the model's choice, log 34.) -/
def Obligations.LaunchesAreDecided : Prop :=
  ((∀ (f : ENG) (s : State) (a : At) (n : Nat), Passes s a (launchChecks f) → a.ref.cr = 0 → active a f.gd = [0] →
    flagFull a.crew (flagOf f.fa.toNat) = false → padReadBlocked a.team f.off.toNat 0xD0 = false → f.off.toNat % 16 = 0 →
    f.off.toNat + 0x50 ≤ padSize a.team → n = launchExtent (slice (padNat s a.ref.cl a.ref.ts (f.off.toNat + 0x48) 4) 0 4) →
    f.off.toNat + n ≤ padSize a.team → launchBad (padBytes s a.ref.cl a.ref.ts f.off.toNat n) = false →
    ∃ t, exec (.launch f) s = .next t ∧ Onward (updCrew s a.ref (fun c => { raised (flagOf f.fa.toNat) c with
      pend := c.pend ++ [{ dst := .g 0 f.st, val := none, ready := false }],
      launches := c.launches ++ [{ ctx := a.ctx, block := padBytes s a.ref.cl a.ref.ts f.off.toNat n, dest := .g 0 f.st,
                                   flag := flagOf f.fa.toNat }] })) t a)
  ∧ (∀ (f : ENG) (s : State) (a : At), Passes s a (launchChecks f) → (a.ref.cr ≠ 0 ∨ 0 ∉ active a f.gd) →
    exec (.launch f) s = .next (faultAll s a (active a f.gd) .illegal)))
  ∧ (∀ (s : State) (i : Issue) (t : Team) (c : Crew) (p : LaunchPend) (l : List LaunchPend) (g : Grid), s.issue = some i →
    teamOf s i.crew.cl i.crew.ts = some t → crewOf s i.crew = some c → c.launches = p :: l → gridOf s t.ctx t.gid = some g →
    let refused (v : Nat) : Prop := exec .launchStatus s = .next (oweFall (deliver (updCrew s i.crew (fun c => { c with launches := l }))
      i.crew (some p.dest) v) i.crew p.flag 0)
    (g.killed = false → 10 ≤ g.depth → refused 0x02000000) ∧ (g.killed = true → refused 0x01000000)
    ∧ (g.killed = false → g.depth < 10 → (launchBlock p.block).toks = [] →
        (freeKey (gidsUsed s p.ctx) 0 65536 = none ∨ launchShort s (launchBlock p.block) = true) → refused 0x01000000)
    ∧ (∀ gid, g.killed = false → g.depth < 10 → (launchBlock p.block).toks = [] → (launchBlock p.block).coop = false →
      freeKey (gidsUsed s p.ctx) 0 65536 = some gid → launchShort s (launchBlock p.block) = false →
      ∃ u child, exec .launchStatus s = .next (deliver (placeAll u maxTeams) i.crew (some p.dest) gid)
        ∧ u = updGrid (releaseAt { updCrew s i.crew (fun c => { c with launches := l }) with grids := s.grids ++ [child] } i.crew.cl 5)
            g.ctx g.gid (fun g => { g with children := g.children + 1 })
        ∧ child.ctx = p.ctx ∧ child.gid = gid ∧ child.depth = g.depth + 1 ∧ child.parent = some (g.ctx, g.gid) ∧ child.priv = false
        ∧ child.teams = (launchBlock p.block).teams ∧ child.unfinished = child.teams ∧ child.nextTeam = 0
        ∧ child.crews = (launchBlock p.block).crews ∧ child.w8 = (launchBlock p.block).w8 ∧ child.banks = (launchBlock p.block).banks
        ∧ child.cmask = (launchBlock p.block).cmask ∧ child.entry.toNat = (launchBlock p.block).entry % 2 ^ 64
        ∧ child.kinit = (launchBlock p.block).kinit))

/-- R161 to R172, R174 to R183, R185 to R192, R247, R248: words that each fibre performs in slot order, where no fibre faults: their
results are pending when the batch has gone on, and the machine is as the fibres' operations leave it. R166, R167, R168: stores
and prefetches, where no fibre faults: the batch goes on, and the machine is as the fibres' accesses leave it. R164, R356: where each
fibre whose guard is true meets a fault that is no absent page, the crew waits for the trap with these faults and the word's address.
R366, R368: where a batch of one fibre meets an absent page, the page's entry is opened or joined, and the fibre parks at its word on
the ticket, out of the memory set; a page without an entry takes the lowest free one, and the driver is asked for it. R183, R16:
RECALL. Where its flag has room for every fibre, each fibre's status is pending when the batch has gone on; where the flag's count
reaches 15 before, the batch waits with the fibres that are done, and goes on from there: that it keeps them as done is the model's
choice, log 27. -/
def Obligations.FibreByFibreWords : Prop :=
  (∀ (i : Instr) (w : EachWord), pendingOf i = some w → ∀ (s u : State) (a : At) (l : List (Nat × FRes)), Passes s a w.sp →
    w.stall s a (active a w.sp.gd) = false → w.runs a (active a w.sp.gd) s = (u, l.map (fun e => (e.1, .ok e.2))) →
    ∃ t, exec i s = .next t ∧ Pending u t a l)
  ∧ (∀ (i : Instr) (w : EachWord), onwardOf i = some w → ∀ (s u : State) (a : At) (l : List (Nat × FRes)), Passes s a w.sp →
    w.stall s a (active a w.sp.gd) = false → w.runs a (active a w.sp.gd) s = (u, l.map (fun e => (e.1, .ok e.2))) →
    ∃ t, exec i s = .next t ∧ Onward u t a)
  ∧ (∀ (i : Instr) (w : EachWord), (pendingOf i = some w ∨ onwardOf i = some w) → ∀ (s u : State) (a : At) (e : Nat → FaultInfo),
    Passes s a w.sp → w.stall s a (active a w.sp.gd) = false → (w.lowest = true → ∃ j, active a w.sp.gd = [j]) →
    w.runs a (active a w.sp.gd) s = (u, (active a w.sp.gd).map (fun j => (j, .bad (e j)))) →
    ((∀ j ∈ active a w.sp.gd, (e j).kind ≠ .notPresent) →
      ∃ t, exec i s = .next t ∧ Trapped u t a ((active a w.sp.gd).map (fun j => (j, { e j with pc := a.pc }))))
    ∧ (∀ j v tk, a.slots = [j] → (e j).kind = .notPresent → (e j).quiet = none →
      pageRequest u a.ctx (e j).va { e j with pc := a.pc } = (v, tk) →
      ∃ F, exec i s = .next (updCrew v a.ref F) ∧ ∀ c, (∀ b, c.batches[a.bi]? = some b → b.mask = a.b.mask →
        (F c).batches = delAt c.batches a.bi ++ [{ a.b with wait := .ticket tk [(j, { e j with pc := a.pc })] }])
        ∧ (F c).mem = false ∧ (tk.isSome = true → (F c).stat.getLsbD 44 = true) ∧ (F c).pend = c.pend ∧ (F c).preds = c.preds
        ∧ (F c).k = c.k))
  ∧ (∀ (s : State) (ctx va n : Nat) (f : FaultInfo), pageOpen s ctx va = none → freeKey s.pages 0 512 = some n →
    let gen := (look s.pageGens n).getD 0
    ∃ u, pageRequest s ctx va f = (u, some (n + gen % 128 * 512))
      ∧ u.events = s.events ++ [.pageRequest (n + gen % 128 * 512) ctx f.needRd f.needWr f.needEx f.hw (va / 65536 * 65536)]
      ∧ look u.pages n = some { ctx := ctx, va := va / 65536, gen := gen })
  ∧ (∀ (f : RRR) (s : State) (a : At), Passes s a (ownSpec f 2 (flagOk (f.opt.toNat % 16) && decide (f.opt.toNat < 16)) false) →
    ((∀ x ok, a.b.wait ≠ .recalling x ok) →
      (∀ x, flagOf (f.opt.toNat % 16) = some x → flagCount a.crew x + (active a f.gd).length ≤ 15) →
      ∃ u l t, recallAll f a (active a f.gd) [] s = (u, l, true) ∧ l.map (·.1) = active a f.gd ∧ exec (.recallWord f) s = .next t
        ∧ Pending u t a (l.map (fun e => (e.1, res f.d 1 e.2 0))))
    ∧ (∀ u done l ok, done = (match a.b.wait with | .recalling x _ => x | _ => []) →
      recallAll f a ((active a f.gd).filter (fun i => !done.any (fun e => e.1 == i))) done s = (u, l, ok) →
      (ok = true → ∃ t, exec (.recallWord f) s = .next t ∧ Pending u t a (l.map (fun e => (e.1, res f.d 1 e.2 0))))
      ∧ (ok = false → exec (.recallWord f) s = .next (Waits u a (.recalling l false) false))))

/-- R25, R163, R164: a fibre's PAD load reads the bytes at its offset, little-endian, extended by its type, and changes nothing; a PAD
store writes its bytes there, and reading any other place gives what it gave. R164 (R25, R355): a PAD access that is not aligned
raises MISALIGNED, one that passes the end of the PAD raises BOUNDS, with the offset in the record, and nothing changes. -/
def Obligations.PadAccesses : Prop :=
  (∀ (f : MEM) (s : State) (a : At) (i off : Nat), issuer s = some a → f.space = 1#2 → (f.ty.toNat < 8 ∨ f.ty.toNat = 13) →
    off = wrapNat 32 (opdVal s a i (memBase f) 1 + sext 24 f.off.toNat) → off % memBytes f.ty.toNat = 0 →
    off + memBytes f.ty.toNat ≤ padSize a.team → a.team.banks.Nodup →
    (∀ sc, loadFibre f sc a i s = (s, .ok (loadRes f sc (leNat ((List.range (memBytes f.ty.toNat)).map (fun j =>
      cRead (clusterOf s a.ref.cl).sram (padKey a.team.banks (off + j))))))))
    ∧ (∀ sc, ∃ sram, storeFibre f sc a i s = (updCluster s a.ref.cl (fun c => { c with sram := sram }), .ok noRes)
        ∧ (∀ j < memBytes f.ty.toNat, cRead sram (padKey a.team.banks (off + j))
            = BitVec.ofNat 8 (dataVal s a i (memData f sc) (memRegs f.ty.toNat) / 2 ^ (8 * j)))
        ∧ (∀ key, (∀ j < memBytes f.ty.toNat, padKey a.team.banks (off + j) ≠ key) →
            cRead sram key = cRead (clusterOf s a.ref.cl).sram key)))
  ∧ (∀ (s : State) (a : At) (x : Acc) (off : Nat),
    (off % x.n ≠ 0 → ∃ e, padAcc s a x off = (s, .error e) ∧ e.kind = .misaligned ∧ e.addr = off ∧ e.width = x.n)
    ∧ (off % x.n = 0 → padSize a.team < off + x.n → ∃ e, padAcc s a x off = (s, .error e) ∧ e.kind = .bounds ∧ e.addr = off))

/-- R166, R169, R304: after a store by a cluster to device, peer or CXL memory, a load of the same bytes by it gives what was stored,
whatever the two policies and whatever lines the L1 holds. R170: a global atomic reads the bytes at their home after the cluster's
dirty line has gone there, and leaves the new bytes there; no other byte of device or CXL memory changes but those that the dirty
line held. (CXL memory is stated where no port is isolated and the L2s have room.) R164, R165: the checks of a global access, in
order: PROTECTION for an address of 2^57 or more, MISALIGNED, NOTPRESENT with the permissions needed, PROTECTION for a malformed
entry, which is reported, for a window and for a page without the permission, then ORPHAN, POISON, UNOWNED and OWNMODE as the token
of the byte and what the crew, its team and its grid hold of it say, then POISON; an access that passes goes to the page's place.
R168: PREF of a line at hand brings it into the L1, under BYPASS into the L2 alone; where a load would fault it does nothing.
(That a BYPASS load writes the cluster's own dirty line home first is the model's choice, log 52, and so is the form of an atomic on
peer memory, log 3.) -/
def Obligations.MemoryAccessesTakeEffect : Prop :=
  (∀ (s : State) (cl k ctx ctx' : Nat) (l : List Byte) (p q : Policy) (w w' g g' : Bool),
    (k < 2 ^ 50 ∨ isPeer k = true ∨ (isCxl k = true ∧ (∀ x, behindIsolated s x = false) ∧ Roomy s)) →
    k % 64 + l.length ≤ 64 → (∀ e ∈ (clusterOf s cl).l1, e.key % 64 = 0) →
    (l1Load (l1Store s cl k ctx l p w g) cl k l.length ctx' q w' g').2 = l)
  ∧ (∀ (s : State) (cl ctx k n : Nat) (m : PeerOp) (op : Nat → Nat),
    (k + n ≤ 2 ^ 50 ∨ isPeer k = true ∨ (isCxl k = true ∧ k + n ≤ 2 ^ 51 ∧ Roomy s)) →
    (amoMem s cl ctx k n m op).2 = homeNat (amoClear s cl k) k n
    ∧ homeBytes (amoMem s cl ctx k n m op).1 k n = leBytes n (op (homeNat (amoClear s cl k) k n))
    ∧ (l1Find (clusterOf s cl) k = none → ∀ b, (b < 2 ^ 50 ∨ (b < 2 ^ 51 ∧ Roomy s)) → b < k ∨ k + n ≤ b →
        homeByte (amoMem s cl ctx k n m op).1 b = homeByte s b))
  ∧ (∀ (s : State) (a : At) (x : Acc) (va : Nat), 0 < x.n →
    (2 ^ 57 ≤ va → Stops s s a x va noToken .protection)
    ∧ (va < 2 ^ 57 → va % x.n ≠ 0 → Stops s s a x va noToken .misaligned)
    ∧ (va < 2 ^ 57 → va % x.n = 0 →
      (translate s (some a.ref.cl) (dieNo a.ref.cl) a.ctx va = .error .absent → ∃ e, globalAcc s a x va = (s, .error e)
        ∧ e.kind = .notPresent ∧ e.va = va ∧ (e.needRd = true ↔ x.kind ≠ .store) ∧ (e.needWr = true ↔ x.kind ≠ .load) ∧ e.hw = false
        ∧ e.quiet = none)
      ∧ (∀ p, translate s (some a.ref.cl) (dieNo a.ref.cl) a.ctx va = .error (.bad p) →
          Stops s (emit s (.badPte p)) a x va noToken .protection)
      ∧ ∀ e u, translate s (some a.ref.cl) (dieNo a.ref.cl) a.ctx va = .ok e → u = tlbFill s (some a.ref.cl) (dieNo a.ref.cl) e →
        let may : Prop := isWindow e = false ∧ (x.kind ≠ .store → e.rd = true) ∧ (x.kind ≠ .load → e.wr = true)
        (¬ may → Stops s u a x va noToken .protection)
        ∧ (may → a.crew.priv = false → coverOf s a.ctx va = none → Stops s u a x va noToken .unowned)
        ∧ (∀ d i t, may → a.crew.priv = false → coverOf s a.ctx va = some (d, i, t) →
          (t.state = .orphan → Stops s u a x va (d * 2 ^ 31 + i) .orphan)
          ∧ (t.state = .poison → Stops s u a x va (d * 2 ^ 31 + i) .poison)
          ∧ (t.state ≠ .orphan → t.state ≠ .poison →
            (¬ HoldsSome s d i t a.ids → Stops s u a x va (d * 2 ^ 31 + i) .unowned)
            ∧ (HoldsSome s d i t a.ids → ¬ Permitted s d i t a.ids x.kind → Stops s u a x va (d * 2 ^ 31 + i) .ownmode)
            ∧ (Permitted s d i t a.ids x.kind → l1Find (clusterOf s a.ref.cl) (locOf e va) = none →
              (x.kind ≠ .store → poisoned s (locOf e va) = true → Stops s u a x va (d * 2 ^ 31 + i) .poison)
              ∧ ((x.kind = .store ∨ poisoned s (locOf e va) = false) → locOf e va < 2 ^ 50 →
                  ∃ wide, globalAcc s a x va = (u, .ok (.mem (locOf e va) wide))))))))
  ∧ (∀ (f : MEM) (s : State) (a : At) (j : Nat) (x : Acc), x = { kind := .load, n := memBytes f.ty.toNat, pol := policyOf f.policy } →
    (∀ u e, memAcc s a j f x = (u, .error e) → prefFibre f a j s = (u, .ok noRes))
    ∧ (∀ u off, memAcc s a j f x = (u, .ok (.pad off)) → prefFibre f a j s = (u, .ok noRes))
    ∧ (∀ u k wide, memAcc s a j f x = (u, .ok (.mem k wide)) → ∃ v, prefFibre f a j s = (v, .ok noRes)
      ∧ (x.pol ≠ .bypass → wayCount (clusterOf u a.ref.cl) ≠ 0 →
          ((clusterOf u a.ref.cl).l1.filter (fun e =>
            l1Set (clusterOf u a.ref.cl) e.key == l1Set (clusterOf u a.ref.cl) (k / 64 * 64) && e.lock.isSome)).length < 4 →
          (l1Find (clusterOf v a.ref.cl) k).isSome = true)
      ∧ (x.pol = .bypass → (clusterOf v a.ref.cl).l1.map (·.key) = (clusterOf u a.ref.cl).l1.map (·.key))
      ∧ (x.pol = .bypass → Roomy u → k < 2 ^ 50 → k % 128 + x.n ≤ 128 → (∀ e ∈ (clusterOf u a.ref.cl).l1, e.dirty = 0#64) →
          homeHolds v k x.n = true)
      ∧ (x.pol = .bypass → Roomy u → isPeer k = true → (∀ e ∈ (clusterOf u a.ref.cl).l1, e.dirty = 0#64) →
          peerHeld (dieOf v (dieNo a.ref.cl)) (k / 64 * 64) = true)
      ∧ ((∀ e ∈ (clusterOf u a.ref.cl).l1, e.dirty = 0#64) → ∀ b, b < 2 ^ 50 → homeByte v b = homeByte u b)))

/-- R173: FENCE releases, then acquires, at its scope, as its option says, and goes on. R173, R253: after a release at DIE scope or
wider no wide line of the cluster is dirty; after an acquire at such a scope the cluster holds no wide line; narrower scopes
change nothing. R247: TLBINV by page, by range and by context leaves no entry that it names in any TLB of the context, and no
other entry goes; by context or by index it leaves no cached record that it names. -/
def Obligations.FencesAndInvalidations : Prop :=
  (∀ (f : RRR) (s : State) (a : At), Passes s a (mSpec f pNone pNone pNone pNone (f.opt.toNat % 4 != 0)) →
    ∃ t, exec (.fence f) s = .next t ∧ Onward
      (let u := if f.opt.toNat / 2 % 2 = 1 then releaseAt s a.ref.cl (f.opt.toNat / 4) else s
       if f.opt.toNat % 2 = 1 then acquireAt u a.ref.cl (f.opt.toNat / 4) else u) t a)
  ∧ (∀ (s : State) (cl sc : Nat),
    (sc < 4 → releaseAt s cl sc = s ∧ acquireAt s cl sc = s)
    ∧ (4 ≤ sc → (∀ e ∈ (clusterOf s cl).l1, behindIsolated s e.key = false) →
        ∀ e ∈ (clusterOf (releaseAt s cl sc) cl).l1, e.wide = true → e.dirty = 0#64)
    ∧ (4 ≤ sc → ∀ e ∈ (clusterOf (acquireAt s cl sc) cl).l1, e.wide = false))
  ∧ (∀ (s : State) (ctx kind x y : Nat), kind < 4 →
    let named (e : TlbEntry) : Prop := e.ctx = ctx ∧ (match kind with
      | 0 => x / 2 ^ e.bits = e.va / 2 ^ e.bits
      | 1 => e.va < x + y ∧ x < e.va + 2 ^ e.bits ∧ 0 < y
      | 2 => True
      | _ => False)
    (∀ d < 2, ∀ e, e ∈ (dieOf (tlbinv s ctx kind x y) d).tlb ↔ e ∈ (dieOf s d).tlb ∧ ¬ named e)
    ∧ (∀ cl e, e ∈ (clusterOf (tlbinv s ctx kind x y) cl).tlb ↔ e ∈ (clusterOf s cl).tlb ∧ ¬ named e)
    ∧ (∀ cl e, e ∈ (clusterOf (tlbinv s ctx kind x y) cl).recs ↔ e ∈ (clusterOf s cl).recs
        ∧ ¬ (e.ctx = ctx ∧ (kind = 2 ∨ (kind = 3 ∧ e.idx = x % 2 ^ 16)))))

/-- R174, R16: CFLUSH takes the lowest free of four walkers for the range of its lowest fibre, raises its flag, and goes on; the
walk's end leaves no dirty line in the range and no dirty wide line, under `.inv` no unlocked line in the range either, and owes the
flag's fall with release at DEVICE scope; the walker goes when the flag has fallen, and until then a store of the cluster to its
range is written through. R175: CINV invalidates the unlocked lines of the range, their dirty bytes written home first, keeps the
locked ones, and counts them. R176: CLOCK takes the lines of its range in turn: it fills a line as a load would, ends at a line that
faults, locks it for the team, and counts it as locked, a locked one too, or as refused where three lines of its set are locked or
none can be filled; CUNLOCK unlocks the lines of the range that its team locked, and counts them. R177: CDEMOTE clears the keep-last
marks of the range's lines, and counts them. (Obligations.FibreByFibreWords says that these words run so for each fibre.) -/
def Obligations.FlushWalks : Prop :=
  (∀ (f : RRR) (s : State) (a : At) (n : Nat), Passes s a (mSpec f pNone (pSrc true) (pSrc false) pNone (flagOk (f.opt.toNat % 16))) →
    flagFull a.crew (flagOf (f.opt.toNat % 16)) = false → freeKey (clusterOf s a.ref.cl).walkers 0 4 = some n →
    ∃ t i w, exec (.cflush f) s = .next t ∧ (active a f.gd).head? = some i
      ∧ w = ({ ctx := a.ctx, lo := opdVal s a i f.a 2, hi := opdVal s a i f.a 2 + opdVal s a i f.b 1, inv := tb f.opt.toNat 4,
               ts := a.ref.ts, cr := a.ref.cr, flag := flagOf (f.opt.toNat % 16), done := false } : Walker)
      ∧ Onward (updCrew (updCluster s a.ref.cl (fun c => { c with walkers := put c.walkers n w })) a.ref (raised (flagOf (f.opt.toNat % 16)))) t a)
  ∧ (∀ (s : State) (cl n : Nat) (w : Walker), look (clusterOf s cl).walkers n = some w →
    (w.done = false → unacked s = false → (∀ e ∈ (clusterOf s cl).l1, behindIsolated s e.key = false) →
      ∃ u, exec (.cflushWalkDone cl n) s = .next (match w.flag with
          | none => endWalker u cl n
          | some x => oweFall (updCluster u cl (fun c => { c with walkers := put c.walkers n { w with done := true } }))
              { cl := cl, ts := w.ts, cr := w.cr } (some x) 5)
        ∧ (∀ e ∈ (clusterOf u cl).l1, e.wide = true → e.dirty = 0#64)
        ∧ ∀ e ∈ (clusterOf u cl).l1, inSpans (spans s (dieNo cl) w.ctx w.lo (w.hi - w.lo)) e.key = true →
            e.dirty = 0#64 ∧ (w.inv = true → e.lock.isSome = true))
    ∧ (w.done = true → walkFell s cl w = true → exec (.cflushWalkDone cl n) s = .next (endWalker s cl n))
    ∧ look (clusterOf (endWalker s cl n) cl).walkers n = none
    ∧ (∀ (k ctx : Nat) (l : List Byte) (p : Policy) (wide urg : Bool), k % 64 + l.length ≤ 64 → k + l.length ≤ 2 ^ 50 →
      inSpans (spans s (dieNo cl) w.ctx w.lo (w.hi - w.lo)) (k / 64 * 64) = true → (n, w) ∈ (clusterOf s cl).walkers →
      (∀ e ∈ (clusterOf s cl).l1, e.key % 64 = 0) → ((l1Find (clusterOf s cl) k).isSome = true ∨ p = .bypass) →
      homeBytes (l1Store s cl k ctx l p wide urg) k l.length = l))
  ∧ (∀ (s u : State) (a : At) (lo n v : Nat), ((clusterOf s a.ref.cl).l1.map (·.key)).Nodup →
    (∀ e ∈ (clusterOf s a.ref.cl).l1, e.key % 64 = 0 ∧ behindIsolated s e.key = false) → cinvRun a lo n s = (u, .ok v) →
    let hit (e : L1Line) : Prop := inSpans (spans s (dieNo a.ref.cl) a.ctx lo n) e.key = true
    v = ((clusterOf s a.ref.cl).l1.filter (fun e => inSpans (spans s (dieNo a.ref.cl) a.ctx lo n) e.key && e.lock.isSome)).length
    ∧ (∀ e, e ∈ (clusterOf u a.ref.cl).l1 ↔ e ∈ (clusterOf s a.ref.cl).l1 ∧ (hit e → e.lock.isSome = true))
    ∧ (∀ e ∈ (clusterOf s a.ref.cl).l1, hit e → e.lock = none → e.key < 2 ^ 50 → ∀ i < 64, e.dirty.getLsbD i = true →
        homeByte u (e.key + i) = BitVec.ofNat 8 (e.data.toNat / 2 ^ (8 * i)))
    ∧ (∀ b < 2 ^ 50, (∀ e ∈ (clusterOf s a.ref.cl).l1, hit e → e.lock = none → ¬(e.key ≤ b ∧ b < e.key + 64)) →
        homeByte u b = homeByte s b))
  ∧ (∀ (s u : State) (a : At) (lo : Nat),
    (∀ e, globalAcc s a { kind := .load, n := 1, pol := .normal } lo = (u, .error e) → clockRun a 1 lo 0 0 s = (u, .error e))
    ∧ (∀ k wide v, globalAcc s a { kind := .load, n := 1, pol := .normal } lo = (u, .ok (.mem k wide)) →
      v = (l1Load u a.ref.cl k 1 a.ctx .normal wide a.urgent).1 →
      let full : Prop := 3 ≤ ((clusterOf v a.ref.cl).l1.filter (fun x =>
        l1Set (clusterOf v a.ref.cl) x.key == l1Set (clusterOf v a.ref.cl) k && x.lock.isSome)).length
      (l1Find (clusterOf v a.ref.cl) k = none → clockRun a 1 lo 0 0 s = (v, .ok 0x10000))
      ∧ ∀ e, l1Find (clusterOf v a.ref.cl) k = some e →
        (e.lock.isSome = true → clockRun a 1 lo 0 0 s = (v, .ok 1))
        ∧ (e.lock = none → full → clockRun a 1 lo 0 0 s = (v, .ok 0x10000))
        ∧ (e.lock = none → ¬ full → ∃ t, clockRun a 1 lo 0 0 s = (t, .ok 1)
          ∧ l1Find (clusterOf t a.ref.cl) k = some { e with lock := some a.ref.ts, lockVa := lo / 64 * 64 }
          ∧ ∀ x, x.key ≠ e.key → (x ∈ (clusterOf t a.ref.cl).l1 ↔ x ∈ (clusterOf v a.ref.cl).l1)))
    ∧ (∀ n v, n < 65535 → clockRun a 1 lo 0 0 s = (u, .ok v) →
      (∀ t e, clockRun a n (lo / 64 * 64 + 64) 0 0 u = (t, .error e) → clockRun a (n + 1) lo 0 0 s = (t, .error e))
      ∧ ∀ t w, clockRun a n (lo / 64 * 64 + 64) 0 0 u = (t, .ok w) → clockRun a (n + 1) lo 0 0 s = (t, .ok (v + w))))
  ∧ (∀ (s : State) (a : At) (lo n : Nat),
    let hit (e : L1Line) : Bool := inSpans (spans s (dieNo a.ref.cl) a.ctx lo n) e.key
    (∃ u, markLines (fun e => e.lock == some a.ref.ts) (fun e => { e with lock := none }) a lo n s
        = (u, .ok ((clusterOf s a.ref.cl).l1.filter (fun e => hit e && e.lock == some a.ref.ts)).length)
      ∧ (clusterOf u a.ref.cl).l1.length = (clusterOf s a.ref.cl).l1.length
      ∧ ∀ (i : Nat) (e : L1Line), (clusterOf s a.ref.cl).l1[i]? = some e →
          (clusterOf u a.ref.cl).l1[i]? = some ({ e with lock := if hit e = true ∧ e.lock = some a.ref.ts then none else e.lock } : L1Line))
    ∧ ∃ u, markLines (·.keep) (fun e => { e with keep := false }) a lo n s
        = (u, .ok ((clusterOf s a.ref.cl).l1.filter (fun e => hit e && e.keep)).length)
      ∧ (clusterOf u a.ref.cl).l1.length = (clusterOf s a.ref.cl).l1.length
      ∧ ∀ (i : Nat) (e : L1Line), (clusterOf s a.ref.cl).l1[i]? = some e →
          (clusterOf u a.ref.cl).l1[i]? = some ({ e with keep := e.keep && !hit e } : L1Line))

/-- R180, R181, R182, R183, R185: tokens. LEND of a whole exclusive token passes it to the receiver and puts the lender on its chain;
a read share of it leaves it SHARED with one share out; RETN gives it back to the last lender, and a mirror at the end of its
chain to the peer; a returned share is one less, and the last leaves the token in its state without shares; SPLIT and MERGE cut
and join regions of one owner; RECALL marks the token for the holder nearest its owner; OWNQ of a byte that no token covers
answers level 3 and no token id. R248: TOKADM of an address where no token begins is NOTHELD; a reserved class for `.assign` and a
value for `.poison` are FORMAT, another state MODE, a receiver that LEND's checks refuse HOLDER; `.poison` makes an ORPHAN token
POISON; `.assign` makes an ORPHAN or POISON token EXCL, owned by the receiver, without shares, chain or recall; either discards the
token's shares, and `.assign` leaves no L1 a line of the region. -/
def Obligations.TokensMove : Prop :=
  (∀ (s : State) (ctx d i : Nat) (ids : List W64) (t : Token) (c : W64), coverOf s ctx t.base = some (d, i, t) → tokenAt s d i = some t →
    ids.contains t.owner = true → holderClass c ≤ 6 → holderClass c ≠ 4 → receiverOk s ctx none c = true → t.owner ≠ c →
    regionOk t.base t.len = true → t.state = .excl → t.n = 0 → jointlyHeld s d i = false → foreignRecall t = false →
    (t.chain.length < 8 → ∃ u t', lend s ctx ids t.base t.len c 0 none = (u, .status 0) ∧ tokenAt u d i = some t' ∧ t'.owner = c
      ∧ t'.chain = t.chain ++ [t.owner] ∧ t'.base = t.base ∧ t'.len = t.len ∧ t'.state = .excl ∧ t'.n = 0 ∧ t'.ctx = t.ctx)
    ∧ (∀ j, freeOwner s d = some j → (dieOf s d).owners.length < 131072 → d < 2 →
      ∃ u t', lend s ctx ids t.base t.len c 1 none = (u, .status 0) ∧ tokenAt u d i = some t' ∧ t'.owner = t.owner ∧ t'.chain = t.chain
        ∧ t'.state = .shared ∧ t'.n = 1 ∧ look (dieOf u d).owners j = some (.share { holder := c, atomic := false, tok := i })))
  ∧ (∀ (s : State) (ctx d i : Nat) (ids : List W64) (t : Token) (l : List W64) (x : W64), shareFor s ctx ids t.base t.len = none →
    coverOf s ctx t.base = some (d, i, t) → ids.contains t.owner = true → isBad t = false → t.n = 0 → jointlyHeld s d i = false →
    t.chain = l ++ [x] →
    (t.peer = none → ∃ u t', retn s ctx ids t.base t.len = (u, 0) ∧ tokenAt u d i = some t' ∧ t'.owner = x ∧ t'.chain = l
      ∧ t'.base = t.base ∧ t'.len = t.len ∧ t'.state = t.state ∧ t'.n = 0)
    ∧ (∀ p, t.peer = some p → l = [] → ∃ u, retn s ctx ids t.base t.len = (u, 0) ∧ tokenAt u d i = none
        ∧ ∃ y, u.egress = y ++ [.peerRetn (p % 512) t.ctx t.base t.len]))
  ∧ (∀ (s : State) (d j : Nat) (h : Share) (t : Token), look (dieOf s d).owners j = some (.share h) → tokenAt s d h.tok = some t →
    ∃ t', tokenAt (dropShare s d j h) d h.tok = some t' ∧ t'.n = t.n - 1 ∧ t'.state = (if t.n ≤ 1 then t.rest else t.state)
      ∧ t'.owner = t.owner ∧ t'.chain = t.chain ∧ look (dieOf (dropShare s d j h) d).owners j = none)
  ∧ (∀ (s : State) (cl ctx d i j b : Nat) (ids : List W64) (t : Token), ownedAt s ctx ids t.base = some (d, i, t) → t.peer = none →
    b % 64 = 0 → t.base < b → b < t.base + t.len → isBad t = false → t.n = 0 → jointlyHeld s d i = false → foreignRecall t = false →
    regionDie (fenceAr s cl (ownScope s t.owner)) t.ctx b = regionDie s t.ctx b → freeOwner s (regionDie s ctx b) = some j → t.ctx = ctx →
    (d, i) ≠ (regionDie s ctx b, j) →
    ∃ u lo hi, split s cl ctx ids t.base b = (u, .status 0) ∧ tokenAt u d i = some lo ∧ tokenAt u (regionDie s ctx b) j = some hi
      ∧ lo = { t with len := b - t.base } ∧ hi = { t with base := b, len := t.base + t.len - b, recalls := [] })
  ∧ (∀ (s : State) (cl ctx d i e j : Nat) (ids : List W64) (t u : Token), ownedAt s ctx ids t.base = some (d, i, t) →
    ownedAt s ctx ids u.base = some (e, j, u) → (d, i) ≠ (e, j) → isBad t = false → isBad u = false → jointlyHeld s d i = false →
    jointlyHeld s e j = false → t.recaller = none → u.recaller = none → u.base = t.base + t.len → t.state = .excl → u.state = .excl →
    t.n = 0 → u.n = 0 → t.chain = u.chain → t.len + u.len ≤ 2 ^ 40 → t.owner = u.owner → t.peer = u.peer → d < 2 → e < 2 →
    ∃ x, merge s cl ctx ids t.base u.base = (x, 0) ∧ tokenAt x d i = some { t with len := t.len + u.len } ∧ tokenAt x e j = none)
  ∧ (∀ (s : State) (r : CrewRef) (ctx d i : Nat) (ids : List W64) (t : Token) (h : W64), coverOf s ctx t.base = some (d, i, t) →
    nearestLender ids t.chain = some h → isBad t = false → t.recaller = none → t.owner ≠ h →
    ∃ u t', recallToken s r ctx ids t.base t.len none = (u, 0) ∧ tokenAt u d i = some t' ∧ t'.recaller = some h ∧ t'.owner = t.owner
      ∧ t'.chain = t.chain)
  ∧ (∀ (s : State) (ctx x : Nat) (ids : List W64), coverOf s ctx x = none → ownqVal s ctx ids x = 24 + 0xFFFFFFFF * 2 ^ 32)
  ∧ (∀ (s : State) (ctx op x y : Nat), op < 2 → y < 2 ^ 64 →
    let reserved : Prop := (op = 0 ∧ 7 ≤ y / 2 ^ 60) ∨ (op = 1 ∧ y ≠ 0)
    (reserved → tokadm s ctx op x y = (s, .format))
    ∧ (¬ reserved → (∀ d i t, coverOf s ctx x = some (d, i, t) → t.base ≠ x) → tokadm s ctx op x y = (s, .status 0x01000000))
    ∧ (∀ d i t, ¬ reserved → coverOf s ctx x = some (d, i, t) → t.base = x →
      (op = 1 → t.state ≠ .orphan → tokadm s ctx op x y = (s, .status (0x02000000 + t.n % 2 ^ 24)))
      ∧ (op = 1 → t.state = .orphan → ∃ u, tokadm s ctx op x y = (u, .status 0)
        ∧ tokenAt u d i = some { t with state := .poison, n := 0 } ∧ sharesOf u d i = [])
      ∧ (op = 0 → t.state ≠ .orphan → t.state ≠ .poison → tokadm s ctx op x y = (s, .status (0x02000000 + t.n % 2 ^ 24)))
      ∧ (op = 0 → (t.state = .orphan ∨ t.state = .poison) → receiverOk s ctx none (BitVec.ofNat 64 y) = false →
          tokadm s ctx op x y = (s, .status 0x05000000))
      ∧ (op = 0 → (t.state = .orphan ∨ t.state = .poison) → receiverOk s ctx none (BitVec.ofNat 64 y) = true → y / 2 ^ 60 ≠ 4 →
          ∃ u, tokadm s ctx op x y = (u, .status 0) ∧ sharesOf u d i = []
            ∧ tokenAt u d i = some { t with state := .excl, owner := BitVec.ofNat 64 y, n := 0, chain := [], recaller := none,
                                            recalls := [], rest := .excl }
            ∧ ∀ cl, ∀ e ∈ (clusterOf u cl).l1, inSpans (spans s (dieNo cl) ctx t.base t.len) e.key = false)))

/-- R186, R187: BANKCFG sets every named bank to the mode and leaves every other bank's mode; a change of the WAY banks empties the
L1; banks that become PAD are the team's, which goes on with its PAD zero. R186, R187: what refuses it, in order: RANGE; OWNED by
another team; WAYCOUNT; BUSY, for a PAD bank that leaves while a range of the team is in flight, and for a FIFO bank that leaves
with entries or named by a sender's counter; LOCKED, with the count of locked lines, where the WAY count changes. R188: BANKQ reads a
bank's mode and, for a PAD or FIFO bank, its owner, or counts the WAY, the OFF and the team's PAD banks. (Obligations.FibreByFibreWords
says that the two words answer so for each fibre.) -/
def Obligations.BankConfigurationChanges : Prop :=
  (∀ (s : State) (cl ts lo n : Nat) (m : BankMode),
    let c := clusterOf s cl
    let was (b : Nat) : BankMode := (bankOf c b).mode
    let named (b : Nat) : Prop := lo ≤ b ∧ b < lo + n
    let foreign (b : Nat) : Prop := named b ∧ (was b = .pad ∨ was b = .fifo) ∧ (bankOf c b).owner ≠ ts
    let ways : Nat := ((List.range 384).filter (fun b => decide (if lo ≤ b ∧ b < lo + n then m = .way else was b = .way))).length
    let busy : Prop := (∃ b t, named b ∧ was b = .pad ∧ m ≠ .pad ∧ teamOf s cl ts = some t ∧ t.ranges ≠ [])
      ∨ (∃ b, named b ∧ was b = .fifo ∧ m ≠ .fifo ∧ ((bankOf c b).slots ≠ [] ∨ fifoNamed s cl b = true))
    let locked : Nat := (c.l1.filter (fun e => e.lock.isSome)).length
    ((n = 0 ∨ 384 < lo + n) → bankCheck s cl ts lo n m = 0x14000000)
    ∧ (0 < n → lo + n ≤ 384 →
      (∀ b, foreign b → (∀ x < b, ¬ foreign x) → bankCheck s cl ts lo n m = 0x12000000 + b)
      ∧ ((∀ b, ¬ foreign b) → ways ∉ [0, 4, 8, 16, 32, 64, 128, 256] → bankCheck s cl ts lo n m = 0x11000000)
      ∧ ((∀ b, ¬ foreign b) → ways ∈ [0, 4, 8, 16, 32, 64, 128, 256] →
        (busy → bankCheck s cl ts lo n m = 0x13000000)
        ∧ (¬ busy → ways ≠ wayCount c → locked ≠ 0 → bankCheck s cl ts lo n m = 0x10000000 + locked % 2 ^ 24)
        ∧ (¬ busy → (ways = wayCount c ∨ locked = 0) → bankCheck s cl ts lo n m = 0))))
  ∧ (∀ (c : Cluster) (ts b : Nat), (bankOf c b).owner < 32 →
    let v := bankqVal c ts b
    v % 4 = (match (bankOf c b).mode with | .way => 0 | .pad => 1 | .fifo => 2 | .off => 3)
    ∧ (((bankOf c b).mode = .pad ∨ (bankOf c b).mode = .fifo) → v / 2 ^ 8 % 2 ^ 5 = (bankOf c b).owner
        ∧ (v.testBit 13 = true ↔ (bankOf c b).owner = ts))
    ∧ (((bankOf c b).mode = .way ∨ (bankOf c b).mode = .off) → v < 4) ∧ v < 2 ^ 14 ∧ v / 4 % 2 ^ 6 = 0)
  ∧ (∀ (c : Cluster) (t : Team), t.banks.length ≤ 384 →
    let v := bankqCount c t
    v % 2 ^ 9 = ((List.range 384).filter (fun b => decide ((bankOf c b).mode = .way))).length
    ∧ v / 2 ^ 9 % 2 ^ 9 = ((List.range 384).filter (fun b => decide ((bankOf c b).mode = .off))).length
    ∧ v / 2 ^ 18 = t.banks.length)
  ∧ ∀ (s : State) (cl ts lo n : Nat) (m : BankMode) (t : Team), teamOf s cl ts = some t →
    (∀ b, (bankOf (clusterOf (bankApply s cl ts lo n m) cl) b).mode
      = if lo ≤ b ∧ b < lo + n then m else (bankOf (clusterOf s cl) b).mode)
    ∧ ((∃ b, lo ≤ b ∧ b < lo + n ∧ (bankOf (clusterOf s cl) b).mode ≠ m ∧ (m = .way ∨ (bankOf (clusterOf s cl) b).mode = .way)) →
        (clusterOf (bankApply s cl ts lo n m) cl).l1 = [] ∧ (clusterOf (bankApply s cl ts lo n m) cl).victims = [])
    ∧ (m = .pad → ∀ b, lo ≤ b → b < lo + n → (bankOf (clusterOf s cl) b).mode ≠ .pad → b ∉ t.banks →
        (bankOf (clusterOf (bankApply s cl ts lo n m) cl) b).owner = ts
        ∧ ∃ t', teamOf (bankApply s cl ts lo n m) cl ts = some t' ∧ b ∈ t'.banks
          ∧ ∀ x ∈ t'.banks, ∀ o < 1024, cRead (clusterOf (bankApply s cl ts lo n m) cl).sram (x * 1024 + o) = 0#8)

/-- R189, R191, R192: a queue of the class without waiters is first in, first out: an insert into a queue with room writes the item
behind the tail and moves the tail, and a full queue refuses it; a removal answers the item at the head and moves the head. R190:
QINIT of a queue at hand whose header holds no live number writes HEAD, TAIL and WAITERS 0, the configuration with the lowest free
number of the context, which it answers, every ITEM 0 and every TOKID 0xFFFF_FFFF; with no number free it answers NORESOURCE and
writes nothing; a queue of a live number with waiters or with a token in an item is BUSY and stays; QINIT.free of one without frees
the number and writes QNUM 0; a reserved LOGCAP or bit raises FORMAT. -/
def Obligations.QueuesAreFifo : Prop :=
  (∀ (s : State) (cl ctx a b q : Nat) (ids : List W64) (x : Ctx), InitAtHand s cl ctx ids a b → qLive s ctx (qHead s (dieNo cl) ctx a).qnum = false →
    ctxOf s ctx = some x → freeKey x.queues 1 65536 = some q →
    ∃ u y, qinit s cl ctx ids a b false = (u, .ok q) ∧ vaNat u (dieNo cl) ctx a 8 = 0 ∧ vaNat u (dieNo cl) ctx (a + 8) 8 = b + q * 2 ^ 8
      ∧ vaNat u (dieNo cl) ctx (a + 16) 16 = 0 ∧ (∀ i < 2 ^ (b % 32), vaNat u (dieNo cl) ctx (a + 32 + 16 * i) 8 = 0
        ∧ vaNat u (dieNo cl) ctx (a + 40 + 16 * i) 8 = 0xFFFFFFFF)
      ∧ ctxOf u ctx = some y ∧ look y.queues q = some a)
  ∧ (∀ (s : State) (cl ctx a b : Nat) (ids : List W64) (x : Ctx), InitAtHand s cl ctx ids a b →
    let stays (free : Bool) (v : Nat) : Prop := ∃ u, qinit s cl ctx ids a b free = (u, .ok v) ∧ u.ctxs = s.ctxs
      ∧ vaBytes u (dieNo cl) ctx a (queueBytes (b % 32)) = vaBytes s (dieNo cl) ctx a (queueBytes (b % 32))
    let h := qHead s (dieNo cl) ctx a
    let busy : Prop := h.waiters ≠ 0 ∨ (1 ≤ h.logcap ∧ h.logcap = b % 32 ∧ ∃ i < 2 ^ h.logcap, i < (h.tail + 2 ^ 32 - h.head) % 2 ^ 32
      ∧ vaNat s (dieNo cl) ctx (slotVa a h.logcap (h.head + i) + 8) 4 ≠ noToken)
    (ctxOf s ctx = some x → qLive s ctx h.qnum = false → freeKey x.queues 1 65536 = none → stays false 0x23000000)
    ∧ (qLive s ctx h.qnum = true → busy → stays false 0x13000000 ∧ (h.logcap = b % 32 → stays true 0x13000000))
    ∧ (qLive s ctx h.qnum = true → h.logcap = b % 32 → qBusy s (dieNo cl) ctx a h = false → ctxOf s ctx = some x →
      ∃ u y, qinit s cl ctx ids a b true = (u, .ok 0) ∧ (qHead u (dieNo cl) ctx a).qnum = 0 ∧ ctxOf u ctx = some y
        ∧ ∀ k, look y.queues k = if k = h.qnum then none else look x.queues k))
  ∧ (∀ (s : State) (cl ctx a b : Nat) (ids : List W64), a < 2 ^ 57 → a % 64 = 0 → (64 ≤ b ∨ b % 32 = 0 ∨ 20 < b % 32) →
    ∃ e, qinit s cl ctx ids a b false = (s, .error e) ∧ e.kind = .format)
  ∧ ∀ (s : State) (die ctx a item : Nat) (h : QHead) (e : TlbEntry), QueueMapped s die ctx a (queueBytes h.logcap) e → h = qHead s die ctx a →
    h.bad = false → h.work = false → item < 2 ^ 64 →
    (qFull s ctx h = false →
      ∃ u, qInsert s die ctx a h item noToken = (u, stOk) ∧ qHead u die ctx a = { h with tail := (h.tail + 1) % 2 ^ 32 }
        ∧ vaNat u die ctx (slotVa a h.logcap h.tail) 8 = item
        ∧ (∀ i, i % 2 ^ h.logcap ≠ h.tail % 2 ^ h.logcap →
            vaBytes u die ctx (slotVa a h.logcap i) 16 = vaBytes s die ctx (slotVa a h.logcap i) 16))
    ∧ (qFull s ctx h = true → qInsert s die ctx a h item noToken = (s, 0x20000000))
    ∧ (h.head ≠ h.tail → vaNat s die ctx (slotVa a h.logcap h.head + 8) 4 = noToken → ∀ id,
      ∃ u, qRemove s die ctx a h id = (u, some (vaNat s die ctx (slotVa a h.logcap h.head) 8, noToken))
        ∧ qHead u die ctx a = { h with head := (h.head + 1) % 2 ^ 32 })
    ∧ (h.head = h.tail → ∀ id, qRemove s die ctx a h id = (s, none))

/-- R178, R192, R193, R277: QPOP, QPOLL, QWAIT and QPOLL_RETRY. When every fibre has its item or its refusal, the batch goes on with
the four registers pending; else it waits: a first try for the end of its cycle, later ones 64 cycles doubled with each failure, a
QWAIT on the waiter list. A lone fibre at a queue at hand that holds an item gets it; at an empty one it waits, and its last
failure is EMPTY, status 0x21; a QWAIT on a queue of the class without waiters is CLASS, status 0x22. (That a first try without an
item fails at the end of its cycle is the model's choice, log 1.) -/
def Obligations.QueueWaits : Prop :=
  (∀ (i : Instr) (f : RRR) (sp : WordSpec) (lim : State → At → Nat → Nat), pollOf i = some (f, sp, lim) → ∀ (s : State) (a : At), Passes s a sp →
    (∀ u fs, pollRound a false ((active a f.gd).map (fun j => newWait j (opdVal s a j f.a 2) (lim s a j))) s = (u, fs) →
      (∀ l, AllServed fs l → ∃ t, exec i s = .next t ∧ Pending (backedOff u a 0) t a (waitResults f.d l))
      ∧ ((∃ x ∈ fs, x.done = none) → exec i s = .next (Waits u a (.queue u.cycle f.d fs) false)))
    ∧ (∀ j q h, active a f.gd = [j] → q = opdVal s a j f.a 2 → WarmQueue s a q h →
      (HasItem s a q h → ∃ t, exec i s = .next t
        ∧ Pending (backedOff (removed s a q h) a 0) t a (waitResults f.d [(j, itemRegs (headItem s a q h) noToken)]))
      ∧ (h.head = h.tail → exec i s = .next (Waits (seen s a q) a (.queue s.cycle f.d [newWait j q (lim s a j)]) false))))
  ∧ (∀ (f : RRR) (s : State) (a : At), Passes s a (mSpec f pQuad (pSrc true) pNone pNone (noOpt f.opt.toNat)) →
    (∀ u fs, qwaitAll f a (active a f.gd) s = (u, fs) →
      (∀ l, AllServed fs l → ∃ t, exec (.qwait f) s = .next t ∧ Pending (backedOff u a 0) t a (waitResults f.d l))
      ∧ ((∃ x ∈ fs, x.done = none) → exec (.qwait f) s
          = .next (Waits (backedOff u a (mostTries fs)) a (.queue (u.cycle + pollWait (mostTries fs)) f.d fs) true)))
    ∧ (∀ j q h k, active a f.gd = [j] → q = opdVal s a j f.a 2 → WarmQueue s a q h → vaLoc s (dieNo a.ref.cl) a.ctx q = some k →
      (h.work = false → ∃ t, exec (.qwait f) s = .next t ∧ Pending (backedOff (seen s a q) a 0) t a (waitResults f.d [(j, noItem 0x22)]))
      ∧ (h.work = true → HasItem s a q h → ∃ t, exec (.qwait f) s = .next t
        ∧ Pending (backedOff (removed s a q h) a 0) t a (waitResults f.d [(j, itemRegs (headItem s a q h) noToken)]))
      ∧ (h.work = true → h.head = h.tail → (dieOf s (homeDie k (dieNo a.ref.cl))).waiters.length < 1024 →
        exec (.qwait f) s = .next (Waits (backedOff (vaPut (updDie (seen s a q) (homeDie k (dieNo a.ref.cl)) (fun d => { d with
            waiters := d.waiters ++ [{ ctx := a.ctx, queue := h.qnum, crew := a.ref, slot := j }] }))
          (dieNo a.ref.cl) a.ctx (q + 16) 2 (h.waiters + 1)) a 0) a
          (.queue (s.cycle + 64) f.d [{ newWait j q 0 with queue := h.qnum, listed := true }]) true))))
  ∧ (∀ (s : State) (a : At) (w : Nat) (d : Opd) (fs : List QFibre), issuer s = some a → a.b.wait = .queue w d fs → w ≤ s.cycle →
    a.b.mask ≠ 0#32 → (∃ x ∈ fs, x.done = none ∧ x.listed = false) →
    let own : Bool := a.crew.cur.any (fun m => a.b.mask.getLsbD m)
    let woken (u : State) : State := if own then u else readied u a
    let kept (t : State) : State := if own then t else besides t a
    (∀ u gs, pollRound a true fs s = (u, gs) →
      (∀ l, AllServed gs l → ∃ t, exec .qpollRetry s = .next (kept t) ∧ Pending (backedOff (woken u) a 0) t a (waitResults d l))
      ∧ ((∃ x ∈ gs, x.done = none) → exec .qpollRetry s
          = .next (kept (Waits (backedOff (woken u) a (mostTries gs)) a (.queue (u.cycle + pollWait (mostTries gs)) d gs) true))))
    ∧ (∀ x h, fs = [x] → WarmQueue s a x.addr h →
      (HasItem s a x.addr h → ∃ t, exec .qpollRetry s = .next (kept t)
        ∧ Pending (backedOff (woken (removed s a x.addr h)) a 0) t a (waitResults d [(x.slot, itemRegs (headItem s a x.addr h) noToken)]))
      ∧ (h.head = h.tail → x.tries + 1 = x.limit → ∃ t, exec .qpollRetry s = .next (kept t)
        ∧ Pending (backedOff (woken (seen s a x.addr)) a 0) t a (waitResults d [(x.slot, noItem 0x21)]))
      ∧ (h.head = h.tail → x.tries + 1 ≠ x.limit → exec .qpollRetry s = .next (kept (Waits (backedOff (woken (seen s a x.addr)) a (x.tries + 1)) a
          (.queue (s.cycle + pollWait (x.tries + 1)) d [{ x with tries := x.tries + 1 }]) true)))))
  ∧ (∀ (s : State) (a : At) (w : Nat) (d : Opd) (fs : List QFibre) (l : List (Nat × List W32)), issuer s = some a → a.b.wait = .queue w d fs →
    a.b.mask ≠ 0#32 → AllServed fs l → ∃ t, exec .waitEnd s = .next (besides t a) ∧ Pending (backedOff (readied s a) a 0) t a (waitResults d l))

/-- R34, R35: RDSYS yields the named word of the register, zero beyond its width; its clearing form clears the sticky bits after the
read. R239, R34, R35: in the user view each privileged instruction raises PRIVILEGE, and so does RDSYS of a register that the user
view may not read; a word of a register number that the table does not list raises ILLEGAL, and so does WRSYS of a read-only one
in the privileged view. None of them changes a register. R244, R356: TRAP: each fibre whose guard is true faults with its operand
as the record's address; the crew waits for the trap, every fibre of the batch going on after the clause, T the address of the
next word. -/
def Obligations.SystemReadsAndViews : Prop :=
  (∀ (f : SYSF) (s : State) (a : At) (v : Nat → Nat × Nat), (∀ i, sysTable s a i f.num.toNat = some (v i)) →
    let y := yields f.d 2 (fun i => (v i).2 % 2 ^ (v i).1 / 2 ^ (64 * f.word.toNat) % 2 ^ 64) (fun _ => 0)
    (Passes s a (readChecks f false) → ∃ t, exec (.rdsys f) s = .next t ∧ Wrote s t a (active a f.gd) y)
    ∧ (Passes s a (readChecks f true) → ∃ t, exec (.rdsysClr f) s = .next t
        ∧ Wrote (updCrew s a.ref clearedCrew) t (clearedAt a) (active a f.gd) y))
  ∧ ((∀ (i : Instr) (sp : WordSpec) (s : State) (a : At), privilegedOf i = some sp → issuer s = some a → a.crew.priv = false →
    framed a sp.port sp.ct = true → (sp.plain = true → guardPlain sp.gd = true) → active a sp.gd ≠ [] → sp.legal a.crew.win = true →
    exec i s = .next (faultAll s a (active a sp.gd) .privilege))
  ∧ (∀ (f : SYSF) (s : State) (a : At) (r : SysReg), issuer s = some a → a.crew.priv = false → framed a (some 0) false = true →
    active a f.gd ≠ [] → (readChecks f false).legal a.crew.win = true → sysRegOf f.num.toNat = some r → r.user = false →
    exec (.rdsys f) s = .next (faultAll s a (active a f.gd) .privilege))
  ∧ (∀ (f : SYSF) (s : State) (a : At), issuer s = some a → framed a (some 0) false = true → active a f.gd ≠ [] →
    (sysRegOf f.num.toNat = none → exec (.rdsys f) s = .next (faultAll s a (active a f.gd) .illegal)
      ∧ exec (.wrsys f) s = .next (faultAll s a (active a f.gd) .illegal))
    ∧ (∀ r, sysRegOf f.num.toNat = some r → r.rw = false → a.crew.priv = true → (writeChecks f).legal a.crew.win = true →
        hazard a.crew (active a f.gd) [(f.a, 2)] = false → exec (.wrsys f) s = .next (faultAll s a (active a f.gd) .illegal))))
  ∧ (∀ (f : RRR) (s : State) (a : At), Passes s a (sysChecks f pNone pGks pNone (noOpt f.opt.toNat) true false false) →
    ∃ F tw, exec (.trap f) s = .next (updCrew s a.ref F) ∧ (F a.crew).trapWait = a.crew.trapWait ++ [tw]
      ∧ (F a.crew).batches = delAt a.crew.batches a.bi ∧ tw.t = a.pc + 8 ∧ tw.atHeader = false ∧ tw.batch.mask = a.b.mask
      ∧ tw.faults.map (·.1) = active a f.gd ∧ tw.moved = a.slots.map (fun i => (i, clauseEnd a.b))
      ∧ (∀ e ∈ tw.faults, e.2.kind = .trap ∧ e.2.addr = opdVal s a e.1 f.a 1 ∧ e.2.pc = a.pc)
      ∧ { F a.crew with batches := a.crew.batches, trapWait := a.crew.trapWait, cur := a.crew.cur } = a.crew)

/-- R246: WRSYS in the privileged view of a register that may be written, where no fibre's value faults: the batch goes on, and the
register is as the fibres' writes in slot order leave it. R246, R35: what a write leaves reads back: every register of the context
and of the crew in its width, the sticky bits in the status word, CTXID of a context that exists, CSLOPE, an expert THROTTLE
window from 1 to 32, and an expert URGENCY mark. (That the fibres write in slot order is the model's choice, log 26; that OBJCOUNT,
PRIVMAX, FAULTBASE and the WAVE of CSLOPE take every value, log 50.) -/
def Obligations.SystemWrites : Prop :=
  (∀ (i : Instr) (f : SYSF) (g : State → At → Nat → Except FKind State), wrsysWith i = some (f, g) → ∀ (s u : State) (a : At),
    Passes s a (writeChecks f) → (∃ r, sysRegOf f.num.toNat = some r ∧ r.rw = true) →
    eachFibre (writeFibre f g a) (active a f.gd) s = (u, (active a f.gd).map (fun j => (j, .ok noRes))) →
    ∃ t, exec i s = .next t ∧ Onward u t a)
  ∧ (∀ (s : State) (a : At) (v : Nat), issuer s = some a → (ctxOf s a.ctx).isSome = true → v < 2 ^ 64 →
    (∀ num ∈ [0x010, 0x011, 0x012, 0x013, 0x014, 0x015, 0x016, 0x017], ∃ u b w, sysWrite s a num v = .ok u ∧ issuer u = some b
      ∧ sysTable u b 0 num = some (w, v % 2 ^ w))
    ∧ (v < 2 → ∃ u b, sysWrite s a 0x023 v = .ok u ∧ issuer u = some b ∧ sysTable u b 0 0x023 = some (2, v))
    ∧ (2 ≤ v → v < 4 → sysWrite s a 0x023 v = .error .format)
    ∧ (∃ u b, sysWrite s a 0x00A v = .ok u ∧ issuer u = some b
        ∧ sysTable u b 0 0x00A = some (64, a.crew.stat.toNat / 2 ^ 11 * 2 ^ 11 + v % 2 ^ 11))
    ∧ ((ctxOf s (v % 2 ^ 12)).isSome = true → ∃ u b, ctxidWrite s a v = .ok u ∧ issuer u = some b
        ∧ sysTable u b 0 0x001 = some (12, v % 2 ^ 12))
    ∧ (ctxOf s (v % 2 ^ 12) = none → ctxidWrite s a v = .error .format)
    ∧ (∃ u b, cslopeWrite s a v = .ok u ∧ issuer u = some b ∧ sysTable u b 0 0x020 = some (16, v % 2 ^ 16))
    ∧ (v / 2 ^ 7 % 2 = 1 → 1 ≤ v % 64 → v % 64 ≤ 32 → ∃ u b, throttleWrite s a v = .ok u ∧ issuer u = some b
        ∧ sysTable u b 0 0x021 = some (8, 128 + v % 64))
    ∧ (v / 2 ^ 7 % 2 = 1 → (v % 64 = 0 ∨ 32 < v % 64) → throttleWrite s a v = .error .format)
    ∧ (v / 2 ^ 7 % 2 = 1 → ∃ u b, urgencyWrite s a v = .ok u ∧ issuer u = some b ∧ sysTable u b 0 0x022 = some (8, 128 + v % 32)))

/-- R364, R240, R263: TRAP_ENTRY. With a handler and writable record area the crew enters the privileged view at TRAPVEC with the LIVE
fibres of its first trap; TRAPPC is that trap's T, TRAPCAUSE its kind and its count of faulting fibres; the REP fields clear.
Without a handler the grid of a crew that is not privileged is killed, and the crew stops. -/
def Obligations.TrapEntry : Prop :=
  (∀ (s u : State) (i : Issue) (t : Team) (c : Crew) (w : TrapWait) (l : List TrapWait) (x : Ctx) (e : Nat × FaultInfo) (es : List (Nat × FaultInfo)),
    s.issue = some i → teamOf s i.crew.cl i.crew.ts = some t → crewOf s i.crew = some c → c.trap = none → c.trapWait = w :: l →
    c.priv = false → ctxOf s t.ctx = some x → x.regs.trapvec ≠ 0#64 → w.faults = e :: es → w.faults.length < 2 ^ 16 →
    writeRecords (settle (updCrew s i.crew (fun c => { c with trapWait := l })) i.crew) i.crew t.ctx t.gid x.regs.faultbase.toNat w.faults
      = (u, true) →
    ∃ F, exec .trapEntry s = .next (updCrew u i.crew F) ∧ ∀ c', (F c').priv = true ∧ (F c').trappc = BitVec.ofNat 64 w.t
      ∧ (F c').trapcause.toNat = kindCode e.2.kind + w.faults.length * 2 ^ 8 ∧ repFields (F c').stat = 0#64
      ∧ (∀ b < 45, (F c').stat.getLsbD b = c'.stat.getLsbD b)
      ∧ (∃ tr, (F c').trap = some tr ∧ tr.trap = w ∧ tr.userView = !c'.priv ∧ tr.rep = repFields c'.stat ∧ tr.enteredAt = u.cycle
          ∧ ∀ j < 32, tr.x.getLsbD j = w.faults.any (fun f => f.1 == j))
      ∧ (F c').batches = c'.batches ++ [headBatch x.regs.trapvec.toNat (w.batch.mask &&& c'.live) .none u.cycle true]
      ∧ { F c' with priv := c'.priv, trappc := c'.trappc, trapcause := c'.trapcause, stat := c'.stat, trap := c'.trap,
                    batches := c'.batches, cur := c'.cur } = c')
  ∧ (∀ (s : State) (i : Issue) (t : Team) (c : Crew) (w : TrapWait) (l : List TrapWait) (x : Ctx) (g : Grid), s.issue = some i →
    teamOf s i.crew.cl i.crew.ts = some t → crewOf s i.crew = some c → c.trap = none → c.trapWait = w :: l → ctxOf s t.ctx = some x →
    x.regs.trapvec = 0#64 → gridOf s t.ctx t.gid = some g → g.priv = false →
    ∃ u, exec .trapEntry s = .next u ∧ (∃ h, gridOf u t.ctx t.gid = some h ∧ h.killed = true)
      ∧ (∃ c', crewOf u i.crew = some c' ∧ c'.stopped = true)
      ∧ u.events = s.events ++ w.faults.map (fun e => .faultRecord t.ctx t.gid (faultRecord i.crew t.gid e.1 e.2)))

/-- R245, R364, R43: ERET with TRAPPC unchanged restores the view and the REP fields; after a fault at a header the LIVE fibres of the
trap stand at the header again; else the faulting fibres of the mask stand at the word again and the others are past it. With
another TRAPPC, whose header the cluster holds at hand, all LIVE fibres of the trap stand there; one that is no multiple of 8
raises MISALIGNED. Afterwards CREWSTAT [44] says whether a batch holds a ticket (R366). -/
def Obligations.EretReturns : Prop :=
  ∀ (f : RRR) (s : State) (a : At) (t : TrapState) (m : W32),
    Passes s a (sysChecks f pNone { n := 1, g := false, k := true, p := false, sp := [0, 1] } pNone (noOpt f.opt.toNat) true true true) →
    a.crew.trap = some t → m = BitVec.ofNat 32 (opdVal s a ((active a f.gd).headD 0) f.a 1) →
    let live := t.trap.batch.mask &&& a.crew.live
    let rest := a.crew.batches.filter (fun b => !b.handler)
    ((a.crew.trappc.toNat ≠ t.trap.t → WarmTarget s a a.crew.trappc.toNat) → (∀ b ∈ a.crew.batches, b.rep = false) →
      a.crew.groups = [] → t.trap.batch.rep = false →
      ∃ F, exec (.eret f) s = .next (updCrew s a.ref F) ∧ (F a.crew).trap = none
      ∧ (F a.crew).priv = (if t.userView then false else a.crew.priv) ∧ (∀ b < 44, (F a.crew).stat.getLsbD b = a.crew.stat.getLsbD b)
      ∧ ((F a.crew).stat.getLsbD 44 = true ↔ ∃ b ∈ (F a.crew).batches, ∃ n l, b.wait = .ticket (some n) l)
      ∧ repFields (F a.crew).stat = repFields t.rep
      ∧ (a.crew.trappc.toNat = t.trap.t → t.trap.atHeader = true → live ≠ 0#32 →
          (F a.crew).batches = rest ++ [{ t.trap.batch with wait := .none, stale := true, readySince := s.cycle, mask := live }])
      ∧ (a.crew.trappc.toNat = t.trap.t → t.trap.atHeader = false → t.trap.moved = [] → live &&& m &&& t.x ≠ 0#32 →
          live &&& ~~~(live &&& m &&& t.x) ≠ 0#32 →
          (F a.crew).batches = rest ++
            [{ t.trap.batch with wait := .none, stale := true, readySince := s.cycle, mask := live &&& m &&& t.x },
            nextWord s.cycle { t.trap.batch with
              wait := .none, stale := true, readySince := s.cycle, mask := live &&& ~~~(live &&& m &&& t.x) }])
      ∧ (a.crew.trappc.toNat ≠ t.trap.t → live ≠ 0#32 →
          (F a.crew).batches = rest ++ [headBatch a.crew.trappc.toNat live .none s.cycle t.trap.batch.handler])
      ∧ { F a.crew with
            trap := a.crew.trap, priv := a.crew.priv, stat := a.crew.stat, batches := a.crew.batches, cur := a.crew.cur,
            mem := a.crew.mem, memRow := a.crew.memRow, yields := a.crew.yields } = a.crew)
    ∧ (a.crew.trappc.toNat ≠ t.trap.t → a.crew.trappc.toNat % 8 ≠ 0 →
      ∃ c' tw, exec (.eret f) s = .next (onCrew s a.ref a.team (clusterOf s a.ref.cl).rf c')
        ∧ c'.batches = delAt a.crew.batches a.bi ∧ c'.trapWait = a.crew.trapWait ++ [tw] ∧ tw.faults.map (·.1) = a.slots
        ∧ (∀ e ∈ tw.faults, e.2.kind = .misaligned ∧ e.2.addr = a.crew.trappc.toNat ∧ e.2.pc = a.pc)
        ∧ { c' with batches := a.crew.batches, trapWait := a.crew.trapWait, cur := a.crew.cur } = a.crew)

/-- R249, R405: CKPT of an image in the safe tier, while none is in progress, reserves its status and goes on; at its end, with every
port up and answering, every byte of the image is the device byte, whatever was written there, and the status is OK; while a port
does not answer it waits, its requests outstanding; with an isolated port it is 0x35 with the lowest such port, and nothing is
written, which is the model's choice, log 30. R251: HALT kills the grid of a crew that Occon did not start, with its
code for the driver, and stops the crew. -/
def Obligations.CheckpointAndHalt : Prop :=
  ((∀ (f : RRR) (s : State) (a : At) (x : Nat), Passes s a (sysChecks f (pDstG false) (pSrc true) pNone (noOpt f.opt.toNat) false true true) →
    x = opdVal s a ((active a f.gd).headD 0) f.a 2 → ckptRangeOk s x = true → s.ckpt = none →
    ∃ t d, exec (.ckpt f) s = .next t ∧ d = pendDst ((active a f.gd).headD 0) f.d
      ∧ Onward { reserve s a.ref d with ckpt := some { base := x, crew := a.ref, dest := d } } t a)
  ∧ (∀ (s : State) (c : Ckpt), s.ckpt = some c → ckptRangeOk s c.base = true → Memory.wf s.mem = true →
    (∀ p < 8, (cxlPort s p).isolated = false ∧ (cxlPort s p).silent = false) →
    (∀ p < 8, (cxlPort s p).sbase + (c.base - safeBase) / 8 + hbmSize / 8 ≤ 2 ^ 46) →
    ∃ u, exec .ckptComplete s = .next (deliver u c.crew c.dest 0) ∧ u.ckpt = none ∧ (∀ k < hbmSize, homeByte u (c.base + k) = homeByte s k)
      ∧ (∀ k < hbmSize, homeByte u k = homeByte s k))
  ∧ (∀ (s : State) (c : Ckpt) (p : Nat), s.ckpt = some c → (∀ q < 8, (cxlPort s q).isolated = false) → p < 8 → (cxlPort s p).silent = true →
    ∃ t, exec .ckptComplete s = .next t ∧ (cxlPort t p).asked.isSome = true ∧ { t with cxl := s.cxl } = s)
  ∧ (∀ (s : State) (c : Ckpt) (p : Nat), s.ckpt = some c → p < 8 → (cxlPort s p).isolated = true →
    (∀ q < p, (cxlPort s q).isolated = false) →
    exec .ckptComplete s = .next (deliver { s with ckpt := none } c.crew c.dest (0x35000000 + p))))
  ∧ (∀ (f : RRR) (s : State) (a : At) (g : Grid) (v : Nat), Passes s a (sysChecks f pNone pGks pNone (noOpt f.opt.toNat) true true true) →
    gridOf s a.team.ctx a.team.gid = some g → g.priv = false → v = opdVal s a ((active a f.gd).headD 0) f.a 1 →
    ∃ u, exec (.halt f) s = .next u ∧ (∃ h, gridOf u a.team.ctx a.team.gid = some h ∧ h.killed = true ∧ h.killCode = v)
      ∧ u.events = s.events ++ [.killed a.team.ctx a.team.gid v] ∧ (∃ c, crewOf u a.ref = some c ∧ c = { a.crew with stopped := true })
      ∧ { u with grids := s.grids, events := s.events, clusters := s.clusters } = s)

/-- R198, R200: an engine command that passes its checks takes the next operation number and is queued with its block's image, its
records and the entries it relies on; its flags rise, its PAD ranges stand with its number, its status register is pending with 0,
and the batch goes on. A command that stalls waits with an operation of its own. R198: ENG_ACCEPT. A held command whose stall is
over is checked again and queued as the next operation; the held one is gone. -/
def Obligations.EngineCommandsAccepted : Prop :=
  (∀ (i : Instr) (w : EngWord), engineOf i = some w → ∀ (s u v : State) (a : At) (p q : EngPlan) (l : List (Nat × Nat)),
    Passes s a w.checks → w.plan (w.cmd s a) a s = (u, .ok p) → issuer u = some a → engEntries u a.ctx a.ids p.globals = .ok l →
    q = { p with op := { p.op with holds := l } } → v = reserve u a.ref (some p.op.dest) → w.status v a q.op = none →
    (engStalls v a q = false → ∃ x t o c tm, exec i s = .next t ∧ Onward x t a ∧ opOf x u.nextOp = some o ∧ x.nextOp = u.nextOp + 1
      ∧ o.kind = w.k ∧ o.phase = .queued ∧ o.holds = l ∧ o.image = p.op.image ∧ o.recs = p.op.recs ∧ o.fa = p.op.fa ∧ o.fb = p.op.fb
      ∧ crewOf x a.ref = some c ∧ (∀ y, flagCount c y = flagCount a.crew y + timesNamed p.op.fa p.op.fb y)
      ∧ c.pend = a.crew.pend ++ [{ dst := .g ((active a w.f.gd).headD 0) w.f.st, val := some 0#32, ready := true }]
      ∧ teamOf x a.ref.cl a.ref.ts = some tm ∧ tm.ranges = a.team.ranges ++ p.ranges.map (fun r => { r with op := u.nextOp }))
    ∧ (engStalls v a q = true → ∃ o, o.phase = .held ∧ o.kind = w.k
        ∧ exec i s = .next (Waits { v with ops := put v.ops v.nextOp o, nextOp := v.nextOp + 1 } a (.eng v.nextOp) false)))
  ∧ (∀ (s u : State) (n : Nat) (o : EngOp) (a : At) (p q : EngPlan) (l : List (Nat × Nat)), opOf s n = some o → o.phase = .held →
    heldReady s n o = true → heldAt s n o = some a → n < s.nextOp →
    planOf o.kind (heldCmd o) a s = (u, .ok p) → engEntries u a.ctx a.ids p.globals = .ok l → q = { p with op := { p.op with holds := l } } →
    statusOf o.kind u a q.op = none → engStalls u a q = false → u.nextOp = s.nextOp →
    ∃ t o', exec (.engAccept n) s = .next t ∧ opOf t s.nextOp = some o' ∧ o'.phase = .queued ∧ o'.holds = l ∧ opOf t n = none
      ∧ t.nextOp = s.nextOp + 1)

/-- R218: MBOUND of a block that passes checks 1 to 3 makes the bound on cycles pending in its register pair: tile blocks over 24
groups, times the K-blocks, times 32 times the format's most terms plus 2, plus 18. -/
def Obligations.BoundIsWritten : Prop :=
  ∀ (f : ENG) (s u : State) (a : At) (p : MmaPar) (img : List Byte) (recs : List (List Byte)) (prog : List Nat) (i : Nat),
    Passes s a (engSpec f false true true true) → padReadBlocked a.team f.off.toNat 0x80 = false → i = (active a f.gd).headD 0 →
    mmaCheck (engCmd s f .mma false a i) a s = (u, .ok (p, img, recs, prog)) →
    ∃ t, exec (.mbound f) s = .next t ∧ Later u t a [i] (yields (engReg f.st) 2 (fun _ =>
      (p.mlen / 32 * (p.nlen / laneCols p.b.r.fmt) + 23) / 24 * ((p.klen + 31) / 32) * (32 * termMax p.fmtA + 2) + 18) (fun _ => 0))

/-- R206 to R210, R207: the lease words of the lowest fibre. MLEASE refuses a count outside 1 to 64 (0x42), a third lease (0x41), and,
without waiting, a busy engine (0x43); it grants a free engine at once with the count, else asks the arbiter and waits. MFREE ends
a lease without MMAs, or marks it freed; MCFG sets G and D; both answer 0x40 for a handle that is not held. MSTAT reads the
selected quantity of the last MMA. R206, R207, R208, R330: LEASE_GRANT gives the oldest waiting request engine 0, or engine 1 when
0 is not free, or the other engine when one alone is hot; an MLEASE that waited has the lowest free handle. LEASE_EXPIRY ends a
freed lease without MMAs; a lease whose count is spent goes behind the requests that want its engine, or has its count again. R416:
a request in the cycle of a thermal sample goes by the sample before. (That LIMIT is judged again at the grant, the engine staying
free where no handle remains, and that a request which may take only the cool engine does not want the tripped one, are the
model's choices, log 37.) -/
def Obligations.LeasesAndArbiter : Prop :=
  ((∀ (f : RRR) (s : State) (a : At) (i c : Nat), Passes s a (lSpec f 1 (decide (f.opt.toNat < 2))) → (active a f.gd).head? = some i →
    c = opdVal s a i f.a 1 % 128 →
    let answers (u : State) (v : Nat) : Prop := ∃ t, exec (.mlease f) s = .next t ∧ Wrote u t (here u a) [i] (yields f.d 1 (fun _ => v) (fun _ => 0))
    ((c = 0 ∨ 64 < c) → answers s 0x42000000)
    ∧ (1 ≤ c → c ≤ 64 → freeHandle a.team = none → answers s 0x41000000)
    ∧ (∀ h, 1 ≤ c → c ≤ 64 → freeHandle a.team = some h → f.opt = 1#5 →
        ((clusterOf s a.ref.cl).leaseq ≠ [] ∨ grantEngine (clusterOf s a.ref.cl) s.cycle = none) → answers s 0x43000000)
    ∧ (∀ h e th, 1 ≤ c → c ≤ 64 → freeHandle a.team = some h → f.opt = 1#5 → (clusterOf s a.ref.cl).leaseq = [] →
        grantEngine (clusterOf s a.ref.cl) s.cycle = some (e, th) → ∃ u, answers u h ∧ holder u a.ref.cl e = some (.lease a.ref.ts h)
          ∧ leaseAt u a.ref.cl a.ref.ts h
              = some { engine := some e, count := c, left := c, g := 2, d := 0, freed := false, thermal := th })
    ∧ (1 ≤ c → c ≤ 64 → freeHandle a.team ≠ none → f.opt = 0#5 → exec (.mlease f) s = .next (Waits (updCluster s a.ref.cl (fun k => { k with
        leaseq := k.leaseq ++ [.request a.ref.ts a.ref.cr c] })) a (.lease i f.d) false)))
  ∧ (∀ (f : RRR) (s : State) (a : At) (i h : Nat), Passes s a (lSpec f 1 (noOpt f.opt.toNat)) → (active a f.gd).head? = some i →
    h = opdVal s a i f.a 1 % 2 →
    ∃ u v t, exec (.mfree f) s = .next t ∧ Wrote u t (here u a) [i] (yields f.d 1 (fun _ => v) (fun _ => 0))
      ∧ leaseAt u a.ref.cl a.ref.ts h = none
      ∧ (look a.team.leases h = none → u = s ∧ v = 0x40000000)
      ∧ (∀ l, look a.team.leases h = some l → v = 0
          ∧ (leaseOps s a.ref.cl a.ref.ts h = false → ∀ e, holder u a.ref.cl e ≠ some (.lease a.ref.ts h))))
  ∧ (∀ (f : RRR) (s : State) (a : At) (i h : Nat), Passes s a (lSpec f 1 (decide (f.opt.toNat < 16) && decide (f.opt.toNat % 4 < 3))) →
    (active a f.gd).head? = some i → h = opdVal s a i f.a 1 % 2 →
    ∃ u v t, exec (.mcfg f) s = .next t ∧ Wrote u t (here u a) [i] (yields f.d 1 (fun _ => v) (fun _ => 0))
      ∧ (look a.team.leases h = none → u = s ∧ v = 0x40000000)
      ∧ (∀ l, look a.team.leases h = some l → v = 0
          ∧ leaseAt u a.ref.cl a.ref.ts h = some { l with g := f.opt.toNat % 4, d := f.opt.toNat / 4 }))
  ∧ (∀ (f : RRR) (s : State) (a : At), Passes s a (lSpec f 1 (noOpt f.opt.toNat)) →
    ∃ t, exec (.mstat f) s = .next t ∧ Wrote s t a (active a f.gd) (yields f.d 1 (fun i =>
      mstatVal (clusterOf s a.ref.cl) a.team (opdVal s a i f.a 1 % 16) % 2 ^ 32) (fun _ => 0))))
  ∧ ((∀ (c : Cluster) (cycle e : Nat) (th : Bool) (heat : BitVec 2), grantEngine c cycle = some (e, th) →
    heat = (if c.sampledAt = some cycle then c.thermalWas else c.thermal) → engineFree c e = true
    ∧ (heat = 1#2 → e = 1 ∧ th = true) ∧ (heat = 2#2 → e = 0 ∧ th = true)
    ∧ (heat ≠ 1#2 → heat ≠ 2#2 → th = false ∧ (e = 1 → engineFree c 0 = false)))
  ∧ (∀ (s : State) (cl e : Nat) (th : Bool) (q : LeaseReq) (l : List LeaseReq), (clusterOf s cl).leaseq = q :: l →
    grantEngine (clusterOf s cl) s.cycle = some (e, th) → ∃ t, exec (.leaseGrant cl) s = .next t ∧ (clusterOf t cl).leaseq = l
      ∧ (∀ n, q = .mma n → holder t cl e = some (.implicit n))
      ∧ (∀ ts k m, q = .handle ts k → leaseAt s cl ts k = some m → holder t cl e = some (.lease ts k)
          ∧ (∀ y, leaseAt t cl ts k = some y → y.engine = some e ∧ y.left = (if m.left = 0 then m.count else m.left)))
      ∧ (∀ ts cr n tm, q = .request ts cr n → teamOf s cl ts = some tm →
          (∀ h, freeHandle tm = some h → holder t cl e = some (.lease ts h)
            ∧ leaseAt t cl ts h = some { engine := some e, count := n, left := n, g := 2, d := 0, freed := false, thermal := th })
          ∧ (freeHandle tm = none → holder t cl e = some .free)))
  ∧ (∀ (s : State) (cl e ts k : Nat) (l : Lease), expiryDue s cl e = true → holder s cl e = some (.lease ts k) → leaseAt s cl ts k = some l →
    ∃ t, exec (.leaseExpiry cl e) s = .next t
      ∧ (l.freed = true → leaseOps s cl ts k = false → leaseAt t cl ts k = none ∧ holder t cl e = some .free)
      ∧ ((l.freed = false ∨ leaseOps s cl ts k = true) → wanted (clusterOf s cl) s.cycle e = true → holder t cl e = some .free
          ∧ leaseAt t cl ts k = some { l with engine := none, left := 0 }
          ∧ (clusterOf t cl).leaseq = (clusterOf s cl).leaseq ++ [.handle ts k])
      ∧ ((l.freed = false ∨ leaseOps s cl ts k = true) → wanted (clusterOf s cl) s.cycle e = false →
          leaseAt t cl ts k = some { l with left := l.count } ∧ holder t cl e = some (.lease ts k))))

/-- R225: CWAIT whose bytes lie in PAD and are free of ranges reads the selected bits of its chunk map, in its waiting form once no
running operation's map keeps a selected bit clear, and acquires at the widest scope of the copies whose bits it reads set, which is
the model's choice, log 37. CWAIT_END makes the batch look again, and so it does for a word that waits behind a BANKCFG of its
cluster (R308; an operation of the L1's single order in its turn, keeping its place), for an answer that has come (R386, R401), and
for stores that are acknowledged (R400). -/
def Obligations.ChunkWaits : Prop :=
  (∀ (f : RRR) (s : State) (a : At), Passes s a (lSpec f 3 (decide (f.opt.toNat < 2))) →
    let x (i : Nat) : Nat × Nat × W32 := (opdVal s a i f.a 1, opdVal s a i f.b 1, BitVec.ofNat 32 (opdVal s a i f.c 1))
    let v (i : Nat) : Nat := (padNat s a.ref.cl a.ref.ts ((x i).1 + (x i).2.1 / 8) 5
      / 2 ^ ((x i).2.1 % 8)) % 2 ^ 32 &&& (x i).2.2.toNat
    let scopes : List Nat := (active a f.gd).flatMap (fun i => ((List.range 32).filter (fun j => tb (v i) j)).filterMap
      (fun j => look a.team.chunkScopes (8 * (x i).1 + (x i).2.1 + j)))
    (∀ i ∈ active a f.gd, (x i).1 + ((x i).2.1 + 31) / 8 < padSize a.team
      ∧ padBlocked a.team ((x i).1 + (x i).2.1 / 8) ((x i).1 + ((x i).2.1 + 31) / 8) false = false) →
    ((f.opt = 1#5 ∨ ∀ i ∈ active a f.gd, mapBusy s a.team a.ref.cl a.ref.ts (x i) = false) →
      ∃ u t, exec (.cwait f) s = .next t ∧ Wrote u t (here u a) (active a f.gd) (yields f.d 1 v (fun _ => 0))
        ∧ (scopes = [] → u = s) ∧ (∀ m ∈ scopes, (∀ n ∈ scopes, n ≤ m) → u = acquireAt s a.ref.cl m))
    ∧ (f.opt = 0#5 → (∃ i ∈ active a f.gd, mapBusy s a.team a.ref.cl a.ref.ts (x i) = true) →
      exec (.cwait f) s = .next (Waits s a (.cwait ((active a f.gd).map x)) true)))
  ∧ (∀ (s : State) (a : At), issuer s = some a →
    (∀ l, a.b.wait = .cwait l → (∀ x ∈ l, mapBusy s a.team a.ref.cl a.ref.ts x = false) → exec .cwaitEnd s = .next (readied s a))
    ∧ (a.b.wait = .l1Held 0 false → ringHeld s a.ref.cl = false → exec .cwaitEnd s = .next (readied s a))
    ∧ (∀ n, a.b.wait = .l1Held (n + 1) false → ringHeld s a.ref.cl = false → heldBefore s a.ref.cl (some (n + 1)) = false →
      exec .cwaitEnd s = .next (updCrew s a.ref (fun c => { c with batches := modAt c.batches a.bi (fun b =>
        { readyAt s.cycle b with wait := .l1Held (n + 1) true }) })))
    ∧ (∀ ks k, a.b.wait = .answer ks → k ∈ ks → quiet s k = false → exec .cwaitEnd s = .next (readied s a))
    ∧ (a.b.wait = .acks → unacked s = false → exec .cwaitEnd s = .next (readied s a)))

/-- R214, R318, R321, R322, R324, R332: the events of a running MMA. MMA_START takes a startable operation to its engine with 24 free
groups and counts one of its lease. TILE_BLOCK_START gives the next tile block to its group, with its C codes read, and its first
K-block, whose operands are staged, begins once C is there; the next K-block's operands are staged meanwhile. Staging without an
error gives the operands; the first condition of A, B and C in order stops the operation. K_BLOCK_BARRIER counts the K-block;
after the last one C is written, PROGRESS is the K-blocks done and the group falls free; else the staged one begins. ENG_OP_STOP
takes an operation with a stop condition to its stopping phase. (That the first K-block begins once C is read, and the moments of
staging, are the model's choice, log 6, and so is the order of the conditions, log 36. No read waits for an answer here.) -/
def Obligations.TermEngineEvents : Prop :=
  let sums (o : EngOp) (p : MmaPar) (k : StagedK) (c : List W32) : List W32 := (kBlockC (isIntFmt p.b.r.fmt) p.cw k.a k.b c).1
  let staged (s : State) (n : Nat) (o : EngOp) (v kb T : Nat) : Prop :=
    (mmaPar o.image o.recs).nkb ≤ kb + 1 ∨ (stageOps s n o v (kb + 1) T (Stage.pure [])).2.isSome = true
  (∀ (s : State) (cl e n : Nat) (o : EngOp), nextMma s cl e = some (n, o) → ∃ t x, exec (.mmaStart cl e) s = .next t
    ∧ opOf t n = some x ∧ x.phase = .running ∧ x.engine = e ∧ x.started = s.cycle ∧ x.groupFree = (List.range 24).map (fun g => (g, s.cycle))
    ∧ ((clusterOf t cl).engines[e]?).bind (·.running) = some n
    ∧ (∀ h l, o.lease = some h → leaseAt s cl o.crew.ts h = some l → ∀ y, leaseAt t cl o.crew.ts h = some y → y.left = l.left - 1))
  ∧ (∀ (s u v w : State) (n g at_ kb : Nat) (o : EngOp) (p : MmaPar) (cc : Stage (List W32)) (k : StagedK), opOf s n = some o →
    tileDue s o = true → tileGroup s o = some (g, at_) → p = mmaPar o.image o.recs → kb = (o.progress[o.nextTile]?).getD 0 → kb < p.nkb →
    u = updOp s n (fun x => { x with nextTile := x.nextTile + 1 }) →
    v = updOp u n (fun x => { x with groupFree := x.groupFree.filter (fun y => y.1 != g) }) → cc = stageC s o p o.nextTile →
    holdOp s n (cc.errs ++ stageErrs s o o.nextTile kb ++ stageErrs s o o.nextTile (kb + 1)) = none →
    stageOps v n o o.nextTile kb ((look o.lastBegan g).getD at_) cc = (w, some k) →
    ∃ t T, exec (.tileBlockStart n) s = .next t ∧ at_ ≤ T ∧ (cc.lines = [] → T = at_) ∧ (staged w n o o.nextTile kb T →
      ∃ x r, opOf t n = some x ∧ x.nextTile = o.nextTile + 1 ∧ x.tiles = o.tiles ++ [r] ∧ (∀ y, (g, y) ∉ x.groupFree)
        ∧ r.v = o.nextTile ∧ r.grp = g ∧ r.kb = kb ∧ r.c = cc.val ∧ r.began = T ∧ T ≤ r.at_ ∧ r.next = sums o p k cc.val))
  ∧ (∀ (s : State) (n v kb since : Nat) (o : EngOp) (c : Stage (List W32)) (p : MmaPar) (errs : List EErr), p = mmaPar o.image o.recs →
    errs = (stageA s o p v kb).all.errs ++ (stageB s o p v kb).all.errs ++ c.errs →
    (errs = [] → ∃ u k, stageOps s n o v kb since c = (u, some k) ∧ k.a = (stageA s o p v kb).all.val ∧ k.b = (stageB s o p v kb).all.val)
    ∧ (∀ e l y, errs = e :: l → opOf s n = some y → ∃ u x, stageOps s n o v kb since c = (u, none) ∧ opOf u n = some x
        ∧ x.stops = y.stops ++ [{ unit := v, code := e.code, faddr := e.addr, kb := kb, order := 0 }]))
  ∧ (∀ (s : State) (n grp : Nat) (o : EngOp) (r : TileRun) (p : MmaPar), opOf s n = some o → barrierTile s o grp = some r →
    p = mmaPar o.image o.recs → o.waits = none →
    (∀ cells, p.nkb ≤ r.kb + 1 → tileCells s o p { r with kb := r.kb + 1, c := r.next } = .ok cells →
      ∃ t x, exec (.kBlockBarrier n grp) s = .next t ∧ opOf t n = some x ∧ x.kblocks = o.kblocks + 1
        ∧ x.sticky = o.sticky ||| r.sticky ||| (r.ahead.map (·.sticky)).getD 0
        ∧ x.progress = modAt o.progress r.v (fun _ => r.kb + 1) ∧ (∀ y ∈ x.tiles, y.grp ≠ grp) ∧ (grp, r.at_) ∈ x.groupFree)
    ∧ (∀ k, r.kb + 1 < p.nkb → o.phase = .running → o.halt = 0 → o.stops = [] → r.ahead = some k →
      holdOp s n (stageErrs s o r.v (r.kb + 2)) = none → staged (updOp s n (countK r)) n o r.v (r.kb + 1) r.at_ →
      ∃ t x r', exec (.kBlockBarrier n grp) s = .next t ∧ opOf t n = some x ∧ x.kblocks = o.kblocks + 1
        ∧ x.tiles = o.tiles.map (fun y => if y.grp = grp then r' else y) ∧ r'.v = r.v ∧ r'.kb = r.kb + 1 ∧ r'.c = r.next
        ∧ r'.began = r.at_ ∧ r'.next = sums o p k r.next))
  ∧ (∀ (s : State) (n : Nat) (o : EngOp), opOf s n = some o → stopDue o = true → ∃ t, exec (.engOpStop n) s = .next t
    ∧ opOf t n = some { o with phase := .stopping } ∧ { t with ops := s.ops } = s)

/-- R200, R204, R205: the end of an operation whose team is there. It is gone, its PAD ranges are free, its crew is owed its flags'
falls at its scope, and its sticky bits are in the crew's status word. -/
def Obligations.OperationsEnd : Prop :=
  ∀ (s : State) (n : Nat) (o : EngOp) (c : Crew), opOf s n = some o → opDone s n o = true → o.kind ≠ .coll → o.orphaned = false →
    (o.kind = .census → o.halt = 0 → holdOp s n (censusErrs s o) = none) → crewOf s o.crew = some c → teamSaved s o.crew = false →
    ∃ t c' tm, exec (.engOpComplete n) s = .next t ∧ opOf t n = none ∧ teamOf t o.crew.cl o.crew.ts = some tm ∧ (∀ r ∈ tm.ranges, r.op ≠ n)
      ∧ crewOf t o.crew = some c' ∧ (∃ l, c'.falls = c.falls ++ owedFalls o ++ l)
      ∧ (o.kind = .mma → ∀ b < 11, c'.stat.getLsbD b = (c.stat.getLsbD b || tb o.sticky b))

/-- R222, R224, R236, R341, R349: the events of the copy engines and the Churn. A copy engine starts its oldest queued operation while
fewer than four run; a chunk without an error is marked done and no other chunk is, one with an error stops the operation; a
multicast's is its message to every receiver; when every chunk is done SRCFREE falls and the source ranges are free; a message
reaches a FIFO bank with room that is bound to its sender or to nobody, else the receiver is skipped and its slot restored; a
collective that lacks a rank when its TIMEOUT has passed fails with the lowest such rank. (That SRCFREE falls without a scope is the
model's choice, log 40, and so are the lowest FAILRANK and the status of a collective that ends late, log 41. No read waits for an
answer here.) -/
def Obligations.CopyEvents : Prop :=
  (∀ (s : State) (d e n : Nat) (o : EngOp), nextCopy s d e = some n → opOf s n = some o → runningOn s d e < 4
    ∧ ∃ t w, exec (.copyOpStart d e) s = .next t ∧ opOf t n = some { o with phase := .running, ended := w } ∧ { t with ops := s.ops } = s)
  ∧ (∀ (s : State) (n c : Nat) (o : EngOp), opOf s n = some o → chunkDue s n o c = true →
    (∀ r, (xferPar o).mcast = false → r = chunkOf s n o (xferPar o) c → holdOp s n r.errs = none →
      ∃ t x, exec (.copyChunkDone n c) s = .next t ∧ opOf t n = some x
      ∧ (r.errs = [] → (∀ y, chunkSet x y = (chunkSet o y || y == c)) ∧ x.sticky = o.sticky ||| r.sticky
          ∧ x.clipped = o.clipped + r.clipped ∧ x.stops = o.stops)
      ∧ (∀ e l, r.errs = e :: l → x.stops = o.stops ++ [{ unit := c, code := e.code, faddr := e.addr, kb := 0, order := 0 }]
          ∧ ∀ y, chunkSet x y = chunkSet o y))
    ∧ ((xferPar o).mcast = true → (mcastMessage s o (xferPar o)).errs = [] → ∃ t x, exec (.copyChunkDone n c) s = .next t
      ∧ opOf t n = some x ∧ (∀ y, chunkSet x y = (chunkSet o y || y == c)) ∧ x.msg = (mcastMessage s o (xferPar o)).val
      ∧ x.fifoLeft = receiversOf (xferPar o) o.crew.cl))
  ∧ (∀ (s : State) (n : Nat) (o : EngOp) (c : Crew), opOf s n = some o → srcFreeDue o = true → o.orphaned = false → crewOf s o.crew = some c →
    ∃ t x c' tm, exec (.srcfreeFall n) s = .next t ∧ opOf t n = some x ∧ x = { o with srcFreeDone := true } ∧ crewOf t o.crew = some c'
      ∧ c'.falls = c.falls ++ o.fa.toList.map (fun y => (y, 0)) ∧ teamOf t o.crew.cl o.crew.ts = some tm
      ∧ ∀ y ∈ tm.ranges, y.op = n → y.atSrcFree = false)
  ∧ (∀ (s : State) (n x b : Nat) (o : EngOp) (k : Bank), opOf s n = some o → arriveDue s n o x = true → b = (copyPar o.image []).bank →
    k = bankOf (clusterOf s x) b →
    ∃ t o', exec (.fifoMessageArrive n x) s = .next t ∧ opOf t n = some o' ∧ o'.fifoLeft = o.fifoLeft.filter (· != x)
      ∧ (k.mode = .fifo → (k.bound = none ∨ k.bound = some o.crew.cl) → k.slots.length < 2 → o'.skippedRx = o.skippedRx
          ∧ bankOf (clusterOf t x) b = { k with bound := some o.crew.cl, slots := k.slots ++ [{ sender := o.crew.cl, bytes := o.msg }] })
      ∧ ((k.mode ≠ .fifo ∨ (k.bound ≠ none ∧ k.bound ≠ some o.crew.cl) ∨ 2 ≤ k.slots.length) → o'.skippedRx = o.skippedRx ++ [x]
          ∧ bankOf (clusterOf t x) b = k
          ∧ slotsOut (clusterOf t o.crew.cl) x = (slotsOut (clusterOf s o.crew.cl) x).erase b))
  ∧ (∀ (s : State) (n : Nat) (o : EngOp), opOf s n = some o → collLate s o = true → ∃ m, m ∈ missingRanks s o (collPar o.image o.recs)
      ∧ (∀ r ∈ missingRanks s o (collPar o.image o.recs), m ≤ r)
      ∧ exec (.collTimeout n) s = .next (updOp s n (fun o => { o with result := some 0x35, failrank := m })))

/-- R382, R383, R401: a multicast message of another device. With no binding it is answered 0x20, beyond the binding's length 0x04,
and nothing changes; at a member whose pages can be written, whose ports and peers are there and whose tokens cover it, it is
performed whole and answered 0. A member that does not answer in time counts as refusing with 0x0F. -/
def Obligations.MulticastMessages : Prop :=
  (∀ (s : State) (m : McastMsg), (∀ e ∈ s.bindings, ¬ (e.2.sender = m.sender ∧ e.2.group = m.group ∧ e.2.ctx = m.ctx)) →
    exec (.mcastReceive m) s = .next { s with egress := s.egress ++ [.mcastAnswer m.sender 0x20] })
  ∧ (∀ (s : State) (m : McastMsg) (k : Nat) (b : McastBinding),
    s.bindings.find? (fun e => e.2.sender == m.sender && e.2.group == m.group && e.2.ctx == m.ctx) = some (k, b) →
    ((∃ r ∈ m.runs, b.len < r.1 + r.2.length) →
      exec (.mcastReceive m) s = .next { s with egress := s.egress ++ [.mcastAnswer m.sender 4] })
    ∧ ((∀ r ∈ m.runs, r.1 + r.2.length ≤ b.len ∧ b.rbase + r.1 + r.2.length < 2 ^ 57
        ∧ tokensCover s m.ctx (dispatcherIds s m.ctx) .store (b.rbase + r.1) r.2.length = none
        ∧ ∀ x ∈ linePieces (b.rbase + r.1) r.2.length, ∃ e, translate s none 0 m.ctx x.1 = .ok e ∧ e.wr = true ∧ isWindow e = false
            ∧ behindIsolated s (locOf e x.1) = false ∧ peerFault s (locOf e x.1) = none) →
      ∃ cells, exec (.mcastReceive m) s = .next (send (writeCells s 0 m.ctx false false cells) (.mcastAnswer m.sender 0))
        ∧ ∀ r ∈ m.runs, ∀ x ∈ linePieces (b.rbase + r.1) r.2.length, ∀ e, translate s none 0 m.ctx x.1 = .ok e →
            ∀ i < x.2, ∀ y, r.2[x.1 + i - (b.rbase + r.1)]? = some y →
              ({ key := locOf e (x.1 + i), mask := y.2.toNat, val := y.1.toNat } : Cell) ∈ cells))
  ∧ (∀ (s : State) (n x k : Nat) (o : EngOp), opOf s n = some o → look o.owed x = some k →
    ∃ t o', exec (.mcastMemberTimeout n x) s = .next t ∧ opOf t n = some o' ∧ look o'.owed x = none
      ∧ (look o.refusals x = none → look o'.refusals x = some 0x0F) ∧ (∀ y, y ≠ x → look o'.owed y = look o.owed y)
      ∧ { t with ops := s.ops } = s)

/-- R36 to R45, R265, R268, R271: CLAUSE_BEGIN for a batch that is ready at its header. A header address that is no multiple of 8
raises MISALIGNED, a fetch that faults its fault, a wrong tag, no port or reserved bits ILLEGAL, at the header. With a flag of the
wait mask above 0 the batch waits, and is not ready. Else every ready batch at that header joins it, and the clause begins as an
acquire at the flags' scopes, its pass grown by its weight, counted in the crew's row of memory clauses when it names port M. A
batch that came back into its clause reads the header again, and nothing else changes but the clause's registers. (That MISALIGNED is
raised at a header that was reached as an entry or a vector is the model's choice, log 35.) -/
def Obligations.ClausesBegin : Prop :=
  (∀ (s : State) (a : At), issuer s = some a → isReady a.b = true → a.b.begun = false → a.b.header % 8 ≠ 0 →
    ∃ t, exec .clauseBegin s = .next t ∧ TrapsAtHeader s t a .misaligned)
  ∧ (∀ (s u : State) (a : At), issuer s = some a → isReady a.b = true → a.b.begun = false → a.b.header % 8 = 0 →
    (∀ k, k ≠ .notPresent → fetch64 s a.ref.cl a.ctx a.b.header = (u, .error k) → ∃ t, exec .clauseBegin s = .next t ∧ TrapsAtHeader u t a k)
    ∧ (∀ h, fetch64 s a.ref.cl a.ctx a.b.header = (u, .ok h) →
      ((hdrTag h ≠ 0xA ∨ hdrPorts h = 0 ∨ hdrRsv h ≠ 0) → ∃ t, exec .clauseBegin s = .next t ∧ TrapsAtHeader u t a .illegal)
      ∧ (hdrTag h = 0xA → hdrPorts h ≠ 0 → hdrRsv h = 0 → flagsClear a.crew (hdrWait h) = false →
          exec .clauseBegin s = .next (updCrew u a.ref (fun c =>
            { c with batches := modAt c.batches a.bi (fun x => { x with wait := .flags (hdrWait h) }) })))
      ∧ (∀ j, j = updCrew u a.ref (fun c => joinReady c a.b) →
          hdrTag h = 0xA → hdrPorts h ≠ 0 → hdrRsv h = 0 → flagsClear a.crew (hdrWait h) = true →
          ∃ b F, atOf j a.ref ((joinReady a.crew a.b).batches.length - 1) = some b ∧ b.b = { a.b with mask := b.b.mask }
            ∧ (∀ i, b.b.mask.getLsbD i = true ↔ a.b.mask.getLsbD i = true
                ∨ ∃ x ∈ a.crew.batches, joinsAt a.b x = true ∧ x.mask.getLsbD i = true)
            ∧ exec .clauseBegin s = .next (updCrew
                (if hdrWait h = 0 then j else acquireAt j a.ref.cl (flagScopes b.crew (hdrWait h))) a.ref F)
            ∧ ∀ c, Opens h b.bi c (F c) ∧ (F c).pass = c.pass + (1 + c.backoff) * (if b.urgent then 1 else 2)
              ∧ (F c).memWait = (if tb (hdrPorts h) 1 then none else c.memWait)
              ∧ ((F c).mem, (F c).memRow) = (if tb (hdrPorts h) 1 then (c.mem, c.memRow + 1) else (false, 0)))))
  ∧ (∀ (s u : State) (a : At) (h : W64), issuer s = some a → isReady a.b = true → a.b.begun = true → a.b.stale = true →
    a.b.header % 8 = 0 → fetch64 s a.ref.cl a.ctx a.b.header = (u, .ok h) → hdrTag h = 0xA → hdrPorts h ≠ 0 → hdrRsv h = 0 →
    ∃ F, exec .clauseBegin s = .next (updCrew u a.ref F)
      ∧ ∀ c, Opens h a.bi c (F c) ∧ (F c).pass = c.pass ∧ (F c).mem = c.mem ∧ (F c).memRow = c.memRow ∧ (F c).memWait = c.memWait)

/-- R99, R311: RESULT_WRITE writes every result that a producer has delivered to its register, clears its pending bit and leaves every
other register and pending bit. R269 to R272: the scheduler's events. Sixteen lost conflicts, or 1,024 cycles as a candidate
without an issue, give a crew precedence from then on; at the end of an epoch W follows the hits unless the window is expert or
the epoch half begun; a crew that stands ready at a memory clause joins the memory set where there is room and none waits, else it
waits since it first stood there, and after 1,024 cycles it joins all the same. -/
def Obligations.ResultsAndScheduling : Prop :=
  (∀ (s : State) (i : Issue) (c : Crew), s.issue = some i → crewOf s i.crew = some c →
    ∃ t c', exec .resultWrite s = .next t ∧ crewOf t i.crew = some c' ∧ c'.pend = c.pend.filter (fun p => !p.ready)
      ∧ ((c.pend.map (·.dst)).Nodup → (∀ p ∈ c.pend, ∀ j n, p.dst = .g j n → n < c.win) → ∀ p ∈ c.pend, p.ready = true → ∀ v, p.val = some v →
          (∀ j n, p.dst = .g j n → gRead (clusterOf t i.crew.cl) c j n = v) ∧ (∀ n, p.dst = .k n → cRead c'.k n = v))
      ∧ (∀ key, (∀ p ∈ c.pend, ∀ j n, p.dst = .g j n → regNo c j n ≠ key) →
          cRead (clusterOf t i.crew.cl).rf key = cRead (clusterOf s i.crew.cl).rf key))
  ∧ ((∀ (s : State) (i : Issue) (c : Crew), s.issue = some i → crewOf s i.crew = some c → c.prec = none → 16 ≤ c.losses →
    exec .bankLossPrecedence s = .next (updCrew s i.crew (fun c => { c with prec := some s.cycle })))
  ∧ (∀ (s : State) (i : Issue) (c : Crew), s.issue = some i → crewOf s i.crew = some c → c.cand = true → c.prec = none →
    c.candSince + 1024 ≤ s.cycle → c.issuedAt + 1024 ≤ s.cycle →
    exec .issueWaitPrecedence s = .next (updCrew s i.crew (fun c => { c with prec := some s.cycle })))
  ∧ (∀ (s : State) (x : Nat), (clusterOf s x).teams ≠ [] → s.cycle / 1024 = (clusterOf s x).epoch + 1 →
    ∃ w, exec (.throttleEpochEnd x) s = .next (updCluster s x (fun c => { c with epoch := s.cycle / 1024, hits := 0, half := c.expert, win := w }))
      ∧ ((clusterOf s x).expert = true ∨ (clusterOf s x).half = true → w = (clusterOf s x).win)
      ∧ ((clusterOf s x).expert = false → (clusterOf s x).half = false → ∀ h, h = (if wayCount (clusterOf s x) = 0 then 0 else (clusterOf s x).hits) →
          (h < 16 → w = 32) ∧ (16 ≤ h → h < 32 → w = 16) ∧ (32 ≤ h → h < 64 → w = 8) ∧ (64 ≤ h → h < 128 → w = 4)
          ∧ (128 ≤ h → h < 256 → w = 2) ∧ (256 ≤ h → w = 1)))
  ∧ (∀ (n : Nat) (x : Cluster) (c : Crew),
    (c.mem = true → memJoin n x c = { c with memWait := none })
    ∧ (c.mem = false → memWaiters x c = [] → memCount x < x.win → memJoin n x c = { c with mem := true, memRow := 0, memWait := none })
    ∧ (c.mem = false → x.win ≤ memCount x → memJoin n x c = { c with memWait := some (c.memWait.getD n) }))
  ∧ (∀ (s : State) (i : Issue) (c : Crew) (w : Nat), s.issue = some i → crewOf s i.crew = some c → c.memWait = some w → w + 1024 ≤ s.cycle →
    exec .throttleBypassAdmit s = .next (updCrew s i.crew (fun c => { c with mem := true, memWait := none, memRow := 0 }))))

/-- R366, R368, R369: PAGE_ANSWER for an open ticket closes its entry. Mapped, every batch that holds it, or waits for an entry, is
ready at its word again; denied, the batches that hold it leave and wait to trap, with the ticket in their records, also where their
context is saved. The batches at barriers and other waits stay. An answer for no open ticket changes nothing. -/
def Obligations.PageAnswers : Prop :=
  (∀ (k : BitVec 16) (d : Bool) (s : State), (∀ e, look s.pages (k.toNat % 512) = some e → e.gen % 128 ≠ k.toNat / 512) →
    exec (.pageAnswer k d) s = .next s)
  ∧ (∀ (k : BitVec 16) (d : Bool) (s : State) (e : PageReq), look s.pages (k.toNat % 512) = some e → e.gen % 128 = k.toNat / 512 →
    ∃ t, exec (.pageAnswer k d) s = .next t ∧ t.pages = del s.pages (k.toNat % 512) ∧ look t.pages (k.toNat % 512) = none
      ∧ ∀ r c, crewOf s r = some c → ∃ c', crewOf t r = some c'
        ∧ { c' with batches := c.batches, trapWait := c.trapWait, stat := c.stat } = c
        ∧ (∀ b, b ≠ 44 → c'.stat.getLsbD b = c.stat.getLsbD b)
        ∧ (c'.stat.getLsbD 44 = true ↔ ∃ b ∈ c'.batches, ∃ n, holdsTicket n b = true)
        ∧ (d = false → c'.trapWait = c.trapWait ∧ c'.batches = c.batches.map (fun b =>
            if holdsTicket k.toNat b || awaitsEntry b then readyAt s.cycle b else b))
        ∧ (d = true →
            c'.batches = (c.batches.filter (fun b => !holdsTicket k.toNat b)).map (fun b => if awaitsEntry b then readyAt s.cycle b else b)
            ∧ ∃ l, c'.trapWait = c.trapWait ++ l ∧ l.map (·.batch) = (c.batches.filter (holdsTicket k.toNat)).map (fun b => { b with wait := .none })
              ∧ ∀ w ∈ l, ∀ f ∈ w.faults, f.2.ticket = some k.toNat))

/-- R250, R372, R376: CTXSV and CTXLD act for the lowest active fibre and refuse the crew's own context (0x51), a context that is
being restored (0x13), one that is not running or not saved (0x50), and an area that the crew's tokens do not cover (0x01). A save
whose area can be written writes it and answers 0, the context saved, its place known, and each of its teams without banks; a
restore from a well-formed area of that context takes team after team, and answers 0 when it is complete, the context running; one
without room waits in its crew's place. An area of another context is 0x50. A save waits while an access of the context has no
answer. (That CTXLD's token check covers 208 MiB as CTXSV's does, that SELF compares the team's context, that teams are restored one
after another, and that a save waits so, are the model's choices, log 42.) -/
def Obligations.ContextsSaveAndRestore : Prop :=
  (∀ (f : RRR) (s : State) (a : At) (i x b : Nat), Passes s a (ctxSpec f) → (active a f.gd).head? = some i →
    x = opdVal s a i f.a 1 % 2 ^ 12 → b = opdVal s a i f.b 2 → b % 4096 = 0 →
    let answers (u : State) (v : Nat) : Prop := ∃ t, exec (.ctxsv f) s = .next t ∧ Pending u t a (lowestResults f (active a f.gd) v)
    (x = a.team.ctx → answers s 0x51000000)
    ∧ (x ≠ a.team.ctx → loadPends s x = true → answers s 0x13000000)
    ∧ (x ≠ a.team.ctx → loadPends s x = false → phaseOf s x ≠ some .running → answers s 0x50000000)
    ∧ (x ≠ a.team.ctx → loadPends s x = false → phaseOf s x = some .running → tokensCover s a.ctx a.ids .store b areaMax ≠ none →
        answers s 0x01000000)
    ∧ (x ≠ a.team.ctx → loadPends s x = false → phaseOf s x = some .running → tokensCover s a.ctx a.ids .store b areaMax = none →
        answersOut s x ≠ [] → exec (.ctxsv f) s = .next (Waits s a (.answer (answersOut s x)) false))
    ∧ (x ≠ a.team.ctx → loadPends s x = false → phaseOf s x = some .running → tokensCover s a.ctx a.ids .store b areaMax = none →
        answersOut s x = [] → AreaReachable (beforeArea s x) (dieNo a.ref.cl) a.ctx b (areaBytes (beforeArea s x) x).length →
        ∃ w, writeArea (beforeArea s x) a b (areaBytes (beforeArea s x) x) = .ok w
          ∧ answers (updCtx (freeCtx w x) x (fun c => { c with area := some (.va (dieNo a.ref.cl) a.ctx b) })) 0))
  ∧ (∀ (s : State) (x : Nat) (c : Ctx), ctxOf s x = some c → phaseOf (freeCtx s x) x = some .saved
    ∧ ∀ cl ts t, teamOf (freeCtx s x) cl ts = some t → t.ctx = x → t.saved = true ∧ t.banks = [])
  ∧ (∀ (f : RRR) (s : State) (a : At) (i x b : Nat), Passes s a (ctxSpec f) → (active a f.gd).head? = some i →
    x = opdVal s a i f.a 1 % 2 ^ 12 → b = opdVal s a i f.b 2 →
    let answers (u : State) (v : Nat) : Prop := ∃ t, exec (.ctxld f) s = .next t ∧ Pending u t a (lowestResults f (active a f.gd) v)
    (x = a.team.ctx → answers s 0x51000000)
    ∧ (x ≠ a.team.ctx → loadPends s x = true → answers s 0x13000000)
    ∧ (x ≠ a.team.ctx → loadPends s x = false → phaseOf s x ≠ some .saved → answers s 0x50000000)
    ∧ (x ≠ a.team.ctx → loadPends s x = false → phaseOf s x = some .saved → tokensCover s a.ctx a.ids .load b areaMax ≠ none →
        answers s 0x01000000)
    ∧ (∀ v w h img, x ≠ a.team.ctx → loadPends s x = false → phaseOf s x = some .saved → tokensCover s a.ctx a.ids .load b areaMax = none →
        engLoad s a b 256 = (v, .ok h) → leAt h 0 4 = 1 → 256 ≤ leAt h 8 8 → leAt h 8 8 ≤ areaMax →
        engLoad v a b (leAt h 8 8) = (w, .ok img) → areaBad img = false →
        (leAt img 4 4 ≠ x → answers w 0x50000000)
        ∧ (∀ l d, l = { ctx := x, area := .va (dieNo a.ref.cl) a.ctx b, image := img, done := 0, crew := some a.ref, dest := pendDst i f.d } →
            d = driveLoad (loadRegs w x img) l → leAt img 4 4 = x →
            (d.2 = none → answers d.1 0)
            ∧ (∀ k, d.2 = some k → ∃ t, exec (.ctxld f) s = .next t
                ∧ Onward { reserve d.1 a.ref (pendDst i f.d) with loads := d.1.loads ++ [k] } t a))))
  ∧ (∀ (s u : State) (l : LoadPend), driveLoad s l = (u, none) → (ctxOf u l.ctx).isSome = true → phaseOf u l.ctx = some .running)

/-- R256 to R260: placing a grid's next team gives it the lowest free slot of the cluster, its runs of registers, and the lowest OFF
banks, which become PAD and zero, and moves the grid's next team and the context's cursor on; placement goes on while a team fits.
TEAM_START makes every slot of every crew LIVE at the entry, with the grid's k-registers and every register of the windows zero. A
grid whose next team has waited 2^20 cycles reserves; PLACEMENT_ATTEMPT serves restores, then pending teams. -/
def Obligations.TeamsArePlacedAndStarted : Prop :=
  (∀ (s : State) (g : Grid) (x ts : Nat) (runs : List Nat), freeKey (clusterOf s x).teams 0 32 = some ts →
    ∃ t, teamOf (placeTeam s g x runs) x ts = some t ∧ t.ctx = g.ctx ∧ t.gid = g.gid ∧ t.teamno = g.nextTeam ∧ t.started = false
      ∧ t.banks = (banksIn (clusterOf s x) .off).take g.banks
      ∧ (runs.length + (posUsed (clusterOf s x)).length ≤ 64 → t.crews.map (·.base) = runs.map (· * 256))
      ∧ (∀ c ∈ t.crews, c.win = 8 * g.w8 ∧ c.live = 0#32 ∧ c.pos ∉ posUsed (clusterOf s x))
      ∧ (∀ b < 384, (bankOf (clusterOf (placeTeam s g x runs) x) b).mode
          = if b ∈ t.banks then .pad else (bankOf (clusterOf s x) b).mode)
      ∧ (∀ b ∈ t.banks, ∀ o < 1024, cRead (clusterOf (placeTeam s g x runs) x).sram (b * 1024 + o) = 0#8)
      ∧ (∀ h, gridOf s g.ctx g.gid = some h → gridOf (placeTeam s g x runs) g.ctx g.gid
          = some { h with nextTeam := h.nextTeam + 1, nextSince := s.cycle, reserved := false })
      ∧ (∀ c, ctxOf s g.ctx = some c → ctxOf (placeTeam s g x runs) g.ctx = some { c with cursor := x }))
  ∧ (∀ s : State, exec .placementAttempt s = .next (placeAll (serveLoads s) 6144))
  ∧ (∀ (s : State) (n : Nat), (nextPlacement s = none → placeAll s n = s)
    ∧ (∀ g x r, nextPlacement s = some (g, x, r) → placeAll s (n + 1) = placeAll { placeTeam s g x r with lastPlaced := g.ctx } n))
  ∧ (∀ (s : State) (ctx gid : Nat) (g : Grid), gridOf s ctx gid = some g → reservationDue s g = true →
    ∃ t, exec (.placementReservation ctx gid) s = .next t ∧ gridOf t ctx gid = some { g with reserved := true })
  ∧ (∀ (s u : State) (x ts : Nat) (t : Team) (g : Grid), teamOf s x ts = some t → gridOf s t.ctx t.gid = some g → t.started = false →
    g.killed = false → t.saved = false → writeDirectory s x ts t true = (u, none) →
    ∃ v t', exec (.teamStart x ts) s = .next v ∧ teamOf v x ts = some t' ∧ t'.started = true ∧ (clusterOf v x).icache = []
      ∧ t'.crews = t.crews.map (fun c =>
          { c with live := BitVec.allOnes 32, k := cWrites [] 0 g.kinit, cur := none, candSince := s.cycle,
                   batches := [headBatch g.entry.toNat (BitVec.allOnes 32) .none s.cycle false] })
      ∧ (∀ c ∈ t.crews, ∀ i < 32, ∀ n < c.win, gRead (clusterOf v x) c i n = 0#32))

/-- R135, R261 to R264, R288: how teams, grids and clusters leave. A finished team's banks become OFF and zero, and what its DETACHED
operations would write to its PAD is lost; its exit frees its slot and counts for its grid. A grid without unfinished teams
retires, once every store to peer memory is acknowledged: it is gone, its parent has one child less, and the launching crew is owed
its flag's fall at SYSTEM scope. A killed grid's teams are killed with their ATTACHED operations, and its pending teams given up. A
fenced cluster loses its L1, its teams' ATTACHED operations abort, the tokens that its teams hold become ORPHAN, and their grids are
killed; a reinstated one takes teams again. -/
def Obligations.TeamsAndGridsLeave : Prop :=
  (∀ (s : State) (x ts : Nat) (t : Team), teamOf s x ts = some t → bankReleaseDue s t = true →
    ∃ u, exec (.teamBankRelease x ts) s = .next u ∧ teamOf u x ts = some { t with banks := [], ranges := [], banksDone := true }
      ∧ (∀ b < 384, (bankOf (clusterOf s x) b).owner = ts →
          ((bankOf (clusterOf s x) b).mode = .pad ∨ (bankOf (clusterOf s x) b).mode = .fifo) →
          (bankOf (clusterOf u x) b).mode = .off ∧ ∀ o < 1024, cRead (clusterOf u x).sram (b * 1024 + o) = 0#8)
      ∧ (∀ n o, opOf s n = some o → opOf u n = some (if o.detached && !o.orphaned && o.crew.cl == x && o.crew.ts == ts
          then { o with blockGone := true } else o)))
  ∧ (∀ (s : State) (x ts : Nat) (t : Team) (g : Grid), teamOf s x ts = some t → exitDue s x ts t = true → gridOf s t.ctx t.gid = some g →
    ∃ u h, exec (.teamExit x ts) s = .next u ∧ teamOf u x ts = none ∧ gridOf u t.ctx t.gid = some h ∧ h.unfinished = g.unfinished - 1)
  ∧ (∀ (s : State) (ctx gid : Nat) (g : Grid), gridOf s ctx gid = some g → g.unfinished = 0 → unacked s = false →
    ∃ u, exec (.gridRetire ctx gid) s = .next u ∧ gridOf u ctx gid = none
      ∧ (∀ p h, g.parent = some p → p ≠ (ctx, gid) → gridOf s p.1 p.2 = some h → gridOf u p.1 p.2 = some { h with children := h.children - 1 })
      ∧ (∀ l fl c, g.launcher = some l → l.flag = some fl → crewOf s l.crew = some c →
          ∃ c' m, crewOf u l.crew = some c' ∧ c'.falls = c.falls ++ m ++ [(fl, 7)]))
  ∧ (∀ (s : State) (ctx gid : Nat) (g : Grid), gridOf s ctx gid = some g → g.killed = true →
    ∃ u, exec (.gridKill ctx gid) s = .next u
      ∧ gridOf u ctx gid = some { g with nextTeam := g.teams, unfinished := g.unfinished - (g.teams - g.nextTeam) }
      ∧ (∀ x ts t, teamOf u x ts = some t → t.ctx = ctx → t.gid = gid → t.killed = true)
      ∧ (∀ x ts t n o, teamOf s x ts = some t → t.ctx = ctx → t.gid = gid → opOf s n = some o → opOfTeam x ts t o = true → o.phase ≠ .held →
          o.detached = false → ∃ o', opOf u n = some o' ∧ o'.halt = if o.halt = 0 then 0x36 else o.halt))
  ∧ (∀ (s : State) (x : Nat), x < 192 → (clusterOf s x).fenced = false →
    ∃ u, exec (.clusterFence x) s = .next u ∧ (clusterOf u x).fenced = true ∧ (clusterOf u x).l1 = []
      ∧ (∀ n o, opOf s n = some o → o.crew.cl = x → o.orphaned = false → o.detached = false → o.halt = 0 →
          ∃ o', opOf u n = some o' ∧ o'.halt = 0x36)
      ∧ (∀ ts t d i k, teamOf s x ts = some t → tokenAt s d i = some k → k.owner ∈ teamIds x ts t → isBad k = false →
          ∃ k', tokenAt u d i = some k' ∧ k'.state = .orphan)
      ∧ (∀ ts t g, teamOf s x ts = some t → gridOf s t.ctx t.gid = some g → ∃ g', gridOf u t.ctx t.gid = some g' ∧ g'.killed = true))
  ∧ (∀ (s : State) (x : Nat), x < 192 →
    exec (.clusterReinstate x) s = .next (placeAll (updCluster s x (fun c => { c with fenced := false })) 6144))

/-- R240, R256, R314, R350, R411: contexts and their dispatchers. CONTEXT_CREATE of a free number makes a running context with the
driver's registers, POISON 0 and no L2 counts, and one grid of one team at depth 1 on its cluster, which is its dispatcher or, where
the driver asks for one, a privileged grid in its place; CONTEXT_DESTROY kills its grids, stops its operations with ABORTED and
reports its two accounting records; DISPATCHER_START starts a grid unless a privileged grid is to be restarted or the context has
its dispatcher. (That DISPATCHER_START has no effect where the context has its dispatcher, and which holders are a dispatcher's, are
the model's choices, log 43.) -/
def Obligations.ContextsComeAndGo : Prop :=
  (∀ (n : NewCtx) (s : State), s.boot.phase = .up → ctxFree s n.ctx = true → newGridOk n.grid = true → (∀ g ∈ s.grids, g.ctx ≠ n.ctx) →
    ∃ u c g, exec (.contextCreate n) s = .next (n.roots.foldl (fun s r => createRoot s n.ctx (gridHolder n.ctx 0) r.1 r.2 false) u)
      ∧ ctxOf u n.ctx = some c ∧ c.phase = .running ∧ c.regs = { n.regs with poison := 0#2 }
      ∧ c.cursor = n.grid.cluster ∧ u.grids = s.grids ++ [g] ∧ g.ctx = n.ctx ∧ g.gid = 0 ∧ g.depth = 1 ∧ g.teams = 1
      ∧ g.priv = n.grid.privileged ∧ look u.die0.counts n.ctx = none ∧ look u.die1.counts n.ctx = none
      ∧ g.parent = none ∧ g.launcher = none ∧ g.entry = n.grid.entry ∧ g.crews = n.grid.crews ∧ g.w8 = n.grid.w8 ∧ g.banks = n.grid.banks
      ∧ g.kinit = n.grid.kinit
      ∧ (∀ x < 192, g.cmask.getLsbD x = decide (x = n.grid.cluster)) ∧ (clusterOf u n.grid.cluster).expert = false)
  ∧ (∀ (s : State) (ctx : Nat) (p : CtxPhase), phaseOf s ctx = some p → p ≠ .destroyed →
    ∃ t, exec (.contextDestroy ctx) s = .next t ∧ phaseOf t ctx = some .destroyed
      ∧ (∀ g ∈ t.grids, g.ctx = ctx → g.killed = true) ∧ (∀ l ∈ t.loads, l.ctx ≠ ctx)
      ∧ (∀ o ∈ t.ops, ofCtx s ctx o.2 = true → o.2.halt ≠ 0)
      ∧ t.events = s.events ++ [.accounting (accountRecord s 0 ctx), .accounting (accountRecord s 1 ctx)]
      ∧ look t.die0.counts ctx = none ∧ look t.die1.counts ctx = none)
  ∧ (∀ (n : NewGrid) (s : State) (ctx gid : Nat), phaseOf s ctx = some .running → newGridOk n = true →
    (n.privileged = true → stoppedTeams s ctx n.cluster = []) → (n.privileged = false → dispatcherIds s ctx = []) →
    freeKey (gidsUsed s ctx) 0 65536 = some gid →
    ∃ t g, exec (.dispatcherStart ctx n) s = .next t ∧ t.grids = s.grids ++ [g] ∧ g.ctx = ctx ∧ g.gid = gid ∧ g.priv = n.privileged
      ∧ g.parent = none ∧ g.teams = 1 ∧ g.depth = 1 ∧ g.entry = n.entry ∧ g.kinit = n.kinit)
  ∧ (∀ (n : NewGrid) (s : State) (ctx : Nat), phaseOf s ctx = some .running → n.privileged = false → dispatcherIds s ctx ≠ [] →
    exec (.dispatcherStart ctx n) s = .next s)
  ∧ (∀ (n : NewGrid) (s : State) (ctx ts : Nat) (t : Team) (g : Grid), phaseOf s ctx = some .running → newGridOk n = true → n.privileged = true →
    teamOf s n.cluster ts = some t → t.ctx = ctx → t.crews.any (·.stopped) = true → gridOf s ctx t.gid = some g → g.priv = true →
    g.killed = false →
    ∃ u t', exec (.dispatcherStart ctx n) s = .next u ∧ teamOf u n.cluster ts = some t' ∧ t'.crews.length = t.crews.length
      ∧ ∀ c ∈ t'.crews, c.stopped = false)

/-- R179, R282, R283, R284: root tokens at the driver's request. A legal region that meets no token of its context, over no peer's
memory and no multicast window, gets an EXCL token of its dispatcher, or of a HOST identity whose connection is open; an EXCL root
token without shares, chain and recaller is destroyed; a report request tells every entry of the context. -/
def Obligations.RootTokensComeAndGo : Prop :=
  (∀ (s : State) (r : RootReq) (w : W64) (i : Nat), regionOk r.base r.len = true →
    (∀ e ∈ allTokens s, e.2.2.ctx ≠ r.ctx ∨ r.base + r.len ≤ e.2.2.base ∨ e.2.2.base + e.2.2.len ≤ r.base) →
    rootOk s r.ctx r.base r.len false = true → freeOwner s (regionDie s r.ctx r.base) = some i →
    ((r.host = none ∧ (dispatcherIds s r.ctx).head? = some w) ∨ (∃ h, r.host = some h ∧ hostOk s r.ctx h = true ∧ w = hostHolder h)) →
    ∃ u, exec (.rootTokenCreate r) s = .next u ∧ tokenAt u (regionDie s r.ctx r.base) i = some
      { ctx := r.ctx, base := r.base, len := r.len, state := .excl, owner := w, n := 0, chain := [], recaller := none, recalls := [],
        peer := none, rest := .excl })
  ∧ (∀ (s : State) (ctx base d i : Nat) (t : Token), coverOf s ctx base = some (d, i, t) → t.base = base → t.state = .excl →
    rootOwner s t = true → t.n = 0 → t.chain = [] → t.recaller = none → t.peer = none → jointlyHeld s d i = false →
    ∃ u, exec (.rootTokenDestroy ctx base) s = .next u ∧ look (dieOf u d).owners i = none
      ∧ ∀ j, j ≠ i → look (dieOf u d).owners j = look (dieOf s d).owners j)
  ∧ (∀ (s : State) (ctx : Nat), ∃ l, exec (.tokenReportRequest ctx) s = .next { s with events := s.events ++ l }
      ∧ ∀ e ∈ allTokens s, e.2.2.ctx = ctx → .tokenReport (tokenReport e.1 e.2.1 e.2.2 0 0 0) ∈ l)

/-- R305, R314, R377, R380, R381, R402: errors, accounting and the multicast tables. A soft error in an L1 is counted and reported; an
uncorrectable one has a clean line fetched anew, where its home can be reached, and poisons a dirty one. An error at an L2 (a copy
of peer memory too), in device memory or from an expander poisons the line and is counted and reported; the driver's requests are
answered from the counts and the ring, and after a handoff BANKCFGs that waited for the ring's room go on; a legal table entry stands
after its write, and a valid group has the root token of its window. (What a soft error does to a copy of peer memory is the model's
choice, log 52; that each error is reported at once with its count, log 47; that a group write gives the dispatcher its root token,
log 43.) -/
def Obligations.ErrorsAndTables : Prop :=
  (∀ (s : State) (cl k : Nat) (e : L1Line), l1Find (clusterOf s cl) k = some e →
    let n := (clusterOf s cl).errcount + 1
    let u := emit (updCluster s cl (fun c => { c with errcount := c.errcount + 1 })) (.clusterErrors cl n)
    (exec (.l1SoftError cl k true) s = .next u)
    ∧ (e.dirty = 0#64 → behindIsolated s (k / 64 * 64) = false → peerFault s (k / 64 * 64) = none →
        ∃ t, exec (.l1SoftError cl k false) s = .next t ∧ (clusterOf t cl).errcount = n
          ∧ l1Find (clusterOf t cl) k = some { e with
              data := BitVec.ofNat 512 (leNat (fillBytes u cl (k / 64 * 64) e.ctx false).2),
              poison := poisoned (fillBytes u cl (k / 64 * 64) e.ctx false).1 (k / 64 * 64) })
    ∧ (e.dirty = 0#64 → behindIsolated s (k / 64 * 64) = true ∨ peerFault s (k / 64 * 64) ≠ none →
        ∃ t, exec (.l1SoftError cl k false) s = .next t ∧ (clusterOf t cl).errcount = n ∧ l1Find (clusterOf t cl) k = none)
    ∧ (e.dirty ≠ 0#64 → ∃ t, exec (.l1SoftError cl k false) s = .next t ∧ l1Find (clusterOf t cl) k = some { e with poison := true }
        ∧ (clusterOf t cl).errcount = n ∧ t.events = s.events ++ [.clusterErrors cl n]))
  ∧ (∀ (s : State) (k : Nat), (isLocal k = true ∨ peerCopy s k = true) →
    ∃ t, exec (.l2HbmSoftError k) s = .next t ∧ poisoned t k = true ∧ t.events = s.events ++ [.softError (k / 64 * 64)] ∧ t.mem = s.mem
      ∧ (∀ j, j / 64 ≠ k / 64 → poisoned t j = poisoned s j))
  ∧ (∀ (s : State) (k : Nat), isCxl k = true →
    ∃ t, exec (.cxlPoisonResponse k) s = .next t ∧ poisoned t k = true ∧ t.events = s.events ++ [.softError (k / 64 * 64)]
      ∧ ∀ cl, ∀ e ∈ (clusterOf t cl).l1, e.key = k / 64 * 64 → e.poison = true)
  ∧ (∀ (s : State) (d ctx : Nat), d < 2 → (phaseOf s ctx).isSome = true →
    exec (.l2AccountingRequest d ctx) s = .next { s with events := s.events ++ [.accounting (accountRecord s d ctx)] })
  ∧ (∀ (s u : State) (d n : Nat), u = updDie s d (fun x => { x with ring := x.ring.drop n }) →
    (exec (.l2PoisonListHandoff d n) s
      = .next (emit ((ringWaiters u d).foldl goOnRing u) (.poisonHandoff ((dieOf s d).ring.take n))))
    ∧ (ringWaiters u d = [] → ∃ t, exec (.l2PoisonListHandoff d n) s = .next t ∧ (dieOf t d).ring = (dieOf s d).ring.drop n
      ∧ t.events = s.events ++ [.poisonHandoff ((dieOf s d).ring.take n)]))
  ∧ (∀ (s : State) (g : Nat) (e : McastGroup), g < 64 → groupEntryOk e = true → ∃ t, exec (.mcastGroupWrite g e) s = .next t
      ∧ look t.groups g = some e ∧ (∀ j, j ≠ g → look t.groups j = look s.groups j)
      ∧ (∀ h i, e.valid = true → (dispatcherIds s e.ctx).head? = some h → regionFree s e.ctx e.winva.toNat e.wlen = true →
          rootOk s e.ctx e.winva.toNat e.wlen true = true →
          freeOwner s (regionDie s e.ctx e.winva.toNat) = some i →
          ∃ k, tokenAt t (regionDie s e.ctx e.winva.toNat) i = some k ∧ k.owner = h ∧ k.base = e.winva.toNat ∧ k.len = e.wlen ∧ k.state = .excl))
  ∧ (∀ (s : State) (i : Nat) (e : McastBinding), i < 256 → e.group < 64 → e.rbase % 65536 = 0 → e.len % 65536 = 0 →
    exec (.mcastBindingWrite i e) s = .next { s with bindings := put s.bindings i e })

/-- R389, R397, R398: the Ethernet link. A frame that is too long or fails its checks is dropped and counted; a good one's ACK and NAK
are taken; one out of order is dropped, and the next frame sent tells the partner; one in order is taken and its packet performed.
A frame behind others or without room in the replay buffer waits. A NAK replays every frame that is not acknowledged, each under a
new packet number; a link that is silent for 10 ms, or of which one SEQ was NAKed 64 times, goes down; one that comes up starts
with sequence number 0; rekeying restarts the packet numbers; a side that is idle for 16 µs, or has a NAK to tell for 2 µs, sends
a control frame. A new key comes before a packet number reaches 2^62 (R397), and in recovery the link takes nothing (R412). (That ACK
and NAK are taken from every frame that passes, that frames the link held are lost when it goes down, and how NAKs are counted, are the
model's choices, log 44; the times and the bytes that a frame takes in the replay buffer, log 53.) -/
def Obligations.LinkFramesAndRetries : Prop :=
  (∀ (s : State) (f : Frame), (s.eth.up = false ∨ s.boot.phase = .recovery ∨ 9216 < f.size
      ∨ (f.body ≠ .mka ∧ (f.intact = false ∨ f.sak ≠ s.eth.sak ∨ f.pn < s.eth.rxPn ∨ f.shimZero = false))) →
    exec (.frameReceive f) s = .next { s with eth := { s.eth with dropped := s.eth.dropped + 1 } })
  ∧ (∀ (s u : State) (f : Frame), s.eth.up = true → s.boot.phase ≠ .recovery → f.size ≤ 9216 → f.body ≠ .mka → f.intact = true →
    f.sak = s.eth.sak → s.eth.rxPn ≤ f.pn → f.shimZero = true →
    u = (let v : State := { s with eth := freshKey { s.eth with lastRx := s.cycle, rxPn := f.pn + 1 } }
         if f.nak then takeNak v f.ack else takeAck v f.ack) →
    (f.seq ≠ s.eth.rxExpect → exec (.frameReceive f) s = .next { u with eth := { u.eth with
        nakOut := true, nakAt := if u.eth.nakOut then u.eth.nakAt else u.cycle } })
    ∧ (f.seq = s.eth.rxExpect → ∀ v, v = ({ u with eth := { u.eth with rxExpect := f.seq + 1#32, ownNaks := 0 } } : State) →
        (f.body = .control → exec (.frameReceive f) s = .next v)
        ∧ (f.body = .foreign → exec (.frameReceive f) s = .next { v with eth := { v.eth with dropped := v.eth.dropped + 1 } })
        ∧ (∀ p, f.body = .roce p → exec (.frameReceive f) s = takePkt p v)))
  ∧ (∀ (s : State) (f : Frame), s.eth.up = true → s.boot.phase ≠ .recovery → f.size ≤ 9216 → f.body = .mka →
    exec (.frameReceive f) s = exec .mkaFrame s)
  ∧ (∀ e : Eth, (2 ^ 62 - 1 ≤ e.pn ∨ 2 ^ 62 - 1 ≤ e.rxPn → freshKey e = { e with sak := e.sak + 1, pn := 0, rxPn := 0 })
    ∧ (e.pn < 2 ^ 62 - 1 → e.rxPn < 2 ^ 62 - 1 → freshKey e = e))
  ∧ (∀ (s : State) (k : W32), s.eth.waiting = [] →
    takeAck s k = { s with eth := { s.eth with unacked := s.eth.unacked.filter (fun f => !before f.1 k) } })
  ∧ (∀ (s : State) (b : FrameBody), s.eth.up = true →
    (s.eth.waiting = [] → replayUsed s.eth + frameBytes b ≤ 2 ^ 28 → (sendFrame s b).eth.unacked = s.eth.unacked ++ [(s.eth.txNext, b)]
      ∧ (sendFrame s b).egress
          = s.egress ++ [.frame (freshKey s.eth).sak (freshKey s.eth).pn s.eth.txNext s.eth.rxExpect s.eth.nakOut b]
      ∧ (sendFrame s b).eth.pn = (freshKey s.eth).pn + 1)
    ∧ (s.eth.waiting ≠ [] ∨ 2 ^ 28 < replayUsed s.eth + frameBytes b →
      sendFrame s b = { s with eth := { s.eth with waiting := s.eth.waiting ++ [b] } }))
  ∧ (∀ (s : State) (k : W32), s.eth.up = true → s.boot.phase ≠ .recovery → s.eth.waiting = [] →
    s.eth.pn + s.eth.unacked.length < 2 ^ 62 - 1 → s.eth.rxPn < 2 ^ 62 - 1 →
    ∃ t, exec (.linkNak k) s = .next t ∧ t.eth.naks = (if s.eth.nakSeq = k then s.eth.naks + 1 else 1) ∧ t.eth.nakSeq = k
      ∧ t.eth.unacked = s.eth.unacked.filter (fun f => !before f.1 k) ∧ t.eth.pn = s.eth.pn + t.eth.unacked.length
      ∧ t.egress = s.egress ++ t.eth.unacked.mapIdx (fun j f =>
          .frame s.eth.sak (s.eth.pn + j) f.1 s.eth.rxExpect (s.eth.nakOut && decide (j = 0)) f.2))
  ∧ (∀ s : State, s.eth.up = true → (64 ≤ s.eth.naks ∨ 64 ≤ s.eth.ownNaks ∨ s.eth.lastRx + 27000000 ≤ s.cycle) →
    ∃ t, exec .linkDown s = .next t ∧ t.eth.up = false ∧ t.eth.unacked = [] ∧ t.eth.waiting = [] ∧ t.events = s.events ++ [.linkDown])
  ∧ (∀ s : State, s.eth.up = false → s.boot.phase ≠ .recovery → ∃ t, exec .linkUp s = .next t ∧ t.eth.up = true ∧ t.eth.rxExpect = 0#32
      ∧ t.eth.txNext = 0#32 ∧ t.eth.unacked = [] ∧ t.eth.waiting = [] ∧ { t with eth := s.eth } = s)
  ∧ (∀ s : State, s.boot.phase ≠ .recovery →
    exec .sakRekey s = .next { s with eth := { s.eth with sak := s.eth.sak + 1, pn := 0, rxPn := 0 } })
  ∧ (∀ s : State, s.boot.phase ≠ .recovery → exec .mkaFrame s = .next { s with eth := { s.eth with lastRx := s.cycle } })
  ∧ (∀ (s : State) (i : Instr), s.boot.phase = .recovery → i = .sakRekey ∨ i = .mkaFrame ∨ i = .linkUp ∨ i = .retryControlFrame
      ∨ (∃ k, i = .linkNak k) ∨ (∃ n e, i = .connTableWrite n e) → exec i s = .next s)
  ∧ (∀ s : State, s.eth.up = true → s.boot.phase ≠ .recovery → s.eth.waiting = [] → replayUsed s.eth + 16 ≤ 2 ^ 28 →
    (s.eth.lastTx + 43200 ≤ s.cycle ∨ (s.eth.nakOut = true ∧ s.eth.nakAt + 5400 ≤ s.cycle)) → ∃ t, exec .retryControlFrame s = .next t
      ∧ t.egress = s.egress ++ [.frame (freshKey s.eth).sak (freshKey s.eth).pn s.eth.txNext s.eth.rxExpect s.eth.nakOut .control]
      ∧ t.eth.txNext = s.eth.txNext + 1#32 ∧ t.eth.nakOut = false ∧ t.eth.unacked = s.eth.unacked ++ [(s.eth.txNext, .control)])

/-- R391 to R394: what a responder does with requests on an open host connection under the right key that pass their checks: it
writes, it answers with the bytes, or it exchanges 64 bits and answers the old value, at the expected PSN, which moves on. A
packet of an earlier PSN is only acknowledged, one of a later PSN is dropped, and the first such told. A request on a closed
connection is dropped and counted, one that a connection of the Churn does not take refused, as are a wrong key, an opcode that is
not taken, and a payload above the path MTU. A SEND goes into the connection's queue; a full one has it sent again, and LEND and
RETN messages answer their status. An atomic whose home is a pod member's memory is one request to that member. (The PSN order, the 16
kept atomics and READs up to 2^31 bytes are the model's choices, log 53; that a wrong R_Key is reported as PROTECTION, log 44.) -/
def Obligations.HostRequestsServed : Prop :=
  (∀ (s : State) (i : Nat) (r : Instr), connOf s i = none → (∃ k va l, r = .rdmaWrite i k va l) ∨ (∃ k va n, r = .rdmaReadRequest i k va n)
    ∨ (∃ k va x y, r = .compareSwap i k va x y) ∨ (∃ k va x, r = .fetchAdd i k va x) ∨ (∃ l, r = .sendOnly i l)
    ∨ (∃ v l, r = .sendOnlyWithImmediate i v l) ∨ (∃ o, r = .invalidRequest i o) ∨ r = .ack i ∨ r = .rnrNak i →
    exec r s = .next { s with eth := { s.eth with dropped := s.eth.dropped + 1 } })
  ∧ (∀ (s : State) (i : Nat) (c : Conn) (r : Instr), connOf s i = some c → c.type = 2 → (∃ k va l, r = .rdmaWrite i k va l)
    ∨ (∃ k va x y, r = .compareSwap i k va x y) ∨ (∃ k va x, r = .fetchAdd i k va x) ∨ (∃ l, r = .sendOnly i l)
    ∨ (∃ v l, r = .sendOnlyWithImmediate i v l) → exec r s = .next (sendPkt (pastPsn s i 1) (.nak c.destqp (qpOf s i).ePsn 1)))
  ∧ (∀ (s : State) (i p : Nat) (c : Conn), connOf s i = some c → c.type = 1 → p = (qpOf s i).ePsn →
    let v := pastPsn s i 1
    (∀ va l, l.length ≤ 4096 → remoteFault v c.ctx (hostHolder c.host) .store va.toNat l.length = none →
      exec (.rdmaWrite i c.rkey va l) s = .next (sendPkt (hostWrite v c.ctx va.toNat l) (.ack c.destqp p)))
    ∧ (∀ k va l, 4096 < l.length → exec (.rdmaWrite i k va l) s = .next (sendPkt v (.nak c.destqp p 1)))
    ∧ (∀ va n u l, n ≤ 2 ^ 31 → remoteFault (pastPsn s i (readCount n)) c.ctx (hostHolder c.host) .load va.toNat n = none →
      hostRead (pastPsn s i (readCount n)) c.ctx va.toNat n = (u, l) →
      exec (.rdmaReadRequest i c.rkey va n) s = .next (sendRead u c.destqp p l))
    ∧ (∀ va k old r w m, remoteFault v c.ctx (hostHolder c.host) .atomic va.toNat 8 = none → vaLoc v 0 c.ctx va.toNat = some k →
      (k + 8 ≤ 2 ^ 50 ∨ isPeer k = true ∨ (isCxl k = true ∧ k + 8 ≤ 2 ^ 51 ∧ Roomy v)) → old = homeNat (freshPeer v c.ctx k 8) k 8 →
      ((∃ x y, r = .compareSwap i c.rkey va x y ∧ w = (if old = x.toNat then y.toNat else old) ∧ m = (8, y.toNat, x.toNat))
        ∨ (∃ x, r = .fetchAdd i c.rkey va x ∧ w = (old + x.toNat) % 2 ^ 64 ∧ m = (0, x.toNat, 0))) →
      ∃ t q, exec r s = .next (sendPkt (setQp t i q) (.atomicAck c.destqp p (BitVec.ofNat 64 old)))
        ∧ homeBytes t k 8 = leBytes 8 w
        ∧ q = { qpOf v i with atomics := ((p, BitVec.ofNat 64 old) :: (qpOf v i).atomics).take 16 }
        ∧ (isPeer k = true → t.egress
            = v.egress ++ [.peerAtomic (peerMember k) (peerCtx k) (peerVa k) 8 m.1 m.2.1 m.2.2]))
    ∧ (∀ k va l, k ≠ c.rkey → l.length ≤ 4096 → exec (.rdmaWrite i k va l) s
        = .next (sendPkt (emit v (.hostRefused i 2 va.toNat l.length)) (.nak c.destqp p 2)))
    ∧ (∀ o, exec (.invalidRequest i o) s = .next (sendPkt (setQp v i { qpOf v i with write := none }) (.nak c.destqp p 1)))
    ∧ (∀ l h u w, l.length = 8 → sendQueue v c l = some h →
        qPushCore v 0 c.ctx [hostHolder c.host] c.inq.toNat h (leAt l 0 8) none = (u, .status w) →
        (w = 0 → exec (.sendOnly i l) s = .next (sendPkt u (.ack c.destqp p)))
        ∧ (w = 0x20000000 → exec (.sendOnly i l) s
            = .next (sendPkt (setQp u i { qpOf u i with ePsn := p, hold := true }) (.rnrNak c.destqp p c.rnrt))))
    ∧ (∀ l, sendQueue v c l = none → exec (.sendOnly i l) s = .next (sendPkt (toldQueue v c.ctx c.inq.toNat) (.nak c.destqp p 1)))
    ∧ (∀ (m : W32) (l : List Byte) u w, l.length = 32 →
        ((m.toNat / 2 ^ 24 = 2 ∧ transferBad 2 l = false ∧ retn v c.ctx [hostHolder c.host] (leAt l 0 8) (leAt l 8 8) = (u, w))
          ∨ (m.toNat / 2 ^ 24 = 1 ∧ transferBad 1 l = false
            ∧ lend v c.ctx [hostHolder c.host] (leAt l 0 8) (leAt l 8 8) (BitVec.ofNat 64 (leAt l 16 8)) (leAt l 24 1) none = (u, .status w))) →
        exec (.sendOnlyWithImmediate i m l) s
          = .next (sendRequest (sendPkt u (.ack c.destqp p)) i (fun n => .sendImm c.destqp n (BitVec.ofNat 32 w) l) none)))
  ∧ (∀ (s : State) (i n : Nat) (c : Conn) (l : List Byte), connOf s i = some c →
    (n = (qpOf s i).ePsn → (qpOf s i).write = none → takePkt (.send (i + 0x100) n l) s = exec (.sendOnly i l) s)
    ∧ (n ≠ (qpOf s i).ePsn → psnLe n (qpOf s i).ePsn = true →
        takePkt (.send (i + 0x100) n l) s = .next (sendPkt s (.ack c.destqp (psnAdd (qpOf s i).ePsn (2 ^ 24 - 1)))))
    ∧ (psnLe n (qpOf s i).ePsn = false → (qpOf s i).hold = true →
        takePkt (.send (i + 0x100) n l) s = .next { s with eth := { s.eth with dropped := s.eth.dropped + 1 } })
    ∧ (psnLe n (qpOf s i).ePsn = false → (qpOf s i).hold = false → ∃ u, u = setQp s i { qpOf s i with hold := true }
        ∧ takePkt (.send (i + 0x100) n l) s
          = .next (sendPkt { u with eth := { u.eth with dropped := u.eth.dropped + 1 } } (.nak c.destqp (qpOf s i).ePsn 0))))

/-- R390, R395, R396: the M8 as requester, and its connection table. A request takes the connection's next PSN and is kept until it is
acknowledged; an acknowledgement ends the oldest request, a NAK for want of room sends it and what followed again, and so does its
time-out, counted, until RETRY is exhausted, which closes the connection; an item of OUTQ leaves its queue when none is under way.
A legal entry stands after its write; a closed connection has TYPE 0, nothing under way and no PSNs, a host's tokens become
ORPHAN, and the items that were under way or queued are reported. (That one item of an OUTQ is under way at a time is the
model's choice, log 44; the PSNs and the times, log 53.) -/
def Obligations.RequestsOfTheDevice : Prop :=
  (∀ (s : State) (i : Nat) (f : Nat → RocePkt) (it : Option (Nat × Nat)), (sendRequest s i f it).eth.sent = s.eth.sent
      ++ [{ conn := i, psn := (qpOf s i).nPsn, pkt := f (qpOf s i).nPsn, tries := 0, since := s.cycle, item := it }]
    ∧ qpOf (sendRequest s i f it) i = { qpOf s i with nPsn := psnAdd (qpOf s i).nPsn 1 })
  ∧ (∀ (s : State) (i : Nat) (c : Conn) (x : Sent), connOf s i = some c → oldestSent s i = some x →
    (exec (.ack i) s = .next { s with eth := { s.eth with sent := s.eth.sent.filter (fun y => !(y.conn == i && psnLe y.psn x.psn)) } })
    ∧ (exec (.rnrNak i) s = .next (resendFrom s i x.psn))
    ∧ (x.since + ackCycles c.ackto ≤ s.cycle →
      (c.retry ≤ x.tries → exec (.ackTimeout i) s = exec (.connectionClose i) s)
      ∧ (x.tries < c.retry → ∃ t, exec (.ackTimeout i) s = .next t ∧ t.eth.sent = s.eth.sent.map (fun y =>
          if y.conn = i ∧ psnLe x.psn y.psn = true then { y with since := s.cycle, tries := y.tries + (if y.psn = x.psn then 1 else 0) }
          else y))))
  ∧ (∀ (s u : State) (i item : Nat) (c : Conn) (h : QHead), connOf s i = some c → outqDue s i c = true →
    boundQueue s c.ctx c.outq.toNat = some h → qRemove s 0 c.ctx c.outq.toNat h (hostHolder c.host) = (u, some (item, noToken)) →
    exec (.outqSend i) s = .next (sendRequest u i (fun n => .send c.destqp n (leBytes 8 item)) (some (item, noToken))))
  ∧ (∀ (s : State) (i : Nat) (e : Conn), i < 1024 → s.boot.phase ≠ .recovery → connEntryOk e = true → connOf s i = none →
    (e.type = 1 → ∀ x ∈ s.conns, x.1 ≠ i → x.2.type = 1 → x.2.host ≠ e.host) →
    exec (.connTableWrite i e) s = .next { s with conns := put s.conns i e })
  ∧ (∀ (s : State) (i : Nat) (c : Conn), connOf s i = some c → ∃ t l, exec (.connectionClose i) s = .next t
    ∧ look t.conns i = some { c with type := 0 } ∧ (∀ x ∈ t.eth.sent, x.conn ≠ i) ∧ look t.eth.qps i = none
    ∧ t.events = l ++ [.connClosed i (if c.type = 1 then (s.eth.sent.filter (fun x => x.conn == i)).filterMap (·.item) ++ outItems s c else [])]
    ∧ (c.type = 1 → ∀ d j k, tokenAt s d j = some k → k.owner = hostHolder c.host → isBad k = false →
        ∃ k', tokenAt t d j = some k' ∧ k'.state = .orphan))

/-- R286, R288, R386, R399 to R401, R405: peers and root ports. A peer's transaction of a legal size that passes its checks under the
peer's entry is performed and answered; a LEND to this device enters a mirror, whose state is as the kind says; a lost member's
tokens and mirrors become ORPHAN; an isolated port's lines leave the L2s and its unwritten bytes are lost, until it is reinstated. A
request without an answer for PEERTO is sent again. (That a READ of another size answers code 8, and that every such request is sent
again as it was, are the model's choices, log 45; that an isolated port's unwritten bytes are lost, log 48.) -/
def Obligations.PeersAndPorts : Prop :=
  (∀ (s u : State) (m ctx n : Nat) (va : W64) (l : List Byte), 64 ≤ n → n ≤ 256 →
    remoteFault s ctx (peerHolder (deviceOf s m)) .load va.toNat n = none → hostRead s ctx va.toNat n = (u, l) →
    exec (.peerTransaction (.read m ctx va n)) s = .next { u with egress := u.egress ++ [.peerAnswer m 0 l] })
  ∧ (∀ (s : State) (m ctx : Nat) (va : W64) (l : List (Option Byte)), l.length ≤ 256 →
    remoteFault s ctx (peerHolder (deviceOf s m)) .store va.toNat l.length = none →
    exec (.peerTransaction (.write m ctx va l)) s = .next (send (writeEnabled s ctx va.toNat l) (.peerAnswer m 0 [])))
  ∧ (∀ (s : State) (m ctx k op old : Nat) (va v w : W64), remoteFault s ctx (peerHolder (deviceOf s m)) .atomic va.toNat 8 = none →
    vaLoc s 0 ctx va.toNat = some k → (k + 8 ≤ 2 ^ 50 ∨ isPeer k = true ∨ (isCxl k = true ∧ k + 8 ≤ 2 ^ 51 ∧ Roomy s)) →
    old = homeNat (freshPeer s ctx k 8) k 8 → op = 0 ∨ op = 8 →
    ∃ t, exec (.peerTransaction (.atomic m ctx va op true v w)) s = .next (send t (.peerAnswer m 0 (leBytes 8 old)))
      ∧ homeBytes t k 8 = leBytes 8 (if op = 0 then (old + v.toNat) % 2 ^ 64 else if old = w.toNat then v.toNat else old))
  ∧ (∀ (s : State) (m ctx n : Nat) (va : W64), (n < 64 ∨ 256 < n) →
    exec (.peerTransaction (.read m ctx va n)) s = .next { s with egress := s.egress ++ [.peerAnswer m 8 []] })
  ∧ (∀ (s : State) (m : Nat), ∃ t, exec (.peerRequestTimeout m) s = .next t
    ∧ t.egress = s.egress
        ++ (s.ua.out.filter (fun x => decide (x.member = m) && decide (x.last + s.ua.peerto * 2700 ≤ s.cycle))).map (·.req)
    ∧ t.ua.out = s.ua.out.map (fun x => if x.member = m ∧ x.last + s.ua.peerto * 2700 ≤ s.cycle then { x with last := s.cycle } else x)
    ∧ { t with egress := s.egress, ua := s.ua } = s)
  ∧ (∀ (s : State) (m : Nat), m < 512 → m ≠ s.boot.member → m ∉ s.ua.lost → ∃ t, exec (.peerLost m) s = .next t ∧ m ∈ t.ua.lost
    ∧ (∀ x ∈ t.ua.out, x.member ≠ m)
    ∧ ∀ d i k, tokenAt s d i = some k → (k.owner = peerHolder (deviceOf s m) ∨ k.peer = some (deviceOf s m)) → isBad k = false →
        ∃ k', tokenAt t d i = some k' ∧ k'.state = .orphan)
  ∧ (∀ (s : State) (dev ctx base len kind i : Nat) (g : W64), (dispatcherIds s ctx).head? = some g → freeOwner s 0 = some i →
    regionFree s ctx base len = true → kind ≤ 2 → ∃ t k, exec (.peerOwnershipRequest (.lend dev ctx base len kind)) s = .next t
      ∧ tokenAt t 0 i = some k ∧ k.owner = g ∧ k.chain = [peerHolder dev]
      ∧ k.state = (if kind = 0 then .excl else if kind = 1 then .shared else .atomic) ∧ k.base = base ∧ k.len = len ∧ k.peer = some dev
      ∧ ∃ m, t.egress = s.egress ++ m ++ [.peerAnswer (dev % 512) 0 []])
  ∧ (∀ (s u : State) (dev ctx base len v : Nat), retn s ctx [peerHolder dev] base len = (u, v) →
    exec (.peerOwnershipRequest (.retnHere dev ctx base len)) s = .next { u with egress := u.egress ++ [.peerAnswer (dev % 512) v []] })
  ∧ (∀ (s : State) (p : Nat), p < 8 → (cxlPort s p).isolated = false → ∃ t, exec (.cxlPortIsolate p) s = .next t
    ∧ (cxlPort t p).isolated = true ∧ (∀ d < 2, ∀ e ∈ (dieOf t d).l2, behindPort p e.key = false)
    ∧ (∀ b ∈ t.cxlDirty, behindPort p b.1 = false) ∧ t.mem = s.mem ∧ (∀ q, q ≠ p → cxlPort t q = cxlPort s q))
  ∧ (∀ (s : State) (p : Nat), p < 8 → ∃ t, exec (.cxlPortReinstate p) s = .next t ∧ (cxlPort t p).isolated = false ∧ t.mem = s.mem
    ∧ { t with cxl := s.cxl } = s)

/-- R388, R410 to R416: bring-up and the package. An accepted image leaves the M8 as reset leaves it, but for fuses, the running
image's rollback number and digest, expander memory and what has gone out, or fenced where a stack of HBM fails its training; a
rejected one leaves it in recovery, where a loaded image passes the same checks. A device number below 12,288 brings it up while no context lives; a rollback commit blows one bit at
most up to the image's number; a rail point sets the cluster's CSLOPE; a thermal sample, one in an epoch, counts comparators that trip;
an over-temperature has every rail move to point 4, and with all of them there fences every cluster. (One fuse bit for each commit, and
the fence only with every cluster at point 4, are the model's choices, log 46; that expander memory is kept, log 2; the digests,
log 7.) -/
def Obligations.PackageEvents : Prop :=
  (∀ (s : State) (l : List Byte), ∃ t, exec (.packageReset l) s = .next t ∧ t.boot.fuses = s.boot.fuses ∧ t.ctxs = [] ∧ t.grids = []
    ∧ t.clusters = [] ∧ t.die0 = Die.reset ∧ t.die1 = Die.reset ∧ t.ops = [] ∧ t.conns = [] ∧ t.groups = [] ∧ t.cycle = 0
    ∧ t.events = s.events ++ [.bootStatus (imageOk s.boot.fuses l && s.boot.failing.isEmpty)]
    ∧ (∀ k < 2 ^ 50, homeByte t k = 0#8) ∧ (∀ k, isCxl k = true → cRead t.mem k = cRead s.mem k)
    ∧ (imageOk s.boot.fuses l = true → t.boot.rollback = leAt l 8 4
      ∧ (s.boot.failing = [] → t.boot.phase = .waitDevNum) ∧ (s.boot.failing ≠ [] → t.boot.phase = .fencedDevice))
    ∧ (imageOk s.boot.fuses l = false → t.boot.phase = .recovery))
  ∧ (∀ (s : State) (l : List Byte), s.boot.phase = .recovery →
    (imageOk s.boot.fuses l = true → ∃ t, exec (.recoveryImageLoad l) s = .next t
      ∧ t.boot.phase = (if s.boot.failing = [] then .waitDevNum else .fencedDevice)
      ∧ t.egress = s.egress ++ [.imageAccepted true])
    ∧ (imageOk s.boot.fuses l = false → exec (.recoveryImageLoad l) s = .next { s with egress := s.egress ++ [.imageAccepted false] }))
  ∧ (∀ s : State, s.boot.phase ≠ .recovery → ∃ n, exec .rollbackCommit s = .next { s with boot := { s.boot with fuses := n } }
    ∧ (s.boot.fuses < s.boot.rollback → n = s.boot.fuses + 1) ∧ (s.boot.rollback ≤ s.boot.fuses → n = s.boot.fuses))
  ∧ (∀ (s : State) (n : Nat), n < 12288 → (s.boot.phase = .waitDevNum ∨ s.boot.phase = .up) → (∀ c ∈ s.ctxs, c.2.phase = .destroyed) →
    exec (.deviceNumberSet n) s = .next { s with boot := { s.boot with phase := .up, devnum := some n, member := n % 512 } })
  ∧ (∀ (s : State) (l : List Byte), s.boot.phase ≠ .recovery → ∃ r, exec (.attestationRequest l) s
      = .next { s with events := s.events ++ [.attestation r] }
      ∧ leAt r 0 4 = 0x4F435131 ∧ leAt r 8 8 = Config.serialNumber.toNat ∧ leAt r 16 8 = s.boot.fuses % 2 ^ 64)
  ∧ (∀ (s : State) (x p : Nat), x < 192 → p < 5 → exec (.railPointChange x p) s = .next (updCluster s x (fun c =>
      { c with rail := p, railTo := if (c.rail < p ∧ p < c.railTo) ∨ (p < c.rail ∧ c.railTo < p) then c.railTo else p,
               cslope := BitVec.ofNat 16 (if p = 0 then 0 else if p = 1 then 0x1008 else if p = 2 then 0x0810
                 else if p = 3 then 0x0420 else 0x0240) })))
  ∧ (∀ (s : State) (x : Nat) (b : BitVec 2), x < 192 →
    ((∃ t, (clusterOf s x).sampledAt = some t ∧ t / 1024 = s.cycle / 1024) → exec (.thermalSample x b) s = .next s)
    ∧ ((∀ t, (clusterOf s x).sampledAt = some t → t / 1024 ≠ s.cycle / 1024) → exec (.thermalSample x b) s
        = .next (updCluster s x (fun c => { c with thermalWas := c.thermal, thermal := b, sampledAt := some s.cycle, trips := (c.trips
            + ((List.range 2).filter (fun i => b.getLsbD i && !c.thermal.getLsbD i)).length) % 2 ^ 32 }))))
  ∧ (∀ s : State,
    ((∀ x < 192, (clusterOf s x).rail = 4 ∧ (clusterOf s x).railTo = 4) → ∃ t, exec .packageOvertemp s = .next t
      ∧ t.boot.phase = .fencedDevice ∧ ∀ x < 192, (clusterOf t x).fenced = true)
    ∧ ((∃ x < 192, (clusterOf s x).rail ≠ 4 ∨ (clusterOf s x).railTo ≠ 4) → ∃ t, exec .packageOvertemp s = .next t
      ∧ t.boot = s.boot ∧ ∀ x < 192, (clusterOf t x).railTo = 4 ∧ (clusterOf t x).fenced = (clusterOf s x).fenced))
end

