-- ==== Sys2Proof/Laws/Bits.lean ====
section
/-! SUPPORT. Bits of numbers: setting one bit, and the fields of the crew status word. -/

namespace Sys2Proof.Machine

theorem testBit_setBit (w n m : Nat) (b : Bool) :
    (w - (w / 2 ^ n % 2) * 2 ^ n + (if b then 2 ^ n else 0)).testBit m = if m = n then b else w.testBit m := by
  have h1 : w = (w / 2 ^ (n + 1)) * 2 ^ (n + 1) + (w / 2 ^ n % 2) * 2 ^ n + w % 2 ^ n := by
    have a1 := Nat.div_add_mod w (2 ^ n)
    have a2 := Nat.div_add_mod (w / 2 ^ n) 2
    have a3 : w / 2 ^ (n + 1) = w / 2 ^ n / 2 := by rw [Nat.pow_succ, Nat.div_div_eq_div_mul]
    rw [a3, Nat.pow_succ]
    calc w = 2 ^ n * (w / 2 ^ n) + w % 2 ^ n := a1.symm
      _ = 2 ^ n * (2 * (w / 2 ^ n / 2) + w / 2 ^ n % 2) + w % 2 ^ n := by rw [a2]
      _ = _ := by ring
  have h2 : w - (w / 2 ^ n % 2) * 2 ^ n = (w / 2 ^ (n + 1)) * 2 ^ (n + 1) + w % 2 ^ n := by omega
  have hlt : w % 2 ^ n < 2 ^ n := Nat.mod_lt _ (by positivity)
  have e : w - (w / 2 ^ n % 2) * 2 ^ n + (if b then 2 ^ n else 0)
      = 2 ^ n * (2 * (w / 2 ^ (n + 1)) + b.toNat) + w % 2 ^ n := by
    rw [h2]; cases b <;> simp [Nat.pow_succ] <;> ring
  rw [e, Nat.testBit_two_pow_mul_add _ hlt]
  by_cases hm : m < n
  · simp [hm, Nat.ne_of_lt hm, Nat.testBit_mod_two_pow]
  · rcases Nat.lt_or_eq_of_le (Nat.le_of_not_lt hm) with h | h
    · have hne : m ≠ n := by omega
      obtain ⟨d, hd⟩ : ∃ d, m - n = d + 1 := ⟨m - n - 1, by omega⟩
      have : (2 * (w / 2 ^ (n + 1)) + b.toNat) / 2 = w / 2 ^ (n + 1) := by cases b <;> simp <;> omega
      rw [if_neg hm, if_neg hne, hd, Nat.testBit_succ, this, Nat.testBit_div_two_pow]
      congr 1; omega
    · subst h; simp; cases b <;> simp

theorem withRep_low (st : W64) (l d m p : Nat) (b : Nat) (hb : b < 45) : (withRep st l d m p).getLsbD b = st.getLsbD b := by
  unfold withRep
  rw [BitVec.getLsbD_ofNat]
  have e : l * 2 ^ 57 + d * 2 ^ 51 + m * 2 ^ 47 + p * 2 ^ 45 + st.toNat % 2 ^ 45
      = 2 ^ 45 * (l * 2 ^ 12 + d * 2 ^ 6 + m * 2 ^ 2 + p) + st.toNat % 2 ^ 45 := by ring
  rw [e, Nat.testBit_two_pow_mul_add _ (Nat.mod_lt _ (by positivity)), if_pos hb, Nat.testBit_mod_two_pow]
  simp [BitVec.getLsbD, hb]; omega

end Sys2Proof.Machine
end

