-- ==== Sys2Proof/Laws/Maps.lean ====
section
/-! SUPPORT. Laws of the finite maps: read after write, and the canonical form. -/

namespace Sys2Proof.Machine

/-! Sparse cells. -/

@[simp] theorem cRead_nil {w k : Nat} : cRead ([] : Cells w) k = 0#w := rfl

theorem cRead_filter_other {w : Nat} (c : Cells w) {j k : Nat} (h : j ≠ k) :
    cRead (c.filter (fun e => e.1 ≠ k)) j = cRead c j := by
  induction c with
  | nil => rfl
  | cons x t ih =>
    obtain ⟨a, v⟩ := x
    by_cases ha : a = k
    · subst ha; simp [List.filter, cRead, ih, Ne.symm h] at *; exact ih
    · simp only [List.filter, ha, ne_eq, not_false_eq_true, decide_true, cRead]
      split
      · rfl
      · exact ih

theorem cRead_filter_same {w : Nat} (c : Cells w) (k : Nat) : cRead (c.filter (fun e => e.1 ≠ k)) k = 0#w := by
  induction c with
  | nil => rfl
  | cons x t ih =>
    obtain ⟨a, v⟩ := x
    by_cases ha : a = k
    · subst ha; simpa [List.filter] using ih
    · simp only [List.filter, ha, ne_eq, not_false_eq_true, decide_true, cRead, if_false]; exact ih

/-- A key reads as what was written there last, whatever the list. -/
@[simp] theorem cRead_cWrite_same {w : Nat} (c : Cells w) (k : Nat) (v : BitVec w) : cRead (cWrite c k v) k = v := by
  induction c with
  | nil => unfold cWrite; split <;> simp_all [cRead]
  | cons x t ih =>
    obtain ⟨a, u⟩ := x
    unfold cWrite
    split
    · split
      · next h => rw [cRead_filter_same, h]
      · simp [cRead]
    · split
      · split
        · next h => rw [cRead_filter_same, h]
        · simp [cRead]
      · next h => simp only [cRead]; rw [if_neg (fun e => h e.symm)]; exact ih

/-- Every other key reads as before. -/
theorem cRead_cWrite_other {w : Nat} (c : Cells w) {j k : Nat} (v : BitVec w) (h : j ≠ k) :
    cRead (cWrite c k v) j = cRead c j := by
  induction c with
  | nil => unfold cWrite; split <;> simp [cRead, Ne.symm h]
  | cons x t ih =>
    obtain ⟨a, u⟩ := x
    unfold cWrite
    split
    · split
      · exact cRead_filter_other _ h
      · simp [cRead, Ne.symm h]
    · split
      · next he =>
        subst he
        split
        · simp only [cRead, if_neg (Ne.symm h)]; exact cRead_filter_other _ h
        · simp [cRead, Ne.symm h]
      · simp only [cRead]; rw [ih]

theorem cWfAbove_le {w : Nat} {a b : Nat} (h : b ≤ a) : ∀ (c : Cells w), cWfAbove a c = true → cWfAbove b c = true
  | [], _ => rfl
  | (k, v) :: t, hc => by
    simp only [cWfAbove, Bool.and_eq_true, decide_eq_true_eq] at *
    exact ⟨⟨by omega, hc.1.2⟩, hc.2⟩

theorem cWfAbove_filter {w : Nat} (p : Nat × BitVec w → Bool) :
    ∀ (c : Cells w) (a : Nat), cWfAbove a c = true → cWfAbove a (c.filter p) = true
  | [], _, _ => rfl
  | (k, v) :: t, a, hc => by
    simp only [cWfAbove, Bool.and_eq_true, decide_eq_true_eq] at hc
    simp only [List.filter]
    split
    · simp only [cWfAbove, Bool.and_eq_true, decide_eq_true_eq]
      exact ⟨⟨hc.1.1, hc.1.2⟩, cWfAbove_filter p t k hc.2⟩
    · exact cWfAbove_filter p t a (cWfAbove_le (by omega) t hc.2)

theorem cWf_of_above {w : Nat} {a : Nat} : ∀ (c : Cells w), cWfAbove a c = true → cWf c = true
  | [], _ => rfl
  | (k, v) :: t, hc => by
    simp only [cWfAbove, cWf, Bool.and_eq_true, decide_eq_true_eq] at *
    exact ⟨hc.1.2, hc.2⟩

/-- Removing entries keeps the canonical form. -/
theorem cWf_filter {w : Nat} (p : Nat × BitVec w → Bool) : ∀ (c : Cells w), cWf c = true → cWf (c.filter p) = true
  | [], _ => rfl
  | (k, v) :: t, hc => by
    simp only [cWf, Bool.and_eq_true, decide_eq_true_eq] at hc
    simp only [List.filter]
    split
    · simp only [cWf, Bool.and_eq_true, decide_eq_true_eq]
      exact ⟨hc.1, cWfAbove_filter p t k hc.2⟩
    · exact cWf_of_above _ (cWfAbove_filter p t k hc.2)

theorem cWfAbove_cWrite {w : Nat} (v : BitVec w) : ∀ (c : Cells w) (a k : Nat), a < k → cWfAbove a c = true →
    cWfAbove a (cWrite c k v) = true
  | [], a, k, hk, _ => by
    unfold cWrite; split
    · rfl
    · simp [cWfAbove, *]
  | (b, u) :: t, a, k, hk, hc => by
    have hc' := hc
    simp only [cWfAbove, Bool.and_eq_true, decide_eq_true_eq] at hc
    unfold cWrite
    split
    · split
      · exact cWfAbove_filter _ _ _ hc'
      · next h1 h2 => simp [cWfAbove, *]
    · split
      · split
        · exact cWfAbove_filter _ _ _ (cWfAbove_le (by omega) t hc.2)
        · next h1 h2 h3 => subst h2; simp [cWfAbove, *]
      · next h1 h2 =>
        simp only [cWfAbove, Bool.and_eq_true, decide_eq_true_eq]
        exact ⟨hc.1, cWfAbove_cWrite v t b k (by omega) hc.2⟩

/-- A write keeps the canonical form. -/
theorem cWf_cWrite {w : Nat} (v : BitVec w) (k : Nat) : ∀ (c : Cells w), cWf c = true → cWf (cWrite c k v) = true
  | [], _ => by
    unfold cWrite; split
    · rfl
    · simp [cWf, cWfAbove, *]
  | (b, u) :: t, hc => by
    have hc' := hc
    simp only [cWf, Bool.and_eq_true, decide_eq_true_eq] at hc
    unfold cWrite
    split
    · split
      · exact cWf_filter _ _ hc'
      · next h1 h2 => simp [cWf, cWfAbove, *]
    · split
      · split
        · exact cWf_filter _ _ (cWf_of_above t hc.2)
        · next h1 h2 h3 => subst h2; simp [cWf, *]
      · next h1 h2 =>
        simp only [cWf, Bool.and_eq_true, decide_eq_true_eq]
        exact ⟨hc.1, cWfAbove_cWrite v t b k (by omega) hc.2⟩

/-- Clearing keys keeps the canonical form. -/
theorem cWf_cClear {w : Nat} (c : Cells w) (k n : Nat) (h : cWf c = true) : cWf (cClear c k n) = true := cWf_filter _ c h

/-- Writing a list keeps the canonical form. -/
theorem cWf_cWrites {w : Nat} : ∀ (l : List (BitVec w)) (c : Cells w) (k : Nat), cWf c = true → cWf (cWrites c k l) = true
  | [], _, _, h => h
  | v :: t, c, k, h => cWf_cWrites t (cWrite c k v) (k + 1) (cWf_cWrite v k c h)

/-- Cells that a list of writes does not name read as before. -/
theorem cRead_cWrites_other {w : Nat} : ∀ (l : List (BitVec w)) (c : Cells w) (k j : Nat), (j < k ∨ k + l.length ≤ j) →
    cRead (cWrites c k l) j = cRead c j
  | [], _, _, _, _ => rfl
  | v :: t, c, k, j, h => by
    simp only [List.length_cons] at h
    unfold cWrites
    rw [cRead_cWrites_other t _ _ _ (by omega), cRead_cWrite_other _ _ (by omega)]

/-! Keyed tables. -/

@[simp] theorem look_put_same {α : Type} (k : Nat) (v : α) : ∀ (l : List (Nat × α)), look (put l k v) k = some v
  | [] => by simp [put, look]
  | (a, u) :: t => by
    unfold put
    split
    · simp [look]
    · split
      · simp [look]
      · next h => simp only [look]; rw [if_neg (fun e => h e.symm)]; exact look_put_same k v t

theorem look_put_other {α : Type} {j k : Nat} (v : α) (h : j ≠ k) : ∀ (l : List (Nat × α)), look (put l k v) j = look l j
  | [] => by simp [put, look, Ne.symm h]
  | (a, u) :: t => by
    unfold put
    split
    · simp [look, Ne.symm h]
    · split
      · next he => subst he; simp [look, Ne.symm h]
      · simp only [look]; rw [look_put_other v h t]

theorem mem_put {α : Type} {k : Nat} {v : α} {x : Nat × α} : ∀ {l : List (Nat × α)}, x ∈ put l k v → x = (k, v) ∨ x ∈ l
  | [], h => by simp [put] at h; exact .inl h
  | (a, u) :: t, h => by
    unfold put at h
    split at h
    · simpa using h
    · split at h
      · simp at h; rcases h with h | h
        · exact .inl h
        · exact .inr (by simp [h])
      · simp at h; rcases h with h | h
        · exact .inr (by simp [h])
        · rcases mem_put h with h | h
          · exact .inl h
          · exact .inr (by simp [h])

theorem look_mem {α : Type} {k : Nat} {v : α} : ∀ {l : List (Nat × α)}, look l k = some v → (k, v) ∈ l
  | [], h => by simp [look] at h
  | (a, u) :: t, h => by
    unfold look at h
    split at h
    · next he => subst he; simp at h; simp [h]
    · exact List.mem_cons_of_mem _ (look_mem h)

@[simp] theorem look_del_same {α : Type} (k : Nat) : ∀ (l : List (Nat × α)), look (del l k) k = none
  | [] => rfl
  | (a, u) :: t => by
    have ih := look_del_same k t
    unfold del at *
    by_cases h : a = k
    · simpa [List.filter, h] using ih
    · simp only [List.filter, h, ne_eq, not_false_eq_true, decide_true, look, if_false]; exact ih

theorem look_del_other {α : Type} {j k : Nat} (h : j ≠ k) : ∀ (l : List (Nat × α)), look (del l k) j = look l j
  | [] => rfl
  | (a, u) :: t => by
    have ih := look_del_other h t
    unfold del at *
    by_cases ha : a = k
    · subst ha; simp only [List.filter, look, if_neg (Ne.symm h)]; simpa using ih
    · simp only [List.filter, ha, ne_eq, not_false_eq_true, decide_true, look]; rw [ih]

/-! Places of a list. -/

theorem modAt_eq_modify {α : Type} (f : α → α) : ∀ (l : List α) (i : Nat), modAt l i f = l.modify i f
  | [], i => by cases i <;> rfl
  | _ :: _, 0 => rfl
  | a :: t, i + 1 => by simp [modAt, modAt_eq_modify f t i]

@[simp] theorem modAt_length {α : Type} (f : α → α) : ∀ (l : List α) (i : Nat), (modAt l i f).length = l.length
  | [], _ => rfl
  | _ :: _, 0 => rfl
  | _ :: t, i + 1 => by simp [modAt, modAt_length f t i]

theorem modAt_get_same {α : Type} (f : α → α) : ∀ (l : List α) (i : Nat), (modAt l i f)[i]? = l[i]?.map f
  | [], i => by cases i <;> rfl
  | _ :: _, 0 => rfl
  | _ :: t, i + 1 => by simp [modAt, modAt_get_same f t i]

theorem modAt_get_other {α : Type} (f : α → α) {j : Nat} : ∀ (l : List α) (i : Nat), j ≠ i → (modAt l i f)[j]? = l[j]?
  | [], _, _ => rfl
  | _ :: t, 0, h => by cases j with | zero => exact absurd rfl h | succ n => rfl
  | _ :: t, i + 1, h => by
    cases j with
    | zero => rfl
    | succ n => simp [modAt, modAt_get_other f t i (by omega : n ≠ i)]

end Sys2Proof.Machine
end

