-- ==== Sys2Proof/Laws/Memory.lean ====
section
/-! SUPPORT. What the operations on memory, registers and SRAM do to a byte, and that each keeps the canonical form. -/

namespace Sys2Proof.Machine

/-! One byte at its home. -/

theorem homeByte_homePut_same (s : State) (k : Nat) (b : Byte) : homeByte (homePut s k b) k = b := by
  unfold homePut homeByte
  by_cases hp : isPeer k
  · simp [hp]
  · by_cases hc : isCxl k <;> simp [hp, hc]

theorem expander_congr {s t : State} (h : t.cxl = s.cxl) (k : Nat) : expander t k = expander s k := by
  simp only [expander, cxlPort, h]

theorem homePut_cxl (s : State) (k : Nat) (b : Byte) : (homePut s k b).cxl = s.cxl := by
  unfold homePut
  split
  · rfl
  · split <;> rfl

theorem expander_ge (s : State) {j : Nat} (h : isCxl j = true) : 2 ^ 50 ≤ expander s j := by
  unfold expander
  split
  · simp only [Nat.add_assoc]; omega
  · simp [isCxl] at h; omega

/-- A write to device memory, CXL memory or a peer's memory leaves every other byte. -/
theorem homeByte_homePut_other (s : State) {j k : Nat} (b : Byte) (h : j ≠ k) (hk : k < 2 ^ 51 ∨ 2 ^ 52 ≤ k) :
    homeByte (homePut s k b) j = homeByte s j := by
  have e := expander_congr (homePut_cxl s k b) j
  unfold homeByte
  rw [e]
  unfold homePut
  cases hp : isPeer k
  rotate_left
  · simp only [if_true]
    split
    · rw [look_put_other _ h]; rfl
    · rfl
  · cases hc : isCxl k
    rotate_left
    · simp only [Bool.false_eq_true, if_false, if_true]
      split
      · rfl
      · split
        · simp only [look_put_other _ h]
        · rfl
    · simp only [Bool.false_eq_true, if_false]
      have hk' : k < 2 ^ 50 := by
        have hp' : ¬ 2 ^ 52 ≤ k := of_decide_eq_false hp
        have hc' : ¬ k / 2 ^ 50 = 1 := fun h => absurd hc (by unfold isCxl; rw [hp, h]; decide)
        omega
      split
      · rfl
      · split
        · rename_i hj
          have := expander_ge s hj
          rw [cRead_cWrite_other _ _ (by omega)]
        · rw [cRead_cWrite_other _ _ h]

/-! The canonical form. -/

theorem cellsOk_iff (s : State) : cellsOk s = true ↔
    cWf s.mem = true ∧ ∀ c ∈ s.clusters, cWf c.2.rf = true ∧ cWf c.2.sram = true := by
  simp [cellsOk, Memory.wf, List.all_eq_true]

theorem cellsOk_cluster {s : State} (h : cellsOk s = true) (x : Nat) :
    cWf (clusterOf s x).rf = true ∧ cWf (clusterOf s x).sram = true := by
  unfold clusterOf
  cases hl : look s.clusters x with
  | none => exact ⟨rfl, rfl⟩
  | some c => exact ((cellsOk_iff s).1 h).2 _ (look_mem hl)

/-- A step that leaves memory and changes one cluster keeps the form if that cluster does. -/
theorem cellsOk_setCluster {s : State} (h : cellsOk s = true) (x : Nat) {c : Cluster} (hr : cWf c.rf = true) (hs : cWf c.sram = true) :
    cellsOk (setCluster s x c) = true := by
  rw [cellsOk_iff] at h ⊢
  refine ⟨h.1, fun e he => ?_⟩
  rcases mem_put he with rfl | he
  · exact ⟨hr, hs⟩
  · exact h.2 e he

theorem cellsOk_updCluster {s : State} (h : cellsOk s = true) (x : Nat) {f : Cluster → Cluster}
    (hf : ∀ c, cWf c.rf = true → cWf c.sram = true → cWf (f c).rf = true ∧ cWf (f c).sram = true) :
    cellsOk (updCluster s x f) = true := by
  have hc := cellsOk_cluster h x
  have hx := hf _ hc.1 hc.2
  exact cellsOk_setCluster h x hx.1 hx.2

/-- A change of neither memory nor clusters keeps the form. -/
theorem cellsOk_congr {s t : State} (h : cellsOk s = true) (hm : t.mem = s.mem) (hc : t.clusters = s.clusters) : cellsOk t = true := by
  simpa only [cellsOk, hm, hc] using h

theorem cellsOk_mem {s : State} (h : cellsOk s = true) {m : Memory} (hm : cWf m = true) : cellsOk { s with mem := m } = true := by
  rw [cellsOk_iff] at h ⊢
  exact ⟨hm, h.2⟩

theorem cellsOk_updTeam {s : State} (h : cellsOk s = true) (x ts : Nat) (f : Team → Team) : cellsOk (updTeam s x ts f) = true := by
  unfold updTeam
  cases teamOf s x ts with
  | none => exact h
  | some t => exact cellsOk_updCluster h x (fun c hr hs => ⟨hr, hs⟩)

theorem cellsOk_updCrew {s : State} (h : cellsOk s = true) (r : CrewRef) (f : Crew → Crew) : cellsOk (updCrew s r f) = true :=
  cellsOk_updTeam h _ _ _

theorem cellsOk_homePut {s : State} (h : cellsOk s = true) (k : Nat) (b : Byte) : cellsOk (homePut s k b) = true := by
  unfold homePut
  split
  · exact cellsOk_congr h rfl rfl
  · split
    · exact cellsOk_congr h rfl rfl
    · exact cellsOk_mem h (cWf_cWrite _ _ _ ((cellsOk_iff s).1 h).1)

theorem cellsOk_homePuts (l : List Byte) : ∀ {s : State} (k : Nat), cellsOk s = true → cellsOk (homePuts s k l) = true := by
  induction l with
  | nil => exact fun _ h => h
  | cons b t ih => exact fun k h => ih (k + 1) (cellsOk_homePut h k b)

/-- A fold of steps that each keep the form keeps it. -/
theorem cellsOk_foldl {α : Type} (g : State → α → State) (hg : ∀ s x, cellsOk s = true → cellsOk (g s x) = true) :
    ∀ (l : List α) {s : State}, cellsOk s = true → cellsOk (l.foldl g s) = true := by
  intro l
  induction l with
  | nil => exact fun h => h
  | cons x t ih => exact fun h => ih (hg _ x h)

theorem cellsOk_expanderPoison {s : State} (h : cellsOk s = true) (x : Nat) (b : Bool) : cellsOk (expanderPoison s x b) = true :=
  cellsOk_congr h rfl rfl

theorem cellsOk_askPort {s : State} (h : cellsOk s = true) (p : Nat) : cellsOk (askPort s p) = true := by
  unfold askPort
  split
  · exact cellsOk_congr h rfl rfl
  · exact h

theorem cellsOk_expanderPut {s : State} (h : cellsOk s = true) (x : Nat) (b : Byte) : cellsOk (expanderPut s x b) = true := by
  have hk : ∀ (l : List Nat) (old : Byte) (u : State), cellsOk u = true → cellsOk (l.foldl (fun (s : State) (k : Nat) =>
      if homeHolds s k 1 && (look s.cxlDirty k).isNone && (look s.cxlHeld k).isNone then { s with cxlHeld := put s.cxlHeld k old } else s) u)
        = true := by
    intro l old u hu
    refine cellsOk_foldl _ (fun u k hu => ?_) l hu
    split
    · exact cellsOk_congr hu rfl rfl
    · exact hu
  unfold expanderPut
  dsimp only
  split
  · exact cellsOk_mem h (cWf_cWrite _ _ _ ((cellsOk_iff s).1 h).1)
  · exact cellsOk_mem (hk _ _ _ h) (cWf_cWrite _ _ _ ((cellsOk_iff _).1 (hk _ _ _ h)).1)

theorem cellsOk_cxlSpill {s : State} (h : cellsOk s = true) (line n : Nat) : cellsOk (cxlSpill s line n) = true := by
  unfold cxlSpill
  dsimp only
  refine cellsOk_foldl _ (fun u i hu => ?_) _ ?_
  · split
    · exact hu
    · exact cellsOk_congr (cellsOk_expanderPut hu _ _) rfl rfl
  · have hm : ∀ (l : List Nat) (u : State), cellsOk u = true → cellsOk (l.foldl (fun (s : State) (i : Nat) =>
        if s.poison.contains (line + 64 * i) = true then expanderPoison s (expander s (line + 64 * i)) true
        else if ((List.range 64).all fun j => (look s.cxlDirty (line + 64 * i + j)).isSome) = true then
          expanderPoison s (expander s (line + 64 * i)) false
        else s) u) = true := by
      intro l u hu
      refine cellsOk_foldl _ (fun u k hu => ?_) l hu
      split
      · exact cellsOk_expanderPoison hu _ _
      · split
        · exact cellsOk_expanderPoison hu _ _
        · exact hu
    split
    · exact cellsOk_askPort (hm _ _ h) _
    · exact hm _ _ h

/-- A fold of writes keeps the form of cells. -/
theorem cWf_foldl {α : Type} {w : Nat} (key : α → Nat) (val : α → BitVec w) : ∀ (l : List α) {c : Cells w}, cWf c = true →
    cWf (l.foldl (fun c x => cWrite c (key x) (val x)) c) = true := by
  intro l
  induction l with
  | nil => exact fun h => h
  | cons x t ih => exact fun h => ih (cWf_cWrite _ _ _ h)

theorem cellsOk_ckptMem {s : State} (h : cellsOk s = true) (x : Nat) : cellsOk (ckptMem s x) = true := by
  have h' := (cellsOk_iff s).1 h
  rw [cellsOk_iff]
  exact ⟨cWf_foldl _ _ _ (cWf_filter _ _ h'.1), h'.2⟩

theorem cellsOk_bringUp {s : State} (h : cellsOk s = true) (l : List Byte) : cellsOk (bringUp s l) = true := by
  rw [cellsOk_iff]
  refine ⟨cWf_filter _ _ ((cellsOk_iff s).1 h).1, ?_⟩
  intro c hc
  cases hc

theorem cellsOk_setG {s : State} (h : cellsOk s = true) (r : CrewRef) (i n : Nat) (v : W32) : cellsOk (setG s r i n v) = true := by
  unfold setG
  split
  · exact h
  · exact cellsOk_updCluster h _ (fun c hr hs => ⟨cWf_cWrite _ _ _ hr, hs⟩)

theorem cellsOk_padWrite {s : State} (h : cellsOk s = true) (cl ts off : Nat) (l : List Byte) :
    cellsOk (padWrite s cl ts off l) = true := by
  unfold padWrite
  split
  · exact h
  · dsimp only
    split
    · exact h
    · exact cellsOk_updCluster h _ (fun c hr hs => ⟨hr, cWf_foldl _ _ _ hs⟩)

theorem zeroBank_wf {c : Cluster} (n : Nat) (h : cWf c.sram = true) : cWf (zeroBank c n).sram = true := cWf_cClear _ _ _ h

theorem cellsOk_startSlot {s : State} (h : cellsOk s = true) (r : CrewRef) (i : Nat) : cellsOk (startSlot s r i) = true := by
  unfold startSlot
  split
  · exact h
  · apply cellsOk_updCrew
    apply cellsOk_updCluster h
    exact fun c hr hs => ⟨cWf_cClear _ _ _ hr, hs⟩

theorem placeWords_wf : ∀ (l : List (Nat × Nat)) {m : Memory}, cWf m = true → cWf (placeWords m l) = true := by
  intro l
  induction l with
  | nil => exact fun h => h
  | cons x t ih =>
    obtain ⟨a, w⟩ := x
    intro m h
    unfold placeWords
    exact ih (cWf_cWrites _ _ _ h)

/-- The probe of a word leaves memory in canonical form. -/
theorem cellsOk_withFetchWord {s : State} (h : cellsOk s = true) (n w : Nat) : cellsOk (s.withFetchWord n w) = true := by
  rw [cellsOk_iff]
  have hm := fun l => placeWords_wf l ((cellsOk_iff s).1 h).1
  simp only [State.withFetchWord]
  refine ⟨hm _, fun c hc => ?_⟩
  rw [List.mem_singleton] at hc
  subst hc
  exact ⟨rfl, rfl⟩

end Sys2Proof.Machine
end

