-- ==== Sys2Proof/Laws/PerInstr.lean ====
section
/-! SUPPORT. Facts about every instruction as syntax, one lemma for each constructor: the word of a well-formed instruction
has 64 bits. -/

namespace Sys2Proof.Laws

theorem eCls_le (c : Cls) : eCls c ≤ 3 := by cases c <;> decide
theorem eBit_le (b : Bool) : eBit b ≤ 1 := by cases b <;> decide

theorem eGuard_le {op : Nat} (g : Guard) (h : op < 1024) : eGuard op g ≤ (2 ^ 15 - 1) * 2 ^ 49 := by
  have := g.p.isLt
  unfold eGuard
  split <;> omega

theorem eRRR_lt {op : Nat} {f : RRR} (h : op < 1024) (w : wfRRR f = true) : eRRR op f < 2 ^ 64 := by
  have g := eGuard_le f.gd h
  have c1 := eCls_le f.d.cls
  have c2 := eCls_le f.a.cls
  have c3 := eCls_le f.b.cls
  have c4 := eCls_le f.c.cls
  have t := f.ty.isLt
  have o := f.opt.isLt
  simp only [wfRRR, wfOpd, Bool.and_eq_true, decide_eq_true_eq] at w
  unfold eRRR
  omega

theorem eRI17_lt {op : Nat} {f : RI17} (h : op < 1024) (w : wfRI17 f = true) : eRI17 op f < 2 ^ 64 := by
  have g := eGuard_le f.gd h
  have c1 := eCls_le f.d.cls
  have c2 := eCls_le f.a.cls
  have t := f.ty.isLt
  have o := f.opt.isLt
  have i := f.imm.isLt
  simp only [wfRI17, wfOpd, Bool.and_eq_true, decide_eq_true_eq] at w
  unfold eRI17
  omega

theorem eRI32_lt {op : Nat} {f : RI32} (h : op < 1024) (w : wfRI32 f = true) : eRI32 op f < 2 ^ 64 := by
  have g := eGuard_le f.gd h
  have k := eBit_le f.k
  have i := f.imm.isLt
  simp only [wfRI32, Bool.and_eq_true, decide_eq_true_eq] at w
  unfold eRI32
  omega

theorem eMEM_lt {op : Nat} {f : MEM} (h : op < 1024) (w : wfMEM f = true) : eMEM op f < 2 ^ 64 := by
  have g := eGuard_le f.gd h
  have k := eBit_le f.kb
  have o := f.off.isLt
  have t := f.ty.isLt
  have s := f.space.isLt
  have p := f.policy.isLt
  simp only [wfMEM, Bool.and_eq_true, decide_eq_true_eq] at w
  unfold eMEM
  omega

theorem eAMO_lt {op : Nat} {f : AMO} (h : op < 1024) (w : wfAMO f = true) : eAMO op f < 2 ^ 64 := by
  have g := eGuard_le f.gd h
  have k := eBit_le f.kb
  have p := eBit_le f.pad
  have n := eBit_le f.nd
  have t := f.ty.isLt
  have o := f.order.isLt
  have s := f.scope.isLt
  have r := f.rsv.isLt
  simp only [wfAMO, Bool.and_eq_true, decide_eq_true_eq] at w
  unfold eAMO
  omega

theorem eBR_lt {op : Nat} {f : BRF} (h : op < 1024) (w : wfBR f = true) : eBR op f < 2 ^ 64 := by
  have g := eGuard_le f.gd h
  have r := f.rsv.isLt
  have o := f.off.isLt
  simp only [wfBR, decide_eq_true_eq] at w
  unfold eBR
  omega

theorem eENG_lt {op : Nat} {f : ENG} (h : op < 1024) (w : wfENG f = true) : eENG op f < 2 ^ 64 := by
  have g := eGuard_le f.gd h
  have r := eBit_le f.rsv
  have o := f.off.isLt
  have a := f.fa.isLt
  have b := f.fb.isLt
  simp only [wfENG, Bool.and_eq_true, decide_eq_true_eq] at w
  unfold eENG
  omega

theorem eREP_lt {op : Nat} {f : REPF} (h : op < 1024) : eREP op f < 2 ^ 64 := by
  have g := eGuard_le f.gd h
  have a := f.hi.isLt
  have b := f.count.isLt
  have c := f.mask.isLt
  have d := f.step.isLt
  have e := f.lo.isLt
  unfold eREP
  omega

theorem eSYS_lt {op : Nat} {f : SYSF} (h : op < 1024) (w : wfSYS f = true) : eSYS op f < 2 ^ 64 := by
  have g := eGuard_le f.gd h
  have c1 := eCls_le f.d.cls
  have c2 := eCls_le f.a.cls
  have k := eBit_le f.clr
  have r := f.rsv.isLt
  have n := f.num.isLt
  have b := f.bc.isLt
  have i := f.hi.isLt
  have o := f.word.isLt
  simp only [wfSYS, wfOpd, Bool.and_eq_true, decide_eq_true_eq] at w
  unfold eSYS
  omega

theorem eHINT_lt (f : HINTF) : eHINT f < 2 ^ 64 := by
  have o := f.op.isLt
  have r := f.rest.isLt
  unfold eHINT
  omega

/-- The word of a well-formed instruction has 64 bits; an event has none. -/
def WordFits.Statement (i : Instr) : Prop := ∀ n, wellFormed i = true → encode i = some n → n < 2 ^ 64

namespace WordFits

theorem addRRR (f : RRR) : Statement (.addRRR f) := fun _ w h => Option.some.inj h ▸ eRRR_lt (by decide) w
theorem addx (f : RRR) : Statement (.addx f) := fun _ w h => Option.some.inj h ▸ eRRR_lt (by decide) w
theorem subRRR (f : RRR) : Statement (.subRRR f) := fun _ w h => Option.some.inj h ▸ eRRR_lt (by decide) w
theorem subx (f : RRR) : Statement (.subx f) := fun _ w h => Option.some.inj h ▸ eRRR_lt (by decide) w
theorem neg (f : RRR) : Statement (.neg f) := fun _ w h => Option.some.inj h ▸ eRRR_lt (by decide) w
theorem mulRRR (f : RRR) : Statement (.mulRRR f) := fun _ w h => Option.some.inj h ▸ eRRR_lt (by decide) w
theorem mulh (f : RRR) : Statement (.mulh f) := fun _ w h => Option.some.inj h ▸ eRRR_lt (by decide) w
theorem mad (f : RRR) : Statement (.mad f) := fun _ w h => Option.some.inj h ▸ eRRR_lt (by decide) w
theorem abs (f : RRR) : Statement (.abs f) := fun _ w h => Option.some.inj h ▸ eRRR_lt (by decide) w
theorem minRRR (f : RRR) : Statement (.minRRR f) := fun _ w h => Option.some.inj h ▸ eRRR_lt (by decide) w
theorem maxRRR (f : RRR) : Statement (.maxRRR f) := fun _ w h => Option.some.inj h ▸ eRRR_lt (by decide) w
theorem clamp (f : RRR) : Statement (.clamp f) := fun _ w h => Option.some.inj h ▸ eRRR_lt (by decide) w
theorem andRRR (f : RRR) : Statement (.andRRR f) := fun _ w h => Option.some.inj h ▸ eRRR_lt (by decide) w
theorem orRRR (f : RRR) : Statement (.orRRR f) := fun _ w h => Option.some.inj h ▸ eRRR_lt (by decide) w
theorem xorRRR (f : RRR) : Statement (.xorRRR f) := fun _ w h => Option.some.inj h ▸ eRRR_lt (by decide) w
theorem not (f : RRR) : Statement (.not f) := fun _ w h => Option.some.inj h ▸ eRRR_lt (by decide) w
theorem andnRRR (f : RRR) : Statement (.andnRRR f) := fun _ w h => Option.some.inj h ▸ eRRR_lt (by decide) w
theorem shlRRR (f : RRR) : Statement (.shlRRR f) := fun _ w h => Option.some.inj h ▸ eRRR_lt (by decide) w
theorem shrRRR (f : RRR) : Statement (.shrRRR f) := fun _ w h => Option.some.inj h ▸ eRRR_lt (by decide) w
theorem rotRRR (f : RRR) : Statement (.rotRRR f) := fun _ w h => Option.some.inj h ▸ eRRR_lt (by decide) w
theorem clz (f : RRR) : Statement (.clz f) := fun _ w h => Option.some.inj h ▸ eRRR_lt (by decide) w
theorem ctz (f : RRR) : Statement (.ctz f) := fun _ w h => Option.some.inj h ▸ eRRR_lt (by decide) w
theorem popc (f : RRR) : Statement (.popc f) := fun _ w h => Option.some.inj h ▸ eRRR_lt (by decide) w
theorem brev (f : RRR) : Statement (.brev f) := fun _ w h => Option.some.inj h ▸ eRRR_lt (by decide) w
theorem bfxRRR (f : RRR) : Statement (.bfxRRR f) := fun _ w h => Option.some.inj h ▸ eRRR_lt (by decide) w
theorem bfi (f : RRR) : Statement (.bfi f) := fun _ w h => Option.some.inj h ▸ eRRR_lt (by decide) w
theorem bswz (f : RRR) : Statement (.bswz f) := fun _ w h => Option.some.inj h ▸ eRRR_lt (by decide) w
theorem sel (f : RRR) : Statement (.sel f) := fun _ w h => Option.some.inj h ▸ eRRR_lt (by decide) w
theorem cmpRRR (f : RRR) : Statement (.cmpRRR f) := fun _ w h => Option.some.inj h ▸ eRRR_lt (by decide) w
theorem mov (f : RRR) : Statement (.mov f) := fun _ w h => Option.some.inj h ▸ eRRR_lt (by decide) w
theorem leaRRR (f : RRR) : Statement (.leaRRR f) := fun _ w h => Option.some.inj h ▸ eRRR_lt (by decide) w
theorem pand (f : RRR) : Statement (.pand f) := fun _ w h => Option.some.inj h ▸ eRRR_lt (by decide) w
theorem por (f : RRR) : Statement (.por f) := fun _ w h => Option.some.inj h ▸ eRRR_lt (by decide) w
theorem pxor (f : RRR) : Statement (.pxor f) := fun _ w h => Option.some.inj h ▸ eRRR_lt (by decide) w
theorem pnot (f : RRR) : Statement (.pnot f) := fun _ w h => Option.some.inj h ▸ eRRR_lt (by decide) w
theorem p2g (f : RRR) : Statement (.p2g f) := fun _ w h => Option.some.inj h ▸ eRRR_lt (by decide) w
theorem g2p (f : RRR) : Statement (.g2p f) := fun _ w h => Option.some.inj h ▸ eRRR_lt (by decide) w
theorem div (f : RRR) : Statement (.div f) := fun _ w h => Option.some.inj h ▸ eRRR_lt (by decide) w
theorem rem (f : RRR) : Statement (.rem f) := fun _ w h => Option.some.inj h ▸ eRRR_lt (by decide) w
theorem addRI17 (f : RI17) : Statement (.addRI17 f) := fun _ w h => Option.some.inj h ▸ eRI17_lt (by decide) w
theorem subRI17 (f : RI17) : Statement (.subRI17 f) := fun _ w h => Option.some.inj h ▸ eRI17_lt (by decide) w
theorem mulRI17 (f : RI17) : Statement (.mulRI17 f) := fun _ w h => Option.some.inj h ▸ eRI17_lt (by decide) w
theorem minRI17 (f : RI17) : Statement (.minRI17 f) := fun _ w h => Option.some.inj h ▸ eRI17_lt (by decide) w
theorem maxRI17 (f : RI17) : Statement (.maxRI17 f) := fun _ w h => Option.some.inj h ▸ eRI17_lt (by decide) w
theorem andRI17 (f : RI17) : Statement (.andRI17 f) := fun _ w h => Option.some.inj h ▸ eRI17_lt (by decide) w
theorem orRI17 (f : RI17) : Statement (.orRI17 f) := fun _ w h => Option.some.inj h ▸ eRI17_lt (by decide) w
theorem xorRI17 (f : RI17) : Statement (.xorRI17 f) := fun _ w h => Option.some.inj h ▸ eRI17_lt (by decide) w
theorem andnRI17 (f : RI17) : Statement (.andnRI17 f) := fun _ w h => Option.some.inj h ▸ eRI17_lt (by decide) w
theorem shlRI17 (f : RI17) : Statement (.shlRI17 f) := fun _ w h => Option.some.inj h ▸ eRI17_lt (by decide) w
theorem shrRI17 (f : RI17) : Statement (.shrRI17 f) := fun _ w h => Option.some.inj h ▸ eRI17_lt (by decide) w
theorem rotRI17 (f : RI17) : Statement (.rotRI17 f) := fun _ w h => Option.some.inj h ▸ eRI17_lt (by decide) w
theorem cmpRI17 (f : RI17) : Statement (.cmpRI17 f) := fun _ w h => Option.some.inj h ▸ eRI17_lt (by decide) w
theorem bfxRI17 (f : RI17) : Statement (.bfxRI17 f) := fun _ w h => Option.some.inj h ▸ eRI17_lt (by decide) w
theorem leaRI17 (f : RI17) : Statement (.leaRI17 f) := fun _ w h => Option.some.inj h ▸ eRI17_lt (by decide) w
theorem movk (f : RI17) : Statement (.movk f) := fun _ w h => Option.some.inj h ▸ eRI17_lt (by decide) w
theorem movi (f : RI32) : Statement (.movi f) := fun _ w h => Option.some.inj h ▸ eRI32_lt (by decide) w
theorem addRI32 (f : RI32) : Statement (.addRI32 f) := fun _ w h => Option.some.inj h ▸ eRI32_lt (by decide) w
theorem subRI32 (f : RI32) : Statement (.subRI32 f) := fun _ w h => Option.some.inj h ▸ eRI32_lt (by decide) w
theorem mulRI32 (f : RI32) : Statement (.mulRI32 f) := fun _ w h => Option.some.inj h ▸ eRI32_lt (by decide) w
theorem andRI32 (f : RI32) : Statement (.andRI32 f) := fun _ w h => Option.some.inj h ▸ eRI32_lt (by decide) w
theorem orRI32 (f : RI32) : Statement (.orRI32 f) := fun _ w h => Option.some.inj h ▸ eRI32_lt (by decide) w
theorem xorRI32 (f : RI32) : Statement (.xorRI32 f) := fun _ w h => Option.some.inj h ▸ eRI32_lt (by decide) w
theorem andnRI32 (f : RI32) : Statement (.andnRI32 f) := fun _ w h => Option.some.inj h ▸ eRI32_lt (by decide) w
theorem bra (f : BRF) : Statement (.bra f) := fun _ w h => Option.some.inj h ▸ eBR_lt (by decide) w
theorem call (f : BRF) : Statement (.call f) := fun _ w h => Option.some.inj h ▸ eBR_lt (by decide) w
theorem fspawn (f : BRF) : Statement (.fspawn f) := fun _ w h => Option.some.inj h ▸ eBR_lt (by decide) w
theorem brx (f : RRR) : Statement (.brx f) := fun _ w h => Option.some.inj h ▸ eRRR_lt (by decide) w
theorem callx (f : RRR) : Statement (.callx f) := fun _ w h => Option.some.inj h ▸ eRRR_lt (by decide) w
theorem ret (f : RRR) : Statement (.ret f) := fun _ w h => Option.some.inj h ▸ eRRR_lt (by decide) w
theorem nop (f : RRR) : Statement (.nop f) := fun _ w h => Option.some.inj h ▸ eRRR_lt (by decide) w
theorem fend (f : RRR) : Statement (.fend f) := fun _ w h => Option.some.inj h ▸ eRRR_lt (by decide) w
theorem join (f : RRR) : Statement (.join f) := fun _ w h => Option.some.inj h ▸ eRRR_lt (by decide) w
theorem active (f : RRR) : Statement (.active f) := fun _ w h => Option.some.inj h ▸ eRRR_lt (by decide) w
theorem wait (f : RRR) : Statement (.wait f) := fun _ w h => Option.some.inj h ▸ eRRR_lt (by decide) w
theorem sleep (f : RRR) : Statement (.sleep f) := fun _ w h => Option.some.inj h ▸ eRRR_lt (by decide) w
theorem yield (f : RRR) : Statement (.yield f) := fun _ w h => Option.some.inj h ▸ eRRR_lt (by decide) w
theorem lwait (f : RRR) : Statement (.lwait f) := fun _ w h => Option.some.inj h ▸ eRRR_lt (by decide) w
theorem bar (f : RRR) : Statement (.bar f) := fun _ w h => Option.some.inj h ▸ eRRR_lt (by decide) w
theorem gbar (f : RRR) : Statement (.gbar f) := fun _ w h => Option.some.inj h ▸ eRRR_lt (by decide) w
theorem rep (f : REPF) : Statement (.rep f) := fun _ _ h => Option.some.inj h ▸ eREP_lt (by decide)
theorem launch (f : ENG) : Statement (.launch f) := fun _ w h => Option.some.inj h ▸ eENG_lt (by decide) w
theorem lxch (f : RRR) : Statement (.lxch f) := fun _ w h => Option.some.inj h ▸ eRRR_lt (by decide) w
theorem vote (f : RRR) : Statement (.vote f) := fun _ w h => Option.some.inj h ▸ eRRR_lt (by decide) w
theorem ballot (f : RRR) : Statement (.ballot f) := fun _ w h => Option.some.inj h ▸ eRRR_lt (by decide) w
theorem redux (f : RRR) : Statement (.redux f) := fun _ w h => Option.some.inj h ▸ eRRR_lt (by decide) w
theorem scan (f : RRR) : Statement (.scan f) := fun _ w h => Option.some.inj h ▸ eRRR_lt (by decide) w
theorem matchq (f : RRR) : Statement (.matchq f) := fun _ w h => Option.some.inj h ▸ eRRR_lt (by decide) w
theorem fadd (f : RRR) : Statement (.fadd f) := fun _ w h => Option.some.inj h ▸ eRRR_lt (by decide) w
theorem fsub (f : RRR) : Statement (.fsub f) := fun _ w h => Option.some.inj h ▸ eRRR_lt (by decide) w
theorem fmul (f : RRR) : Statement (.fmul f) := fun _ w h => Option.some.inj h ▸ eRRR_lt (by decide) w
theorem ffma (f : RRR) : Statement (.ffma f) := fun _ w h => Option.some.inj h ▸ eRRR_lt (by decide) w
theorem fmin (f : RRR) : Statement (.fmin f) := fun _ w h => Option.some.inj h ▸ eRRR_lt (by decide) w
theorem fmax (f : RRR) : Statement (.fmax f) := fun _ w h => Option.some.inj h ▸ eRRR_lt (by decide) w
theorem fcmp (f : RRR) : Statement (.fcmp f) := fun _ w h => Option.some.inj h ▸ eRRR_lt (by decide) w
theorem fclass (f : RRR) : Statement (.fclass f) := fun _ w h => Option.some.inj h ▸ eRRR_lt (by decide) w
theorem frnd (f : RRR) : Statement (.frnd f) := fun _ w h => Option.some.inj h ▸ eRRR_lt (by decide) w
theorem hpadd (f : RRR) : Statement (.hpadd f) := fun _ w h => Option.some.inj h ▸ eRRR_lt (by decide) w
theorem hpmul (f : RRR) : Statement (.hpmul f) := fun _ w h => Option.some.inj h ▸ eRRR_lt (by decide) w
theorem hpfma (f : RRR) : Statement (.hpfma f) := fun _ w h => Option.some.inj h ▸ eRRR_lt (by decide) w
theorem fcvt (f : RRR) : Statement (.fcvt f) := fun _ w h => Option.some.inj h ▸ eRRR_lt (by decide) w
theorem f2i (f : RRR) : Statement (.f2i f) := fun _ w h => Option.some.inj h ▸ eRRR_lt (by decide) w
theorem i2f (f : RRR) : Statement (.i2f f) := fun _ w h => Option.some.inj h ▸ eRRR_lt (by decide) w
theorem pack8 (f : RRR) : Statement (.pack8 f) := fun _ w h => Option.some.inj h ▸ eRRR_lt (by decide) w
theorem unpack8 (f : RRR) : Statement (.unpack8 f) := fun _ w h => Option.some.inj h ▸ eRRR_lt (by decide) w
theorem mxq (f : RRR) : Statement (.mxq f) := fun _ w h => Option.some.inj h ▸ eRRR_lt (by decide) w
theorem rcp (f : RRR) : Statement (.rcp f) := fun _ w h => Option.some.inj h ▸ eRRR_lt (by decide) w
theorem rsq (f : RRR) : Statement (.rsq f) := fun _ w h => Option.some.inj h ▸ eRRR_lt (by decide) w
theorem sqrt (f : RRR) : Statement (.sqrt f) := fun _ w h => Option.some.inj h ▸ eRRR_lt (by decide) w
theorem exp2 (f : RRR) : Statement (.exp2 f) := fun _ w h => Option.some.inj h ▸ eRRR_lt (by decide) w
theorem log2 (f : RRR) : Statement (.log2 f) := fun _ w h => Option.some.inj h ▸ eRRR_lt (by decide) w
theorem sin (f : RRR) : Statement (.sin f) := fun _ w h => Option.some.inj h ▸ eRRR_lt (by decide) w
theorem cos (f : RRR) : Statement (.cos f) := fun _ w h => Option.some.inj h ▸ eRRR_lt (by decide) w
theorem tanh (f : RRR) : Statement (.tanh f) := fun _ w h => Option.some.inj h ▸ eRRR_lt (by decide) w
theorem ld (f : MEM) : Statement (.ld f) := fun _ w h => Option.some.inj h ▸ eMEM_lt (by decide) w
theorem st (f : MEM) : Statement (.st f) := fun _ w h => Option.some.inj h ▸ eMEM_lt (by decide) w
theorem lds (f : MEM) : Statement (.lds f) := fun _ w h => Option.some.inj h ▸ eMEM_lt (by decide) w
theorem sts (f : MEM) : Statement (.sts f) := fun _ w h => Option.some.inj h ▸ eMEM_lt (by decide) w
theorem pref (f : MEM) : Statement (.pref f) := fun _ w h => Option.some.inj h ▸ eMEM_lt (by decide) w
theorem aadd (f : AMO) : Statement (.aadd f) := fun _ w h => Option.some.inj h ▸ eAMO_lt (by decide) w
theorem afadd (f : AMO) : Statement (.afadd f) := fun _ w h => Option.some.inj h ▸ eAMO_lt (by decide) w
theorem amin (f : AMO) : Statement (.amin f) := fun _ w h => Option.some.inj h ▸ eAMO_lt (by decide) w
theorem amax (f : AMO) : Statement (.amax f) := fun _ w h => Option.some.inj h ▸ eAMO_lt (by decide) w
theorem aand (f : AMO) : Statement (.aand f) := fun _ w h => Option.some.inj h ▸ eAMO_lt (by decide) w
theorem aor (f : AMO) : Statement (.aor f) := fun _ w h => Option.some.inj h ▸ eAMO_lt (by decide) w
theorem axor (f : AMO) : Statement (.axor f) := fun _ w h => Option.some.inj h ▸ eAMO_lt (by decide) w
theorem axchg (f : AMO) : Statement (.axchg f) := fun _ w h => Option.some.inj h ▸ eAMO_lt (by decide) w
theorem acas (f : AMO) : Statement (.acas f) := fun _ w h => Option.some.inj h ▸ eAMO_lt (by decide) w
theorem fence (f : RRR) : Statement (.fence f) := fun _ w h => Option.some.inj h ▸ eRRR_lt (by decide) w
theorem cflush (f : RRR) : Statement (.cflush f) := fun _ w h => Option.some.inj h ▸ eRRR_lt (by decide) w
theorem cinv (f : RRR) : Statement (.cinv f) := fun _ w h => Option.some.inj h ▸ eRRR_lt (by decide) w
theorem clock (f : RRR) : Statement (.clock f) := fun _ w h => Option.some.inj h ▸ eRRR_lt (by decide) w
theorem cunlock (f : RRR) : Statement (.cunlock f) := fun _ w h => Option.some.inj h ▸ eRRR_lt (by decide) w
theorem cdemote (f : RRR) : Statement (.cdemote f) := fun _ w h => Option.some.inj h ▸ eRRR_lt (by decide) w
theorem lend (f : RRR) : Statement (.lend f) := fun _ w h => Option.some.inj h ▸ eRRR_lt (by decide) w
theorem retn (f : RRR) : Statement (.retn f) := fun _ w h => Option.some.inj h ▸ eRRR_lt (by decide) w
theorem split (f : RRR) : Statement (.split f) := fun _ w h => Option.some.inj h ▸ eRRR_lt (by decide) w
theorem merge (f : RRR) : Statement (.merge f) := fun _ w h => Option.some.inj h ▸ eRRR_lt (by decide) w
theorem recallWord (f : RRR) : Statement (.recallWord f) := fun _ w h => Option.some.inj h ▸ eRRR_lt (by decide) w
theorem ownq (f : RRR) : Statement (.ownq f) := fun _ w h => Option.some.inj h ▸ eRRR_lt (by decide) w
theorem bankcfg (f : RRR) : Statement (.bankcfg f) := fun _ w h => Option.some.inj h ▸ eRRR_lt (by decide) w
theorem bankq (f : RRR) : Statement (.bankq f) := fun _ w h => Option.some.inj h ▸ eRRR_lt (by decide) w
theorem qinit (f : RRR) : Statement (.qinit f) := fun _ w h => Option.some.inj h ▸ eRRR_lt (by decide) w
theorem qpush (f : RRR) : Statement (.qpush f) := fun _ w h => Option.some.inj h ▸ eRRR_lt (by decide) w
theorem qpop (f : RRR) : Statement (.qpop f) := fun _ w h => Option.some.inj h ▸ eRRR_lt (by decide) w
theorem qpoll (f : RRR) : Statement (.qpoll f) := fun _ w h => Option.some.inj h ▸ eRRR_lt (by decide) w
theorem qwait (f : RRR) : Statement (.qwait f) := fun _ w h => Option.some.inj h ▸ eRRR_lt (by decide) w
theorem mma (f : ENG) : Statement (.mma f) := fun _ w h => Option.some.inj h ▸ eENG_lt (by decide) w
theorem mbound (f : ENG) : Statement (.mbound f) := fun _ w h => Option.some.inj h ▸ eENG_lt (by decide) w
theorem mcensus (f : ENG) : Statement (.mcensus f) := fun _ w h => Option.some.inj h ▸ eENG_lt (by decide) w
theorem copy (f : ENG) : Statement (.copy f) := fun _ w h => Option.some.inj h ▸ eENG_lt (by decide) w
theorem gxfer (f : ENG) : Statement (.gxfer f) := fun _ w h => Option.some.inj h ▸ eENG_lt (by decide) w
theorem coll (f : ENG) : Statement (.coll f) := fun _ w h => Option.some.inj h ▸ eENG_lt (by decide) w
theorem mlease (f : RRR) : Statement (.mlease f) := fun _ w h => Option.some.inj h ▸ eRRR_lt (by decide) w
theorem mfree (f : RRR) : Statement (.mfree f) := fun _ w h => Option.some.inj h ▸ eRRR_lt (by decide) w
theorem mcfg (f : RRR) : Statement (.mcfg f) := fun _ w h => Option.some.inj h ▸ eRRR_lt (by decide) w
theorem mstat (f : RRR) : Statement (.mstat f) := fun _ w h => Option.some.inj h ▸ eRRR_lt (by decide) w
theorem cwait (f : RRR) : Statement (.cwait f) := fun _ w h => Option.some.inj h ▸ eRRR_lt (by decide) w
theorem trap (f : RRR) : Statement (.trap f) := fun _ w h => Option.some.inj h ▸ eRRR_lt (by decide) w
theorem eret (f : RRR) : Statement (.eret f) := fun _ w h => Option.some.inj h ▸ eRRR_lt (by decide) w
theorem rdsys (f : SYSF) : Statement (.rdsys f) := fun _ w h => Option.some.inj h ▸ eSYS_lt (by decide) (Bool.and_eq_true_iff.mp w).1
theorem rdsysClr (f : SYSF) : Statement (.rdsysClr f) := fun _ w h => Option.some.inj h ▸ eSYS_lt (by decide) (Bool.and_eq_true_iff.mp w).1
theorem wrsys (f : SYSF) : Statement (.wrsys f) := fun _ w h => Option.some.inj h ▸ eSYS_lt (by decide) (Bool.and_eq_true_iff.mp w).1
theorem wrsysCtxid (f : SYSF) : Statement (.wrsysCtxid f) := fun _ w h => Option.some.inj h ▸ eSYS_lt (by decide) (Bool.and_eq_true_iff.mp w).1
theorem wrsysThrottle (f : SYSF) : Statement (.wrsysThrottle f) := fun _ w h => Option.some.inj h ▸ eSYS_lt (by decide) (Bool.and_eq_true_iff.mp w).1
theorem wrsysUrgency (f : SYSF) : Statement (.wrsysUrgency f) := fun _ w h => Option.some.inj h ▸ eSYS_lt (by decide) (Bool.and_eq_true_iff.mp w).1
theorem wrsysCslope (f : SYSF) : Statement (.wrsysCslope f) := fun _ w h => Option.some.inj h ▸ eSYS_lt (by decide) (Bool.and_eq_true_iff.mp w).1
theorem tlbinv (f : RRR) : Statement (.tlbinv f) := fun _ w h => Option.some.inj h ▸ eRRR_lt (by decide) w
theorem tokadm (f : RRR) : Statement (.tokadm f) := fun _ w h => Option.some.inj h ▸ eRRR_lt (by decide) w
theorem ckpt (f : RRR) : Statement (.ckpt f) := fun _ w h => Option.some.inj h ▸ eRRR_lt (by decide) w
theorem halt (f : RRR) : Statement (.halt f) := fun _ w h => Option.some.inj h ▸ eRRR_lt (by decide) w
theorem ctxsv (f : RRR) : Statement (.ctxsv f) := fun _ w h => Option.some.inj h ▸ eRRR_lt (by decide) w
theorem ctxld (f : RRR) : Statement (.ctxld f) := fun _ w h => Option.some.inj h ▸ eRRR_lt (by decide) w
theorem hint (f : HINTF) : Statement (.hint f) := fun _ _ h => Option.some.inj h ▸ eHINT_lt f
theorem reservedOpcode (w : W64) : Statement (.reservedOpcode w) := fun _ _ h => Option.some.inj h ▸ w.isLt
theorem barrierOpen x0 x1 x2 : Statement (.barrierOpen x0 x1 x2) := fun _ _ h => nomatch h
theorem gridBarrierOpen x0 x1 : Statement (.gridBarrierOpen x0 x1) := fun _ _ h => nomatch h
theorem barrierWaveRelease x0 : Statement (.barrierWaveRelease x0) := fun _ _ h => nomatch h
theorem placementReservation x0 x1 : Statement (.placementReservation x0 x1) := fun _ _ h => nomatch h
theorem teamStart x0 x1 : Statement (.teamStart x0 x1) := fun _ _ h => nomatch h
theorem teamBankRelease x0 x1 : Statement (.teamBankRelease x0 x1) := fun _ _ h => nomatch h
theorem teamExit x0 x1 : Statement (.teamExit x0 x1) := fun _ _ h => nomatch h
theorem gridRetire x0 x1 : Statement (.gridRetire x0 x1) := fun _ _ h => nomatch h
theorem gridKill x0 x1 : Statement (.gridKill x0 x1) := fun _ _ h => nomatch h
theorem clusterFence x0 : Statement (.clusterFence x0) := fun _ _ h => nomatch h
theorem clusterReinstate x0 : Statement (.clusterReinstate x0) := fun _ _ h => nomatch h
theorem throttleEpochEnd x0 : Statement (.throttleEpochEnd x0) := fun _ _ h => nomatch h
theorem engAccept x0 : Statement (.engAccept x0) := fun _ _ h => nomatch h
theorem leaseGrant x0 : Statement (.leaseGrant x0) := fun _ _ h => nomatch h
theorem leaseExpiry x0 x1 : Statement (.leaseExpiry x0 x1) := fun _ _ h => nomatch h
theorem mmaStart x0 x1 : Statement (.mmaStart x0 x1) := fun _ _ h => nomatch h
theorem tileBlockStart x0 : Statement (.tileBlockStart x0) := fun _ _ h => nomatch h
theorem kBlockBarrier x0 x1 : Statement (.kBlockBarrier x0 x1) := fun _ _ h => nomatch h
theorem engOpStop x0 : Statement (.engOpStop x0) := fun _ _ h => nomatch h
theorem engOpComplete x0 : Statement (.engOpComplete x0) := fun _ _ h => nomatch h
theorem copyOpStart x0 x1 : Statement (.copyOpStart x0 x1) := fun _ _ h => nomatch h
theorem copyChunkDone x0 x1 : Statement (.copyChunkDone x0 x1) := fun _ _ h => nomatch h
theorem srcfreeFall x0 : Statement (.srcfreeFall x0) := fun _ _ h => nomatch h
theorem fifoMessageArrive x0 x1 : Statement (.fifoMessageArrive x0 x1) := fun _ _ h => nomatch h
theorem collTimeout x0 : Statement (.collTimeout x0) := fun _ _ h => nomatch h
theorem cflushWalkDone x0 x1 : Statement (.cflushWalkDone x0 x1) := fun _ _ h => nomatch h
theorem pageAnswer x0 x1 : Statement (.pageAnswer x0 x1) := fun _ _ h => nomatch h
theorem contextCreate x0 : Statement (.contextCreate x0) := fun _ _ h => nomatch h
theorem contextDestroy x0 : Statement (.contextDestroy x0) := fun _ _ h => nomatch h
theorem rootTokenCreate x0 : Statement (.rootTokenCreate x0) := fun _ _ h => nomatch h
theorem rootTokenDestroy x0 x1 : Statement (.rootTokenDestroy x0 x1) := fun _ _ h => nomatch h
theorem tokenReportRequest x0 : Statement (.tokenReportRequest x0) := fun _ _ h => nomatch h
theorem l1SoftError x0 x1 x2 : Statement (.l1SoftError x0 x1 x2) := fun _ _ h => nomatch h
theorem l2HbmSoftError x0 : Statement (.l2HbmSoftError x0) := fun _ _ h => nomatch h
theorem cxlPoisonResponse x0 : Statement (.cxlPoisonResponse x0) := fun _ _ h => nomatch h
theorem l2AccountingRequest x0 x1 : Statement (.l2AccountingRequest x0 x1) := fun _ _ h => nomatch h
theorem mcastGroupWrite x0 x1 : Statement (.mcastGroupWrite x0 x1) := fun _ _ h => nomatch h
theorem mcastBindingWrite x0 x1 : Statement (.mcastBindingWrite x0 x1) := fun _ _ h => nomatch h
theorem mcastReceive x0 : Statement (.mcastReceive x0) := fun _ _ h => nomatch h
theorem mcastMemberTimeout x0 x1 : Statement (.mcastMemberTimeout x0 x1) := fun _ _ h => nomatch h
theorem connTableWrite x0 x1 : Statement (.connTableWrite x0 x1) := fun _ _ h => nomatch h
theorem sendOnly x0 x1 : Statement (.sendOnly x0 x1) := fun _ _ h => nomatch h
theorem sendOnlyWithImmediate x0 x1 x2 : Statement (.sendOnlyWithImmediate x0 x1 x2) := fun _ _ h => nomatch h
theorem rdmaWrite x0 x1 x2 x3 : Statement (.rdmaWrite x0 x1 x2 x3) := fun _ _ h => nomatch h
theorem rdmaReadRequest x0 x1 x2 x3 : Statement (.rdmaReadRequest x0 x1 x2 x3) := fun _ _ h => nomatch h
theorem compareSwap x0 x1 x2 x3 x4 : Statement (.compareSwap x0 x1 x2 x3 x4) := fun _ _ h => nomatch h
theorem fetchAdd x0 x1 x2 x3 : Statement (.fetchAdd x0 x1 x2 x3) := fun _ _ h => nomatch h
theorem invalidRequest x0 x1 : Statement (.invalidRequest x0 x1) := fun _ _ h => nomatch h
theorem ack x0 : Statement (.ack x0) := fun _ _ h => nomatch h
theorem rnrNak x0 : Statement (.rnrNak x0) := fun _ _ h => nomatch h
theorem outqSend x0 : Statement (.outqSend x0) := fun _ _ h => nomatch h
theorem ackTimeout x0 : Statement (.ackTimeout x0) := fun _ _ h => nomatch h
theorem connectionClose x0 : Statement (.connectionClose x0) := fun _ _ h => nomatch h
theorem frameReceive x0 : Statement (.frameReceive x0) := fun _ _ h => nomatch h
theorem linkNak x0 : Statement (.linkNak x0) := fun _ _ h => nomatch h
theorem peerTransaction x0 : Statement (.peerTransaction x0) := fun _ _ h => nomatch h
theorem peerRequestTimeout x0 : Statement (.peerRequestTimeout x0) := fun _ _ h => nomatch h
theorem peerLost x0 : Statement (.peerLost x0) := fun _ _ h => nomatch h
theorem cxlPortIsolate x0 : Statement (.cxlPortIsolate x0) := fun _ _ h => nomatch h
theorem cxlPortReinstate x0 : Statement (.cxlPortReinstate x0) := fun _ _ h => nomatch h
theorem packageReset x0 : Statement (.packageReset x0) := fun _ _ h => nomatch h
theorem recoveryImageLoad x0 : Statement (.recoveryImageLoad x0) := fun _ _ h => nomatch h
theorem attestationRequest x0 : Statement (.attestationRequest x0) := fun _ _ h => nomatch h
theorem railPointChange x0 x1 : Statement (.railPointChange x0 x1) := fun _ _ h => nomatch h
theorem thermalSample x0 x1 : Statement (.thermalSample x0 x1) := fun _ _ h => nomatch h
theorem dispatcherStart x0 x1 : Statement (.dispatcherStart x0 x1) := fun _ _ h => nomatch h
theorem peerOwnershipRequest x0 : Statement (.peerOwnershipRequest x0) := fun _ _ h => nomatch h
theorem deviceNumberSet x0 : Statement (.deviceNumberSet x0) := fun _ _ h => nomatch h
theorem l2PoisonListHandoff x0 x1 : Statement (.l2PoisonListHandoff x0 x1) := fun _ _ h => nomatch h
theorem clauseBegin : Statement .clauseBegin := fun _ _ h => nomatch h
theorem repeatIssue : Statement .repeatIssue := fun _ _ h => nomatch h
theorem fusedIssue : Statement .fusedIssue := fun _ _ h => nomatch h
theorem resultWrite : Statement .resultWrite := fun _ _ h => nomatch h
theorem launchStatus : Statement .launchStatus := fun _ _ h => nomatch h
theorem drainRelease : Statement .drainRelease := fun _ _ h => nomatch h
theorem flagCompletion : Statement .flagCompletion := fun _ _ h => nomatch h
theorem waitEnd : Statement .waitEnd := fun _ _ h => nomatch h
theorem sleepExpiry : Statement .sleepExpiry := fun _ _ h => nomatch h
theorem groupComplete : Statement .groupComplete := fun _ _ h => nomatch h
theorem convergenceTimeout : Statement .convergenceTimeout := fun _ _ h => nomatch h
theorem qpollRetry : Statement .qpollRetry := fun _ _ h => nomatch h
theorem cwaitEnd : Statement .cwaitEnd := fun _ _ h => nomatch h
theorem bankLossPrecedence : Statement .bankLossPrecedence := fun _ _ h => nomatch h
theorem issueWaitPrecedence : Statement .issueWaitPrecedence := fun _ _ h => nomatch h
theorem throttleBypassAdmit : Statement .throttleBypassAdmit := fun _ _ h => nomatch h
theorem trapEntry : Statement .trapEntry := fun _ _ h => nomatch h
theorem placementAttempt : Statement .placementAttempt := fun _ _ h => nomatch h
theorem retryControlFrame : Statement .retryControlFrame := fun _ _ h => nomatch h
theorem linkDown : Statement .linkDown := fun _ _ h => nomatch h
theorem sakRekey : Statement .sakRekey := fun _ _ h => nomatch h
theorem mkaFrame : Statement .mkaFrame := fun _ _ h => nomatch h
theorem ckptComplete : Statement .ckptComplete := fun _ _ h => nomatch h
theorem rollbackCommit : Statement .rollbackCommit := fun _ _ h => nomatch h
theorem packageOvertemp : Statement .packageOvertemp := fun _ _ h => nomatch h
theorem linkUp : Statement .linkUp := fun _ _ h => nomatch h

end WordFits

end Sys2Proof.Laws
end

