-- ==== Sys2Proof/Laws/State.lean ====
section
/-! SUPPORT. Laws of State: what each setter leaves alone, one lemma per field, and how the setters of one crew compose. -/

namespace Sys2Proof.Machine

@[simp] theorem setCluster_cycle (s : State) (x : Nat) (c : Cluster) : (setCluster s x c).cycle = s.cycle := rfl
@[simp] theorem setCluster_boot (s : State) (x : Nat) (c : Cluster) : (setCluster s x c).boot = s.boot := rfl
@[simp] theorem setCluster_ctxs (s : State) (x : Nat) (c : Cluster) : (setCluster s x c).ctxs = s.ctxs := rfl
@[simp] theorem setCluster_grids (s : State) (x : Nat) (c : Cluster) : (setCluster s x c).grids = s.grids := rfl
@[simp] theorem setCluster_die0 (s : State) (x : Nat) (c : Cluster) : (setCluster s x c).die0 = s.die0 := rfl
@[simp] theorem setCluster_die1 (s : State) (x : Nat) (c : Cluster) : (setCluster s x c).die1 = s.die1 := rfl
@[simp] theorem setCluster_mem (s : State) (x : Nat) (c : Cluster) : (setCluster s x c).mem = s.mem := rfl
@[simp] theorem setCluster_poison (s : State) (x : Nat) (c : Cluster) : (setCluster s x c).poison = s.poison := rfl
@[simp] theorem setCluster_cxlDirty (s : State) (x : Nat) (c : Cluster) : (setCluster s x c).cxlDirty = s.cxlDirty := rfl
@[simp] theorem setCluster_cxlHeld (s : State) (x : Nat) (c : Cluster) : (setCluster s x c).cxlHeld = s.cxlHeld := rfl
@[simp] theorem setCluster_cxlPoison (s : State) (x : Nat) (c : Cluster) : (setCluster s x c).cxlPoison = s.cxlPoison := rfl
@[simp] theorem setCluster_peerMem (s : State) (x : Nat) (c : Cluster) : (setCluster s x c).peerMem = s.peerMem := rfl
@[simp] theorem setCluster_peerEpochs (s : State) (x : Nat) (c : Cluster) : (setCluster s x c).peerEpochs = s.peerEpochs := rfl
@[simp] theorem setCluster_pages (s : State) (x : Nat) (c : Cluster) : (setCluster s x c).pages = s.pages := rfl
@[simp] theorem setCluster_pageGens (s : State) (x : Nat) (c : Cluster) : (setCluster s x c).pageGens = s.pageGens := rfl
@[simp] theorem setCluster_ops (s : State) (x : Nat) (c : Cluster) : (setCluster s x c).ops = s.ops := rfl
@[simp] theorem setCluster_nextOp (s : State) (x : Nat) (c : Cluster) : (setCluster s x c).nextOp = s.nextOp := rfl
@[simp] theorem setCluster_staging (s : State) (x : Nat) (c : Cluster) : (setCluster s x c).staging = s.staging := rfl
@[simp] theorem setCluster_groups (s : State) (x : Nat) (c : Cluster) : (setCluster s x c).groups = s.groups := rfl
@[simp] theorem setCluster_bindings (s : State) (x : Nat) (c : Cluster) : (setCluster s x c).bindings = s.bindings := rfl
@[simp] theorem setCluster_conns (s : State) (x : Nat) (c : Cluster) : (setCluster s x c).conns = s.conns := rfl
@[simp] theorem setCluster_churns (s : State) (x : Nat) (c : Cluster) : (setCluster s x c).churns = s.churns := rfl
@[simp] theorem setCluster_eth (s : State) (x : Nat) (c : Cluster) : (setCluster s x c).eth = s.eth := rfl
@[simp] theorem setCluster_ua (s : State) (x : Nat) (c : Cluster) : (setCluster s x c).ua = s.ua := rfl
@[simp] theorem setCluster_cxl (s : State) (x : Nat) (c : Cluster) : (setCluster s x c).cxl = s.cxl := rfl
@[simp] theorem setCluster_ckpt (s : State) (x : Nat) (c : Cluster) : (setCluster s x c).ckpt = s.ckpt := rfl
@[simp] theorem setCluster_loads (s : State) (x : Nat) (c : Cluster) : (setCluster s x c).loads = s.loads := rfl
@[simp] theorem setCluster_lastPlaced (s : State) (x : Nat) (c : Cluster) : (setCluster s x c).lastPlaced = s.lastPlaced := rfl
@[simp] theorem setCluster_popped (s : State) (x : Nat) (c : Cluster) : (setCluster s x c).popped = s.popped := rfl
@[simp] theorem setCluster_turn (s : State) (x : Nat) (c : Cluster) : (setCluster s x c).turn = s.turn := rfl
@[simp] theorem setCluster_picks (s : State) (x : Nat) (c : Cluster) : (setCluster s x c).picks = s.picks := rfl
@[simp] theorem setCluster_issue (s : State) (x : Nat) (c : Cluster) : (setCluster s x c).issue = s.issue := rfl
@[simp] theorem setCluster_inputs (s : State) (x : Nat) (c : Cluster) : (setCluster s x c).inputs = s.inputs := rfl
@[simp] theorem setCluster_commands (s : State) (x : Nat) (c : Cluster) : (setCluster s x c).commands = s.commands := rfl
@[simp] theorem setCluster_events (s : State) (x : Nat) (c : Cluster) : (setCluster s x c).events = s.events := rfl
@[simp] theorem setCluster_egress (s : State) (x : Nat) (c : Cluster) : (setCluster s x c).egress = s.egress := rfl
@[simp] theorem setCluster_fresh (s : State) (x : Nat) (c : Cluster) : (setCluster s x c).fresh = s.fresh := rfl

@[simp] theorem updCluster_cycle (s : State) (x : Nat) (f : Cluster → Cluster) : (updCluster s x f).cycle = s.cycle := rfl
@[simp] theorem updCluster_boot (s : State) (x : Nat) (f : Cluster → Cluster) : (updCluster s x f).boot = s.boot := rfl
@[simp] theorem updCluster_ctxs (s : State) (x : Nat) (f : Cluster → Cluster) : (updCluster s x f).ctxs = s.ctxs := rfl
@[simp] theorem updCluster_grids (s : State) (x : Nat) (f : Cluster → Cluster) : (updCluster s x f).grids = s.grids := rfl
@[simp] theorem updCluster_die0 (s : State) (x : Nat) (f : Cluster → Cluster) : (updCluster s x f).die0 = s.die0 := rfl
@[simp] theorem updCluster_die1 (s : State) (x : Nat) (f : Cluster → Cluster) : (updCluster s x f).die1 = s.die1 := rfl
@[simp] theorem updCluster_mem (s : State) (x : Nat) (f : Cluster → Cluster) : (updCluster s x f).mem = s.mem := rfl
@[simp] theorem updCluster_poison (s : State) (x : Nat) (f : Cluster → Cluster) : (updCluster s x f).poison = s.poison := rfl
@[simp] theorem updCluster_cxlDirty (s : State) (x : Nat) (f : Cluster → Cluster) : (updCluster s x f).cxlDirty = s.cxlDirty := rfl
@[simp] theorem updCluster_cxlHeld (s : State) (x : Nat) (f : Cluster → Cluster) : (updCluster s x f).cxlHeld = s.cxlHeld := rfl
@[simp] theorem updCluster_cxlPoison (s : State) (x : Nat) (f : Cluster → Cluster) : (updCluster s x f).cxlPoison = s.cxlPoison := rfl
@[simp] theorem updCluster_peerMem (s : State) (x : Nat) (f : Cluster → Cluster) : (updCluster s x f).peerMem = s.peerMem := rfl
@[simp] theorem updCluster_peerEpochs (s : State) (x : Nat) (f : Cluster → Cluster) : (updCluster s x f).peerEpochs = s.peerEpochs := rfl
@[simp] theorem updCluster_pages (s : State) (x : Nat) (f : Cluster → Cluster) : (updCluster s x f).pages = s.pages := rfl
@[simp] theorem updCluster_pageGens (s : State) (x : Nat) (f : Cluster → Cluster) : (updCluster s x f).pageGens = s.pageGens := rfl
@[simp] theorem updCluster_ops (s : State) (x : Nat) (f : Cluster → Cluster) : (updCluster s x f).ops = s.ops := rfl
@[simp] theorem updCluster_nextOp (s : State) (x : Nat) (f : Cluster → Cluster) : (updCluster s x f).nextOp = s.nextOp := rfl
@[simp] theorem updCluster_staging (s : State) (x : Nat) (f : Cluster → Cluster) : (updCluster s x f).staging = s.staging := rfl
@[simp] theorem updCluster_groups (s : State) (x : Nat) (f : Cluster → Cluster) : (updCluster s x f).groups = s.groups := rfl
@[simp] theorem updCluster_bindings (s : State) (x : Nat) (f : Cluster → Cluster) : (updCluster s x f).bindings = s.bindings := rfl
@[simp] theorem updCluster_conns (s : State) (x : Nat) (f : Cluster → Cluster) : (updCluster s x f).conns = s.conns := rfl
@[simp] theorem updCluster_churns (s : State) (x : Nat) (f : Cluster → Cluster) : (updCluster s x f).churns = s.churns := rfl
@[simp] theorem updCluster_eth (s : State) (x : Nat) (f : Cluster → Cluster) : (updCluster s x f).eth = s.eth := rfl
@[simp] theorem updCluster_ua (s : State) (x : Nat) (f : Cluster → Cluster) : (updCluster s x f).ua = s.ua := rfl
@[simp] theorem updCluster_cxl (s : State) (x : Nat) (f : Cluster → Cluster) : (updCluster s x f).cxl = s.cxl := rfl
@[simp] theorem updCluster_ckpt (s : State) (x : Nat) (f : Cluster → Cluster) : (updCluster s x f).ckpt = s.ckpt := rfl
@[simp] theorem updCluster_loads (s : State) (x : Nat) (f : Cluster → Cluster) : (updCluster s x f).loads = s.loads := rfl
@[simp] theorem updCluster_lastPlaced (s : State) (x : Nat) (f : Cluster → Cluster) : (updCluster s x f).lastPlaced = s.lastPlaced := rfl
@[simp] theorem updCluster_popped (s : State) (x : Nat) (f : Cluster → Cluster) : (updCluster s x f).popped = s.popped := rfl
@[simp] theorem updCluster_turn (s : State) (x : Nat) (f : Cluster → Cluster) : (updCluster s x f).turn = s.turn := rfl
@[simp] theorem updCluster_picks (s : State) (x : Nat) (f : Cluster → Cluster) : (updCluster s x f).picks = s.picks := rfl
@[simp] theorem updCluster_issue (s : State) (x : Nat) (f : Cluster → Cluster) : (updCluster s x f).issue = s.issue := rfl
@[simp] theorem updCluster_inputs (s : State) (x : Nat) (f : Cluster → Cluster) : (updCluster s x f).inputs = s.inputs := rfl
@[simp] theorem updCluster_commands (s : State) (x : Nat) (f : Cluster → Cluster) : (updCluster s x f).commands = s.commands := rfl
@[simp] theorem updCluster_events (s : State) (x : Nat) (f : Cluster → Cluster) : (updCluster s x f).events = s.events := rfl
@[simp] theorem updCluster_egress (s : State) (x : Nat) (f : Cluster → Cluster) : (updCluster s x f).egress = s.egress := rfl
@[simp] theorem updCluster_fresh (s : State) (x : Nat) (f : Cluster → Cluster) : (updCluster s x f).fresh = s.fresh := rfl

@[simp] theorem setTeam_cycle (s : State) (x ts : Nat) (t : Team) : (setTeam s x ts t).cycle = s.cycle := rfl
@[simp] theorem setTeam_boot (s : State) (x ts : Nat) (t : Team) : (setTeam s x ts t).boot = s.boot := rfl
@[simp] theorem setTeam_ctxs (s : State) (x ts : Nat) (t : Team) : (setTeam s x ts t).ctxs = s.ctxs := rfl
@[simp] theorem setTeam_grids (s : State) (x ts : Nat) (t : Team) : (setTeam s x ts t).grids = s.grids := rfl
@[simp] theorem setTeam_die0 (s : State) (x ts : Nat) (t : Team) : (setTeam s x ts t).die0 = s.die0 := rfl
@[simp] theorem setTeam_die1 (s : State) (x ts : Nat) (t : Team) : (setTeam s x ts t).die1 = s.die1 := rfl
@[simp] theorem setTeam_mem (s : State) (x ts : Nat) (t : Team) : (setTeam s x ts t).mem = s.mem := rfl
@[simp] theorem setTeam_poison (s : State) (x ts : Nat) (t : Team) : (setTeam s x ts t).poison = s.poison := rfl
@[simp] theorem setTeam_cxlDirty (s : State) (x ts : Nat) (t : Team) : (setTeam s x ts t).cxlDirty = s.cxlDirty := rfl
@[simp] theorem setTeam_cxlHeld (s : State) (x ts : Nat) (t : Team) : (setTeam s x ts t).cxlHeld = s.cxlHeld := rfl
@[simp] theorem setTeam_cxlPoison (s : State) (x ts : Nat) (t : Team) : (setTeam s x ts t).cxlPoison = s.cxlPoison := rfl
@[simp] theorem setTeam_peerMem (s : State) (x ts : Nat) (t : Team) : (setTeam s x ts t).peerMem = s.peerMem := rfl
@[simp] theorem setTeam_peerEpochs (s : State) (x ts : Nat) (t : Team) : (setTeam s x ts t).peerEpochs = s.peerEpochs := rfl
@[simp] theorem setTeam_pages (s : State) (x ts : Nat) (t : Team) : (setTeam s x ts t).pages = s.pages := rfl
@[simp] theorem setTeam_pageGens (s : State) (x ts : Nat) (t : Team) : (setTeam s x ts t).pageGens = s.pageGens := rfl
@[simp] theorem setTeam_ops (s : State) (x ts : Nat) (t : Team) : (setTeam s x ts t).ops = s.ops := rfl
@[simp] theorem setTeam_nextOp (s : State) (x ts : Nat) (t : Team) : (setTeam s x ts t).nextOp = s.nextOp := rfl
@[simp] theorem setTeam_staging (s : State) (x ts : Nat) (t : Team) : (setTeam s x ts t).staging = s.staging := rfl
@[simp] theorem setTeam_groups (s : State) (x ts : Nat) (t : Team) : (setTeam s x ts t).groups = s.groups := rfl
@[simp] theorem setTeam_bindings (s : State) (x ts : Nat) (t : Team) : (setTeam s x ts t).bindings = s.bindings := rfl
@[simp] theorem setTeam_conns (s : State) (x ts : Nat) (t : Team) : (setTeam s x ts t).conns = s.conns := rfl
@[simp] theorem setTeam_churns (s : State) (x ts : Nat) (t : Team) : (setTeam s x ts t).churns = s.churns := rfl
@[simp] theorem setTeam_eth (s : State) (x ts : Nat) (t : Team) : (setTeam s x ts t).eth = s.eth := rfl
@[simp] theorem setTeam_ua (s : State) (x ts : Nat) (t : Team) : (setTeam s x ts t).ua = s.ua := rfl
@[simp] theorem setTeam_cxl (s : State) (x ts : Nat) (t : Team) : (setTeam s x ts t).cxl = s.cxl := rfl
@[simp] theorem setTeam_ckpt (s : State) (x ts : Nat) (t : Team) : (setTeam s x ts t).ckpt = s.ckpt := rfl
@[simp] theorem setTeam_loads (s : State) (x ts : Nat) (t : Team) : (setTeam s x ts t).loads = s.loads := rfl
@[simp] theorem setTeam_lastPlaced (s : State) (x ts : Nat) (t : Team) : (setTeam s x ts t).lastPlaced = s.lastPlaced := rfl
@[simp] theorem setTeam_popped (s : State) (x ts : Nat) (t : Team) : (setTeam s x ts t).popped = s.popped := rfl
@[simp] theorem setTeam_turn (s : State) (x ts : Nat) (t : Team) : (setTeam s x ts t).turn = s.turn := rfl
@[simp] theorem setTeam_picks (s : State) (x ts : Nat) (t : Team) : (setTeam s x ts t).picks = s.picks := rfl
@[simp] theorem setTeam_issue (s : State) (x ts : Nat) (t : Team) : (setTeam s x ts t).issue = s.issue := rfl
@[simp] theorem setTeam_inputs (s : State) (x ts : Nat) (t : Team) : (setTeam s x ts t).inputs = s.inputs := rfl
@[simp] theorem setTeam_commands (s : State) (x ts : Nat) (t : Team) : (setTeam s x ts t).commands = s.commands := rfl
@[simp] theorem setTeam_events (s : State) (x ts : Nat) (t : Team) : (setTeam s x ts t).events = s.events := rfl
@[simp] theorem setTeam_egress (s : State) (x ts : Nat) (t : Team) : (setTeam s x ts t).egress = s.egress := rfl
@[simp] theorem setTeam_fresh (s : State) (x ts : Nat) (t : Team) : (setTeam s x ts t).fresh = s.fresh := rfl

@[simp] theorem updTeam_cycle (s : State) (x ts : Nat) (f : Team → Team) : (updTeam s x ts f).cycle = s.cycle := by unfold updTeam; split <;> rfl
@[simp] theorem updTeam_boot (s : State) (x ts : Nat) (f : Team → Team) : (updTeam s x ts f).boot = s.boot := by unfold updTeam; split <;> rfl
@[simp] theorem updTeam_ctxs (s : State) (x ts : Nat) (f : Team → Team) : (updTeam s x ts f).ctxs = s.ctxs := by unfold updTeam; split <;> rfl
@[simp] theorem updTeam_grids (s : State) (x ts : Nat) (f : Team → Team) : (updTeam s x ts f).grids = s.grids := by unfold updTeam; split <;> rfl
@[simp] theorem updTeam_die0 (s : State) (x ts : Nat) (f : Team → Team) : (updTeam s x ts f).die0 = s.die0 := by unfold updTeam; split <;> rfl
@[simp] theorem updTeam_die1 (s : State) (x ts : Nat) (f : Team → Team) : (updTeam s x ts f).die1 = s.die1 := by unfold updTeam; split <;> rfl
@[simp] theorem updTeam_mem (s : State) (x ts : Nat) (f : Team → Team) : (updTeam s x ts f).mem = s.mem := by unfold updTeam; split <;> rfl
@[simp] theorem updTeam_poison (s : State) (x ts : Nat) (f : Team → Team) : (updTeam s x ts f).poison = s.poison := by unfold updTeam; split <;> rfl
@[simp] theorem updTeam_cxlDirty (s : State) (x ts : Nat) (f : Team → Team) : (updTeam s x ts f).cxlDirty = s.cxlDirty := by unfold updTeam; split <;> rfl
@[simp] theorem updTeam_cxlHeld (s : State) (x ts : Nat) (f : Team → Team) : (updTeam s x ts f).cxlHeld = s.cxlHeld := by unfold updTeam; split <;> rfl
@[simp] theorem updTeam_cxlPoison (s : State) (x ts : Nat) (f : Team → Team) : (updTeam s x ts f).cxlPoison = s.cxlPoison := by unfold updTeam; split <;> rfl
@[simp] theorem updTeam_peerMem (s : State) (x ts : Nat) (f : Team → Team) : (updTeam s x ts f).peerMem = s.peerMem := by unfold updTeam; split <;> rfl
@[simp] theorem updTeam_peerEpochs (s : State) (x ts : Nat) (f : Team → Team) : (updTeam s x ts f).peerEpochs = s.peerEpochs := by unfold updTeam; split <;> rfl
@[simp] theorem updTeam_pages (s : State) (x ts : Nat) (f : Team → Team) : (updTeam s x ts f).pages = s.pages := by unfold updTeam; split <;> rfl
@[simp] theorem updTeam_pageGens (s : State) (x ts : Nat) (f : Team → Team) : (updTeam s x ts f).pageGens = s.pageGens := by unfold updTeam; split <;> rfl
@[simp] theorem updTeam_ops (s : State) (x ts : Nat) (f : Team → Team) : (updTeam s x ts f).ops = s.ops := by unfold updTeam; split <;> rfl
@[simp] theorem updTeam_nextOp (s : State) (x ts : Nat) (f : Team → Team) : (updTeam s x ts f).nextOp = s.nextOp := by unfold updTeam; split <;> rfl
@[simp] theorem updTeam_staging (s : State) (x ts : Nat) (f : Team → Team) : (updTeam s x ts f).staging = s.staging := by unfold updTeam; split <;> rfl
@[simp] theorem updTeam_groups (s : State) (x ts : Nat) (f : Team → Team) : (updTeam s x ts f).groups = s.groups := by unfold updTeam; split <;> rfl
@[simp] theorem updTeam_bindings (s : State) (x ts : Nat) (f : Team → Team) : (updTeam s x ts f).bindings = s.bindings := by unfold updTeam; split <;> rfl
@[simp] theorem updTeam_conns (s : State) (x ts : Nat) (f : Team → Team) : (updTeam s x ts f).conns = s.conns := by unfold updTeam; split <;> rfl
@[simp] theorem updTeam_churns (s : State) (x ts : Nat) (f : Team → Team) : (updTeam s x ts f).churns = s.churns := by unfold updTeam; split <;> rfl
@[simp] theorem updTeam_eth (s : State) (x ts : Nat) (f : Team → Team) : (updTeam s x ts f).eth = s.eth := by unfold updTeam; split <;> rfl
@[simp] theorem updTeam_ua (s : State) (x ts : Nat) (f : Team → Team) : (updTeam s x ts f).ua = s.ua := by unfold updTeam; split <;> rfl
@[simp] theorem updTeam_cxl (s : State) (x ts : Nat) (f : Team → Team) : (updTeam s x ts f).cxl = s.cxl := by unfold updTeam; split <;> rfl
@[simp] theorem updTeam_ckpt (s : State) (x ts : Nat) (f : Team → Team) : (updTeam s x ts f).ckpt = s.ckpt := by unfold updTeam; split <;> rfl
@[simp] theorem updTeam_loads (s : State) (x ts : Nat) (f : Team → Team) : (updTeam s x ts f).loads = s.loads := by unfold updTeam; split <;> rfl
@[simp] theorem updTeam_lastPlaced (s : State) (x ts : Nat) (f : Team → Team) : (updTeam s x ts f).lastPlaced = s.lastPlaced := by unfold updTeam; split <;> rfl
@[simp] theorem updTeam_popped (s : State) (x ts : Nat) (f : Team → Team) : (updTeam s x ts f).popped = s.popped := by unfold updTeam; split <;> rfl
@[simp] theorem updTeam_turn (s : State) (x ts : Nat) (f : Team → Team) : (updTeam s x ts f).turn = s.turn := by unfold updTeam; split <;> rfl
@[simp] theorem updTeam_picks (s : State) (x ts : Nat) (f : Team → Team) : (updTeam s x ts f).picks = s.picks := by unfold updTeam; split <;> rfl
@[simp] theorem updTeam_issue (s : State) (x ts : Nat) (f : Team → Team) : (updTeam s x ts f).issue = s.issue := by unfold updTeam; split <;> rfl
@[simp] theorem updTeam_inputs (s : State) (x ts : Nat) (f : Team → Team) : (updTeam s x ts f).inputs = s.inputs := by unfold updTeam; split <;> rfl
@[simp] theorem updTeam_commands (s : State) (x ts : Nat) (f : Team → Team) : (updTeam s x ts f).commands = s.commands := by unfold updTeam; split <;> rfl
@[simp] theorem updTeam_events (s : State) (x ts : Nat) (f : Team → Team) : (updTeam s x ts f).events = s.events := by unfold updTeam; split <;> rfl
@[simp] theorem updTeam_egress (s : State) (x ts : Nat) (f : Team → Team) : (updTeam s x ts f).egress = s.egress := by unfold updTeam; split <;> rfl
@[simp] theorem updTeam_fresh (s : State) (x ts : Nat) (f : Team → Team) : (updTeam s x ts f).fresh = s.fresh := by unfold updTeam; split <;> rfl

@[simp] theorem updCrew_cycle (s : State) (r : CrewRef) (f : Crew → Crew) : (updCrew s r f).cycle = s.cycle := updTeam_cycle s _ _ _
@[simp] theorem updCrew_boot (s : State) (r : CrewRef) (f : Crew → Crew) : (updCrew s r f).boot = s.boot := updTeam_boot s _ _ _
@[simp] theorem updCrew_ctxs (s : State) (r : CrewRef) (f : Crew → Crew) : (updCrew s r f).ctxs = s.ctxs := updTeam_ctxs s _ _ _
@[simp] theorem updCrew_grids (s : State) (r : CrewRef) (f : Crew → Crew) : (updCrew s r f).grids = s.grids := updTeam_grids s _ _ _
@[simp] theorem updCrew_die0 (s : State) (r : CrewRef) (f : Crew → Crew) : (updCrew s r f).die0 = s.die0 := updTeam_die0 s _ _ _
@[simp] theorem updCrew_die1 (s : State) (r : CrewRef) (f : Crew → Crew) : (updCrew s r f).die1 = s.die1 := updTeam_die1 s _ _ _
@[simp] theorem updCrew_mem (s : State) (r : CrewRef) (f : Crew → Crew) : (updCrew s r f).mem = s.mem := updTeam_mem s _ _ _
@[simp] theorem updCrew_poison (s : State) (r : CrewRef) (f : Crew → Crew) : (updCrew s r f).poison = s.poison := updTeam_poison s _ _ _
@[simp] theorem updCrew_cxlDirty (s : State) (r : CrewRef) (f : Crew → Crew) : (updCrew s r f).cxlDirty = s.cxlDirty := updTeam_cxlDirty s _ _ _
@[simp] theorem updCrew_cxlHeld (s : State) (r : CrewRef) (f : Crew → Crew) : (updCrew s r f).cxlHeld = s.cxlHeld := updTeam_cxlHeld s _ _ _
@[simp] theorem updCrew_cxlPoison (s : State) (r : CrewRef) (f : Crew → Crew) : (updCrew s r f).cxlPoison = s.cxlPoison := updTeam_cxlPoison s _ _ _
@[simp] theorem updCrew_peerMem (s : State) (r : CrewRef) (f : Crew → Crew) : (updCrew s r f).peerMem = s.peerMem := updTeam_peerMem s _ _ _
@[simp] theorem updCrew_peerEpochs (s : State) (r : CrewRef) (f : Crew → Crew) : (updCrew s r f).peerEpochs = s.peerEpochs := updTeam_peerEpochs s _ _ _
@[simp] theorem updCrew_pages (s : State) (r : CrewRef) (f : Crew → Crew) : (updCrew s r f).pages = s.pages := updTeam_pages s _ _ _
@[simp] theorem updCrew_pageGens (s : State) (r : CrewRef) (f : Crew → Crew) : (updCrew s r f).pageGens = s.pageGens := updTeam_pageGens s _ _ _
@[simp] theorem updCrew_ops (s : State) (r : CrewRef) (f : Crew → Crew) : (updCrew s r f).ops = s.ops := updTeam_ops s _ _ _
@[simp] theorem updCrew_nextOp (s : State) (r : CrewRef) (f : Crew → Crew) : (updCrew s r f).nextOp = s.nextOp := updTeam_nextOp s _ _ _
@[simp] theorem updCrew_staging (s : State) (r : CrewRef) (f : Crew → Crew) : (updCrew s r f).staging = s.staging := updTeam_staging s _ _ _
@[simp] theorem updCrew_groups (s : State) (r : CrewRef) (f : Crew → Crew) : (updCrew s r f).groups = s.groups := updTeam_groups s _ _ _
@[simp] theorem updCrew_bindings (s : State) (r : CrewRef) (f : Crew → Crew) : (updCrew s r f).bindings = s.bindings := updTeam_bindings s _ _ _
@[simp] theorem updCrew_conns (s : State) (r : CrewRef) (f : Crew → Crew) : (updCrew s r f).conns = s.conns := updTeam_conns s _ _ _
@[simp] theorem updCrew_churns (s : State) (r : CrewRef) (f : Crew → Crew) : (updCrew s r f).churns = s.churns := updTeam_churns s _ _ _
@[simp] theorem updCrew_eth (s : State) (r : CrewRef) (f : Crew → Crew) : (updCrew s r f).eth = s.eth := updTeam_eth s _ _ _
@[simp] theorem updCrew_ua (s : State) (r : CrewRef) (f : Crew → Crew) : (updCrew s r f).ua = s.ua := updTeam_ua s _ _ _
@[simp] theorem updCrew_cxl (s : State) (r : CrewRef) (f : Crew → Crew) : (updCrew s r f).cxl = s.cxl := updTeam_cxl s _ _ _
@[simp] theorem updCrew_ckpt (s : State) (r : CrewRef) (f : Crew → Crew) : (updCrew s r f).ckpt = s.ckpt := updTeam_ckpt s _ _ _
@[simp] theorem updCrew_loads (s : State) (r : CrewRef) (f : Crew → Crew) : (updCrew s r f).loads = s.loads := updTeam_loads s _ _ _
@[simp] theorem updCrew_lastPlaced (s : State) (r : CrewRef) (f : Crew → Crew) : (updCrew s r f).lastPlaced = s.lastPlaced := updTeam_lastPlaced s _ _ _
@[simp] theorem updCrew_popped (s : State) (r : CrewRef) (f : Crew → Crew) : (updCrew s r f).popped = s.popped := updTeam_popped s _ _ _
@[simp] theorem updCrew_turn (s : State) (r : CrewRef) (f : Crew → Crew) : (updCrew s r f).turn = s.turn := updTeam_turn s _ _ _
@[simp] theorem updCrew_picks (s : State) (r : CrewRef) (f : Crew → Crew) : (updCrew s r f).picks = s.picks := updTeam_picks s _ _ _
@[simp] theorem updCrew_issue (s : State) (r : CrewRef) (f : Crew → Crew) : (updCrew s r f).issue = s.issue := updTeam_issue s _ _ _
@[simp] theorem updCrew_inputs (s : State) (r : CrewRef) (f : Crew → Crew) : (updCrew s r f).inputs = s.inputs := updTeam_inputs s _ _ _
@[simp] theorem updCrew_commands (s : State) (r : CrewRef) (f : Crew → Crew) : (updCrew s r f).commands = s.commands := updTeam_commands s _ _ _
@[simp] theorem updCrew_events (s : State) (r : CrewRef) (f : Crew → Crew) : (updCrew s r f).events = s.events := updTeam_events s _ _ _
@[simp] theorem updCrew_egress (s : State) (r : CrewRef) (f : Crew → Crew) : (updCrew s r f).egress = s.egress := updTeam_egress s _ _ _
@[simp] theorem updCrew_fresh (s : State) (r : CrewRef) (f : Crew → Crew) : (updCrew s r f).fresh = s.fresh := updTeam_fresh s _ _ _

@[simp] theorem setCrew_cycle (s : State) (r : CrewRef) (c : Crew) : (setCrew s r c).cycle = s.cycle := updCrew_cycle s r _
@[simp] theorem setCrew_boot (s : State) (r : CrewRef) (c : Crew) : (setCrew s r c).boot = s.boot := updCrew_boot s r _
@[simp] theorem setCrew_ctxs (s : State) (r : CrewRef) (c : Crew) : (setCrew s r c).ctxs = s.ctxs := updCrew_ctxs s r _
@[simp] theorem setCrew_grids (s : State) (r : CrewRef) (c : Crew) : (setCrew s r c).grids = s.grids := updCrew_grids s r _
@[simp] theorem setCrew_die0 (s : State) (r : CrewRef) (c : Crew) : (setCrew s r c).die0 = s.die0 := updCrew_die0 s r _
@[simp] theorem setCrew_die1 (s : State) (r : CrewRef) (c : Crew) : (setCrew s r c).die1 = s.die1 := updCrew_die1 s r _
@[simp] theorem setCrew_mem (s : State) (r : CrewRef) (c : Crew) : (setCrew s r c).mem = s.mem := updCrew_mem s r _
@[simp] theorem setCrew_poison (s : State) (r : CrewRef) (c : Crew) : (setCrew s r c).poison = s.poison := updCrew_poison s r _
@[simp] theorem setCrew_cxlDirty (s : State) (r : CrewRef) (c : Crew) : (setCrew s r c).cxlDirty = s.cxlDirty := updCrew_cxlDirty s r _
@[simp] theorem setCrew_cxlHeld (s : State) (r : CrewRef) (c : Crew) : (setCrew s r c).cxlHeld = s.cxlHeld := updCrew_cxlHeld s r _
@[simp] theorem setCrew_cxlPoison (s : State) (r : CrewRef) (c : Crew) : (setCrew s r c).cxlPoison = s.cxlPoison := updCrew_cxlPoison s r _
@[simp] theorem setCrew_peerMem (s : State) (r : CrewRef) (c : Crew) : (setCrew s r c).peerMem = s.peerMem := updCrew_peerMem s r _
@[simp] theorem setCrew_peerEpochs (s : State) (r : CrewRef) (c : Crew) : (setCrew s r c).peerEpochs = s.peerEpochs := updCrew_peerEpochs s r _
@[simp] theorem setCrew_pages (s : State) (r : CrewRef) (c : Crew) : (setCrew s r c).pages = s.pages := updCrew_pages s r _
@[simp] theorem setCrew_pageGens (s : State) (r : CrewRef) (c : Crew) : (setCrew s r c).pageGens = s.pageGens := updCrew_pageGens s r _
@[simp] theorem setCrew_ops (s : State) (r : CrewRef) (c : Crew) : (setCrew s r c).ops = s.ops := updCrew_ops s r _
@[simp] theorem setCrew_nextOp (s : State) (r : CrewRef) (c : Crew) : (setCrew s r c).nextOp = s.nextOp := updCrew_nextOp s r _
@[simp] theorem setCrew_staging (s : State) (r : CrewRef) (c : Crew) : (setCrew s r c).staging = s.staging := updCrew_staging s r _
@[simp] theorem setCrew_groups (s : State) (r : CrewRef) (c : Crew) : (setCrew s r c).groups = s.groups := updCrew_groups s r _
@[simp] theorem setCrew_bindings (s : State) (r : CrewRef) (c : Crew) : (setCrew s r c).bindings = s.bindings := updCrew_bindings s r _
@[simp] theorem setCrew_conns (s : State) (r : CrewRef) (c : Crew) : (setCrew s r c).conns = s.conns := updCrew_conns s r _
@[simp] theorem setCrew_churns (s : State) (r : CrewRef) (c : Crew) : (setCrew s r c).churns = s.churns := updCrew_churns s r _
@[simp] theorem setCrew_eth (s : State) (r : CrewRef) (c : Crew) : (setCrew s r c).eth = s.eth := updCrew_eth s r _
@[simp] theorem setCrew_ua (s : State) (r : CrewRef) (c : Crew) : (setCrew s r c).ua = s.ua := updCrew_ua s r _
@[simp] theorem setCrew_cxl (s : State) (r : CrewRef) (c : Crew) : (setCrew s r c).cxl = s.cxl := updCrew_cxl s r _
@[simp] theorem setCrew_ckpt (s : State) (r : CrewRef) (c : Crew) : (setCrew s r c).ckpt = s.ckpt := updCrew_ckpt s r _
@[simp] theorem setCrew_loads (s : State) (r : CrewRef) (c : Crew) : (setCrew s r c).loads = s.loads := updCrew_loads s r _
@[simp] theorem setCrew_lastPlaced (s : State) (r : CrewRef) (c : Crew) : (setCrew s r c).lastPlaced = s.lastPlaced := updCrew_lastPlaced s r _
@[simp] theorem setCrew_popped (s : State) (r : CrewRef) (c : Crew) : (setCrew s r c).popped = s.popped := updCrew_popped s r _
@[simp] theorem setCrew_turn (s : State) (r : CrewRef) (c : Crew) : (setCrew s r c).turn = s.turn := updCrew_turn s r _
@[simp] theorem setCrew_picks (s : State) (r : CrewRef) (c : Crew) : (setCrew s r c).picks = s.picks := updCrew_picks s r _
@[simp] theorem setCrew_issue (s : State) (r : CrewRef) (c : Crew) : (setCrew s r c).issue = s.issue := updCrew_issue s r _
@[simp] theorem setCrew_inputs (s : State) (r : CrewRef) (c : Crew) : (setCrew s r c).inputs = s.inputs := updCrew_inputs s r _
@[simp] theorem setCrew_commands (s : State) (r : CrewRef) (c : Crew) : (setCrew s r c).commands = s.commands := updCrew_commands s r _
@[simp] theorem setCrew_events (s : State) (r : CrewRef) (c : Crew) : (setCrew s r c).events = s.events := updCrew_events s r _
@[simp] theorem setCrew_egress (s : State) (r : CrewRef) (c : Crew) : (setCrew s r c).egress = s.egress := updCrew_egress s r _
@[simp] theorem setCrew_fresh (s : State) (r : CrewRef) (c : Crew) : (setCrew s r c).fresh = s.fresh := updCrew_fresh s r _

@[simp] theorem setG_cycle (s : State) (r : CrewRef) (i n : Nat) (v : W32) : (setG s r i n v).cycle = s.cycle := by unfold setG; split <;> rfl
@[simp] theorem setG_boot (s : State) (r : CrewRef) (i n : Nat) (v : W32) : (setG s r i n v).boot = s.boot := by unfold setG; split <;> rfl
@[simp] theorem setG_ctxs (s : State) (r : CrewRef) (i n : Nat) (v : W32) : (setG s r i n v).ctxs = s.ctxs := by unfold setG; split <;> rfl
@[simp] theorem setG_grids (s : State) (r : CrewRef) (i n : Nat) (v : W32) : (setG s r i n v).grids = s.grids := by unfold setG; split <;> rfl
@[simp] theorem setG_die0 (s : State) (r : CrewRef) (i n : Nat) (v : W32) : (setG s r i n v).die0 = s.die0 := by unfold setG; split <;> rfl
@[simp] theorem setG_die1 (s : State) (r : CrewRef) (i n : Nat) (v : W32) : (setG s r i n v).die1 = s.die1 := by unfold setG; split <;> rfl
@[simp] theorem setG_mem (s : State) (r : CrewRef) (i n : Nat) (v : W32) : (setG s r i n v).mem = s.mem := by unfold setG; split <;> rfl
@[simp] theorem setG_poison (s : State) (r : CrewRef) (i n : Nat) (v : W32) : (setG s r i n v).poison = s.poison := by unfold setG; split <;> rfl
@[simp] theorem setG_cxlDirty (s : State) (r : CrewRef) (i n : Nat) (v : W32) : (setG s r i n v).cxlDirty = s.cxlDirty := by unfold setG; split <;> rfl
@[simp] theorem setG_cxlHeld (s : State) (r : CrewRef) (i n : Nat) (v : W32) : (setG s r i n v).cxlHeld = s.cxlHeld := by unfold setG; split <;> rfl
@[simp] theorem setG_cxlPoison (s : State) (r : CrewRef) (i n : Nat) (v : W32) : (setG s r i n v).cxlPoison = s.cxlPoison := by unfold setG; split <;> rfl
@[simp] theorem setG_peerMem (s : State) (r : CrewRef) (i n : Nat) (v : W32) : (setG s r i n v).peerMem = s.peerMem := by unfold setG; split <;> rfl
@[simp] theorem setG_peerEpochs (s : State) (r : CrewRef) (i n : Nat) (v : W32) : (setG s r i n v).peerEpochs = s.peerEpochs := by unfold setG; split <;> rfl
@[simp] theorem setG_pages (s : State) (r : CrewRef) (i n : Nat) (v : W32) : (setG s r i n v).pages = s.pages := by unfold setG; split <;> rfl
@[simp] theorem setG_pageGens (s : State) (r : CrewRef) (i n : Nat) (v : W32) : (setG s r i n v).pageGens = s.pageGens := by unfold setG; split <;> rfl
@[simp] theorem setG_ops (s : State) (r : CrewRef) (i n : Nat) (v : W32) : (setG s r i n v).ops = s.ops := by unfold setG; split <;> rfl
@[simp] theorem setG_nextOp (s : State) (r : CrewRef) (i n : Nat) (v : W32) : (setG s r i n v).nextOp = s.nextOp := by unfold setG; split <;> rfl
@[simp] theorem setG_staging (s : State) (r : CrewRef) (i n : Nat) (v : W32) : (setG s r i n v).staging = s.staging := by unfold setG; split <;> rfl
@[simp] theorem setG_groups (s : State) (r : CrewRef) (i n : Nat) (v : W32) : (setG s r i n v).groups = s.groups := by unfold setG; split <;> rfl
@[simp] theorem setG_bindings (s : State) (r : CrewRef) (i n : Nat) (v : W32) : (setG s r i n v).bindings = s.bindings := by unfold setG; split <;> rfl
@[simp] theorem setG_conns (s : State) (r : CrewRef) (i n : Nat) (v : W32) : (setG s r i n v).conns = s.conns := by unfold setG; split <;> rfl
@[simp] theorem setG_churns (s : State) (r : CrewRef) (i n : Nat) (v : W32) : (setG s r i n v).churns = s.churns := by unfold setG; split <;> rfl
@[simp] theorem setG_eth (s : State) (r : CrewRef) (i n : Nat) (v : W32) : (setG s r i n v).eth = s.eth := by unfold setG; split <;> rfl
@[simp] theorem setG_ua (s : State) (r : CrewRef) (i n : Nat) (v : W32) : (setG s r i n v).ua = s.ua := by unfold setG; split <;> rfl
@[simp] theorem setG_cxl (s : State) (r : CrewRef) (i n : Nat) (v : W32) : (setG s r i n v).cxl = s.cxl := by unfold setG; split <;> rfl
@[simp] theorem setG_ckpt (s : State) (r : CrewRef) (i n : Nat) (v : W32) : (setG s r i n v).ckpt = s.ckpt := by unfold setG; split <;> rfl
@[simp] theorem setG_loads (s : State) (r : CrewRef) (i n : Nat) (v : W32) : (setG s r i n v).loads = s.loads := by unfold setG; split <;> rfl
@[simp] theorem setG_lastPlaced (s : State) (r : CrewRef) (i n : Nat) (v : W32) : (setG s r i n v).lastPlaced = s.lastPlaced := by unfold setG; split <;> rfl
@[simp] theorem setG_popped (s : State) (r : CrewRef) (i n : Nat) (v : W32) : (setG s r i n v).popped = s.popped := by unfold setG; split <;> rfl
@[simp] theorem setG_turn (s : State) (r : CrewRef) (i n : Nat) (v : W32) : (setG s r i n v).turn = s.turn := by unfold setG; split <;> rfl
@[simp] theorem setG_picks (s : State) (r : CrewRef) (i n : Nat) (v : W32) : (setG s r i n v).picks = s.picks := by unfold setG; split <;> rfl
@[simp] theorem setG_issue (s : State) (r : CrewRef) (i n : Nat) (v : W32) : (setG s r i n v).issue = s.issue := by unfold setG; split <;> rfl
@[simp] theorem setG_inputs (s : State) (r : CrewRef) (i n : Nat) (v : W32) : (setG s r i n v).inputs = s.inputs := by unfold setG; split <;> rfl
@[simp] theorem setG_commands (s : State) (r : CrewRef) (i n : Nat) (v : W32) : (setG s r i n v).commands = s.commands := by unfold setG; split <;> rfl
@[simp] theorem setG_events (s : State) (r : CrewRef) (i n : Nat) (v : W32) : (setG s r i n v).events = s.events := by unfold setG; split <;> rfl
@[simp] theorem setG_egress (s : State) (r : CrewRef) (i n : Nat) (v : W32) : (setG s r i n v).egress = s.egress := by unfold setG; split <;> rfl
@[simp] theorem setG_fresh (s : State) (r : CrewRef) (i n : Nat) (v : W32) : (setG s r i n v).fresh = s.fresh := by unfold setG; split <;> rfl

@[simp] theorem setK_cycle (s : State) (r : CrewRef) (n : Nat) (v : W32) : (setK s r n v).cycle = s.cycle := updCrew_cycle s r _
@[simp] theorem setK_boot (s : State) (r : CrewRef) (n : Nat) (v : W32) : (setK s r n v).boot = s.boot := updCrew_boot s r _
@[simp] theorem setK_ctxs (s : State) (r : CrewRef) (n : Nat) (v : W32) : (setK s r n v).ctxs = s.ctxs := updCrew_ctxs s r _
@[simp] theorem setK_grids (s : State) (r : CrewRef) (n : Nat) (v : W32) : (setK s r n v).grids = s.grids := updCrew_grids s r _
@[simp] theorem setK_die0 (s : State) (r : CrewRef) (n : Nat) (v : W32) : (setK s r n v).die0 = s.die0 := updCrew_die0 s r _
@[simp] theorem setK_die1 (s : State) (r : CrewRef) (n : Nat) (v : W32) : (setK s r n v).die1 = s.die1 := updCrew_die1 s r _
@[simp] theorem setK_mem (s : State) (r : CrewRef) (n : Nat) (v : W32) : (setK s r n v).mem = s.mem := updCrew_mem s r _
@[simp] theorem setK_poison (s : State) (r : CrewRef) (n : Nat) (v : W32) : (setK s r n v).poison = s.poison := updCrew_poison s r _
@[simp] theorem setK_cxlDirty (s : State) (r : CrewRef) (n : Nat) (v : W32) : (setK s r n v).cxlDirty = s.cxlDirty := updCrew_cxlDirty s r _
@[simp] theorem setK_cxlHeld (s : State) (r : CrewRef) (n : Nat) (v : W32) : (setK s r n v).cxlHeld = s.cxlHeld := updCrew_cxlHeld s r _
@[simp] theorem setK_cxlPoison (s : State) (r : CrewRef) (n : Nat) (v : W32) : (setK s r n v).cxlPoison = s.cxlPoison := updCrew_cxlPoison s r _
@[simp] theorem setK_peerMem (s : State) (r : CrewRef) (n : Nat) (v : W32) : (setK s r n v).peerMem = s.peerMem := updCrew_peerMem s r _
@[simp] theorem setK_peerEpochs (s : State) (r : CrewRef) (n : Nat) (v : W32) : (setK s r n v).peerEpochs = s.peerEpochs := updCrew_peerEpochs s r _
@[simp] theorem setK_pages (s : State) (r : CrewRef) (n : Nat) (v : W32) : (setK s r n v).pages = s.pages := updCrew_pages s r _
@[simp] theorem setK_pageGens (s : State) (r : CrewRef) (n : Nat) (v : W32) : (setK s r n v).pageGens = s.pageGens := updCrew_pageGens s r _
@[simp] theorem setK_ops (s : State) (r : CrewRef) (n : Nat) (v : W32) : (setK s r n v).ops = s.ops := updCrew_ops s r _
@[simp] theorem setK_nextOp (s : State) (r : CrewRef) (n : Nat) (v : W32) : (setK s r n v).nextOp = s.nextOp := updCrew_nextOp s r _
@[simp] theorem setK_staging (s : State) (r : CrewRef) (n : Nat) (v : W32) : (setK s r n v).staging = s.staging := updCrew_staging s r _
@[simp] theorem setK_groups (s : State) (r : CrewRef) (n : Nat) (v : W32) : (setK s r n v).groups = s.groups := updCrew_groups s r _
@[simp] theorem setK_bindings (s : State) (r : CrewRef) (n : Nat) (v : W32) : (setK s r n v).bindings = s.bindings := updCrew_bindings s r _
@[simp] theorem setK_conns (s : State) (r : CrewRef) (n : Nat) (v : W32) : (setK s r n v).conns = s.conns := updCrew_conns s r _
@[simp] theorem setK_churns (s : State) (r : CrewRef) (n : Nat) (v : W32) : (setK s r n v).churns = s.churns := updCrew_churns s r _
@[simp] theorem setK_eth (s : State) (r : CrewRef) (n : Nat) (v : W32) : (setK s r n v).eth = s.eth := updCrew_eth s r _
@[simp] theorem setK_ua (s : State) (r : CrewRef) (n : Nat) (v : W32) : (setK s r n v).ua = s.ua := updCrew_ua s r _
@[simp] theorem setK_cxl (s : State) (r : CrewRef) (n : Nat) (v : W32) : (setK s r n v).cxl = s.cxl := updCrew_cxl s r _
@[simp] theorem setK_ckpt (s : State) (r : CrewRef) (n : Nat) (v : W32) : (setK s r n v).ckpt = s.ckpt := updCrew_ckpt s r _
@[simp] theorem setK_loads (s : State) (r : CrewRef) (n : Nat) (v : W32) : (setK s r n v).loads = s.loads := updCrew_loads s r _
@[simp] theorem setK_lastPlaced (s : State) (r : CrewRef) (n : Nat) (v : W32) : (setK s r n v).lastPlaced = s.lastPlaced := updCrew_lastPlaced s r _
@[simp] theorem setK_popped (s : State) (r : CrewRef) (n : Nat) (v : W32) : (setK s r n v).popped = s.popped := updCrew_popped s r _
@[simp] theorem setK_turn (s : State) (r : CrewRef) (n : Nat) (v : W32) : (setK s r n v).turn = s.turn := updCrew_turn s r _
@[simp] theorem setK_picks (s : State) (r : CrewRef) (n : Nat) (v : W32) : (setK s r n v).picks = s.picks := updCrew_picks s r _
@[simp] theorem setK_issue (s : State) (r : CrewRef) (n : Nat) (v : W32) : (setK s r n v).issue = s.issue := updCrew_issue s r _
@[simp] theorem setK_inputs (s : State) (r : CrewRef) (n : Nat) (v : W32) : (setK s r n v).inputs = s.inputs := updCrew_inputs s r _
@[simp] theorem setK_commands (s : State) (r : CrewRef) (n : Nat) (v : W32) : (setK s r n v).commands = s.commands := updCrew_commands s r _
@[simp] theorem setK_events (s : State) (r : CrewRef) (n : Nat) (v : W32) : (setK s r n v).events = s.events := updCrew_events s r _
@[simp] theorem setK_egress (s : State) (r : CrewRef) (n : Nat) (v : W32) : (setK s r n v).egress = s.egress := updCrew_egress s r _
@[simp] theorem setK_fresh (s : State) (r : CrewRef) (n : Nat) (v : W32) : (setK s r n v).fresh = s.fresh := updCrew_fresh s r _

@[simp] theorem setP_cycle (s : State) (r : CrewRef) (i n : Nat) (b : Bool) : (setP s r i n b).cycle = s.cycle := updCrew_cycle s r _
@[simp] theorem setP_boot (s : State) (r : CrewRef) (i n : Nat) (b : Bool) : (setP s r i n b).boot = s.boot := updCrew_boot s r _
@[simp] theorem setP_ctxs (s : State) (r : CrewRef) (i n : Nat) (b : Bool) : (setP s r i n b).ctxs = s.ctxs := updCrew_ctxs s r _
@[simp] theorem setP_grids (s : State) (r : CrewRef) (i n : Nat) (b : Bool) : (setP s r i n b).grids = s.grids := updCrew_grids s r _
@[simp] theorem setP_die0 (s : State) (r : CrewRef) (i n : Nat) (b : Bool) : (setP s r i n b).die0 = s.die0 := updCrew_die0 s r _
@[simp] theorem setP_die1 (s : State) (r : CrewRef) (i n : Nat) (b : Bool) : (setP s r i n b).die1 = s.die1 := updCrew_die1 s r _
@[simp] theorem setP_mem (s : State) (r : CrewRef) (i n : Nat) (b : Bool) : (setP s r i n b).mem = s.mem := updCrew_mem s r _
@[simp] theorem setP_poison (s : State) (r : CrewRef) (i n : Nat) (b : Bool) : (setP s r i n b).poison = s.poison := updCrew_poison s r _
@[simp] theorem setP_cxlDirty (s : State) (r : CrewRef) (i n : Nat) (b : Bool) : (setP s r i n b).cxlDirty = s.cxlDirty := updCrew_cxlDirty s r _
@[simp] theorem setP_cxlHeld (s : State) (r : CrewRef) (i n : Nat) (b : Bool) : (setP s r i n b).cxlHeld = s.cxlHeld := updCrew_cxlHeld s r _
@[simp] theorem setP_cxlPoison (s : State) (r : CrewRef) (i n : Nat) (b : Bool) : (setP s r i n b).cxlPoison = s.cxlPoison := updCrew_cxlPoison s r _
@[simp] theorem setP_peerMem (s : State) (r : CrewRef) (i n : Nat) (b : Bool) : (setP s r i n b).peerMem = s.peerMem := updCrew_peerMem s r _
@[simp] theorem setP_peerEpochs (s : State) (r : CrewRef) (i n : Nat) (b : Bool) : (setP s r i n b).peerEpochs = s.peerEpochs := updCrew_peerEpochs s r _
@[simp] theorem setP_pages (s : State) (r : CrewRef) (i n : Nat) (b : Bool) : (setP s r i n b).pages = s.pages := updCrew_pages s r _
@[simp] theorem setP_pageGens (s : State) (r : CrewRef) (i n : Nat) (b : Bool) : (setP s r i n b).pageGens = s.pageGens := updCrew_pageGens s r _
@[simp] theorem setP_ops (s : State) (r : CrewRef) (i n : Nat) (b : Bool) : (setP s r i n b).ops = s.ops := updCrew_ops s r _
@[simp] theorem setP_nextOp (s : State) (r : CrewRef) (i n : Nat) (b : Bool) : (setP s r i n b).nextOp = s.nextOp := updCrew_nextOp s r _
@[simp] theorem setP_staging (s : State) (r : CrewRef) (i n : Nat) (b : Bool) : (setP s r i n b).staging = s.staging := updCrew_staging s r _
@[simp] theorem setP_groups (s : State) (r : CrewRef) (i n : Nat) (b : Bool) : (setP s r i n b).groups = s.groups := updCrew_groups s r _
@[simp] theorem setP_bindings (s : State) (r : CrewRef) (i n : Nat) (b : Bool) : (setP s r i n b).bindings = s.bindings := updCrew_bindings s r _
@[simp] theorem setP_conns (s : State) (r : CrewRef) (i n : Nat) (b : Bool) : (setP s r i n b).conns = s.conns := updCrew_conns s r _
@[simp] theorem setP_churns (s : State) (r : CrewRef) (i n : Nat) (b : Bool) : (setP s r i n b).churns = s.churns := updCrew_churns s r _
@[simp] theorem setP_eth (s : State) (r : CrewRef) (i n : Nat) (b : Bool) : (setP s r i n b).eth = s.eth := updCrew_eth s r _
@[simp] theorem setP_ua (s : State) (r : CrewRef) (i n : Nat) (b : Bool) : (setP s r i n b).ua = s.ua := updCrew_ua s r _
@[simp] theorem setP_cxl (s : State) (r : CrewRef) (i n : Nat) (b : Bool) : (setP s r i n b).cxl = s.cxl := updCrew_cxl s r _
@[simp] theorem setP_ckpt (s : State) (r : CrewRef) (i n : Nat) (b : Bool) : (setP s r i n b).ckpt = s.ckpt := updCrew_ckpt s r _
@[simp] theorem setP_loads (s : State) (r : CrewRef) (i n : Nat) (b : Bool) : (setP s r i n b).loads = s.loads := updCrew_loads s r _
@[simp] theorem setP_lastPlaced (s : State) (r : CrewRef) (i n : Nat) (b : Bool) : (setP s r i n b).lastPlaced = s.lastPlaced := updCrew_lastPlaced s r _
@[simp] theorem setP_popped (s : State) (r : CrewRef) (i n : Nat) (b : Bool) : (setP s r i n b).popped = s.popped := updCrew_popped s r _
@[simp] theorem setP_turn (s : State) (r : CrewRef) (i n : Nat) (b : Bool) : (setP s r i n b).turn = s.turn := updCrew_turn s r _
@[simp] theorem setP_picks (s : State) (r : CrewRef) (i n : Nat) (b : Bool) : (setP s r i n b).picks = s.picks := updCrew_picks s r _
@[simp] theorem setP_issue (s : State) (r : CrewRef) (i n : Nat) (b : Bool) : (setP s r i n b).issue = s.issue := updCrew_issue s r _
@[simp] theorem setP_inputs (s : State) (r : CrewRef) (i n : Nat) (b : Bool) : (setP s r i n b).inputs = s.inputs := updCrew_inputs s r _
@[simp] theorem setP_commands (s : State) (r : CrewRef) (i n : Nat) (b : Bool) : (setP s r i n b).commands = s.commands := updCrew_commands s r _
@[simp] theorem setP_events (s : State) (r : CrewRef) (i n : Nat) (b : Bool) : (setP s r i n b).events = s.events := updCrew_events s r _
@[simp] theorem setP_egress (s : State) (r : CrewRef) (i n : Nat) (b : Bool) : (setP s r i n b).egress = s.egress := updCrew_egress s r _
@[simp] theorem setP_fresh (s : State) (r : CrewRef) (i n : Nat) (b : Bool) : (setP s r i n b).fresh = s.fresh := updCrew_fresh s r _

@[simp] theorem orStat_cycle (s : State) (r : CrewRef) (b : Nat) : (orStat s r b).cycle = s.cycle := updCrew_cycle s r _
@[simp] theorem orStat_boot (s : State) (r : CrewRef) (b : Nat) : (orStat s r b).boot = s.boot := updCrew_boot s r _
@[simp] theorem orStat_ctxs (s : State) (r : CrewRef) (b : Nat) : (orStat s r b).ctxs = s.ctxs := updCrew_ctxs s r _
@[simp] theorem orStat_grids (s : State) (r : CrewRef) (b : Nat) : (orStat s r b).grids = s.grids := updCrew_grids s r _
@[simp] theorem orStat_die0 (s : State) (r : CrewRef) (b : Nat) : (orStat s r b).die0 = s.die0 := updCrew_die0 s r _
@[simp] theorem orStat_die1 (s : State) (r : CrewRef) (b : Nat) : (orStat s r b).die1 = s.die1 := updCrew_die1 s r _
@[simp] theorem orStat_mem (s : State) (r : CrewRef) (b : Nat) : (orStat s r b).mem = s.mem := updCrew_mem s r _
@[simp] theorem orStat_poison (s : State) (r : CrewRef) (b : Nat) : (orStat s r b).poison = s.poison := updCrew_poison s r _
@[simp] theorem orStat_cxlDirty (s : State) (r : CrewRef) (b : Nat) : (orStat s r b).cxlDirty = s.cxlDirty := updCrew_cxlDirty s r _
@[simp] theorem orStat_cxlHeld (s : State) (r : CrewRef) (b : Nat) : (orStat s r b).cxlHeld = s.cxlHeld := updCrew_cxlHeld s r _
@[simp] theorem orStat_cxlPoison (s : State) (r : CrewRef) (b : Nat) : (orStat s r b).cxlPoison = s.cxlPoison := updCrew_cxlPoison s r _
@[simp] theorem orStat_peerMem (s : State) (r : CrewRef) (b : Nat) : (orStat s r b).peerMem = s.peerMem := updCrew_peerMem s r _
@[simp] theorem orStat_peerEpochs (s : State) (r : CrewRef) (b : Nat) : (orStat s r b).peerEpochs = s.peerEpochs := updCrew_peerEpochs s r _
@[simp] theorem orStat_pages (s : State) (r : CrewRef) (b : Nat) : (orStat s r b).pages = s.pages := updCrew_pages s r _
@[simp] theorem orStat_pageGens (s : State) (r : CrewRef) (b : Nat) : (orStat s r b).pageGens = s.pageGens := updCrew_pageGens s r _
@[simp] theorem orStat_ops (s : State) (r : CrewRef) (b : Nat) : (orStat s r b).ops = s.ops := updCrew_ops s r _
@[simp] theorem orStat_nextOp (s : State) (r : CrewRef) (b : Nat) : (orStat s r b).nextOp = s.nextOp := updCrew_nextOp s r _
@[simp] theorem orStat_staging (s : State) (r : CrewRef) (b : Nat) : (orStat s r b).staging = s.staging := updCrew_staging s r _
@[simp] theorem orStat_groups (s : State) (r : CrewRef) (b : Nat) : (orStat s r b).groups = s.groups := updCrew_groups s r _
@[simp] theorem orStat_bindings (s : State) (r : CrewRef) (b : Nat) : (orStat s r b).bindings = s.bindings := updCrew_bindings s r _
@[simp] theorem orStat_conns (s : State) (r : CrewRef) (b : Nat) : (orStat s r b).conns = s.conns := updCrew_conns s r _
@[simp] theorem orStat_churns (s : State) (r : CrewRef) (b : Nat) : (orStat s r b).churns = s.churns := updCrew_churns s r _
@[simp] theorem orStat_eth (s : State) (r : CrewRef) (b : Nat) : (orStat s r b).eth = s.eth := updCrew_eth s r _
@[simp] theorem orStat_ua (s : State) (r : CrewRef) (b : Nat) : (orStat s r b).ua = s.ua := updCrew_ua s r _
@[simp] theorem orStat_cxl (s : State) (r : CrewRef) (b : Nat) : (orStat s r b).cxl = s.cxl := updCrew_cxl s r _
@[simp] theorem orStat_ckpt (s : State) (r : CrewRef) (b : Nat) : (orStat s r b).ckpt = s.ckpt := updCrew_ckpt s r _
@[simp] theorem orStat_loads (s : State) (r : CrewRef) (b : Nat) : (orStat s r b).loads = s.loads := updCrew_loads s r _
@[simp] theorem orStat_lastPlaced (s : State) (r : CrewRef) (b : Nat) : (orStat s r b).lastPlaced = s.lastPlaced := updCrew_lastPlaced s r _
@[simp] theorem orStat_popped (s : State) (r : CrewRef) (b : Nat) : (orStat s r b).popped = s.popped := updCrew_popped s r _
@[simp] theorem orStat_turn (s : State) (r : CrewRef) (b : Nat) : (orStat s r b).turn = s.turn := updCrew_turn s r _
@[simp] theorem orStat_picks (s : State) (r : CrewRef) (b : Nat) : (orStat s r b).picks = s.picks := updCrew_picks s r _
@[simp] theorem orStat_issue (s : State) (r : CrewRef) (b : Nat) : (orStat s r b).issue = s.issue := updCrew_issue s r _
@[simp] theorem orStat_inputs (s : State) (r : CrewRef) (b : Nat) : (orStat s r b).inputs = s.inputs := updCrew_inputs s r _
@[simp] theorem orStat_commands (s : State) (r : CrewRef) (b : Nat) : (orStat s r b).commands = s.commands := updCrew_commands s r _
@[simp] theorem orStat_events (s : State) (r : CrewRef) (b : Nat) : (orStat s r b).events = s.events := updCrew_events s r _
@[simp] theorem orStat_egress (s : State) (r : CrewRef) (b : Nat) : (orStat s r b).egress = s.egress := updCrew_egress s r _
@[simp] theorem orStat_fresh (s : State) (r : CrewRef) (b : Nat) : (orStat s r b).fresh = s.fresh := updCrew_fresh s r _

@[simp] theorem mapCrews_cycle (s : State) (f : CrewRef → Crew → Crew) : (mapCrews s f).cycle = s.cycle := rfl
@[simp] theorem mapCrews_boot (s : State) (f : CrewRef → Crew → Crew) : (mapCrews s f).boot = s.boot := rfl
@[simp] theorem mapCrews_ctxs (s : State) (f : CrewRef → Crew → Crew) : (mapCrews s f).ctxs = s.ctxs := rfl
@[simp] theorem mapCrews_grids (s : State) (f : CrewRef → Crew → Crew) : (mapCrews s f).grids = s.grids := rfl
@[simp] theorem mapCrews_die0 (s : State) (f : CrewRef → Crew → Crew) : (mapCrews s f).die0 = s.die0 := rfl
@[simp] theorem mapCrews_die1 (s : State) (f : CrewRef → Crew → Crew) : (mapCrews s f).die1 = s.die1 := rfl
@[simp] theorem mapCrews_mem (s : State) (f : CrewRef → Crew → Crew) : (mapCrews s f).mem = s.mem := rfl
@[simp] theorem mapCrews_poison (s : State) (f : CrewRef → Crew → Crew) : (mapCrews s f).poison = s.poison := rfl
@[simp] theorem mapCrews_cxlDirty (s : State) (f : CrewRef → Crew → Crew) : (mapCrews s f).cxlDirty = s.cxlDirty := rfl
@[simp] theorem mapCrews_cxlHeld (s : State) (f : CrewRef → Crew → Crew) : (mapCrews s f).cxlHeld = s.cxlHeld := rfl
@[simp] theorem mapCrews_cxlPoison (s : State) (f : CrewRef → Crew → Crew) : (mapCrews s f).cxlPoison = s.cxlPoison := rfl
@[simp] theorem mapCrews_peerMem (s : State) (f : CrewRef → Crew → Crew) : (mapCrews s f).peerMem = s.peerMem := rfl
@[simp] theorem mapCrews_peerEpochs (s : State) (f : CrewRef → Crew → Crew) : (mapCrews s f).peerEpochs = s.peerEpochs := rfl
@[simp] theorem mapCrews_pages (s : State) (f : CrewRef → Crew → Crew) : (mapCrews s f).pages = s.pages := rfl
@[simp] theorem mapCrews_pageGens (s : State) (f : CrewRef → Crew → Crew) : (mapCrews s f).pageGens = s.pageGens := rfl
@[simp] theorem mapCrews_ops (s : State) (f : CrewRef → Crew → Crew) : (mapCrews s f).ops = s.ops := rfl
@[simp] theorem mapCrews_nextOp (s : State) (f : CrewRef → Crew → Crew) : (mapCrews s f).nextOp = s.nextOp := rfl
@[simp] theorem mapCrews_staging (s : State) (f : CrewRef → Crew → Crew) : (mapCrews s f).staging = s.staging := rfl
@[simp] theorem mapCrews_groups (s : State) (f : CrewRef → Crew → Crew) : (mapCrews s f).groups = s.groups := rfl
@[simp] theorem mapCrews_bindings (s : State) (f : CrewRef → Crew → Crew) : (mapCrews s f).bindings = s.bindings := rfl
@[simp] theorem mapCrews_conns (s : State) (f : CrewRef → Crew → Crew) : (mapCrews s f).conns = s.conns := rfl
@[simp] theorem mapCrews_churns (s : State) (f : CrewRef → Crew → Crew) : (mapCrews s f).churns = s.churns := rfl
@[simp] theorem mapCrews_eth (s : State) (f : CrewRef → Crew → Crew) : (mapCrews s f).eth = s.eth := rfl
@[simp] theorem mapCrews_ua (s : State) (f : CrewRef → Crew → Crew) : (mapCrews s f).ua = s.ua := rfl
@[simp] theorem mapCrews_cxl (s : State) (f : CrewRef → Crew → Crew) : (mapCrews s f).cxl = s.cxl := rfl
@[simp] theorem mapCrews_ckpt (s : State) (f : CrewRef → Crew → Crew) : (mapCrews s f).ckpt = s.ckpt := rfl
@[simp] theorem mapCrews_loads (s : State) (f : CrewRef → Crew → Crew) : (mapCrews s f).loads = s.loads := rfl
@[simp] theorem mapCrews_lastPlaced (s : State) (f : CrewRef → Crew → Crew) : (mapCrews s f).lastPlaced = s.lastPlaced := rfl
@[simp] theorem mapCrews_popped (s : State) (f : CrewRef → Crew → Crew) : (mapCrews s f).popped = s.popped := rfl
@[simp] theorem mapCrews_turn (s : State) (f : CrewRef → Crew → Crew) : (mapCrews s f).turn = s.turn := rfl
@[simp] theorem mapCrews_picks (s : State) (f : CrewRef → Crew → Crew) : (mapCrews s f).picks = s.picks := rfl
@[simp] theorem mapCrews_issue (s : State) (f : CrewRef → Crew → Crew) : (mapCrews s f).issue = s.issue := rfl
@[simp] theorem mapCrews_inputs (s : State) (f : CrewRef → Crew → Crew) : (mapCrews s f).inputs = s.inputs := rfl
@[simp] theorem mapCrews_commands (s : State) (f : CrewRef → Crew → Crew) : (mapCrews s f).commands = s.commands := rfl
@[simp] theorem mapCrews_events (s : State) (f : CrewRef → Crew → Crew) : (mapCrews s f).events = s.events := rfl
@[simp] theorem mapCrews_egress (s : State) (f : CrewRef → Crew → Crew) : (mapCrews s f).egress = s.egress := rfl
@[simp] theorem mapCrews_fresh (s : State) (f : CrewRef → Crew → Crew) : (mapCrews s f).fresh = s.fresh := rfl

@[simp] theorem mapClusters_cycle (s : State) (f : Nat → Cluster → Cluster) : (mapClusters s f).cycle = s.cycle := rfl
@[simp] theorem mapClusters_boot (s : State) (f : Nat → Cluster → Cluster) : (mapClusters s f).boot = s.boot := rfl
@[simp] theorem mapClusters_ctxs (s : State) (f : Nat → Cluster → Cluster) : (mapClusters s f).ctxs = s.ctxs := rfl
@[simp] theorem mapClusters_grids (s : State) (f : Nat → Cluster → Cluster) : (mapClusters s f).grids = s.grids := rfl
@[simp] theorem mapClusters_die0 (s : State) (f : Nat → Cluster → Cluster) : (mapClusters s f).die0 = s.die0 := rfl
@[simp] theorem mapClusters_die1 (s : State) (f : Nat → Cluster → Cluster) : (mapClusters s f).die1 = s.die1 := rfl
@[simp] theorem mapClusters_mem (s : State) (f : Nat → Cluster → Cluster) : (mapClusters s f).mem = s.mem := rfl
@[simp] theorem mapClusters_poison (s : State) (f : Nat → Cluster → Cluster) : (mapClusters s f).poison = s.poison := rfl
@[simp] theorem mapClusters_cxlDirty (s : State) (f : Nat → Cluster → Cluster) : (mapClusters s f).cxlDirty = s.cxlDirty := rfl
@[simp] theorem mapClusters_cxlHeld (s : State) (f : Nat → Cluster → Cluster) : (mapClusters s f).cxlHeld = s.cxlHeld := rfl
@[simp] theorem mapClusters_cxlPoison (s : State) (f : Nat → Cluster → Cluster) : (mapClusters s f).cxlPoison = s.cxlPoison := rfl
@[simp] theorem mapClusters_peerMem (s : State) (f : Nat → Cluster → Cluster) : (mapClusters s f).peerMem = s.peerMem := rfl
@[simp] theorem mapClusters_peerEpochs (s : State) (f : Nat → Cluster → Cluster) : (mapClusters s f).peerEpochs = s.peerEpochs := rfl
@[simp] theorem mapClusters_pages (s : State) (f : Nat → Cluster → Cluster) : (mapClusters s f).pages = s.pages := rfl
@[simp] theorem mapClusters_pageGens (s : State) (f : Nat → Cluster → Cluster) : (mapClusters s f).pageGens = s.pageGens := rfl
@[simp] theorem mapClusters_ops (s : State) (f : Nat → Cluster → Cluster) : (mapClusters s f).ops = s.ops := rfl
@[simp] theorem mapClusters_nextOp (s : State) (f : Nat → Cluster → Cluster) : (mapClusters s f).nextOp = s.nextOp := rfl
@[simp] theorem mapClusters_staging (s : State) (f : Nat → Cluster → Cluster) : (mapClusters s f).staging = s.staging := rfl
@[simp] theorem mapClusters_groups (s : State) (f : Nat → Cluster → Cluster) : (mapClusters s f).groups = s.groups := rfl
@[simp] theorem mapClusters_bindings (s : State) (f : Nat → Cluster → Cluster) : (mapClusters s f).bindings = s.bindings := rfl
@[simp] theorem mapClusters_conns (s : State) (f : Nat → Cluster → Cluster) : (mapClusters s f).conns = s.conns := rfl
@[simp] theorem mapClusters_churns (s : State) (f : Nat → Cluster → Cluster) : (mapClusters s f).churns = s.churns := rfl
@[simp] theorem mapClusters_eth (s : State) (f : Nat → Cluster → Cluster) : (mapClusters s f).eth = s.eth := rfl
@[simp] theorem mapClusters_ua (s : State) (f : Nat → Cluster → Cluster) : (mapClusters s f).ua = s.ua := rfl
@[simp] theorem mapClusters_cxl (s : State) (f : Nat → Cluster → Cluster) : (mapClusters s f).cxl = s.cxl := rfl
@[simp] theorem mapClusters_ckpt (s : State) (f : Nat → Cluster → Cluster) : (mapClusters s f).ckpt = s.ckpt := rfl
@[simp] theorem mapClusters_loads (s : State) (f : Nat → Cluster → Cluster) : (mapClusters s f).loads = s.loads := rfl
@[simp] theorem mapClusters_lastPlaced (s : State) (f : Nat → Cluster → Cluster) : (mapClusters s f).lastPlaced = s.lastPlaced := rfl
@[simp] theorem mapClusters_popped (s : State) (f : Nat → Cluster → Cluster) : (mapClusters s f).popped = s.popped := rfl
@[simp] theorem mapClusters_turn (s : State) (f : Nat → Cluster → Cluster) : (mapClusters s f).turn = s.turn := rfl
@[simp] theorem mapClusters_picks (s : State) (f : Nat → Cluster → Cluster) : (mapClusters s f).picks = s.picks := rfl
@[simp] theorem mapClusters_issue (s : State) (f : Nat → Cluster → Cluster) : (mapClusters s f).issue = s.issue := rfl
@[simp] theorem mapClusters_inputs (s : State) (f : Nat → Cluster → Cluster) : (mapClusters s f).inputs = s.inputs := rfl
@[simp] theorem mapClusters_commands (s : State) (f : Nat → Cluster → Cluster) : (mapClusters s f).commands = s.commands := rfl
@[simp] theorem mapClusters_events (s : State) (f : Nat → Cluster → Cluster) : (mapClusters s f).events = s.events := rfl
@[simp] theorem mapClusters_egress (s : State) (f : Nat → Cluster → Cluster) : (mapClusters s f).egress = s.egress := rfl
@[simp] theorem mapClusters_fresh (s : State) (f : Nat → Cluster → Cluster) : (mapClusters s f).fresh = s.fresh := rfl

@[simp] theorem updDie_cycle (s : State) (d : Nat) (f : Die → Die) : (updDie s d f).cycle = s.cycle := by unfold updDie; split <;> rfl
@[simp] theorem updDie_boot (s : State) (d : Nat) (f : Die → Die) : (updDie s d f).boot = s.boot := by unfold updDie; split <;> rfl
@[simp] theorem updDie_ctxs (s : State) (d : Nat) (f : Die → Die) : (updDie s d f).ctxs = s.ctxs := by unfold updDie; split <;> rfl
@[simp] theorem updDie_grids (s : State) (d : Nat) (f : Die → Die) : (updDie s d f).grids = s.grids := by unfold updDie; split <;> rfl
@[simp] theorem updDie_clusters (s : State) (d : Nat) (f : Die → Die) : (updDie s d f).clusters = s.clusters := by unfold updDie; split <;> rfl
@[simp] theorem updDie_mem (s : State) (d : Nat) (f : Die → Die) : (updDie s d f).mem = s.mem := by unfold updDie; split <;> rfl
@[simp] theorem updDie_poison (s : State) (d : Nat) (f : Die → Die) : (updDie s d f).poison = s.poison := by unfold updDie; split <;> rfl
@[simp] theorem updDie_cxlDirty (s : State) (d : Nat) (f : Die → Die) : (updDie s d f).cxlDirty = s.cxlDirty := by unfold updDie; split <;> rfl
@[simp] theorem updDie_cxlHeld (s : State) (d : Nat) (f : Die → Die) : (updDie s d f).cxlHeld = s.cxlHeld := by unfold updDie; split <;> rfl
@[simp] theorem updDie_cxlPoison (s : State) (d : Nat) (f : Die → Die) : (updDie s d f).cxlPoison = s.cxlPoison := by unfold updDie; split <;> rfl
@[simp] theorem updDie_peerMem (s : State) (d : Nat) (f : Die → Die) : (updDie s d f).peerMem = s.peerMem := by unfold updDie; split <;> rfl
@[simp] theorem updDie_peerEpochs (s : State) (d : Nat) (f : Die → Die) : (updDie s d f).peerEpochs = s.peerEpochs := by unfold updDie; split <;> rfl
@[simp] theorem updDie_pages (s : State) (d : Nat) (f : Die → Die) : (updDie s d f).pages = s.pages := by unfold updDie; split <;> rfl
@[simp] theorem updDie_pageGens (s : State) (d : Nat) (f : Die → Die) : (updDie s d f).pageGens = s.pageGens := by unfold updDie; split <;> rfl
@[simp] theorem updDie_ops (s : State) (d : Nat) (f : Die → Die) : (updDie s d f).ops = s.ops := by unfold updDie; split <;> rfl
@[simp] theorem updDie_nextOp (s : State) (d : Nat) (f : Die → Die) : (updDie s d f).nextOp = s.nextOp := by unfold updDie; split <;> rfl
@[simp] theorem updDie_staging (s : State) (d : Nat) (f : Die → Die) : (updDie s d f).staging = s.staging := by unfold updDie; split <;> rfl
@[simp] theorem updDie_groups (s : State) (d : Nat) (f : Die → Die) : (updDie s d f).groups = s.groups := by unfold updDie; split <;> rfl
@[simp] theorem updDie_bindings (s : State) (d : Nat) (f : Die → Die) : (updDie s d f).bindings = s.bindings := by unfold updDie; split <;> rfl
@[simp] theorem updDie_conns (s : State) (d : Nat) (f : Die → Die) : (updDie s d f).conns = s.conns := by unfold updDie; split <;> rfl
@[simp] theorem updDie_churns (s : State) (d : Nat) (f : Die → Die) : (updDie s d f).churns = s.churns := by unfold updDie; split <;> rfl
@[simp] theorem updDie_eth (s : State) (d : Nat) (f : Die → Die) : (updDie s d f).eth = s.eth := by unfold updDie; split <;> rfl
@[simp] theorem updDie_ua (s : State) (d : Nat) (f : Die → Die) : (updDie s d f).ua = s.ua := by unfold updDie; split <;> rfl
@[simp] theorem updDie_cxl (s : State) (d : Nat) (f : Die → Die) : (updDie s d f).cxl = s.cxl := by unfold updDie; split <;> rfl
@[simp] theorem updDie_ckpt (s : State) (d : Nat) (f : Die → Die) : (updDie s d f).ckpt = s.ckpt := by unfold updDie; split <;> rfl
@[simp] theorem updDie_loads (s : State) (d : Nat) (f : Die → Die) : (updDie s d f).loads = s.loads := by unfold updDie; split <;> rfl
@[simp] theorem updDie_lastPlaced (s : State) (d : Nat) (f : Die → Die) : (updDie s d f).lastPlaced = s.lastPlaced := by unfold updDie; split <;> rfl
@[simp] theorem updDie_popped (s : State) (d : Nat) (f : Die → Die) : (updDie s d f).popped = s.popped := by unfold updDie; split <;> rfl
@[simp] theorem updDie_turn (s : State) (d : Nat) (f : Die → Die) : (updDie s d f).turn = s.turn := by unfold updDie; split <;> rfl
@[simp] theorem updDie_picks (s : State) (d : Nat) (f : Die → Die) : (updDie s d f).picks = s.picks := by unfold updDie; split <;> rfl
@[simp] theorem updDie_issue (s : State) (d : Nat) (f : Die → Die) : (updDie s d f).issue = s.issue := by unfold updDie; split <;> rfl
@[simp] theorem updDie_inputs (s : State) (d : Nat) (f : Die → Die) : (updDie s d f).inputs = s.inputs := by unfold updDie; split <;> rfl
@[simp] theorem updDie_commands (s : State) (d : Nat) (f : Die → Die) : (updDie s d f).commands = s.commands := by unfold updDie; split <;> rfl
@[simp] theorem updDie_events (s : State) (d : Nat) (f : Die → Die) : (updDie s d f).events = s.events := by unfold updDie; split <;> rfl
@[simp] theorem updDie_egress (s : State) (d : Nat) (f : Die → Die) : (updDie s d f).egress = s.egress := by unfold updDie; split <;> rfl
@[simp] theorem updDie_fresh (s : State) (d : Nat) (f : Die → Die) : (updDie s d f).fresh = s.fresh := by unfold updDie; split <;> rfl

@[simp] theorem updCtx_cycle (s : State) (c : Nat) (f : Ctx → Ctx) : (updCtx s c f).cycle = s.cycle := by unfold updCtx; split <;> rfl
@[simp] theorem updCtx_boot (s : State) (c : Nat) (f : Ctx → Ctx) : (updCtx s c f).boot = s.boot := by unfold updCtx; split <;> rfl
@[simp] theorem updCtx_grids (s : State) (c : Nat) (f : Ctx → Ctx) : (updCtx s c f).grids = s.grids := by unfold updCtx; split <;> rfl
@[simp] theorem updCtx_clusters (s : State) (c : Nat) (f : Ctx → Ctx) : (updCtx s c f).clusters = s.clusters := by unfold updCtx; split <;> rfl
@[simp] theorem updCtx_die0 (s : State) (c : Nat) (f : Ctx → Ctx) : (updCtx s c f).die0 = s.die0 := by unfold updCtx; split <;> rfl
@[simp] theorem updCtx_die1 (s : State) (c : Nat) (f : Ctx → Ctx) : (updCtx s c f).die1 = s.die1 := by unfold updCtx; split <;> rfl
@[simp] theorem updCtx_mem (s : State) (c : Nat) (f : Ctx → Ctx) : (updCtx s c f).mem = s.mem := by unfold updCtx; split <;> rfl
@[simp] theorem updCtx_poison (s : State) (c : Nat) (f : Ctx → Ctx) : (updCtx s c f).poison = s.poison := by unfold updCtx; split <;> rfl
@[simp] theorem updCtx_cxlDirty (s : State) (c : Nat) (f : Ctx → Ctx) : (updCtx s c f).cxlDirty = s.cxlDirty := by unfold updCtx; split <;> rfl
@[simp] theorem updCtx_cxlHeld (s : State) (c : Nat) (f : Ctx → Ctx) : (updCtx s c f).cxlHeld = s.cxlHeld := by unfold updCtx; split <;> rfl
@[simp] theorem updCtx_cxlPoison (s : State) (c : Nat) (f : Ctx → Ctx) : (updCtx s c f).cxlPoison = s.cxlPoison := by unfold updCtx; split <;> rfl
@[simp] theorem updCtx_peerMem (s : State) (c : Nat) (f : Ctx → Ctx) : (updCtx s c f).peerMem = s.peerMem := by unfold updCtx; split <;> rfl
@[simp] theorem updCtx_peerEpochs (s : State) (c : Nat) (f : Ctx → Ctx) : (updCtx s c f).peerEpochs = s.peerEpochs := by unfold updCtx; split <;> rfl
@[simp] theorem updCtx_pages (s : State) (c : Nat) (f : Ctx → Ctx) : (updCtx s c f).pages = s.pages := by unfold updCtx; split <;> rfl
@[simp] theorem updCtx_pageGens (s : State) (c : Nat) (f : Ctx → Ctx) : (updCtx s c f).pageGens = s.pageGens := by unfold updCtx; split <;> rfl
@[simp] theorem updCtx_ops (s : State) (c : Nat) (f : Ctx → Ctx) : (updCtx s c f).ops = s.ops := by unfold updCtx; split <;> rfl
@[simp] theorem updCtx_nextOp (s : State) (c : Nat) (f : Ctx → Ctx) : (updCtx s c f).nextOp = s.nextOp := by unfold updCtx; split <;> rfl
@[simp] theorem updCtx_staging (s : State) (c : Nat) (f : Ctx → Ctx) : (updCtx s c f).staging = s.staging := by unfold updCtx; split <;> rfl
@[simp] theorem updCtx_groups (s : State) (c : Nat) (f : Ctx → Ctx) : (updCtx s c f).groups = s.groups := by unfold updCtx; split <;> rfl
@[simp] theorem updCtx_bindings (s : State) (c : Nat) (f : Ctx → Ctx) : (updCtx s c f).bindings = s.bindings := by unfold updCtx; split <;> rfl
@[simp] theorem updCtx_conns (s : State) (c : Nat) (f : Ctx → Ctx) : (updCtx s c f).conns = s.conns := by unfold updCtx; split <;> rfl
@[simp] theorem updCtx_churns (s : State) (c : Nat) (f : Ctx → Ctx) : (updCtx s c f).churns = s.churns := by unfold updCtx; split <;> rfl
@[simp] theorem updCtx_eth (s : State) (c : Nat) (f : Ctx → Ctx) : (updCtx s c f).eth = s.eth := by unfold updCtx; split <;> rfl
@[simp] theorem updCtx_ua (s : State) (c : Nat) (f : Ctx → Ctx) : (updCtx s c f).ua = s.ua := by unfold updCtx; split <;> rfl
@[simp] theorem updCtx_cxl (s : State) (c : Nat) (f : Ctx → Ctx) : (updCtx s c f).cxl = s.cxl := by unfold updCtx; split <;> rfl
@[simp] theorem updCtx_ckpt (s : State) (c : Nat) (f : Ctx → Ctx) : (updCtx s c f).ckpt = s.ckpt := by unfold updCtx; split <;> rfl
@[simp] theorem updCtx_loads (s : State) (c : Nat) (f : Ctx → Ctx) : (updCtx s c f).loads = s.loads := by unfold updCtx; split <;> rfl
@[simp] theorem updCtx_lastPlaced (s : State) (c : Nat) (f : Ctx → Ctx) : (updCtx s c f).lastPlaced = s.lastPlaced := by unfold updCtx; split <;> rfl
@[simp] theorem updCtx_popped (s : State) (c : Nat) (f : Ctx → Ctx) : (updCtx s c f).popped = s.popped := by unfold updCtx; split <;> rfl
@[simp] theorem updCtx_turn (s : State) (c : Nat) (f : Ctx → Ctx) : (updCtx s c f).turn = s.turn := by unfold updCtx; split <;> rfl
@[simp] theorem updCtx_picks (s : State) (c : Nat) (f : Ctx → Ctx) : (updCtx s c f).picks = s.picks := by unfold updCtx; split <;> rfl
@[simp] theorem updCtx_issue (s : State) (c : Nat) (f : Ctx → Ctx) : (updCtx s c f).issue = s.issue := by unfold updCtx; split <;> rfl
@[simp] theorem updCtx_inputs (s : State) (c : Nat) (f : Ctx → Ctx) : (updCtx s c f).inputs = s.inputs := by unfold updCtx; split <;> rfl
@[simp] theorem updCtx_commands (s : State) (c : Nat) (f : Ctx → Ctx) : (updCtx s c f).commands = s.commands := by unfold updCtx; split <;> rfl
@[simp] theorem updCtx_events (s : State) (c : Nat) (f : Ctx → Ctx) : (updCtx s c f).events = s.events := by unfold updCtx; split <;> rfl
@[simp] theorem updCtx_egress (s : State) (c : Nat) (f : Ctx → Ctx) : (updCtx s c f).egress = s.egress := by unfold updCtx; split <;> rfl
@[simp] theorem updCtx_fresh (s : State) (c : Nat) (f : Ctx → Ctx) : (updCtx s c f).fresh = s.fresh := by unfold updCtx; split <;> rfl

@[simp] theorem updOp_cycle (s : State) (n : Nat) (f : EngOp → EngOp) : (updOp s n f).cycle = s.cycle := by unfold updOp; split <;> rfl
@[simp] theorem updOp_boot (s : State) (n : Nat) (f : EngOp → EngOp) : (updOp s n f).boot = s.boot := by unfold updOp; split <;> rfl
@[simp] theorem updOp_ctxs (s : State) (n : Nat) (f : EngOp → EngOp) : (updOp s n f).ctxs = s.ctxs := by unfold updOp; split <;> rfl
@[simp] theorem updOp_grids (s : State) (n : Nat) (f : EngOp → EngOp) : (updOp s n f).grids = s.grids := by unfold updOp; split <;> rfl
@[simp] theorem updOp_clusters (s : State) (n : Nat) (f : EngOp → EngOp) : (updOp s n f).clusters = s.clusters := by unfold updOp; split <;> rfl
@[simp] theorem updOp_die0 (s : State) (n : Nat) (f : EngOp → EngOp) : (updOp s n f).die0 = s.die0 := by unfold updOp; split <;> rfl
@[simp] theorem updOp_die1 (s : State) (n : Nat) (f : EngOp → EngOp) : (updOp s n f).die1 = s.die1 := by unfold updOp; split <;> rfl
@[simp] theorem updOp_mem (s : State) (n : Nat) (f : EngOp → EngOp) : (updOp s n f).mem = s.mem := by unfold updOp; split <;> rfl
@[simp] theorem updOp_poison (s : State) (n : Nat) (f : EngOp → EngOp) : (updOp s n f).poison = s.poison := by unfold updOp; split <;> rfl
@[simp] theorem updOp_cxlDirty (s : State) (n : Nat) (f : EngOp → EngOp) : (updOp s n f).cxlDirty = s.cxlDirty := by unfold updOp; split <;> rfl
@[simp] theorem updOp_cxlHeld (s : State) (n : Nat) (f : EngOp → EngOp) : (updOp s n f).cxlHeld = s.cxlHeld := by unfold updOp; split <;> rfl
@[simp] theorem updOp_cxlPoison (s : State) (n : Nat) (f : EngOp → EngOp) : (updOp s n f).cxlPoison = s.cxlPoison := by unfold updOp; split <;> rfl
@[simp] theorem updOp_peerMem (s : State) (n : Nat) (f : EngOp → EngOp) : (updOp s n f).peerMem = s.peerMem := by unfold updOp; split <;> rfl
@[simp] theorem updOp_peerEpochs (s : State) (n : Nat) (f : EngOp → EngOp) : (updOp s n f).peerEpochs = s.peerEpochs := by unfold updOp; split <;> rfl
@[simp] theorem updOp_pages (s : State) (n : Nat) (f : EngOp → EngOp) : (updOp s n f).pages = s.pages := by unfold updOp; split <;> rfl
@[simp] theorem updOp_pageGens (s : State) (n : Nat) (f : EngOp → EngOp) : (updOp s n f).pageGens = s.pageGens := by unfold updOp; split <;> rfl
@[simp] theorem updOp_nextOp (s : State) (n : Nat) (f : EngOp → EngOp) : (updOp s n f).nextOp = s.nextOp := by unfold updOp; split <;> rfl
@[simp] theorem updOp_staging (s : State) (n : Nat) (f : EngOp → EngOp) : (updOp s n f).staging = s.staging := by unfold updOp; split <;> rfl
@[simp] theorem updOp_groups (s : State) (n : Nat) (f : EngOp → EngOp) : (updOp s n f).groups = s.groups := by unfold updOp; split <;> rfl
@[simp] theorem updOp_bindings (s : State) (n : Nat) (f : EngOp → EngOp) : (updOp s n f).bindings = s.bindings := by unfold updOp; split <;> rfl
@[simp] theorem updOp_conns (s : State) (n : Nat) (f : EngOp → EngOp) : (updOp s n f).conns = s.conns := by unfold updOp; split <;> rfl
@[simp] theorem updOp_churns (s : State) (n : Nat) (f : EngOp → EngOp) : (updOp s n f).churns = s.churns := by unfold updOp; split <;> rfl
@[simp] theorem updOp_eth (s : State) (n : Nat) (f : EngOp → EngOp) : (updOp s n f).eth = s.eth := by unfold updOp; split <;> rfl
@[simp] theorem updOp_ua (s : State) (n : Nat) (f : EngOp → EngOp) : (updOp s n f).ua = s.ua := by unfold updOp; split <;> rfl
@[simp] theorem updOp_cxl (s : State) (n : Nat) (f : EngOp → EngOp) : (updOp s n f).cxl = s.cxl := by unfold updOp; split <;> rfl
@[simp] theorem updOp_ckpt (s : State) (n : Nat) (f : EngOp → EngOp) : (updOp s n f).ckpt = s.ckpt := by unfold updOp; split <;> rfl
@[simp] theorem updOp_loads (s : State) (n : Nat) (f : EngOp → EngOp) : (updOp s n f).loads = s.loads := by unfold updOp; split <;> rfl
@[simp] theorem updOp_lastPlaced (s : State) (n : Nat) (f : EngOp → EngOp) : (updOp s n f).lastPlaced = s.lastPlaced := by unfold updOp; split <;> rfl
@[simp] theorem updOp_popped (s : State) (n : Nat) (f : EngOp → EngOp) : (updOp s n f).popped = s.popped := by unfold updOp; split <;> rfl
@[simp] theorem updOp_turn (s : State) (n : Nat) (f : EngOp → EngOp) : (updOp s n f).turn = s.turn := by unfold updOp; split <;> rfl
@[simp] theorem updOp_picks (s : State) (n : Nat) (f : EngOp → EngOp) : (updOp s n f).picks = s.picks := by unfold updOp; split <;> rfl
@[simp] theorem updOp_issue (s : State) (n : Nat) (f : EngOp → EngOp) : (updOp s n f).issue = s.issue := by unfold updOp; split <;> rfl
@[simp] theorem updOp_inputs (s : State) (n : Nat) (f : EngOp → EngOp) : (updOp s n f).inputs = s.inputs := by unfold updOp; split <;> rfl
@[simp] theorem updOp_commands (s : State) (n : Nat) (f : EngOp → EngOp) : (updOp s n f).commands = s.commands := by unfold updOp; split <;> rfl
@[simp] theorem updOp_events (s : State) (n : Nat) (f : EngOp → EngOp) : (updOp s n f).events = s.events := by unfold updOp; split <;> rfl
@[simp] theorem updOp_egress (s : State) (n : Nat) (f : EngOp → EngOp) : (updOp s n f).egress = s.egress := by unfold updOp; split <;> rfl
@[simp] theorem updOp_fresh (s : State) (n : Nat) (f : EngOp → EngOp) : (updOp s n f).fresh = s.fresh := by unfold updOp; split <;> rfl

@[simp] theorem updGrid_cycle (s : State) (x g : Nat) (f : Grid → Grid) : (updGrid s x g f).cycle = s.cycle := rfl
@[simp] theorem updGrid_boot (s : State) (x g : Nat) (f : Grid → Grid) : (updGrid s x g f).boot = s.boot := rfl
@[simp] theorem updGrid_ctxs (s : State) (x g : Nat) (f : Grid → Grid) : (updGrid s x g f).ctxs = s.ctxs := rfl
@[simp] theorem updGrid_clusters (s : State) (x g : Nat) (f : Grid → Grid) : (updGrid s x g f).clusters = s.clusters := rfl
@[simp] theorem updGrid_die0 (s : State) (x g : Nat) (f : Grid → Grid) : (updGrid s x g f).die0 = s.die0 := rfl
@[simp] theorem updGrid_die1 (s : State) (x g : Nat) (f : Grid → Grid) : (updGrid s x g f).die1 = s.die1 := rfl
@[simp] theorem updGrid_mem (s : State) (x g : Nat) (f : Grid → Grid) : (updGrid s x g f).mem = s.mem := rfl
@[simp] theorem updGrid_poison (s : State) (x g : Nat) (f : Grid → Grid) : (updGrid s x g f).poison = s.poison := rfl
@[simp] theorem updGrid_cxlDirty (s : State) (x g : Nat) (f : Grid → Grid) : (updGrid s x g f).cxlDirty = s.cxlDirty := rfl
@[simp] theorem updGrid_cxlHeld (s : State) (x g : Nat) (f : Grid → Grid) : (updGrid s x g f).cxlHeld = s.cxlHeld := rfl
@[simp] theorem updGrid_cxlPoison (s : State) (x g : Nat) (f : Grid → Grid) : (updGrid s x g f).cxlPoison = s.cxlPoison := rfl
@[simp] theorem updGrid_peerMem (s : State) (x g : Nat) (f : Grid → Grid) : (updGrid s x g f).peerMem = s.peerMem := rfl
@[simp] theorem updGrid_peerEpochs (s : State) (x g : Nat) (f : Grid → Grid) : (updGrid s x g f).peerEpochs = s.peerEpochs := rfl
@[simp] theorem updGrid_pages (s : State) (x g : Nat) (f : Grid → Grid) : (updGrid s x g f).pages = s.pages := rfl
@[simp] theorem updGrid_pageGens (s : State) (x g : Nat) (f : Grid → Grid) : (updGrid s x g f).pageGens = s.pageGens := rfl
@[simp] theorem updGrid_ops (s : State) (x g : Nat) (f : Grid → Grid) : (updGrid s x g f).ops = s.ops := rfl
@[simp] theorem updGrid_nextOp (s : State) (x g : Nat) (f : Grid → Grid) : (updGrid s x g f).nextOp = s.nextOp := rfl
@[simp] theorem updGrid_staging (s : State) (x g : Nat) (f : Grid → Grid) : (updGrid s x g f).staging = s.staging := rfl
@[simp] theorem updGrid_groups (s : State) (x g : Nat) (f : Grid → Grid) : (updGrid s x g f).groups = s.groups := rfl
@[simp] theorem updGrid_bindings (s : State) (x g : Nat) (f : Grid → Grid) : (updGrid s x g f).bindings = s.bindings := rfl
@[simp] theorem updGrid_conns (s : State) (x g : Nat) (f : Grid → Grid) : (updGrid s x g f).conns = s.conns := rfl
@[simp] theorem updGrid_churns (s : State) (x g : Nat) (f : Grid → Grid) : (updGrid s x g f).churns = s.churns := rfl
@[simp] theorem updGrid_eth (s : State) (x g : Nat) (f : Grid → Grid) : (updGrid s x g f).eth = s.eth := rfl
@[simp] theorem updGrid_ua (s : State) (x g : Nat) (f : Grid → Grid) : (updGrid s x g f).ua = s.ua := rfl
@[simp] theorem updGrid_cxl (s : State) (x g : Nat) (f : Grid → Grid) : (updGrid s x g f).cxl = s.cxl := rfl
@[simp] theorem updGrid_ckpt (s : State) (x g : Nat) (f : Grid → Grid) : (updGrid s x g f).ckpt = s.ckpt := rfl
@[simp] theorem updGrid_loads (s : State) (x g : Nat) (f : Grid → Grid) : (updGrid s x g f).loads = s.loads := rfl
@[simp] theorem updGrid_lastPlaced (s : State) (x g : Nat) (f : Grid → Grid) : (updGrid s x g f).lastPlaced = s.lastPlaced := rfl
@[simp] theorem updGrid_popped (s : State) (x g : Nat) (f : Grid → Grid) : (updGrid s x g f).popped = s.popped := rfl
@[simp] theorem updGrid_turn (s : State) (x g : Nat) (f : Grid → Grid) : (updGrid s x g f).turn = s.turn := rfl
@[simp] theorem updGrid_picks (s : State) (x g : Nat) (f : Grid → Grid) : (updGrid s x g f).picks = s.picks := rfl
@[simp] theorem updGrid_issue (s : State) (x g : Nat) (f : Grid → Grid) : (updGrid s x g f).issue = s.issue := rfl
@[simp] theorem updGrid_inputs (s : State) (x g : Nat) (f : Grid → Grid) : (updGrid s x g f).inputs = s.inputs := rfl
@[simp] theorem updGrid_commands (s : State) (x g : Nat) (f : Grid → Grid) : (updGrid s x g f).commands = s.commands := rfl
@[simp] theorem updGrid_events (s : State) (x g : Nat) (f : Grid → Grid) : (updGrid s x g f).events = s.events := rfl
@[simp] theorem updGrid_egress (s : State) (x g : Nat) (f : Grid → Grid) : (updGrid s x g f).egress = s.egress := rfl
@[simp] theorem updGrid_fresh (s : State) (x g : Nat) (f : Grid → Grid) : (updGrid s x g f).fresh = s.fresh := rfl

@[simp] theorem emit_cycle (s : State) (e : DriverEvent) : (emit s e).cycle = s.cycle := rfl
@[simp] theorem emit_boot (s : State) (e : DriverEvent) : (emit s e).boot = s.boot := rfl
@[simp] theorem emit_ctxs (s : State) (e : DriverEvent) : (emit s e).ctxs = s.ctxs := rfl
@[simp] theorem emit_grids (s : State) (e : DriverEvent) : (emit s e).grids = s.grids := rfl
@[simp] theorem emit_clusters (s : State) (e : DriverEvent) : (emit s e).clusters = s.clusters := rfl
@[simp] theorem emit_die0 (s : State) (e : DriverEvent) : (emit s e).die0 = s.die0 := rfl
@[simp] theorem emit_die1 (s : State) (e : DriverEvent) : (emit s e).die1 = s.die1 := rfl
@[simp] theorem emit_mem (s : State) (e : DriverEvent) : (emit s e).mem = s.mem := rfl
@[simp] theorem emit_poison (s : State) (e : DriverEvent) : (emit s e).poison = s.poison := rfl
@[simp] theorem emit_cxlDirty (s : State) (e : DriverEvent) : (emit s e).cxlDirty = s.cxlDirty := rfl
@[simp] theorem emit_cxlHeld (s : State) (e : DriverEvent) : (emit s e).cxlHeld = s.cxlHeld := rfl
@[simp] theorem emit_cxlPoison (s : State) (e : DriverEvent) : (emit s e).cxlPoison = s.cxlPoison := rfl
@[simp] theorem emit_peerMem (s : State) (e : DriverEvent) : (emit s e).peerMem = s.peerMem := rfl
@[simp] theorem emit_peerEpochs (s : State) (e : DriverEvent) : (emit s e).peerEpochs = s.peerEpochs := rfl
@[simp] theorem emit_pages (s : State) (e : DriverEvent) : (emit s e).pages = s.pages := rfl
@[simp] theorem emit_pageGens (s : State) (e : DriverEvent) : (emit s e).pageGens = s.pageGens := rfl
@[simp] theorem emit_ops (s : State) (e : DriverEvent) : (emit s e).ops = s.ops := rfl
@[simp] theorem emit_nextOp (s : State) (e : DriverEvent) : (emit s e).nextOp = s.nextOp := rfl
@[simp] theorem emit_staging (s : State) (e : DriverEvent) : (emit s e).staging = s.staging := rfl
@[simp] theorem emit_groups (s : State) (e : DriverEvent) : (emit s e).groups = s.groups := rfl
@[simp] theorem emit_bindings (s : State) (e : DriverEvent) : (emit s e).bindings = s.bindings := rfl
@[simp] theorem emit_conns (s : State) (e : DriverEvent) : (emit s e).conns = s.conns := rfl
@[simp] theorem emit_churns (s : State) (e : DriverEvent) : (emit s e).churns = s.churns := rfl
@[simp] theorem emit_eth (s : State) (e : DriverEvent) : (emit s e).eth = s.eth := rfl
@[simp] theorem emit_ua (s : State) (e : DriverEvent) : (emit s e).ua = s.ua := rfl
@[simp] theorem emit_cxl (s : State) (e : DriverEvent) : (emit s e).cxl = s.cxl := rfl
@[simp] theorem emit_ckpt (s : State) (e : DriverEvent) : (emit s e).ckpt = s.ckpt := rfl
@[simp] theorem emit_loads (s : State) (e : DriverEvent) : (emit s e).loads = s.loads := rfl
@[simp] theorem emit_lastPlaced (s : State) (e : DriverEvent) : (emit s e).lastPlaced = s.lastPlaced := rfl
@[simp] theorem emit_popped (s : State) (e : DriverEvent) : (emit s e).popped = s.popped := rfl
@[simp] theorem emit_turn (s : State) (e : DriverEvent) : (emit s e).turn = s.turn := rfl
@[simp] theorem emit_picks (s : State) (e : DriverEvent) : (emit s e).picks = s.picks := rfl
@[simp] theorem emit_issue (s : State) (e : DriverEvent) : (emit s e).issue = s.issue := rfl
@[simp] theorem emit_inputs (s : State) (e : DriverEvent) : (emit s e).inputs = s.inputs := rfl
@[simp] theorem emit_commands (s : State) (e : DriverEvent) : (emit s e).commands = s.commands := rfl
@[simp] theorem emit_egress (s : State) (e : DriverEvent) : (emit s e).egress = s.egress := rfl
@[simp] theorem emit_fresh (s : State) (e : DriverEvent) : (emit s e).fresh = s.fresh := rfl

@[simp] theorem send_cycle (s : State) (e : Egress) : (send s e).cycle = s.cycle := rfl
@[simp] theorem send_boot (s : State) (e : Egress) : (send s e).boot = s.boot := rfl
@[simp] theorem send_ctxs (s : State) (e : Egress) : (send s e).ctxs = s.ctxs := rfl
@[simp] theorem send_grids (s : State) (e : Egress) : (send s e).grids = s.grids := rfl
@[simp] theorem send_clusters (s : State) (e : Egress) : (send s e).clusters = s.clusters := rfl
@[simp] theorem send_die0 (s : State) (e : Egress) : (send s e).die0 = s.die0 := rfl
@[simp] theorem send_die1 (s : State) (e : Egress) : (send s e).die1 = s.die1 := rfl
@[simp] theorem send_mem (s : State) (e : Egress) : (send s e).mem = s.mem := rfl
@[simp] theorem send_poison (s : State) (e : Egress) : (send s e).poison = s.poison := rfl
@[simp] theorem send_cxlDirty (s : State) (e : Egress) : (send s e).cxlDirty = s.cxlDirty := rfl
@[simp] theorem send_cxlHeld (s : State) (e : Egress) : (send s e).cxlHeld = s.cxlHeld := rfl
@[simp] theorem send_cxlPoison (s : State) (e : Egress) : (send s e).cxlPoison = s.cxlPoison := rfl
@[simp] theorem send_peerMem (s : State) (e : Egress) : (send s e).peerMem = s.peerMem := rfl
@[simp] theorem send_peerEpochs (s : State) (e : Egress) : (send s e).peerEpochs = s.peerEpochs := rfl
@[simp] theorem send_pages (s : State) (e : Egress) : (send s e).pages = s.pages := rfl
@[simp] theorem send_pageGens (s : State) (e : Egress) : (send s e).pageGens = s.pageGens := rfl
@[simp] theorem send_ops (s : State) (e : Egress) : (send s e).ops = s.ops := rfl
@[simp] theorem send_nextOp (s : State) (e : Egress) : (send s e).nextOp = s.nextOp := rfl
@[simp] theorem send_staging (s : State) (e : Egress) : (send s e).staging = s.staging := rfl
@[simp] theorem send_groups (s : State) (e : Egress) : (send s e).groups = s.groups := rfl
@[simp] theorem send_bindings (s : State) (e : Egress) : (send s e).bindings = s.bindings := rfl
@[simp] theorem send_conns (s : State) (e : Egress) : (send s e).conns = s.conns := rfl
@[simp] theorem send_churns (s : State) (e : Egress) : (send s e).churns = s.churns := rfl
@[simp] theorem send_eth (s : State) (e : Egress) : (send s e).eth = s.eth := rfl
@[simp] theorem send_ua (s : State) (e : Egress) : (send s e).ua = s.ua := rfl
@[simp] theorem send_cxl (s : State) (e : Egress) : (send s e).cxl = s.cxl := rfl
@[simp] theorem send_ckpt (s : State) (e : Egress) : (send s e).ckpt = s.ckpt := rfl
@[simp] theorem send_loads (s : State) (e : Egress) : (send s e).loads = s.loads := rfl
@[simp] theorem send_lastPlaced (s : State) (e : Egress) : (send s e).lastPlaced = s.lastPlaced := rfl
@[simp] theorem send_popped (s : State) (e : Egress) : (send s e).popped = s.popped := rfl
@[simp] theorem send_turn (s : State) (e : Egress) : (send s e).turn = s.turn := rfl
@[simp] theorem send_picks (s : State) (e : Egress) : (send s e).picks = s.picks := rfl
@[simp] theorem send_issue (s : State) (e : Egress) : (send s e).issue = s.issue := rfl
@[simp] theorem send_inputs (s : State) (e : Egress) : (send s e).inputs = s.inputs := rfl
@[simp] theorem send_commands (s : State) (e : Egress) : (send s e).commands = s.commands := rfl
@[simp] theorem send_events (s : State) (e : Egress) : (send s e).events = s.events := rfl
@[simp] theorem send_fresh (s : State) (e : Egress) : (send s e).fresh = s.fresh := rfl

@[simp] theorem bump_cycle (s : State) : (bump s).cycle = s.cycle := rfl
@[simp] theorem bump_boot (s : State) : (bump s).boot = s.boot := rfl
@[simp] theorem bump_ctxs (s : State) : (bump s).ctxs = s.ctxs := rfl
@[simp] theorem bump_grids (s : State) : (bump s).grids = s.grids := rfl
@[simp] theorem bump_clusters (s : State) : (bump s).clusters = s.clusters := rfl
@[simp] theorem bump_die0 (s : State) : (bump s).die0 = s.die0 := rfl
@[simp] theorem bump_die1 (s : State) : (bump s).die1 = s.die1 := rfl
@[simp] theorem bump_mem (s : State) : (bump s).mem = s.mem := rfl
@[simp] theorem bump_poison (s : State) : (bump s).poison = s.poison := rfl
@[simp] theorem bump_cxlDirty (s : State) : (bump s).cxlDirty = s.cxlDirty := rfl
@[simp] theorem bump_cxlHeld (s : State) : (bump s).cxlHeld = s.cxlHeld := rfl
@[simp] theorem bump_cxlPoison (s : State) : (bump s).cxlPoison = s.cxlPoison := rfl
@[simp] theorem bump_peerMem (s : State) : (bump s).peerMem = s.peerMem := rfl
@[simp] theorem bump_peerEpochs (s : State) : (bump s).peerEpochs = s.peerEpochs := rfl
@[simp] theorem bump_pages (s : State) : (bump s).pages = s.pages := rfl
@[simp] theorem bump_pageGens (s : State) : (bump s).pageGens = s.pageGens := rfl
@[simp] theorem bump_ops (s : State) : (bump s).ops = s.ops := rfl
@[simp] theorem bump_nextOp (s : State) : (bump s).nextOp = s.nextOp := rfl
@[simp] theorem bump_staging (s : State) : (bump s).staging = s.staging := rfl
@[simp] theorem bump_groups (s : State) : (bump s).groups = s.groups := rfl
@[simp] theorem bump_bindings (s : State) : (bump s).bindings = s.bindings := rfl
@[simp] theorem bump_conns (s : State) : (bump s).conns = s.conns := rfl
@[simp] theorem bump_churns (s : State) : (bump s).churns = s.churns := rfl
@[simp] theorem bump_eth (s : State) : (bump s).eth = s.eth := rfl
@[simp] theorem bump_ua (s : State) : (bump s).ua = s.ua := rfl
@[simp] theorem bump_cxl (s : State) : (bump s).cxl = s.cxl := rfl
@[simp] theorem bump_ckpt (s : State) : (bump s).ckpt = s.ckpt := rfl
@[simp] theorem bump_loads (s : State) : (bump s).loads = s.loads := rfl
@[simp] theorem bump_lastPlaced (s : State) : (bump s).lastPlaced = s.lastPlaced := rfl
@[simp] theorem bump_popped (s : State) : (bump s).popped = s.popped := rfl
@[simp] theorem bump_turn (s : State) : (bump s).turn = s.turn := rfl
@[simp] theorem bump_picks (s : State) : (bump s).picks = s.picks := rfl
@[simp] theorem bump_issue (s : State) : (bump s).issue = s.issue := rfl
@[simp] theorem bump_inputs (s : State) : (bump s).inputs = s.inputs := rfl
@[simp] theorem bump_commands (s : State) : (bump s).commands = s.commands := rfl
@[simp] theorem bump_events (s : State) : (bump s).events = s.events := rfl
@[simp] theorem bump_egress (s : State) : (bump s).egress = s.egress := rfl

/-! Clusters, teams and crews read back. -/

@[simp] theorem clusterOf_setCluster (s : State) (x : Nat) (c : Cluster) : clusterOf (setCluster s x c) x = c := by
  simp [clusterOf, setCluster]

theorem clusterOf_setCluster_other (s : State) {x y : Nat} (c : Cluster) (h : y ≠ x) :
    clusterOf (setCluster s x c) y = clusterOf s y := by
  simp [clusterOf, setCluster, look_put_other c h]

@[simp] theorem clusterOf_updCluster (s : State) (x : Nat) (f : Cluster → Cluster) :
    clusterOf (updCluster s x f) x = f (clusterOf s x) := clusterOf_setCluster s x _

theorem clusterOf_updCluster_other (s : State) {x y : Nat} (f : Cluster → Cluster) (h : y ≠ x) :
    clusterOf (updCluster s x f) y = clusterOf s y := clusterOf_setCluster_other s _ h

theorem put_put {α : Type} (k : Nat) (v w : α) : ∀ (l : List (Nat × α)), put (put l k v) k w = put l k w
  | [] => by simp [put]
  | (a, u) :: t => by
    by_cases h : k < a
    · simp [put, h]
    · by_cases e : k = a
      · subst e; simp [put]
      · simp [put, h, e, put_put k v w t]

@[simp] theorem setCluster_setCluster (s : State) (x : Nat) (c d : Cluster) :
    setCluster (setCluster s x c) x d = setCluster s x d := by simp [setCluster, put_put]

@[simp] theorem updCluster_setCluster (s : State) (x : Nat) (c : Cluster) (f : Cluster → Cluster) :
    updCluster (setCluster s x c) x f = setCluster s x (f c) := by simp [updCluster]

theorem modAt_modAt {α : Type} (f g : α → α) : ∀ (l : List α) (i : Nat), modAt (modAt l i f) i g = modAt l i (fun x => g (f x))
  | [], _ => rfl
  | _ :: _, 0 => rfl
  | a :: t, i + 1 => by simp [modAt, modAt_modAt f g t i]

theorem modAt_congr {α : Type} {f g : α → α} : ∀ {l : List α} {i : Nat} {a : α}, l[i]? = some a → f a = g a → modAt l i f = modAt l i g
  | [], _, _, h, _ => by simp at h
  | b :: t, 0, a, h, e => by simp at h; subst h; simp [modAt, e]
  | b :: t, i + 1, a, h, e => by
    simp only [List.getElem?_cons_succ] at h
    simp [modAt, modAt_congr h e]

/-- `x` is `s` but for the registers `rf` of the cluster and the crew `c`; a team that no setter has touched stands as
it stood. -/
def Shape (s : State) (r : CrewRef) (t : Team) (x : State) (rf : Cells 32) (c : Crew) : Prop :=
  (x = s ∧ rf = (clusterOf s r.cl).rf ∧ t.crews[r.cr]? = some c)
    ∨ (x = setCluster s r.cl { clusterOf s r.cl with rf := rf } ∧ t.crews[r.cr]? = some c) ∨ x = onCrew s r t rf c

section
variable {s x : State} {r : CrewRef} {t : Team} {rf : Cells 32} {c c0 : Crew}

theorem modAt_const_get {α : Type} {l : List α} {i : Nat} {a : α} (h : l[i]? = some a) (b : α) :
    (modAt l i (fun _ => b))[i]? = some b := by rw [modAt_get_same, h]; rfl

theorem teamOf_onCrew : teamOf (onCrew s r t rf c) r.cl r.ts = some { t with crews := modAt t.crews r.cr (fun _ => c) } := by
  simp [teamOf, onCrew]

theorem crewOf_onCrew (hc : t.crews[r.cr]? = some c0) : crewOf (onCrew s r t rf c) r = some c := by
  simp [crewOf, teamOf_onCrew, modAt_const_get hc]

@[simp] theorem onCrew_rf : (clusterOf (onCrew s r t rf c) r.cl).rf = rf := by simp [onCrew]

theorem Shape.crew (ht : teamOf s r.cl r.ts = some t) (hc : t.crews[r.cr]? = some c0) (h : Shape s r t x rf c) :
    crewOf x r = some c := by
  rcases h with ⟨rfl, _, h⟩ | ⟨rfl, h⟩ | rfl
  · simp [crewOf, ht, h]
  · have : teamOf (setCluster s r.cl { clusterOf s r.cl with rf := rf }) r.cl r.ts = some t := by simpa [teamOf] using ht
    simp [crewOf, this, h]
  · exact crewOf_onCrew hc

theorem Shape.regs (h : Shape s r t x rf c) : (clusterOf x r.cl).rf = rf := by
  rcases h with ⟨rfl, h, _⟩ | ⟨rfl, _⟩ | rfl
  · exact h.symm
  · simp
  · simp

/-- A change of the crew. -/
theorem Shape.upd (ht : teamOf s r.cl r.ts = some t) (h : Shape s r t x rf c) (f : Crew → Crew) :
    updCrew x r f = onCrew s r t rf (f c) := by
  rcases h with ⟨rfl, rfl, h⟩ | ⟨rfl, h⟩ | rfl
  · simp only [updCrew, updTeam, ht, setTeam, updCluster, onCrew]
    rw [modAt_congr (g := fun _ => f c) h rfl]
  · have ht' : teamOf (setCluster s r.cl { clusterOf s r.cl with rf := rf }) r.cl r.ts = some t := by simpa [teamOf] using ht
    simp only [updCrew, updTeam, ht', setTeam, updCluster, onCrew, clusterOf_setCluster, setCluster_setCluster]
    rw [modAt_congr (g := fun _ => f c) h rfl]
  · simp only [updCrew, updTeam, teamOf_onCrew, setTeam, updCluster]
    simp only [onCrew, clusterOf_setCluster, setCluster_setCluster, put_put, modAt_modAt]

theorem Shape.upd' (ht : teamOf s r.cl r.ts = some t) (h : Shape s r t x rf c) (f : Crew → Crew) :
    Shape s r t (updCrew x r f) rf (f c) := .inr (.inr (h.upd ht f))

/-- A write of a g-register. -/
theorem Shape.setG (ht : teamOf s r.cl r.ts = some t) (hc : t.crews[r.cr]? = some c0) (h : Shape s r t x rf c)
    (i n : Nat) (v : W32) : Shape s r t (setG x r i n v) (cWrite rf (regNo c i n) v) c := by
  have e := h.crew ht hc
  rcases h with ⟨rfl, rfl, h⟩ | ⟨rfl, h⟩ | rfl
  · exact .inr (.inl ⟨by simp only [Machine.setG, e, updCluster], h⟩)
  · exact .inr (.inl ⟨by simp only [Machine.setG, e, updCluster, clusterOf_setCluster, setCluster_setCluster], h⟩)
  · right; right
    simp only [Machine.setG, e, updCluster]
    simp only [onCrew, clusterOf_setCluster, setCluster_setCluster]

end

end Sys2Proof.Machine
end

