-- ==== Sys2Proof/Laws/Results.lean ====
section
/-! SUPPORT. Laws of results: what `finishWord` and `finishPend` do when every fibre completes. -/

namespace Sys2Proof.Machine

/-! Slots. -/

theorem mem_maskSlots {m : W32} {i : Nat} : i ∈ maskSlots m ↔ i < 32 ∧ m.getLsbD i = true := by simp [maskSlots]

theorem maskSlots_nodup (m : W32) : (maskSlots m).Nodup := List.Nodup.sublist List.filter_sublist List.nodup_range

theorem active_nodup (a : At) (g : Guard) : (active a g).Nodup := List.Nodup.sublist List.filter_sublist (maskSlots_nodup _)

theorem mask_ne_zero_of_active {a : At} {g : Guard} (h : active a g ≠ []) : a.b.mask ≠ 0#32 := by
  intro e
  apply h
  simp [active, At.slots, e, maskSlots]

/-! Predicates (R12). -/

theorem pRead_pWrite_same (c : Crew) (i n : Nat) (b : Bool) (h : n < 15) : pRead (pWrite c i n b) i n = b := by
  have hn : (n == 15) = false := by simp; omega
  simp only [pRead, pWrite, h, if_true, hn, Bool.false_or, cRead_cWrite_same]
  rw [BitVec.getLsbD_ofNat, testBit_setBit]
  simp; omega

theorem pRead_pWrite_other (c : Crew) (i n j m : Nat) (b : Bool) (h : i ≠ j ∨ n ≠ m) :
    pRead (pWrite c i n b) j m = pRead c j m := by
  unfold pWrite
  split
  · by_cases hij : j = i
    · subst hij
      have hnm : m ≠ n := by
        rcases h with h | h
        · exact absurd rfl h
        · exact h.symm
      simp only [pRead, cRead_cWrite_same]
      rw [BitVec.getLsbD_ofNat, testBit_setBit, if_neg hnm]
      by_cases hm : m < 16
      · simp [hm, BitVec.getLsbD]
      · have : (cRead c.preds j).getLsbD m = false := BitVec.getLsbD_of_ge _ _ (by omega)
        simp [hm, this]
    · simp only [pRead]; rw [cRead_cWrite_other _ _ hij]
  · rfl

/-! The writes of a word, as a list of events on a crew and its registers. -/

inductive WordEv where
  | w (i : Nat) (low : Bool) (x : RegWr)
  | st (bits : Nat)

def evState (r : CrewRef) (s : State) : WordEv → State
  | .w i low x => applyWr s r i low x
  | .st b => orStat s r b

def evPure (p : Cells 32 × Crew) : WordEv → Cells 32 × Crew
  | .w i _ (.g n v) => (cWrite p.1 (regNo p.2 i n) v, p.2)
  | .w _ low (.k n v) => if low then (p.1, { p.2 with k := cWrite p.2.k n v }) else p
  | .w i _ (.p n b) => (p.1, pWrite p.2 i n b)
  | .st b => (p.1, { p.2 with stat := p.2.stat ||| BitVec.ofNat 64 (b % 2 ^ 11) })

def resEvs (i : Nat) (low : Bool) (f : FRes) : List WordEv := f.wr.map (.w i low) ++ [.st f.sticky]

def allEvs (l : List (Nat × FRes)) : List WordEv :=
  match l with
  | [] => []
  | (i, f) :: t => resEvs i true f ++ t.flatMap (fun e => resEvs e.1 false e.2)

theorem applyRes_eq (s : State) (r : CrewRef) (i : Nat) (low : Bool) (f : FRes) :
    applyRes s r i low f = (resEvs i low f).foldl (evState r) s := by
  simp [applyRes, resEvs, List.foldl_append, List.foldl_map, evState]

theorem applyAll_eq (s : State) (r : CrewRef) (l : List (Nat × FRes)) : applyAll s r l = (allEvs l).foldl (evState r) s := by
  cases l with
  | nil => rfl
  | cons x t =>
    obtain ⟨i, f⟩ := x
    simp only [applyAll, allEvs, List.foldl_append, ← applyRes_eq]
    generalize applyRes s r i true f = u
    induction t generalizing u with
    | nil => rfl
    | cons y t ih => simp only [List.foldl_cons, List.flatMap_cons, List.foldl_append, ← applyRes_eq, ih]

theorem evPure_geom (p : Cells 32 × Crew) (e : WordEv) : (evPure p e).2.base = p.2.base ∧ (evPure p e).2.win = p.2.win := by
  unfold evPure pWrite
  split <;> (try split) <;> simp

theorem foldl_evPure_geom (E : List WordEv) : ∀ p : Cells 32 × Crew,
    (E.foldl evPure p).2.base = p.2.base ∧ (E.foldl evPure p).2.win = p.2.win := by
  induction E with
  | nil => intro p; exact ⟨rfl, rfl⟩
  | cons e E ih => intro p; have h := ih (evPure p e); have g := evPure_geom p e; simp only [List.foldl_cons]; exact ⟨h.1.trans g.1, h.2.trans g.2⟩

theorem regNo_congr {c d : Crew} (hb : c.base = d.base) (hw : c.win = d.win) (i n : Nat) : regNo c i n = regNo d i n := by
  simp [regNo, hb, hw]

theorem Shape.ev {s x : State} {r : CrewRef} {t : Team} {c0 : Crew} {p : Cells 32 × Crew}
    (ht : teamOf s r.cl r.ts = some t) (hc : t.crews[r.cr]? = some c0) (h : Shape s r t x p.1 p.2) (e : WordEv) :
    Shape s r t (evState r x e) (evPure p e).1 (evPure p e).2 := by
  cases e with
  | st b => exact h.upd' ht _
  | w i low w =>
    cases w with
    | g n v => exact h.setG ht hc i n v
    | k n v =>
      cases low
      · exact h
      · exact h.upd' ht _
    | p n b => exact h.upd' ht _

theorem Shape.evs {s : State} {r : CrewRef} {t : Team} {c0 : Crew} (ht : teamOf s r.cl r.ts = some t)
    (hc : t.crews[r.cr]? = some c0) (E : List WordEv) : ∀ {x : State} {p : Cells 32 × Crew}, Shape s r t x p.1 p.2 →
    Shape s r t (E.foldl (evState r) x) (E.foldl evPure p).1 (E.foldl evPure p).2 := by
  induction E with
  | nil => intro x p h; exact h
  | cons e E ih => intro x p h; exact ih (h.ev ht hc e)

/-! What a list of events leaves. -/

/-- Every write that names the key writes `v`: the key reads as `v`, or as before when none names it. -/
theorem evs_rf (c : Crew) (key : Nat) (v : W32) (E : List WordEv) : ∀ p : Cells 32 × Crew, p.2.base = c.base → p.2.win = c.win →
    (∀ i low n u, WordEv.w i low (.g n u) ∈ E → regNo c i n = key → u = v) →
    (((∃ i low n u, WordEv.w i low (.g n u) ∈ E ∧ regNo c i n = key) ∨ cRead p.1 key = v) → cRead (E.foldl evPure p).1 key = v)
    ∧ ((∀ i low n u, WordEv.w i low (.g n u) ∈ E → regNo c i n ≠ key) → cRead (E.foldl evPure p).1 key = cRead p.1 key) := by
  induction E with
  | nil => intro p _ _ _; exact ⟨fun h => by rcases h with ⟨_, _, _, _, h, _⟩ | h; · simp at h
                                             · exact h, fun _ => rfl⟩
  | cons e E ih =>
    intro p hb hw hv
    have g := evPure_geom p e
    have ih' := ih (evPure p e) (g.1.trans hb) (g.2.trans hw) (fun i low n u h => hv i low n u (List.mem_cons_of_mem _ h))
    constructor
    · intro h
      apply ih'.1
      by_cases hx : ∃ i low n u, WordEv.w i low (.g n u) ∈ E ∧ regNo c i n = key
      · exact .inl hx
      right
      cases e with
      | st b =>
        rcases h with ⟨i, low, n, u, hm, hk⟩ | h
        · simp at hm; exact absurd ⟨i, low, n, u, hm, hk⟩ hx
        · exact h
      | w i low w =>
        cases w with
        | g n u =>
          have e1 : regNo p.2 i n = regNo c i n := regNo_congr hb hw i n
          simp only [evPure]
          by_cases hk : regNo c i n = key
          · rw [e1, hk, cRead_cWrite_same]; exact hv i low n u (by simp) hk
          · rcases h with ⟨i', low', n', u', hm, hk'⟩ | h
            · simp at hm
              rcases hm with ⟨rfl, -, rfl, -⟩ | hm
              · exact absurd hk' hk
              · exact absurd ⟨i', low', n', u', hm, hk'⟩ hx
            · rw [cRead_cWrite_other _ _ (by rw [e1]; exact fun h => hk h.symm)]; exact h
        | k n u =>
          have : (evPure p (.w i low (.k n u))).1 = p.1 := by simp only [evPure]; split <;> rfl
          rw [this]
          rcases h with ⟨i', low', n', u', hm, hk'⟩ | h
          · simp at hm; exact absurd ⟨i', low', n', u', hm, hk'⟩ hx
          · exact h
        | p n b =>
          rcases h with ⟨i', low', n', u', hm, hk'⟩ | h
          · simp at hm; exact absurd ⟨i', low', n', u', hm, hk'⟩ hx
          · exact h
    · intro h
      rw [List.foldl_cons, ih'.2 (fun i low n u hm => h i low n u (List.mem_cons_of_mem _ hm))]
      cases e with
      | st b => rfl
      | w i low w =>
        cases w with
        | g n u =>
          have e1 : regNo p.2 i n = regNo c i n := regNo_congr hb hw i n
          simp only [evPure]
          exact cRead_cWrite_other _ _ (by rw [e1]; exact fun hk => h i low n u (by simp) hk.symm)
        | k n u => simp only [evPure]; split <;> rfl
        | p n b => rfl

/-- The same for k-registers, which the lowest fibre writes. -/
theorem evs_k (key : Nat) (v : W32) (E : List WordEv) : ∀ p : Cells 32 × Crew,
    (∀ i u, WordEv.w i true (.k key u) ∈ E → u = v) →
    (((∃ i u, WordEv.w i true (.k key u) ∈ E) ∨ cRead p.2.k key = v) → cRead (E.foldl evPure p).2.k key = v)
    ∧ ((∀ i u, WordEv.w i true (.k key u) ∉ E) → cRead (E.foldl evPure p).2.k key = cRead p.2.k key) := by
  induction E with
  | nil => intro p _; exact ⟨fun h => by rcases h with ⟨_, _, h⟩ | h; · simp at h
                                         · exact h, fun _ => rfl⟩
  | cons e E ih =>
    intro p hv
    have ih' := ih (evPure p e) (fun i u h => hv i u (List.mem_cons_of_mem _ h))
    have pw : ∀ (d : Crew) i n b, (pWrite d i n b).k = d.k := by intro d i n b; unfold pWrite; split <;> rfl
    constructor
    · intro h
      apply ih'.1
      by_cases hx : ∃ i u, WordEv.w i true (.k key u) ∈ E
      · exact .inl hx
      right
      cases e with
      | st b =>
        rcases h with ⟨i, u, hm⟩ | h
        · simp at hm; exact absurd ⟨i, u, hm⟩ hx
        · exact h
      | w i low w =>
        cases w with
        | g n u =>
          rcases h with ⟨i, u, hm⟩ | h
          · simp at hm; exact absurd ⟨i, u, hm⟩ hx
          · exact h
        | k n u =>
          cases low
          · rcases h with ⟨i, u, hm⟩ | h
            · simp at hm; exact absurd ⟨i, u, hm⟩ hx
            · exact h
          · simp only [evPure, if_true]
            by_cases hk : key = n
            · subst hk; rw [cRead_cWrite_same]; exact hv i u (by simp)
            · rw [cRead_cWrite_other _ _ hk]
              rcases h with ⟨i', u', hm⟩ | h
              · simp at hm
                rcases hm with ⟨-, rfl, -⟩ | hm
                · exact absurd rfl hk
                · exact absurd ⟨i', u', hm⟩ hx
              · exact h
        | p n b =>
          simp only [evPure, pw]
          rcases h with ⟨i, u, hm⟩ | h
          · simp at hm; exact absurd ⟨i, u, hm⟩ hx
          · exact h
    · intro h
      rw [List.foldl_cons, ih'.2 (fun i u hm => h i u (List.mem_cons_of_mem _ hm))]
      cases e with
      | st b => rfl
      | w i low w =>
        cases w with
        | g n u => rfl
        | k n u =>
          cases low
          · rfl
          · simp only [evPure, if_true]; exact cRead_cWrite_other _ _ (fun hk => h i u (by simp [hk]))
        | p n b => simp only [evPure, pw]

/-- The same for predicates. -/
theorem evs_p (i m : Nat) (v : Bool) (hm15 : m < 15) (E : List WordEv) : ∀ p : Cells 32 × Crew,
    (∀ low u, WordEv.w i low (.p m u) ∈ E → u = v) →
    (((∃ low u, WordEv.w i low (.p m u) ∈ E) ∨ pRead p.2 i m = v) → pRead (E.foldl evPure p).2 i m = v) := by
  induction E with
  | nil => intro p _ h; rcases h with ⟨_, _, h⟩ | h
           · simp at h
           · exact h
  | cons e E ih =>
    intro p hv h
    apply ih (evPure p e) (fun low u h => hv low u (List.mem_cons_of_mem _ h))
    by_cases hx : ∃ low u, WordEv.w i low (.p m u) ∈ E
    · exact .inl hx
    right
    cases e with
    | st b =>
      rcases h with ⟨low, u, hm⟩ | h
      · simp at hm; exact absurd ⟨low, u, hm⟩ hx
      · exact h
    | w j low w =>
      cases w with
      | g n u =>
        rcases h with ⟨low, u, hm⟩ | h
        · simp at hm; exact absurd ⟨low, u, hm⟩ hx
        · exact h
      | k n u =>
        have : pRead (evPure p (.w j low (.k n u))).2 i m = pRead p.2 i m := by simp only [evPure]; split <;> rfl
        rw [this]
        rcases h with ⟨low, u, hm⟩ | h
        · simp at hm; exact absurd ⟨low, u, hm⟩ hx
        · exact h
      | p n b =>
        simp only [evPure]
        by_cases hk : j = i ∧ n = m
        · obtain ⟨rfl, rfl⟩ := hk
          rw [pRead_pWrite_same _ _ _ _ hm15]; exact hv low b (by simp)
        · rw [pRead_pWrite_other _ _ _ _ _ _ (by omega)]
          rcases h with ⟨low', u, hm⟩ | h
          · simp at hm
            rcases hm with ⟨rfl, -, rfl, -⟩ | hm
            · exact absurd ⟨rfl, rfl⟩ hk
            · exact absurd ⟨low', u, hm⟩ hx
          · exact h

theorem evs_p_other (i m : Nat) (E : List WordEv) : ∀ p : Cells 32 × Crew,
    (∀ low u, WordEv.w i low (.p m u) ∉ E) → pRead (E.foldl evPure p).2 i m = pRead p.2 i m := by
  induction E with
  | nil => intro p _; rfl
  | cons e E ih =>
    intro p h
    rw [List.foldl_cons, ih _ (fun low u hm => h low u (List.mem_cons_of_mem _ hm))]
    cases e with
    | st b => rfl
    | w j low w =>
      cases w with
      | g n u => rfl
      | k n u => simp only [evPure]; split <;> rfl
      | p n b =>
        simp only [evPure]
        apply pRead_pWrite_other
        by_cases hj : j = i
        · right; intro hn; exact h low b (by simp [hj, hn])
        · exact .inl hj

theorem pWrite_stat (c : Crew) (i n : Nat) (b : Bool) : (pWrite c i n b).stat = c.stat := by unfold pWrite; split <;> rfl

/-- The status word collects the sticky bits. -/
theorem evs_stat (b : Nat) (E : List WordEv) : ∀ p : Cells 32 × Crew,
    (E.foldl evPure p).2.stat.getLsbD b
      = (p.2.stat.getLsbD b || (decide (b < 11) && E.any (fun e => match e with | .st x => tb x b | _ => false))) := by
  induction E with
  | nil => intro p; simp
  | cons e E ih =>
    intro p
    rw [List.foldl_cons, ih]
    cases e with
    | st x =>
      simp only [evPure, List.any_cons, BitVec.getLsbD_or, BitVec.getLsbD_ofNat, Nat.testBit_mod_two_pow]
      have : (tb x b) = x.testBit b := by simp [tb, Nat.testBit_eq_decide_div_mod_eq]; rfl
      rw [this]
      by_cases hb : b < 11
      · have : b < 64 := by omega
        simp [hb, this, Bool.or_assoc]
      · simp [hb]
    | w j low w =>
      cases w with
      | g n u => simp [evPure]
      | k n u => cases low <;> simp [evPure]
      | p n b' => simp [evPure, pWrite_stat]

/-- The crew but for registers, predicates and the status word stands. -/
theorem evs_rest (E : List WordEv) : ∀ p : Cells 32 × Crew,
    { (E.foldl evPure p).2 with k := p.2.k, preds := p.2.preds, stat := p.2.stat } = p.2 := by
  induction E with
  | nil => intro p; rfl
  | cons e E ih =>
    intro p
    have h := ih (evPure p e)
    have key : ∀ (d : Crew), { d with k := (evPure p e).2.k, preds := (evPure p e).2.preds, stat := (evPure p e).2.stat } = (evPure p e).2 →
        { d with k := p.2.k, preds := p.2.preds, stat := p.2.stat } = p.2 := by
      intro d hd
      have e2 : { (evPure p e).2 with k := p.2.k, preds := p.2.preds, stat := p.2.stat } = p.2 := by
        cases e with
        | st x => rfl
        | w j low w =>
          cases w with
          | g n u => rfl
          | k n u => cases low <;> rfl
          | p n b => simp only [evPure, pWrite]; split <;> rfl
      have e3 := congrArg (fun d : Crew => { d with k := p.2.k, preds := p.2.preds, stat := p.2.stat }) hd
      exact e3.trans e2
    exact key _ h

/-! The yield of a word as fibre results. -/

def Yield.res (y : Yield) (i : Nat) : FRes :=
  { wr := destWr y.d y.n (y.v i) ++ (y.ps i).map (fun e => .p e.1 e.2), sticky := y.st i }

theorem mem_allEvs_g {y : Yield} {act : List Nat} {i n : Nat} {low : Bool} {u : W32} :
    WordEv.w i low (.g n u) ∈ allEvs (act.map (fun i => (i, y.res i))) →
      y.d.cls = .g ∧ i ∈ act ∧ ∃ j < y.n, n = y.d.num + j ∧ u = regWord (y.v i) j := by
  have key : ∀ j lw, WordEv.w i low (.g n u) ∈ resEvs j lw (y.res j) →
      y.d.cls = .g ∧ i = j ∧ ∃ k < y.n, n = y.d.num + k ∧ u = regWord (y.v i) k := by
    intro j lw h
    simp only [resEvs, Yield.res, List.map_append, List.mem_append, List.mem_map, destWr] at h
    rcases h with (⟨x, hx, he⟩ | ⟨x, ⟨e, _, rfl⟩, he⟩) | h
    · simp at he
      obtain ⟨rfl, rfl, rfl⟩ := he
      split at hx
      · next hc =>
        simp at hx
        obtain ⟨k, hk, rfl, rfl⟩ := hx
        exact ⟨hc, rfl, k, hk, rfl, rfl⟩
      · simp at hx
      · simp at hx
      · simp at hx
    · simp at he
    · simp at h
  intro h
  cases act with
  | nil => simp [allEvs] at h
  | cons a t =>
    simp only [List.map_cons, allEvs, List.mem_append, List.mem_flatMap] at h
    rcases h with h | ⟨x, hx, h⟩
    · obtain ⟨h1, rfl, h2⟩ := key _ _ h
      exact ⟨h1, by simp, h2⟩
    · simp only [List.mem_map] at hx
      obtain ⟨j, hj, rfl⟩ := hx
      obtain ⟨h1, rfl, h2⟩ := key _ _ h
      exact ⟨h1, by simp [hj], h2⟩

theorem res_mem_allEvs {y : Yield} {act : List Nat} {i : Nat} (h : i ∈ act) :
    ∃ low, ∀ x ∈ resEvs i low (y.res i), x ∈ allEvs (act.map (fun i => (i, y.res i))) := by
  cases act with
  | nil => simp at h
  | cons a t =>
    simp only [List.map_cons, allEvs, List.mem_append, List.mem_flatMap]
    by_cases e : i = a
    · subst e; exact ⟨true, fun x hx => .inl hx⟩
    · have h : i ∈ t := by simpa [e] using h
      exact ⟨false, fun x hx => .inr ⟨(i, y.res i), List.mem_map.2 ⟨i, h, rfl⟩, hx⟩⟩

theorem mem_allEvs_p {y : Yield} {act : List Nat} {i n : Nat} {low : Bool} {u : Bool} :
    WordEv.w i low (.p n u) ∈ allEvs (act.map (fun i => (i, y.res i))) → i ∈ act ∧ (n, u) ∈ y.preds i := by
  have key : ∀ j lw, WordEv.w i low (.p n u) ∈ resEvs j lw (y.res j) → i = j ∧ (n, u) ∈ y.preds i := by
    intro j lw h
    simp only [resEvs, Yield.res, List.map_append, List.mem_append, List.mem_map, destWr] at h
    rcases h with (⟨x, hx, he⟩ | ⟨x, ⟨e, hm, rfl⟩, he⟩) | h
    · simp at he
      obtain ⟨rfl, rfl, rfl⟩ := he
      split at hx
      · simp at hx
      · simp at hx
      · next hc => simp at hx; refine ⟨rfl, ?_⟩; simp [Yield.preds, hc, hx]
      · simp at hx
    · simp at he
      obtain ⟨rfl, -, rfl, rfl⟩ := he
      refine ⟨rfl, ?_⟩; simp [Yield.preds, hm]
    · simp at h
  intro h
  cases act with
  | nil => simp [allEvs] at h
  | cons a t =>
    simp only [List.map_cons, allEvs, List.mem_append, List.mem_flatMap] at h
    rcases h with h | ⟨x, hx, h⟩
    · obtain ⟨rfl, h2⟩ := key _ _ h
      exact ⟨by simp, h2⟩
    · simp only [List.mem_map] at hx
      obtain ⟨j, hj, rfl⟩ := hx
      obtain ⟨rfl, h2⟩ := key _ _ h
      exact ⟨by simp [hj], h2⟩

theorem pred_mem_resEvs {y : Yield} {i : Nat} {low : Bool} {e : Nat × Bool} (h : e ∈ y.preds i) :
    WordEv.w i low (.p e.1 e.2) ∈ resEvs i low (y.res i) := by
  simp only [resEvs, Yield.res, List.map_append, List.mem_append, List.mem_map]
  simp only [Yield.preds, List.mem_append] at h
  rcases h with h | h
  · split at h
    · next hc => simp at h; subst h; exact .inl (.inl ⟨_, by simp [destWr, hc], rfl⟩)
    · simp at h
  · exact .inl (.inr ⟨_, ⟨e, h, rfl⟩, rfl⟩)

theorem mem_allEvs_k {y : Yield} {act : List Nat} {i n : Nat} {u : W32} :
    WordEv.w i true (.k n u) ∈ allEvs (act.map (fun i => (i, y.res i))) →
      y.d.cls = .k ∧ act.head? = some i ∧ ∃ j < y.n, n = y.d.num + j ∧ u = regWord (y.v i) j := by
  intro h
  cases act with
  | nil => simp [allEvs] at h
  | cons a t =>
    simp only [List.map_cons, allEvs, List.mem_append, List.mem_flatMap] at h
    rcases h with h | ⟨x, hx, h⟩
    · simp only [resEvs, Yield.res, List.map_append, List.mem_append, List.mem_map, destWr] at h
      rcases h with (⟨x, hx, he⟩ | ⟨x, ⟨e, _, rfl⟩, he⟩) | h
      · simp at he
        obtain ⟨rfl, rfl⟩ := he
        split at hx
        · simp at hx
        · next hc =>
          simp at hx
          obtain ⟨k, hk, rfl, rfl⟩ := hx
          exact ⟨hc, rfl, k, hk, rfl, rfl⟩
        · simp at hx
        · simp at hx
      · simp at he
      · simp at h
    · simp [resEvs] at h

theorem any_allEvs {y : Yield} {act : List Nat} {b : Nat} :
    (allEvs (act.map (fun i => (i, y.res i)))).any (fun e => match e with | .st x => tb x b | _ => false)
      = act.any (fun i => tb (y.st i) b) := by
  have key : ∀ j lw, (resEvs j lw (y.res j)).any (fun e => match e with | .st x => tb x b | _ => false) = tb (y.st j) b := by
    intro j lw
    simp only [resEvs, List.any_append, List.any_map]
    have : ((y.res j).wr.any ((fun e => match e with | .st x => tb x b | _ => false) ∘ WordEv.w j lw)) = false := by
      simp [Function.comp_def]
    rw [this]; simp [Yield.res]
  cases act with
  | nil => rfl
  | cons a t =>
    simp only [List.map_cons, allEvs, List.any_append, List.any_cons, key]
    congr 1
    induction t with
    | nil => rfl
    | cons c t ih => simp only [List.map_cons, List.flatMap_cons, List.any_append, key, List.any_cons, ih]

/-! Advance. -/

/-- The end of a clause changes the crew's place in the memory set and its yielding. -/
theorem endClause_keeps (h : W64) (b : Batch) (c d : Crew)
    (e : { c with stat := d.stat, batches := d.batches, cur := d.cur, mem := d.mem, memRow := d.memRow, yields := d.yields } = d) :
    { endClause h b c with stat := d.stat, batches := d.batches, cur := d.cur, mem := d.mem, memRow := d.memRow, yields := d.yields } = d := by
  unfold endClause drainMem
  split
  · exact e
  · split <;> exact e

theorem endClause_memset (h : W64) (b : Batch) (c : Crew) :
    ((endClause h b c).mem, (endClause h b c).memRow) = (c.mem, c.memRow)
      ∨ ((endClause h b c).mem, (endClause h b c).memRow) = (false, 0) := by
  unfold endClause drainMem
  split
  · exact .inl rfl
  · split
    · exact .inr rfl
    · exact .inl rfl

@[simp] theorem endClause_stat (h : W64) (b : Batch) (c : Crew) : (endClause h b c).stat = c.stat := by
  unfold endClause drainMem; split; rfl; split <;> rfl
@[simp] theorem endClause_batches (h : W64) (b : Batch) (c : Crew) : (endClause h b c).batches = c.batches := by
  unfold endClause drainMem; split; rfl; split <;> rfl

/-- Within its clause the batch ends nothing; past it, only the memory set and the yielding may change. -/
theorem endClause_wait (h : W64) (b : Batch) (c : Crew) (hw : b.wait ≠ .drain) :
    endClause h b c = if b.begun then c else { c with yields := c.yields || hdrYield h } := by simp [endClause, drainMem, hw]

theorem advance_keeps (cycle : Nat) (c : Crew) (bi : Nat) :
    { advance cycle c bi with stat := c.stat, batches := c.batches, cur := c.cur, mem := c.mem, memRow := c.memRow, yields := c.yields } = c := by
  unfold advance
  dsimp only
  split
  · rfl
  · split
    · split
      · split
        · rfl
        · exact endClause_keeps _ _ _ _ rfl
      · rfl
    · exact endClause_keeps _ _ _ _ rfl

theorem advance_memset (cycle : Nat) (c : Crew) (bi : Nat) :
    ((advance cycle c bi).mem, (advance cycle c bi).memRow) = (c.mem, c.memRow)
      ∨ ((advance cycle c bi).mem, (advance cycle c bi).memRow) = (false, 0) := by
  unfold advance
  dsimp only
  split
  · exact .inl rfl
  · split
    · split
      · split
        · exact .inl rfl
        · exact endClause_memset _ _ _
      · exact .inl rfl
    · exact endClause_memset _ _ _

theorem advance_stays (cycle : Nat) (c : Crew) (bi : Nat) (b : Batch) (h : c.batches[bi]? = some b) (hr : b.rep = false)
    (hd : (nextWord cycle b).wait ≠ .drain) :
    ((advance cycle c bi).mem, (advance cycle c bi).memRow) = (c.mem, c.memRow) := by
  simp only [advance, h, hr, endClause_wait _ _ _ hd, Bool.false_eq_true, if_false]
  split <;> rfl

theorem advance_yields (cycle : Nat) (c : Crew) (bi : Nat) (b : Batch) (h : c.batches[bi]? = some b) (hr : b.rep = false) :
    (advance cycle c bi).yields = (c.yields || (!(nextWord cycle b).begun && hdrYield b.hdr)) := by
  simp only [advance, h, hr, Bool.false_eq_true, if_false]
  unfold endClause drainMem
  split
  · next e => simp [e]
  · next e => simp only [e, Bool.not_false, Bool.true_and]

theorem advance_stat_low (cycle : Nat) (c : Crew) (bi b : Nat) (hb : b < 45) :
    (advance cycle c bi).stat.getLsbD b = c.stat.getLsbD b := by
  unfold advance
  dsimp only
  split
  · rfl
  · split
    · split
      · split
        · exact withRep_low _ _ _ _ _ _ hb
        · rw [endClause_stat]; exact withRep_low _ _ _ _ _ _ hb
      · rfl
    · rw [endClause_stat]

theorem advance_moves (cycle : Nat) (c : Crew) (bi : Nat) (b : Batch) (h : c.batches[bi]? = some b) (hr : b.rep = false) :
    (advance cycle c bi).batches = modAt c.batches bi (fun _ => nextWord cycle b) := by
  unfold advance
  simp [h, hr]

/-! The issue of a word whose checks pass. -/

theorem issueWord_passes {sp : WordSpec} {s : State} {a : At} (body : At → List Nat → State → State) (h : Passes s a sp) :
    issueWord sp body s = .next (body a (active a sp.gd) s) := by
  have hp : (sp.plain && !guardPlain sp.gd) = false := by
    cases hpl : sp.plain
    · rfl
    · simp [h.plain hpl]
  have hv : (sp.priv && !a.crew.priv) = false := by
    cases hpl : sp.priv
    · rfl
    · simp [h.view hpl]
  have ha : (active a sp.gd).isEmpty = false := by
    cases e : active a sp.gd
    · exact absurd e h.act
    · rfl
  have hr : (sp.rel && unacked s) = false := by
    cases hpl : sp.rel
    · rfl
    · simp [h.acked hpl]
  simp only [issueWord, h.here, h.framed, hp, hv, ha, h.legal, h.free, hr, Bool.not_true, Bool.false_eq_true, if_false]

theorem issuer_parts {s : State} {a : At} (h : issuer s = some a) :
    teamOf s a.ref.cl a.ref.ts = some a.team ∧ a.team.crews[a.ref.cr]? = some a.crew ∧ a.crew.batches[a.bi]? = some a.b := by
  unfold issuer at h
  split at h
  · cases h
  · split at h
    · cases h
    · next ht =>
      split at h
      · cases h
      · next hc =>
        split at h
        · cases h
        · next hb => cases h; exact ⟨ht, hc, hb⟩

/-! The end of a word. -/

theorem okOuts_map (act : List Nat) (w : Nat → FRes) : okOuts (act.map (fun i => (i, .ok (w i)))) = act.map (fun i => (i, w i)) := by
  induction act with
  | nil => rfl
  | cons a t ih => simp only [okOuts, List.map_cons] at ih ⊢; rw [List.filterMap_cons_some (by rfl), ih]

theorem badOuts_map (act : List Nat) (w : Nat → FRes) : badOuts (act.map (fun i => (i, .ok (w i)))) = [] := by
  induction act with
  | nil => rfl
  | cons a t ih => simp only [badOuts, List.map_cons] at ih ⊢; rw [List.filterMap_cons_none (by rfl), ih]

theorem finishFaults_none (s : State) (a : At) (moved : List (Nat × Nat)) (hm : a.b.mask ≠ 0#32) :
    finishFaults s a [] moved = updCrew s a.ref (fun c => advance s.cycle c a.bi) := by
  have e : a.b.mask &&& ~~~(slotsMask (([] : List (Nat × FaultInfo)).map (·.1))) = a.b.mask := by
    show a.b.mask &&& ~~~0#32 = a.b.mask
    rw [BitVec.not_zero, BitVec.and_allOnes]
  have hp : parkFibres s a [] = s := rfl
  simp only [finishFaults, List.filter_nil, e, hm, if_false, hp]
  rfl

theorem evState_cycle (r : CrewRef) (E : List WordEv) : ∀ s : State, (E.foldl (evState r) s).cycle = s.cycle := by
  induction E with
  | nil => intro s; rfl
  | cons e E ih =>
    intro s
    rw [List.foldl_cons, ih]
    cases e with
    | st b => simp [evState]
    | w i low x => cases x <;> simp only [evState, applyWr, setG_cycle, setP_cycle]; split <;> simp

theorem crew_same {p q c : Crew} (h : { q with stat := p.stat, batches := p.batches, cur := p.cur, mem := p.mem, memRow := p.memRow, yields := p.yields } = p)
    (g : { p with k := c.k, preds := c.preds, stat := c.stat } = c) :
    { q with k := c.k, preds := c.preds, stat := c.stat, batches := c.batches, cur := c.cur, mem := c.mem, memRow := c.memRow, yields := c.yields } = c := by
  cases p
  cases c
  simp only [Crew.mk.injEq] at h g ⊢
  simp_all

theorem crew_same' {p q c : Crew} {x : List Pend}
    (h : { q with stat := p.stat, batches := p.batches, cur := p.cur, mem := p.mem, memRow := p.memRow, yields := p.yields } = { p with pend := x })
    (g : { p with k := c.k, preds := c.preds, stat := c.stat } = c) (hk : p.k = c.k) :
    { q with pend := c.pend, preds := c.preds, stat := c.stat, batches := c.batches, cur := c.cur, mem := c.mem, memRow := c.memRow, yields := c.yields } = c := by
  cases p
  cases c
  simp only [Crew.mk.injEq] at h g hk ⊢
  simp_all

/-- A word whose fibres all complete writes its yield and goes on. -/
theorem finishWord_wrote {s : State} {a : At} {act : List Nat} {y : Yield} (hi : issuer s = some a) (hm : a.b.mask ≠ 0#32)
    (hps : ∀ i ∈ act, ∀ e ∈ y.preds i, ∀ e' ∈ y.preds i, e.1 = e'.1 → e = e') :
    Wrote s (finishWord s a (act.map (fun i => (i, .ok (y.res i))))) a act y := by
  obtain ⟨ht, hc, hb⟩ := issuer_parts hi
  unfold finishWord
  rw [okOuts_map, badOuts_map, applyAll_eq]
  generalize hE : allEvs (act.map (fun i => (i, y.res i))) = E
  have sh := Shape.evs ht hc E (x := s) (p := ((clusterOf s a.ref.cl).rf, a.crew)) (.inl ⟨rfl, rfl, hc⟩)
  have fin : finishFaults (E.foldl (evState a.ref) s) a (stampPc a.pc []) [] =
      onCrew s a.ref a.team (E.foldl evPure ((clusterOf s a.ref.cl).rf, a.crew)).1
        (advance s.cycle (E.foldl evPure ((clusterOf s a.ref.cl).rf, a.crew)).2 a.bi) := by
    have : stampPc a.pc [] = [] := rfl
    rw [this, finishFaults_none _ _ _ hm, evState_cycle, sh.upd ht]
  have ak := advance_keeps s.cycle (E.foldl evPure ((clusterOf s a.ref.cl).rf, a.crew)).2 a.bi
  have er := evs_rest E ((clusterOf s a.ref.cl).rf, a.crew)
  have preq : ∀ i m, pRead (advance s.cycle (E.foldl evPure ((clusterOf s a.ref.cl).rf, a.crew)).2 a.bi) i m
      = pRead (E.foldl evPure ((clusterOf s a.ref.cl).rf, a.crew)).2 i m := by
    intro i m
    have h : (advance s.cycle (E.foldl evPure ((clusterOf s a.ref.cl).rf, a.crew)).2 a.bi).preds
        = (E.foldl evPure ((clusterOf s a.ref.cl).rf, a.crew)).2.preds := by have := congrArg Crew.preds ak; exact this
    simp only [pRead, h]
  have keq : (advance s.cycle (E.foldl evPure ((clusterOf s a.ref.cl).rf, a.crew)).2 a.bi).k
      = (E.foldl evPure ((clusterOf s a.ref.cl).rf, a.crew)).2.k := by have := congrArg Crew.k ak; exact this
  have mr : (E.foldl evPure ((clusterOf s a.ref.cl).rf, a.crew)).2.mem = a.crew.mem := by have := congrArg Crew.mem er; exact this
  have mw : (E.foldl evPure ((clusterOf s a.ref.cl).rf, a.crew)).2.memRow = a.crew.memRow := by
    have := congrArg Crew.memRow er; exact this
  refine ⟨_, _, fin, ⟨?_, ?_, ?_, ?_, ?_, ?_, ?_⟩, ?_, ?_, ?_, ?_, ?_⟩
  · intro i hi e he h15
    rw [preq]
    apply evs_p i e.1 e.2 h15 E
    · intro low u hm
      rw [← hE] at hm
      obtain ⟨_, hu⟩ := mem_allEvs_p hm
      have := hps i hi e he (e.1, u) hu rfl
      rw [this]
    · obtain ⟨low, hl⟩ := res_mem_allEvs (y := y) hi
      exact .inl ⟨low, e.2, by rw [← hE]; exact hl _ (pred_mem_resEvs he)⟩
  · intro i m h
    rw [preq]
    apply evs_p_other
    intro low u hm
    rw [← hE] at hm
    obtain ⟨h1, h2⟩ := mem_allEvs_p hm
    exact h h1 _ h2 rfl
  · intro b hb
    rw [advance_stat_low _ _ _ _ hb, evs_stat, ← hE, any_allEvs]
  · intro b hb hr
    have eb : (E.foldl evPure ((clusterOf s a.ref.cl).rf, a.crew)).2.batches = a.crew.batches := by have := congrArg Crew.batches er; exact this
    rw [advance_moves _ _ _ b (by rw [eb]; exact hb) hr, eb]
  · rw [← mr, ← mw]; exact advance_memset _ _ _
  · intro b hb hr hd
    have eb : (E.foldl evPure ((clusterOf s a.ref.cl).rf, a.crew)).2.batches = a.crew.batches := by have := congrArg Crew.batches er; exact this
    rw [← mr, ← mw]
    exact advance_stays _ _ _ b (by rw [eb]; exact hb) hr hd
  · intro b hb hr
    have eb : (E.foldl evPure ((clusterOf s a.ref.cl).rf, a.crew)).2.batches = a.crew.batches := by have := congrArg Crew.batches er; exact this
    have my : (E.foldl evPure ((clusterOf s a.ref.cl).rf, a.crew)).2.yields = a.crew.yields := by have := congrArg Crew.yields er; exact this
    rw [← my]
    exact advance_yields _ _ _ b (by rw [eb]; exact hb) hr
  · intro hg hw i hi j hj
    apply (evs_rf a.crew _ (regWord (y.v i) j) E ((clusterOf s a.ref.cl).rf, a.crew) rfl rfl ?_).1
    · obtain ⟨low, hl⟩ := res_mem_allEvs (y := y) hi
      refine .inl ⟨i, low, y.d.num + j, regWord (y.v i) j, ?_, rfl⟩
      rw [← hE]
      apply hl
      simp only [resEvs, Yield.res, List.map_append, List.mem_append, List.mem_map]
      exact .inl (.inl ⟨_, by simp only [destWr, hg]; exact List.mem_map.2 ⟨j, List.mem_range.2 hj, rfl⟩, rfl⟩)
    · intro i' low n u hm hk
      rw [← hE] at hm
      obtain ⟨_, _, j', hj', rfl, rfl⟩ := mem_allEvs_g hm
      obtain ⟨e1, e2⟩ : i' = i ∧ j' = j := by
        simp only [regNo] at hk
        have h1 : y.d.num + j' < a.crew.win := by omega
        have h2 : y.d.num + j < a.crew.win := by omega
        have h3 : i' * a.crew.win + (y.d.num + j') = i * a.crew.win + (y.d.num + j) := by omega
        have hi' : i' = i := by
          have := congrArg (· / a.crew.win) h3
          rw [Nat.add_comm, Nat.add_mul_div_right _ _ (by omega), Nat.div_eq_of_lt h1, Nat.add_comm (i * a.crew.win),
            Nat.add_mul_div_right _ _ (by omega), Nat.div_eq_of_lt h2] at this
          omega
        subst hi'
        exact ⟨rfl, by omega⟩
      subst e1; subst e2; rfl
  · intro key h
    apply (evs_rf a.crew key 0#32 E ((clusterOf s a.ref.cl).rf, a.crew) rfl rfl ?_).2
    · intro i low n u hm hk
      rw [← hE] at hm
      obtain ⟨hg, hi, j, hj, rfl, rfl⟩ := mem_allEvs_g hm
      exact h hg i hi j hj hk
    · intro i low n u hm hk
      rw [← hE] at hm
      obtain ⟨hg, hi, j, hj, rfl, rfl⟩ := mem_allEvs_g hm
      exact absurd hk (h hg i hi j hj)
  · intro hk i hi j hj
    rw [keq]
    apply (evs_k _ (regWord (y.v i) j) E _ ?_).1
    · left
      refine ⟨i, regWord (y.v i) j, ?_⟩
      rw [← hE]
      cases act with
      | nil => simp at hi
      | cons b t =>
        simp at hi
        subst hi
        simp only [List.map_cons, allEvs, List.mem_append]
        left
        simp only [resEvs, Yield.res, List.map_append, List.mem_append, List.mem_map]
        exact .inl (.inl ⟨_, by simp only [destWr, hk]; exact List.mem_map.2 ⟨j, List.mem_range.2 hj, rfl⟩, rfl⟩)
    · intro i' u hm
      rw [← hE] at hm
      obtain ⟨_, h1, j', _, h2, rfl⟩ := mem_allEvs_k hm
      rw [hi] at h1
      cases h1
      have : j' = j := by omega
      rw [this]
  · intro m h
    rw [keq]
    apply (evs_k m 0#32 E _ ?_).2
    · intro i u hm
      rw [← hE] at hm
      obtain ⟨h1, _, j, hj, rfl, rfl⟩ := mem_allEvs_k hm
      have := h h1
      omega
    · intro i u hm
      rw [← hE] at hm
      obtain ⟨h1, _, j, hj, rfl, rfl⟩ := mem_allEvs_k hm
      have := h h1
      omega
  · generalize E.foldl evPure ((clusterOf s a.ref.cl).rf, a.crew) = p at ak er
    generalize advance s.cycle p.2 a.bi = q at ak
    exact crew_same ak er

/-! Variable latency. -/

theorem updCrew_updCrew (s : State) (r : CrewRef) (f g : Crew → Crew) :
    updCrew (updCrew s r f) r g = updCrew s r (fun c => g (f c)) := by
  cases ht : teamOf s r.cl r.ts with
  | none => simp only [updCrew, updTeam, ht]
  | some t =>
    have h : teamOf (updCrew s r f) r.cl r.ts = some { t with crews := modAt t.crews r.cr f } := by
      simp only [updCrew, updTeam, ht, setTeam]
      simp [teamOf]
    conv_lhs => rw [updCrew, updTeam, h]
    simp only [updCrew, updTeam, ht, setTeam, updCluster, clusterOf_setCluster, setCluster_setCluster, put_put, modAt_modAt]

/-- A fold of changes of one crew is one change. -/
theorem foldl_updCrew {α : Type} (r : CrewRef) (g : State → α → State) (p : Crew → α → Crew)
    (hg : ∀ s x, g s x = updCrew s r (fun c => p c x)) : ∀ (l : List α) (s : State) (f : Crew → Crew),
    l.foldl g (updCrew s r f) = updCrew s r (fun c => l.foldl p (f c))
  | [], _, _ => rfl
  | x :: t, s, f => by rw [List.foldl_cons, hg, updCrew_updCrew, foldl_updCrew r g p hg t]; rfl

/-- What one fibre's pending results change in the crew. -/
def pendPure (i : Nat) (low : Bool) (f : FRes) (c : Crew) : Crew :=
  let c := f.wr.foldl (fun c w => match w with | .p n b => pWrite c i n b | _ => c) c
  let c := { c with stat := c.stat ||| BitVec.ofNat 64 (f.sticky % 2 ^ 11) }
  { c with pend := c.pend ++ f.wr.filterMap (pendWr i low) }

theorem foldl_setP (r : CrewRef) (i : Nat) : ∀ (l : List RegWr) (s : State) (g : Crew → Crew),
    updCrew (l.foldl (fun s w => match w with | .p n b => setP s r i n b | _ => s) s) r g
      = updCrew s r (fun c => g (l.foldl (fun c w => match w with | .p n b => pWrite c i n b | _ => c) c))
  | [], _, _ => rfl
  | .g _ _ :: t, s, g => foldl_setP r i t s g
  | .k _ _ :: t, s, g => foldl_setP r i t s g
  | .p n b :: t, s, g => by
    rw [List.foldl_cons, foldl_setP r i t]
    simp only [setP, updCrew_updCrew]
    rfl

theorem pendRes_eq (s : State) (r : CrewRef) (i : Nat) (low : Bool) (f : FRes) :
    pendRes s r i low f = updCrew s r (pendPure i low f) := by
  simp only [pendRes, orStat, updCrew_updCrew]
  exact foldl_setP r i f.wr s _

/-- What the pending results of all fibres change in the crew. -/
def pendAllPure (l : List (Nat × FRes)) (c : Crew) : Crew :=
  match l with
  | [] => c
  | (i, f) :: t => t.foldl (fun c e => pendPure e.1 false e.2 c) (pendPure i true f c)

theorem pendAll_eq (s : State) (r : CrewRef) (l : List (Nat × FRes)) (h : l ≠ []) :
    pendAll s r l = updCrew s r (pendAllPure l) := by
  cases l with
  | nil => exact absurd rfl h
  | cons x t =>
    obtain ⟨i, f⟩ := x
    simp only [pendAll, pendRes_eq]
    exact foldl_updCrew r _ (fun c e => pendPure e.1 false e.2 c) (fun s x => rfl) t s _

/-- The crew as a list of events: the predicates and the status word of `pendAllPure` are those of the same writes. -/
def pEvs (l : List (Nat × FRes)) : List WordEv :=
  l.flatMap (fun e => e.2.wr.filterMap (fun w => match w with | .p n b => some (.w e.1 false (.p n b)) | _ => none) ++ [.st e.2.sticky])

theorem pendPure_eq (i : Nat) (low : Bool) (f : FRes) (rf : Cells 32) (c : Crew) :
    pendPure i low f c = { ((pEvs [(i, f)]).foldl evPure (rf, c)).2 with pend := c.pend ++ f.wr.filterMap (pendWr i low) } := by
  have key : ∀ (l : List RegWr) (c : Crew),
      l.foldl (fun c w => match w with | .p n b => pWrite c i n b | _ => c) c
        = ((l.filterMap (fun w => match w with | .p n b => some (WordEv.w i false (.p n b)) | _ => none)).foldl evPure (rf, c)).2
      ∧ (l.foldl (fun c w => match w with | .p n b => pWrite c i n b | _ => c) c).pend = c.pend
      ∧ ((l.filterMap (fun w => match w with | .p n b => some (WordEv.w i false (.p n b)) | _ => none)).foldl evPure (rf, c)).1 = rf := by
    intro l
    induction l with
    | nil => intro c; exact ⟨rfl, rfl, rfl⟩
    | cons w t ih =>
      intro c
      cases w with
      | g n v => exact ih c
      | k n v => exact ih c
      | p n b =>
        have h := ih (pWrite c i n b)
        refine ⟨h.1, h.2.1.trans ?_, h.2.2⟩
        unfold pWrite; split <;> rfl
  obtain ⟨h1, h2, h3⟩ := key f.wr c
  simp only [pendPure, pEvs, List.flatMap_cons, List.flatMap_nil, List.append_nil, List.foldl_append, List.foldl_cons,
    List.foldl_nil, evPure, h2]
  rw [h1]

theorem evPure_pend (E : List WordEv) (x : List Pend) : ∀ (rf : Cells 32) (c : Crew),
    (E.foldl evPure (rf, { c with pend := x })).2 = { (E.foldl evPure (rf, c)).2 with pend := x } := by
  induction E with
  | nil => intro rf c; rfl
  | cons e E ih =>
    intro rf c
    have h : evPure (rf, { c with pend := x }) e = ((evPure (rf, c) e).1, { (evPure (rf, c) e).2 with pend := x }) := by
      cases e with
      | st b => rfl
      | w i low w =>
        cases w with
        | g n v => rfl
        | k n v => cases low <;> rfl
        | p n b =>
          simp only [evPure, pWrite]
          split <;> rfl
    rw [List.foldl_cons, h, ih]
    rfl

/-- The pending entries of all fibres, the first being the lowest. -/
def pendEntries (l : List (Nat × FRes)) : List Pend :=
  match l with
  | [] => []
  | (i, f) :: t => f.wr.filterMap (pendWr i true) ++ t.flatMap (fun e => e.2.wr.filterMap (pendWr e.1 false))

theorem pendFold_eq (rf : Cells 32) : ∀ (t : List (Nat × FRes)) (c : Crew),
    t.foldl (fun c e => pendPure e.1 false e.2 c) c = { ((pEvs t).foldl evPure (rf, c)).2 with
      pend := c.pend ++ t.flatMap (fun e => e.2.wr.filterMap (pendWr e.1 false)) }
  | [], c => by simp [pEvs]
  | x :: t, c => by
    rw [List.foldl_cons, pendFold_eq rf t, pendPure_eq x.1 false x.2 rf c, evPure_pend]
    have hs : pEvs (x :: t) = pEvs [(x.1, x.2)] ++ pEvs t := by simp [pEvs]
    have hr : ((pEvs [(x.1, x.2)]).foldl evPure (rf, c)).1 = rf := by
      have : ∀ (E : List WordEv) (p : Cells 32 × Crew), (∀ e ∈ E, match e with | .w _ _ (.g _ _) => False | _ => True) →
          (E.foldl evPure p).1 = p.1 := by
        intro E
        induction E with
        | nil => intro p _; rfl
        | cons e E ih =>
          intro p h
          rw [List.foldl_cons, ih _ (fun e he => h e (List.mem_cons_of_mem _ he))]
          have := h e (by simp)
          cases e with
          | st b => rfl
          | w i low w =>
            cases w with
            | g n v => exact this.elim
            | k n v => cases low <;> rfl
            | p n b => rfl
      apply this
      intro e he
      simp only [pEvs, List.flatMap_cons, List.flatMap_nil, List.append_nil, List.mem_append, List.mem_filterMap] at he
      rcases he with ⟨w, _, hw⟩ | he
      · cases w <;> simp at hw
        subst hw; trivial
      · simp at he; subst he; trivial
    rw [hs, List.foldl_append]
    conv_rhs => rw [show (pEvs [(x.1, x.2)]).foldl evPure (rf, c) = (rf, ((pEvs [(x.1, x.2)]).foldl evPure (rf, c)).2) from
      Prod.ext hr rfl]
    simp [List.append_assoc]

theorem pendAllPure_eq (rf : Cells 32) (l : List (Nat × FRes)) (c : Crew) :
    pendAllPure l c = { ((pEvs l).foldl evPure (rf, c)).2 with pend := c.pend ++ pendEntries l } := by
  cases l with
  | nil => simp [pendAllPure, pEvs, pendEntries]
  | cons x t =>
    obtain ⟨i, f⟩ := x
    have h := pendFold_eq rf ((i, f) :: t) c
    have e : pendPure i true f c = { pendPure i false f c with pend := c.pend ++ f.wr.filterMap (pendWr i true) } := by
      rw [pendPure_eq i true f rf c, pendPure_eq i false f rf c]
    simp only [List.foldl_cons] at h
    simp only [pendAllPure, pendEntries]
    rw [e]
    have g : ∀ (t : List (Nat × FRes)) (d : Crew) (x : List Pend),
        t.foldl (fun c e => pendPure e.1 false e.2 c) { d with pend := x }
          = { t.foldl (fun c e => pendPure e.1 false e.2 c) d with
              pend := x ++ t.flatMap (fun e => e.2.wr.filterMap (pendWr e.1 false)) } := by
      intro t d x
      rw [pendFold_eq rf t, pendFold_eq rf t, evPure_pend]
    rw [g, h]
    simp [List.append_assoc]

theorem pendEntries_yield (y : Yield) (act : List Nat) :
    pendEntries (act.map (fun i => (i, y.res i))) = laterPends y.d y.n (act.map (fun i => (i, y.v i))) := by
  have hp : ∀ i low, (y.ps i).filterMap ((pendWr i low) ∘ fun e => RegWr.p e.1 e.2) = [] := by
    intro i low; simp [Function.comp_def, pendWr]
  have hg : y.d.cls = .g → ∀ i low, (y.res i).wr.filterMap (pendWr i low)
      = (List.range y.n).map (fun j => { dst := .g i (y.d.num + j), val := some (regWord (y.v i) j), ready := true }) := by
    intro h i low
    simp only [Yield.res, destWr, h, List.filterMap_append, List.filterMap_map, hp, List.append_nil]
    simp [Function.comp_def, pendWr, regWord]
  have hk : y.d.cls = .k → ∀ i, (y.res i).wr.filterMap (pendWr i true)
      = (List.range y.n).map (fun j => { dst := .k (y.d.num + j), val := some (regWord (y.v i) j), ready := true }) := by
    intro h i
    simp only [Yield.res, destWr, h, List.filterMap_append, List.filterMap_map, hp, List.append_nil]
    simp [Function.comp_def, pendWr, regWord]
  have hn : y.d.cls ≠ .g → ∀ i, (y.res i).wr.filterMap (pendWr i false) = [] := by
    intro h i
    simp only [Yield.res, List.filterMap_append, List.filterMap_map, hp, List.append_nil, destWr]
    split
    · next e => exact absurd e h
    · simp [Function.comp_def, pendWr]
    · simp [pendWr]
    · rfl
  have hv : y.d.cls ≠ .g → y.d.cls ≠ .k → ∀ i, (y.res i).wr.filterMap (pendWr i true) = [] := by
    intro h h' i
    simp only [Yield.res, List.filterMap_append, List.filterMap_map, hp, List.append_nil, destWr]
    split
    · next e => exact absurd e h
    · next e => exact absurd e h'
    · simp [pendWr]
    · rfl
  cases act with
  | nil => simp [pendEntries, laterPends]; split <;> rfl
  | cons a t =>
    simp only [List.map_cons, pendEntries, List.flatMap_map]
    by_cases eg : y.d.cls = .g
    · simp only [laterPends, eg, List.flatMap_cons, List.flatMap_map, hg eg]
    · have : t.flatMap (fun i => (y.res i).wr.filterMap (pendWr i false)) = [] := by
        rw [List.flatMap_eq_nil_iff]; intro i _; exact hn eg i
      rw [this]
      by_cases ek : y.d.cls = .k
      · simp [laterPends, ek, hk ek]
      · rw [hv eg ek]
        simp only [laterPends]
        rfl

theorem mem_pEvs {y : Yield} {act : List Nat} {i n : Nat} {low : Bool} {u : Bool} :
    WordEv.w i low (.p n u) ∈ pEvs (act.map (fun i => (i, y.res i))) → i ∈ act ∧ (n, u) ∈ y.preds i := by
  intro h
  simp only [pEvs, List.mem_flatMap, List.mem_map] at h
  obtain ⟨x, ⟨j, hj, rfl⟩, h⟩ := h
  simp only [List.mem_append, List.mem_filterMap, List.mem_singleton, reduceCtorEq, or_false] at h
  obtain ⟨w, hw, he⟩ := h
  cases w <;> simp at he
  obtain ⟨rfl, -, rfl, rfl⟩ := he
  refine ⟨hj, ?_⟩
  simp only [Yield.res, List.mem_append, List.mem_map, destWr] at hw
  rcases hw with hw | ⟨e, he, h⟩
  · split at hw
    · simp at hw
    · simp at hw
    · next hc => simp at hw; simp [Yield.preds, hc, hw]
    · simp at hw
  · simp at h; obtain ⟨rfl, rfl⟩ := h; simp [Yield.preds, he]

theorem pred_mem_pEvs {y : Yield} {act : List Nat} {i : Nat} {e : Nat × Bool} (hi : i ∈ act) (h : e ∈ y.preds i) :
    WordEv.w i false (.p e.1 e.2) ∈ pEvs (act.map (fun i => (i, y.res i))) := by
  simp only [pEvs, List.mem_flatMap, List.mem_map]
  refine ⟨_, ⟨i, hi, rfl⟩, ?_⟩
  simp only [List.mem_append, List.mem_filterMap]
  refine .inl ⟨.p e.1 e.2, ?_, rfl⟩
  simp only [Yield.preds, List.mem_append] at h
  simp only [Yield.res, List.mem_append, List.mem_map]
  rcases h with h | h
  · split at h
    · next hc => simp at h; subst h; exact .inl (by simp [destWr, hc])
    · simp at h
  · exact .inr ⟨e, h, rfl⟩

theorem any_pEvs {y : Yield} {act : List Nat} {b : Nat} :
    (pEvs (act.map (fun i => (i, y.res i)))).any (fun e => match e with | .st x => tb x b | _ => false)
      = act.any (fun i => tb (y.st i) b) := by
  induction act with
  | nil => rfl
  | cons a t ih =>
    have hc : pEvs ((a :: t).map (fun i => (i, y.res i))) = pEvs [(a, y.res a)] ++ pEvs (t.map (fun i => (i, y.res i))) := by
      simp [pEvs]
    rw [hc, List.any_append, ih, List.any_cons]
    congr 1
    simp only [pEvs, List.flatMap_cons, List.flatMap_nil, List.append_nil, List.any_append]
    have : (((y.res a).wr.filterMap (fun w => match w with | .p n b => some (WordEv.w a false (.p n b)) | _ => none)).any
        (fun e => match e with | .st x => tb x b | _ => false)) = false := by
      rw [List.any_eq_false]
      intro e he
      simp only [List.mem_filterMap] at he
      obtain ⟨w, _, hw⟩ := he
      cases w <;> simp at hw
      subst hw; simp
    rw [this]; simp [Yield.res]

/-- A word whose fibres all complete with results of variable latency makes its yield pending and goes on. -/
theorem finishPend_later {s : State} {a : At} {act : List Nat} {y : Yield} (hm : a.b.mask ≠ 0#32) (ha : act ≠ [])
    (hps : ∀ i ∈ act, ∀ e ∈ y.preds i, ∀ e' ∈ y.preds i, e.1 = e'.1 → e = e') :
    Later s (finishPend s a (act.map (fun i => (i, .ok (y.res i))))) a act y := by
  unfold finishPend
  rw [okOuts_map, badOuts_map, pendAll_eq _ _ _ (by simpa using ha)]
  refine ⟨fun c => advance s.cycle (pendAllPure (act.map (fun i => (i, y.res i))) c) a.bi, ?_, ?_⟩
  · have : stampPc a.pc [] = [] := rfl
    rw [this, finishFaults_none _ _ _ hm, updCrew_updCrew, updCrew_cycle]
  · intro c
    have hq := pendAllPure_eq [] (act.map (fun i => (i, y.res i))) c
    rw [pendEntries_yield] at hq
    have er := evs_rest (pEvs (act.map (fun i => (i, y.res i)))) (([] : Cells 32), c)
    have ak := advance_keeps s.cycle (pendAllPure (act.map (fun i => (i, y.res i))) c) a.bi
    have stl : ∀ b < 45, (advance s.cycle (pendAllPure (act.map (fun i => (i, y.res i))) c) a.bi).stat.getLsbD b
        = (pendAllPure (act.map (fun i => (i, y.res i))) c).stat.getLsbD b := fun b hb => advance_stat_low _ _ _ _ hb
    have mv : ∀ b, c.batches[a.bi]? = some b → b.rep = false →
        (advance s.cycle (pendAllPure (act.map (fun i => (i, y.res i))) c) a.bi).batches
          = modAt c.batches a.bi (fun _ => nextWord s.cycle b) := by
      intro b hb hr
      have eb : (pendAllPure (act.map (fun i => (i, y.res i))) c).batches = c.batches := by
        have := congrArg Crew.batches er; rw [hq]; exact this
      rw [advance_moves _ _ _ b (by rw [eb]; exact hb) hr, eb]
    have pp : ∀ i m, pRead (advance s.cycle (pendAllPure (act.map (fun i => (i, y.res i))) c) a.bi) i m
        = pRead ((pEvs (act.map (fun i => (i, y.res i)))).foldl evPure (([] : Cells 32), c)).2 i m := by
      intro i m
      have h1 : (advance s.cycle (pendAllPure (act.map (fun i => (i, y.res i))) c) a.bi).preds
          = ((pEvs (act.map (fun i => (i, y.res i)))).foldl evPure (([] : Cells 32), c)).2.preds := by
        have := congrArg Crew.preds ak
        rw [hq] at this ⊢
        exact this
      simp only [pRead, h1]
    have mr : (pendAllPure (act.map (fun i => (i, y.res i))) c).mem = c.mem := by have := congrArg Crew.mem er; rw [hq]; exact this
    have mw : (pendAllPure (act.map (fun i => (i, y.res i))) c).memRow = c.memRow := by
      have := congrArg Crew.memRow er; rw [hq]; exact this
    have st : ∀ b, c.batches[a.bi]? = some b → b.rep = false → (nextWord s.cycle b).wait ≠ .drain →
        ((advance s.cycle (pendAllPure (act.map (fun i => (i, y.res i))) c) a.bi).mem,
          (advance s.cycle (pendAllPure (act.map (fun i => (i, y.res i))) c) a.bi).memRow) = (c.mem, c.memRow) := by
      intro b hb hr hd
      have eb : (pendAllPure (act.map (fun i => (i, y.res i))) c).batches = c.batches := by
        have := congrArg Crew.batches er; rw [hq]; exact this
      rw [← mr, ← mw]
      exact advance_stays _ _ _ b (by rw [eb]; exact hb) hr hd
    have yd : ∀ b, c.batches[a.bi]? = some b → b.rep = false →
        (advance s.cycle (pendAllPure (act.map (fun i => (i, y.res i))) c) a.bi).yields
          = (c.yields || (!(nextWord s.cycle b).begun && hdrYield b.hdr)) := by
      intro b hb hr
      have eb : (pendAllPure (act.map (fun i => (i, y.res i))) c).batches = c.batches := by
        have := congrArg Crew.batches er; rw [hq]; exact this
      have my : (pendAllPure (act.map (fun i => (i, y.res i))) c).yields = c.yields := by
        have := congrArg Crew.yields er; rw [hq]; exact this
      rw [← my]
      exact advance_yields _ _ _ b (by rw [eb]; exact hb) hr
    refine ⟨⟨?_, ?_, ?_, mv, (by rw [← mr, ← mw]; exact advance_memset _ _ _), st, yd⟩, ?_, ?_⟩
    · intro i hi e he h15
      rw [pp]
      apply evs_p i e.1 e.2 h15
      · intro low u hmem
        obtain ⟨_, hu⟩ := mem_pEvs hmem
        rw [hps i hi e he (e.1, u) hu rfl]
      · exact .inl ⟨false, e.2, pred_mem_pEvs hi he⟩
    · intro i m h
      rw [pp]
      apply evs_p_other
      intro low u hmem
      obtain ⟨h1, h2⟩ := mem_pEvs hmem
      exact h h1 _ h2 rfl
    · intro b hb
      rw [stl b hb, hq]
      show ((pEvs (act.map (fun i => (i, y.res i)))).foldl evPure (([] : Cells 32), c)).2.stat.getLsbD b = _
      rw [evs_stat, any_pEvs]
    · have := congrArg Crew.pend ak
      rw [hq] at this
      show (advance s.cycle (pendAllPure (act.map (fun i => (i, y.res i))) c) a.bi).pend = _
      rw [hq]
      exact this
    · have kk : ((pEvs (act.map (fun i => (i, y.res i)))).foldl evPure (([] : Cells 32), c)).2.k = c.k := by
        have : ∀ (E : List WordEv) (p : Cells 32 × Crew), (∀ e ∈ E, match e with | .w _ _ (.k _ _) => False | _ => True) →
            (E.foldl evPure p).2.k = p.2.k := by
          intro E
          induction E with
          | nil => intro p _; rfl
          | cons e E ih =>
            intro p h
            rw [List.foldl_cons, ih _ (fun e he => h e (List.mem_cons_of_mem _ he))]
            have := h e (by simp)
            cases e with
            | st b => rfl
            | w i low w =>
              cases w with
              | g n v => rfl
              | k n v => exact this.elim
              | p n b => simp only [evPure, pWrite]; split <;> rfl
        apply this
        intro e he
        simp only [pEvs, List.mem_flatMap, List.mem_append, List.mem_filterMap] at he
        obtain ⟨x, _, ⟨w, _, hw⟩ | he⟩ := he
        · cases w <;> simp at hw
          subst hw; trivial
        · simp at he; subst he; trivial
      show { advance s.cycle (pendAllPure (act.map (fun i => (i, y.res i))) c) a.bi with
        pend := c.pend, preds := c.preds, stat := c.stat, batches := c.batches, cur := c.cur, mem := c.mem, memRow := c.memRow, yields := c.yields } = c
      generalize hg : advance s.cycle (pendAllPure (act.map (fun i => (i, y.res i))) c) a.bi = q at ak ⊢
      rw [hq] at ak
      generalize (pEvs (act.map (fun i => (i, y.res i)))).foldl evPure (([] : Cells 32), c) = p at ak er kk
      exact crew_same' (p := p.2) (x := c.pend ++ laterPends y.d y.n (act.map (fun i => (i, y.v i)))) ak er kk

end Sys2Proof.Machine
end

