-- ==== Sys2Proof/Laws/Words.lean ====
section
/-! SUPPORT. The two shapes of a word's meaning, as the statements use them: what it yields stands at once, or is pending. -/

namespace Sys2Proof.Machine

/-- The checks of a word may be stated in another form that asks for the same. -/
theorem Passes.cast {s : State} {a : At} {sp sp' : WordSpec} (h : Passes s a sp) (h1 : sp'.port = sp.port) (h2 : sp'.ct = sp.ct)
    (h3 : sp'.gd = sp.gd) (h4 : sp'.plain = sp.plain) (h5 : sp'.priv = sp.priv) (h6 : sp'.regs = sp.regs) (h8 : sp'.rel = sp.rel)
    (h7 : sp.legal a.crew.win = true → sp'.legal a.crew.win = true) : Passes s a sp' := by
  obtain ⟨a1, a2, a3, a4, a5, a6, a7, a8⟩ := h
  exact ⟨a1, by rw [h1, h2]; exact a2, by rw [h3, h4]; exact a3, by rw [h3]; exact a4, h7 a5, by rw [h5]; exact a6, by rw [h3, h6]; exact a7,
    by rw [h8]; exact a8⟩

/-- A word whose fibres compute at once: with its checks passed it answers the state that its yield describes. -/
theorem local_wrote {sp sp' : WordSpec} {s : State} {a : At} {run : State → At → Nat → FRes} {y : Yield} (h : Passes s a sp)
    (h1 : sp'.port = sp.port) (h2 : sp'.ct = sp.ct)
    (h3 : sp'.gd = sp.gd) (h4 : sp'.plain = sp.plain) (h5 : sp'.priv = sp.priv) (h6 : sp'.regs = sp.regs) (h8 : sp'.rel = sp.rel)
    (h7 : sp.legal a.crew.win = true → sp'.legal a.crew.win = true)
    (hr : ∀ i, run s a i = y.res i)
    (hps : ∀ i ∈ active a sp.gd, ∀ e ∈ y.preds i, ∀ e' ∈ y.preds i, e.1 = e'.1 → e = e') :
    ∃ t, issueWord sp' (fun a act s => finishWord s a (act.map (fun i => (i, .ok (run s a i))))) s = .next t ∧ Wrote s t a (active a sp.gd) y := by
  refine ⟨_, issueWord_passes _ (h.cast h1 h2 h3 h4 h5 h6 h8 h7), ?_⟩
  rw [h3]
  have := finishWord_wrote (y := y) h.here (mask_ne_zero_of_active h.act) hps
  convert this using 5
  rw [hr]

/-- A word of variable latency: with its checks passed its results are pending. -/
theorem local_later {sp sp' : WordSpec} {s : State} {a : At} {run : State → At → Nat → FRes} {y : Yield} (h : Passes s a sp)
    (h1 : sp'.port = sp.port) (h2 : sp'.ct = sp.ct)
    (h3 : sp'.gd = sp.gd) (h4 : sp'.plain = sp.plain) (h5 : sp'.priv = sp.priv) (h6 : sp'.regs = sp.regs) (h8 : sp'.rel = sp.rel)
    (h7 : sp.legal a.crew.win = true → sp'.legal a.crew.win = true)
    (hr : ∀ i, run s a i = y.res i)
    (hps : ∀ i ∈ active a sp.gd, ∀ e ∈ y.preds i, ∀ e' ∈ y.preds i, e.1 = e'.1 → e = e') :
    ∃ t, issueWord sp' (fun a act s => finishPend s a (act.map (fun i => (i, .ok (run s a i))))) s = .next t ∧ Later s t a (active a sp.gd) y := by
  refine ⟨_, issueWord_passes _ (h.cast h1 h2 h3 h4 h5 h6 h8 h7), ?_⟩
  rw [h3]
  have := finishPend_later (s := s) (y := y) (mask_ne_zero_of_active h.act) h.act hps
  convert this using 5
  rw [hr]

theorem preds_yields (d : Opd) (n : Nat) (v st : Nat → Nat) (i : Nat) : ∀ e ∈ (yields d n v st).preds i, ∀ e' ∈ (yields d n v st).preds i, e.1 = e'.1 → e = e' := by
  intro e he e' he' _
  simp only [yields, Yield.preds] at he he'
  simp only [List.append_nil] at he he'
  by_cases hc : d.cls = .p
  · simp only [hc, if_true, List.mem_singleton] at he he'; rw [he, he']
  · simp [hc] at he

theorem res_yields (d : Opd) (n : Nat) (v st : Nat → Nat) (i : Nat) : (yields d n v st).res i = res d n (v i) (st i) := by
  simp [yields, Yield.res, res]

end Sys2Proof.Machine
end

