-- ==== Sys2Proof/Tests/Slice0.lean ====
section
/-! SUPPORT. Tests of the model: refused ill-formed terms, words written out from the encodings, worked examples of the spec, and for
every statement with hypotheses a state and operands that meet them. Expected values come from the spec's rules and examples. -/

set_option maxRecDepth 100000
set_option exponentiation.threshold 800
namespace Sys2Proof.Tests
open Sys2Proof Sys2Proof.Machine

/-! Small states. `st0`: the probe of one word (its crew of 32 LIVE fibres in context 1, privileged), with that crew issuing. -/

def r0 : CrewRef := { cl := 0, ts := 0, cr := 0 }
def st0 : State := { State.reset.withFetchWord 64 0 with issue := some { crew := r0, bi := 0 } }
/-- A grid of one team, as the probe has it. -/
def grid1 : Grid :=
  { ctx := 1, gid := 0, launchedBy := 0#64, launcher := none, parent := none, depth := 1, teams := 1, cmask := 1#192,
    w8 := 2, crews := 1, banks := 0, coop := false, entry := 0x100#64, kinit := [], priv := true, nextTeam := 1, nextSince := 0,
    reserved := false, unfinished := 1, children := 0, gen := 0, killed := false, killCode := 0 }
/-- The place of the issuing batch. -/
def at0 (s : State) : At :=
  (issuer s).getD (At.mk r0 0 (newTeam grid1 [] [] 0) (newCrew 0 0 16 1 0 true) (headBatch 0 0#32 .none 0 false))
/-- Registers set: slot, number, value. -/
def regs (l : List (Nat × Nat × Nat)) (s : State) : State := l.foldl (fun s e => setG s r0 e.1 e.2.1 (BitVec.ofNat 32 e.2.2)) s
def crewIs (f : Crew → Crew) (s : State) : State := updCrew s r0 f
def teamIs (f : Team → Team) (s : State) : State := updTeam s 0 0 f
def batchIs (f : Batch → Batch) (s : State) : State := crewIs (fun c => { c with batches := c.batches.map f }) s
def clusterIs (f : Cluster → Cluster) (s : State) : State := updCluster s 0 f
def user (s : State) : State := crewIs (fun c => { c with priv := false }) s
/-- Sixteen banks of PAD for the team. -/
def pads (s : State) : State :=
  teamIs (fun t => { t with banks := (List.range 16).map (· + 128) })
    (clusterIs (fun c => (List.range 16).foldl (fun c b => setBank c (b + 128) { mode := .pad, owner := 0, bound := none, slots := [] }) c) s)

def G (n : Nat) : Opd := { cls := .g, num := n }
def K (n : Nat) : Opd := { cls := .k, num := n }
def P (n : Nat) : Opd := { cls := .p, num := n }
def S (n : Nat) : Opd := { cls := .s, num := n }
def rr (d a b c : Opd) (ty opt : Nat) : RRR :=
  { gd := always, d := d, a := a, b := b, c := c, ty := BitVec.ofNat 4 ty, opt := BitVec.ofNat 5 opt }
def mem (data base off ty space pol : Nat) (kb : Bool) : MEM :=
  { gd := always, data := data, base := base, off := BitVec.ofNat 24 off, ty := BitVec.ofNat 4 ty, space := BitVec.ofNat 2 space,
    policy := BitVec.ofNat 2 pol, kb := kb }
def eng (st off fa fb : Nat) : ENG :=
  { gd := always, st := st, src := 0, off := BitVec.ofNat 24 off, fa := BitVec.ofNat 4 fa, fb := BitVec.ofNat 4 fb, rsv := false }
def sysf (d a : Opd) (num word : Nat) : SYSF :=
  { gd := always, d := d, a := a, rsv := 0#4, num := BitVec.ofNat 12 num, bc := 0#4, hi := 0#2, clr := false, word := BitVec.ofNat 6 word }
def br (off : Nat) : BRF := { gd := always, link := 0, rsv := 0#9, off := BitVec.ofNat 32 off }

/-- The state after a step, where there is one. -/
def nextOf (o : Out) (s : State) : State := match o with | .next t => t | _ => s
def isNext (o : Out) : Bool := match o with | .next _ => true | _ => false
def after (i : Instr) (s : State) : State := nextOf (exec i s) s
def crew0 (s : State) : Crew := (crewOf s r0).getD (newCrew 0 0 0 0 0 false)
/-- Register `n` of the fibre in slot `i`, a k-register, a pending result. -/
def g (s : State) (i n : Nat) : Nat := (gRead (clusterOf s 0) (crew0 s) i n).toNat
def k (s : State) (n : Nat) : Nat := (cRead (crew0 s).k n).toNat
def pendG (s : State) (i n : Nat) : Option W32 := ((crew0 s).pend.find? (fun p => p.dst == .g i n)).bind (·.val)
def stat (s : State) : Nat := (crew0 s).stat.toNat % 2 ^ 11

/-- `Passes`, decided. -/
def passesB (s : State) (a : At) (sp : WordSpec) : Bool :=
  decide (issuer s = some a) && framed a sp.port sp.ct && (!sp.plain || guardPlain sp.gd) && decide (active a sp.gd ≠ [])
    && sp.legal a.crew.win && (!sp.priv || a.crew.priv) && !hazard a.crew (active a sp.gd) sp.regs && (!sp.rel || !unacked s)
theorem passes_of {s : State} {a : At} {sp : WordSpec} (h : passesB s a sp = true) : Passes s a sp := by
  simp only [passesB, Bool.and_eq_true, decide_eq_true_eq, Bool.or_eq_true, Bool.not_eq_true'] at h
  obtain ⟨⟨⟨⟨⟨⟨⟨h1, h2⟩, h3⟩, h4⟩, h5⟩, h6⟩, h7⟩, h8⟩ := h
  exact ⟨h1, h2, fun e => h3.resolve_left (by simp [e]), h4, h5, fun e => h6.resolve_left (by simp [e]), h7,
    fun e => h8.resolve_left (by simp [e])⟩

/-! Well-formedness: a term that each check refuses. -/

theorem test_wf_rrr : wellFormed (.addRRR (rr (G 256) (G 0) (G 0) (G 0) 2 0)) = false
    ∧ wellFormed (.addRRR (rr (G 0) (G 256) (G 0) (G 0) 2 0)) = false ∧ wellFormed (.addRRR (rr (G 0) (G 0) (G 256) (G 0) 2 0)) = false
    ∧ wellFormed (.addRRR (rr (G 0) (G 0) (G 0) (G 256) 2 0)) = false := by decide
theorem test_wf_ri17 : wellFormed (.addRI17 { gd := always, d := G 256, a := G 0, ty := 2, opt := 0, imm := 0 }) = false
    ∧ wellFormed (.addRI17 { gd := always, d := G 0, a := G 256, ty := 2, opt := 0, imm := 0 }) = false := by decide
theorem test_wf_ri32 : wellFormed (.movi { gd := always, k := false, d := 256, a := 0, imm := 0 }) = false
    ∧ wellFormed (.movi { gd := always, k := false, d := 0, a := 256, imm := 0 }) = false := by decide
theorem test_wf_mem : wellFormed (.ld (mem 256 0 0 2 0 0 false)) = false ∧ wellFormed (.ld (mem 0 256 0 2 0 0 false)) = false := by decide
def amo (d base b c : Nat) : AMO :=
  { gd := always, d := d, base := base, b := b, c := c, ty := 2, order := 0, scope := 0, kb := false, pad := false, nd := false, rsv := 0 }
theorem test_wf_amo : wellFormed (.aadd (amo 256 0 0 0)) = false ∧ wellFormed (.aadd (amo 0 256 0 0)) = false
    ∧ wellFormed (.aadd (amo 0 0 256 0)) = false ∧ wellFormed (.aadd (amo 0 0 0 256)) = false := by decide
theorem test_wf_br : wellFormed (.call { br 0 with link := 256 }) = false := by decide
theorem test_wf_eng : wellFormed (.mma (eng 256 0 0 0)) = false ∧ wellFormed (.mma { eng 0 0 0 0 with src := 256 }) = false := by decide
theorem test_wf_sys : wellFormed (.rdsys (sysf (G 256) (G 0) 0 0)) = false ∧ wellFormed (.wrsys (sysf (G 0) (G 256) 0x10 0)) = false := by decide
/-- The clearing form is a row of its own, and so are four WRSYS rows. -/
theorem test_wf_rows : wellFormed (.rdsys { sysf (G 0) (G 0) 0 0 with clr := true }) = false
    ∧ wellFormed (.rdsysClr (sysf (G 0) (G 0) 0 0)) = false ∧ wellFormed (.wrsys (sysf (G 0) (G 0) 0x021 0)) = false
    ∧ wellFormed (.wrsysThrottle (sysf (G 0) (G 0) 0x010 0)) = false ∧ wellFormed (.wrsysCtxid (sysf (G 0) (G 0) 0x010 0)) = false
    ∧ wellFormed (.wrsysUrgency (sysf (G 0) (G 0) 0x010 0)) = false ∧ wellFormed (.wrsysCslope (sysf (G 0) (G 0) 0x010 0)) = false := by decide
/-- Opcode 0x000 is ADD and 0x2C0 a hint: neither is reserved. -/
theorem test_wf_reserved : wellFormed (.reservedOpcode 0x0000000000000000) = false
    ∧ wellFormed (.reservedOpcode 0xB000000000000000) = false := by decide

/-! Decoding: words written from R46 to R52. -/

theorem test_written_words : ∀ x ∈ writtenWords, decodeWord x.1 = x.2 ∧ wellFormed x.2 = true ∧ encode x.2 = some x.1 := by decide
/-- The clause that chapter 02 works to the bit: header, REP, ADD and FEND; a mask that names b would misuse REP (R55). -/
theorem test_spec_clause :
    hdrTag 0xA290040000000100 = 0xA ∧ hdrCount 0xA290040000000100 = 2 ∧ hdrWait 0xA290040000000100 = 4
    ∧ decodeWord 0x363C00000003C000 = .rep { gd := always, hi := 0, count := 3, mask := 12, step := 0, lo := 0 }
    ∧ decodeWord 0x003C080800001840 = .addRRR (rr (G 4) (G 4) (S 0) (G 0) 2 0)
    ∧ decodeWord 0x333C000000000000 = .fend (rr (G 0) (G 0) (G 0) (G 0) 0 0)
    ∧ repMisused { gd := always, hi := 0, count := 3, mask := 12, step := 0, lo := 0 } 0x003C080800001840 = false
    ∧ repMisused { gd := always, hi := 0, count := 3, mask := 14, step := 0, lo := 0 } 0x003C080800001840 = true
    ∧ decodeAdv (advOf 12 0 3) 0x003C080800001840 = .addRRR (rr (G 7) (G 7) (S 0) (G 0) 2 0) := by decide
/-- The opcodes of the families that the list above leaves out (R51), in bits [63:54]. -/
theorem test_opcodes :
    (match decodeWord (0x0CD * 2 ^ 54) with | .join _ => true | _ => false) = true
    ∧ (match decodeWord (0x0E0 * 2 ^ 54) with | .launch _ => true | _ => false) = true
    ∧ (match decodeWord (0x0EC * 2 ^ 54) with | .scan _ => true | _ => false) = true
    ∧ (match decodeWord (0x115 * 2 ^ 54) with | .mxq _ => true | _ => false) = true
    ∧ (match decodeWord (0x199 * 2 ^ 54) with | .cflush _ => true | _ => false) = true
    ∧ (match decodeWord (0x1A0 * 2 ^ 54) with | .lend _ => true | _ => false) = true
    ∧ (match decodeWord (0x1AE * 2 ^ 54) with | .qwait _ => true | _ => false) = true
    ∧ (match decodeWord (0x200 * 2 ^ 54) with | .mma _ => true | _ => false) = true
    ∧ (match decodeWord (0x20C * 2 ^ 54) with | .cwait _ => true | _ => false) = true
    ∧ (match decodeWord (0x249 * 2 ^ 54) with | .ctxld _ => true | _ => false) = true
    ∧ (match decodeWord (0x280 * 2 ^ 54) with | .reservedOpcode _ => true | _ => false) = true := by decide
/-- Bytes that are no word are refused. -/
theorem test_decode_bytes : (match decodeBytes [0#8] with | .error _ => true | .ok _ => false) = true := by decide

/-! Worked examples of the spec (types: 0 s8, 2 s32, 4 z8, 6 z32). -/

/-- R101: ADD.sat.z8 of 0xF0 and 0x20 writes 0xFF and sets SAT (status bit 5); ADD.s8 writes 0x10. -/
theorem test_add : g (after (.addRRR (rr (G 1) (G 2) (G 3) (G 0) 4 1)) (regs [(0, 2, 0xF0), (0, 3, 0x20)] st0)) 0 1 = 0xFF
    ∧ g (after (.addRRR (rr (G 1) (G 2) (G 3) (G 0) 0 0)) (regs [(0, 2, 0xF0), (0, 3, 0x20)] st0)) 0 1 = 0x10 := by decide
/-- R101: MULH.s32 of 0x8000_0000 and 2 is 0xFFFF_FFFF. -/
theorem test_mulh : g (after (.mulh (rr (G 1) (G 2) (G 3) (G 0) 2 0)) (regs [(5, 2, 0x80000000), (5, 3, 2)] st0)) 5 1 = 0xFFFFFFFF := by decide
/-- R103: -7 / 2 is -3, remainder -1; unsigned 0xFFFF_FFF9 / 2 is 0x7FFF_FFFC. -/
theorem test_div : pendG (after (.div (rr (G 1) (G 2) (G 3) (G 0) 2 0)) (regs [(0, 2, 0xFFFFFFF9), (0, 3, 2)] st0)) 0 1 = some 0xFFFFFFFD
    ∧ pendG (after (.div (rr (G 1) (G 2) (G 3) (G 0) 6 0)) (regs [(0, 2, 0xFFFFFFF9), (0, 3, 2)] st0)) 0 1 = some 0x7FFFFFFC := by decide
theorem test_rem : pendG (after (.rem (rr (G 1) (G 2) (G 3) (G 0) 2 0)) (regs [(0, 2, 0xFFFFFFF9), (0, 3, 2)] st0)) 0 1 = some 0xFFFFFFFF := by decide
/-- R104: NOT.s8 of 1 writes 0xFFFF_FFFE, NOT.z8 writes 0xFE. -/
theorem test_not : g (after (.not (rr (G 1) (G 2) (G 0) (G 0) 0 0)) (regs [(0, 2, 1)] st0)) 0 1 = 0xFFFFFFFE
    ∧ g (after (.not (rr (G 1) (G 2) (G 0) (G 0) 4 0)) (regs [(0, 2, 1)] st0)) 0 1 = 0xFE := by decide
/-- R105: SHL by 32 gives 0; SHR.s32 of a negative number by 40 gives -1. -/
theorem test_shl : g (after (.shlRRR (rr (G 1) (G 2) (G 3) (G 0) 6 0)) (regs [(0, 2, 5), (0, 3, 32)] st0)) 0 1 = 0 := by decide
theorem test_shr : g (after (.shrRRR (rr (G 1) (G 2) (G 3) (G 0) 2 0)) (regs [(0, 2, 0x80000000), (0, 3, 40)] st0)) 0 1 = 0xFFFFFFFF := by decide
/-- R106: CLZ.z32 of zero gives 32. -/
theorem test_clz : g (after (.clz (rr (G 1) (G 2) (G 0) (G 0) 6 0)) st0) 0 1 = 32 := by decide
/-- R107: BFX.s32 of 0xF80 under 0x0507 is -1; BFX.z32 is 0x1F. -/
theorem test_bfx : g (after (.bfxRRR (rr (G 1) (G 2) (G 3) (G 0) 2 0)) (regs [(0, 2, 0xF80), (0, 3, 0x507)] st0)) 0 1 = 0xFFFFFFFF
    ∧ g (after (.bfxRRR (rr (G 1) (G 2) (G 3) (G 0) 6 0)) (regs [(0, 2, 0xF80), (0, 3, 0x507)] st0)) 0 1 = 0x1F := by decide
/-- R108: the three examples of BSWZ. -/
theorem test_bswz :
    g (after (.bswz (rr (G 1) (G 2) (G 3) (G 4) 6 0)) (regs [(0, 2, 0x44332211), (0, 3, 0x88776655), (0, 4, 0x000801C5)] st0)) 0 1 = 0xFF881166
    ∧ g (after (.bswz (rr (G 1) (G 2) (G 3) (G 4) 6 0)) (regs [(0, 2, 0x44332211), (0, 3, 0x88776655), (0, 4, 0x000E0001)] st0)) 0 1 = 0x22
    ∧ g (after (.bswz (rr (G 1) (G 2) (G 3) (G 4) 6 0)) (regs [(0, 2, 0x44332211), (0, 3, 0x88776655), (0, 4, 0x0000F000)] st0)) 0 1 = 0 := by decide
/-- R102: a carry out of the 32-bit sum goes to the predicate. -/
theorem test_addx : g (after (.addx (rr (G 1) (G 2) (G 3) (P 2) 6 0)) (regs [(0, 2, 0xFFFFFFFF), (0, 3, 1)] st0)) 0 1 = 0
    ∧ pRead (crew0 (after (.addx (rr (G 1) (G 2) (G 3) (P 2) 6 0)) (regs [(0, 2, 0xFFFFFFFF), (0, 3, 1)] st0))) 0 2 = true := by decide
/-- R111: LEA wraps at 2^64; R110: MOVK.hi keeps the low half. -/
theorem test_lea : g (after (.leaRRR (rr (G 4) (G 2) (G 6) (G 0) 2 3)) (regs [(0, 2, 0xFFFFFFFF), (0, 3, 0xFFFFFFFF), (0, 6, 2)] st0)) 0 4 = 15
    := by decide
theorem test_movk : g (after (.movk { gd := always, d := G 1, a := G 0, ty := 6, opt := 0, imm := 0x1ABCD }) (regs [(0, 1, 0x11112222)] st0)) 0 1
    = 0xABCD2222 := by decide
/-- R128: a ballot of the fibres whose register is not zero. -/
theorem test_ballot : g (after (.ballot (rr (G 1) (G 2) (G 0) (K 0) 0 0)) (regs [(0, 2, 1), (4, 2, 9)] (setK st0 r0 0 0xFFFFFFFF))) 7 1 = 0x11 := by decide
/-- R146: 1.0 + 2.0 is 3.0; R149: the class of minus zero; R152: 1.0 as BF16 code. -/
theorem test_fadd : g (after (.fadd (rr (G 1) (G 2) (G 3) (G 0) 8 0)) (regs [(0, 2, 0x3F800000), (0, 3, 0x40000000)] st0)) 0 1 = 0x40400000 := by decide
/-- R119: FSPAWN finds no FREE slot in a full crew; R121: ACTIVE names every fibre of the batch. -/
theorem test_active : g (after (.active (rr (G 1) (G 0) (G 0) (G 0) 0 0)) st0) 31 1 = 0xFFFFFFFF := by decide
/-- R163, R164: a store to PAD and a load of its low byte, sign-extended. -/
theorem test_st_pad : homeBytes st0 0 0 = [] ∧
    padNat (after (.st (mem 2 4 8 2 1 0 false)) (regs [(0, 2, 0x11223344), (0, 4, 16)] (pads (batchIs (fun b => { b with mask := 1#32 }) st0)))) 0 0 24 4
    = 0x11223344 := by decide
/-- R35: FIBREID is the slot; R246: CSLOPE as written. -/
theorem test_rdsys : g (after (.rdsys (sysf (G 2) (G 0) 0x002 0)) st0) 9 2 = 9 := by decide
theorem test_wrsys : (clusterOf (after (.wrsysCslope (sysf (G 0) (G 2) 0x020 0)) (regs [(31, 2, 0x0420)] st0)) 0).cslope = 0x0420#16 := by decide
/-- R239: ERET in the user view raises PRIVILEGE. -/
theorem test_privilege : ((crew0 (after (.eret (rr (G 0) (K 0) (G 0) (G 0) 0 0)) (user st0))).trapWait.flatMap (fun w => w.faults.map (·.2.kind))).head?
    = some .privilege := by decide
/-- R51: a reserved opcode raises ILLEGAL for the 32 fibres of the batch. -/
theorem test_reserved : ((crew0 (after (.reservedOpcode 0x07C0000000000000) st0)).trapWait.flatMap (fun w => w.faults.map (·.2.kind)))
    = List.replicate 32 .illegal := by decide
/-- R45, R46: a step from the probe fetches the word at the crew's place, decodes it and runs it. -/
theorem test_step : g (nextOf (step (State.reset.withFetchWord 64 (0x050 * 2 ^ 54 + 15 * 2 ^ 50 + 3 * 2 ^ 41 + 77))) st0) 12 3 = 77 := by decide
/-- R411: the device number brings the machine up. -/
theorem test_device_number : (after (.deviceNumberSet 4) State.reset).boot.phase = .up := by decide

/-! Witnesses: for the hypotheses of each statement, a state and operands that meet them all. `all` checks one for each constructor. -/

def passes (s : State) (sp : WordSpec) : Bool := passesB s (at0 s) sp
theorem wit_of {s : State} {sp : WordSpec} (h : passes s sp = true) : ∃ a, Passes s a sp := ⟨_, passes_of h⟩

/-- StepRunsWhatIsNext: an input taken, an input dropped, an event due, nothing to do. -/
theorem wit_step_input : isInput (.deviceNumberSet 0) = true ∧ isInput .clauseBegin = false := by decide
theorem wit_step_command : isNext (step { State.reset with commands := [.preempt 1 0x1000] }) = true ∧ State.reset.inputs = [] := by decide
theorem wit_step_due : (dueEvent (crewIs (fun c => { c with launches := [{ block := [], dest := .g 0 1, flag := none, ctx := 1 }] }) st0)).isSome = true := by decide
theorem wit_step_idle : dueEvent State.reset = none ∧ (nextIssue State.reset).2 = none ∧ lateEvent (nextIssue State.reset).1 = none := by decide
/-- A crew that is owed a fall, and has nothing to issue. -/
def stOwed : State := crewIs (fun c => { c with falls := [(0, 0)], flags := [(0, 1#4)], batches := [], cur := none }) st0
theorem wit_step_late : dueEvent stOwed = none ∧ (nextIssue stOwed).2 = none ∧ (lateEvent (nextIssue stOwed).1).isSome = true := by decide
/-- The pick's place and the state in which it issues (`p` and `q` of the statement), for a state without inputs and events. -/
def issuing (s : State) : Option (At × State) :=
  match s.inputs, s.commands, dueEvent s, nextIssue s with
  | [], [], none, (u, some (r, bi)) =>
    let p := firstIssue { u with issue := some { crew := r, bi := bi } } r
    (atOf p r bi).map (fun a => (a, if a.b.next = 0 ∧ a.b.rep = false then
      updCrew p r (fun c => { c with batches := modAt c.batches bi (fun b => { b with opened := p.cycle }) }) else p))
  | _, _, _, _ => none
def noCur (s : State) : State := crewIs (fun c => { c with cur := none }) s
/-- The words that the pick issues, with its batch. -/
def issued (s : State) : Option (Batch × List Instr) :=
  (issuing s).bind (fun x => match fetch64 x.2 0 x.1.ctx x.1.pc with
    | (t, .ok w) => some (x.1.b, wordsAt t x.1 w.toNat)
    | (_, .error _) => none)
theorem wit_step_clause : ((issuing (noCur (batchIs (fun b => { b with begun := false }) st0))).map (fun x => x.1.b.begun)) = some false
    ∧ ((issuing (noCur (batchIs (fun b => { b with stale := true }) st0))).map (fun x => x.1.b.stale)) = some true := by decide
theorem wit_step_repeat : ((issued (crewIs (fun c => { c with stat := withRep 0 2 0 0 0 }) (batchIs (fun b => { b with rep := true }) st0))).map
    (fun x => x.1.begun && !x.1.stale && x.1.rep)) = some true := by decide
theorem wit_step_word : ((issued st0).map (fun x => x.1.begun && !x.1.stale && !x.1.rep && decide (x.2.length ≤ 1))) = some true := by decide
/-- The page is not executable any more. -/
def stNoEx : State := { st0 with mem := placeWords st0.mem [(probeTable + 0x2000, probePa + 0xF)] }
theorem wit_step_fetch_fails : ((issuing stNoEx).map (fun x => match (fetch64 x.2 0 x.1.ctx x.1.pc).2 with | .ok _ => false | .error _ => true))
    = some true := by decide
/-- Two words in memory at the probe's place that fuse (R57): SHL and an ADD of its result. -/
def twoWords (i j : Instr) : State :=
  let w (i : Instr) : Nat := (encode i).getD 0
  let s := batchIs (fun b => { b with hdr := 0xA1F0000000000000 }) st0
  { s with mem := placeWords s.mem [(probePa + probeVa, 0xA1F0000000000000), (probePa + probeVa + 8, w i), (probePa + probeVa + 16, w j)] }
def shlW : Instr := .shlRRR (rr (G 1) (G 2) (G 3) (G 0) 6 0)
def addW : Instr := .addRRR (rr (G 4) (G 1) (G 2) (G 0) 2 0)
theorem wit_step_fused : ((issued (twoWords shlW addW)).map (fun x => x.1.begun && !x.1.stale && !x.1.rep && decide (1 < x.2.length))) = some true := by decide
theorem wit_fetch : ∃ (e : TlbEntry), let s := clusterIs (fun c => { c with tlb := [e] }) st0;
    tlbHit (clusterOf s 0).tlb 1 0x108 = some e ∧ e.ex = true ∧ look (clusterOf s 0).icache (locOf e 0x108 / 64 * 64) = none
    ∧ locOf e 0x108 % 8 = 0 ∧ behindIsolated s (locOf e 0x108) = false ∧ peerGone s (locOf e 0x108) = false :=
  ⟨{ ctx := 1, va := 0, bits := 30, pa := probePa, rd := true, wr := true, ex := true }, by decide⟩
/-- StepKeepsCells: the probe takes a step; its cells are in canonical form. -/
theorem wit_cells : cellsOk st0 = true ∧ isNext (step st0) = true := by decide
theorem wit_memory : Memory.wf st0.mem = true ∧ 2 ^ 51 - 1 + [1#8].length ≤ 2 ^ 51 := by decide

/-! Words of the tables, each at an operand of its highest number. -/

def f3 (t opt : Nat) : RRR := rr (G 15) (G 2) (G 3) (G 4) t opt
def f2 (t opt : Nat) : RRR := rr (G 15) (G 2) (G 3) (G 0) t opt
def f1 (t opt : Nat) : RRR := rr (G 15) (G 2) (G 0) (G 0) t opt
def i17 (t opt imm : Nat) : RI17 := { gd := always, d := G 15, a := G 2, ty := BitVec.ofNat 4 t, opt := BitVec.ofNat 8 opt, imm := BitVec.ofNat 17 imm }
def i32 : RI32 := { gd := always, k := false, d := 15, a := 2, imm := 0x80000000 }

def arithAll : List Instr :=
  [.addRRR (f2 2 1), .addRI17 (i17 2 1 0x1FFFF), .addRI32 i32, .subRRR (f2 2 0), .subRI17 (i17 4 0 1), .subRI32 i32, .mulRRR (f2 6 0),
   .mulRI17 (i17 2 0 3), .mulRI32 i32, .mulh (f2 2 0), .mad (f3 2 1), .neg (f1 2 1), .abs (f1 0 1), .minRRR (f2 2 0), .minRI17 (i17 2 0 0),
   .maxRRR (f2 6 0), .maxRI17 (i17 6 0 0), .clamp (f3 2 0)]
theorem wit_arith : arithAll.all (fun i => (arithOf i).any (fun w => passes st0 w.sp)) = true := by decide
theorem wit_carry : [Instr.addx (rr (G 15) (G 2) (G 3) (P 15) 6 0), .subx (rr (G 15) (G 2) (G 3) (P 0) 6 0)].all
    (fun i => (carryOf i).any (fun w => passes st0 w.sp)) = true := by decide
theorem wit_logic : [Instr.andRRR (f2 6 0), .andRI17 (i17 6 0 0), .andRI32 i32, .orRRR (f2 6 0), .orRI17 (i17 6 0 0), .orRI32 i32, .xorRRR (f2 6 0),
    .xorRI17 (i17 6 0 0), .xorRI32 i32, .andnRRR (f2 6 0), .andnRI17 (i17 6 0 0), .andnRI32 i32, .not (f1 6 0)].all
    (fun i => (logicOf i).any (fun w => passes st0 w.sp)) = true := by decide
theorem wit_shift : [Instr.shlRRR (f2 6 0), .shlRI17 (i17 6 0 31), .shrRRR (f2 2 0), .shrRI17 (i17 2 0 31), .rotRRR (f2 6 0), .rotRI17 (i17 6 0 1)].all
    (fun i => (shiftOf i).any (fun w => passes st0 w.sp)) = true := by decide
theorem wit_field : [Instr.clz (f1 6 0), .ctz (f1 6 0), .popc (f1 6 0), .brev (f1 6 0), .bfxRRR (f2 6 0), .bfxRI17 (i17 6 0 0xFFFF), .bfi (f3 6 0),
    .bswz (f3 6 0)].all (fun i => (fieldOf i).any (fun w => passes st0 w.sp)) = true := by decide
theorem wit_move : [Instr.sel (rr (G 15) (G 2) (G 3) (P 1) 6 0), .cmpRRR (f2 2 5), .cmpRI17 (i17 2 5 0), .mov (f1 2 0),
    .leaRRR (rr (G 14) (G 2) (G 4) (G 0) 2 7), .leaRI17 { i17 2 7 1 with d := G 14 }, .movi { i32 with a := 0 }, .movk { i17 6 0 0x1FFFF with a := G 0 }].all
    (fun i => (moveOf i).any (fun w => passes st0 w.sp)) = true := by decide
theorem wit_pred : [Instr.pand (rr (P 15) (P 15) (P 1) (G 0) 0 0), .por (rr (P 0) (P 15) (P 1) (G 0) 0 0), .pxor (rr (P 0) (P 15) (P 1) (G 0) 0 0),
    .pnot (rr (P 0) (P 15) (G 0) (G 0) 0 0), .p2g (f1 6 0), .g2p (rr (G 0) (G 2) (G 3) (G 0) 6 0), .active (rr (G 15) (G 0) (G 0) (G 0) 0 1),
    .nop (rr (G 0) (G 0) (G 0) (G 0) 0 0)].all (fun i => (predOf i).any (fun w => passes st0 w.sp)) = true := by decide
theorem wit_float : [Instr.fadd (f2 8 0), .fsub (f2 9 1), .fmul (f2 10 2), .ffma (f3 8 0), .hpadd (f2 9 0), .hpmul (f2 10 0), .hpfma (f3 9 0),
    .fmin (f2 8 0), .fmax (f2 8 0), .fcmp (f2 8 7), .fclass (f1 8 0), .frnd (f1 8 0)].all
    (fun i => (floatOf i).any (fun w => passes st0 w.sp)) = true := by decide
theorem wit_later : [Instr.div (f2 2 0), .rem (f2 2 0), .rcp (f1 8 0), .rsq (f1 8 0), .sqrt (f1 8 0), .exp2 (f1 8 0), .log2 (f1 8 0), .sin (f1 8 0),
    .cos (f1 8 0), .tanh (f1 8 0), .fcvt (f1 9 0), .f2i (f1 2 0), .i2f (f1 8 8), .pack8 (f2 0 3), .unpack8 (f1 11 3)].all
    (fun i => (laterOf i).any (fun w => passes st0 w.sp)) = true := by decide
/-- IllegalWordsTrap: register 16 does not exist in a window of 16. -/
theorem wit_illegal : (arithOf (.addRRR (rr (G 16) (G 2) (G 3) (G 0) 2 0))).any (fun w => decide (issuer st0 = some (at0 st0))
    && framed (at0 st0) w.sp.port w.sp.ct && decide (active (at0 st0) w.sp.gd ≠ []) && !w.sp.legal (at0 st0).crew.win) = true := by decide

/-! Control. The pair k2 holds the address of the probe's header; k4 one that is no multiple of 8. -/

def stK : State := setK (setK st0 r0 2 0x100) r0 4 0x104
def transfers (x : Nat) : List Instr :=
  [.brx (rr (G 0) (K x) (G 0) (G 0) 0 0), .callx (rr (G 14) (K x) (G 0) (G 0) 0 0), .ret (rr (G 0) (K x) (G 0) (G 0) 0 0)]
theorem wit_transfer : ([Instr.bra (br 0xFFFFFFFF), .call { br 0xFFFFFFFF with link := 14 }] ++ transfers 2).all (fun i => (transferOf i).any (fun w =>
    passes stK w.sp && decide ((checkTargets stK (at0 stK) ((active (at0 stK) w.sp.gd).map (fun j => (j, w.target stK (at0 stK) j)))).2
      = (active (at0 stK) w.sp.gd).map (fun j => (j, none))))) = true := by decide
/-- The cluster holds the probe's page and the line of its header at hand. -/
def warmPage : TlbEntry := { ctx := 1, va := 0, bits := 30, pa := probePa, rd := true, wr := true, ex := true }
def warm (s : State) : State :=
  clusterIs (fun c => { c with tlb := [warmPage], icache := [(probePa + 0x100, 0xA0F0000000000000)] })
    { s with die0 := { s.die0 with tlb := [warmPage] } }
theorem warm_target {s : State} (h : tlbHit (clusterOf s 0).tlb 1 0x100 = some warmPage ∧ warmPage ∈ (dieOf s 0).tlb
    ∧ look (clusterOf s 0).icache 0x40000100 = some 0xA0F0000000000000 ∧ (at0 s).ref.cl = 0 ∧ (at0 s).ctx = 1) : WarmTarget s (at0 s) 0x100 := by
  obtain ⟨h1, h2, h3, h4, h5⟩ := h
  exact ⟨by decide, by decide, warmPage, 0xA0F0000000000000, by rw [h4, h5]; exact h1, by rw [h4]; exact h2, rfl, by rw [h4]; exact h3,
    by decide⟩
theorem wit_transfer_warm : WarmTarget (warm stK) (at0 (warm stK)) 0x100 := warm_target (by decide)
theorem wit_transfer_warm_words : ([Instr.bra (br 0xFFFFFFFF), .call { br 0xFFFFFFFF with link := 14 }] ++ transfers 2).all (fun i =>
    (transferOf i).any (fun w => passes (warm stK) w.sp
      && (active (at0 (warm stK)) w.sp.gd).all (fun j => w.target (warm stK) (at0 (warm stK)) j == 0x100))) = true := by decide
theorem wit_misaligned : (transfers 4).all (fun i => (transferOf i).any (fun w => passes stK w.sp
    && (active (at0 stK) w.sp.gd).all (fun j => decide (w.target stK (at0 stK) j % 8 ≠ 0)))) = true := by decide
/-- A crew with slot 31 FREE whose batch has one fibre. -/
def stFree : State := crewIs (fun c => { c with live := 0x7FFFFFFF#32 }) (batchIs (fun b => { b with mask := 1#32 }) st0)
def spawnChecks : WordSpec := brChecks (br 0xFFFFFFFF) false (fun _ => (br 0xFFFFFFFF).rsv == 0#9 && (br 0xFFFFFFFF).link == 0) []
theorem wit_fspawn : passes (warm stFree) spawnChecks = true ∧ brAddr (at0 (warm stFree)) (br 0xFFFFFFFF) = 0x100
    ∧ freshSlots (at0 (warm stFree)).crew 1 = [31] ∧ freshSlots (at0 (warm st0)).crew 1 = [] := by decide
theorem wit_fspawn_warm : WarmTarget (warm stFree) (at0 (warm stFree)) 0x100 := warm_target (by decide)
/-- A header that is no multiple of 8: its words' targets are none either. -/
theorem wit_fspawn_misaligned : (let s := batchIs (fun b => { b with header := 0x104 }) st0;
    passes s spawnChecks = true ∧ brAddr (at0 s) (br 0xFFFFFFFF) % 8 ≠ 0) ∧ (crewOf st0 r0).isSome = true := by decide
theorem wit_fend : passes st0 (rrrSpec { port := 0, d := pNone, a := pNone, b := pNone, c := pNone, ty := true, opt := true }
      (rr (G 0) (G 0) (G 0) (G 0) 0 0) true false false) = true := by decide
theorem wit_fend_bars : noBarrier (at0 st0).crew := by
  have h : (at0 st0).crew.batches = [(at0 st0).b] := by decide
  intro b hb
  rw [h, List.mem_singleton] at hb
  subst hb
  exact ⟨fun _ => rfl, rfl⟩
theorem wit_hint : (issuer st0).isSome = true ∧ passes st0 (ctlChecks (rr (G 0) (G 0) (G 0) (G 0) 0 0) pNone pNone pNone false) = true := by decide
/-- WAIT of f11, clear and set; SLEEP of the longest count. -/
def stW : State := setK st0 r0 1 0x800
theorem wit_wait : passes stW (ctlChecks (rr (G 0) (K 1) (G 0) (G 0) 0 0) pNone pMask pNone false) = true
    ∧ flagsClear (at0 stW).crew (opdVal stW (at0 stW) 0 (K 1) 1 % 2 ^ 12) = true
    ∧ (let s := crewIs (fun c => { c with flags := [(11, 1#4)] }) stW;
       flagsClear (at0 s).crew (opdVal s (at0 s) 0 (K 1) 1 % 2 ^ 12) = false ∧ issuer s = some (at0 s)) := by decide
theorem wit_sleep : passes st0 (ctlChecks (rr (G 0) (G 15) (G 0) (G 0) 0 0) pNone pGks pNone false) = true := by decide
theorem wit_wait_end : (at0 (batchIs (fun b => { b with wait := .flags 1 }) st0)).b.wait = .flags 1
    ∧ (at0 (batchIs (fun b => { b with wait := .flags 1 }) st0)).b.begun = true ∧ flagsClear (at0 st0).crew 1 = true := by decide
theorem wit_sleep_end : issuer (batchIs (fun b => { b with wait := .sleep 0 }) st0) = some (at0 (batchIs (fun b => { b with wait := .sleep 0 }) st0))
    ∧ 0 ≤ st0.cycle := by decide
def stDrain : State := crewIs (fun c => { c with pend := [{ dst := .g 31 0, val := none, ready := false }] })
  (batchIs (fun b => { b with wait := .drain, mask := 0x7FFFFFFF#32 }) st0)
theorem wit_drain_end : issuer stDrain = some (at0 stDrain) ∧ (at0 stDrain).b.wait = .drain
    ∧ (∀ p ∈ (at0 stDrain).crew.pend, p.dst = .g 31 0) ∧ (at0 stDrain).b.mask.getLsbD 31 = false := by decide
def stFall : State := crewIs (fun c => { c with falls := [(11, 7)], flags := [(11, 15#4)] }) st0
theorem wit_fall : (crew0 stFall).falls = [(11, 7)] ∧ 0 < flagCount (crew0 stFall) 11 ∧ (crewOf stFall r0).isSome = true := by decide
/-- LWAIT: grid 1 is a child of the team and lives; grid 2 is none. -/
def child1 : Grid := { grid1 with gid := 1, launcher := some { crew := r0, team := teamHolder 1 0 0 0, flag := none } }
def stChild : State := { st0 with grids := st0.grids ++ [child1] }
theorem wit_lwait : passes stChild (lwaitChecks (rr (G 1) (G 2) (G 0) (G 0) 0 0)) = true ∧ passes stChild (lwaitChecks (rr (G 1) (G 2) (G 0) (G 0) 0 1)) = true
    ∧ lwaitAnswer stChild (at0 stChild) 1 = none ∧ lwaitAnswer stChild (at0 stChild) 2 ≠ none := by decide

/-- A waiting LWAIT whose fibres have learnt their answers. -/
theorem wit_lwait_end : (let s := batchIs (fun b => { b with wait := .lwait (G 1) [(0, 1, some 0), (31, 2, some 3)] }) stChild;
    issuer s = some (at0 s) ∧ (at0 s).b.wait = .lwait (G 1) [(0, 1, some 0), (31, 2, some 3)] ∧ (at0 s).b.mask ≠ 0#32) := by decide

/-! Gathering words. `stAll`: one batch and k0 names it all; `stHalf`: k0 names a second batch too, which has not arrived. -/

def stAll : State := setK st0 r0 0 0xFFFFFFFF
def halves (l : List Batch) : List Batch :=
  l.map (fun b => { b with mask := 0xFFFF#32 }) ++ l.map (fun b => { b with mask := 0xFFFF0000#32, header := 0x200 })
def stHalf : State := crewIs (fun c => { c with batches := halves c.batches }) stAll
def gathers : List Instr :=
  [.join (rr (G 0) (K 0) (G 0) (G 0) 0 0), .lxch (rr (G 1) (G 2) (G 3) (K 0) 6 0), .vote (rr (G 1) (G 2) (G 0) (K 0) 0 3),
   .ballot (rr (G 1) (G 2) (G 0) (K 0) 0 0), .redux (rr (G 1) (G 2) (G 0) (K 0) 2 0), .scan (rr (G 1) (G 2) (G 0) (K 0) 2 0),
   .matchq (rr (G 1) (G 2) (G 0) (K 0) 6 0), .mxq (rr (G 1) (G 2) (G 0) (K 0) 8 0)]
def maskOf (s : State) (o : Opd) : W32 := BitVec.ofNat 32 (opdVal s (at0 s) 0 o 1)
theorem wit_gather_parks : gathers.all (fun i => (gatherOf i).any (fun w => passes stHalf w.1
    && decide ((at0 stHalf).b.mask &&& ~~~maskOf stHalf w.2 = 0#32) && !(at0 stHalf).b.rep && (at0 stHalf).crew.groups.isEmpty
    && decide (maskOf stHalf w.2 &&& (at0 stHalf).crew.live &&& ~~~(at0 stHalf).b.mask ≠ 0#32))) = true := by decide
/-- k0 names the other half alone: ILLEGAL. -/
def stOther : State := setK stHalf r0 0 0xFFFF0000
theorem wit_gather_illegal : gathers.all (fun i => (gatherOf i).any (fun w => passes stOther w.1
    && decide ((at0 stOther).b.mask &&& maskOf stOther w.2 = 0#32) && !(at0 stOther).b.rep && (at0 stOther).crew.groups.isEmpty)) = true := by decide
theorem wit_gathers_alone : GathersAlone (at0 stAll) 0xFFFFFFFF#32 :=
  ⟨by decide, by decide, by decide, by decide, by decide, by decide⟩
theorem wit_gather_whole : gathers.all (fun i => (gatherOf i).any (fun w => passes stAll w.1 && decide (maskOf stAll w.2 = 0xFFFFFFFF#32))) = true := by decide
theorem wit_cross : gathers.all (fun i => match i with
    | .join _ => true | .mxq _ => true
    | i => (crossYield i (regatheredState stAll (at0 stAll)) (regatheredAt stAll (at0 stAll)) (at0 stAll).b.mask).isSome) = true := by decide
def grp (i : Instr) (since : Nat) : Group := { addr := 0x108, mask := 0xFFFFFFFF#32, arrivals := 0xFFFFFFFF#32, since := since, ins := i, handler := false, late := false }
def stGroup : State := crewIs (fun c => { c with groups := [grp (.join (rr (G 0) (K 0) (G 0) (G 0) 0 0)) 0] })
  (batchIs (fun b => { b with wait := .group 0x108 0xFFFFFFFF#32 }) st0)
theorem wit_group_complete : ((crew0 stGroup).groups.find? (groupFull (crew0 stGroup))).isSome = true
    ∧ ((crew0 stGroup).batches.find? (inGroup (grp (.join (rr (G 0) (K 0) (G 0) (G 0) 0 0)) 0))).isSome = true ∧ (crewOf stGroup r0).isSome = true := by decide
/-- A group of every cross-lane word that stands at once, and the crew after its completion. -/
def crosses : List Instr := gathers.filter (fun i => match i with | .join _ => false | .mxq _ => false | _ => true)
def stCross (i : Instr) : State := crewIs (fun c => { c with groups := [grp i 0] }) stGroup
def crossed (i : Instr) : Crew := { crew0 (stCross i) with groups := [], batches := [{ readyAt 0 (at0 stGroup).b with mask := 0xFFFFFFFF#32 }] }
theorem wit_cross_complete : crosses.all (fun i =>
    ((crew0 (stCross i)).groups.find? (groupFull (crew0 (stCross i)))).any (fun g => decide (g = grp i 0))
    && ((crew0 (stCross i)).batches.find? (inGroup (grp i 0))).isSome && (crossOf i).any (fun x => x.2.legal 16)
    && (crossYield i (updCrew (stCross i) r0 (fun _ => crossed i))
        { ref := r0, bi := 0, crew := crossed i, team := { (at0 stGroup).team with crews := [crossed i] },
          b := { readyAt 0 (at0 stGroup).b with mask := 0xFFFFFFFF#32 } } 0xFFFFFFFF#32).isSome) = true := by decide
def stLate : State :=
  { batchIs (fun b => { b with mask := 1#32, wait := .group 0x108 0xFFFFFFFF#32 })
      (crewIs (fun c => { c with groups := [{ grp (.nop (rr (G 0) (G 0) (G 0) (G 0) 0 0)) 0 with arrivals := 1#32 }] }) st0) with
    cycle := 2 ^ 24 }
theorem wit_group_late : ((crew0 stLate).groups.find? (groupLate stLate.cycle (crew0 stLate))).any
      (fun g => (crew0 stLate).batches.any (inGroup g)) = true ∧ (crewOf stLate r0).isSome = true
    ∧ ((crew0 (crewIs (fun c => { c with batches := [] }) stLate)).groups.find?
        (groupLate stLate.cycle (crew0 (crewIs (fun c => { c with batches := [] }) stLate)))).isSome = true := by decide

/-! Barriers. -/

def kz : Pos := { n := 1, g := false, k := true, p := false, sp := [0, 1] }
def barF : RRR := rr (G 1) (K 0) (S 1) (G 0) 0 0
theorem wit_bar : passes stAll (ctlChecks barF (pDst false) pMask kz true) = true ∧ passes stHalf (ctlChecks barF (pDst false) pMask kz true) = true
    ∧ (at0 stAll).b.rep = false ∧ barObj (at0 stAll).team 15 = { arrived := 0#32, set := none, gen := 0 }
    ∧ allParked (crew0 (Waits stAll (at0 stAll) (.bar 15 1#32 (G 1)) true)) (atBar 15) = true
    ∧ allParked (crew0 (Waits stHalf (at0 stHalf) (.bar 15 1#32 (G 1)) true)) (atBar 15) = false := by decide
/-- In a REP sequence, by a batch that lacks half of the crew; a mask that names crew 1, which is not there. -/
def stRepHalf : State := batchIs (fun b => { b with rep := true }) stHalf
theorem wit_bar_rep : passes stRepHalf (ctlChecks barF (pDst false) pMask kz true) = true ∧ (at0 stRepHalf).b.rep = true
    ∧ (at0 stRepHalf).crew.live &&& ~~~(at0 stRepHalf).b.mask ≠ 0#32 := by decide
def barF3 : RRR := rr (G 1) (K 0) (K 3) (G 0) 0 0
def stBar3 : State := setK stAll r0 3 3
theorem wit_bar_illegal : passes stBar3 (ctlChecks barF3 (pDst false) pMask kz true) = true ∧ (at0 stBar3).b.rep = false
    ∧ allParked (crew0 (Waits stBar3 (at0 stBar3) (.bar 15 3#32 (G 1)) true)) (atBar 15) = true
    ∧ 3#32 &&& ~~~(BitVec.ofNat 32 (2 ^ (at0 stBar3).team.crews.length - 1)) ≠ 0#32 := by decide
def coop (s : State) : State := { s with grids := [{ grid1 with coop := true }] }
theorem wit_gbar : passes (coop stAll) (ctlChecks (rr (G 1) (G 0) (G 0) (G 0) 0 0) (pDst false) pNone pNone true) = true
    ∧ passes (coop stHalf) (ctlChecks (rr (G 1) (G 0) (G 0) (G 0) 0 0) (pDst false) pNone pNone true) = true
    ∧ (gridOf (coop stAll) 1 0).any (·.coop) = true
    ∧ allParked (crew0 (Waits stAll (at0 stAll) (.gbar (G 1)) true)) atGbar = true
    ∧ allParked (crew0 (Waits stHalf (at0 stHalf) (.gbar (G 1)) true)) atGbar = false := by decide
theorem wit_gbar_stops : (passes stAll (ctlChecks (rr (G 1) (G 0) (G 0) (G 0) 0 0) (pDst false) pNone pNone true) = true
      ∧ (gridOf stAll 1 0).any (fun g => !g.coop) = true)
    ∧ passes (coop stRepHalf) (ctlChecks (rr (G 1) (G 0) (G 0) (G 0) 0 0) (pDst false) pNone pNone true) = true
    ∧ (gridOf (coop stRepHalf) 1 0).any (·.coop) = true ∧ (at0 (coop stRepHalf)).b.rep = true := by decide
def stBar : State := teamIs (fun t => { t with bars := [(15, { arrived := 1#32, set := some 1#32, gen := 2 ^ 32 - 1 })] })
  (batchIs (fun b => { b with wait := .bar 15 1#32 (G 1) }) st0)
theorem wit_barrier_open : (teamOf stBar 0 0).any (fun t => barFull t (barObj t 15) && !t.saved && (barObj t 15).set.any (fun m => m.getLsbD 0)
    && decide ((crew0 stBar).live ≠ 0#32)) = true := by decide
def stGbar : State := coop (batchIs (fun b => { b with wait := .gbar (G 1) }) st0)
theorem wit_grid_barrier_open : (gridOf stGbar 1 0).any (gbarFull stGbar) = true := by decide
def stWave : State := clusterIs (fun c => { c with waves := [{ ts := 0, cr := 0, grid := false, opened := 0 }] }) (batchIs (fun b => { b with wait := .wave (G 1) }) st0)
theorem wit_wave : waveDue stWave (clusterOf stWave 0) = true ∧ (crew0 stWave).batches.filter isWave = [(at0 stWave).b]
    ∧ (at0 stWave).b.wait = .wave (G 1) ∧ (teamOf stWave 0 0).isSome = true := by decide

/-! REP and fusion. -/

def repW : REPF := { gd := always, hi := 0, count := 63, mask := 8, step := 0, lo := 0 }
theorem wit_rep : issuer (twoWords (.rep repW) addW) = some (at0 (twoWords (.rep repW) addW)) ∧ (at0 (twoWords (.rep repW) addW)).b.next = 0
    ∧ hdrCount (at0 (twoWords (.rep repW) addW)).b.hdr = 1
    ∧ (nextWordOf (twoWords (.rep repW) addW) (at0 (twoWords (.rep repW) addW))).2.any (fun w => !repMisused repW w.toNat) = true
    ∧ repLeft (at0 (twoWords (.rep repW) addW)).crew.stat = 0 := by decide
theorem wit_rep_misused : (nextWordOf (twoWords (.rep repW) (.bra (br 0))) (at0 (twoWords (.rep repW) (.bra (br 0))))).2.any
    (fun w => repMisused repW w.toNat) = true ∧ (issuer (twoWords (.rep repW) (.bra (br 0)))).isSome = true := by decide
theorem wit_rep_busy : (let s := crewIs (fun c => { c with stat := withRep 0 1 0 0 0 }) (twoWords (.rep repW) addW);
    issuer s = some (at0 s) ∧ repLeft (at0 s).crew.stat ≠ 0) := by decide
theorem wit_rep_last : (let s := batchIs (fun b => { b with next := 1 }) (twoWords (.rep repW) addW);
    issuer s = some (at0 s) ∧ (at0 s).b.next = hdrCount (at0 s).b.hdr) := by decide
/-- The first repeat of a sequence whose word turns out to be a branch. -/
def stRepBra : State := batchIs (fun b => { b with rep := true, next := 1 }) (crewIs (fun c => { c with stat := withRep 0 64 0 8 0 })
  (twoWords (.rep repW) (.bra (br 0))))
theorem wit_repeat_misused : (issuer stRepBra = some (at0 stRepBra) ∧ (at0 stRepBra).b.rep = true ∧ isReady (at0 stRepBra).b = true
      ∧ (at0 stRepBra).b.mask ≠ 0#32 ∧ repDone (at0 stRepBra).crew.stat = 0)
    ∧ (match (fetch64 stRepBra 0 (at0 stRepBra).ctx (at0 stRepBra).pc).2 with
       | .ok v => repMisused (openRep (at0 stRepBra).crew) v.toNat
       | .error _ => false) = true := by decide
/-- The last repeat but one of ADD g(1 + j), step mask dest: 63 done and one left is the bound; here 11 are done. -/
def stRep : State := batchIs (fun b => { b with rep := true, next := 1 }) (crewIs (fun c => { c with stat := withRep 0 2 11 8 0 })
  (twoWords (.rep repW) (.addRRR (rr (G 4) (G 2) (G 3) (G 0) 2 0))))
def stRepU : State := (fetch64 stRep 0 1 (at0 stRep).pc).1
theorem wit_repeat : issuer stRep = some (at0 stRep) ∧ (at0 stRep).b.rep = true ∧ isReady (at0 stRep).b = true
    ∧ (match (fetch64 stRep 0 (at0 stRep).ctx (at0 stRep).pc).2 with
       | .ok v => decide (decodeAdv (advOf (repMask (at0 stRep).crew.stat) (repStep (at0 stRep).crew.stat) (repDone (at0 stRep).crew.stat)) v.toNat
           = .addRRR (rr (G 15) (G 2) (G 3) (G 0) 2 0))
       | .error _ => false) = true
    ∧ (localOf (.addRRR (rr (G 15) (G 2) (G 3) (G 0) 2 0))).any (fun w => passesB stRepU (at0 stRep) w.sp) = true
    ∧ repLeft (at0 stRep).crew.stat = 2 ∧ repDone (at0 stRep).crew.stat = 11 ∧ delAt (at0 stRep).crew.batches 0 = [] := by decide
def stFused : State := twoWords shlW addW
theorem wit_fused : fusable stFused (at0 stFused) = [shlW, addW] ∧ isNext (exec shlW stFused) = true
    ∧ wentOn (after shlW stFused) (at0 stFused) 0 = true ∧ isNext (exec addW (settle (after shlW stFused) r0)) = true
    ∧ wentOn (after addW (settle (after shlW stFused) r0)) (at0 stFused) 1 = true := by decide
def w1 : Instr := .fmul (rr (G 1) (G 2) (G 3) (G 0) 8 0)
def w2 : Instr := .fcvt (rr (G 4) (G 1) (G 0) (G 0) 12 0)
def w3 : Instr := .pack8 (rr (G 5) (G 4) (G 6) (G 0) 0 0)
def stFused3 : State :=
  { batchIs (fun b => { b with hdr := 0xA2F0000000000000 }) st0 with
    mem := placeWords st0.mem [(probePa + probeVa + 8, (encode w1).getD 0), (probePa + probeVa + 16, (encode w2).getD 0),
      (probePa + probeVa + 24, (encode w3).getD 0)] }
def u1 : State := after w1 stFused3
def u2 : State := after w2 (settle u1 r0)
def u3 : State := after w3 (settle u2 r0)
theorem wit_fused3 : fusable stFused3 (at0 stFused3) = [w1, w2, w3] := by decide
theorem wit_fused3_dests : (fuseHead w1).isSome = true ∧ tripleDests [w1, w2, w3] = [G 1, G 4, G 5] := by decide
theorem wit_fused3_1 : isNext (exec w1 stFused3) = true ∧ wentOn u1 (at0 stFused3) 0 = true := by decide
theorem wit_fused3_2 : isNext (exec w2 (settle u1 r0)) = true ∧ wentOn u2 (at0 stFused3) 1 = true := by decide
theorem wit_fused3_3 : isNext (exec w3 (settle u2 r0)) = true ∧ wentOn u3 (at0 stFused3) 2 = true := by decide

/-! LAUNCH. The block: entry 0x100, one team of one crew of 16 registers on cluster 0, at the last place of the PAD. -/

def padPut (off n v : Nat) (s : State) : State := padWrite s 0 0 off (leBytes n v)
def one (s : State) : State := batchIs (fun b => { b with mask := 1#32 }) s
def blockOff : Nat := 16 * 1024 - 0x50
def stLaunch : State := padPut blockOff 8 0x100 (padPut (blockOff + 0x0C) 4 2 (padPut (blockOff + 0x10) 4 1 (one (pads st0))))
def launchF : ENG := eng 1 blockOff 2 15
theorem wit_launch : passes stLaunch (launchChecks launchF) = true ∧ active (at0 stLaunch) always = [0] ∧ (at0 stLaunch).ref.cr = 0
    ∧ flagFull (at0 stLaunch).crew (flagOf 2) = false ∧ padReadBlocked (at0 stLaunch).team blockOff 0xD0 = false
    ∧ blockOff + launchExtent (slice (padNat stLaunch 0 0 (blockOff + 0x48) 4) 0 4) = padSize (at0 stLaunch).team
    ∧ launchBad (padBytes stLaunch 0 0 blockOff 0x50) = false := by decide
theorem wit_launch_illegal : (let s := batchIs (fun b => { b with mask := 2#32 }) stLaunch;
    passes s (launchChecks launchF) = true ∧ 0 ∉ active (at0 s) always) := by decide
def stDecide (depth : Nat) : State :=
  let p : LaunchPend := { block := padBytes stLaunch 0 0 blockOff 0x50, dest := .g 0 1, flag := some 2, ctx := 1 }
  { crewIs (fun c => { c with launches := [p] }) stLaunch with grids := [{ grid1 with depth := depth }] }
theorem wit_launch_status : ((crew0 (stDecide 10)).launches.length = 1 ∧ (gridOf (stDecide 10) 1 0).any (fun g => !g.killed && decide (10 ≤ g.depth)) = true)
    ∧ ((crew0 (stDecide 9)).launches.all (fun p => (launchBlock p.block).toks.isEmpty && !(launchBlock p.block).coop
      && !launchShort (stDecide 9) (launchBlock p.block)) = true ∧ freeKey (gidsUsed (stDecide 9) 1) 0 65536 = some 1) := by decide

theorem wit_launch_refused : ((gridOf { stDecide 10 with grids := [{ grid1 with killed := true }] } 1 0).any (·.killed) = true)
    ∧ (let p := launchBlock (padBytes (padPut (blockOff + 0x0C) 4 0x1010002 stLaunch) 0 0 blockOff 0x50);
       launchShort (stDecide 9) p = true ∧ p.toks = [] ∧ p.banks = 257) := by decide

/-! Memory. -/

theorem wit_pad : issuer (pads st0) = some (at0 (pads st0)) ∧ (mem 2 4 16380 2 1 0 false).space = 1#2
    ∧ wrapNat 32 (opdVal (pads st0) (at0 (pads st0)) 31 (memBase (mem 2 4 16380 2 1 0 false)) 1 + sext 24 16380) + memBytes 2 = padSize (at0 (pads st0)).team
    ∧ (at0 (pads st0)).team.banks.Nodup := by decide
theorem wit_pad_faults : 2 % 4 ≠ 0 ∧ 16384 % 4 = 0 ∧ padSize (at0 (pads st0)).team < 16384 + 4 := by decide
theorem wit_load_store : (2 ^ 50 - 64 < 2 ^ 50) ∧ (2 ^ 50 - 64) % 64 + 64 ≤ 64 ∧ wayCount (clusterOf st0 0) = 128
    ∧ ((clusterOf st0 0).l1.filter (fun e => l1Set (clusterOf st0 0) e.key == l1Set (clusterOf st0 0) (2 ^ 50 - 64))).length < 4 := by decide
theorem wit_atomic : 2 ^ 50 - 8 + 8 ≤ 2 ^ 50 ∧ l1Find (clusterOf st0 0) (2 ^ 50 - 8) = none := by decide
theorem wit_fence : passes st0 (mSpec (rr (G 0) (G 0) (G 0) (G 0) 0 31) pNone pNone pNone pNone true) = true := by decide
theorem wit_flush : passes st0 (mSpec (rr (G 0) (G 2) (G 4) (G 0) 0 31) pNone (pSrc true) (pSrc false) pNone (flagOk 15)) = true
    ∧ flagFull (at0 st0).crew (flagOf 15) = false ∧ freeKey (clusterOf st0 0).walkers 0 4 = some 0 := by decide
/-- A dirty wide line, and a walker whose range holds it. -/
def line0 : L1Line :=
  { key := probePa + 0x1000, data := 1#512, dirty := 1#64, wide := true, keep := false, lock := none,
    lockVa := 0, poison := false, ctx := 1, storer := 1, whole := false, way := 0 }
def stLine : State := clusterIs (fun c => { c with l1 := [line0], walkers := [(3, { ctx := 1, lo := 0x1000, hi := 0x1040, inv := true, ts := 0, cr := 0, flag := some 2, done := false })] }) st0
theorem wit_release : (clusterOf stLine 0).l1.all (fun e => !behindIsolated stLine e.key && e.wide) = true := by decide
theorem wit_flush_done : (look (clusterOf stLine 0).walkers 3).isSome = true
    ∧ (clusterOf stLine 0).l1.all (fun e => inSpans (spans stLine 0 1 0x1000 0x40) e.key) = true := by decide

/-! Words that each fibre runs in turn. `stTok`: the team owns a token of the region 0x1000 to 0x1FFF. -/

def tok (base len : Nat) (o : W64) : Token :=
  { ctx := 1, base := base, len := len, state := .excl, owner := o, n := 0, chain := [], recaller := none, recalls := [], peer := none, rest := .excl }
def team1 : W64 := teamHolder 1 0 0 0
def grid1h : W64 := gridHolder 1 0
def owns (l : List Token) (s : State) : State :=
  { s with die0 := { Die.reset with owners := (List.range l.length).zip (l.map .token) } }
def stTok : State := owns [tok 0x1000 0x1000 team1] (one (pads st0))
/-- The same with a queue of two slots at 0x1000 that holds one item. -/
def stQ0 : State := (qinit stTok 0 1 (at0 stTok).ids 0x1000 1 false).1
def stQ : State := (qInsert stQ0 0 1 0x1000 (qHead stQ0 0 1 0x1000) 77 noToken).1
def am (t : Nat) : AMO :=
  { gd := always, d := 1, base := 4, b := 2, c := 0, ty := BitVec.ofNat 4 t, order := 0, scope := 0, kb := false, pad := true, nd := false, rsv := 0 }
/-- Does the word pass its checks, without a stall, and does no fibre fault? -/
def runsOk (s : State) (w : EachWord) : Bool :=
  passes s w.sp && !w.stall s (at0 s) (active (at0 s) w.sp.gd)
    && (w.runs (at0 s) (active (at0 s) w.sp.gd) s).2.all (fun e => match e.2 with | .ok _ => true | .bad _ => false)
def r14 : RRR := rr (G 15) (G 2) (G 4) (G 0) 0 0
def pendings : List (List (Nat × Nat × Nat) × Instr) :=
  [([], .ld (mem 15 4 16380 2 1 0 false)), ([], .lds (mem 15 4 8 2 1 0 false)), ([(0, 2, 0x1000), (0, 4, 0x1000)], .cinv r14),
   ([(0, 2, 0x1000), (0, 4, 64)], .clock r14), ([(0, 2, 0x1000), (0, 4, 64)], .cunlock r14), ([(0, 2, 0x1000), (0, 4, 64)], .cdemote r14),
   ([(0, 2, 0x1000), (0, 4, 0x1000), (0, 7, 0x20010000)], .lend (rr (G 15) (G 2) (G 4) (G 6) 0 0)), ([(0, 2, 0x1000), (0, 4, 0x1000)], .retn r14),
   ([(0, 2, 0x1000), (0, 4, 0x1FC0)], .split r14), ([(0, 2, 0x1000), (0, 4, 0x2000)], .merge r14), ([(0, 2, 0x1000)], .ownq (rr (G 14) (G 2) (G 0) (G 0) 0 0)),
   ([(0, 2, 383), (0, 4, 1)], .bankcfg (rr (G 15) (G 2) (G 4) (G 0) 0 2)), ([(0, 2, 383)], .bankq (rr (G 15) (G 2) (G 0) (G 0) 0 0)),
   ([(0, 2, 0x1000), (0, 4, 1)], .qinit r14), ([(0, 2, 0x1000)], .tlbinv r14), ([(0, 2, 0x1000), (0, 4, 1)], .tokadm r14),
   ([], .aadd (am 2)), ([], .amin (am 2)), ([], .amax (am 2)), ([], .aand (am 6)), ([], .aor (am 6)), ([], .axor (am 6)), ([], .axchg (am 6)),
   ([], .acas { am 6 with c := 8 }), ([], .afadd (am 8))]
theorem wit_pending_a : (pendings.take 9).all (fun x => (pendingOf x.2).any (runsOk (regs x.1 stTok))) = true := by decide
theorem wit_pending_b : (pendings.drop 9).all (fun x => (pendingOf x.2).any (runsOk (regs x.1 stTok))) = true := by decide
theorem wit_pending_q : (pendingOf (.qpush r14)).any (runsOk (regs [(0, 2, 0x1000)] stQ)) = true := by decide
theorem wit_onward : [Instr.st (mem 15 4 16380 2 1 0 false), .sts (mem 15 4 8 2 1 0 false), .pref (mem 0 2 0 2 0 0 false)].all
    (fun i => (onwardOf i).any (runsOk (regs [(0, 2, 0x1000)] stTok))) = true := by decide
/-- A load and a store of global memory under the token. -/
theorem wit_global : runsOk (regs [(0, 4, 0x1000)] stTok) ((pendingOf (.ld (mem 15 4 0 2 0 0 false))).getD
      { sp := memSpec (mem 0 0 0 0 0 0 false) false false, stall := never, run := fun _ _ s => (s, .ok noRes), lowest := false }) = true := by decide
theorem wit_recall : passes (regs [(0, 2, 0x1000), (0, 4, 0x1000)] stTok) (ownSpec (rr (G 15) (G 2) (G 4) (G 0) 0 2) 2 (flagOk 2 && decide (2 < 16)) false) = true
    ∧ (recallAll (rr (G 15) (G 2) (G 4) (G 0) 0 2) (at0 (regs [(0, 2, 0x1000), (0, 4, 0x1000)] stTok)) [0] [] (regs [(0, 2, 0x1000), (0, 4, 0x1000)] stTok)).2.2
      = true ∧ (at0 stTok).b.wait = .none := by decide

/-- Its flag is full: no fibre has its status. -/
def stFull : State := crewIs (fun c => { c with flags := [(2, 15#4)] }) (regs [(0, 2, 0x1000), (0, 4, 0x1000)] stTok)
theorem wit_recall_full : passes stFull (ownSpec (rr (G 15) (G 2) (G 4) (G 0) 0 2) 2 (flagOk 2 && decide (2 < 16)) false) = true
    ∧ (recallAll (rr (G 15) (G 2) (G 4) (G 0) 0 2) (at0 stFull) [0] [] stFull).2.2 = false := by decide

/-! TokensMove: one state for each clause. -/

def ids0 : List W64 := (at0 stTok).ids
theorem wit_lend : coverOf stTok 1 0x1000 = some (0, 0, tok 0x1000 0x1000 team1) ∧ tokenAt stTok 0 0 = some (tok 0x1000 0x1000 team1)
    ∧ ids0.contains team1 = true ∧ holderClass grid1h ≤ 6 ∧ holderClass grid1h ≠ 4 ∧ receiverOk stTok 1 none grid1h = true ∧ team1 ≠ grid1h
    ∧ regionOk 0x1000 0x1000 = true ∧ jointlyHeld stTok 0 0 = false ∧ foreignRecall (tok 0x1000 0x1000 team1) = false := by decide
theorem wit_lend_share : freeOwner stTok 0 = some 1 ∧ (dieOf stTok 0).owners.length < 131072 ∧ (tok 0x1000 0x1000 team1).chain.length < 8 := by decide
/-- A mirror that device 3 lent. -/
def tokM : Token := { tok 0x1000 0x1000 team1 with chain := [peerHolder 3], peer := some 3 }
theorem wit_retn_mirror : shareFor (owns [tokM] st0) 1 ids0 0x1000 0x1000 = none ∧ coverOf (owns [tokM] st0) 1 0x1000 = some (0, 0, tokM)
    ∧ isBad tokM = false ∧ jointlyHeld (owns [tokM] st0) 0 0 = false ∧ tokM.chain = [] ++ [peerHolder 3] := by decide
def tokC : Token := { tok 0x1000 0x1000 team1 with chain := [grid1h] }
theorem wit_retn : shareFor (owns [tokC] st0) 1 ids0 0x1000 0x1000 = none ∧ coverOf (owns [tokC] st0) 1 0x1000 = some (0, 0, tokC)
    ∧ isBad tokC = false ∧ jointlyHeld (owns [tokC] st0) 0 0 = false ∧ tokC.chain = [] ++ [grid1h] ∧ tokC.peer = none := by decide
def stShare : State :=
  let o : List (Nat × OwnEntry) := [(0, .token { tok 0x1000 0x1000 team1 with state := .shared, n := 1 }), (131071, .share { holder := grid1h, atomic := false, tok := 0 })]
  { st0 with die0 := { Die.reset with owners := o } }
theorem wit_share : (look (dieOf stShare 0).owners 131071).isSome = true ∧ (tokenAt stShare 0 0).isSome = true := by decide
theorem wit_split : ownedAt stTok 1 ids0 0x1000 = some (0, 0, tok 0x1000 0x1000 team1) ∧ 0x1FC0 % 64 = 0 ∧ 0x1FC0 < 0x1000 + 0x1000
    ∧ regionDie (fenceAr stTok 0 (ownScope stTok team1)) 1 0x1FC0 = regionDie stTok 1 0x1FC0
    ∧ freeOwner stTok (regionDie stTok 1 0x1FC0) = some 1 ∧ (0, 0) ≠ (regionDie stTok 1 0x1FC0, 1) := by decide
def stTwo : State := owns [tok 0x1000 0x1000 team1, tok 0x2000 64 team1] st0
theorem wit_merge : ownedAt stTwo 1 ids0 0x1000 = some (0, 0, tok 0x1000 0x1000 team1) ∧ ownedAt stTwo 1 ids0 0x2000 = some (0, 1, tok 0x2000 64 team1)
    ∧ jointlyHeld stTwo 0 0 = false ∧ jointlyHeld stTwo 0 1 = false := by decide
def tokL : Token := { tok 0x1000 0x1000 (gridHolder 1 9) with chain := [team1] }
theorem wit_recall_token : coverOf (owns [tokL] st0) 1 0x1000 = some (0, 0, tokL) ∧ nearestLender ids0 tokL.chain = some team1
    ∧ isBad tokL = false ∧ tokL.recaller = none ∧ tokL.owner ≠ team1 := by decide
theorem wit_ownq : coverOf stTok 1 0x2000 = none := by decide

/-! Banks and queues. -/

theorem wit_banks : (teamOf stTok 0 0).isSome = true ∧ (bankOf (clusterOf stTok 0) 383).mode = .off ∧ (bankOf (clusterOf stTok 0) 127).mode = .way
    ∧ (teamOf stTok 0 0).all (fun t => !t.banks.contains 383) = true := by decide
def pageE : TlbEntry := { ctx := 1, va := 0, bits := 30, pa := probePa, rd := true, wr := true, ex := true }
/-- A queue in a page that the die's TLB holds. -/
def stQM : State := updDie stQ0 0 (fun d => { d with tlb := [pageE] })
theorem queue_mapped {s : State} (h : (dieOf s 0).tlb = [pageE]) : QueueMapped s 0 1 0x1000 64 pageE := by
  constructor
  · intro va h1 h2
    simp [tlbHit, h, pageE]
    omega
  · intro va h1 h2
    have : va % 2 ^ 30 = va := Nat.mod_eq_of_lt (by omega)
    simp only [pageE, this, probePa]
    omega
def stQM1 : State := (qInsert stQM 0 1 0x1000 (qHead stQM 0 1 0x1000) 77 noToken).1
def stQM2 : State := (qInsert stQM1 0 1 0x1000 (qHead stQM1 0 1 0x1000) 79 noToken).1
theorem wit_queue_mapped : QueueMapped stQM 0 1 0x1000 64 pageE ∧ QueueMapped stQM1 0 1 0x1000 64 pageE ∧ QueueMapped stQM2 0 1 0x1000 64 pageE :=
  ⟨queue_mapped (by decide), queue_mapped (by decide), queue_mapped (by decide)⟩
def plainQ (s : State) : Bool := !(qHead s 0 1 0x1000).bad && !(qHead s 0 1 0x1000).work && decide (queueBytes (qHead s 0 1 0x1000).logcap = 64)
theorem wit_queue : plainQ stQM = true ∧ qFull stQM 1 (qHead stQM 0 1 0x1000) = false ∧ (qHead stQM 0 1 0x1000).head = (qHead stQM 0 1 0x1000).tail := by decide
theorem wit_queue_item : plainQ stQM1 = true ∧ (qHead stQM1 0 1 0x1000).head ≠ (qHead stQM1 0 1 0x1000).tail
    ∧ vaNat stQM1 0 1 (slotVa 0x1000 1 (qHead stQM1 0 1 0x1000).head + 8) 4 = noToken := by decide
theorem wit_queue_full : plainQ stQM2 = true ∧ qFull stQM2 1 (qHead stQM2 0 1 0x1000) = true := by decide
/-- A queue of two slots at 0x1000, at hand. -/
theorem warm_queue {s : State} (tl : (clusterOf s 0).tlb = [warmPage]) (td : (dieOf s 0).tlb = [warmPage]) (l1 : (clusterOf s 0).l1 = [])
    (po : s.poison = []) (cl : (at0 s).ref.cl = 0) (cx : (at0 s).ctx = 1) (ok : (qHead s 0 1 0x1000).bad = false)
    (lc : (qHead s 0 1 0x1000).logcap = 1) (cov : tokensCover s 1 (at0 s).ids .atomic 0x1000 64 = none) :
    WarmQueue s (at0 s) 0x1000 (qHead s 0 1 0x1000) := by
  have hb : queueBytes (qHead s 0 1 0x1000).logcap = 64 := by rw [lc]; decide
  constructor
  · rw [cl, cx]; rfl
  · exact ok
  · decide
  · rw [hb]; decide
  · refine ⟨warmPage, rfl, rfl, fun va h1 h2 => ?_⟩
    rw [hb] at h2
    have h3 : va / 2 ^ 30 = 0 := Nat.div_eq_of_lt (by omega)
    have h4 : va % 2 ^ 30 = va := Nat.mod_eq_of_lt (by omega)
    have h5 : dieNo 0 = 0 := rfl
    simp only [cl, cx, h5, tl, td, l1, po, tlbHit, l1Find, poisoned, List.find?_nil]
    simp only [warmPage, List.find?_cons, h3, h4, probePa, List.contains_nil]
    have h6 : isCxl (1073741824 + va) = false := by
      simp only [isCxl, Nat.div_eq_of_lt (show 1073741824 + va < 2 ^ 50 by omega)]
      simp
    exact ⟨rfl, rfl, by omega, trivial, by simp [h6]⟩
  · rw [cx, hb]; exact cov
def qF : RRR := rr (G 12) (G 2) (G 4) (G 0) 0 0
def qR (s : State) : State := regs [(0, 2, 0x1000)] (warm s)
def polls (s : State) : Bool := [Instr.qpop { qF with b := G 0 }, .qpoll qF].all (fun i => (pollOf i).any (fun w => passes s w.2.1
  && (active (at0 s) qF.gd == [0]) && (opdVal s (at0 s) 0 qF.a 2 == 0x1000)))
def item1 (s : State) : Prop := HasItem s (at0 s) 0x1000 (qHead s 0 1 0x1000)
/-- An item is there in `stQ`, none in `stQ0`. -/
theorem wit_qpoll : polls (qR stQ) = true ∧ polls (qR stQ0) = true
    ∧ (pollRound (at0 (qR stQ)) false [newWait 0 0x1000 0] (qR stQ)).2.all (fun x => match x.done with | some (.item _) => true | _ => false) = true
    ∧ (pollRound (at0 (qR stQ0)) false [newWait 0 0x1000 5] (qR stQ0)).2.any (fun x => x.done.isNone) = true := by decide
theorem wit_qpoll_item : item1 (qR stQ) := ⟨by decide, by decide, by decide⟩
theorem wit_qpoll_warm : WarmQueue (qR stQ) (at0 (qR stQ)) 0x1000 (qHead (qR stQ) 0 1 0x1000)
    ∧ WarmQueue (qR stQ0) (at0 (qR stQ0)) 0x1000 (qHead (qR stQ0) 0 1 0x1000) :=
  ⟨warm_queue (by decide) (by decide) (by decide) (by decide) (by decide) (by decide) (by decide) (by decide) (by decide),
   warm_queue (by decide) (by decide) (by decide) (by decide) (by decide) (by decide) (by decide) (by decide) (by decide)⟩
theorem wit_qpoll_empty : (qHead (qR stQ0) 0 1 0x1000).head = (qHead (qR stQ0) 0 1 0x1000).tail := by decide
def qW : RRR := rr (G 12) (G 2) (G 0) (G 0) 0 0
/-- A work queue with an item, and an empty one. -/
def stWq0 : State := (qinit stTok 0 1 (at0 stTok).ids 0x1000 33 false).1
def stWq : State := (qInsert stWq0 0 1 0x1000 (qHead stWq0 0 1 0x1000) 78 noToken).1
def waitOk (s : State) : Bool := passes s (mSpec qW pQuad (pSrc true) pNone pNone (noOpt 0)) && (active (at0 s) qW.gd == [0])
  && (opdVal s (at0 s) 0 qW.a 2 == 0x1000) && (vaLoc s 0 1 0x1000 == some (probePa + 0x1000))
theorem wit_qwait : waitOk (qR stWq) = true ∧ waitOk (qR stWq0) = true ∧ waitOk (qR stQ) = true
    ∧ (qwaitAll qW (at0 (qR stWq)) [0] (qR stWq)).2.all (fun x => match x.done with | some (.item _) => true | _ => false) = true
    ∧ (qwaitAll qW (at0 (qR stWq0)) [0] (qR stWq0)).2.any (fun x => x.done.isNone) = true := by decide
theorem wit_qwait_warm : WarmQueue (qR stWq) (at0 (qR stWq)) 0x1000 (qHead (qR stWq) 0 1 0x1000)
    ∧ WarmQueue (qR stWq0) (at0 (qR stWq0)) 0x1000 (qHead (qR stWq0) 0 1 0x1000) :=
  ⟨warm_queue (by decide) (by decide) (by decide) (by decide) (by decide) (by decide) (by decide) (by decide) (by decide),
   warm_queue (by decide) (by decide) (by decide) (by decide) (by decide) (by decide) (by decide) (by decide) (by decide)⟩
theorem wit_qwait_item : item1 (qR stWq) ∧ (qHead (qR stWq) 0 1 0x1000).work = true ∧ (qHead (qR stQ) 0 1 0x1000).work = false :=
  ⟨⟨by decide, by decide, by decide⟩, by decide, by decide⟩
theorem wit_qwait_empty : (qHead (qR stWq0) 0 1 0x1000).work = true ∧ (qHead (qR stWq0) 0 1 0x1000).head = (qHead (qR stWq0) 0 1 0x1000).tail
    ∧ (dieOf (qR stWq0) (homeDie (probePa + 0x1000) 0)).waiters.length < 1024 := by decide
/-- A fibre that has polled three times, of an unlimited, a fourth and a ninth. -/
def stRetry (s : State) (n : Nat) : State :=
  batchIs (fun b => { b with wait := .queue 0 (G 12) [{ newWait 0 0x1000 n with tries := 3 }] }) (qR s)
theorem wit_qretry : [stRetry stQ 9, stRetry stQ0 4, stRetry stQ0 9].all (fun s => decide (issuer s = some (at0 s)) && decide ((at0 s).b.mask ≠ 0#32)
      && decide ((at0 s).b.wait = .queue 0 (G 12) [{ newWait 0 0x1000 9 with tries := 3 }]
        ∨ (at0 s).b.wait = .queue 0 (G 12) [{ newWait 0 0x1000 4 with tries := 3 }])) = true
    ∧ (pollRound (at0 (stRetry stQ 9)) true [{ newWait 0 0x1000 9 with tries := 3 }] (stRetry stQ 9)).2.all
        (fun x => match x.done with | some (.item _) => true | _ => false) = true
    ∧ (pollRound (at0 (stRetry stQ0 9)) true [{ newWait 0 0x1000 9 with tries := 3 }] (stRetry stQ0 9)).2.any (fun x => x.done.isNone) = true := by decide
theorem wit_qretry_item : item1 (stRetry stQ 9) := ⟨by decide, by decide, by decide⟩
theorem wit_qretry_warm : WarmQueue (stRetry stQ 9) (at0 (stRetry stQ 9)) 0x1000 (qHead (stRetry stQ 9) 0 1 0x1000) :=
  warm_queue (by decide) (by decide) (by decide) (by decide) (by decide) (by decide) (by decide) (by decide) (by decide)
theorem wit_qretry_warm_empty : WarmQueue (stRetry stQ0 9) (at0 (stRetry stQ0 9)) 0x1000 (qHead (stRetry stQ0 9) 0 1 0x1000)
    ∧ WarmQueue (stRetry stQ0 4) (at0 (stRetry stQ0 4)) 0x1000 (qHead (stRetry stQ0 4) 0 1 0x1000) :=
  ⟨warm_queue (by decide) (by decide) (by decide) (by decide) (by decide) (by decide) (by decide) (by decide) (by decide),
   warm_queue (by decide) (by decide) (by decide) (by decide) (by decide) (by decide) (by decide) (by decide) (by decide)⟩
/-- The wait of a batch whose fibre has been handed its item. -/
def got0 : QFibre := { newWait 0 0x1000 0 with listed := true, done := some (.item (itemRegs 78 noToken)) }
theorem wit_queue_wait_end : (let s := batchIs (fun b => { b with wait := .queue 64 (G 12) [got0] }) stWq0;
    issuer s = some (at0 s) ∧ (at0 s).b.wait = .queue 64 (G 12) [got0] ∧ (at0 s).b.mask ≠ 0#32) := by decide
theorem wit_queue_served : AllServed [got0] [(0, itemRegs 78 noToken)] := ⟨rfl, rfl⟩

/-! System registers, traps and the words of port E. -/

def rd (num word : Nat) : SYSF := { sysf (G 12) sysOpd num word with clr := false }
theorem wit_rdsys : passes st0 (readChecks (rd 0x024 11) false) = true ∧ passes st0 (readChecks { rd 0x00A 0 with clr := true } true) = true
    ∧ sysTable st0 (at0 st0) 0 0x024 = some (768, bankMap (clusterOf st0 0))
    ∧ [0x000, 0x001, 0x002, 0x003, 0x004, 0x005, 0x006, 0x007, 0x008, 0x009, 0x00A, 0x00B, 0x010, 0x011, 0x012, 0x013, 0x014, 0x015, 0x016,
        0x017, 0x018, 0x020, 0x021, 0x022, 0x023, 0x025].all (fun n => (sysTable st0 (at0 st0) 31 n).isSome
          && passes st0 (readChecks (rd n 0) false)) = true := by decide
/-- R34: a fibre reads its own slot, and the window's width. -/
theorem test_rdsys_slot : (g (after (.rdsys (rd 0x002 0)) st0) 31 12, g (after (.rdsys (rd 0x009 0)) st0) 0 12) = (31, 16) := by decide
theorem test_rdsys_clr : stat (after (.rdsysClr { rd 0x00A 0 with clr := true }) (crewIs (fun c => { c with stat := 0x7FF#64 }) st0)) = 0 := by decide

/-- The user view. -/
def stUser : State := user st0
theorem wit_user : (privilegedOf (.halt (rr (G 0) (G 2) (G 0) (G 0) 0 0))).isSome = true ∧ issuer stUser = some (at0 stUser)
    ∧ (at0 stUser).crew.priv = false ∧ framed (at0 stUser) (some 0) true = true
    ∧ [Instr.eret (rr (G 0) (K 3) (G 0) (G 0) 0 0), .tlbinv (rr (G 12) (G 2) (G 4) (G 0) 0 3), .tokadm (rr (G 12) (G 2) (G 4) (G 0) 0 1),
        .ckpt (rr (G 12) (G 2) (G 0) (G 0) 0 0), .halt (rr (G 0) (G 2) (G 0) (G 0) 0 0), .ctxsv (rr (G 12) (G 2) (G 4) (G 0) 0 0),
        .ctxld (rr (G 12) (G 2) (G 4) (G 0) 0 0), .wrsys (sysf sysOpd (G 2) 0x010 0), .wrsysCtxid (sysf sysOpd (G 2) 0x001 0),
        .wrsysThrottle (sysf sysOpd (G 2) 0x021 0), .wrsysUrgency (sysf sysOpd (G 2) 0x022 0), .wrsysCslope (sysf sysOpd (G 2) 0x020 0)].all
        (fun i => (privilegedOf i).any (fun sp => framed (at0 stUser) sp.port sp.ct && (!sp.plain || guardPlain sp.gd)
          && decide (active (at0 stUser) sp.gd ≠ []) && sp.legal (at0 stUser).crew.win)) = true := by decide
theorem wit_user_read : framed (at0 stUser) (some 0) false = true ∧ (readChecks (rd 0x024 11) false).legal (at0 stUser).crew.win = true
    ∧ (sysRegOf 0x010).any (fun r => !r.user) = true ∧ (readChecks (rd 0x010 0) false).legal (at0 stUser).crew.win = true
    ∧ sysRegOf 0xFFF = none := by decide
theorem wit_read_only : (sysRegOf 0x000).any (fun r => !r.rw) = true ∧ (at0 st0).crew.priv = true
    ∧ (writeChecks (sysf sysOpd (G 2) 0x000 0)).legal (at0 st0).crew.win = true
    ∧ hazard (at0 st0).crew (active (at0 st0) always) [(G 2, 2)] = false := by decide
theorem wit_wrsys : [(0x010, fun s a v => sysWrite s a 0x010 v), (0x001, ctxidWrite), (0x021, throttleWrite), (0x022, urgencyWrite),
      (0x020, cslopeWrite)].all (fun x => passes (regs [(0, 2, 1)] (one st0)) (writeChecks (sysf sysOpd (G 2) x.1 0))
        && (sysRegOf x.1).any (·.rw)
        && (eachFibre (writeFibre (sysf sysOpd (G 2) x.1 0) x.2 (at0 (regs [(0, 2, 1)] (one st0)))) [0] (regs [(0, 2, 1)] (one st0))).2
            == [(0, .ok noRes)]) = true := by decide
theorem wit_read_back : (ctxOf st0 (at0 st0).ctx).isSome = true ∧ (ctxOf st0 (4097 % 2 ^ 12)).isSome = true ∧ ctxOf st0 (2 % 2 ^ 12) = none
    ∧ 129 / 2 ^ 7 % 2 = 1 ∧ 1 ≤ 129 % 64 ∧ 160 / 2 ^ 7 % 2 = 1 ∧ 160 % 64 = 32 ∧ 128 / 2 ^ 7 % 2 = 1 ∧ 128 % 64 = 0
    ∧ 161 / 2 ^ 7 % 2 = 1 ∧ 32 < 161 % 64 := by decide
theorem test_wrsys_throttle : (clusterOf (after (.wrsysThrottle (sysf sysOpd (G 2) 0x021 0)) (regs [(0, 2, 0x84)] (one st0))) 0).win = 4 := by decide

theorem wit_trap : passes st0 (sysChecks (rr (G 0) (G 2) (G 0) (G 0) 0 0) pNone pGks pNone (noOpt 0) true false false) = true := by decide
def tb0 : Batch := { headBatch 0x100 7#32 .none 0 false with hdr := 0xA030000000000000#64, begun := true }
def tw0 : TrapWait := { faults := [(0, { fault .trap with pc := 0x108 }), (2, { fault .trap with pc := 0x108 })], batch := tb0, moved := [], t := 0x110, atHeader := false }
/-- A trap waits; the context has a handler and its record area at 0x2000, covered by a token of the grid. -/
def trapRegs (v : Nat) (s : State) : State :=
  updCtx s 1 (fun c => { c with regs := { c.regs with trapvec := BitVec.ofNat 64 v, faultbase := 0x2000#64 } })
def stTrap (v : Nat) : State :=
  trapRegs v (owns [tok 0x2000 0x4000 grid1h] (user (crewIs (fun c => { c with trapWait := [tw0], batches := [] }) st0)))
theorem wit_trap_entry : (crewOf (stTrap 0x3000) r0).any (fun c => c.trap.isNone && decide (c.trapWait = [tw0]) && !c.priv) = true
    ∧ (ctxOf (stTrap 0x3000) 1).any (fun x => x.regs.trapvec != 0) = true
    ∧ (writeRecords (settle (updCrew (stTrap 0x3000) r0 (fun c => { c with trapWait := [] })) r0) r0 1 0 0x2000 tw0.faults).2 = true := by decide
theorem wit_trap_kill : (crewOf (stTrap 0) r0).any (fun c => c.trap.isNone && decide (c.trapWait = [tw0])) = true
    ∧ (ctxOf (stTrap 0) 1).any (fun x => x.regs.trapvec == 0) = true ∧ (gridOf { stTrap 0 with grids := [{ grid1 with priv := false }] } 1 0).any
      (fun g => !g.priv) = true := by decide
def ts1 (atHeader : Bool) : TrapState := { trap := { tw0 with atHeader := atHeader }, x := 5#32, rep := 0#64, enteredAt := 0, userView := true }
def stEret (atHeader : Bool) (pc : Nat) : State :=
  crewIs (fun c => { c with k := [(3, 4#32)], trap := some (ts1 atHeader), trappc := BitVec.ofNat 64 pc })
    (batchIs (fun b => { b with handler := true }) st0)
def eretF : RRR := rr (G 0) (K 3) (G 0) (G 0) 0 0
def eretOk (s : State) : Bool :=
  passes s (sysChecks eretF pNone { n := 1, g := false, k := true, p := false, sp := [0, 1] } pNone (noOpt 0) true true true)
    && (at0 s).crew.batches.all (fun b => !b.rep) && decide ((at0 s).crew.groups = [])
/-- TRAPPC names the probe's header, which is at hand. -/
theorem wit_eret_warm : WarmTarget (warm (stEret false 0x100)) (at0 (warm (stEret false 0x100))) 0x100 := warm_target (by decide)
theorem wit_eret_moved : eretOk (warm (stEret false 0x100)) = true ∧ eretOk (stEret false 0x114) = true ∧ 0x114 % 8 ≠ 0 := by decide
theorem wit_eret : eretOk (stEret false 0x110) = true ∧ eretOk (stEret true 0x110) = true
    ∧ opdVal (stEret false 0x110) (at0 (stEret false 0x110)) 0 (K 3) 1 = 4
    ∧ (7#32 &&& 0xFFFFFFFF#32 ≠ 0#32) ∧ (7#32 &&& 4#32 &&& 5#32 ≠ 0#32) ∧ (7#32 &&& ~~~4#32 ≠ 0#32) := by decide
/-- R247's kinds with a page of the context and one of another. -/
theorem wit_tlbinv : (0x1000 / 2 ^ pageE.bits = pageE.va / 2 ^ pageE.bits) ∧ pageE.va < 0x1000 + 0x1000 ∧ 0x1000 < pageE.va + 2 ^ pageE.bits
    ∧ passes st0 (eSpec (rr (G 12) (G 2) (G 4) (G 0) 0 3) (pDstG false) (pSrc true) (pSrc true) (decide (3 < 4)) false false true) = true := by decide
def tier (n : Nat) (s : State) : State := { s with cxl := (List.range 8).map (fun p => (p, { CxlPort.reset with slen := n })) }
def stTier : State := tier (2 ^ 38) st0
def ckF : RRR := rr (G 12) (G 2) (G 0) (G 0) 0 0
def ckAt : State := regs [(0, 2, 0), (0, 3, safeBase / 2 ^ 32)] stTier
theorem wit_ckpt : passes ckAt (sysChecks ckF (pDstG false) (pSrc true) pNone (noOpt 0) false true true) = true
    ∧ ckptRangeOk ckAt (opdVal ckAt (at0 ckAt) 0 (G 2) 2) = true ∧ ckAt.ckpt = none := by decide
/-- A checkpoint at the start of the safe tier ends, every port up; port 7 isolated. -/
def stCk : State := { stTier with ckpt := some { base := safeBase, crew := r0, dest := some (.g 0 12) } }
theorem wit_ckpt_end : ckptRangeOk (tier (2 ^ 46) stCk) safeBase = true ∧ Memory.wf stCk.mem = true
    ∧ (List.range 8).all (fun p => !(cxlPort stCk p).isolated
      && decide ((cxlPort stCk p).sbase + (safeBase - safeBase) / 8 + hbmSize / 8 ≤ 2 ^ 46)) = true
    ∧ (cxlPort { stCk with cxl := [(7, { CxlPort.reset with isolated := true })] } 7).isolated = true
    ∧ (cxlPort { stCk with cxl := [(7, { CxlPort.reset with silent := true })] } 7).silent = true := by decide
theorem wit_halt : passes stUser (sysChecks (rr (G 0) (G 2) (G 0) (G 0) 0 0) pNone pGks pNone (noOpt 0) true true true) = false
    ∧ passes st0 (sysChecks (rr (G 0) (G 2) (G 0) (G 0) 0 0) pNone pGks pNone (noOpt 0) true true true) = true
    ∧ (gridOf { st0 with grids := [{ grid1 with priv := false }] } 1 0).any (fun g => !g.priv) = true := by decide

/-! Engines. `rec` builds an object record; the cluster's record cache holds those of the tests. -/

def pad5 (w : Nat) (l : List Nat) : List Byte := (List.range 5).flatMap (fun d => leBytes w ((l[d]?).getD 0))
def rec (base fmt layout rank : Nat) (ext str : List Nat) : List Byte :=
  leBytes 8 base ++ leBytes 4 (fmt + layout * 2 ^ 8 + rank * 2 ^ 16 + 15 * 2 ^ 20) ++ leBytes 12 0 ++ pad5 4 ext ++ leBytes 4 0 ++ pad5 8 str
    ++ leBytes 40 0
def withRecs (l : List (List Byte)) (s : State) : State :=
  clusterIs (fun c => { c with recs := (List.range l.length).zip l |>.map (fun e => { ctx := 1, idx := e.1, image := e.2 }) })
    (updCtx s 1 (fun c => { c with regs := { c.regs with objcount := 16 } }))
/-- A block at PAD 0x2000: its fields as offset, width and value. -/
def block (l : List (Nat × Nat × Nat)) (s : State) : State := l.foldl (fun s f => padPut (0x2000 + f.1) f.2.1 f.2.2 s) s
/-- MMA: A 32 by 32 of .e4m3 (records 0 and 1), C 32 by 32 of .f32 (record 2), all in PAD. -/
def mmaRecs : List (List Byte) := [rec 0 4 0 2 [32, 32] [1, 32], rec 0x400 4 0 2 [32, 32] [1, 32], rec 0x800 1 0 2 [32, 32] [4, 128]]
def stMma : State :=
  block [(2, 2, 1), (4, 2, 2), (6, 2, 0xFFFF), (8, 8, 0x707), (0x20, 4, 32), (0x24, 4, 32), (0x28, 4, 32)] (withRecs mmaRecs stTok)
def engF : ENG := eng 1 0x2000 2 15
def wEng (i : Instr) : EngWord :=
  (engineOf i).getD { f := engF, k := .mma, src := false, plan := mmaPlan, status := mmaStatus }
/-- The command passes every check and is accepted, or is held, without a change of the state before its reservation. -/
def engOk (i : Instr) (stall : Bool) (s : State) : Bool :=
  let w := wEng i
  (engineOf i).isSome && passes s w.checks && (match w.plan (w.cmd s (at0 s)) (at0 s) s with
    | (u, .ok p) => decide (issuer u = some (at0 s)) && (match engEntries u (at0 s).ctx (at0 s).ids p.globals with
      | .ok l =>
        let q : EngPlan := { p with op := { p.op with holds := l } }
        let v := reserve u (at0 s).ref (some p.op.dest)
        (w.status v (at0 s) q.op).isNone && engStalls v (at0 s) q == stall
      | .error _ => false)
    | _ => false)
theorem wit_mma : engOk (.mma engF) false stMma = true := by decide
/-- A range in flight meets the command's. -/
theorem wit_mma_held : engOk (.mma engF) true (teamIs (fun t => { t with ranges :=
    [{ lo := 0x2000, hi := 0x207F, write := false, op := 9, atSrcFree := false, guard := false }] }) stMma) = true := by decide
def copyRecs2 : List (List Byte) := [rec 0 1 0 1 [16] [4], rec 0x400 1 0 1 [16] [4]]
def stCopy : State :=
  block [(2, 2, 1), (4, 4, 0x383), (0x40, 4, 16), (0x44, 4, 1), (0x48, 4, 1), (0x4C, 4, 1), (0x50, 4, 1), (0x54, 3, 0xFFFFFF)] (withRecs copyRecs2 stTok)
theorem wit_copy : engOk (.copy engF) false stCopy = true := by decide
/-- A GXFER that interpolates (mode 2, injection): 9 fine points, 5 coarse ones. -/
def gxRecs : List (List Byte) := [rec 0 1 0 1 [9] [4], rec 0x400 1 0 1 [5] [4]]
def stGx : State :=
  block [(2, 2, 1), (4, 4, 0x7013), (0x0C, 3, 0xFFFFFF), (0x28, 4, 5), (0x2C, 4, 1), (0x30, 4, 1)] (withRecs gxRecs stTok)
theorem wit_gxfer : engOk (.gxfer engF) false stGx = true := by decide
/-- A census of a TLF tensor of 32 rows of one block, of .e4m3. -/
def stCensus : State :=
  block [(6, 2, 0xFFFF), (8, 8, 0x700 + 4 * 2 ^ 32 + 1), (0x20, 4, 32), (0x24, 4, 32), (0x28, 4, 32)]
    (withRecs [leBytes 8 0 ++ leBytes 4 (0x10 + 3 * 2 ^ 8 + 2 * 2 ^ 16 + 15 * 2 ^ 20) ++ leBytes 4 0 ++ leBytes 8 0x1C00 ++ pad5 4 [32, 32] ++ leBytes 84 0]
      (regs [(0, 0, 0x3000)] stTok))
theorem wit_census : engOk (.mcensus engF) false stCensus = true := by decide
/-- A reduction over one member: the communicator at 0x1000, its map at 0x1080, source and destination in the same token. -/
def stColl : State :=
  { block [(0, 8, 0x1000), (0x0A, 2, 1), (0x18, 4, 4), (0x1C, 4, 1)]
      (withRecs [rec 0x1100 1 0 1 [4] [4], rec 0x1200 1 0 1 [4] [4]] stTok) with
    boot := { st0.boot with devnum := some 0 },
    mem := homePut (homePut (homePut (homePut (homePut stTok (probePa + 0x1000) 1#8) (probePa + 0x1004) 1#8) (probePa + 0x1008) 1#8)
      (probePa + 0x1010) 1#8) (probePa + 0x1012) 16#8 |>.mem }
theorem wit_coll : (let s := regs [] stColl; let w := wEng (.coll engF)
    passes s w.checks && (match w.plan (w.cmd s (at0 s)) (at0 s) s with
      | (u, .ok p) => decide (issuer u = some (at0 s)) && (match engEntries u (at0 s).ctx (at0 s).ids p.globals with
        | .ok _ => true
        | .error _ => false)
      | _ => false)) = true := by decide
theorem wit_coll2 : engOk (.coll engF) false stColl = true := by decide
theorem wit_bound : passes stMma (engSpec (eng 2 0x2000 15 15) false true true true) = true
    ∧ padReadBlocked (at0 stMma).team 0x2000 0x80 = false
    ∧ (match mmaCheck (engCmd stMma (eng 2 0x2000 15 15) .mma false (at0 stMma) 0) (at0 stMma) stMma with | (_, .ok _) => true | _ => false) = true := by
  decide

/-! Held commands, leases, and the events of the engines. -/

/-- An MMA under way: its image and records are those of `stMma`. -/
def mmaOp : EngOp :=
  { newOp (engCmd stMma engF .mma false (at0 stMma) 0) (at0 stMma) (padBytes stMma 0 0 0x2000 0x80) mmaRecs with
    phase := .running, progress := [0], groupFree := (List.range 24).map (fun g => (g, 0)) }
def opIs (o : EngOp) (s : State) : State := { s with ops := [(5, o)], nextOp := 6 }
def stHeld : State := batchIs (fun b => { b with wait := .eng 5 }) (opIs { mmaOp with phase := .held } (crewIs (fun c => { c with pend :=
  [{ dst := .g 0 1, val := none, ready := false }] }) stMma))
theorem wit_held : heldReady stHeld 5 { mmaOp with phase := .held } = true
    ∧ (match heldAt stHeld 5 { mmaOp with phase := .held } with
      | some a => (match planOf .mma (heldCmd { mmaOp with phase := .held }) a stHeld with
        | (u, .ok p) => (match engEntries u a.ctx a.ids p.globals with
          | .ok l => (statusOf .mma u a { p.op with holds := l }).isNone && !engStalls u a { p with op := { p.op with holds := l } }
              && u.nextOp == stHeld.nextOp
          | .error _ => false)
        | _ => false)
      | none => false) = true := by decide

def lF (o : Nat) : RRR := rr (G 12) (G 2) (G 0) (G 0) 0 o
def lease0 : Lease := { engine := some 0, count := 4, left := 1, g := 2, d := 0, freed := false, thermal := false }
def engs (e f : EngHold) (s : State) : State := clusterIs (fun c => { c with engines := [{ hold := e, running := none }, { hold := f, running := none }] }) s
def leases (l : List (Nat × Lease)) (s : State) : State := teamIs (fun t => { t with leases := l }) s
theorem wit_mlease : [0, 1].all (fun o => passes (regs [(0, 2, 64)] st0) (lSpec (lF o) 1 (decide ((lF o).opt.toNat < 2)))) = true
    ∧ active (at0 st0) always ≠ [] ∧ freeHandle (at0 st0).team = some 0
    ∧ freeHandle (at0 (leases [(0, lease0), (1, lease0)] st0)).team = none
    ∧ (clusterOf st0 0).leaseq = [] ∧ grantEngine (clusterOf st0 0) 0 = some (0, false)
    ∧ grantEngine (clusterOf (engs (.implicit 7) (.lease 0 1) st0) 0) 0 = none
    ∧ opdVal (regs [(0, 2, 64)] st0) (at0 st0) 0 (G 2) 1 % 128 = 64 ∧ opdVal (regs [(0, 2, 65)] st0) (at0 st0) 0 (G 2) 1 % 128 = 65 := by decide
theorem wit_mfree : passes (leases [(0, lease0)] st0) (lSpec (lF 0) 1 (noOpt 0)) = true ∧ look (at0 (leases [(0, lease0)] st0)).team.leases 0 = some lease0
    ∧ look (at0 st0).team.leases 0 = none ∧ leaseOps (leases [(0, lease0)] st0) 0 0 0 = false
    ∧ passes st0 (lSpec (lF 9) 1 (decide ((lF 9).opt.toNat < 16) && decide ((lF 9).opt.toNat % 4 < 3))) = true
    ∧ passes st0 (lSpec (lF 0) 1 (noOpt 0)) = true := by decide
/-- The clusters of the arbiter's clauses: each engine hot alone, engine 0 held; each kind of request waiting. -/
def hot (t : Nat) (s : State) : State := clusterIs (fun c => { c with thermal := BitVec.ofNat 2 t }) s
def waits (l : List LeaseReq) (s : State) : State := clusterIs (fun c => { c with leaseq := l }) s
theorem wit_grant : grantEngine (clusterOf (hot 1 st0) 0) 0 = some (1, true) ∧ grantEngine (clusterOf (hot 2 st0) 0) 0 = some (0, true)
    ∧ grantEngine (clusterOf (engs (.implicit 7) .free st0) 0) 0 = some (1, false)
    ∧ (clusterOf (waits [.mma 5] (opIs { mmaOp with phase := .queued } st0)) 0).leaseq = [.mma 5]
    ∧ leaseAt (waits [.handle 0 0] (leases [(0, lease0)] st0)) 0 0 0 = some lease0
    ∧ (clusterOf (waits [.request 0 0 5] st0) 0).leaseq = [.request 0 0 5] ∧ (teamOf st0 0 0).any (fun t => freeHandle t == some 0) = true
    ∧ (teamOf (leases [(0, lease0), (1, lease0)] st0) 0 0).any (fun t => (freeHandle t).isNone) = true := by decide
def spent (freed : Bool) (s : State) : State := engs (.lease 0 0) .free (leases [(0, { lease0 with left := 0, freed := freed })] s)
theorem wit_expiry : expiryDue (spent true st0) 0 0 = true ∧ holder (spent true st0) 0 0 = some (.lease 0 0) ∧ leaseOps (spent true st0) 0 0 0 = false
    ∧ expiryDue (spent false (waits [.mma 9] st0)) 0 0 = true ∧ wanted (clusterOf (spent false (waits [.mma 9] st0)) 0) 0 0 = true
    ∧ expiryDue (spent false st0) 0 0 = true ∧ wanted (clusterOf (spent false st0) 0) 0 0 = false := by decide

/-! CWAIT: the last 32 chunks whose map bytes lie in PAD; a running operation's map. -/

def cwF (o : Nat) : RRR := rr (G 12) (G 2) (G 4) (G 6) 0 o
def cwRegs (b : Nat) : List (Nat × Nat × Nat) := [(0, 2, 16379), (0, 4, b), (0, 6, 0xFFFFFFFF)]
def stCw (b : Nat) (l : List PadRange) : State := regs (cwRegs b) (teamIs (fun t => { t with ranges := l }) (one (pads st0)))
def cmap0 : PadRange := { lo := 16380, hi := 16383, write := false, op := 5, atSrcFree := false, guard := true }
theorem wit_cwait : [0, 1].all (fun o => passes (stCw 1 []) (lSpec (cwF o) 3 (decide ((cwF o).opt.toNat < 2)))) = true
    ∧ 16379 + (1 + 31) / 8 < padSize (at0 (stCw 1 [])).team ∧ padBlocked (at0 (stCw 1 [cmap0])).team (16379 + 0) 16383 false = false
    ∧ mapBusy (stCw 1 []) (at0 (stCw 1 [])).team 0 0 (16379, 1, 0xFFFFFFFF#32) = false
    ∧ mapBusy (stCw 1 [cmap0]) (at0 (stCw 1 [cmap0])).team 0 0 (16379, 1, 0xFFFFFFFF#32) = true := by decide
def stCwEnd : State := batchIs (fun b => { b with wait := .cwait [(16379, 1, 1#32)] }) (stCw 1 [])
theorem wit_cwait_end : issuer stCwEnd = some (at0 stCwEnd) ∧ mapBusy stCwEnd (at0 stCwEnd).team 0 0 (16379, 1, 1#32) = false := by decide

/-! A running MMA. -/

def stStart : State := engs (.lease 0 0) .free (leases [(0, lease0)] (opIs { mmaOp with phase := .queued, lease := some 0 } stMma))
theorem wit_mma_start : nextMma stStart 0 0 = some (5, { mmaOp with phase := .queued, lease := some 0 }) ∧ leaseAt stStart 0 0 0 = some lease0 := by decide
def stRun : State := opIs mmaOp stMma
def mp : MmaPar := mmaPar mmaOp.image mmaOp.recs
theorem wit_tile : tileDue stRun mmaOp = true ∧ (tileGroup stRun mmaOp).isSome = true ∧ 0 < mp.nkb
    ∧ (stageA stRun mmaOp mp 0 0).all.errs = [] := by decide
theorem wit_tile_b : (stageB stRun mmaOp mp 0 0).all.errs = [] := by decide
/-- A lies outside the address space. -/
def mmaOpE : EngOp := { mmaOp with image := mmaOp.image.take 8 ++ leBytes 8 0x706 ++ mmaOp.image.drop 16, recs := rec (2 ^ 57) 4 0 2 [32, 32] [1, 32] :: mmaRecs.tail }
theorem wit_tile_error : (stageA stRun mmaOpE (mmaPar mmaOpE.image mmaOpE.recs) 0 0).all.errs ≠ [] := by decide
theorem wit_tile_c : (stageC stRun mmaOp mp 0).errs = [] := by decide
def tile0 : TileRun :=
  { v := 0, grp := 3, kb := 0, c := [], next := [7#32], began := 0, at_ := 0, work := 0, sticky := 0, rows := 32, skipped := 0, ahead := none }
def mmaOpB : EngOp := { mmaOp with tiles := [tile0], nextTile := 1, groupFree := mmaOp.groupFree.filter (fun g => g.1 != 3) }
theorem wit_k_block : barrierTile (opIs mmaOpB stMma) mmaOpB 3 = some tile0 ∧ mp.nkb ≤ tile0.kb + 1
    ∧ (match tileCells (opIs mmaOpB stMma) mmaOpB mp { tile0 with kb := 1, c := tile0.next } with | .ok _ => true | .error _ => false) = true := by decide
/-- An MMA of three K-blocks whose second is staged. -/
def staged0 : StagedK := { a := [], b := [], ready := [], sticky := 0 }
def tile1 : TileRun := { tile0 with kb := 1, ahead := some staged0 }
def mmaOpK : EngOp := { mmaOpB with image := mmaOp.image.take 0x28 ++ leBytes 4 96 ++ mmaOp.image.drop 0x2C, tiles := [tile1] }
theorem wit_next_k : barrierTile (opIs mmaOpK stMma) mmaOpK 3 = some tile1 ∧ (mmaPar mmaOpK.image mmaOpK.recs).nkb = 3 ∧ mmaOpK.phase = .running
    ∧ mmaOpK.halt = 0 ∧ mmaOpK.stops = [] ∧ (mmaPar mmaOpK.image mmaOpK.recs).nkb ≤ tile1.kb + 1 + 1 := by decide
theorem wit_stop : stopDue { mmaOp with halt := 0x36 } = true ∧ opDone (opIs { mmaOp with phase := .stopping } stMma) 5 { mmaOp with phase := .stopping } = true
    ∧ mmaOp.orphaned = false ∧ (crewOf (opIs mmaOp stMma) mmaOp.crew).isSome = true := by decide

/-! The copy engines and the Churn. -/

def copyOp : EngOp :=
  { newOp (engCmd stCopy engF .copy false (at0 stCopy) 0) (at0 stCopy) (padBytes stCopy 0 0 0x2000 0x80) copyRecs2 with
    phase := .running, progress := [0, 0] }
def stCop (o : EngOp) : State := opIs o stCopy
theorem wit_copy_start : nextCopy (stCop { copyOp with phase := .queued }) 0 0 = some 5 := by decide
theorem wit_chunk : chunkDue (stCop copyOp) 5 copyOp 0 = true ∧ (xferPar copyOp).mcast = false ∧ copyOp.aux = 0
    ∧ (chunkOf (stCop copyOp) 5 copyOp (xferPar copyOp) 0).errs = [] := by decide
theorem wit_srcfree : srcFreeDue { copyOp with progress := [1, 0] } = true ∧ copyOp.orphaned = false
    ∧ (crewOf (stCop copyOp) copyOp.crew).isSome = true := by decide
/-- A multicast of the source's 16 elements. -/
def mcOp1 : EngOp := { copyOp with image := padBytes (padPut 0x2004 4 0x388 stCopy) 0 0 0x2000 0x80 }
theorem wit_mcast_chunk : chunkDue (stCop mcOp1) 5 mcOp1 0 = true ∧ (xferPar mcOp1).mcast = true
    ∧ (mcastMessage (stCop mcOp1) mcOp1 (xferPar mcOp1)).errs = [] := by decide
theorem wit_chunk_error : (let o := { copyOp with image := copyOp.image.take 4 ++ leBytes 4 0x382 ++ copyOp.image.drop 8, recs := [rec (2 ^ 57) 1 0 1 [16] [4], rec 0x400 1 0 1 [16] [4]] };
    chunkDue (stCop o) 5 o 0 = true ∧ (chunkOf (stCop o) 5 o (xferPar o) 0).errs ≠ []) := by decide
/-- A multicast to clusters 1, 2 and 3: bank 200 of cluster 1 is a FIFO of nobody, of cluster 2 one that is full, of cluster 3 OFF. -/
def mcOp : EngOp :=
  { copyOp with image := leBytes 2 0 ++ leBytes 2 0 ++ leBytes 4 0x388 ++ leBytes 4 0 ++ leBytes 4 200 ++ leBytes 0x48 0 ++ leBytes 12 14 ++ leBytes 0x1C 0,
                fifoLeft := [1, 2, 3], msg := [1#8, 2#8] }
def fifo (l : List FifoMsg) (bd : Option Nat) : Bank := { mode := .fifo, owner := 0, bound := bd, slots := l }
def stMc : State :=
  updCluster (updCluster (stCop mcOp) 1 (fun c => setBank c 200 (fifo [] none))) 2
    (fun c => setBank c 200 (fifo [{ sender := 0, bytes := [] }, { sender := 0, bytes := [] }] (some 0)))
theorem wit_arrive : [1, 2, 3].all (arriveDue stMc 5 mcOp) = true ∧ (copyPar mcOp.image []).bank = 200
    ∧ (bankOf (clusterOf stMc 1) 200).slots.length < 2 ∧ (bankOf (clusterOf stMc 1) 200).mode = .fifo ∧ (bankOf (clusterOf stMc 1) 200).bound = none
    ∧ 2 ≤ (bankOf (clusterOf stMc 2) 200).slots.length ∧ (bankOf (clusterOf stMc 3) 200).mode = .off := by decide
/-- A collective over two members of which only rank 0 has arrived. -/
def collOp : EngOp :=
  { copyOp with kind := .coll, result := none,
                image := leBytes 8 0x1000 ++ leBytes 16 0 ++ leBytes 4 4 ++ leBytes 4 1 ++ leBytes 0x20 0,
                recs := [[], [], leBytes 4 1 ++ leBytes 4 1 ++ leBytes 4 2 ++ leBytes 4 0 ++ leBytes 4 (2 + 2 ^ 20) ++ leBytes 108 0] }
theorem wit_coll_timeout : collLate { stCop collOp with cycle := 2 ^ 34 } collOp = true := by decide

/-! Multicast messages of another device. -/

def msg0 (off : Nat) : McastMsg := { sender := 3, group := 1, ctx := 1, runs := [(off, [(7#8, 255#8)])] }
def bind0 : McastBinding := { sender := 3, group := 1, ctx := 1, rbase := 0x1000, len := 0x1000 }
def stBind : State :=
  { stTok with bindings := [(0, bind0)], grids := [{ grid1 with priv := false, gid := 4 }],
               die0 := { Die.reset with owners := [(0, .token (tok 0x1000 0x1000 (gridHolder 1 4)))], tlb := [pageE] } }
theorem wit_binding : stBind.bindings.find? (fun e => e.2.sender == (msg0 0).sender && e.2.group == (msg0 0).group && e.2.ctx == (msg0 0).ctx) = some (0, bind0)
    ∧ (msg0 0x1000).runs.any (fun r => decide (bind0.len < r.1 + r.2.length)) = true
    ∧ (msg0 0xFFF).runs.all (fun r => decide (r.1 + r.2.length ≤ bind0.len ∧ bind0.rbase + r.1 + r.2.length < 2 ^ 57)) = true
    ∧ (linePieces (bind0.rbase + 0xFFF) 1).all (fun x => match translate stBind none 0 1 x.1 with | .ok e => e.wr && !isWindow e && !behindIsolated stBind (locOf e x.1) && !peerGone stBind (locOf e x.1) | .error _ => false) = true
    ∧ tokensCover stBind 1 (dispatcherIds stBind 1) .store (bind0.rbase + 0xFFF) 1 = none := by decide
theorem wit_no_binding : stTok.bindings.all (fun e => !(e.2.sender == 3)) = true := by decide
theorem wit_member : look { copyOp with owed := [(7, 2)] }.owed 7 = some 2 ∧ look copyOp.refusals 7 = none := by decide

/-! Clauses, results and the schedulers. -/

/-- The crew's batch at its header, and a second one that joins it there; the header word as given. -/
def stHead (h : Nat) : State :=
  { batchIs (fun b => { b with begun := false, mask := 3#32 }) (crewIs (fun c => { c with
      batches := c.batches ++ [{ headBatch 0x100 4#32 .none 0 true with handler := false }] }) st0) with
    mem := placeWords st0.mem [(probePa + probeVa, h)] }
def headU (h : Nat) : State := (fetch64 (stHead h) 0 1 0x100).1
def headAt (h : Nat) : State := updCrew (headU h) r0 (fun c => joinReady c (at0 (stHead h)).b)
def headOk (h : Nat) : Bool :=
  let s := stHead h
  decide (issuer s = some (at0 s)) && isReady (at0 s).b && !(at0 s).b.begun && (at0 s).b.header == 0x100 && (at0 s).ctx == 1
    && (atOf (headAt h) r0 ((joinReady (at0 s).crew (at0 s).b).batches.length - 1)).isSome
    && (match fetch64 s 0 1 0x100 with | (_, .ok w) => w == BitVec.ofNat 64 h | _ => false)
/-- A header that is no multiple of 8, and one in a page that is not executable. -/
theorem wit_header_stops : (let s := batchIs (fun b => { b with begun := false, header := 0x104 }) st0;
      issuer s = some (at0 s) ∧ isReady (at0 s).b = true ∧ (at0 s).b.begun = false ∧ (at0 s).b.header % 8 ≠ 0)
    ∧ (let s := batchIs (fun b => { b with begun := false }) stNoEx;
      issuer s = some (at0 s) ∧ (at0 s).b.header % 8 = 0
      ∧ (match fetch64 s 0 1 (at0 s).b.header with | (_, .error k) => k != .notPresent | _ => false) = true) := by decide
/-- A good header of one word on all ports; the same with tag 0xB, with no port, with a wait mask. -/
theorem wit_header : headOk 0xA0F0000000000000 = true ∧ headOk 0xB0F0000000000000 = true ∧ headOk 0xA000000000000000 = true := by decide
theorem wit_header_fields : hdrTag 0xA0F0000000000000#64 = 0xA ∧ hdrPorts 0xA0F0000000000000#64 ≠ 0 ∧ hdrRsv 0xA0F0000000000000#64 = 0
    ∧ hdrTag 0xB0F0000000000000#64 ≠ 0xA ∧ hdrPorts 0xA000000000000000#64 = 0 ∧ tb (hdrPorts 0xA0F0000000000000#64) 1 = true
    ∧ flagsClear (crew0 st0) (hdrWait 0xA0F0000000000000#64) = true := by decide
theorem wit_header_wait : headOk 0xA0F8010000000000 = true ∧ hdrTag 0xA0F8010000000000#64 = 0xA ∧ hdrRsv 0xA0F8010000000000#64 = 0
    ∧ flagsClear { crew0 st0 with flags := [(0, 1#4)] } (hdrWait 0xA0F8010000000000#64) = false := by decide
/-- A memory set of one of two crews. -/
def stTwoCrews : State :=
  teamIs (fun t => { t with crews := t.crews ++ (t.crews.map (fun c => { c with pos := 1, mem := true })) }) st0
theorem wit_mem : memWaiters (clusterOf stTwoCrews 0) (crew0 st0) = [] ∧ memCount (clusterOf stTwoCrews 0) < { clusterOf stTwoCrews 0 with win := 2 }.win
    ∧ { clusterOf stTwoCrews 0 with win := 1 }.win ≤ memCount (clusterOf stTwoCrews 0) ∧ (crew0 st0).mem = false
    ∧ (({ crew0 st0 with mem := true }) : Crew).mem = true := by decide
def stStale : State := { batchIs (fun b => { b with begun := true, stale := true }) st0 with mem := placeWords st0.mem [(probePa + probeVa, 0xA0F0000000000000)] }
theorem wit_stale : issuer stStale = some (at0 stStale) ∧ isReady (at0 stStale).b = true
    ∧ (match fetch64 stStale 0 1 0x100 with | (_, .ok w) => hdrTag w == 0xA && hdrPorts w != 0 && hdrRsv w == 0 | _ => false) = true := by decide
def pends : List Pend := [{ dst := .g 31 15, val := some 7#32, ready := true }, { dst := .k 63, val := some 8#32, ready := true },
  { dst := .g 0 1, val := none, ready := false }]
def stPend : State := crewIs (fun c => { c with pend := pends }) st0
theorem wit_results : stPend.issue.isSome = true ∧ (pends.map (·.dst)).Nodup ∧ (crew0 stPend).pend = pends ∧ (crew0 stPend).win = 16 := by decide
theorem test_results : (g (after .resultWrite stPend) 31 15, k (after .resultWrite stPend) 63, (crew0 (after .resultWrite stPend)).pend.length) = (7, 8, 1) := by
  decide
def stCand : State := { crewIs (fun c => { c with cand := true, candSince := 0, issuedAt := 0, losses := 16, memWait := some 0 }) st0 with cycle := 1024 }
theorem wit_sched : (crew0 stCand).cand = true ∧ (crew0 stCand).prec = none ∧ 16 ≤ (crew0 stCand).losses
    ∧ (crew0 stCand).candSince + 1024 ≤ stCand.cycle ∧ (crew0 stCand).issuedAt + 1024 ≤ stCand.cycle
    ∧ (clusterOf stCand 0).teams ≠ [] ∧ stCand.cycle / 1024 = (clusterOf stCand 0).epoch + 1 ∧ (clusterOf stCand 0).expert = false
    ∧ (clusterOf stCand 0).half = false ∧ (crew0 stCand).memWait = some 0 ∧ (crewOf stCand r0).isSome = true ∧ stCand.issue.isSome = true := by decide

/-! Pages and contexts. -/

def stPage (es : List (Nat × PageReq)) : State :=
  batchIs (fun b => { b with wait := .ticket (some (3 * 512 + 4)) [(0, { fault .notPresent with va := 0x9000 })] }) { st0 with pages := es }
theorem wit_page : look (stPage [(4, { ctx := 1, va := 0x9000, gen := 3 })]).pages ((BitVec.ofNat 16 1540).toNat % 512) = some { ctx := 1, va := 0x9000, gen := 3 }
    ∧ 3 % 128 = (BitVec.ofNat 16 1540).toNat / 512 ∧ look (stPage []).pages ((BitVec.ofNat 16 1540).toNat % 512) = none
    ∧ (crewOf (stPage [(4, { ctx := 1, va := 0x9000, gen := 3 })]) r0).isSome = true
    ∧ (crew0 (stPage [])).batches.any (holdsTicket 1540) = true := by decide
theorem wit_page_saved : (teamOf (teamIs (fun t => { t with saved := true }) (stPage [])) 0 0).any (·.saved) = true
    ∧ (teamOf (stPage []) 0 0).any (fun t => !t.saved) = true := by decide
/-- Context 2: running without a grid, saved, or absent. -/
def ctx2 (p : CtxPhase) (s : State) : State :=
  { s with ctxs := match ctxOf s 1 with | some c => put s.ctxs 2 { c with phase := p } | none => s.ctxs }
def svF : RRR := rr (G 12) (G 2) (G 4) (G 0) 0 0
def svR (x : Nat) (s : State) : State := regs [(0, 2, x), (0, 4, 0x1000)] s
theorem wit_ctxsv : [1, 2].all (fun x => passes (svR x st0) (ctxSpec svF) && opdVal (svR x st0) (at0 st0) 0 (G 4) 2 % 4096 == 0
      && opdVal (svR x st0) (at0 st0) 0 (G 2) 1 % 2 ^ 12 == x) = true
    ∧ (at0 st0).team.ctx = 1 ∧ loadPends st0 2 = false ∧ phaseOf st0 2 ≠ some .running ∧ phaseOf st0 2 ≠ some .saved
    ∧ phaseOf (ctx2 .running st0) 2 = some .running ∧ tokensCover (ctx2 .running st0) 1 ids0 .store 0x1000 areaMax ≠ none
    ∧ tokensCover (ctx2 .running (owns [tok 0x1000 (2 ^ 40) team1] st0)) 1 ids0 .store 0x1000 areaMax = none
    ∧ (ctxOf (ctx2 .running st0) 2).isSome = true := by decide
/-- Context 2 without a team, saved at 0x1000, a page at hand. -/
def sv0 : State := warm (svR 2 (ctx2 .running (owns [tok 0x1000 (2 ^ 40) team1] st0)))
theorem area_reachable {s : State} {n : Nat} (ht : (dieOf s 0).tlb = [warmPage]) (hc : s.cxl = []) (hn : n ≤ 4096) :
    AreaReachable s 0 1 0x1000 n := by
  refine ⟨by omega, fun va h1 h2 => ⟨warmPage, ?_, rfl, by decide, ?_, ?_⟩⟩
  · have h3 : va / 2 ^ 30 = 0 := Nat.div_eq_of_lt (by omega)
    rw [ht]
    simp only [warmPage, tlbHit, List.find?_cons, h3]
    rfl
  · simp [behindIsolated, cxlPort, hc, look, CxlPort.reset]
  · have h4 : va % 2 ^ 30 = va := Nat.mod_eq_of_lt (by omega)
    have h5 : isPeer (locOf warmPage va) = false := by
      have h6 : (1073741824 + va) / 2 ^ 50 = 0 := Nat.div_eq_of_lt (by omega)
      simp only [locOf, warmPage, h4, probePa, h6, isPeer]
      simp
      omega
    simp [peerFault, peerGone, h5]
theorem wit_save_tlb : (dieOf (beforeArea sv0 2) 0).tlb = [warmPage] ∧ (beforeArea sv0 2).cxl = []
    ∧ (areaBytes (beforeArea sv0 2) 2).length ≤ 4096 := by decide
theorem wit_save : AreaReachable (beforeArea sv0 2) 0 1 0x1000 (areaBytes (beforeArea sv0 2) 2).length :=
  area_reachable wit_save_tlb.1 wit_save_tlb.2.1 wit_save_tlb.2.2
theorem wit_save_state : passes sv0 (ctxSpec svF) = true ∧ loadPends sv0 2 = false ∧ phaseOf sv0 2 = some .running
    ∧ tokensCover sv0 1 (at0 sv0).ids .store 0x1000 areaMax = none := by decide
/-- Context 2 saved, with an area at 0x1000 of no team, or of one team that stands in slot 1 and finds no registers. -/
def area (l : List (Nat × Nat)) (s : State) : State :=
  { ctx2 .saved (owns [tok 0x1000 (2 ^ 40) team1] (svR 2 s)) with
    mem := st0.mem ++ l.map (fun e => (probePa + 0x1000 + e.1, BitVec.ofNat 8 e.2)) }
def ld0 : State := area [(0, 1), (4, 2), (9, 1), (0x69, 1)] st0
/-- The area's header and image, the restore that they ask for, and the state then. -/
def areaOf (s : State) : Option (List Byte × List Byte × State) :=
  match engLoad s (at0 s) 0x1000 256 with
  | (v, .ok h) => (match engLoad v (at0 s) 0x1000 (leAt h 8 8) with | (w, .ok img) => some (h, img, w) | _ => none)
  | _ => none
def askedLoad (img : List Byte) : LoadPend :=
  { ctx := 2, area := .va 0 1 0x1000, image := img, done := 0, crew := some r0, dest := pendDst 0 svF.d }
def loadOk (s : State) (x : Nat) : Bool :=
  passes s (ctxSpec svF) && !loadPends s 2 && decide (phaseOf s 2 = some .saved)
    && decide (tokensCover s 1 (at0 s).ids .load 0x1000 areaMax = none)
    && (areaOf s).any (fun e => leAt e.1 0 4 == 1 && decide (256 ≤ leAt e.1 8 8) && !areaBad e.2.1 && leAt e.2.1 4 4 == x)
/-- Does the restore find no room? -/
def loadWaits (s : State) : Bool := (areaOf s).any (fun e => (driveLoad (loadRegs e.2.2 2 e.2.1) (askedLoad e.2.1)).2.isSome)
theorem wit_load : loadOk ld0 2 = true ∧ Memory.wf ld0.mem = true ∧ loadWaits ld0 = false := by decide
theorem wit_load_other : loadOk (area [(0, 1), (4, 3), (9, 1), (0x69, 1)] st0) 3 = true := by decide
theorem wit_load_asked : loadPends { ld0 with loads := [askedLoad []] } 2 = true := by decide
def team2 : Team :=
  { newTeam { grid1 with ctx := 2 } [{ newCrew 1 0 16 2 0 false with live := 1#32 }] [] 0 with started := true, saved := true }
def full (s : State) : State :=
  clusterIs (fun c => { c with teams := c.teams ++ [(1, team2)] })
    (teamIs (fun t => { t with crews := t.crews.map (fun c => { c with win := 256 })
                                       ++ (List.range 15).map (fun i => newCrew (i + 2) (8192 * (i + 1)) 256 1 0 false) }) s)
def ld1 : State := area [(0, 1), (4, 2), (8, 0x80), (9, 0x0F), (16, 1), (0x68, 0x80), (0x69, 0x0F), (257, 1), (528, 2)] (full st0)
theorem wit_load_waits : loadOk ld1 2 = true ∧ loadWaits ld1 = true := by
  decide +kernel

/-! Teams, grids and contexts. -/

def gridU : Grid := { grid1 with priv := false, nextTeam := 0 }
/-- A pending grid of context 1 with nothing resident. -/
def stPend0 : State := updCluster { st0 with grids := [gridU] } 0 (fun c => { c with teams := [] })
theorem wit_place : freeKey (clusterOf stPend0 0).teams 0 32 = some 0 ∧ gridOf stPend0 gridU.ctx gridU.gid = some gridU
    ∧ (ctxOf stPend0 gridU.ctx).isSome = true ∧ [0].length + (posUsed (clusterOf stPend0 0)).length ≤ 64
    ∧ (nextPlacement stPend0).isSome = true ∧ nextPlacement State.reset = none := by decide
theorem wit_reserve : reservationDue { stPend0 with cycle := 2 ^ 20 } gridU = true := by decide
/-- A placed team that has not started; its context's record area is mapped. -/
def stPlaced (killed : Bool) : State :=
  teamIs (fun t => { t with started := false, killed := killed, crews := [newCrew 0 0 16 1 0 true] }) (trapRegs 0 { st0 with grids := [grid1] })
theorem wit_start : (teamOf (stPlaced false) 0 0).any (fun t => !t.started && !t.saved) = true ∧ gridOf (stPlaced false) 1 0 = some grid1 ∧ grid1.killed = false
    ∧ (teamOf (stPlaced false) 0 0).any (fun t => (writeDirectory (stPlaced false) 0 0 t true).2.isNone) = true := by decide
/-- A finished team with its banks, then without them, its grid's count of unfinished teams 1, then 0. -/
def stDone (done : Bool) : State :=
  teamIs (fun t => { t with banksDone := done, crews := t.crews.map (fun c => { c with live := 0#32, batches := [] }) }) { pads st0 with grids := [grid1] }
theorem wit_leave : (teamOf (stDone false) 0 0).any (bankReleaseDue (stDone false)) = true ∧ (bankOf (clusterOf (stDone false) 0) 128).mode = .pad
    ∧ (bankOf (clusterOf (stDone false) 0) 128).owner = 0 ∧ (teamOf (stDone true) 0 0).any (exitDue (stDone true) 0 0) = true
    ∧ gridOf (stDone true) 1 0 = some grid1 := by decide
/-- A child grid without unfinished teams, its parent, and the crew that launched it with flag 3. -/
def child : Grid :=
  { gridU with gid := 5, parent := some (1, 0), unfinished := 0, launchedBy := team1, launcher := some { crew := r0, team := team1, flag := some 3 } }
def stRetire : State := { st0 with grids := [{ grid1 with children := 1 }, child] }
theorem wit_retire : gridOf stRetire 1 5 = some child ∧ child.unfinished = 0 ∧ gridOf stRetire 1 0 = some { grid1 with children := 1 }
    ∧ (crewOf stRetire r0).isSome = true ∧ (1, 0) ≠ (1, 5) := by decide
theorem wit_kill : gridOf { st0 with grids := [{ gridU with killed := true, killCode := 9 }] } 1 0 = some { gridU with killed := true, killCode := 9 } := by decide
theorem wit_fence_cluster : (clusterOf stTok 0).fenced = false ∧ (teamOf stTok 0 0).any (fun t => (teamIds 0 0 t).contains team1) = true
    ∧ (tokenAt stTok 0 0).any (fun k => k.owner == team1 && !isBad k) = true ∧ (teamOf stTok 0 0).any (fun t => (gridOf stTok t.ctx t.gid).isSome) = true := by decide

def newGrid (p : Bool) : NewGrid := { cluster := 191, entry := 0x100#64, w8 := 32, crews := 16, banks := 256, kinit := [], privileged := p }
def newCtx0 (n : Nat) : NewCtx :=
  { ctx := n, roots := [(0x1000, 0x1000)], grid := newGrid false,
    regs := { objbase := 0, objcount := 0, ptbase := 0x10000, privbase := 0, privmax := 0, faultbase := 0, trapvec := 0, poison := 3 } }
def upState : State := { State.reset with boot := { State.reset.boot with phase := .up, devnum := some 4, member := 4 } }
theorem wit_create : upState.boot.phase = .up ∧ ctxFree upState (newCtx0 4095).ctx = true ∧ newGridOk (newGrid false) = true
    ∧ upState.grids = [] := by decide
theorem wit_destroy : phaseOf stTok 1 = some .running ∧ ofCtx (opIs mmaOp stTok) 1 mmaOp = true := by decide
theorem wit_dispatch : phaseOf st0 1 = some .running ∧ newGridOk (newGrid true) = true ∧ stoppedTeams st0 1 191 = []
    ∧ dispatcherIds { st0 with grids := [grid1] } 1 = [] ∧ freeKey (gidsUsed { st0 with grids := [grid1] } 1) 0 65536 = some 1
    ∧ dispatcherIds { st0 with grids := [gridU] } 1 ≠ [] := by decide
def stStopped : State := crewIs (fun c => { c with stopped := true }) { st0 with grids := [grid1] }
theorem wit_restart : newGridOk { newGrid true with cluster := 0 } = true ∧ (teamOf stStopped 0 0).any (fun t => t.ctx == 1 && t.crews.any (·.stopped)) = true
    ∧ (gridOf stStopped 1 0).any (fun g => g.priv && !g.killed) = true := by decide

/-! Tokens of the driver, errors, tables. -/

def host1 (i : Nat) : Conn :=
  { destqp := 7, ctx := 1, host := i, type := 1, retry := 7, ackto := 3, rkey := 5#32, rnrt := 2, inq := 0x1000#64, outq := 0x1000#64, peerip := 0,
    peermac := 0 }
theorem wit_root : regionOk 0x1000 64 = true ∧ allTokens st0 = [] ∧ freeOwner st0 (regionDie st0 1 0x1000) = some 0
    ∧ (dispatcherIds { st0 with grids := [gridU] } 1).head? = some (gridHolder 1 0) ∧ hostOk { st0 with conns := [(0, host1 9)] } 1 9 = true := by decide
def stRoot : State := { owns [tok 0x1000 0x1000 (gridHolder 1 0)] st0 with grids := [gridU] }
theorem wit_destroy_root : coverOf stRoot 1 0x1000 = some (0, 0, tok 0x1000 0x1000 (gridHolder 1 0))
    ∧ rootOwner stRoot (tok 0x1000 0x1000 (gridHolder 1 0)) = true ∧ jointlyHeld stRoot 0 0 = false := by decide
theorem wit_root_ok : rootOk st0 1 0x1000 64 false = true ∧ rootOk stRoot 1 0x100000000 65536 true = true := by decide
theorem wit_l1_unreached : isCxl (2 ^ 50 + 64) = true ∧ (let s := { st0 with cxl := [(0, { CxlPort.reset with isolated := true })] };
    behindIsolated s (2 ^ 50 + 64) = true
    ∧ (l1Find (clusterOf (clusterIs (fun c => { c with l1 := [{ line0 with key := 2 ^ 50 + 64, dirty := 0#64 }] }) s) 0) (2 ^ 50 + 64)).isSome = true) := by decide
theorem wit_l1_error : l1Find (clusterOf stLine 0) (probePa + 0x1000) = some line0 ∧ line0.dirty ≠ 0#64
    ∧ l1Find (clusterOf (clusterIs (fun c => { c with l1 := [{ line0 with dirty := 0#64 }] }) st0) 0) (probePa + 0x1000) = some { line0 with dirty := 0#64 } := by
  decide
theorem wit_peer_copy : (let k := peerKey 3 1 0x1000; peerCopy { st0 with die0 := { st0.die0 with l2 := [{ key := k, valid := 15#4, dirty := 0#4, keep := false, dirtier := 1 }] } } k) = true
    ∧ isLocal 0 = true := by decide
theorem wit_soft_error : 0 < hbmSize ∧ isCxl (2 ^ 50 + 64) = true ∧ (phaseOf st0 1).isSome = true := by decide
def group0 : McastGroup :=
  { ctx := 1, valid := true, wlen := 65536, ackbase := 128#64, acklog := 16, wseq := 0, members := [0, 511], winva := 0x100000000#64 }
theorem wit_group_write : groupEntryOk group0 = true ∧ regionFree stRoot 1 group0.winva.toNat group0.wlen = true
    ∧ (dispatcherIds stRoot 1).head? = some (gridHolder 1 0) ∧ freeOwner stRoot (regionDie stRoot 1 group0.winva.toNat) = some 1
 := by decide

/-! The link, hosts, peers. -/

def fr (q k : Nat) (b : FrameBody) : Frame :=
  { size := 9216, intact := true, sak := 0, pn := 0, seq := BitVec.ofNat 32 q, ack := BitVec.ofNat 32 k, nak := false, shimZero := true, body := b }
theorem wit_frame : upState.eth.up = true ∧ upState.boot.phase ≠ .recovery ∧ (fr 0 0 .control).size ≤ 9216 ∧ (fr 0 0 .control).body ≠ .mka
    ∧ (fr 0 0 .control).intact = true ∧ (fr 0 0 .control).sak = upState.eth.sak ∧ upState.eth.rxPn ≤ (fr 0 0 .control).pn
    ∧ upState.eth.rxExpect = (fr 0 0 .control).seq ∧ upState.eth.rxExpect ≠ (fr 1 0 .control).seq ∧ (fr 0 0 .mka).body = .mka := by decide
theorem wit_frame_bad : 9216 < { fr 0 0 .control with size := 9217 }.size
    ∧ { fr 0 0 .control with pn := 6 }.pn < { upState with eth := { upState.eth with rxPn := 7 } }.eth.rxPn := by decide
theorem wit_replay : upState.eth.waiting = [] ∧ replayUsed upState.eth + frameBytes (.roce (.ack 0 0)) ≤ 2 ^ 28 ∧ replayUsed upState.eth + 16 ≤ 2 ^ 28
    ∧ { upState with eth := { upState.eth with waiting := [.control] } }.eth.waiting ≠ [] := by decide
theorem wit_link_down : (let s := { upState with eth := { upState.eth with naks := 64 } }; s.eth.up = true ∧ 64 ≤ s.eth.naks)
    ∧ (let s := { upState with cycle := 27000000 }; s.eth.lastRx + 27000000 ≤ s.cycle)
    ∧ { upState with eth := { upState.eth with up := false } }.eth.up = false := by decide
theorem wit_control_due : (let s := { upState with cycle := 43200 }; s.eth.lastTx + 43200 ≤ s.cycle)
    ∧ (let s := { upState with cycle := 5400, eth := { upState.eth with nakOut := true } }; s.eth.nakOut = true ∧ s.eth.nakAt + 5400 ≤ s.cycle) := by decide
/-- Connection 0 of host 1 with a token over the page, an empty queue at 0x1000 whose slots host 1 may write. -/
def stHost : State :=
  { qinit (owns [tok 0x1000 0x1000 team1] st0) 0 1 (at0 st0).ids 0x1000 1 false |>.1 with
    conns := [(0, host1 1)], die0 := { Die.reset with owners := [(0, .token (tok 0x1000 0x1000 (hostHolder 1)))] } }
/-- The same when the request at PSN 0 has been taken. -/
def stHostV : State := pastPsn stHost 0 1
theorem wit_host : connOf stHost 0 = some (host1 1) ∧ (host1 1).type = 1 ∧ connOf stHost 1 = none ∧ remoteFault stHostV 1 (hostHolder 1) .store 0x1FFF 1 = none
    ∧ remoteFault (pastPsn stHost 0 (readCount 64)) 1 (hostHolder 1) .load 0x1000 64 = none
    ∧ remoteFault stHostV 1 (hostHolder 1) .atomic 0x1FF8 8 = none ∧ (4#32 ≠ (host1 1).rkey) := by decide
theorem wit_host_2 : connOf { stHost with conns := [(0, { host1 1 with type := 2 })] } 0 = some { host1 1 with type := 2 } := by decide
theorem wit_host_bad_send : sendQueue stHostV (host1 1) [] = none := by decide
theorem wit_psn : 0 = (qpOf stHost 0).ePsn ∧ (qpOf stHost 0).write = none ∧ (2 ^ 24 - 1 ≠ (qpOf stHost 0).ePsn ∧ psnLe (2 ^ 24 - 1) (qpOf stHost 0).ePsn = true)
    ∧ psnLe 1 (qpOf stHost 0).ePsn = false ∧ (qpOf stHost 0).hold = false
    ∧ (qpOf { stHost with eth := { stHost.eth with qps := [(0, { qpOf stHost 0 with hold := true })] } } 0).hold = true := by decide
/-- Token messages: RETN of a region that the host does not hold, LEND of the page to crew 0's team. -/
def retnMsg : List Byte := leBytes 8 0x1000 ++ leBytes 24 0x1000
def lendMsg : List Byte := leBytes 8 0x1000 ++ leBytes 8 0x1000 ++ leBytes 8 team1.toNat ++ leBytes 8 0
theorem wit_transfer_message : retnMsg.length = 32 ∧ lendMsg.length = 32 ∧ transferBad 2 retnMsg = false ∧ transferBad 1 lendMsg = false
    ∧ (0x02000000#32).toNat / 2 ^ 24 = 2 ∧ (0x01000000#32).toNat / 2 ^ 24 = 1
    ∧ (match lend stHostV 1 [hostHolder 1] (leAt lendMsg 0 8) (leAt lendMsg 8 8) (BitVec.ofNat 64 (leAt lendMsg 16 8)) (leAt lendMsg 24 1) none with
       | (_, .status v) => v == 0 | _ => false) = true := by decide
def stWork : State :=
  { qinit (owns [tok 0x1000 0x1000 team1] st0) 0 1 (at0 st0).ids 0x1000 33 false |>.1 with
    conns := [(0, host1 1)], die0 := { Die.reset with owners := [(0, .token (tok 0x1000 0x1000 (hostHolder 1)))] } }
def sent1 (s : State) (v : Nat) : Bool :=
  (sendQueue s (host1 1) (leBytes 8 9)).any (fun h =>
    match qPushCore s 0 1 [hostHolder 1] 0x1000 h 9 none with | (_, .status w) => w == v | _ => false)
def stWorkV : State := pastPsn stWork 0 1
/-- The queue's two slots are taken. -/
def stWorkFull : State :=
  let s := (qInsert stWorkV 0 1 0x1000 (qHead stWorkV 0 1 0x1000) 7 noToken).1
  (qInsert s 0 1 0x1000 (qHead s 0 1 0x1000) 8 noToken).1
theorem wit_send : sent1 stWorkV 0 = true ∧ sent1 stWorkFull 0x20000000 = true := by decide
/-- The connection's queue holds one item. -/
def stOut : State :=
  { stHost with mem := (qInsert stHost 0 1 0x1000 (qHead stHost 0 1 0x1000) 77 noToken).1.mem }
theorem wit_outq : outqDue stOut 0 (host1 1) = true ∧ (boundQueue stOut 1 0x1000).any (fun h =>
    match qRemove stOut 0 1 0x1000 h (hostHolder 1) with | (_, some (i, t)) => decide (i = 77 ∧ t = noToken) | _ => false) = true := by decide
def sent0 (t : Nat) : Sent := { conn := 0, psn := 0, pkt := .send 7 0 (leBytes 8 77), tries := t, since := 0, item := some (77, noToken) }
def stSent (t : Nat) : State := { stHost with cycle := 2 ^ 20, eth := { stHost.eth with sent := [sent0 t] } }
theorem wit_sent : oldestSent (stSent 7) 0 = some (sent0 7) ∧ (host1 1).retry ≤ 7 ∧ oldestSent (stSent 6) 0 = some (sent0 6) ∧ 6 < (host1 1).retry
    ∧ (sent0 7).since + ackCycles (host1 1).ackto ≤ (stSent 7).cycle
    ∧ connEntryOk (host1 2) = true ∧ connOf stHost 1023 = none ∧ stHost.conns.all (fun x => x.2.host != 2) = true
    ∧ (tokenAt stHost 0 0).any (fun k => k.owner == hostHolder 1 && !isBad k) = true := by decide
def stPeer : State := { owns [tok 0x1000 0x1000 (peerHolder (deviceOf upState 9))] st0 with boot := upState.boot }
theorem wit_peer : remoteFault stPeer 1 (peerHolder (deviceOf stPeer 9)) .load 0x1F00 256 = none
    ∧ remoteFault stPeer 1 (peerHolder (deviceOf stPeer 9)) .store 0x1000 64 = none
    ∧ remoteFault stPeer 1 (peerHolder (deviceOf stPeer 9)) .atomic 0x1000 8 = none
    ∧ vaLoc stPeer 0 1 0x1000 = some (probePa + 0x1000) ∧ 9 ∉ stPeer.ua.lost
    ∧ (tokenAt stPeer 0 0).any (fun k => k.owner == peerHolder (deviceOf stPeer 9) && !isBad k) = true ∧ 511 ≠ stPeer.boot.member
    ∧ (dispatcherIds stRoot 1).head? = some (gridHolder 1 0) ∧ freeOwner stRoot 0 = some 1 ∧ regionFree stRoot 1 0x4000 64 = true
    ∧ (cxlPort stPeer 7).isolated = false ∧ (63 < 64 ∧ 256 < 257) := by decide

/-! The package. The acceptance of an image rests on `Config.falconVerify` and `Config.shake256`, which log 7 leaves free; an image with
another magic number is rejected whatever they are. -/

theorem wit_image_rejected : imageOk 0 (leBytes 4 0) = false := by
  simp [imageOk, leAt, leBytes, leNat]
theorem wit_package : (∀ c ∈ upState.ctxs, c.2.phase = .destroyed) ∧ upState.boot.phase = .up ∧ upState.boot.phase ≠ .recovery
 := by decide
theorem wit_recovery : { State.reset.boot with phase := .recovery }.phase = .recovery := by decide
def stHot : State := { upState with clusters := (List.range 192).map (fun x => (x, { Cluster.reset with rail := 4, railTo := 4 })) }
theorem wit_overtemp : (∀ x < 192, (clusterOf stHot x).rail = 4 ∧ (clusterOf stHot x).railTo = 4) ∧ (clusterOf st0 191).rail ≠ 4 := by decide
theorem wit_reserved : issuer st0 = some (at0 st0) := by decide

/-! Framing, and guards that are false for every fibre. -/

def p0 : Guard := { p := 0, neg := false }
def framedAll : List Instr :=
  [.addRRR (f2 2 0), .ld (mem 15 4 0 2 0 0 false), .aadd (amo 15 4 2 0), .mma (eng 15 0x2000 2 15), .lend (rr (G 15) (G 2) (G 4) (G 6) 0 0),
   .bra (br 0), .fend (rr (G 0) (G 0) (G 0) (G 0) 0 0)]
/-- A header without ports; one of three words on all ports. -/
def stNoPort : State := batchIs (fun b => { b with hdr := 0xA200000000000000 }) st0
def stThree : State := batchIs (fun b => { b with hdr := 0xA2F0000000000000 }) st0
theorem wit_framing : issuer stNoPort = some (at0 stNoPort) ∧ (at0 stNoPort).slots ≠ []
    ∧ framedAll.all (fun i => (checksOf i).any (fun w => !framed (at0 stNoPort) w.port w.ct)) = true
    ∧ [Instr.bra (br 0), .fend (rr (G 0) (G 0) (G 0) (G 0) 0 0)].all (fun i => (checksOf i).any (fun w => !framed (at0 stThree) w.port w.ct))
      = true := by decide
theorem wit_guarded_bar : (checksOf (.bar { barF with gd := p0 })).any (fun w => framed (at0 st0) w.port w.ct && w.plain && !guardPlain w.gd) = true := by decide
theorem wit_guard_false : [Instr.addRRR { f2 2 0 with gd := p0 }, .ld { mem 15 4 0 2 0 0 false with gd := p0 }].all (fun i =>
      (checksOf i).any (fun w => framed (at0 st0) w.port w.ct && (!w.plain || guardPlain w.gd) && decide (active (at0 st0) w.gd = []) && !w.ct)) = true
    ∧ (checksOf (.bra { br 0 with gd := p0 })).any (fun w => framed (at0 st0) w.port w.ct && (!w.plain || guardPlain w.gd)
      && decide (active (at0 st0) w.gd = []) && w.ct) = true := by decide

/-! FUSED_ISSUE: its words pass their checks in a crew without pending results; a register of the first is pending. -/

theorem wit_fused_checks : issuer stFused = some (at0 stFused) ∧ (at0 stFused).b.begun = true ∧ (at0 stFused).crew.pend = []
    ∧ (localOf shlW).any (fun v => passes stFused v.sp) = true ∧ (localOf addW).any (fun w => w.sp.legal (at0 stFused).crew.win) = true := by decide
theorem wit_fused3_checks : issuer stFused3 = some (at0 stFused3) ∧ (at0 stFused3).b.begun = true ∧ (at0 stFused3).crew.pend = []
    ∧ (localOf w1).any (fun v => passes stFused3 v.sp) = true ∧ framed (at0 stFused3) (some 2) false = true
    ∧ [w2, w3].all (fun i => (laterOf i).any (fun w => w.sp.legal (at0 stFused3).crew.win)) = true := by decide
def stFusedLate : State := crewIs (fun c => { c with pend := [{ dst := .g 0 2, val := none, ready := false }] }) stFused
theorem wit_fused_waits : issuer stFusedLate = some (at0 stFusedLate) ∧ fusable stFusedLate (at0 stFusedLate) = [shlW, addW]
    ∧ (localOf shlW).any (fun v => framed (at0 stFusedLate) v.sp.port v.sp.ct && decide (active (at0 stFusedLate) v.sp.gd ≠ [])
      && v.sp.legal (at0 stFusedLate).crew.win && hazard (at0 stFusedLate).crew (active (at0 stFusedLate) v.sp.gd) v.sp.regs) = true := by decide

/-! A load that every fibre faults: of a page without a token in the user view, and of an absent page. -/

def faults (s : State) (p : FaultInfo → Bool) : Bool := (pendingOf (.ld (mem 15 4 0 2 0 0 false))).any (fun w =>
  passes s w.sp && !w.stall s (at0 s) (active (at0 s) w.sp.gd) && decide (active (at0 s) w.sp.gd = [0])
    && (w.runs (at0 s) (active (at0 s) w.sp.gd) s).2.all (fun e => match e.2 with | .bad f => p f | .ok _ => false))
def stAbsent : State := regs [(0, 5, 0x100)] stTok
theorem wit_trapped : faults (user (regs [(0, 4, 0x2000)] stTok)) (fun e => e.kind == .unowned) = true := by decide
theorem wit_parked : faults stAbsent (fun e => e.kind == .notPresent && e.quiet.isNone) = true ∧ (at0 stAbsent).slots = [0]
    ∧ pageOpen stAbsent 1 (2 ^ 40) = none ∧ freeKey stAbsent.pages 0 512 = some 0 := by decide

/-! The checks of an access (`stOwn` has one token over 0x1000 to 0x1FFF in a state, with an owner). -/

def stOwn (t : Token) : State := warm (user (owns [t] (one (pads st0))))
def t0 (o : W64) (x : TokState) : Token := { tok 0x1000 0x1000 o with state := x }
def ld4 : Acc := { kind := .load, n := 4, pol := .normal }
def st4 : Acc := { kind := .store, n := 4, pol := .normal }
theorem wit_access : translate (stOwn (t0 team1 .excl)) (some 0) 0 1 0x1000 = .ok warmPage ∧ isWindow warmPage = false ∧ warmPage.rd = true
    ∧ (at0 (stOwn (t0 team1 .excl))).crew.priv = false ∧ coverOf (stOwn (t0 team1 .excl)) 1 0x2000 = none
    ∧ coverOf (stOwn (t0 team1 .excl)) 1 0x1004 = some (0, 0, t0 team1 .excl)
    ∧ coverOf (stOwn (t0 team1 .orphan)) 1 0x1004 = some (0, 0, t0 team1 .orphan)
    ∧ coverOf (stOwn (t0 team1 .poison)) 1 0x1004 = some (0, 0, t0 team1 .poison)
    ∧ sharesOf (stOwn (t0 grid1h .excl)) 0 0 = [] ∧ (at0 (stOwn (t0 team1 .excl))).ids.contains team1 = true
    ∧ (at0 (stOwn (t0 (teamHolder 1 0 0 7) .excl))).ids.contains (teamHolder 1 0 0 7) = false
    ∧ l1Find (clusterOf (stOwn (t0 team1 .excl)) 0) (locOf warmPage 0x1004) = none ∧ locOf warmPage 0x1004 < 2 ^ 50
    ∧ poisoned (stOwn (t0 team1 .excl)) (locOf warmPage 0x1004) = false
    ∧ poisoned { stOwn (t0 team1 .excl) with poison := [probePa + 0x1000] } (locOf warmPage 0x1004) = true := by decide
theorem wit_permitted : Permitted (stOwn (t0 team1 .excl)) 0 0 (t0 team1 .excl) (at0 (stOwn (t0 team1 .excl))).ids .store :=
  Or.inl ⟨by decide, Or.inl (by decide)⟩
theorem wit_ownmode : HoldsSome (stOwn (t0 team1 .shared)) 0 0 (t0 team1 .shared) (at0 (stOwn (t0 team1 .shared))).ids
    ∧ ¬ Permitted (stOwn (t0 team1 .shared)) 0 0 (t0 team1 .shared) (at0 (stOwn (t0 team1 .shared))).ids .store := by
  refine ⟨Or.inl (by decide), ?_⟩
  have h : sharesOf (stOwn (t0 team1 .shared)) 0 0 = [] := by decide
  rintro (⟨-, p⟩ | ⟨e, he, -⟩)
  · revert p; decide
  · rw [h] at he; cases he
theorem wit_unheld : ¬ HoldsSome (stOwn (t0 (teamHolder 1 0 0 7) .excl)) 0 0 (t0 (teamHolder 1 0 0 7) .excl)
    (at0 (stOwn (t0 (teamHolder 1 0 0 7) .excl))).ids := by
  have h : sharesOf (stOwn (t0 (teamHolder 1 0 0 7) .excl)) 0 0 = [] := by decide
  rintro (p | ⟨e, he, -⟩)
  · revert p; decide
  · rw [h] at he; cases he
/-- An absent page, and an entry that is malformed. -/
def stBadPte : State := { st0 with mem := placeWords st0.mem [(probeTable + 0x2000, 2 ^ 63 + 0xF)] }
theorem wit_walks : (match translate st0 (some 0) 0 1 (2 ^ 40) with | .error .absent => true | _ => false) = true
    ∧ (match translate stBadPte (some 0) 0 1 0x1000 with | .error (.bad _) => true | _ => false) = true := by decide

/-! PREF of a page at hand in device and in peer memory; what PREF does where a load would fault, and of PAD. -/

def pf (space pol : Nat) : MEM := mem 0 4 0 2 space pol false
def pl (pol : Nat) : Acc := { kind := .load, n := 4, pol := policyOf (BitVec.ofNat 2 pol) }
def atMem (s : State) (f : MEM) (x : Acc) (p : Nat → Bool) : Bool :=
  match memAcc s (at0 s) 0 f x with | (_, .ok (.mem k _)) => p k | _ => false
def stPref : State := regs [(0, 4, 0x1004)] (warm (pads st0))
/-- A page of pod member 3. -/
def peerPage : TlbEntry := { ctx := 1, va := 0, bits := 30, pa := 2 ^ 51 + 3 * 2 ^ 40, rd := true, wr := true, ex := false }
def stPrefPeer : State := updDie (clusterIs (fun c => { c with tlb := [peerPage] }) stPref) 0 (fun d => { d with tlb := [peerPage] })
theorem wit_pref : atMem stPref (pf 0 0) (pl 0) (fun k => k == probePa + 0x1004) = true
    ∧ [1, 2, 3].all (fun p => atMem stPref (pf 0 p) (pl p) (fun k => decide (k < 2 ^ 50 ∧ k % 128 + 4 ≤ 128))) = true
    ∧ wayCount (clusterOf stPref 0) ≠ 0 ∧ (clusterOf stPref 0).l1 = []
    ∧ (clusterOf (clusterIs (fun c => { c with l1 := [{ line0 with key := probePa + 0x1000 + 128 * 64 * 64, dirty := 0#64 }] }) stPref) 0).l1.any
      (fun e => e.lock.isNone && e.dirty == 0#64) = true
    ∧ (match memAcc stPref (at0 stPref) 0 (pf 1 0) (pl 0) with | (_, .ok (.pad 0x1004)) => true | _ => false) = true
    ∧ (match memAcc (regs [(0, 4, 0x1002)] stPref) (at0 stPref) 0 (pf 0 0) (pl 0) with | (_, .error e) => e.kind == .misaligned | _ => false) = true := by
  decide
theorem wit_pref_peer : [0, 1, 2, 3].any (fun p => decide (policyOf (BitVec.ofNat 2 p) = .bypass) && atMem stPrefPeer (pf 0 p) (pl p) isPeer) = true := by decide
theorem wit_roomy : Roomy stPref ∧ Roomy stPrefPeer ∧ Roomy st0 := by
  refine ⟨?_, ?_, ?_⟩ <;> (unfold Roomy; decide)
theorem wit_cxl_store : isCxl (2 ^ 51 - 64) = true ∧ (2 ^ 51 - 64) % 64 + 64 ≤ 64 ∧ 2 ^ 51 - 8 + 8 ≤ 2 ^ 51 ∧ isCxl (2 ^ 51 - 8) = true ∧ st0.cxl = []
    ∧ isPeer (peerKey 3 1 0x1000) = true := by decide

/-! Walkers, and the lines of a range. -/

def walker0 (d : Bool) (fl : Option Nat) : Walker :=
  { ctx := 1, lo := 0x1000, hi := 0x1040, inv := true, ts := 0, cr := 0, flag := fl, done := d }
def stWalk (d : Bool) : State := warm (clusterIs (fun c => { c with l1 := [line0], walkers := [(3, walker0 d (some 2))] }) stTok)
theorem wit_walk : unacked (stWalk false) = false ∧ (clusterOf (stWalk false) 0).l1.all (fun e => !behindIsolated (stWalk false) e.key) = true
    ∧ walkFell (stWalk true) 0 (walker0 true (some 2)) = true
    ∧ look (clusterOf (stWalk true) 0).walkers 3 = some (walker0 true (some 2)) := by decide
theorem wit_window : inSpans (spans (stWalk true) 0 1 0x1000 0x40) ((probePa + 0x103C) / 64 * 64) = true
    ∧ (clusterOf (stWalk true) 0).walkers = [(3, walker0 true (some 2))] ∧ (l1Find (clusterOf (stWalk true) 0) (probePa + 0x103C)).isSome = true
    ∧ (probePa + 0x103C) % 64 + 4 ≤ 64 ∧ (clusterOf (stWalk true) 0).l1.all (fun e => e.key % 64 == 0) = true := by decide
def lineL (i : Nat) (l : Option Nat) : L1Line := { line0 with key := probePa + 0x1000 + 64 * i, lock := l, keep := true, wide := false }
/-- Two lines in a range, one of them locked by the team of slot 0. -/
def stLines : State := warm (clusterIs (fun c => { c with l1 := [lineL 0 none, lineL 1 (some 0)] }) (one stTok))
theorem wit_cinv : ((clusterOf stLines 0).l1.map (·.key)).Nodup ∧ (clusterOf stLines 0).l1.all (fun e => decide (e.key % 64 = 0) && !behindIsolated stLines e.key) = true
    ∧ (match cinvRun (at0 stLines) 0x1000 0x80 stLines with | (_, .ok 1) => true | _ => false) = true
    ∧ (clusterOf stLines 0).l1.any (fun e => inSpans (spans stLines 0 1 0x1000 0x80) e.key && e.lock.isNone && e.dirty.getLsbD 0) = true := by decide
def clocks (s : State) (va : Nat) (v : Nat) : Bool :=
  (match globalAcc s (at0 s) { kind := .load, n := 1, pol := .normal } va with | (_, .ok (.mem _ _)) => true | _ => false)
    && (match clockRun (at0 s) 1 va 0 0 s with | (_, .ok w) => w == v | _ => false)
/-- A line with room in its set, a locked one, and one whose set has three locked lines. -/
theorem wit_clock : clocks stLines 0x1000 1 = true ∧ clocks stLines 0x1040 1 = true
    ∧ clocks (clusterIs (fun c => { c with l1 := (List.range 3).map (fun i => lineL (2048 * (i + 1)) (some 0)) }) stLines) 0x1000 0x10000 = true
    ∧ (match globalAcc (user stLines) (at0 (user stLines)) { kind := .load, n := 1, pol := .normal } 0x2000 with | (_, .error _) => true | _ => false) = true := by
  decide

/-! TOKADM. -/

def tokBad (x : TokState) : Token := { tok 0x1000 0x1000 team1 with state := x }
theorem wit_tokadm : coverOf (owns [tokBad .orphan] st0) 1 0x1000 = some (0, 0, tokBad .orphan)
    ∧ coverOf (owns [tokBad .poison] st0) 1 0x1000 = some (0, 0, tokBad .poison) ∧ coverOf stTok 1 0x1000 = some (0, 0, tok 0x1000 0x1000 team1)
    ∧ coverOf stTok 1 0x1040 = some (0, 0, tok 0x1000 0x1000 team1) ∧ (tok 0x1000 0x1000 team1).base ≠ 0x1040
    ∧ receiverOk (owns [tokBad .orphan] st0) 1 none (BitVec.ofNat 64 team1.toNat) = true ∧ team1.toNat / 2 ^ 60 ≠ 4
    ∧ receiverOk (owns [tokBad .orphan] st0) 1 none (BitVec.ofNat 64 (3 * 2 ^ 60)) = false ∧ 7 ≤ (7 * 2 ^ 60) / 2 ^ 60 := by decide

/-! BANKCFG's refusals: a bank of another team, a WAY count that is none of R301's, a PAD bank in flight, a full FIFO bank, a locked line. -/

def bankIs (b : Nat) (k : Bank) (s : State) : State := clusterIs (fun c => { c with banks := put c.banks b k }) s
def padB (o : Nat) : Bank := { mode := .pad, owner := o, bound := none, slots := [] }
def fifoB (l : List FifoMsg) : Bank := { mode := .fifo, owner := 0, bound := none, slots := l }
theorem wit_bank_refusals : bankCheck stTok 0 0 383 2 .pad = 0x14000000 ∧ bankCheck stTok 0 0 0 0 .pad = 0x14000000
    ∧ bankCheck (bankIs 383 (padB 5) stTok) 0 0 382 2 .off = 0x12000000 + 383 ∧ bankCheck stTok 0 0 127 1 .pad = 0x11000000
    ∧ bankCheck (bankIs 383 (padB 0) (teamIs (fun t => { t with ranges := [cmap0] }) stTok)) 0 0 383 1 .off = 0x13000000
    ∧ bankCheck (bankIs 383 (fifoB [{ sender := 1, bytes := [] }]) stTok) 0 0 383 1 .off = 0x13000000
    ∧ bankCheck (clusterIs (fun c => { c with l1 := [lineL 0 (some 0)] }) stTok) 0 0 64 64 .pad = 0x10000001
    ∧ bankCheck stTok 0 0 64 64 .pad = 0 := by decide
theorem wit_bankq : (bankOf (clusterOf (bankIs 383 (padB 31) stTok) 0) 383).owner < 32 ∧ (at0 stTok).team.banks.length ≤ 384 := by decide

/-! QINIT of a place at hand: no queue there, one with a waiter, one without, and a context whose numbers are all in use. -/

theorem range_at_hand {s : State} {n : Nat} (tl : (clusterOf s 0).tlb = [warmPage]) (td : (dieOf s 0).tlb = [warmPage])
    (l1 : (clusterOf s 0).l1 = []) (po : s.poison = []) (hn : n ≤ 4096) (cov : tokensCover s 1 ids0 .store 0x1000 n = none) :
    RangeAtHand s 0 1 ids0 0x1000 n := by
  refine ⟨by omega, ⟨warmPage, rfl, rfl, fun va h1 h2 => ?_⟩, cov⟩
  have h3 : va / 2 ^ 30 = 0 := Nat.div_eq_of_lt (by omega)
  have h4 : va % 2 ^ 30 = va := Nat.mod_eq_of_lt (by omega)
  have h5 : dieNo 0 = 0 := rfl
  simp only [h5, tl, td, l1, po, tlbHit, l1Find, poisoned, List.find?_nil]
  simp only [warmPage, List.find?_cons, h3, h4, probePa, List.contains_nil]
  have h6 : isCxl (1073741824 + va) = false := by
    simp only [isCxl, Nat.div_eq_of_lt (show 1073741824 + va < 2 ^ 50 by omega)]
    simp
  exact ⟨rfl, rfl, by omega, trivial, by simp [h6]⟩
theorem init_at_hand {s : State} {b : Nat} (tl : (clusterOf s 0).tlb = [warmPage]) (td : (dieOf s 0).tlb = [warmPage])
    (l1 : (clusterOf s 0).l1 = []) (po : s.poison = []) (hb : b < 64 ∧ b % 32 = 1) (c1 : tokensCover s 1 ids0 .store 0x1000 32 = none)
    (c2 : tokensCover s 1 ids0 .store 0x1000 64 = none) : InitAtHand s 0 1 ids0 0x1000 b := by
  have hq : queueBytes (b % 32) = 64 := by rw [hb.2]; decide
  exact ⟨by decide, ⟨hb.1, by omega, by omega⟩, c1, by rw [hq]; exact range_at_hand tl td l1 po (by decide) c2⟩
theorem wit_qinit_at_hand : InitAtHand (warm stTok) 0 1 ids0 0x1000 1 ∧ InitAtHand (warm stWq0) 0 1 ids0 0x1000 33 :=
  ⟨init_at_hand (by decide) (by decide) (by decide) (by decide) (by decide) (by decide) (by decide),
   init_at_hand (by decide) (by decide) (by decide) (by decide) (by decide) (by decide) (by decide)⟩
theorem wit_qinit : qLive (warm stTok) 1 (qHead (warm stTok) 0 1 0x1000).qnum = false
    ∧ (ctxOf (warm stTok) 1).any (fun c => freeKey c.queues 1 65536 == some 1) = true
    ∧ qLive (warm stWq0) 1 (qHead (warm stWq0) 0 1 0x1000).qnum = true ∧ (qHead (warm stWq0) 0 1 0x1000).logcap = 33 % 32
    ∧ qBusy (warm stWq0) 0 1 0x1000 (qHead (warm stWq0) 0 1 0x1000) = false
    ∧ (let s := vaPut (warm stWq0) 0 1 0x1010 2 1; qLive s 1 (qHead s 0 1 0x1000).qnum = true ∧ (qHead s 0 1 0x1000).waiters = 1)
    ∧ 64 ≤ 64 ∧ 32 % 32 = 0 ∧ 20 < 21 % 32 := by decide
theorem look_isSome {l : List (Nat × Nat)} {x : Nat} (h : ∃ e ∈ l, e.1 = x) : (look l x).isSome = true := by
  induction l with
  | nil => simp at h
  | cons y t ih =>
    obtain ⟨e, he, hx⟩ := h
    simp only [look]
    split
    · rfl
    · rcases List.mem_cons.1 he with rfl | he
      · contradiction
      · exact ih ⟨e, he, hx⟩
/-- Context 1 with every queue number in use. -/
def allQueues : List (Nat × Nat) := (List.range 65535).map (fun i => (i + 1, 0))
def stFullQ : State := updCtx (warm stTok) 1 (fun c => { c with queues := allQueues })
theorem wit_qinit_full : (ctxOf stFullQ 1).map (·.queues) = some allQueues ∧ freeKey allQueues 1 65536 = none := by
  refine ⟨by rfl, ?_⟩
  rw [freeKey, List.find?_eq_none]
  intro x hx
  obtain ⟨i, hi, rfl⟩ := List.mem_map.1 hx
  simp only [allQueues, List.length_map, List.length_range, List.mem_range] at hi
  by_cases h : 1 + i < 65536
  · have : (look allQueues (1 + i)).isSome = true :=
      look_isSome ⟨(i + 1, 0), List.mem_map.2 ⟨i, List.mem_range.2 (by omega), rfl⟩, by simp [Nat.add_comm]⟩
    simp [Option.isNone_iff_eq_none, Option.ne_none_iff_isSome, this]
  · simp [h]

theorem look_none {l : List (Nat × Nat)} {x : Nat} (h : ∀ e ∈ l, e.1 ≠ x) : look l x = none := by
  induction l with
  | nil => rfl
  | cons y t ih =>
    simp only [look]
    rw [if_neg (h y (List.mem_cons_self ..))]
    exact ih (fun e he => h e (List.mem_cons_of_mem _ he))
theorem wit_qinit_full_hand : InitAtHand stFullQ 0 1 ids0 0x1000 1 ∧ qLive stFullQ 1 (qHead stFullQ 0 1 0x1000).qnum = false := by
  refine ⟨init_at_hand rfl rfl rfl rfl (by decide) rfl rfl, ?_⟩
  have h : (qHead stFullQ 0 1 0x1000).qnum = 0 := by rfl
  have h2 : look allQueues 0 = none := look_none (fun e he => by obtain ⟨i, -, rfl⟩ := List.mem_map.1 he; simp)
  rw [h]
  show (look allQueues 0).isSome = false
  rw [h2]; rfl

/-! Words that wait: behind a BANKCFG, for an answer, for an acknowledgement. -/

def waitIs (w : Waiting) (s : State) : State := batchIs (fun b => { b with wait := w }) s
def port7 (s : State) : State := { s with cxl := [(7, { CxlPort.reset with silent := true })] }
theorem wit_other_waits : (at0 (waitIs (.l1Held 0 false) st0)).b.wait = .l1Held 0 false ∧ ringHeld (waitIs (.l1Held 0 false) st0) 0 = false
    ∧ ringHeld (waitIs (.l1Held 1 false) st0) 0 = false ∧ heldBefore (waitIs (.l1Held 1 false) st0) 0 (some 1) = false
    ∧ quiet (waitIs (.answer [2 ^ 50]) st0) (2 ^ 50) = false ∧ unacked (waitIs .acks st0) = false
    ∧ issuer (waitIs .acks st0) = some (at0 (waitIs .acks st0)) := by decide
/-- A save of context 2 while its checkpoint waits for port 7. -/
def svQuiet : State :=
  { port7 (clusterIs (fun c => { c with teams := c.teams ++ [(1, { team2 with saved := false })] }) sv0) with
    ckpt := some { base := safeBase, crew := { cl := 0, ts := 1, cr := 0 }, dest := none } }
theorem wit_save_waits : passes svQuiet (ctxSpec svF) = true ∧ loadPends svQuiet 2 = false ∧ phaseOf svQuiet 2 = some .running
    ∧ tokensCover svQuiet 1 (at0 svQuiet).ids .store 0x1000 areaMax = none ∧ answersOut svQuiet 2 = [2 ^ 50 + 7 * 2 ^ 46]
    ∧ answersOut sv0 2 = [] := by decide
theorem wit_page_denied : (teamOf (teamIs (fun t => { t with saved := true }) (stPage [])) 0 0).any (fun t => t.saved
    && t.crews.any (fun c => c.batches.any (holdsTicket 1540))) = true := by decide
theorem wit_retire_acked : unacked stRetire = false := by decide
theorem wit_peer_faults : peerFault stBind (locOf pageE 0x1FFF) = none
    ∧ peerFault { st0 with ua := { st0.ua with refused := [(peerKey 3 1 0, peerKey 3 1 0x1000, .unowned)] } } (peerKey 3 1 0x40) = some .unowned := by decide
theorem wit_create_privileged : newGridOk { newGrid true with cluster := 191 } = true ∧ (newCtx0 4095).grid.privileged = false := by decide

/-! Rings, frames, requests, ports and rails. -/

theorem wit_ring : ringWaiters (updDie st0 0 (fun x => { x with ring := x.ring.drop 1 })) 0 = [] := by decide
theorem wit_nak : upState.eth.pn + upState.eth.unacked.length < 2 ^ 62 - 1 ∧ upState.eth.rxPn < 2 ^ 62 - 1 ∧ upState.boot.phase ≠ .recovery
    ∧ 2 ^ 62 - 1 ≤ { upState.eth with pn := 2 ^ 62 - 1 }.pn ∧ ({ upState.boot with phase := .recovery } : Boot).phase = .recovery := by decide
theorem wit_atomic_home : vaLoc stHostV 0 (host1 1).ctx 0x1FF8 = some (probePa + 0x1FF8) ∧ probePa + 0x1FF8 + 8 ≤ 2 ^ 50 := by decide
def out9 : Unanswered := { member := 9, first := 0, last := 0, req := .peerRead 9 1 0 64, op := none }
theorem wit_peer_out : ({ stPeer with cycle := 270000, ua := { stPeer.ua with out := [out9] } } : State).ua.out.filter
    (fun x => decide (x.member = 9) && decide (x.last + stPeer.ua.peerto * 2700 ≤ 270000)) = [out9] := by decide
theorem wit_ckpt_quiet : (List.range 8).all (fun q => !(cxlPort (port7 stCk) q).isolated) = true ∧ (cxlPort (port7 stCk) 7).silent = true := by decide
theorem wit_sample : (clusterOf upState 191).sampledAt = none
    ∧ ((clusterOf (updCluster upState 191 (fun c => { c with sampledAt := some 0 })) 191).sampledAt = some 0 ∧ 0 / 1024 = upState.cycle / 1024) := by decide
theorem wit_training : State.reset.boot.failing = [] ∧ ({ State.reset.boot with failing := [3] } : Boot).failing ≠ [] := by decide

/-! No read of these operations waits for an answer. -/

theorem wit_fence_checks : passes st0 (fenceChecks (rr (G 0) (G 0) (G 0) (G 0) 0 31)) = true := by decide
theorem wit_tile_answered : (holdOp stRun 5 ((stageC stRun mmaOp mp 0).errs ++ stageErrs stRun mmaOp 0 0 ++ stageErrs stRun mmaOp 0 1)).isNone = true := by decide
theorem wit_next_answered : (holdOp (opIs mmaOpK stMma) 5 (stageErrs (opIs mmaOpK stMma) mmaOpK 0 3)).isNone = true ∧ mmaOpK.waits = none ∧ mmaOpB.waits = none := by decide
theorem wit_chunk_answered : (holdOp (stCop copyOp) 5 (chunkOf (stCop copyOp) 5 copyOp (xferPar copyOp) 0).errs).isNone = true := by decide
theorem wit_census_answered : (holdOp (opIs { mmaOp with kind := .census } stCensus) 5 (censusErrs stCensus { mmaOp with kind := .census })).isNone = true := by decide

end Sys2Proof.Tests
end

section
/-! Lists of bytes at their home: what a list of writes does to a byte it names, to any other byte, and to the form of memory. -/

namespace Sys2Proof.Machine

@[simp] theorem homePuts_nil (s : State) (k : Nat) : homePuts s k [] = s := rfl

@[simp] theorem homePuts_cons (s : State) (k : Nat) (b : Byte) (l : List Byte) :
    homePuts s k (b :: l) = homePuts (homePut s k b) (k + 1) l := rfl

@[simp] theorem homeBytes_zero (s : State) (k : Nat) : homeBytes s k 0 = [] := rfl

theorem homeBytes_succ (s : State) (k n : Nat) : homeBytes s k (n + 1) = homeByte s k :: homeBytes s (k + 1) n := by
  simp [homeBytes, List.range_succ_eq_map, Function.comp_def, Nat.add_comm, Nat.add_left_comm]

/-- Bytes that a list of writes does not name read as before. The bound keeps device memory's own keys apart from those that
the expanders' bytes have in `mem`. -/
theorem homeByte_homePuts_other {j : Nat} (l : List Byte) : ∀ (s : State) (k : Nat), (k + l.length ≤ 2 ^ 51 ∨ 2 ^ 52 ≤ k) →
    (j < k ∨ k + l.length ≤ j) → homeByte (homePuts s k l) j = homeByte s j := by
  induction l with
  | nil => exact fun _ _ _ _ => rfl
  | cons b t ih =>
    intro s k hk hj
    simp only [List.length_cons] at hk hj
    rw [homePuts_cons, ih _ _ (by omega) (by omega), homeByte_homePut_other s b (by omega) (by omega)]

/-- The first byte survives the writes that follow it; the rest reads back by induction. -/
theorem homeBytes_homePuts (l : List Byte) : ∀ (s : State) (k : Nat), (k + l.length ≤ 2 ^ 51 ∨ 2 ^ 52 ≤ k) →
    homeBytes (homePuts s k l) k l.length = l := by
  induction l with
  | nil => exact fun _ _ _ => rfl
  | cons b t ih =>
    intro s k hk
    simp only [List.length_cons] at hk
    have hrest : k + 1 + t.length ≤ 2 ^ 51 ∨ 2 ^ 52 ≤ k + 1 := by omega
    rw [homePuts_cons, List.length_cons, homeBytes_succ, ih _ _ hrest, homeByte_homePuts_other t _ _ hrest (by omega),
      homeByte_homePut_same]

theorem wf_homePut {s : State} (h : Memory.wf s.mem = true) (k : Nat) (b : Byte) : Memory.wf (homePut s k b).mem = true := by
  unfold homePut
  split
  · exact h
  · split
    · exact h
    · exact cWf_cWrite b k s.mem h

theorem wf_homePuts (l : List Byte) : ∀ {s : State} (k : Nat), Memory.wf s.mem = true → Memory.wf (homePuts s k l).mem = true := by
  induction l with
  | nil => exact fun _ h => h
  | cons b t ih => exact fun k h => ih (k + 1) (wf_homePut h k b)

/-- Settles O6: read-back and frame by induction on the bytes written, canonical form by one write's rule. -/
theorem memoryReadAfterWrite : Obligations.MemoryReadAfterWrite := fun s k l hk =>
  ⟨homeBytes_homePuts l s k hk, fun _ hj => homeByte_homePuts_other l s k hk hj, wf_homePuts l k⟩

end Sys2Proof.Machine
end

section
/-! The encoding (R46 to R52): words and instructions determine one another. -/

namespace Sys2Proof.Laws

/-! Fields of a word: what the decoder reads where the encoder wrote, and what the encoder writes back. -/

/-- No register field is advanced: the decoder of a word as it stands. -/
abbrev still : Adv := { d := 0, a := 0, b := 0, c := 0 }

theorem eGuard_eq (op : Nat) (g : Guard) : eGuard op g = op * 2 ^ 54 + g.p.toNat * 2 ^ 50 + eBit g.neg * 2 ^ 49 := rfl

theorem eCls_dCls {x : Nat} (h : x < 4) : eCls (dCls x) = x := by
  interval_cases x <;> rfl

theorem dCls_of_eq {x : Nat} {c : Cls} (h : x = eCls c) : dCls x = c := by
  subst h; cases c <;> rfl

theorem eCls_dCls_slice (w lo : Nat) : eCls (dCls (slice w lo 2)) = slice w lo 2 := eCls_dCls (Nat.mod_lt _ (by decide))

theorem eBit_tb (w i : Nat) : eBit (tb w i) = slice w i 1 := by
  rcases Nat.mod_two_eq_zero_or_one (w / 2 ^ i) with h | h <;> simp [tb, eBit, slice, h]

theorem tb_of_slice {w i : Nat} {b : Bool} (h : slice w i 1 = eBit b) : tb w i = b := by
  rw [← eBit_tb] at h
  cases b <;> cases e : tb w i <;> simp_all [eBit]

theorem ofNat_of_eq {n x : Nat} {v : BitVec n} (h : x = v.toNat) : BitVec.ofNat n x = v := by
  rw [h, BitVec.ofNat_toNat, BitVec.setWidth_eq]

theorem toNat_ofNat_slice (w lo n : Nat) : (BitVec.ofNat n (slice w lo n)).toNat = slice w lo n := by
  rw [BitVec.toNat_ofNat, slice, Nat.mod_mod]

theorem slice_top {w : Nat} (lo n : Nat) (h : w < 2 ^ (lo + n)) : slice w lo n * 2 ^ lo = w / 2 ^ lo * 2 ^ lo := by
  rw [slice, Nat.mod_eq_of_lt (Nat.div_lt_of_lt_mul (by rwa [← pow_add]))]

theorem slice_peel (w lo n : Nat) : w / 2 ^ (lo + n) * 2 ^ (lo + n) + slice w lo n * 2 ^ lo = w / 2 ^ lo * 2 ^ lo := by
  rw [pow_add, ← Nat.div_div_eq_div_mul, slice, mul_comm (2 ^ lo), ← mul_assoc, ← add_mul, Nat.div_add_mod']

theorem slice_last (w n : Nat) : w / 2 ^ n * 2 ^ n + slice w 0 n = w := by
  rw [slice, pow_zero, Nat.div_one, Nat.div_add_mod']

/-- The two last fields of a word whose lowest one is a single bit. -/
theorem slice_last_bit (w n : Nat) : w / 2 ^ (1 + n) * 2 ^ (1 + n) + slice w 1 n * 2 + slice w 0 1 = w := by
  have h := slice_peel w 1 n
  have l := slice_last w 1
  omega

/-! Format by format: the opcode and the fields come back, and so does the word. -/

theorem fields_eRRR {op : Nat} {f : RRR} (hop : op < 1024) (w : wfRRR f = true) :
    slice (eRRR op f) 54 10 = op ∧ dRRR still (eRRR op f) = f := by
  obtain ⟨⟨p, neg⟩, ⟨dc, dn⟩, ⟨ac, an⟩, ⟨bc, bn⟩, ⟨cc, cn⟩, ty, opt⟩ := f
  have := eBit_le neg
  have := eCls_le dc
  have := eCls_le ac
  have := eCls_le bc
  have := eCls_le cc
  simp only [wfRRR, wfOpd, Bool.and_eq_true, decide_eq_true_eq] at w
  simp only [dRRR, dGuard, RRR.mk.injEq, Guard.mk.injEq, Opd.mk.injEq]
  refine ⟨?_, ⟨ofNat_of_eq ?_, tb_of_slice ?_⟩, ⟨dCls_of_eq ?_, ?_⟩, ⟨dCls_of_eq ?_, ?_⟩, ⟨dCls_of_eq ?_, ?_⟩,
    ⟨dCls_of_eq ?_, ?_⟩, ofNat_of_eq ?_, ofNat_of_eq ?_⟩
  all_goals simp only [eRRR, eGuard_eq, slice]; omega

theorem eRRR_dRRR {w : Nat} (h : w < 2 ^ 64) : eRRR (slice w 54 10) (dRRR still w) = w := by
  simp only [eRRR, eGuard_eq, dRRR, dGuard, eCls_dCls_slice, eBit_tb, toNat_ofNat_slice, Nat.add_zero]
  rw [slice_top 54 10 h, slice_peel w 50 4, slice_peel w 49 1, slice_peel w 41 8, slice_peel w 33 8, slice_peel w 25 8,
    slice_peel w 17 8, slice_peel w 15 2, slice_peel w 13 2, slice_peel w 11 2, slice_peel w 9 2, slice_peel w 5 4, slice_last w 5]

theorem wfRRR_dRRR (w : Nat) : wfRRR (dRRR still w) = true := by
  simp only [wfRRR, wfOpd, Bool.and_eq_true, decide_eq_true_eq]
  simp only [dRRR, slice]
  omega

theorem fields_eRI17 {op : Nat} {f : RI17} (hop : op < 1024) (w : wfRI17 f = true) :
    slice (eRI17 op f) 54 10 = op ∧ dRI17 still (eRI17 op f) = f := by
  obtain ⟨⟨p, neg⟩, ⟨dc, dn⟩, ⟨ac, an⟩, ty, opt, imm⟩ := f
  have := eBit_le neg
  have := eCls_le dc
  have := eCls_le ac
  simp only [wfRI17, wfOpd, Bool.and_eq_true, decide_eq_true_eq] at w
  simp only [dRI17, dGuard, RI17.mk.injEq, Guard.mk.injEq, Opd.mk.injEq]
  refine ⟨?_, ⟨ofNat_of_eq ?_, tb_of_slice ?_⟩, ⟨dCls_of_eq ?_, ?_⟩, ⟨dCls_of_eq ?_, ?_⟩, ofNat_of_eq ?_, ofNat_of_eq ?_, ofNat_of_eq ?_⟩
  all_goals simp only [eRI17, eGuard_eq, slice]; omega

theorem eRI17_dRI17 {w : Nat} (h : w < 2 ^ 64) : eRI17 (slice w 54 10) (dRI17 still w) = w := by
  simp only [eRI17, eGuard_eq, dRI17, dGuard, eCls_dCls_slice, eBit_tb, toNat_ofNat_slice, Nat.add_zero]
  rw [slice_top 54 10 h, slice_peel w 50 4, slice_peel w 49 1, slice_peel w 41 8, slice_peel w 33 8, slice_peel w 31 2,
    slice_peel w 29 2, slice_peel w 25 4, slice_peel w 17 8, slice_last w 17]

theorem wfRI17_dRI17 (w : Nat) : wfRI17 (dRI17 still w) = true := by
  simp only [wfRI17, wfOpd, Bool.and_eq_true, decide_eq_true_eq]
  simp only [dRI17, slice]
  omega

theorem fields_eRI32 {op : Nat} {f : RI32} (hop : op < 1024) (w : wfRI32 f = true) :
    slice (eRI32 op f) 54 10 = op ∧ dRI32 still (eRI32 op f) = f := by
  obtain ⟨⟨p, neg⟩, k, d, a, imm⟩ := f
  have := eBit_le neg
  have := eBit_le k
  simp only [wfRI32, Bool.and_eq_true, decide_eq_true_eq] at w
  simp only [dRI32, dGuard, RI32.mk.injEq, Guard.mk.injEq]
  refine ⟨?_, ⟨ofNat_of_eq ?_, tb_of_slice ?_⟩, tb_of_slice ?_, ?_, ?_, ofNat_of_eq ?_⟩
  all_goals simp only [eRI32, eGuard_eq, slice]; omega

theorem eRI32_dRI32 {w : Nat} (h : w < 2 ^ 64) : eRI32 (slice w 54 10) (dRI32 still w) = w := by
  simp only [eRI32, eGuard_eq, dRI32, dGuard, eBit_tb, toNat_ofNat_slice, Nat.add_zero]
  rw [slice_top 54 10 h, slice_peel w 50 4, slice_peel w 49 1, slice_peel w 41 8, slice_peel w 33 8, slice_peel w 32 1, slice_last w 32]

theorem wfRI32_dRI32 (w : Nat) : wfRI32 (dRI32 still w) = true := by
  simp only [wfRI32, Bool.and_eq_true, decide_eq_true_eq]
  simp only [dRI32, slice]
  omega

theorem fields_eMEM {op : Nat} {f : MEM} (hop : op < 1024) (w : wfMEM f = true) :
    slice (eMEM op f) 54 10 = op ∧ dMEM still (eMEM op f) = f := by
  obtain ⟨⟨p, neg⟩, data, base, off, ty, space, policy, kb⟩ := f
  have := eBit_le neg
  have := eBit_le kb
  simp only [wfMEM, Bool.and_eq_true, decide_eq_true_eq] at w
  simp only [dMEM, dGuard, MEM.mk.injEq, Guard.mk.injEq]
  refine ⟨?_, ⟨ofNat_of_eq ?_, tb_of_slice ?_⟩, ?_, ?_, ofNat_of_eq ?_, ofNat_of_eq ?_, ofNat_of_eq ?_, ofNat_of_eq ?_, tb_of_slice ?_⟩
  all_goals simp only [eMEM, eGuard_eq, slice]; omega

theorem eMEM_dMEM {w : Nat} (h : w < 2 ^ 64) : eMEM (slice w 54 10) (dMEM still w) = w := by
  simp only [eMEM, eGuard_eq, dMEM, dGuard, eBit_tb, toNat_ofNat_slice, Nat.add_zero]
  rw [slice_top 54 10 h, slice_peel w 50 4, slice_peel w 49 1, slice_peel w 41 8, slice_peel w 33 8, slice_peel w 9 24, slice_peel w 5 4,
    slice_peel w 3 2, slice_last_bit w 2]

theorem wfMEM_dMEM (w : Nat) : wfMEM (dMEM still w) = true := by
  simp only [wfMEM, Bool.and_eq_true, decide_eq_true_eq]
  simp only [dMEM, slice]
  omega

theorem fields_eAMO {op : Nat} {f : AMO} (hop : op < 1024) (w : wfAMO f = true) :
    slice (eAMO op f) 54 10 = op ∧ dAMO still (eAMO op f) = f := by
  obtain ⟨⟨p, neg⟩, d, base, b, c, ty, order, scope, kb, pad, nd, rsv⟩ := f
  have := eBit_le neg
  have := eBit_le kb
  have := eBit_le pad
  have := eBit_le nd
  simp only [wfAMO, Bool.and_eq_true, decide_eq_true_eq] at w
  simp only [dAMO, dGuard, AMO.mk.injEq, Guard.mk.injEq]
  refine ⟨?_, ⟨ofNat_of_eq ?_, tb_of_slice ?_⟩, ?_, ?_, ?_, ?_, ofNat_of_eq ?_, ofNat_of_eq ?_, ofNat_of_eq ?_,
    tb_of_slice ?_, tb_of_slice ?_, tb_of_slice ?_, ofNat_of_eq ?_⟩
  all_goals simp only [eAMO, eGuard_eq, slice]; omega

theorem eAMO_dAMO {w : Nat} (h : w < 2 ^ 64) : eAMO (slice w 54 10) (dAMO still w) = w := by
  simp only [eAMO, eGuard_eq, dAMO, dGuard, eBit_tb, toNat_ofNat_slice, Nat.add_zero]
  rw [slice_top 54 10 h, slice_peel w 50 4, slice_peel w 49 1, slice_peel w 41 8, slice_peel w 33 8, slice_peel w 25 8,
    slice_peel w 17 8, slice_peel w 13 4, slice_peel w 10 3, slice_peel w 7 3, slice_peel w 6 1, slice_peel w 5 1, slice_peel w 4 1,
    slice_last w 4]

theorem wfAMO_dAMO (w : Nat) : wfAMO (dAMO still w) = true := by
  simp only [wfAMO, Bool.and_eq_true, decide_eq_true_eq]
  simp only [dAMO, slice]
  omega

theorem fields_eBR {op : Nat} {f : BRF} (hop : op < 1024) (w : wfBR f = true) :
    slice (eBR op f) 54 10 = op ∧ dBR (eBR op f) = f := by
  obtain ⟨⟨p, neg⟩, link, rsv, off⟩ := f
  have := eBit_le neg
  simp only [wfBR, decide_eq_true_eq] at w
  simp only [dBR, dGuard, BRF.mk.injEq, Guard.mk.injEq]
  refine ⟨?_, ⟨ofNat_of_eq ?_, tb_of_slice ?_⟩, ?_, ofNat_of_eq ?_, ofNat_of_eq ?_⟩
  all_goals simp only [eBR, eGuard_eq, slice]; omega

theorem eBR_dBR {w : Nat} (h : w < 2 ^ 64) : eBR (slice w 54 10) (dBR w) = w := by
  simp only [eBR, eGuard_eq, dBR, dGuard, eBit_tb, toNat_ofNat_slice]
  rw [slice_top 54 10 h, slice_peel w 50 4, slice_peel w 49 1, slice_peel w 41 8, slice_peel w 32 9, slice_last w 32]

theorem wfBR_dBR (w : Nat) : wfBR (dBR w) = true := by
  simp only [wfBR, decide_eq_true_eq]
  simp only [dBR, slice]
  omega

theorem fields_eENG {op : Nat} {f : ENG} (hop : op < 1024) (w : wfENG f = true) :
    slice (eENG op f) 54 10 = op ∧ dENG (eENG op f) = f := by
  obtain ⟨⟨p, neg⟩, st, src, off, fa, fb, rsv⟩ := f
  have := eBit_le neg
  have := eBit_le rsv
  simp only [wfENG, Bool.and_eq_true, decide_eq_true_eq] at w
  simp only [dENG, dGuard, ENG.mk.injEq, Guard.mk.injEq]
  refine ⟨?_, ⟨ofNat_of_eq ?_, tb_of_slice ?_⟩, ?_, ?_, ofNat_of_eq ?_, ofNat_of_eq ?_, ofNat_of_eq ?_, tb_of_slice ?_⟩
  all_goals simp only [eENG, eGuard_eq, slice]; omega

theorem eENG_dENG {w : Nat} (h : w < 2 ^ 64) : eENG (slice w 54 10) (dENG w) = w := by
  simp only [eENG, eGuard_eq, dENG, dGuard, eBit_tb, toNat_ofNat_slice]
  rw [slice_top 54 10 h, slice_peel w 50 4, slice_peel w 49 1, slice_peel w 41 8, slice_peel w 33 8, slice_peel w 9 24, slice_peel w 5 4,
    slice_last_bit w 4]

theorem wfENG_dENG (w : Nat) : wfENG (dENG w) = true := by
  simp only [wfENG, Bool.and_eq_true, decide_eq_true_eq]
  simp only [dENG, slice]
  omega

theorem fields_eREP {op : Nat} {f : REPF} (hop : op < 1024) :
    slice (eREP op f) 54 10 = op ∧ dREP (eREP op f) = f := by
  obtain ⟨⟨p, neg⟩, hi, count, mask, step, lo⟩ := f
  have := eBit_le neg
  simp only [dREP, dGuard, REPF.mk.injEq, Guard.mk.injEq]
  refine ⟨?_, ⟨ofNat_of_eq ?_, tb_of_slice ?_⟩, ofNat_of_eq ?_, ofNat_of_eq ?_, ofNat_of_eq ?_, ofNat_of_eq ?_, ofNat_of_eq ?_⟩
  all_goals simp only [eREP, eGuard_eq, slice]; omega

theorem eREP_dREP {w : Nat} (h : w < 2 ^ 64) : eREP (slice w 54 10) (dREP w) = w := by
  simp only [eREP, eGuard_eq, dREP, dGuard, eBit_tb, toNat_ofNat_slice]
  rw [slice_top 54 10 h, slice_peel w 50 4, slice_peel w 49 1, slice_peel w 22 27, slice_peel w 16 6, slice_peel w 12 4,
    slice_peel w 10 2, slice_last w 10]

theorem fields_eSYS {op : Nat} {f : SYSF} (hop : op < 1024) (w : wfSYS f = true) :
    slice (eSYS op f) 54 10 = op ∧ dSYS still (eSYS op f) = f := by
  obtain ⟨⟨p, neg⟩, ⟨dc, dn⟩, ⟨ac, an⟩, rsv, num, bc, hi, clr, word⟩ := f
  have := eBit_le neg
  have := eCls_le dc
  have := eCls_le ac
  have := eBit_le clr
  simp only [wfSYS, wfOpd, Bool.and_eq_true, decide_eq_true_eq] at w
  simp only [dSYS, dGuard, SYSF.mk.injEq, Guard.mk.injEq, Opd.mk.injEq]
  refine ⟨?_, ⟨ofNat_of_eq ?_, tb_of_slice ?_⟩, ⟨dCls_of_eq ?_, ?_⟩, ⟨dCls_of_eq ?_, ?_⟩, ofNat_of_eq ?_,
    ofNat_of_eq ?_, ofNat_of_eq ?_, ofNat_of_eq ?_, tb_of_slice ?_, ofNat_of_eq ?_⟩
  all_goals simp only [eSYS, eGuard_eq, slice]; omega

theorem eSYS_dSYS {w : Nat} (h : w < 2 ^ 64) : eSYS (slice w 54 10) (dSYS still w) = w := by
  simp only [eSYS, eGuard_eq, dSYS, dGuard, eCls_dCls_slice, eBit_tb, toNat_ofNat_slice, Nat.add_zero]
  rw [slice_top 54 10 h, slice_peel w 50 4, slice_peel w 49 1, slice_peel w 41 8, slice_peel w 33 8, slice_peel w 29 4,
    slice_peel w 17 12, slice_peel w 15 2, slice_peel w 13 2, slice_peel w 9 4, slice_peel w 7 2, slice_peel w 6 1, slice_last w 6]

theorem wfSYS_dSYS (w : Nat) : wfSYS (dSYS still w) = true := by
  simp only [wfSYS, wfOpd, Bool.and_eq_true, decide_eq_true_eq]
  simp only [dSYS, slice]
  omega

/-! Opcode by opcode, from the word: what it decodes to is well-formed, and has the word. -/

/-- The step that opcode `op` names in the word `w` (R51). -/
def atOpcode (op w : Nat) : Instr :=
  if op < 0x040 then decode0 still op w
  else if op < 0x0C0 then decode1 still op w
  else if op < 0x100 then decode2 still op w
  else if op < 0x180 then decode3 still op w
  else if op < 0x200 then decode4 still op w
  else if 0x2C0 ≤ op && op ≤ 0x2DF then .hint (dHINT w)
  else decode5 still op w

theorem decodeWord_eq (w : Nat) : decodeWord w = atOpcode (slice w 54 10) w := rfl

/-- `i` is well-formed and `w` is its word; where the opcode `op` is reserved it is the reserved step. -/
structure Encodes (op w : Nat) (i : Instr) : Prop where
  fits : wellFormed i = true
  word : encode i = some w
  reserved : reservedOp op = true → i = .reservedOpcode (BitVec.ofNat 64 w)

/-- A word of a format, at an assigned opcode. -/
theorem encodes_of_format {α : Type} {w op : Nat} {wf : α → Bool} {e : Nat → α → Nat} {d : α} {mk : α → Instr} (ho : slice w 54 10 = op)
    (hd : wf d = true) (he : e (slice w 54 10) d = w) (hm : wellFormed (mk d) = wf d) (hw : encode (mk d) = some (e op d))
    (hr : reservedOp op = false) : Encodes op w (mk d) := by
  subst ho
  exact ⟨by rw [hm, hd], by rw [hw, he], by simp [hr]⟩

theorem encodes_reserved {w op : Nat} (h : w < 2 ^ 64) (ho : slice w 54 10 = op) (hr : reservedOp op = true) :
    Encodes op w (.reservedOpcode (BitVec.ofNat 64 w)) := by
  subst ho
  have e : (BitVec.ofNat 64 w).toNat = w := by rw [BitVec.toNat_ofNat, Nat.mod_eq_of_lt h]
  exact ⟨by simp only [wellFormed, e, hr], by rw [encode, e], fun _ => rfl⟩

section
variable {w op : Nat} (h : w < 2 ^ 64) (ho : slice w 54 10 = op)
include h ho

theorem encodes_dRRR {mk : RRR → Instr} (hm : wellFormed (mk (dRRR still w)) = wfRRR (dRRR still w))
    (hw : encode (mk (dRRR still w)) = some (eRRR op (dRRR still w))) (hr : reservedOp op = false) : Encodes op w (mk (dRRR still w)) :=
  encodes_of_format ho (wfRRR_dRRR w) (eRRR_dRRR h) hm hw hr

theorem encodes_dRI17 {mk : RI17 → Instr} (hm : wellFormed (mk (dRI17 still w)) = wfRI17 (dRI17 still w))
    (hw : encode (mk (dRI17 still w)) = some (eRI17 op (dRI17 still w))) (hr : reservedOp op = false) : Encodes op w (mk (dRI17 still w)) :=
  encodes_of_format ho (wfRI17_dRI17 w) (eRI17_dRI17 h) hm hw hr

theorem encodes_dRI32 {mk : RI32 → Instr} (hm : wellFormed (mk (dRI32 still w)) = wfRI32 (dRI32 still w))
    (hw : encode (mk (dRI32 still w)) = some (eRI32 op (dRI32 still w))) (hr : reservedOp op = false) : Encodes op w (mk (dRI32 still w)) :=
  encodes_of_format ho (wfRI32_dRI32 w) (eRI32_dRI32 h) hm hw hr

theorem encodes_dMEM {mk : MEM → Instr} (hm : wellFormed (mk (dMEM still w)) = wfMEM (dMEM still w))
    (hw : encode (mk (dMEM still w)) = some (eMEM op (dMEM still w))) (hr : reservedOp op = false) : Encodes op w (mk (dMEM still w)) :=
  encodes_of_format ho (wfMEM_dMEM w) (eMEM_dMEM h) hm hw hr

theorem encodes_dAMO {mk : AMO → Instr} (hm : wellFormed (mk (dAMO still w)) = wfAMO (dAMO still w))
    (hw : encode (mk (dAMO still w)) = some (eAMO op (dAMO still w))) (hr : reservedOp op = false) : Encodes op w (mk (dAMO still w)) :=
  encodes_of_format ho (wfAMO_dAMO w) (eAMO_dAMO h) hm hw hr

theorem encodes_dBR {mk : BRF → Instr} (hm : wellFormed (mk (dBR w)) = wfBR (dBR w))
    (hw : encode (mk (dBR w)) = some (eBR op (dBR w))) (hr : reservedOp op = false) : Encodes op w (mk (dBR w)) :=
  encodes_of_format ho (wfBR_dBR w) (eBR_dBR h) hm hw hr

theorem encodes_dENG {mk : ENG → Instr} (hm : wellFormed (mk (dENG w)) = wfENG (dENG w))
    (hw : encode (mk (dENG w)) = some (eENG op (dENG w))) (hr : reservedOp op = false) : Encodes op w (mk (dENG w)) :=
  encodes_of_format ho (wfENG_dENG w) (eENG_dENG h) hm hw hr

theorem encodes_dREP {mk : REPF → Instr} (hm : wellFormed (mk (dREP w)) = true)
    (hw : encode (mk (dREP w)) = some (eREP op (dREP w))) (hr : reservedOp op = false) : Encodes op w (mk (dREP w)) :=
  encodes_of_format (wf := fun _ => true) ho rfl (eREP_dREP h) hm hw hr

theorem encodes_rdsys (hop : op = 0x242) :
    Encodes op w (if (dSYS still w).clr then .rdsysClr (dSYS still w) else .rdsys (dSYS still w)) := by
  subst hop
  have fits := wfSYS_dSYS w
  have word := eSYS_dSYS h
  rw [ho] at word
  split
  · next c => exact ⟨by simp [wellFormed, fits, c], by rw [encode, word], fun r => absurd r (by decide)⟩
  · next c => exact ⟨by simp [wellFormed, fits, c], by rw [encode, word], fun r => absurd r (by decide)⟩

theorem encodes_wrsysOf (hop : op = 0x243) : Encodes op w (wrsysOf (dSYS still w)) := by
  subst hop
  have fits := wfSYS_dSYS w
  have word := eSYS_dSYS h
  rw [ho] at word
  refine ⟨?_, ?_, fun r => absurd r (by decide)⟩
  · unfold wrsysOf
    split_ifs <;> simp_all [wellFormed, ownRow]
  · unfold wrsysOf
    split_ifs <;> rw [encode, word]

theorem encodes_hint (hop : 0x2C0 ≤ op ∧ op ≤ 0x2DF) : Encodes op w (.hint (dHINT w)) := by
  have five : slice w 54 10 = 0x2C0 + slice w 54 5 := by simp only [slice] at *; omega
  refine ⟨rfl, ?_, ?_⟩
  · simp only [encode, eHINT, dHINT, toNat_ofNat_slice, ← five]
    rw [slice_top 54 10 h, slice_last w 54]
  · simp [reservedOp, hop]

theorem encodes_decode0 (hop : op < 0x040) :
    Encodes op w (decode0 still op w) := by
  unfold decode0
  split
  case h_40 =>
    simp only [imp_false] at *
    refine encodes_reserved h ho ?_
    simp [reservedOp, assigned]; omega
  all_goals exact encodes_dRRR h ho rfl rfl (by decide)

theorem encodes_decode1 (hop : 0x040 ≤ op ∧ op < 0x0C0) :
    Encodes op w (decode1 still op w) := by
  unfold decode1
  split
  case h_25 =>
    simp only [imp_false] at *
    refine encodes_reserved h ho ?_
    simp [reservedOp, assigned]; omega
  case h_17 | h_18 | h_19 | h_20 | h_21 | h_22 | h_23 | h_24 => exact encodes_dRI32 h ho rfl rfl (by decide)
  all_goals exact encodes_dRI17 h ho rfl rfl (by decide)

theorem encodes_decode2 (hop : 0x0C0 ≤ op ∧ op < 0x100) :
    Encodes op w (decode2 still op w) := by
  unfold decode2
  split
  case h_25 =>
    simp only [imp_false] at *
    refine encodes_reserved h ho ?_
    simp [reservedOp, assigned]; omega
  case h_1 | h_2 | h_3 => exact encodes_dBR h ho rfl rfl (by decide)
  case h_17 => exact encodes_dREP h ho rfl rfl (by decide)
  case h_18 => exact encodes_dENG h ho rfl rfl (by decide)
  all_goals exact encodes_dRRR h ho rfl rfl (by decide)

theorem encodes_decode3 (hop : 0x100 ≤ op ∧ op < 0x180) :
    Encodes op w (decode3 still op w) := by
  unfold decode3
  split
  case h_27 =>
    simp only [imp_false] at *
    refine encodes_reserved h ho ?_
    simp [reservedOp, assigned]; omega
  all_goals exact encodes_dRRR h ho rfl rfl (by decide)

theorem encodes_decode4 (hop : 0x180 ≤ op ∧ op < 0x200) :
    Encodes op w (decode4 still op w) := by
  unfold decode4
  split
  case h_34 =>
    simp only [imp_false] at *
    refine encodes_reserved h ho ?_
    simp [reservedOp, assigned]; omega
  case h_1 | h_2 | h_3 | h_4 | h_5 => exact encodes_dMEM h ho rfl rfl (by decide)
  case h_6 | h_7 | h_8 | h_9 | h_10 | h_11 | h_12 | h_13 | h_14 =>
    exact encodes_dAMO h ho rfl rfl (by decide)
  all_goals exact encodes_dRRR h ho rfl rfl (by decide)

theorem encodes_decode5 (hop : 0x200 ≤ op ∧ op < 0x400 ∧ ¬(0x2C0 ≤ op ∧ op ≤ 0x2DF)) :
    Encodes op w (decode5 still op w) := by
  unfold decode5
  split
  case h_22 =>
    simp only [imp_false] at *
    refine encodes_reserved h ho ?_
    simp [reservedOp, assigned]; omega
  case h_1 | h_2 | h_3 | h_4 | h_5 | h_6 => exact encodes_dENG h ho rfl rfl (by decide)
  case h_14 => exact encodes_rdsys h ho rfl
  case h_15 => exact encodes_wrsysOf h ho rfl
  all_goals exact encodes_dRRR h ho rfl rfl (by decide)

theorem encodes_atOpcode : Encodes op w (atOpcode op w) := by
  have hlt : op < 0x400 := ho ▸ Nat.mod_lt _ (by decide)
  unfold atOpcode
  split
  · next h0 => exact encodes_decode0 h ho h0
  split
  · exact encodes_decode1 h ho (by omega)
  split
  · exact encodes_decode2 h ho (by omega)
  split
  · exact encodes_decode3 h ho (by omega)
  split
  · exact encodes_decode4 h ho (by omega)
  split
  · next hh => exact encodes_hint h ho (by simpa using hh)
  · next hh => exact encodes_decode5 h ho ⟨by omega, hlt, by simpa using hh⟩

end

theorem encodes_decodeWord {w : Nat} (h : w < 2 ^ 64) : Encodes (slice w 54 10) w (decodeWord w) := encodes_atOpcode h rfl

/-! Opcode by opcode, from the instruction: its word decodes to it. -/

/-- Word `n` has 64 bits and decodes to `i`. -/
def DecodesTo (n : Nat) (i : Instr) : Prop := n < 2 ^ 64 ∧ decodeWord n = i

/-- A word of a format: the map names the step at the word's opcode, and the word's fields are those of the step. -/
theorem decodesTo_of_fields {α : Type} {n op : Nat} {f : α} {d : Nat → α} {mk : α → Instr} (hn : n < 2 ^ 64)
    (h : slice n 54 10 = op ∧ d n = f) (hop : ∀ w, atOpcode op w = mk (d w)) : DecodesTo n (mk f) := by
  obtain ⟨h1, h2⟩ := h
  exact ⟨hn, by rw [decodeWord_eq, h1, hop, h2]⟩

theorem decodesTo_eRRR {op : Nat} {f : RRR} {mk : RRR → Instr} (hop : op < 1024) (w : wfRRR f = true)
    (h : ∀ n, atOpcode op n = mk (dRRR still n)) : DecodesTo (eRRR op f) (mk f) :=
  decodesTo_of_fields (eRRR_lt hop w) (fields_eRRR hop w) h

theorem decodesTo_eRI17 {op : Nat} {f : RI17} {mk : RI17 → Instr} (hop : op < 1024) (w : wfRI17 f = true)
    (h : ∀ n, atOpcode op n = mk (dRI17 still n)) : DecodesTo (eRI17 op f) (mk f) :=
  decodesTo_of_fields (eRI17_lt hop w) (fields_eRI17 hop w) h

theorem decodesTo_eRI32 {op : Nat} {f : RI32} {mk : RI32 → Instr} (hop : op < 1024) (w : wfRI32 f = true)
    (h : ∀ n, atOpcode op n = mk (dRI32 still n)) : DecodesTo (eRI32 op f) (mk f) :=
  decodesTo_of_fields (eRI32_lt hop w) (fields_eRI32 hop w) h

theorem decodesTo_eMEM {op : Nat} {f : MEM} {mk : MEM → Instr} (hop : op < 1024) (w : wfMEM f = true)
    (h : ∀ n, atOpcode op n = mk (dMEM still n)) : DecodesTo (eMEM op f) (mk f) :=
  decodesTo_of_fields (eMEM_lt hop w) (fields_eMEM hop w) h

theorem decodesTo_eAMO {op : Nat} {f : AMO} {mk : AMO → Instr} (hop : op < 1024) (w : wfAMO f = true)
    (h : ∀ n, atOpcode op n = mk (dAMO still n)) : DecodesTo (eAMO op f) (mk f) :=
  decodesTo_of_fields (eAMO_lt hop w) (fields_eAMO hop w) h

theorem decodesTo_eBR {op : Nat} {f : BRF} {mk : BRF → Instr} (hop : op < 1024) (w : wfBR f = true)
    (h : ∀ n, atOpcode op n = mk (dBR n)) : DecodesTo (eBR op f) (mk f) :=
  decodesTo_of_fields (eBR_lt hop w) (fields_eBR hop w) h

theorem decodesTo_eENG {op : Nat} {f : ENG} {mk : ENG → Instr} (hop : op < 1024) (w : wfENG f = true)
    (h : ∀ n, atOpcode op n = mk (dENG n)) : DecodesTo (eENG op f) (mk f) :=
  decodesTo_of_fields (eENG_lt hop w) (fields_eENG hop w) h

theorem decodesTo_eREP {op : Nat} {f : REPF} {mk : REPF → Instr} (hop : op < 1024)
    (h : ∀ n, atOpcode op n = mk (dREP n)) : DecodesTo (eREP op f) (mk f) :=
  decodesTo_of_fields (eREP_lt hop) (fields_eREP hop) h

theorem decodesTo_eSYS {op : Nat} {f : SYSF} {mk : SYSF → Instr} (hop : op < 1024) (w : wfSYS f = true)
    (h : ∀ n, atOpcode op n = mk (dSYS still n)) : DecodesTo (eSYS op f) (mk f) :=
  decodesTo_of_fields (eSYS_lt hop w) (fields_eSYS hop w) h

/-- RDSYS has a row of its own where its clear bit is set. -/
theorem decodesTo_rdsys {f : SYSF} (w : wfSYS f = true) :
    DecodesTo (eSYS 0x242 f) (if f.clr then .rdsysClr f else .rdsys f) :=
  decodesTo_eSYS (mk := fun f => if f.clr then .rdsysClr f else .rdsys f) (by decide) w (fun _ => rfl)

/-- WRSYS has rows of its own for four registers. -/
theorem decodesTo_wrsys {f : SYSF} (w : wfSYS f = true) : DecodesTo (eSYS 0x243 f) (wrsysOf f) :=
  decodesTo_eSYS (by decide) w (fun _ => rfl)

theorem atOpcode_hint {op : Nat} (h : 0x2C0 ≤ op ∧ op ≤ 0x2DF) (w : Nat) : atOpcode op w = .hint (dHINT w) := by
  unfold atOpcode
  repeat rw [if_neg (by omega)]
  rw [if_pos (by simpa using h)]

theorem decodesTo_hint (f : HINTF) : DecodesTo (eHINT f) (.hint f) := by
  obtain ⟨op, rest⟩ := f
  have hop : slice (eHINT ⟨op, rest⟩) 54 10 = 0x2C0 + op.toNat := by simp only [eHINT, slice]; omega
  have fields : dHINT (eHINT ⟨op, rest⟩) = ⟨op, rest⟩ := by
    simp only [dHINT, HINTF.mk.injEq]
    refine ⟨ofNat_of_eq ?_, ofNat_of_eq ?_⟩
    all_goals simp only [eHINT, slice]; omega
  exact decodesTo_of_fields (eHINT_lt _) ⟨hop, fields⟩ (atOpcode_hint (by omega))

theorem decodesTo_reserved {v : W64} (h : reservedOp (slice v.toNat 54 10) = true) : DecodesTo v.toNat (.reservedOpcode v) :=
  ⟨v.isLt, by rw [(encodes_decodeWord v.isLt).reserved h, BitVec.ofNat_toNat, BitVec.setWidth_eq]⟩

theorem decodesTo_of_encode {i : Instr} {n : Nat} (w : wellFormed i = true) (e : encode i = some n) : DecodesTo n i := by
  cases i with
  | addRRR f | addx f | subRRR f | subx f | neg f | mulRRR f | mulh f | mad f | abs f | minRRR f | maxRRR f | clamp f | andRRR f
  | orRRR f | xorRRR f | not f | andnRRR f | shlRRR f | shrRRR f | rotRRR f | clz f | ctz f | popc f | brev f | bfxRRR f | bfi f
  | bswz f | sel f | cmpRRR f | mov f | leaRRR f | pand f | por f | pxor f | pnot f | p2g f | g2p f | div f | rem f | brx f | callx f
  | ret f | nop f | fend f | join f | active f | wait f | sleep f | yield f | lwait f | bar f | gbar f | lxch f | vote f | ballot f
  | redux f | scan f | matchq f | fadd f | fsub f | fmul f | ffma f | fmin f | fmax f | fcmp f | fclass f | frnd f | hpadd f | hpmul f
  | hpfma f | fcvt f | f2i f | i2f f | pack8 f | unpack8 f | mxq f | rcp f | rsq f | sqrt f | exp2 f | log2 f | sin f | cos f | tanh f
  | fence f | cflush f | cinv f | clock f | cunlock f | cdemote f | lend f | retn f | split f | merge f | recallWord f | ownq f
  | bankcfg f | bankq f | qinit f | qpush f | qpop f | qpoll f | qwait f | mlease f | mfree f | mcfg f | mstat f | cwait f | trap f
  | eret f | tlbinv f | tokadm f | ckpt f | halt f | ctxsv f | ctxld f =>
    cases e
    exact decodesTo_eRRR (by decide) w (fun _ => rfl)
  | addRI17 f | subRI17 f | mulRI17 f | minRI17 f | maxRI17 f | andRI17 f | orRI17 f | xorRI17 f | andnRI17 f | shlRI17 f | shrRI17 f
  | rotRI17 f | cmpRI17 f | bfxRI17 f | leaRI17 f | movk f =>
    cases e
    exact decodesTo_eRI17 (by decide) w (fun _ => rfl)
  | movi f | addRI32 f | subRI32 f | mulRI32 f | andRI32 f | orRI32 f | xorRI32 f | andnRI32 f =>
    cases e
    exact decodesTo_eRI32 (by decide) w (fun _ => rfl)
  | bra f | call f | fspawn f =>
    cases e
    exact decodesTo_eBR (by decide) w (fun _ => rfl)
  | rep f =>
    cases e
    exact decodesTo_eREP (by decide) (fun _ => rfl)
  | launch f | mma f | mbound f | mcensus f | copy f | gxfer f | coll f =>
    cases e
    exact decodesTo_eENG (by decide) w (fun _ => rfl)
  | ld f | st f | lds f | sts f | pref f =>
    cases e
    exact decodesTo_eMEM (by decide) w (fun _ => rfl)
  | aadd f | afadd f | amin f | amax f | aand f | aor f | axor f | axchg f | acas f =>
    cases e
    exact decodesTo_eAMO (by decide) w (fun _ => rfl)
  | rdsys f | rdsysClr f =>
    cases e
    simp only [wellFormed, Bool.and_eq_true, Bool.not_eq_true'] at w
    obtain ⟨fits, clr⟩ := w
    simpa [clr] using decodesTo_rdsys fits
  | wrsys f =>
    cases e
    simp only [wellFormed, Bool.and_eq_true] at w
    obtain ⟨fits, other⟩ := w
    simp only [ownRow, Bool.not_eq_true', Bool.or_eq_false_iff, beq_eq_false_iff_ne] at other
    simpa [wrsysOf, other] using decodesTo_wrsys fits
  | wrsysCtxid f | wrsysThrottle f | wrsysUrgency f | wrsysCslope f =>
    cases e
    simp only [wellFormed, Bool.and_eq_true, beq_iff_eq] at w
    obtain ⟨fits, num⟩ := w
    simpa [wrsysOf, num] using decodesTo_wrsys fits
  | hint f =>
    cases e
    exact decodesTo_hint f
  | reservedOpcode v =>
    cases e
    exact decodesTo_reserved w
  | _ => cases e

/-- Settles O1: a word of each format holds its fields at their places (`fields_eRRR`, `eRRR_dRRR` and their like),
and the map of opcodes and the encoder agree row by row. -/
theorem encodingRoundTrips : Obligations.EncodingRoundTrips :=
  ⟨fun _ _ w e => decodesTo_of_encode w e, fun _ h => ⟨(encodes_decodeWord h).fits, (encodes_decodeWord h).word⟩⟩

/-- Settles O2: the words are closed. -/
theorem writtenWordsDecode : Obligations.WrittenWordsDecode := by
  unfold Obligations.WrittenWordsDecode
  decide

end Sys2Proof.Laws
end

section
/-! Reading at a header or a word leaves the crews alone (R45, R371), and a target at hand leaves no trace. -/

namespace Sys2Proof.Machine

/-- `u` is `s` but for what lies beside the crews: every team, every register, the cycle and the issue stand. -/
structure CrewsStand (s u : State) : Prop where
  teams : ∀ x, (clusterOf u x).teams = (clusterOf s x).teams
  regs : ∀ x, (clusterOf u x).rf = (clusterOf s x).rf
  cycle : u.cycle = s.cycle
  issue : u.issue = s.issue

namespace CrewsStand

theorem refl (s : State) : CrewsStand s s := ⟨fun _ => rfl, fun _ => rfl, rfl, rfl⟩

theorem trans {s u v : State} (h : CrewsStand s u) (g : CrewsStand u v) : CrewsStand s v :=
  ⟨fun x => (g.teams x).trans (h.teams x), fun x => (g.regs x).trans (h.regs x), g.cycle.trans h.cycle, g.issue.trans h.issue⟩

theorem teamOf_eq {s u : State} (h : CrewsStand s u) (x ts : Nat) : teamOf u x ts = teamOf s x ts := by
  simp only [teamOf, h.teams]

theorem crewOf_eq {s u : State} (h : CrewsStand s u) (r : CrewRef) : crewOf u r = crewOf s r := by
  simp only [crewOf, h.teamOf_eq]

theorem issuer_eq {s u : State} (h : CrewsStand s u) : issuer u = issuer s := by
  simp only [issuer, h.teamOf_eq, h.issue]

end CrewsStand

theorem updDie_stand (s : State) (d : Nat) (f : Die → Die) : CrewsStand s (updDie s d f) :=
  ⟨fun _ => by simp [clusterOf], fun _ => by simp [clusterOf], by simp, by simp⟩

theorem updCluster_stand (s : State) (x : Nat) {f : Cluster → Cluster} (ht : ∀ c, (f c).teams = c.teams) (hr : ∀ c, (f c).rf = c.rf) :
    CrewsStand s (updCluster s x f) := by
  refine ⟨fun y => ?_, fun y => ?_, rfl, rfl⟩
  all_goals
    by_cases h : y = x
    · subst h; simp [ht, hr]
    · rw [clusterOf_updCluster_other s f h]

theorem tlbFill_stand (s : State) (cl : Option Nat) (die : Nat) (e : TlbEntry) : CrewsStand s (tlbFill s cl die e) := by
  unfold tlbFill
  cases cl with
  | none => exact updDie_stand s die _
  | some x => exact (updDie_stand s die _).trans (updCluster_stand _ x (fun _ => rfl) (fun _ => rfl))

theorem reportBad_stand (s : State) (e : WalkErr) : CrewsStand s (reportBad s e) := by
  cases e <;> exact ⟨fun _ => rfl, fun _ => rfl, rfl, rfl⟩

theorem xlate_stand (s : State) (cl : Option Nat) (die ctx va : Nat) : CrewsStand s (xlate s cl die ctx va).1 := by
  unfold xlate
  split
  · exact tlbFill_stand s cl die _
  · exact reportBad_stand s _

theorem fetch64_stand (s : State) (cl ctx va : Nat) : CrewsStand s (fetch64 s cl ctx va).1 := by
  have h := xlate_stand s (some cl) (dieNo cl) ctx va
  unfold fetch64
  split
  · exact .refl s
  generalize xlate s (some cl) (dieNo cl) ctx va = x at h ⊢
  obtain ⟨u, _ | e⟩ := x
  · split <;> next e => cases e <;> exact h
  · dsimp only at h ⊢
    split
    · exact h
    split
    · exact h
    split
    · exact h
    split
    · exact h
    · generalize BitVec.ofNat 512 _ = d
      dsimp only
      exact h.trans (updCluster_stand u cl (fun _ => rfl) (fun _ => rfl))

theorem checkTarget_stand (s : State) (a : At) (t : Nat) : CrewsStand s (checkTarget s a t).1 := by
  have h := fetch64_stand s a.ref.cl a.ctx t
  unfold checkTarget
  split
  · exact .refl s
  generalize fetch64 s a.ref.cl a.ctx t = x at h ⊢
  obtain ⟨u, _ | w⟩ := x
  · exact h
  · dsimp only
    split <;> exact h

theorem checkTargets_stand (a : At) : ∀ (l : List (Nat × Nat)) (s : State), CrewsStand s (checkTargets s a l).1
  | [], s => .refl s
  | (_, t) :: r, s => (checkTarget_stand s a t).trans (checkTargets_stand a r _)

/-! A target at hand. -/

/-- The state after a look at a cluster that changed nothing there: its entry is written again as it stood. -/
def touched (s : State) (x : Nat) : State := setCluster s x (clusterOf s x)

@[simp] theorem clusterOf_touched (s : State) (x y : Nat) : clusterOf (touched s x) y = clusterOf s y := by
  by_cases h : y = x
  · subst h; simp [touched]
  · exact clusterOf_setCluster_other s _ h

@[simp] theorem touched_touched (s : State) (x : Nat) : touched (touched s x) x = touched s x := by
  simp [touched]

@[simp] theorem dieOf_touched (s : State) (x d : Nat) : dieOf (touched s x) d = dieOf s d := rfl

theorem onCrew_touched (s : State) (r : CrewRef) (t : Team) (rf : Cells 32) (c : Crew) :
    onCrew (touched s r.cl) r t rf c = onCrew s r t rf c := by
  simp [onCrew, touched]

theorem WarmTarget.touched {s : State} {a : At} {t : Nat} (h : WarmTarget s a t) (x : Nat) : WarmTarget (touched s x) a t :=
  ⟨h.aligned, h.low, by simpa using h.held⟩

theorem tlbFill_known {s : State} {x die : Nat} {e : TlbEntry} (hc : e ∈ (clusterOf s x).tlb) (hd : e ∈ (dieOf s die).tlb) :
    tlbFill s (some x) die e = touched s x := by
  have hd' : updDie s die (fun d => { d with tlb := if d.tlb.contains e then d.tlb else (e :: d.tlb).take 16384 }) = s := by
    unfold updDie dieOf at *
    split <;> simp_all
  unfold tlbFill
  dsimp only
  rw [hd', updCluster, touched]
  simp only [List.contains_iff_mem, hc, if_true]

theorem fetch64_warm {s : State} {a : At} {t : Nat} (h : WarmTarget s a t) :
    ∃ w, fetch64 s a.ref.cl a.ctx t = (touched s a.ref.cl, .ok w) ∧ hdrTag w = 0xA := by
  obtain ⟨e, d, hit, hdie, hex, hline, htag⟩ := h.held
  have low : ¬ t / 2 ^ 57 ≠ 0 := by simpa using h.low
  have fill := tlbFill_known (List.mem_of_find?_eq_some hit) hdie
  refine ⟨_, ?_, htag⟩
  rw [fetch64, if_neg low]
  simp [xlate, translate, hit, fill, hex, hline]

theorem checkTarget_warm {s : State} {a : At} {t : Nat} (h : WarmTarget s a t) :
    checkTarget s a t = (touched s a.ref.cl, none) := by
  obtain ⟨w, hf, htag⟩ := fetch64_warm h
  simp [checkTarget, h.aligned, hf, htag]

theorem checkTargets_warm {a : At} : ∀ {l : List (Nat × Nat)} {s : State}, l ≠ [] → (∀ e ∈ l, WarmTarget s a e.2) →
    checkTargets s a l = (touched s a.ref.cl, l.map (fun e => (e.1, none)))
  | [(i, t)], s, _, h => by simp [checkTargets, checkTarget_warm (h (i, t) (by simp))]
  | (i, t) :: x :: r, s, _, h => by
    rw [checkTargets, checkTarget_warm (h (i, t) (by simp))]
    simp only
    rw [checkTargets_warm (by simp) (fun e he => (h e (List.mem_cons_of_mem _ he)).touched _)]
    simp

end Sys2Proof.Machine
end

section
/-! Words that only go on: a hint and YIELD (R52, R125). -/

namespace Sys2Proof.Machine

/-- A batch that goes on past its word writes nothing. -/
theorem crewAfter_advance (cycle : Nat) (c : Crew) (bi : Nat) : CrewAfter cycle bi [] noYield c (advance cycle c bi) := by
  have keeps := advance_keeps cycle c bi
  have preds : (advance cycle c bi).preds = c.preds := by have := congrArg Crew.preds keeps; exact this
  exact {
    p := by simp
    pOther := fun i m _ => by rw [pRead, pRead, preds]
    st := fun b hb => by simp [advance_stat_low cycle c bi b hb]
    moved := fun b hb hr => advance_moves cycle c bi b hb hr
    memset := advance_memset cycle c bi
    stays := fun b hb hr hd => advance_stays cycle c bi b hb hr hd
    yield := fun b hb hr => advance_yields cycle c bi b hb hr }

theorem onward_advance (s : State) (a : At) : Onward s (updCrew s a.ref (fun c => advance s.cycle c a.bi)) a := by
  refine ⟨_, rfl, fun c => ⟨crewAfter_advance s.cycle c a.bi, ?_, ?_⟩⟩
  · have pend := congrArg Crew.pend (advance_keeps s.cycle c a.bi)
    simpa [laterPends, noYield, yields] using pend
  · have keeps := advance_keeps s.cycle c a.bi
    generalize advance s.cycle c a.bi = d at keeps ⊢
    rw [← keeps]

theorem exec_yield_passes {s : State} {a : At} (f : RRR) (h : Passes s a (ctlChecks f pNone pNone pNone false)) :
    exec (.yield f) s = .next (updCrew s a.ref (fun c =>
      advance s.cycle { c with batches := modAt c.batches a.bi (fun b => { b with yields := true }) } a.bi)) := by
  show execYield f s = _
  exact issueWord_passes _ h

/-- Settles O15: both words advance their batch. -/
theorem hintAndYieldGoOn : Obligations.HintAndYieldGoOn := by
  refine ⟨fun f s a hi => ⟨skipWord s a false, ?_, onward_advance s a⟩, fun f s a h => ⟨_, exec_yield_passes f h, ?_⟩⟩
  · show execHint f s = _
    simp [execHint, hi]
  · have onward := onward_advance (updCrew s a.ref (fun c => { c with batches := modAt c.batches a.bi (fun b => { b with yields := true }) })) a
    rwa [updCrew_updCrew, updCrew_cycle] at onward

end Sys2Proof.Machine
end

section
/-! CLAUSE_BEGIN (R36 to R45, R265, R268, R271). -/

namespace Sys2Proof.Machine

/-! What CLAUSE_BEGIN answers, case by case. -/

section
variable {s u : State} {a : At} {h : W64} (hi : issuer s = some a) (ready : isReady a.b = true)
include hi ready

/-- A batch before its clause, or one that came back into it, looks at its header. -/
theorem clauseBegin_misaligned (fresh : a.b.begun = false ∨ a.b.stale = true) (hm : a.b.header % 8 ≠ 0) :
    exec .clauseBegin s = .next (headerFault s a .misaligned) := by
  show execClauseBegin s = _
  have looks : (!isReady a.b || (a.b.begun && !a.b.stale)) = false := by rcases fresh with e | e <;> simp [ready, e]
  simp [execClauseBegin, hi, looks, hm]

theorem clauseBegin_fetchError {k : FKind} (fresh : a.b.begun = false ∨ a.b.stale = true) (hm : a.b.header % 8 = 0)
    (hf : fetch64 s a.ref.cl a.ctx a.b.header = (u, .error k)) : exec .clauseBegin s = .next (headerFault u a k) := by
  show execClauseBegin s = _
  have looks : (!isReady a.b || (a.b.begun && !a.b.stale)) = false := by rcases fresh with e | e <;> simp [ready, e]
  simp [execClauseBegin, hi, looks, hm, hf]

/-- With its header read, the batch traps at a bad one, reads it again within its clause, waits for its flags, or begins. -/
theorem clauseBegin_read (fresh : a.b.begun = false ∨ a.b.stale = true) (hm : a.b.header % 8 = 0)
    (hf : fetch64 s a.ref.cl a.ctx a.b.header = (u, .ok h)) :
    exec .clauseBegin s =
      if headerBad h then .next (headerFault u a .illegal)
      else if a.b.begun then .next (updCrew u a.ref (openClause h a.bi))
      else if !flagsClear a.crew (hdrWait h) then
        .next (updCrew u a.ref (fun c => { c with batches := modAt c.batches a.bi (fun b => { b with wait := .flags (hdrWait h) }) }))
      else
        let j := updCrew u a.ref (fun c => joinReady c a.b)
        match atOf j a.ref (((crewOf j a.ref).map (fun c => c.batches.length - 1)).getD 0) with
        | none => .next j
        | some b => .next (beginClause j b h) := by
  show execClauseBegin s = _
  have looks : (!isReady a.b || (a.b.begun && !a.b.stale)) = false := by rcases fresh with e | e <;> simp [ready, e]
  simp only [execClauseBegin, hi, looks, hm, hf]
  rfl

end

theorem headerFault_traps {s : State} {a : At} {k : FKind} (hk : k ≠ .notPresent) : TrapsAtHeader s (headerFault s a k) a k := by
  rw [headerFault, if_neg hk]
  refine ⟨_, rfl, rfl, rfl, rfl, ?_, ?_⟩
  · simp [Function.comp_def]
  · intro e he
    obtain ⟨j, _, rfl⟩ := List.mem_map.1 he
    exact ⟨rfl, rfl, rfl⟩

theorem headerBad_iff {h : W64} : headerBad h = true ↔ hdrTag h ≠ 0xA ∨ hdrPorts h = 0 ∨ hdrRsv h ≠ 0 := by
  simp [headerBad, or_assoc]

theorem headerBad_false {h : W64} (ht : hdrTag h = 0xA) (hp : hdrPorts h ≠ 0) (hr : hdrRsv h = 0) : headerBad h = false := by
  simp [headerBad, ht, hp, hr]

/-! The batch that begins the clause, with those that join it. -/

theorem getLsbD_foldl_or {α : Type} (f : α → W32) (i : Nat) : ∀ (l : List α) (m : W32),
    (l.foldl (fun m x => m ||| f x) m).getLsbD i = true ↔ m.getLsbD i = true ∨ ∃ x ∈ l, (f x).getLsbD i = true
  | [], m => by simp
  | x :: t, m => by
    rw [List.foldl_cons, getLsbD_foldl_or f i t]
    simp [or_assoc]

/-- The batch that begins the clause stands last, with the fibres of those that join it. -/
theorem joinReady_last (c : Crew) (b : Batch) : ∃ m, (joinReady c b).batches[(joinReady c b).batches.length - 1]? = some { b with mask := m }
    ∧ ∀ i, m.getLsbD i = true ↔ b.mask.getLsbD i = true ∨ ∃ x ∈ c.batches, joinsAt b x = true ∧ x.mask.getLsbD i = true := by
  refine ⟨(c.batches.filter (joinsAt b)).foldl (fun m x => m ||| x.mask) b.mask, by simp [joinReady], fun i => ?_⟩
  rw [getLsbD_foldl_or]
  simp [and_assoc]

theorem updCrew_eq_onCrew {s : State} {r : CrewRef} {t : Team} {c : Crew} (ht : teamOf s r.cl r.ts = some t) (hc : t.crews[r.cr]? = some c)
    (f : Crew → Crew) : updCrew s r f = onCrew s r t (clusterOf s r.cl).rf (f c) :=
  Shape.upd ht (.inl ⟨rfl, rfl, hc⟩) f

theorem atOf_updCrew {s : State} {r : CrewRef} {t : Team} {c : Crew} (ht : teamOf s r.cl r.ts = some t) (hc : t.crews[r.cr]? = some c)
    (f : Crew → Crew) (bi : Nat) :
    atOf (updCrew s r f) r bi = ((f c).batches[bi]?).map (fun b =>
      { ref := r, bi := bi, team := { t with crews := modAt t.crews r.cr (fun _ => f c) }, crew := f c, b := b }) := by
  simp only [updCrew_eq_onCrew ht hc, atOf, teamOf_onCrew, crewOf_onCrew hc]

theorem crewOf_updCrew {s : State} {r : CrewRef} {t : Team} {c : Crew} (ht : teamOf s r.cl r.ts = some t) (hc : t.crews[r.cr]? = some c)
    (f : Crew → Crew) : crewOf (updCrew s r f) r = some (f c) := by
  rw [updCrew_eq_onCrew ht hc, crewOf_onCrew hc]

/-- The crew of `a` when its batch has begun the clause with header `h`: its pass has grown, and port M counts (R268, R271). -/
def beganCrew (a : At) (h : W64) (c : Crew) : Crew :=
  openClause h a.bi
    { (if tb (hdrPorts h) 1 then { c with memRow := c.memRow + 1 } else leaveMem c) with
      pass := c.pass + (1 + c.backoff) * (if a.urgent then 1 else 2), memWait := if tb (hdrPorts h) 1 then none else c.memWait }

theorem beginClause_eq (s : State) (a : At) (h : W64) :
    beginClause s a h = updCrew (if hdrWait h = 0 then s else acquireAt s a.ref.cl (flagScopes a.crew (hdrWait h))) a.ref (beganCrew a h) :=
  rfl

theorem beganCrew_opens (a : At) (h : W64) (c : Crew) : Opens h a.bi c (beganCrew a h c)
    ∧ (beganCrew a h c).pass = c.pass + (1 + c.backoff) * (if a.urgent then 1 else 2)
    ∧ (beganCrew a h c).memWait = (if tb (hdrPorts h) 1 then none else c.memWait)
    ∧ ((beganCrew a h c).mem, (beganCrew a h c).memRow) = (if tb (hdrPorts h) 1 then (c.mem, c.memRow + 1) else (false, 0)) := by
  unfold beganCrew
  split <;> exact ⟨⟨rfl, rfl⟩, rfl, rfl, rfl⟩

/-- Settles O47: the header's checks in their order, then the joined batch begins as an acquire. -/
theorem clausesBegin : Obligations.ClausesBegin := by
  refine ⟨fun s a hi ready fresh hm => ⟨_, clauseBegin_misaligned hi ready (.inl fresh) hm, headerFault_traps (by decide)⟩,
    fun s u a hi ready fresh hm => ⟨fun k hk hf => ⟨_, clauseBegin_fetchError hi ready (.inl fresh) hm hf, headerFault_traps hk⟩,
      fun h hf => ?_⟩, fun s u a h hi ready begun stale hm hf ht hp hr => ?_⟩
  · have read := clauseBegin_read hi ready (.inl fresh) hm hf
    refine ⟨fun bad => ⟨_, by rw [read, if_pos (headerBad_iff.2 bad)], headerFault_traps (by decide)⟩,
      fun ht hp hr waits => ?_, fun j hj ht hp hr clear => ?_⟩
    · simpa [headerBad_false ht hp hr, fresh, waits] using read
    · obtain ⟨hteam, hcrew, -⟩ := issuer_parts hi
      have stand : CrewsStand s u := by have st := fetch64_stand s a.ref.cl a.ctx a.b.header; rwa [hf] at st
      rw [← stand.teamOf_eq] at hteam
      obtain ⟨m, last, joined⟩ := joinReady_last a.crew a.b
      have place := atOf_updCrew hteam hcrew (fun c => joinReady c a.b) ((joinReady a.crew a.b).batches.length - 1)
      rw [last, ← hj, Option.map_some] at place
      have crew := crewOf_updCrew hteam hcrew (fun c => joinReady c a.b)
      rw [← hj] at crew
      refine ⟨_, beganCrew _ h, place, rfl, joined, ?_, beganCrew_opens _ h⟩
      simp only [read, headerBad_false ht hp hr, fresh, clear, ← hj, crew, Option.map_some, Option.getD_some, place, beginClause_eq]
      rfl
  · refine ⟨openClause h a.bi, ?_, fun c => ⟨⟨rfl, rfl⟩, rfl, rfl, rfl, rfl⟩⟩
    rw [clauseBegin_read hi ready (.inr stale) hm hf]
    simp [headerBad_false ht hp hr, begun]

end Sys2Proof.Machine
end

section
/-! Control transfers (R42, R43, R116, R117). -/

namespace Sys2Proof.Machine

/-! Slots and groups of fibres. -/

theorem getLsbD_slotsMask {i : Nat} (hi : i < 32) (l : List Nat) : (slotsMask l).getLsbD i = true ↔ i ∈ l := by
  have key : ∀ (l : List Nat) (m : W32), (l.foldl (fun m i => m ||| (1#32 <<< i)) m).getLsbD i = true ↔ m.getLsbD i = true ∨ i ∈ l := by
    intro l
    induction l with
    | nil => simp
    | cons x t ih =>
      intro m
      rw [List.foldl_cons, ih]
      have bit : (1#32 <<< x).getLsbD i = true ↔ i = x := by
        simp [hi]
        omega
      simp only [BitVec.getLsbD_or, Bool.or_eq_true, bit, List.mem_cons, or_assoc]
  simp [slotsMask, key]

theorem slotsMask_eq_of_mem {l : List Nat} {m : W32} (h : ∀ i < 32, i ∈ l ↔ m.getLsbD i = true) : slotsMask l = m := by
  apply BitVec.eq_of_getLsbD_eq
  intro i hi
  rw [Bool.eq_iff_iff, getLsbD_slotsMask hi, h i hi]

theorem nodup_eraseDups {α : Type} [DecidableEq α] : ∀ (l : List α), l.eraseDups.Nodup
  | [] => by simp
  | a :: t => by
    rw [List.eraseDups_cons, List.nodup_cons]
    exact ⟨by simp [List.mem_eraseDups], nodup_eraseDups _⟩
  termination_by l => l.length
  decreasing_by simpa using Nat.lt_succ_of_le (List.length_filter_le _ t)

@[simp] theorem afterClause_header (cycle : Nat) (b : Batch) (pc : Nat) (m : W32) : (afterClause cycle b pc m).header = pc := rfl
@[simp] theorem afterClause_mask (cycle : Nat) (b : Batch) (pc : Nat) (m : W32) : (afterClause cycle b pc m).mask = m := rfl
@[simp] theorem afterClause_begun (cycle : Nat) (b : Batch) (pc : Nat) (m : W32) : (afterClause cycle b pc m).begun = false := rfl

theorem mem_slots_lt {a : At} {i : Nat} (h : i ∈ a.slots) : i < 32 := (mem_maskSlots.1 h).1

/-- The crew whose batch has left its place for the batches `new` at their headers (R116). -/
def movedCrew (a : At) (new : List Batch) (c : Crew) : Crew :=
  { (if hdrDrain a.b.hdr then leaveMem c else c) with
    batches := delAt c.batches a.bi ++ new, cur := none, yields := c.yields || hdrYield a.b.hdr }

theorem movedCrew_regroup (s : State) (a : At) (tgt : Nat → Nat) {l : List Nat} (hl : ∀ i ∈ l, i < 32) (c : Crew) :
    Moved a.bi a.b.hdr l tgt c (movedCrew a (regroup s a (l.map (fun i => (i, tgt i)))) c) := by
  refine ⟨⟨_, rfl, ?_, ?_, ?_⟩, ?_, ?_, rfl⟩
  · simpa [regroup, Function.comp_def] using nodup_eraseDups (l.map tgt)
  · intro b hb
    obtain ⟨pc, -, rfl⟩ := List.mem_map.1 hb
    refine ⟨rfl, fun i hi => ?_⟩
    have lt : i < 32 := by
      by_contra hge
      rw [BitVec.getLsbD_of_ge _ _ (by omega)] at hi
      cases hi
    rw [afterClause_mask, getLsbD_slotsMask lt] at hi
    simpa using hi
  · intro i hi
    refine ⟨_, List.mem_map.2 ⟨tgt i, by simpa [List.mem_eraseDups] using ⟨i, hi, rfl⟩, rfl⟩, ?_⟩
    rw [afterClause_mask, getLsbD_slotsMask (hl i hi)]
    simpa using hi
  · unfold movedCrew
    split <;> rfl
  · unfold movedCrew
    split <;> rfl

/-! The link register, as a yield. -/

/-- What a transfer yields: the address of the word plus 8 in its link, if it has one (R116). -/
def linkYield (a : At) (link : Option Nat) : Yield :=
  match link with
  | some l => yields { cls := .g, num := l } 2 (fun _ => a.pc + 8) (fun _ => 0)
  | none => noYield

/-- Writes of g-registers alone leave the crew as it is. -/
theorem foldl_evPure_regs {E : List WordEv} (h : ∀ e ∈ E, ∀ p : Cells 32 × Crew, (evPure p e).2 = p.2) :
    ∀ p : Cells 32 × Crew, (E.foldl evPure p).2 = p.2 := by
  induction E with
  | nil => exact fun _ => rfl
  | cons e t ih =>
    intro p
    rw [List.foldl_cons, ih (fun e he => h e (List.mem_cons_of_mem _ he)), h e (by simp)]

theorem evPure_st_zero (p : Cells 32 × Crew) : (evPure p (.st 0)).2 = p.2 := by
  simp [evPure]

theorem linkYield_events {a : At} {link : Option Nat} {act : List Nat} :
    ∀ e ∈ allEvs (act.map (fun i => (i, (linkYield a link).res i))), ∀ p : Cells 32 × Crew, (evPure p e).2 = p.2 := by
  have one : ∀ i low, ∀ e ∈ resEvs i low ((linkYield a link).res i), ∀ p : Cells 32 × Crew, (evPure p e).2 = p.2 := by
    intro i low e he p
    cases link with
    | none =>
      simp only [resEvs, linkYield, noYield, res_yields, res, destWr, List.map_nil, List.nil_append, List.mem_singleton] at he
      rw [he, evPure_st_zero]
    | some l =>
      simp only [resEvs, linkYield, res_yields, res, destWr, List.map_map, List.mem_append, List.mem_map, List.mem_singleton] at he
      rcases he with ⟨j, -, rfl⟩ | rfl
      · rfl
      · exact evPure_st_zero p
  cases act with
  | nil => simp [allEvs]
  | cons i t =>
    intro e he
    simp only [List.map_cons, allEvs, List.mem_append, List.mem_flatMap, List.mem_map] at he
    rcases he with he | ⟨x, ⟨j, -, rfl⟩, he⟩
    · exact one _ _ e he
    · exact one _ _ e he

/-- The links stand in the registers, and the crew is as it was until `f` changes it. -/
theorem applyAll_links {u : State} {a : At} {act : List Nat} (hi : issuer u = some a) (hm : a.b.mask ≠ 0#32) (link : Option Nat) :
    ∃ rf, (∀ f : Crew → Crew, updCrew (applyAll u a.ref (act.map (fun i => (i, (linkYield a link).res i)))) a.ref f
        = onCrew u a.ref a.team rf (f a.crew))
      ∧ (∀ l, link = some l → l + 2 ≤ a.crew.win → ∀ j ∈ act, ∀ n < 2, cRead rf (regNo a.crew j (l + n)) = regWord (a.pc + 8) n)
      ∧ (∀ key, (∀ l, link = some l → ∀ j ∈ act, ∀ n < 2, regNo a.crew j (l + n) ≠ key) →
          cRead rf key = cRead (clusterOf u a.ref.cl).rf key) := by
  obtain ⟨ht, hc, -⟩ := issuer_parts hi
  have preds : ∀ i ∈ act, ∀ e ∈ (linkYield a link).preds i, ∀ e' ∈ (linkYield a link).preds i, e.1 = e'.1 → e = e' := by
    intro i _
    cases link <;> exact preds_yields _ _ _ _ i
  obtain ⟨rf, c', fin, -, reads, frame, -⟩ := finishWord_wrote (y := linkYield a link) hi hm preds
  have shape := Shape.evs ht hc (allEvs (act.map (fun i => (i, (linkYield a link).res i)))) (x := u)
    (p := ((clusterOf u a.ref.cl).rf, a.crew)) (.inl ⟨rfl, rfl, hc⟩)
  rw [← applyAll_eq, foldl_evPure_regs linkYield_events] at shape
  have regs : (clusterOf (finishWord u a (act.map (fun i => (i, .ok ((linkYield a link).res i))))) a.ref.cl).rf = rf := by rw [fin, onCrew_rf]
  rw [finishWord, okOuts_map, badOuts_map, stampPc, List.map_nil, finishFaults_none _ _ _ hm, shape.upd ht, onCrew_rf] at regs
  rw [regs] at shape
  refine ⟨rf, shape.upd ht, ?_, ?_⟩
  · rintro l rfl hw j hj n hn
    exact reads rfl hw j hj n hn
  · intro key hkey
    refine frame key fun hg j hj n hn => ?_
    cases link with
    | none => cases hg
    | some l => exact hkey l rfl j hj n hn

/-! The transfer. -/

theorem linkYield_none (a : At) : (linkYield a none).res = fun _ => noRes := rfl

theorem linkYield_some (a : At) (l : Nat) : (linkYield a (some l)).res = fun _ => res { cls := .g, num := l } 2 (a.pc + 8) 0 :=
  funext (res_yields _ _ _ _)

theorem execCall_passes {f : BRF} {s : State} {a : At}
    (h : Passes s a (brChecks f true (fun w => f.rsv == 0#9 && f.link % 2 == 0 && decide (f.link + 1 < w)) [({ cls := .g, num := f.link }, 2)])) :
    execCall f s = .next (transfer a (active a f.gd) (fun _ => brAddr a f) (fun _ => res { cls := .g, num := f.link } 2 (a.pc + 8) 0) s) := by
  unfold execCall
  dsimp only
  exact issueWord_passes _ h

/-- BRX, CALLX and RET: the target is operand a. -/
theorem execIndirect_passes {f : RRR} {d : Pos} {s : State} {a : At}
    (h : Passes s a (rrrSpec
      { port := 0, d := d, a := pSrc true, b := pNone, c := pNone, ty := f.ty.toNat == 0, opt := noOpt f.opt.toNat } f true false false)) :
    execIndirect f d s = .next (transfer a (active a f.gd) (fun i => opdVal s a i f.a 2)
      (fun _ => if d.n = 0 then noRes else res f.d 2 (a.pc + 8) 0) s) :=
  issueWord_passes _ h

/-- A destination of CALLX is a g-register. -/
theorem legal_callx {fm : RForm} {f : RRR} {win : Nat} {ct plain priv : Bool}
    (hd : fm.d = { n := 2, g := true, k := false, p := false, sp := [] }) (h : (rrrSpec fm f ct plain priv).legal win = true) :
    f.d.cls = .g := by
  simp only [rrrSpec, posOk, hd, Bool.and_eq_true] at h
  obtain ⟨⟨⟨⟨-, hd⟩, -⟩, -⟩, -⟩ := h
  cases e : f.d.cls <;> simp [e] at hd ⊢

theorem exec_transfer {i : Instr} {w : TransferWord} {s : State} {a : At} (hw : transferOf i = some w) (h : Passes s a w.sp) :
    exec i s = .next (transfer a (active a w.sp.gd) (w.target s a) (linkYield a w.link).res s) := by
  unfold transferOf at hw
  dsimp only at hw
  split at hw
  all_goals cases hw
  case h_1 f =>
    show execBra f s = _
    exact issueWord_passes _ h
  case h_2 f =>
    show execCall f s = _
    rw [linkYield_some]
    exact execCall_passes h
  case h_3 f =>
    show execIndirect f _ s = _
    exact execIndirect_passes h
  case h_4 f =>
    show execIndirect f _ s = _
    have hd : f.d = { cls := .g, num := f.d.num } := by rw [← legal_callx rfl h.legal]
    rw [linkYield_some, ← hd]
    exact execIndirect_passes h
  case h_5 f =>
    show execIndirect f _ s = _
    exact execIndirect_passes h

theorem finishTransfer_none (s : State) (a : At) (moves : List (Nat × Nat)) :
    finishTransfer s a [] moves = updCrew s a.ref (movedCrew a (regroup s a moves)) := rfl

/-- Faults, none of them an absent page, trap (R356). -/
theorem finishTransfer_traps {s : State} {a : At} {bads : List (Nat × FaultInfo)} (moves : List (Nat × Nat)) (hb : bads ≠ [])
    (hk : ∀ e ∈ bads, e.2.kind ≠ .notPresent) :
    finishTransfer s a bads moves = raiseTrap s a (stampPc a.pc bads) (slotsMask (moves.map (·.1) ++ bads.map (·.1))) moves a.pc false := by
  have trapping : ∀ e ∈ stampPc a.pc bads, isAbsent e.2 = false := by
    intro e he
    obtain ⟨x, hx, rfl⟩ := List.mem_map.1 he
    simp [isAbsent, hk x hx]
  have absent : (stampPc a.pc bads).filter (fun e => isAbsent e.2) = [] :=
    List.filter_eq_nil_iff.2 fun e he => by simp [trapping e he]
  have others : (stampPc a.pc bads).filter (fun e => !isAbsent e.2) = stampPc a.pc bads :=
    List.filter_eq_self.2 fun e he => by simp [trapping e he]
  have some_ : (!(stampPc a.pc bads).isEmpty) = true := by simpa [stampPc] using hb
  have slots : (stampPc a.pc bads).map (·.1) = bads.map (·.1) := by simp [stampPc]
  rw [finishTransfer]
  dsimp only
  rw [absent, others, if_pos some_, slots]
  rfl

/-- All targets pass: the batch moves, and the links stand. -/
theorem transfer_good {s u : State} {a : At} {act : List Nat} {target : Nat → Nat} {link : Nat → FRes} 
    (hc : checkTargets s a (act.map (fun j => (j, target j))) = (u, act.map (fun j => (j, none)))) :
    ∃ v, transfer a act target link s = updCrew (applyAll u a.ref (act.map (fun i => (i, link i)))) a.ref
      (movedCrew a (regroup v a (a.slots.map (fun j => (j, if j ∈ act then target j else clauseEnd a.b))))) := by
  have bads : (act.map (fun j => (j, (none : Option FaultInfo)))).filterMap (fun e => e.2.map (fun f => (e.1, f))) = [] := by simp
  have good : ((act.map (fun j => (j, (none : Option FaultInfo)))).filter (fun e => e.2.isNone)).map (·.1) = act := by
    simp [List.filter_map, Function.comp_def]
  have moves : a.slots.filterMap (fun i => if act.contains i then some (i, target i) else if act.contains i then none else some (i, clauseEnd a.b))
      = a.slots.map (fun j => (j, if j ∈ act then target j else clauseEnd a.b)) := by
    rw [← List.filterMap_eq_map]
    refine List.filterMap_congr fun j _ => ?_
    by_cases hj : j ∈ act <;> simp [hj]
  refine ⟨applyAll u a.ref (act.map (fun i => (i, link i))), ?_⟩
  rw [transfer, hc]
  dsimp only
  rw [bads, good, moves, finishTransfer_none]

theorem checkTargets_misaligned {a : At} (s : State) : ∀ {l : List (Nat × Nat)}, (∀ e ∈ l, e.2 % 8 ≠ 0) →
    checkTargets s a l = (s, l.map (fun e => (e.1, some (targetFault .misaligned e.2))))
  | [], _ => rfl
  | (i, t) :: r, h => by
    have ht : t % 8 ≠ 0 := h (i, t) (by simp)
    rw [checkTargets, checkTarget, if_pos ht]
    dsimp only
    rw [checkTargets_misaligned s (fun e he => h e (List.mem_cons_of_mem _ he))]
    rfl

/-- The crew with batch `bi` out of its list, waiting in the trap as `tw`. -/
def trappedCrew (c : Crew) (bi : Nat) (tw : TrapWait) : Crew :=
  { c with batches := delAt c.batches bi, cur := none, trapWait := c.trapWait ++ [tw] }

theorem raiseTrap_eq_onCrew {s : State} {a : At} (ht : teamOf s a.ref.cl a.ref.ts = some a.team)
    (hc : a.team.crews[a.ref.cr]? = some a.crew) (l : List (Nat × FaultInfo)) (mask : W32) (moved : List (Nat × Nat)) (t : Nat) (h : Bool) :
    raiseTrap s a l mask moved t h = onCrew s a.ref a.team (clusterOf s a.ref.cl).rf
      (trappedCrew a.crew a.bi { faults := l, batch := { a.b with mask := mask, wait := .none }, moved := moved, t := t, atHeader := h }) :=
  updCrew_eq_onCrew ht hc _

/-- Every target is misaligned: the crew traps, and the others of its batch are past the word. -/
theorem transfer_bad {s : State} {a : At} {act : List Nat} {target : Nat → Nat} {link : Nat → FRes} (ha : act ≠ [])
    (hm : ∀ j ∈ act, target j % 8 ≠ 0) :
    transfer a act target link s = raiseTrap s a (act.map (fun j => (j, { targetFault .misaligned (target j) with pc := a.pc })))
      (slotsMask ((a.slots.filter (fun j => !act.contains j)) ++ act)) ((a.slots.filter (fun j => !act.contains j)).map (fun j => (j, clauseEnd a.b)))
      a.pc false := by
  have targets := checkTargets_misaligned (a := a) s (l := act.map (fun j => (j, target j))) (by simpa using hm)
  have moves : a.slots.filterMap (fun i => if ([] : List Nat).contains i then some (i, target i) else if act.contains i then none else some (i, clauseEnd a.b))
      = (a.slots.filter (fun j => !act.contains j)).map (fun j => (j, clauseEnd a.b)) := by
    rw [← List.filterMap_eq_map, List.filterMap_filter]
    refine List.filterMap_congr fun j _ => ?_
    by_cases hj : j ∈ act <;> simp [hj]
  have bads : (((act.map (fun j => (j, target j))).map (fun e => (e.1, some (targetFault .misaligned e.2)))).filterMap
      (fun e => e.2.map (fun f => (e.1, f)))) = act.map (fun j => (j, targetFault .misaligned (target j))) := by
    simp [List.filterMap_map, Function.comp_def]
  have good : (((act.map (fun j => (j, target j))).map (fun e => (e.1, some (targetFault .misaligned e.2)))).filter
      (fun e => e.2.isNone)) = [] := by simp
  rw [transfer, targets]
  dsimp only
  rw [bads, good, List.map_nil, moves, finishTransfer_traps]
  · simp [stampPc, applyAll, Function.comp_def]
  · simpa using ha
  · simp [targetFault, fault]

theorem mem_slots_of_active {a : At} {g : Guard} {j : Nat} (h : j ∈ active a g) : j ∈ a.slots := (List.mem_filter.1 h).1

/-- The others of the batch and its active fibres are all its fibres. -/
theorem slotsMask_others_active (a : At) (g : Guard) :
    slotsMask (a.slots.filter (fun j => !(active a g).contains j) ++ active a g) = a.b.mask := by
  refine slotsMask_eq_of_mem fun i hi => ?_
  have slot : i ∈ a.slots ↔ a.b.mask.getLsbD i = true := by rw [At.slots, mem_maskSlots]; simp [hi]
  rw [← slot, List.mem_append, List.mem_filter]
  by_cases h : i ∈ active a g
  · simp [h, mem_slots_of_active h]
  · simp [h]

/-- Targets that pass leave the state `u`: each fibre has moved, the links stand, nothing else has changed. -/
theorem transfer_goes {i : Instr} {w : TransferWord} {s u : State} {a : At} (hw : transferOf i = some w) (h : Passes s a w.sp)
    (hc : checkTargets s a ((active a w.sp.gd).map (fun j => (j, w.target s a j))) = (u, (active a w.sp.gd).map (fun j => (j, none)))) :
    ∃ rf c', exec i s = .next (onCrew u a.ref a.team rf c')
      ∧ Moved a.bi a.b.hdr a.slots (fun j => if j ∈ active a w.sp.gd then w.target s a j else clauseEnd a.b) a.crew c'
      ∧ (∀ l, w.link = some l → l + 2 ≤ a.crew.win → ∀ j ∈ active a w.sp.gd, ∀ n < 2,
          cRead rf (regNo a.crew j (l + n)) = regWord (a.pc + 8) n)
      ∧ (∀ key, (∀ l, w.link = some l → ∀ j ∈ active a w.sp.gd, ∀ n < 2, regNo a.crew j (l + n) ≠ key) →
          cRead rf key = cRead (clusterOf s a.ref.cl).rf key) := by
  have stand : CrewsStand s u := by have st := checkTargets_stand a ((active a w.sp.gd).map (fun j => (j, w.target s a j))) s; rwa [hc] at st
  have hi : issuer u = some a := stand.issuer_eq.trans h.here
  obtain ⟨rf, upd, reads, frame⟩ := applyAll_links (act := active a w.sp.gd) hi (mask_ne_zero_of_active h.act) w.link
  obtain ⟨v, goes⟩ := transfer_good (link := (linkYield a w.link).res) hc
  rw [upd] at goes
  refine ⟨rf, _, (exec_transfer hw h).trans (congrArg _ goes), movedCrew_regroup v a _ (fun _ => mem_slots_lt) a.crew, reads, ?_⟩
  intro key hkey
  rw [frame key hkey, stand.regs]

/-- Settles O13: the batch moves where every target passes, and traps where each is misaligned. -/
theorem transfersMoveFibres : Obligations.TransfersMoveFibres := by
  refine ⟨fun i w hw s a h => ⟨fun warm => ?_, fun u hc => transfer_goes hw h hc⟩, fun i w hw s a h hm => ?_⟩
  · have ne : (active a w.sp.gd).map (fun j => (j, w.target s a j)) ≠ [] := by simpa using h.act
    have hc := checkTargets_warm (s := s) ne (by simpa using warm)
    rw [List.map_map] at hc
    obtain ⟨rf, c', goes, rest⟩ := transfer_goes hw h hc
    exact ⟨rf, c', by rw [goes, onCrew_touched], rest⟩
  · obtain ⟨ht, hc, -⟩ := issuer_parts h.here
    have goes := (exec_transfer hw h).trans (congrArg _ (transfer_bad h.act hm))
    rw [raiseTrap_eq_onCrew ht hc] at goes
    refine ⟨_, _, goes, rfl, rfl, ?_, slotsMask_others_active a w.sp.gd, rfl, ?_, rfl⟩
    · simp [Function.comp_def]
    · intro e he
      obtain ⟨j, -, rfl⟩ := List.mem_map.1 he
      exact ⟨rfl, rfl, rfl, rfl⟩

end Sys2Proof.Machine
end

section
/-! The return from a trap (R245, R364). -/

namespace Sys2Proof.Machine

/-! The status word. -/

theorem getLsbD_of_mod {x y : W64} {n b : Nat} (h : x.toNat % 2 ^ n = y.toNat % 2 ^ n) (hb : b < n) : x.getLsbD b = y.getLsbD b := by
  have bits := congrArg (fun m => Nat.testBit m b) h
  simpa [Nat.testBit_mod_two_pow, hb, BitVec.getLsbD] using bits

theorem repFields_eq_iff (x y : W64) : repFields x = repFields y ↔ x.toNat / 2 ^ 45 = y.toNat / 2 ^ 45 := by
  have hx := x.isLt
  have hy := y.isLt
  rw [repFields, repFields, ← BitVec.toNat_inj, BitVec.toNat_ofNat, BitVec.toNat_ofNat]
  omega

theorem repFields_withRep (st r : W64) : repFields (withRep st (repLeft r) (repDone r) (repMask r) (repStep r)) = repFields r := by
  have hr := r.isLt
  rw [repFields_eq_iff, withRep, repLeft, repDone, repMask, repStep, BitVec.toNat_ofNat]
  unfold slice
  omega

/-- Does the batch hold a ticket? -/
def holdsSome (b : Batch) : Bool := match b.wait with | .ticket (some _) _ => true | _ => false

theorem holdsSome_iff (b : Batch) : holdsSome b = true ↔ ∃ n l, b.wait = .ticket (some n) l := by
  unfold holdsSome
  split
  · next n l h => simp [h]
  · next h => simpa using h

theorem fixTicket_stat (c : Crew) : (fixTicket c).stat.toNat
    = c.stat.toNat - c.stat.toNat / 2 ^ 44 % 2 * 2 ^ 44 + (if c.batches.any holdsSome then 2 ^ 44 else 0) := by
  have hn := c.stat.isLt
  show (BitVec.ofNat 64 (c.stat.toNat - c.stat.toNat / 2 ^ 44 % 2 * 2 ^ 44 + (if c.batches.any holdsSome then 2 ^ 44 else 0))).toNat = _
  rw [BitVec.toNat_ofNat]
  split <;> omega

theorem fixTicket_stat_low (c : Crew) {b : Nat} (hb : b < 44) : (fixTicket c).stat.getLsbD b = c.stat.getLsbD b := by
  refine getLsbD_of_mod ?_ hb
  rw [fixTicket_stat]
  split <;> omega

theorem repFields_fixTicket (c : Crew) : repFields (fixTicket c).stat = repFields c.stat := by
  rw [repFields_eq_iff, fixTicket_stat]
  split <;> omega

theorem fixTicket_ticket (c : Crew) :
    (fixTicket c).stat.getLsbD 44 = true ↔ ∃ b ∈ c.batches, ∃ n l, b.wait = .ticket (some n) l := by
  have any : c.batches.any holdsSome = true ↔ ∃ b ∈ c.batches, ∃ n l, b.wait = .ticket (some n) l := by
    simp only [List.any_eq_true, holdsSome_iff]
  rw [← any, BitVec.getLsbD, Nat.testBit_eq_decide_div_mod_eq, fixTicket_stat, decide_eq_true_iff]
  split
  · next h => simp only [h, iff_true]; omega
  · next h => simp only [h, iff_false, Bool.false_eq_true]; omega

/-! The crew that returns. -/

/-- Nothing but the view, the status word, the batches and what the end of a clause touches has changed. -/
def FrameOfReturn (c d : Crew) : Prop :=
  { d with trap := c.trap, priv := c.priv, stat := c.stat, batches := c.batches, cur := c.cur, mem := c.mem, memRow := c.memRow,
           yields := c.yields } = c

theorem FrameOfReturn.trans {c d e : Crew} (h : FrameOfReturn c d) (g : FrameOfReturn d e) : FrameOfReturn c e := by
  unfold FrameOfReturn at *
  rw [← g] at h
  exact h

theorem fixTicket_frame (c : Crew) : FrameOfReturn c (fixTicket c) := by
  unfold FrameOfReturn fixTicket
  rfl

theorem fixTicket_batches (c : Crew) : (fixTicket c).batches = c.batches := by unfold fixTicket; rfl
theorem fixTicket_trap (c : Crew) : (fixTicket c).trap = c.trap := by unfold fixTicket; rfl
theorem fixTicket_priv (c : Crew) : (fixTicket c).priv = c.priv := by unfold fixTicket; rfl

theorem without_groups {c : Crew} (h : c.groups = []) : { c with groups := [] } = c := by
  rw [← h]

theorem leaveTrap_frame (cycle : Nat) {c : Crew} (t : TrapState) (h : c.groups = []) : FrameOfReturn c (leaveTrap cycle c t) := by
  simp only [FrameOfReturn, leaveTrap, h, List.filter_nil, List.map_nil]
  exact without_groups h

theorem leaveTrap_groups (cycle : Nat) {c : Crew} (t : TrapState) (h : c.groups = []) : (leaveTrap cycle c t).groups = [] := by
  simp [leaveTrap, h]

theorem leaveTrap_batches (cycle : Nat) (c : Crew) (t : TrapState) : (leaveTrap cycle c t).batches = c.batches := by unfold leaveTrap; rfl
theorem leaveTrap_live (cycle : Nat) (c : Crew) (t : TrapState) : (leaveTrap cycle c t).live = c.live := by unfold leaveTrap; rfl
theorem leaveTrap_stat (cycle : Nat) (c : Crew) (t : TrapState) :
    (leaveTrap cycle c t).stat = withRep c.stat (repLeft t.rep) (repDone t.rep) (repMask t.rep) (repStep t.rep) := by unfold leaveTrap; rfl

theorem releaseHeld_of_no_rep (cycle : Nat) {c : Crew} (h : ∀ b ∈ c.batches, b.rep = false) : releaseHeld cycle c = c := by
  have quiet : ∀ b ∈ c.batches, inSeq false b = false := fun b hb => by simp [inSeq, h b hb]
  have none_held : ∀ l : List Batch, (∀ b ∈ l, inSeq false b = false) → placeOf (fun b => inSeq false b && b.wait == .repHold) l = none := by
    intro l
    induction l with
    | nil => exact fun _ => rfl
    | cons b l ih =>
      intro hl
      simp [placeOf, hl b (by simp), ih fun x hx => hl x (List.mem_cons_of_mem _ hx)]
  rw [releaseHeld, none_held _ quiet, if_neg]
  simp only [List.any_eq_true, not_exists, not_and]
  intro b hb
  simp [quiet b hb]

theorem mem_addBatch {l : List Batch} {b x : Batch} (h : x ∈ addBatch l b) : x ∈ l ∨ x = b := by
  unfold addBatch at h
  split at h
  · exact .inl h
  · simpa using h

theorem addBatch_of_ne {l : List Batch} {b : Batch} (h : b.mask ≠ 0#32) : addBatch l b = l ++ [b] := if_neg h

/-- The batch of the trap, ready at its word, with the fibres `m`. -/
def againBatch (cycle : Nat) (t : TrapState) (m : W32) : Batch :=
  { t.trap.batch with wait := .none, stale := true, readySince := cycle, mask := m }

/-- The fibres of the trap that issue its word again. -/
def againMask (c : Crew) (t : TrapState) (again : W32) : W32 :=
  t.trap.batch.mask &&& c.live &&& again &&& t.x &&& ~~~slotsMask (t.trap.moved.map (·.1))

/-- The fibres of the trap that go on after its word. -/
def pastMask (c : Crew) (t : TrapState) (again : W32) : W32 :=
  t.trap.batch.mask &&& c.live &&& ~~~againMask c t again &&& ~~~slotsMask (t.trap.moved.map (·.1)) &&& ~~~0#32

/-- The fibres of the trap that a control transfer had moved. -/
def movedOf (c : Crew) (t : TrapState) : List (Nat × Nat) := t.trap.moved.filter (fun e => (t.trap.batch.mask &&& c.live).getLsbD e.1)

/-- The batches of those fibres. -/
def movedBatches (cycle : Nat) (c : Crew) (t : TrapState) : List Batch :=
  ((movedOf c t).map (·.2)).eraseDups.map (fun pc =>
    afterClause cycle (againBatch cycle t t.trap.batch.mask) pc (slotsMask (((movedOf c t).filter (fun e => e.2 == pc)).map (·.1))))

/-- The crew with all fibres of the trap placed but those that go on after the word. -/
def resumedCrew (cycle : Nat) (c : Crew) (t : TrapState) (again : W32) : Crew :=
  { c with batches := addBatch (c.batches.filter (fun b => !b.handler) ++ movedBatches cycle c t) (againBatch cycle t (againMask c t again)),
           yields := c.yields || (!(movedOf c t).isEmpty && hdrYield t.trap.batch.hdr) }

theorem resumeTrap_header (cycle : Nat) {c : Crew} {t : TrapState} (again : W32) (hg : c.groups = []) (hh : t.trap.atHeader = true) :
    resumeTrap cycle c t again =
      { c with batches := addBatch (c.batches.filter (fun b => !b.handler)) (againBatch cycle t (t.trap.batch.mask &&& c.live)) } := by
  simp only [resumeTrap, hg, List.filter_nil, hh, if_true, againBatch]

theorem resumeTrap_word (cycle : Nat) {c : Crew} {t : TrapState} (again : W32) (hg : c.groups = []) (hh : t.trap.atHeader = false) :
    resumeTrap cycle c t again = if pastMask c t again = 0#32 then releaseHeld cycle (resumedCrew cycle c t again)
      else { advance cycle { resumedCrew cycle c t again with
                 batches := (resumedCrew cycle c t again).batches ++ [againBatch cycle t (pastMask c t again)] }
               (resumedCrew cycle c t again).batches.length with cur := none } := by
  simp only [resumeTrap, resumedCrew, movedBatches, movedOf, pastMask, againMask, againBatch, hg, List.filter_nil, List.map_nil,
    List.foldl_nil, hh, Bool.false_eq_true, if_false, List.append_nil]

theorem modAt_length_append {α : Type} (x : α) (f : α → α) : ∀ l : List α, modAt (l ++ [x]) l.length f = l ++ [f x]
  | [] => rfl
  | a :: l => congrArg (a :: ·) (modAt_length_append x f l)

/-- Outside a sequence the batch at the end of the list goes on to its next word. -/
theorem advance_last (cycle : Nat) (c : Crew) {l : List Batch} {b : Batch} (hr : b.rep = false) :
    (advance cycle { c with batches := l ++ [b] } l.length).batches = l ++ [nextWord cycle b] := by
  rw [advance_moves cycle _ l.length b (by simp) hr]
  exact modAt_length_append b _ l

theorem advance_stat (cycle : Nat) {c : Crew} {bi : Nat} {b : Batch} (h : c.batches[bi]? = some b) (hr : b.rep = false) :
    (advance cycle c bi).stat = c.stat := by
  simp [advance, h, hr]

/-- What ERET keeps of a crew that has left the trap. -/
structure Kept (c d : Crew) : Prop where
  frame : FrameOfReturn c d
  trap : d.trap = c.trap
  priv : d.priv = c.priv
  stat : d.stat = c.stat

theorem Kept.trans {c d e : Crew} (h : Kept c d) (g : Kept d e) : Kept c e :=
  ⟨h.frame.trans g.frame, g.trap.trans h.trap, g.priv.trans h.priv, g.stat.trans h.stat⟩

theorem Kept.batches (c : Crew) (l : List Batch) (m : Option Nat) : Kept c { c with batches := l, cur := m } := ⟨rfl, rfl, rfl, rfl⟩

theorem Kept.cur (c : Crew) (m : Option Nat) : Kept c { c with cur := m } := ⟨rfl, rfl, rfl, rfl⟩

theorem advance_kept (cycle : Nat) {c : Crew} {bi : Nat} {b : Batch} (h : c.batches[bi]? = some b) (hr : b.rep = false) :
    Kept c (advance cycle c bi) := by
  have keeps := advance_keeps cycle c bi
  have frame := congrArg (fun d : Crew => { d with trap := c.trap, priv := c.priv }) keeps
  have trap := congrArg Crew.trap keeps
  have priv := congrArg Crew.priv keeps
  exact ⟨frame, trap, priv, advance_stat cycle h hr⟩

theorem resumedCrew_no_rep {cycle : Nat} {c : Crew} {t : TrapState} {again : W32} (hr : ∀ b ∈ c.batches, b.rep = false)
    (ht : t.trap.batch.rep = false) : ∀ b ∈ (resumedCrew cycle c t again).batches, b.rep = false := by
  intro b hb
  rcases mem_addBatch hb with hb | rfl
  · rcases List.mem_append.1 hb with hb | hb
    · exact hr b (List.mem_filter.1 hb).1
    · obtain ⟨pc, -, rfl⟩ := List.mem_map.1 hb
      rfl
  · exact ht

theorem resumeTrap_kept {cycle : Nat} {c : Crew} {t : TrapState} {again : W32} (hg : c.groups = []) (hr : ∀ b ∈ c.batches, b.rep = false)
    (ht : t.trap.batch.rep = false) : Kept c (resumeTrap cycle c t again) := by
  cases hh : t.trap.atHeader
  case true =>
    rw [resumeTrap_header cycle again hg hh]
    exact ⟨rfl, rfl, rfl, rfl⟩
  case false =>
    rw [resumeTrap_word cycle again hg hh]
    split
    · rw [releaseHeld_of_no_rep cycle (resumedCrew_no_rep hr ht)]
      exact ⟨rfl, rfl, rfl, rfl⟩
    · have placed : Kept c { resumedCrew cycle c t again with
          batches := (resumedCrew cycle c t again).batches ++ [againBatch cycle t (pastMask c t again)] } := ⟨rfl, rfl, rfl, rfl⟩
      exact (placed.trans (advance_kept cycle (by simp) (show (againBatch cycle t (pastMask c t again)).rep = false from ht))).trans (Kept.cur _ none)

theorem resumeTrap_batches {cycle : Nat} {c : Crew} {t : TrapState} {again : W32} (hg : c.groups = []) (hh : t.trap.atHeader = false)
    (ht : t.trap.batch.rep = false) (hm : t.trap.moved = []) (hw : t.trap.batch.mask &&& c.live &&& again &&& t.x ≠ 0#32)
    (hp : t.trap.batch.mask &&& c.live &&& ~~~(t.trap.batch.mask &&& c.live &&& again &&& t.x) ≠ 0#32) :
    (resumeTrap cycle c t again).batches = c.batches.filter (fun b => !b.handler)
      ++ [againBatch cycle t (t.trap.batch.mask &&& c.live &&& again &&& t.x),
          nextWord cycle (againBatch cycle t (t.trap.batch.mask &&& c.live &&& ~~~(t.trap.batch.mask &&& c.live &&& again &&& t.x)))] := by
  have all : ∀ x : W32, x &&& ~~~0#32 = x := fun x => by rw [show ~~~0#32 = BitVec.allOnes 32 from rfl, BitVec.and_allOnes]
  have gone : slotsMask (t.trap.moved.map (·.1)) = 0#32 := by rw [hm]; rfl
  have redo : againMask c t again = t.trap.batch.mask &&& c.live &&& again &&& t.x := by rw [againMask, gone, all]
  have past : pastMask c t again = t.trap.batch.mask &&& c.live &&& ~~~(t.trap.batch.mask &&& c.live &&& again &&& t.x) := by
    rw [pastMask, redo, gone, all, all]
  have still : movedBatches cycle c t = [] := by simp [movedBatches, movedOf, hm]
  have placed : (resumedCrew cycle c t again).batches = c.batches.filter (fun b => !b.handler)
      ++ [againBatch cycle t (t.trap.batch.mask &&& c.live &&& again &&& t.x)] := by
    rw [resumedCrew, still, List.append_nil, redo]
    exact addBatch_of_ne hw
  rw [resumeTrap_word cycle again hg hh, past, if_neg hp]
  show (advance _ _ _).batches = _
  rw [advance_last cycle _ (show (againBatch cycle t _).rep = false from ht), placed, List.append_assoc]
  rfl

/-- The crew that stands at another header than the trapped one. -/
theorem redirectTrap_eq {cycle : Nat} {c : Crew} {t : TrapState} (pc : Nat) (hg : c.groups = []) (hr : ∀ b ∈ c.batches, b.rep = false)
    (ht : t.trap.batch.rep = false) :
    redirectTrap cycle c t pc = { c with
      batches := addBatch (c.batches.filter (fun b => !b.handler)) (headBatch pc (t.trap.batch.mask &&& c.live) .none cycle t.trap.batch.handler),
      cur := none } := by
  have quiet : ∀ b ∈ addBatch (c.batches.filter (fun b => !b.handler))
      (headBatch pc (t.trap.batch.mask &&& c.live) .none cycle t.trap.batch.handler), b.rep = false := by
    intro b hb
    rcases mem_addBatch hb with hb | rfl
    · exact hr b (List.mem_filter.1 hb).1
    · rfl
  simp only [redirectTrap, hg, ht, List.map_nil, List.filter_nil, Bool.false_and, Bool.false_eq_true, if_false]
  rw [releaseHeld_of_no_rep cycle quiet, ← hg]

/-- The crew after ERET, but for its ticket bit. -/
def returned (cycle : Nat) (t : TrapState) (again : W32) (c : Crew) : Crew :=
  if c.trappc.toNat = t.trap.t then resumeTrap cycle (leaveTrap cycle c t) t again
  else redirectTrap cycle (leaveTrap cycle c t) t c.trappc.toNat

theorem returned_kept {cycle : Nat} {c : Crew} {t : TrapState} {again : W32} (hg : c.groups = []) (hr : ∀ b ∈ c.batches, b.rep = false)
    (ht : t.trap.batch.rep = false) : Kept (leaveTrap cycle c t) (returned cycle t again c) := by
  have groups := leaveTrap_groups cycle t hg
  have reps : ∀ b ∈ (leaveTrap cycle c t).batches, b.rep = false := by rwa [leaveTrap_batches]
  unfold returned
  split
  · exact resumeTrap_kept groups reps ht
  · rw [redirectTrap_eq _ groups reps ht]
    exact .batches _ _ _

/-! The word. -/

/-- The checks of ERET. -/
def eretChecks (f : RRR) : WordSpec :=
  sysChecks f pNone { n := 1, g := false, k := true, p := false, sp := [0, 1] } pNone (noOpt f.opt.toNat) true true true

/-- ERET to the trapped word, or to a header that the cluster holds at hand. -/
theorem exec_eret_returns {f : RRR} {s : State} {a : At} {t : TrapState} (h : Passes s a (eretChecks f)) (ht : a.crew.trap = some t)
    (warm : a.crew.trappc.toNat ≠ t.trap.t → WarmTarget s a a.crew.trappc.toNat) :
    exec (.eret f) s = .next (updCrew s a.ref
      (fun c => fixTicket (returned s.cycle t (BitVec.ofNat 32 (opdVal s a ((active a f.gd).headD 0) f.a 1)) c))) := by
  obtain ⟨team, crew, -⟩ := issuer_parts h.here
  show execEret f s = _
  refine (issueWord_passes _ h).trans (congrArg _ ?_)
  rw [updCrew_eq_onCrew team crew, returned]
  simp only [ht]
  by_cases hpc : a.crew.trappc.toNat = t.trap.t
  · rw [if_pos hpc, if_pos hpc, updCrew_eq_onCrew team crew]
    rfl
  · rw [if_neg hpc, if_neg hpc, checkTarget_warm (warm hpc)]
    dsimp only
    have team' : teamOf (touched s a.ref.cl) a.ref.cl a.ref.ts = some a.team := by rw [teamOf, clusterOf_touched]; exact team
    rw [updCrew_eq_onCrew team' crew, onCrew_touched, clusterOf_touched]
    rfl

theorem exec_eret_traps {f : RRR} {s : State} {a : At} {t : TrapState} (h : Passes s a (eretChecks f)) (ht : a.crew.trap = some t)
    (hpc : a.crew.trappc.toNat ≠ t.trap.t) (hm : a.crew.trappc.toNat % 8 ≠ 0) :
    exec (.eret f) s = .next (raiseTrap s a
      (a.slots.map (fun i => (i, { targetFault .misaligned a.crew.trappc.toNat with pc := a.pc }))) (slotsMask a.slots) [] a.pc false) := by
  have ne : a.slots ≠ [] := by
    obtain ⟨j, hj⟩ := List.exists_mem_of_ne_nil _ h.act
    exact List.ne_nil_of_mem (mem_slots_of_active hj)
  show execEret f s = _
  refine (issueWord_passes _ h).trans (congrArg _ ?_)
  simp only [ht]
  rw [if_neg hpc, checkTarget, if_pos hm]
  dsimp only
  rw [finishTransfer_traps]
  · simp [stampPc, Function.comp_def]
  · simpa using ne
  · simp [targetFault, fault]

/-- Settles O37: the crew of ERET is the resumed or the redirected one, with its ticket bit set right. -/
theorem eretReturns : Obligations.EretReturns := by
  rintro f s a t m h ht rfl
  refine ⟨fun warm hr hg hb => ⟨_, exec_eret_returns h ht warm, ?_⟩, fun hpc hm => ?_⟩
  · have kept := returned_kept (cycle := s.cycle) (again := BitVec.ofNat 32 (opdVal s a ((active a f.gd).headD 0) f.a 1)) hg hr hb
    have groups := leaveTrap_groups s.cycle t hg
    have reps : ∀ b ∈ (leaveTrap s.cycle a.crew t).batches, b.rep = false := by rwa [leaveTrap_batches]
    have view : (leaveTrap s.cycle a.crew t).priv = if t.userView then false else a.crew.priv := by unfold leaveTrap; rfl
    have out : (leaveTrap s.cycle a.crew t).trap = none := by unfold leaveTrap; rfl
    refine ⟨(fixTicket_trap _).trans (kept.trap.trans out), (fixTicket_priv _).trans (kept.priv.trans view), fun b hb => ?low, ?ticket,
      ?fields, fun hpc hh hl => ?header, fun hpc hh hmv hw hp => ?word, fun hpc hl => ?other,
      (leaveTrap_frame s.cycle t hg).trans (kept.frame.trans (fixTicket_frame _))⟩
    case low => rw [fixTicket_stat_low _ hb, kept.stat, leaveTrap_stat, withRep_low _ _ _ _ _ _ (by omega)]
    case ticket => rw [fixTicket_ticket, fixTicket_batches]
    case fields => rw [repFields_fixTicket, kept.stat, leaveTrap_stat, repFields_withRep]
    all_goals rw [← leaveTrap_live s.cycle a.crew t, ← leaveTrap_batches s.cycle a.crew t, fixTicket_batches, returned]
    case header =>
      rw [if_pos hpc, resumeTrap_header _ _ groups hh]
      exact addBatch_of_ne (by rwa [againBatch, leaveTrap_live])
    case word =>
      rw [if_pos hpc]
      exact resumeTrap_batches groups hh hb hmv (by rwa [leaveTrap_live]) (by rwa [leaveTrap_live])
    case other =>
      rw [if_neg hpc, redirectTrap_eq _ groups reps hb]
      exact addBatch_of_ne (by rwa [headBatch, leaveTrap_live])
  · obtain ⟨team, crew, -⟩ := issuer_parts h.here
    have goes := exec_eret_traps h ht hpc hm
    rw [raiseTrap_eq_onCrew team crew] at goes
    refine ⟨_, _, goes, rfl, rfl, ?_, ?_, rfl⟩
    · simp [Function.comp_def]
    · intro e he
      obtain ⟨j, -, rfl⟩ := List.mem_map.1 he
      exact ⟨rfl, rfl, rfl⟩

end Sys2Proof.Machine
end

section
/-! One step, and what a fetch reads (R41, R45, R412). -/

namespace Sys2Proof.Machine

/-! Little-endian numbers. -/

theorem leNat_append (l m : List Byte) : leNat (l ++ m) = leNat l + 2 ^ (8 * l.length) * leNat m := by
  induction l with
  | nil => simp [leNat]
  | cons b l ih =>
    have cons (b : Byte) (k : List Byte) : leNat (b :: k) = b.toNat + 256 * leNat k := rfl
    have power : 2 ^ (8 * (b :: l).length) = 256 * 2 ^ (8 * l.length) := by
      rw [List.length_cons, Nat.mul_add, pow_add, Nat.mul_comm]
      rfl
    rw [List.cons_append, cons, cons, ih, power]
    ring

theorem leNat_lt (l : List Byte) : leNat l < 2 ^ (8 * l.length) := by
  induction l with
  | nil => simp [leNat]
  | cons b l ih =>
    have hb := b.isLt
    have power : 2 ^ (8 * (b :: l).length) = 256 * 2 ^ (8 * l.length) := by
      rw [List.length_cons, Nat.mul_add, pow_add, Nat.mul_comm]
      rfl
    show b.toNat + 256 * leNat l < _
    rw [power]
    omega

/-- The bytes from `l.length` on, as far as `m` goes. -/
theorem leNat_slice (l m r : List Byte) : leNat (l ++ m ++ r) / 2 ^ (8 * l.length) % 2 ^ (8 * m.length) = leNat m := by
  rw [List.append_assoc, leNat_append, Nat.add_mul_div_left _ _ (by positivity), Nat.div_eq_of_lt (leNat_lt l), Nat.zero_add, leNat_append,
    Nat.add_mul_mod_self_left, Nat.mod_eq_of_lt (leNat_lt m)]

theorem homeBytes_length (s : State) (k n : Nat) : (homeBytes s k n).length = n := by simp [homeBytes]

theorem homeBytes_add (s : State) (k n m : Nat) : homeBytes s k (n + m) = homeBytes s k n ++ homeBytes s (k + n) m := by
  simp [homeBytes, List.range_add, Nat.add_assoc]

theorem homeNat_lt (s : State) (k n : Nat) : homeNat s k n < 2 ^ (8 * n) := by
  have h := leNat_lt (homeBytes s k n)
  rwa [homeBytes_length] at h

theorem homeLine_lt (s : State) (k : Nat) : homeNat s k 64 < 2 ^ 512 :=
  Nat.lt_of_lt_of_eq (homeNat_lt s k 64) (congrArg (fun n => 2 ^ n) (show 8 * 64 = 512 from rfl))

/-- Eight aligned bytes out of the line that holds them. -/
theorem homeNat_word (s : State) {k : Nat} (hk : k % 8 = 0) :
    homeNat s (k / 64 * 64) 64 / 2 ^ (8 * (k % 64)) % 2 ^ 64 = homeNat s k 8 := by
  have at_ : k / 64 * 64 + k % 64 = k := by omega
  have len : k % 64 + 8 + (56 - k % 64) = 64 := by omega
  have bytes := homeBytes_add s (k / 64 * 64) (k % 64 + 8) (56 - k % 64)
  rw [len, homeBytes_add s _ (k % 64) 8, at_] at bytes
  have cut := leNat_slice (homeBytes s (k / 64 * 64) (k % 64)) (homeBytes s k 8) (homeBytes s (k / 64 * 64 + (k % 64 + 8)) (56 - k % 64))
  rw [← bytes, homeBytes_length, homeBytes_length] at cut
  exact cut

/-! What a fetch reads. -/

theorem homeNat_tlbFill (s : State) (x die : Nat) (e : TlbEntry) (k n : Nat) : homeNat (tlbFill s (some x) die e) k n = homeNat s k n := by
  unfold tlbFill updDie
  split <;> rfl

theorem behindIsolated_tlbFill (s : State) (x die : Nat) (e : TlbEntry) (k : Nat) :
    behindIsolated (tlbFill s (some x) die e) k = behindIsolated s k := by
  unfold tlbFill updDie
  split <;> rfl

theorem peerFault_tlbFill (s : State) (x die : Nat) (e : TlbEntry) (k : Nat) : peerFault (tlbFill s (some x) die e) k = peerFault s k := by
  unfold tlbFill updDie
  split <;> rfl

theorem icache_tlbFill (s : State) (x die : Nat) (e : TlbEntry) : (clusterOf (tlbFill s (some x) die e) x).icache = (clusterOf s x).icache := by
  unfold tlbFill
  dsimp only
  rw [clusterOf_updCluster]
  simp [clusterOf]

theorem toNat_ofNat_of_fits {n x : Nat} (h : x < 2 ^ n) : (BitVec.ofNat n x).toNat = x :=
  (BitVec.toNat_ofNat _ _).trans (Nat.mod_eq_of_lt h)

/-- A fetch through an entry of the TLB that misses the instruction cache reads the eight bytes at the home. -/
theorem fetch64_home {s : State} {cl ctx va : Nat} {e : TlbEntry} (low : va < 2 ^ 57) (hit : tlbHit (clusterOf s cl).tlb ctx va = some e)
    (ex : e.ex = true) (miss : look (clusterOf s cl).icache (locOf e va / 64 * 64) = none) (aligned : locOf e va % 8 = 0)
    (up : behindIsolated s (locOf e va) = false) (peer : peerFault s (locOf e va) = none) :
    (fetch64 s cl ctx va).2 = .ok (BitVec.ofNat 64 (homeNat s (locOf e va) 8)) := by
  have inside : ¬ va / 2 ^ 57 ≠ 0 := by omega
  have word : BitVec.ofNat 64 ((BitVec.ofNat 512 (homeNat s (locOf e va / 64 * 64) 64)).toNat / 2 ^ (8 * (locOf e va % 64)))
      = BitVec.ofNat 64 (homeNat s (locOf e va) 8) := by
    rw [toNat_ofNat_of_fits (homeLine_lt s (locOf e va / 64 * 64)), ← homeNat_word s aligned]
    exact BitVec.eq_of_toNat_eq (by rw [BitVec.toNat_ofNat, BitVec.toNat_ofNat, Nat.mod_mod])
  rw [fetch64, if_neg inside]
  simp only [xlate, translate, hit, ex, Bool.not_true, Bool.false_eq_true, if_false, icache_tlbFill, miss, behindIsolated_tlbFill, up,
    peerFault_tlbFill, peer, homeNat_tlbFill, word]

/-! The choice of the step. -/

theorem takeCommand_none {s : State} : ∀ {l : List OcconCmd}, (∀ x ∈ l, occonMay s x = false) → takeCommand s l = none
  | [], _ => rfl
  | k :: l, h => by
    have hk : occonMay s k = false := h k (by simp)
    have ih := takeCommand_none fun x hx => h x (List.mem_cons_of_mem k hx)
    simp [takeCommand, hk, ih]

theorem takeCommand_first {s : State} {k : OcconCmd} (m : List OcconCmd) (hk : occonMay s k = true) :
    ∀ {l : List OcconCmd}, (∀ x ∈ l, occonMay s x = false) → takeCommand s (l ++ k :: m) = some (k, l ++ m)
  | [], _ => by simp [takeCommand, hk]
  | j :: l, h => by
    have hj : occonMay s j = false := h j (by simp)
    have ih := takeCommand_first m hk fun x hx => h x (List.mem_cons_of_mem j hx)
    simp [takeCommand, hj, ih]

theorem mayEnter_iff (s : State) (i : Instr) :
    mayEnter s i = false ↔ s.boot.phase = .recovery ∧ ∀ l, i ≠ .packageReset l ∧ i ≠ .recoveryImageLoad l := by
  unfold mayEnter
  split <;> simp_all

/-- With no input and no command that Occon may carry out, and no event due, the step is the pick's or the end of the cycle. -/
theorem step_issues {s : State} (hi : s.inputs = []) (hc : ∀ x ∈ s.commands, occonMay s x = false) (hd : dueEvent s = none) :
    step s = (match nextIssue s with
      | (s, some (r, bi)) =>
        match issueStep { s with issue := some { crew := r, bi := bi } } r bi with
        | .stop s => .next s
        | .word s i u => afterIssue r bi u (exec i s)
      | (s, none) =>
        match lateEvent s with
        | some (b, i) => exec i (closeCycle { s with issue := b })
        | none => .next (passTime s)) := by
  simp only [step, hi, takeCommand_none hc, hd] <;> rfl

/-- The batch opens its clause's first word. -/
def opened (s : State) (r : CrewRef) (bi : Nat) (a : At) : State :=
  if a.b.next = 0 ∧ a.b.rep = false then
    updCrew s r (fun c => { c with batches := modAt c.batches bi (fun b => { b with opened := s.cycle }) })
  else s

theorem issueStep_header {s : State} {r : CrewRef} {bi : Nat} {a : At} (ha : atOf (firstIssue s r) r bi = some a)
    (h : a.b.begun = false ∨ a.b.stale = true) :
    issueStep s r bi = .word (firstIssue s r) .clauseBegin { port := none, cycles := 0, words := 0 } := by
  have head : (!a.b.begun || a.b.stale) = true := by simpa using h
  simp only [issueStep, ha, head, if_true]

theorem issueStep_word {s : State} {r : CrewRef} {bi : Nat} {a : At} (ha : atOf (firstIssue s r) r bi = some a)
    (hb : a.b.begun = true) (hs : a.b.stale = false) :
    issueStep s r bi = (match fetch64 (opened (firstIssue s r) r bi a) r.cl a.ctx a.pc with
      | (s, .error k) => .stop (fetchFail s a k)
      | (s, .ok w) =>
        .word s (if a.b.rep then .repeatIssue else if 1 < (wordsAt s a w.toNat).length then .fusedIssue else decodeWord w.toNat)
          (useOf a.b.mask w.toNat (wordsAt s a w.toNat))) := by
  have first : (a.b.next = 0 && !a.b.rep) = true ↔ a.b.next = 0 ∧ a.b.rep = false := by simp
  simp only [issueStep, ha, hb, hs, Bool.not_true, Bool.or_self, Bool.false_eq_true, if_false, opened, first] <;> rfl

theorem afterIssue_word {r : CrewRef} {bi : Nat} {u : WordUse} {t : State} (h : u.words ≠ 0) :
    afterIssue r bi u (.next t) = .next (if stalledAt t r bi then t else countIssue t r u) := by
  rw [afterIssue, if_neg h]
  split <;> rfl

/-- The step of a clause's beginning changes at most the picks. -/
theorem afterIssue_picks (r : CrewRef) (bi : Nat) (t : State) :
    ∃ l, afterIssue r bi { port := none, cycles := 0, words := 0 } (.next t) = .next { t with picks := l } := by
  simp only [afterIssue, if_true]
  split
  · split
    · exact ⟨_, rfl⟩
    · exact ⟨t.picks, rfl⟩
  · exact ⟨t.picks, rfl⟩

/-- Settles O3, clause by clause. -/
theorem stepRunsWhatIsNext : Obligations.StepRunsWhatIsNext := by
  refine ⟨fun s i l hi => ⟨fun hin hen => ?takes, fun h => ?drops⟩, mayEnter_iff, fun s k l m hi hk hl hm => ?command,
    fun s b i hi hc hd => ?event, fun s u hi hc hd hn => ⟨fun b i hl => ?late, fun hl => ?time⟩,
    fun s u p q r bi a hi hc hd hn hp ha hq => ⟨fun hb => ?begins, fun hb hs => ⟨fun k t hf => ?fails, fun w t n hf hw =>
      ⟨fun hr => ?repeats, fun hr h1 => ?fused, fun hr h1 => ?word⟩⟩⟩, fun _ _ _ _ => afterIssue_word, afterIssue_picks,
    fun s cl ctx va e low hit ex miss al up peer => ⟨_, Prod.ext rfl (fetch64_home low hit ex miss al up peer)⟩⟩
  case takes => simp [step, hi, hin, hen]
  case drops =>
    have no : (isInput i && mayEnter s i) = false := by rcases h with h | h <;> simp [h]
    simp [step, hi, no]
  case command => simp [step, hi, hk, takeCommand_first m hm hl]
  case event => simp [step, hi, takeCommand_none hc, hd]
  case late => rw [step_issues hi hc hd, hn]; simp only [hl]
  case time => rw [step_issues hi hc hd, hn]; simp only [hl]
  all_goals
    subst hp hq
    rw [step_issues hi hc hd, hn]
    dsimp only
  case begins => rw [issueStep_header ha hb]
  all_goals rw [issueStep_word ha hb hs, opened, hf]
  all_goals
    subst hw
    dsimp only
  case repeats => rw [if_pos hr]
  case fused => rw [if_neg (by simp [hr]), if_pos h1]
  case word => rw [if_neg (by simp [hr]), if_neg (by omega)]

end Sys2Proof.Machine
end

section
/-! The words that fuse (R57): how each runs, through the checks and with the yield that the statements give it. -/

namespace Sys2Proof.Machine

/-- `i` runs as `w` through the checks `sp`: each fibre's result is `run`, and `fin` puts the results in place. -/
structure RunsBy (fin : State → At → List (Nat × FOut) → State) (port : Nat) (i : Instr) (w : LocalWord) (sp : WordSpec)
    (run : State → At → Nat → FRes) : Prop where
  word : ∀ s, execWord i s = issueWord sp (fun a act s => fin s a (act.map (fun z => (z, .ok (run s a z))))) s
  exec : ∀ s, exec i s = execWord i s
  checks : w.sp = { port := some port, ct := false, gd := sp.gd, plain := false, legal := w.sp.legal, priv := false, regs := sp.regs, rel := false }
  sort : sp = { port := some port, ct := false, gd := sp.gd, plain := false, legal := sp.legal, priv := false, regs := sp.regs, rel := false }
  legal : ∀ n, w.sp.legal n = true → sp.legal n = true
  res : ∀ (s : State) (a : At) (z : Nat), w.sp.legal a.crew.win = true → run s a z = (w.y s a).res z
  preds : ∀ (s : State) (a : At) (z : Nat), ∀ e ∈ (w.y s a).preds z, ∀ e' ∈ (w.y s a).preds z, e.1 = e'.1 → e = e'

/-- `i` is a word of the port that runs as `w`. -/
def Runs (fin : State → At → List (Nat × FOut) → State) (port : Nat) (i : Instr) (w : LocalWord) : Prop :=
  ∃ sp run, RunsBy fin port i w sp run

section
variable {fin : State → At → List (Nat × FOut) → State} {port n : Nat} {i : Instr} {ok : Bool} {run : State → At → Nat → FRes}
  {v st : State → At → Nat → Nat}

/-- A word of format RRR. -/
theorem runs_rrr {f : RRR} {fm : RForm}
    (word : ∀ s, execWord i s = issueWord (rrrSpec fm f false false false) (fun a act s => fin s a (act.map (fun z => (z, .ok (run s a z))))) s)
    (exec_ : ∀ s, exec i s = execWord i s) (hp : fm.port = port) (hok : ok = true → (fm.ty && fm.opt) = true)
    (hr : ∀ (s : State) (a : At) (z : Nat), ok = true → posOk a.crew.win fm.c f.c = true → run s a z = res f.d n (v s a z) (st s a z)) :
    Runs fin port i { sp := rrrChecks port f fm.d fm.a fm.b fm.c ok, y := fun s a => yields f.d n (v s a) (st s a) } := by
  refine ⟨_, run, word, exec_, rfl, ?_, fun m hl => ?_, fun s a z hl => ?_, fun s a => preds_yields _ _ _ _⟩
  · rw [rrrSpec, hp]
  · simp only [rrrChecks, rrrSpec, Bool.and_true, Bool.and_eq_true] at hl
    obtain ⟨⟨⟨⟨good, d⟩, a⟩, b⟩, c⟩ := hl
    simp only [rrrSpec, hok good, d, a, b, c, Bool.and_true]
  · simp only [rrrChecks, rrrSpec, Bool.and_true, Bool.and_eq_true] at hl
    obtain ⟨⟨⟨⟨good, -⟩, -⟩, -⟩, c⟩ := hl
    rw [hr s a z good c, res_yields]

/-- A word of format RI17. -/
theorem runs_ri17 {f : RI17} {d a : Pos} {ok' : Bool} {r : Nat → Nat → FRes} (word : ∀ s, execWord i s = execRI17 d a ok' f r s)
    (exec_ : ∀ s, exec i s = execWord i s) (hok : ok = true → ok' = true)
    (hr : ∀ (s : State) (w : At) (z : Nat), ok = true → r (opdVal s w z f.a a.n) (immOf f) = res f.d n (v s w z) (st s w z)) :
    Runs finishWord 3 i { sp := ri17Checks f d a ok, y := fun s w => yields f.d n (v s w) (st s w) } := by
  refine ⟨_, fun s w z => r (opdVal s w z f.a a.n) (immOf f), word, exec_, rfl, rfl, fun m hl => ?_, fun s w z hl => ?_,
    fun s w => preds_yields _ _ _ _⟩
  · simp only [ri17Checks, Bool.and_eq_true] at hl
    obtain ⟨⟨good, d⟩, a⟩ := hl
    simp only [hok good, d, a, Bool.and_true]
  · simp only [ri17Checks, Bool.and_eq_true] at hl
    rw [hr s w z hl.1.1, res_yields]

/-- A word of format RI32. -/
theorem runs_ri32 {f : RI32} {r : Nat → Nat → FRes} (word : ∀ s, execWord i s = execRI32 true f r s) (exec_ : ∀ s, exec i s = execWord i s)
    (hr : ∀ (s : State) (w : At) (z : Nat), r (opdVal s w z (ri32A f) 1) f.imm.toNat = res (ri32Dst f) n (v s w z) (st s w z)) :
    Runs finishWord 3 i { sp := ri32Checks f, y := fun s w => yields (ri32Dst f) n (v s w) (st s w) } := by
  refine ⟨_, fun s w z => r (opdVal s w z (ri32A f) 1) f.imm.toNat, word, exec_, rfl, rfl, fun m hl => hl, fun s w z _ => ?_,
    fun s w => preds_yields _ _ _ _⟩
  rw [hr, res_yields]

end

/-! Integer words. -/

theorem pSrc_n (t : Nat) : (pSrc (tyWide t)).n = tyN t := by
  unfold pSrc tyN
  split <;> rfl

theorem satOrWrap_eq {o : Nat} (ho : o < 2) (t : Nat) (v : Int) :
    satOrWrap (o % 2 == 1) t v
      = (if (o == 1) = true then putOf t (satTy t v) else putOf t v, if (o == 1 && decide (satTy t v ≠ v)) = true then stSat else 0) := by
  rw [Nat.mod_eq_of_lt ho]
  cases o == 1 <;> simp [satOrWrap]

theorem runs_arith {i : Instr} {f : RRR} {v : Int → Int → Int} (word : ∀ s, execWord i s = execArith f 2 true false (fun a b _ => v a b) s)
    (exec_ : ∀ s, exec i s = execWord i s) : Runs finishWord 3 i (arithWord f 2 true false (fun a b _ => v a b)) := by
  refine runs_rrr (fm := formT f 2 true (satOnly f.opt.toNat)) word exec_ rfl (fun h => by simpa [formT, satOnly] using h) fun s a z good _ => ?_
  have opt : f.opt.toNat < 2 := by simp only [Bool.and_eq_true, decide_eq_true_eq, if_true] at good; exact good.2
  show arith f (v (srcOf f.ty.toNat (opdVal s a z f.a (pSrc (tyWide f.ty.toNat)).n)) (srcOf f.ty.toNat (opdVal s a z f.b (pSrc (tyWide f.ty.toNat)).n))) = _
  rw [pSrc_n, arith, satOrWrap_eq opt]
  rfl

theorem runs_arithI {i : Instr} {f : RI17} {v : Int → Int → Int} (word : ∀ s, execWord i s = execArithI f true v s)
    (exec_ : ∀ s, exec i s = execWord i s) : Runs finishWord 3 i (arithWordI f true v) := by
  refine runs_ri17 (d := pDst (tyWide f.ty.toNat)) (a := pSrc (tyWide f.ty.toNat)) (ok' := isIntTy f.ty.toNat && satOnly f.opt.toNat)
    (r := fun x y => res f.d (tyN f.ty.toNat) (satOrWrap (f.opt.toNat % 2 == 1) f.ty.toNat (v (srcOf f.ty.toNat x) (srcOf f.ty.toNat y))).1
      (satOrWrap (f.opt.toNat % 2 == 1) f.ty.toNat (v (srcOf f.ty.toNat x) (srcOf f.ty.toNat y))).2) word exec_ (fun h => h) fun s a z good => ?_
  have opt : f.opt.toNat < 2 := by simp only [Bool.and_eq_true, decide_eq_true_eq, if_true] at good; exact good.2
  dsimp only
  rw [pSrc_n, satOrWrap_eq opt]
  rfl

theorem runs_arithL {i : Instr} {f : RI32} {v : Int → Int → Int} (word : ∀ s, execWord i s = execArithL f v s)
    (exec_ : ∀ s, exec i s = execWord i s) : Runs finishWord 3 i (arithWordL f v) := by
  refine runs_ri32 word exec_ fun s a z => ?_
  rfl

theorem runs_bits {i : Instr} {f : RRR} {v : Nat → Nat → Nat} (word : ∀ s, execWord i s = execLogic f v s)
    (exec_ : ∀ s, exec i s = execWord i s) : Runs finishWord 3 i (bitsWord f 2 v) := by
  refine runs_rrr (fm := formT f 2 true (noOpt f.opt.toNat)) word exec_ rfl (fun h => by simpa [formT, noOpt] using h) fun s a z _ _ => ?_
  show res f.d _ (logic v f.ty.toNat (opdVal s a z f.a (pSrc (tyWide f.ty.toNat)).n) (opdVal s a z f.b (pSrc (tyWide f.ty.toNat)).n)) 0 = _
  rw [pSrc_n]
  rfl

theorem runs_bitsI {i : Instr} {f : RI17} {v : Nat → Nat → Nat} (word : ∀ s, execWord i s = execLogicI f v s)
    (exec_ : ∀ s, exec i s = execWord i s) : Runs finishWord 3 i (bitsWordI f v) := by
  refine runs_ri17 (d := pDst (tyWide f.ty.toNat)) (a := pSrc (tyWide f.ty.toNat)) (ok' := isIntTy f.ty.toNat && noOpt f.opt.toNat)
    (r := fun x y => res f.d (tyN f.ty.toNat) (logic v f.ty.toNat x y) 0) word exec_ (fun h => h) fun s a z _ => ?_
  rw [pSrc_n]
  rfl

theorem runs_bitsL {i : Instr} {f : RI32} {v : Nat → Nat → Nat} (word : ∀ s, execWord i s = execLogicL f v s)
    (exec_ : ∀ s, exec i s = execWord i s) : Runs finishWord 3 i (bitsWordL f v) := by
  refine runs_ri32 word exec_ fun s a z => ?_
  rfl

/-! Shifts: the model does not shift by a count at or above W. -/

theorem srcOf_emod (t x : Nat) : srcOf t x % (2 ^ tyW t : Int) = (x : Int) % (2 ^ tyW t : Int) := by
  unfold srcOf bitsOf sext
  dsimp only
  split
  · split <;> simp
  · simp

theorem wrapNat_srcOf (t : Nat) (v : Int) {k : Nat} (hk : k ≤ tyW t) : wrapNat k (srcOf t (wrapNat (tyW t) v)) = wrapNat k v := by
  have whole : srcOf t (wrapNat (tyW t) v) % (2 ^ tyW t : Int) = v % (2 ^ tyW t : Int) := by
    rw [srcOf_emod, wrapNat, Int.toNat_of_nonneg (Int.emod_nonneg _ (by positivity)), Int.emod_emod]
  have low := congrArg (· % (2 ^ k : Int)) whole
  simp only [Int.emod_emod_of_dvd _ (pow_dvd_pow (2 : Int) hk)] at low
  rw [wrapNat, low, wrapNat]

theorem putOf_wrapTy (t : Nat) (v : Int) : putOf t (wrapTy t v) = putOf t v := by
  unfold putOf
  split
  · next wide =>
    have w : t % 4 = 3 := by simpa [tyWide] using wide
    exact wrapNat_srcOf t v (by simp [tyW, w])
  · rw [wrapTy, wrapTy, wrapNat_srcOf t v le_rfl]

theorem srcOf_zero (t : Nat) : srcOf t 0 = 0 := by
  unfold srcOf bitsOf sext
  split <;> simp

theorem vShl_eq (t x n : Nat) : vShl t x n = shlVal t x n := by
  unfold vShl shlVal
  split
  · next h =>
    have out : wrapNat (tyW t) (srcOf t x * 2 ^ n) = 0 := by
      rw [wrapNat, Int.emod_eq_zero_of_dvd ((pow_dvd_pow (2 : Int) h).mul_left _)]
      rfl
    rw [wrapTy, out, srcOf_zero]
  · rw [putOf_wrapTy]

theorem runs_shl {i : Instr} {f : RRR} (word : ∀ s, execWord i s = execShift f vShl s)
    (exec_ : ∀ s, exec i s = execWord i s) : Runs finishWord 3 i (shiftWord f shlVal) := by
  refine runs_rrr (fm := { formT f 2 true (noOpt f.opt.toNat) with b := pSrc false }) word exec_ rfl
    (fun h => by simpa [formT, noOpt] using h) fun s a z _ _ => ?_
  show res f.d _ (vShl f.ty.toNat (opdVal s a z f.a (pSrc (tyWide f.ty.toNat)).n) (opdVal s a z f.b (pSrc false).n % 2 ^ 32)) 0 = _
  rw [pSrc_n, vShl_eq]
  rfl

theorem runs_shlI {i : Instr} {f : RI17} (word : ∀ s, execWord i s = execShiftI f vShl s)
    (exec_ : ∀ s, exec i s = execWord i s) : Runs finishWord 3 i (shiftWordI f shlVal) := by
  refine runs_ri17 (d := pDst (tyWide f.ty.toNat)) (a := pSrc (tyWide f.ty.toNat)) (ok' := isIntTy f.ty.toNat && noOpt f.opt.toNat)
    (r := fun x y => res f.d (tyN f.ty.toNat) (vShl f.ty.toNat x (y % 2 ^ 32)) 0) word exec_ (fun h => h) fun s a z _ => ?_
  rw [pSrc_n, vShl_eq]

/-! Comparison and selection. -/

theorem bNat_cmpHolds (cc : Nat) (x y : Int) : bNat (cmpHolds cc x y) = if (match cc with
    | 0 => x = y | 1 => x ≠ y | 2 => x < y | 3 => x ≤ y | 4 => y < x | _ => y ≤ x : Bool) then 1 else 0 := by
  match cc with
  | 0 | 1 | 2 | 3 | 4 => rfl
  | _ + 5 => rfl

theorem runs_sel (f : RRR) (w : LocalWord) (hw : localOf (.sel f) = some w) : Runs finishWord 3 (.sel f) w := by
  cases hw
  refine runs_rrr (fm := { formT f 2 true (noOpt f.opt.toNat) with c := pPred }) (fun _ => rfl) (fun _ => rfl) rfl
    (fun h => by simpa [formT, noOpt] using h) fun s a z _ pred => ?_
  have cls : f.c.cls = .p := by cases e : f.c.cls <;> simp [posOk, pPred, e] at pred ⊢
  have sel : opdVal s a z f.c pPred.n = bNat (pRead a.crew z f.c.num) := by simp [opdVal, readOpd, cls]
  show res f.d _ (putOf f.ty.toNat (srcOf f.ty.toNat (if opdVal s a z f.c pPred.n = 1 then opdVal s a z f.a (pSrc (tyWide f.ty.toNat)).n
    else opdVal s a z f.b (pSrc (tyWide f.ty.toNat)).n))) 0 = _
  rw [pSrc_n, sel]
  cases h : pRead a.crew z f.c.num <;> simp [bNat, srcAt]

theorem runs_cmp (f : RRR) (w : LocalWord) (hw : localOf (.cmpRRR f) = some w) : Runs finishWord 3 (.cmpRRR f) w := by
  cases hw
  refine runs_rrr (fm := { formT f 2 true (decide (f.opt.toNat < 6)) with d := pDst false }) (fun _ => rfl) (fun _ => rfl) rfl
    (fun h => by simpa [formT] using h) fun s a z _ _ => ?_
  show res f.d 1 (bNat (cmpHolds f.opt.toNat (srcOf f.ty.toNat (opdVal s a z f.a (pSrc (tyWide f.ty.toNat)).n))
    (srcOf f.ty.toNat (opdVal s a z f.b (pSrc (tyWide f.ty.toNat)).n)))) 0 = _
  rw [pSrc_n, bNat_cmpHolds]
  rfl

theorem runs_cmpI (f : RI17) (w : LocalWord) (hw : localOf (.cmpRI17 f) = some w) : Runs finishWord 3 (.cmpRI17 f) w := by
  cases hw
  refine runs_ri17 (d := pDst false) (a := pSrc (tyWide f.ty.toNat)) (ok' := isIntTy f.ty.toNat && decide (f.opt.toNat < 6))
    (r := fun x y => res f.d 1 (bNat (cmpHolds f.opt.toNat (srcOf f.ty.toNat x) (srcOf f.ty.toNat y))) 0) (fun _ => rfl) (fun _ => rfl)
    (fun h => h) fun s a z _ => ?_
  dsimp only
  rw [pSrc_n, bNat_cmpHolds]
  rfl

/-! Floating point. -/

theorem runs_float {i : Instr} {f : RRR} {op : FVal → FVal → FVal × Bool} (word : ∀ s, execWord i s = execFArith f 2 (fun a b _ => op a b) s)
    (exec_ : ∀ s, exec i s = execWord i s) : Runs finishWord 3 i (floatWord f 2 (fun a b _ => op a b)) := by
  refine runs_rrr (fm := fForm 3 2 (isFTy f.ty.toNat) (rmOnly f.opt.toNat)) word exec_ rfl (fun h => h) fun s a z _ _ => ?_
  rfl

theorem runs_packed {i : Instr} {f : RRR} {op : FVal → FVal → FVal × Bool} (word : ∀ s, execWord i s = execHp f 2 (fun a b _ => op a b) s)
    (exec_ : ∀ s, exec i s = execWord i s) : Runs finishWord 3 i (packedWord f 2 (fun a b _ => op a b)) := by
  refine runs_rrr (fm := fForm 3 2 (f.ty.toNat == 9 || f.ty.toNat == 10) (decide (f.opt.toNat < 16) && rmOnly (f.opt.toNat % 4))) word exec_ rfl
    (fun h => by simpa [fForm, rmOnly, and_assoc] using h) fun s a z good _ => ?_
  have opt : f.opt.toNat < 16 := by simp only [Bool.and_eq_true, decide_eq_true_eq] at good; exact good.1.2
  have sel : slice f.opt.toNat 2 2 = f.opt.toNat / 4 := by unfold slice; omega
  rw [sel]
  rfl

theorem runs_fcmp (f : RRR) (w : LocalWord) (hw : localOf (.fcmp f) = some w) : Runs finishWord 3 (.fcmp f) w := by
  cases hw
  exact runs_rrr (fm := { fForm 3 2 (isFTy f.ty.toNat) (decide (f.opt.toNat < 8)) with d := pDst false }) (fun _ => rfl) (fun _ => rfl) rfl
    (fun h => h) fun s a z _ _ => rfl

/-! Conversions. -/

theorem runs_fcvt (f : RRR) (w : LocalWord) (hw : laterOf (.fcvt f) = some w) : Runs finishPend 2 (.fcvt f) w := by
  cases hw
  have sel : slice f.opt.toNat 2 3 = f.opt.toNat / 4 := by have := f.opt.isLt; unfold slice; omega
  rw [sel]
  exact runs_rrr (fm := { port := 2, d := pDstG false, a := pGks, b := pNone, c := if rmodeOf f.opt.toNat = .rs then pGks else pNone,
                          ty := isFTy8 f.ty.toNat && decide (f.opt.toNat / 4 < 6), opt := true }) (fun _ => rfl) (fun _ => rfl) rfl (fun h => by simpa using h)
    fun s a z _ _ => rfl

/-- Byte `k` of `b` replaced by the low byte of `a`. -/
theorem replace_byte (a b k : Nat) :
    b - b / 2 ^ k % 256 * 2 ^ k + a % 256 * 2 ^ k = b % 2 ^ k + slice a 0 8 * 2 ^ k + b / 2 ^ (k + 8) * 2 ^ (k + 8) := by
  have word : b = b % 2 ^ k + b / 2 ^ k % 256 * 2 ^ k + b / 2 ^ (k + 8) * 2 ^ (k + 8) := by
    have mid : b / 2 ^ k = b / 2 ^ k % 256 + 256 * (b / 2 ^ (k + 8)) := by
      rw [pow_add, ← Nat.div_div_eq_div_mul]
      exact (Nat.mod_add_div _ _).symm
    calc b = b % 2 ^ k + 2 ^ k * (b / 2 ^ k) := (Nat.mod_add_div b (2 ^ k)).symm
      _ = b % 2 ^ k + 2 ^ k * (b / 2 ^ k % 256 + 256 * (b / 2 ^ (k + 8))) := by rw [← mid]
      _ = _ := by rw [show 2 ^ (k + 8) = 2 ^ k * 256 from pow_add 2 k 8]; ring
  have byte : slice a 0 8 = a % 256 := by simp [slice]
  rw [byte]
  generalize b / 2 ^ k % 256 * 2 ^ k = x at word ⊢
  generalize b / 2 ^ (k + 8) * 2 ^ (k + 8) = y at word ⊢
  generalize b % 2 ^ k = z at word ⊢
  omega

theorem runs_pack8 (f : RRR) (w : LocalWord) (hw : laterOf (.pack8 f) = some w) : Runs finishPend 2 (.pack8 f) w := by
  cases hw
  refine runs_rrr (fm := fForm 2 2 (f.ty.toNat == 0) (decide (f.opt.toNat < 4))) (fun _ => rfl) (fun _ => rfl) rfl (fun h => h)
    fun s a z _ _ => ?_
  rw [← replace_byte]
  rfl

/-! The words of a fused sequence. -/

/-- The first word of a sequence that fuses. -/
theorem runs_fuseHead {i : Instr} {v : LocalWord} (hf : (fuseHead i).isSome = true) (hv : localOf i = some v) : Runs finishWord 3 i v := by
  unfold fuseHead at hf
  split at hf
  · cases hv; exact runs_float (fun _ => rfl) (fun _ => rfl)
  · cases hv; exact runs_packed (fun _ => rfl) (fun _ => rfl)
  · exact runs_fcmp _ v hv
  · exact runs_cmp _ v hv
  · exact runs_cmpI _ v hv
  · cases hv; exact runs_shl (fun _ => rfl) (fun _ => rfl)
  · cases hv; exact runs_shlI (fun _ => rfl) (fun _ => rfl)
  · cases hv; exact runs_bits (fun _ => rfl) (fun _ => rfl)
  · cases hv; exact runs_bitsI (fun _ => rfl) (fun _ => rfl)
  · cases hv; exact runs_bitsL (fun _ => rfl) (fun _ => rfl)
  · cases hv
  · cases hf

theorem runs_selReads {d : Opd} {j : Instr} {g : Guard} {w : LocalWord} (h : selReads d j = some g) (hw : localOf j = some w) :
    Runs finishWord 3 j w := by
  unfold selReads at h
  split at h
  · exact runs_sel _ w hw
  · cases h

theorem runs_addReads {d : Opd} {j : Instr} {g : Guard} {w : LocalWord} (h : addReads d j = some g) (hw : localOf j = some w) :
    Runs finishWord 3 j w := by
  unfold addReads at h
  split at h
  · cases hw; exact runs_arith (fun _ => rfl) (fun _ => rfl)
  · cases hw; exact runs_arithI (fun _ => rfl) (fun _ => rfl)
  · cases hw; exact runs_arithL (fun _ => rfl) (fun _ => rfl)
  · cases h

theorem runs_cmpReads {d : Opd} {t : Nat} {j : Instr} {g : Guard} {w : LocalWord} (h : cmpReads d t j = some g) (hw : localOf j = some w) :
    Runs finishWord 3 j w := by
  unfold cmpReads at h
  split at h
  · exact runs_cmp _ w hw
  · exact runs_cmpI _ w hw
  · cases h

/-- The second word of a pair that fuses. -/
theorem runs_pairFuses {i j : Instr} {w : LocalWord} (hf : pairFuses i j = true) (hw : localOf j = some w) : Runs finishWord 3 j w := by
  obtain ⟨g, h⟩ : ∃ g, pairGuard i j = some g := by
    unfold pairFuses at hf
    split at hf
    · exact ⟨_, by simpa using hf⟩
    · cases hf
  unfold pairGuard at h
  split at h
  · cases h
  split at h
  · cases hw; exact runs_float (fun _ => rfl) (fun _ => rfl)
  · cases hw; exact runs_float (fun _ => rfl) (fun _ => rfl)
  · cases hw; exact runs_packed (fun _ => rfl) (fun _ => rfl)
  · exact runs_selReads h hw
  · exact runs_selReads h hw
  · exact runs_selReads h hw
  · split at h
    · exact runs_addReads h hw
    · cases h
  · split at h
    · exact runs_addReads h hw
    · cases h
  · exact runs_cmpReads h hw
  · exact runs_cmpReads h hw
  · exact runs_cmpReads h hw
  · cases h

end Sys2Proof.Machine
end

section
/-! A fused sequence: each word goes on as it would alone, and its results stand before the next (R57, R99). -/

namespace Sys2Proof.Machine

/-! The issue of a word that never releases, transfers or needs the privileged view. -/

section
variable {fin : State → At → List (Nat × FOut) → State} {port : Nat} {i : Instr} {w : LocalWord} {s : State} {a : At}

/-- The shared beginning of the checks. -/
structure Reached (s : State) (a : At) (port : Nat) (w : LocalWord) : Prop where
  here : issuer s = some a
  framed : framed a (some port) false = true
  legal : w.sp.legal a.crew.win = true

theorem Runs.issues (h : Runs fin port i w) (r : Reached s a port w) :
    exec i s = execWord i s ∧ execWord i s = (if active a w.sp.gd = [] then .next (updCrew s a.ref (fun c => advance s.cycle c a.bi))
      else if hazard a.crew (active a w.sp.gd) w.sp.regs then .next (waitAt s a .hazard false)
      else .next (fin s a ((active a w.sp.gd).map (fun z => (z, .ok ((w.y s a).res z)))))) := by
  obtain ⟨sp, run, word, exec_, checks, sort, legal, res_, -⟩ := h
  refine ⟨exec_ s, ?_⟩
  have gd := congrArg WordSpec.gd checks
  have regs := congrArg WordSpec.regs checks
  have good : sp.legal a.crew.win = true := legal _ r.legal
  have runs : ∀ z, run s a z = (w.y s a).res z := fun z => res_ s a z r.legal
  rw [word, gd, regs]
  generalize sp.legal = ok at good sort
  rw [sort]
  simp only [issueWord, r.here, r.framed, good, runs, Bool.not_true, Bool.false_and, Bool.false_eq_true, if_false, List.isEmpty_iff, skipWord]

theorem Runs.preds (h : Runs fin port i w) (s : State) (a : At) (z : Nat) :
    ∀ e ∈ (w.y s a).preds z, ∀ e' ∈ (w.y s a).preds z, e.1 = e'.1 → e = e' := by
  obtain ⟨_, _, r⟩ := h
  exact r.preds s a z

theorem Runs.framed (h : Runs fin port i w) (a : At) : framed a w.sp.port w.sp.ct = framed a (some port) false := by
  obtain ⟨_, _, r⟩ := h
  rw [r.checks]

theorem hazard_nil {c : Crew} (h : c.pend = []) (l : List Nat) (regs : List (Opd × Nat)) : hazard c l regs = false := by
  simp [hazard, h]

end

/-! What a word leaves of its crew. -/

/-- The batch has gone on by one word, and what the crew has pending besides is ready. -/
structure Ahead (s t : State) (a : At) (rf : Cells 32) (c : Crew) : Prop where
  state : t = onCrew s a.ref a.team rf c
  batches : c.batches = modAt a.crew.batches a.bi (fun _ => nextWord s.cycle a.b)
  trapWait : c.trapWait = a.crew.trapWait
  win : c.win = a.crew.win
  pend : ∀ p ∈ c.pend, p ∈ a.crew.pend ∨ p.ready = true

theorem laterPends_ready (d : Opd) (n : Nat) (l : List (Nat × Nat)) : ∀ p ∈ laterPends d n l, p.ready = true := by
  intro p hp
  unfold laterPends at hp
  split at hp
  · obtain ⟨e, -, h⟩ := List.mem_flatMap.1 hp
    obtain ⟨j, -, rfl⟩ := List.mem_map.1 h
    rfl
  · obtain ⟨e, -, h⟩ := List.mem_flatMap.1 hp
    obtain ⟨j, -, rfl⟩ := List.mem_map.1 h
    rfl
  · cases hp

theorem Wrote.ahead {s t : State} {a : At} {act : List Nat} {y : Yield} (h : Wrote s t a act y) (hb : a.crew.batches[a.bi]? = some a.b)
    (hr : a.b.rep = false) : ∃ rf c, Ahead s t a rf c := by
  obtain ⟨rf, c, rfl, after, -, -, -, -, frame⟩ := h
  have trap := congrArg Crew.trapWait frame
  have win := congrArg Crew.win frame
  have pend : c.pend = a.crew.pend := by have := congrArg Crew.pend frame; exact this
  exact ⟨rf, c, rfl, after.moved a.b hb hr, trap, win, fun p hp => .inl (pend ▸ hp)⟩

theorem Later.ahead {s t : State} {a : At} {act : List Nat} {y : Yield} (h : Later s t a act y) (hi : issuer s = some a)
    (hr : a.b.rep = false) : ∃ rf c, Ahead s t a rf c := by
  obtain ⟨F, rfl, after⟩ := h
  obtain ⟨ht, hc, hb⟩ := issuer_parts hi
  obtain ⟨moves, pend, frame⟩ := after a.crew
  have trap := congrArg Crew.trapWait frame
  have win := congrArg Crew.win frame
  refine ⟨_, _, updCrew_eq_onCrew ht hc F, moves.moved a.b hb hr, trap, win, fun p hp => ?_⟩
  rw [pend] at hp
  exact (List.mem_append.1 hp).imp id (laterPends_ready _ _ _ p)

/-- With no fibre to run, a word that goes on leaves nothing pending. -/
theorem Onward.later {s t : State} {a : At} (h : Onward s t a) (y : Yield) : Later s t a [] y := by
  obtain ⟨F, rfl, after⟩ := h
  refine ⟨F, rfl, fun c => ?_⟩
  obtain ⟨moves, pend, frame⟩ := after c
  have none (d : Opd) (n : Nat) : laterPends d n [] = [] := by unfold laterPends; split <;> rfl
  refine ⟨?_, by rw [pend, List.map_nil, List.map_nil, none, none], frame⟩
  exact {
    p := by simp
    pOther := fun i m _ => moves.pOther i m (by simp)
    st := fun b hb => by rw [moves.st b hb]; rfl
    moved := moves.moved
    memset := moves.memset
    stays := moves.stays
    yield := moves.yield }

/-! The results that have come stand. -/

theorem settleOne_shape {s x : State} {r : CrewRef} {t : Team} {rf : Cells 32} {c c0 : Crew} (ht : teamOf s r.cl r.ts = some t)
    (hc : t.crews[r.cr]? = some c0) (h : Shape s r t x rf c) (p : Pend) :
    ∃ rf' k', Shape s r t (settleOne x r p) rf' { c with k := k' } := by
  unfold settleOne
  split
  · exact ⟨rf, c.k, h⟩
  · split
    · exact ⟨_, c.k, h.setG ht hc _ _ _⟩
    · exact ⟨rf, _, h.upd' ht _⟩
    · exact ⟨rf, c.k, h⟩

theorem settleAll_shape {s : State} {r : CrewRef} {t : Team} {c0 : Crew} (ht : teamOf s r.cl r.ts = some t) (hc : t.crews[r.cr]? = some c0) :
    ∀ (l : List Pend) {x : State} {rf : Cells 32} {c : Crew}, Shape s r t x rf c →
      ∃ rf' k', Shape s r t (l.foldl (fun u p => settleOne u r p) x) rf' { c with k := k' }
  | [], _, rf, c, h => ⟨rf, c.k, h⟩
  | p :: l, x, rf, c, h => by
    obtain ⟨rf₁, k₁, h₁⟩ := settleOne_shape ht hc h p
    obtain ⟨rf₂, k₂, h₂⟩ := settleAll_shape ht hc l h₁
    exact ⟨rf₂, k₂, h₂⟩

/-- The crew with its ready results written. -/
def settledCrew (c : Crew) (k : Cells 32) : Crew := unhazard { c with k := k, pend := c.pend.filter (fun p => !p.ready) }

theorem settle_onCrew {s : State} {r : CrewRef} {t : Team} {c0 : Crew} (ht : teamOf s r.cl r.ts = some t) (hc : t.crews[r.cr]? = some c0)
    (rf : Cells 32) (c : Crew) : ∃ rf' k, settle (onCrew s r t rf c) r = onCrew s r t rf' (settledCrew c k) := by
  obtain ⟨rf', k, h⟩ := settleAll_shape ht hc (c.pend.filter (·.ready)) (.inr (.inr rfl) : Shape s r t (onCrew s r t rf c) rf c)
  refine ⟨rf', k, ?_⟩
  rw [settle, crewOf_onCrew hc]
  exact h.upd ht _

/-! The batch through its words. -/

/-- `b` is the place `a` after `k` of its words, with nothing pending. -/
structure Stands (a b : At) (k : Nat) : Prop where
  ref : b.ref = a.ref
  bi : b.bi = a.bi
  mask : b.b.mask = a.b.mask
  header : b.b.header = a.b.header
  hdr : b.b.hdr = a.b.hdr
  begun : b.b.begun = true
  rep : b.b.rep = false
  next : b.b.next = a.b.next + k
  win : b.crew.win = a.crew.win
  trapWait : b.crew.trapWait = a.crew.trapWait
  pend : b.crew.pend = []

theorem Stands.framed {a b : At} {k : Nat} (h : Stands a b k) (port : Option Nat) : framed b port false = framed a port false := by
  simp [Machine.framed, h.hdr]

theorem Stands.pc {a b : At} (h : Stands a b 1) (ha : a.b.begun = true) : b.pc = a.pc + 8 := by
  simp only [At.pc, batchPc, h.begun, ha, if_true, h.header, h.next]
  omega

theorem issue_of_issuer {s : State} {a : At} (h : issuer s = some a) : s.issue = some { crew := a.ref, bi := a.bi } := by
  unfold issuer at h
  split at h
  · cases h
  · next i hi =>
    split at h
    · cases h
    · split at h
      · cases h
      · split at h
        · cases h
        · cases h
          exact hi

theorem issuer_onCrew {s : State} {a : At} (hi : issuer s = some a) (rf : Cells 32) (c : Crew) {b : Batch} (hb : c.batches[a.bi]? = some b) :
    issuer (onCrew s a.ref a.team rf c)
      = some { ref := a.ref, bi := a.bi, team := { a.team with crews := modAt a.team.crews a.ref.cr (fun _ => c) }, crew := c, b := b } := by
  obtain ⟨-, hc, -⟩ := issuer_parts hi
  have here := issue_of_issuer hi
  have issue : (onCrew s a.ref a.team rf c).issue = some { crew := a.ref, bi := a.bi } := here
  simp [issuer, issue, teamOf_onCrew, modAt_const_get hc, hb]

/-- After a word the batch has gone on, as fusion asks. -/
theorem Stands.wentOn {a b : At} {k : Nat} {s t : State} {rf : Cells 32} {c : Crew} (h : Stands a b k) (hi : issuer s = some b)
    (hk : a.b.next + k ≤ hdrCount a.b.hdr) (g : Ahead s t b rf c) : wentOn t a (a.b.next + k) = true := by
  obtain ⟨-, hc, hb⟩ := issuer_parts hi
  have crew : crewOf t a.ref = some c := by rw [g.state, ← h.ref, crewOf_onCrew hc]
  have batch : c.batches[a.bi]? = some (nextWord s.cycle b.b) := by rw [g.batches, ← h.bi, modAt_const_get hb]
  have trap : c.trapWait = a.crew.trapWait := g.trapWait.trans h.trapWait
  simp only [Machine.wentOn, crew, batch, trap, beq_self_eq_true, Bool.true_and]
  unfold nextWord
  rw [h.hdr, h.next]
  split
  · simp [h.mask, h.header, h.begun]
  · have last : a.b.next + k = hdrCount a.b.hdr := by omega
    cases drain : hdrDrain a.b.hdr <;> simp [afterClause, headBatch, h.mask, h.hdr, drain, last]

theorem nextWord_within {b : Batch} (cycle : Nat) (h : b.next + 1 ≤ hdrCount b.hdr) :
    nextWord cycle b = { b with next := b.next + 1, rep := false, wait := .none, readySince := cycle } := if_pos h

/-- With its results written the batch stands at the next word. -/
theorem Stands.settles {a b : At} {k : Nat} {s t : State} {rf : Cells 32} {c : Crew} (h : Stands a b k) (hi : issuer s = some b)
    (hk : a.b.next + k + 1 ≤ hdrCount a.b.hdr) (g : Ahead s t b rf c) :
    ∃ d, issuer (settle t a.ref) = some d ∧ Stands a d (k + 1) := by
  obtain ⟨ht, hc, hb⟩ := issuer_parts hi
  obtain ⟨rf', k', settled⟩ := settle_onCrew ht hc rf c
  rw [← g.state, h.ref] at settled
  have within := nextWord_within s.cycle (b := b.b) (by rw [h.next, h.hdr]; exact hk)
  have batch : (settledCrew c k').batches[b.bi]? = some (nextWord s.cycle b.b) := by
    show (c.batches.map _)[b.bi]? = _
    rw [List.getElem?_map, g.batches, modAt_const_get hb, within]
    rfl
  have calm : (settledCrew c k').pend = [] := by
    refine List.filter_eq_nil_iff.2 fun p hp => ?_
    have ready : p.ready = true := (g.pend p hp).resolve_left (by simp [h.pend])
    simp [ready]
  rw [settled, ← h.ref]
  refine ⟨_, issuer_onCrew hi rf' _ batch, ?_⟩
  rw [within]
  exact {
    ref := h.ref
    bi := h.bi
    mask := h.mask
    header := h.header
    hdr := h.hdr
    begun := h.begun
    rep := rfl
    next := congrArg (· + 1) h.next
    win := g.win.trans h.win
    trapWait := g.trapWait.trans h.trapWait
    pend := calm }

/-! Which words fuse. -/

/-- A sequence that fuses: outside a REP sequence, a pair or a triple within the clause. -/
inductive FusedWords (a : At) : List Instr → Prop where
  | pair (i j : Instr) (head : (fuseHead i).isSome = true) (fuses : pairFuses i j = true) (rep : a.b.rep = false)
      (room : a.b.next + 1 ≤ hdrCount a.b.hdr) : FusedWords a [i, j]
  | triple (i j k : Instr) (head : (fuseHead i).isSome = true) (fuses : tripleFuses i j k = true) (rep : a.b.rep = false)
      (room : a.b.next + 2 ≤ hdrCount a.b.hdr) : FusedWords a [i, j, k]

theorem peekWord_within {s : State} {a : At} {n : Nat} {i : Instr} (h : peekWord s a n = some i) : n ≤ hdrCount a.b.hdr := by
  unfold peekWord at h
  split at h
  · cases h
  · omega

theorem fusable_fuses {s : State} {a : At} (h : fusable s a ≠ []) : FusedWords a (fusable s a) := by
  revert h
  unfold fusable
  split
  · exact fun h => absurd rfl h
  next rep =>
  split
  · exact fun h => absurd rfl h
  next i hi =>
  split
  · exact fun h => absurd rfl h
  next head =>
  have head : (fuseHead i).isSome = true := by cases e : fuseHead i <;> simp [e] at head ⊢
  have rep : a.b.rep = false := by simpa using rep
  split
  · exact fun h => absurd rfl h
  next j hj =>
  split
  · next fuses => exact fun _ => .pair i j head fuses rep (peekWord_within hj)
  split
  · split
    · next k hk =>
      split
      · next fuses => exact fun _ => .triple _ _ k head fuses rep (peekWord_within hk)
      · exact fun h => absurd rfl h
    · exact fun h => absurd rfl h
  · exact fun h => absurd rfl h

theorem tripleFuses_words {i j k : Instr} (h : tripleFuses i j k = true) :
    ∃ f g p, i = .fmul f ∧ j = .fcvt g ∧ k = .pack8 p := by
  unfold tripleFuses at h
  split at h
  · exact ⟨_, _, _, rfl, rfl, rfl⟩
  · cases h

/-! The issue of the sequence. -/

/-- The cluster counts the sequence. -/
def countFused (u : State) (a : At) : State := updCluster u a.ref.cl (fun c => { c with fused := (c.fused + 1) % 2 ^ 32 })

/-- What comes of a sequence is what comes of its words in order. -/
theorem fusedTry_eq {s : State} {a : At} (hi : issuer s = some a) (ne : fusable s a ≠ []) :
    fusedTry s = (runFused a a.b.next (fusable s a) s).map (fun r => match r with
      | .done u => .done (if (fusable s a).length = 3 then pendTriple a (fusable s a) u else u)
      | .hazard => .hazard) := by
  rw [fusedTry, hi]
  dsimp only
  split
  · next h => exact absurd h ne
  · rfl

theorem exec_fusedIssue_done {s u : State} {a : At} {l : List Instr} (hi : issuer s = some a) (hl : fusable s a = l) (ne : l ≠ [])
    (run : runFused a a.b.next l s = some (.done u)) :
    exec .fusedIssue s = .next (countFused (if l.length = 3 then pendTriple a l u else u) a) := by
  subst hl
  show execFusedIssue s = _
  rw [execFusedIssue, hi, fusedTry_eq hi ne, run]
  rfl

theorem exec_fusedIssue_hazard {s : State} {a : At} {l : List Instr} (hi : issuer s = some a) (hl : fusable s a = l) (ne : l ≠ [])
    (run : runFused a a.b.next l s = some .hazard) : exec .fusedIssue s = .next (waitAt s a .hazard false) := by
  subst hl
  show execFusedIssue s = _
  rw [execFusedIssue, hi, fusedTry_eq hi ne, run]
  rfl

theorem runFused_cons {a : At} {n : Nat} {i : Instr} {l : List Instr} {s t : State} (ht : execWord i s = .next t) (hw : wentOn t a n = true) :
    runFused a n (i :: l) s = runFused a (n + 1) l (settle t a.ref) := by
  rw [runFused, ht]
  dsimp only
  rw [if_pos hw]

/-! A word of the sequence. -/

/-- The word answers `t`, in which its results stand; where no fibre runs it, the batch has only gone on. -/
def Instantly (s t : State) (a : At) (i : Instr) (w : LocalWord) : Prop :=
  exec i s = .next t ∧ (active a w.sp.gd ≠ [] → Wrote s t a (active a w.sp.gd) (w.y s a)) ∧ (active a w.sp.gd = [] → Onward s t a)

/-- The word answers `t`, in which its results are pending. -/
def Deferred (s t : State) (a : At) (i : Instr) (w : LocalWord) : Prop :=
  exec i s = .next t ∧ Later s t a (active a w.sp.gd) (w.y s a)

/-- A word with nothing pending in its way goes on; where no fibre runs it, it does nothing more. -/
theorem runs_local {i : Instr} {w : LocalWord} {s : State} {a : At} (h : Runs finishWord 3 i w) (r : Reached s a 3 w)
    (free : hazard a.crew (active a w.sp.gd) w.sp.regs = false) (rep : a.b.rep = false) :
    ∃ t rf c, execWord i s = .next t ∧ Ahead s t a rf c ∧ Instantly s t a i w := by
  obtain ⟨same, goes⟩ := h.issues r
  obtain ⟨-, -, hb⟩ := issuer_parts r.here
  rw [free, if_neg Bool.false_ne_true] at goes
  by_cases none : active a w.sp.gd = []
  · rw [if_pos none] at goes
    have on : Onward s _ a := onward_advance s a
    obtain ⟨rf, c, ahead⟩ := Later.ahead on r.here rep
    exact ⟨_, rf, c, goes, ahead, same.trans goes, fun h => absurd none h, fun _ => on⟩
  · rw [if_neg none] at goes
    have wrote := finishWord_wrote (act := active a w.sp.gd) (y := w.y s a) r.here (mask_ne_zero_of_active none) fun z _ => h.preds s a z
    obtain ⟨rf, c, ahead⟩ := wrote.ahead hb rep
    exact ⟨_, rf, c, goes, ahead, same.trans goes, fun _ => wrote, fun h => absurd h none⟩

/-- The same of a word of variable latency. -/
theorem runs_later {i : Instr} {w : LocalWord} {s : State} {a : At} (h : Runs finishPend 2 i w) (r : Reached s a 2 w)
    (free : hazard a.crew (active a w.sp.gd) w.sp.regs = false) (rep : a.b.rep = false) :
    ∃ t rf c, execWord i s = .next t ∧ Ahead s t a rf c ∧ Deferred s t a i w := by
  obtain ⟨same, goes⟩ := h.issues r
  rw [free, if_neg Bool.false_ne_true] at goes
  have later : ∃ t, execWord i s = .next t ∧ Later s t a (active a w.sp.gd) (w.y s a) := by
    by_cases none : active a w.sp.gd = []
    · rw [if_pos none] at goes
      rw [none]
      exact ⟨_, goes, (onward_advance s a).later _⟩
    · rw [if_neg none] at goes
      exact ⟨_, goes, finishPend_later (mask_ne_zero_of_active none) none fun z _ => h.preds s a z⟩
  obtain ⟨t, goes, later⟩ := later
  obtain ⟨rf, c, ahead⟩ := later.ahead r.here rep
  exact ⟨t, rf, c, goes, ahead, same.trans goes, later⟩

theorem Stands.start {a : At} (hb : a.b.begun = true) (hr : a.b.rep = false) (hp : a.crew.pend = []) : Stands a a 0 :=
  ⟨rfl, rfl, rfl, rfl, rfl, hb, hr, rfl, rfl, rfl, hp⟩

theorem Stands.reached {a b : At} {k port : Nat} {s : State} {w : LocalWord} (h : Stands a b k) (hi : issuer s = some b)
    (hf : Machine.framed a (some port) false = true) (hl : w.sp.legal a.crew.win = true) : Reached s b port w :=
  ⟨hi, (h.framed _).trans hf, by rwa [h.win]⟩

/-- A pending register of the first word: the sequence waits. -/
theorem fused_waits {s : State} {a : At} {i : Instr} {l : List Instr} {v : LocalWord} (hi : issuer s = some a) (hb : a.b.begun = true)
    (hl : fusable s a = i :: l) (h : Runs finishWord 3 i v) (r : Reached s a 3 v) (some_ : active a v.sp.gd ≠ [])
    (held : hazard a.crew (active a v.sp.gd) v.sp.regs = true) : exec .fusedIssue s = .next (waitAt s a .hazard false) := by
  obtain ⟨ht, hc, hbi⟩ := issuer_parts hi
  obtain ⟨-, goes⟩ := h.issues r
  rw [if_neg some_, if_pos held] at goes
  have crew : crewOf (waitAt s a .hazard false) a.ref
      = some { a.crew with batches := modAt a.crew.batches a.bi (fun b => { b with wait := .hazard }), cur := a.crew.cur } := by
    rw [waitAt, updCrew_eq_onCrew ht hc, crewOf_onCrew hc]
    rfl
  have batch : (modAt a.crew.batches a.bi (fun b => { b with wait := .hazard }))[a.bi]? = some { a.b with wait := .hazard } := by
    rw [modAt_get_same, hbi]
    rfl
  have off : wentOn (waitAt s a .hazard false) a a.b.next = false := by simp [wentOn, crew, batch]
  have stuck : stuckAt (waitAt s a .hazard false) a a.b.next = true := by simp [stuckAt, crew, batch, hb]
  refine exec_fusedIssue_hazard hi hl (by simp) ?_
  rw [runFused, goes]
  dsimp only
  rw [off, stuck, if_neg Bool.false_ne_true, if_pos rfl]

/-! The triple's destinations (R158). -/

/-- The pending results of a triple's destinations, for the fibres `act`. -/
def triplePends (act : List Nat) (cl : Cluster) (c : Crew) (d : Opd) : List Pend :=
  match d.cls with
  | .g => act.map (fun z => { dst := .g z d.num, val := some (gRead cl c z d.num), ready := true })
  | .k => (act.take 1).map (fun _ => { dst := .k d.num, val := some (cRead c.k d.num), ready := true })
  | _ => []

/-- The crew with its triple's destinations pending. -/
def tripleCrew (act : List Nat) (cl : Cluster) (l : List Opd) (c : Crew) : Crew :=
  { c with pend := c.pend ++ l.flatMap (triplePends act cl c) }

theorem pendTriple_eq (a : At) (f g p : RRR) (u : State) : pendTriple a [.fmul f, .fcvt g, .pack8 p] u
    = updCrew u a.ref (tripleCrew (active a f.gd) (clusterOf u a.ref.cl) [f.d, g.d, p.d]) := rfl

theorem triplePends_spec {act : List Nat} {cl : Cluster} {c : Crew} {d : Opd} {p : Pend} (h : p ∈ triplePends act cl c d) :
    p.ready = true ∧ ((∃ z, p.dst = .g z d.num) ∨ p.dst = .k d.num) := by
  unfold triplePends at h
  split at h
  · obtain ⟨z, -, rfl⟩ := List.mem_map.1 h
    exact ⟨rfl, .inl ⟨z, rfl⟩⟩
  · obtain ⟨z, -, rfl⟩ := List.mem_map.1 h
    exact ⟨rfl, .inr rfl⟩
  · cases h

theorem mem_triplePends {act : List Nat} (cl : Cluster) (c : Crew) {d : Opd} (hd : d.cls = .g) {z : Nat} (hz : z ∈ act) :
    { dst := .g z d.num, val := some (gRead cl c z d.num), ready := true } ∈ triplePends act cl c d := by
  simp only [triplePends, hd]
  exact List.mem_map_of_mem hz

theorem Ahead.settled_crew {s t : State} {a : At} {rf : Cells 32} {c : Crew} (g : Ahead s t a rf c) (hi : issuer s = some a) :
    ∃ c', crewOf (settle t a.ref) a.ref = some c' := by
  obtain ⟨ht, hc, -⟩ := issuer_parts hi
  obtain ⟨rf', k, settled⟩ := settle_onCrew ht hc rf c
  exact ⟨_, by rw [g.state, settled, crewOf_onCrew hc]⟩

/-- A pair issues as its two words in order. -/
theorem fused_pair {s : State} {a : At} {i j : Instr} {v w : LocalWord} (hl : fusable s a = [i, j]) (start : Stands a a 0)
    (room : a.b.next + 1 ≤ hdrCount a.b.hdr) (hv : Runs finishWord 3 i v) (hw : Runs finishWord 3 j w) (pass : Passes s a v.sp)
    (legal : w.sp.legal a.crew.win = true) :
    ∃ t u b, Instantly s t a i v ∧ issuer (settle t a.ref) = some b ∧ b.pc = a.pc + 8 ∧ Instantly (settle t a.ref) u b j w
      ∧ exec .fusedIssue s = .next (countFused (settle u a.ref) a) := by
  have framed : framed a (some 3) false = true := (hv.framed a).symm.trans pass.framed
  obtain ⟨t, _, _, run₁, ahead₁, then₁⟩ := runs_local hv (start.reached pass.here framed pass.legal) pass.free start.rep
  obtain ⟨b, hb, stands⟩ := start.settles pass.here room ahead₁
  obtain ⟨u, _, _, run₂, ahead₂, then₂⟩ := runs_local hw (stands.reached hb framed legal) (hazard_nil stands.pend _ _) stands.rep
  have went₁ : wentOn t a a.b.next = true := start.wentOn pass.here (by omega) ahead₁
  have went₂ : wentOn u a (a.b.next + 1) = true := stands.wentOn hb room ahead₂
  have run : runFused a a.b.next [i, j] s = some (.done (settle u a.ref)) := by
    rw [runFused_cons run₁ went₁, runFused_cons run₂ went₂, runFused]
  exact ⟨t, u, b, then₁, hb, stands.pc start.begun, then₂, exec_fusedIssue_done pass.here hl (by simp) run⟩

/-- FMUL, FCVT and PACK8 issue in order, and their destinations are pending together. -/
theorem fused_triple {s : State} {a : At} {f g p : RRR} {v w x : LocalWord} (hl : fusable s a = [.fmul f, .fcvt g, .pack8 p])
    (start : Stands a a 0) (room : a.b.next + 2 ≤ hdrCount a.b.hdr) (hv : Runs finishWord 3 (.fmul f) v) (hw : Runs finishPend 2 (.fcvt g) w)
    (hx : Runs finishPend 2 (.pack8 p) x) (pass : Passes s a v.sp) (framed₂ : framed a (some 2) false = true)
    (legal₂ : w.sp.legal a.crew.win = true) (legal₃ : x.sp.legal a.crew.win = true) :
    ∃ t u y b d c, Instantly s t a (.fmul f) v ∧ issuer (settle t a.ref) = some b ∧ Deferred (settle t a.ref) u b (.fcvt g) w
      ∧ issuer (settle u a.ref) = some d ∧ Deferred (settle u a.ref) y d (.pack8 p) x ∧ crewOf (settle y a.ref) a.ref = some c
      ∧ exec .fusedIssue s = .next (countFused (updCrew (settle y a.ref) a.ref
          (tripleCrew (active a f.gd) (clusterOf (settle y a.ref) a.ref.cl) [f.d, g.d, p.d])) a) := by
  have framed₁ : framed a (some 3) false = true := (hv.framed a).symm.trans pass.framed
  obtain ⟨t, _, _, run₁, ahead₁, then₁⟩ := runs_local hv (start.reached pass.here framed₁ pass.legal) pass.free start.rep
  obtain ⟨b, hb, stands₁⟩ := start.settles pass.here (by omega) ahead₁
  obtain ⟨u, _, _, run₂, ahead₂, then₂⟩ := runs_later hw (stands₁.reached hb framed₂ legal₂) (hazard_nil stands₁.pend _ _) stands₁.rep
  obtain ⟨d, hd, stands₂⟩ := stands₁.settles hb (by omega) ahead₂
  obtain ⟨y, _, _, run₃, ahead₃, then₃⟩ := runs_later hx (stands₂.reached hd framed₂ legal₃) (hazard_nil stands₂.pend _ _) stands₂.rep
  obtain ⟨c, crew⟩ := ahead₃.settled_crew hd
  rw [stands₂.ref] at crew
  have went₁ : wentOn t a a.b.next = true := start.wentOn pass.here (by omega) ahead₁
  have went₂ : wentOn u a (a.b.next + 1) = true := stands₁.wentOn hb (by omega) ahead₂
  have went₃ : wentOn y a (a.b.next + 1 + 1) = true := stands₂.wentOn hd room ahead₃
  have run : runFused a a.b.next [.fmul f, .fcvt g, .pack8 p] s = some (.done (settle y a.ref)) := by
    rw [runFused_cons run₁ went₁, runFused_cons run₂ went₂, runFused_cons run₃ went₃, runFused]
  have goes := exec_fusedIssue_done pass.here hl (by simp) run
  rw [if_pos (show [Instr.fmul f, .fcvt g, .pack8 p].length = 3 from rfl), pendTriple_eq] at goes
  exact ⟨t, u, y, b, d, c, then₁, hb, then₂, hd, then₃, crew, goes⟩

/-- Settles O23: each word of the sequence passes its checks where the one before it has left the batch. -/
theorem fusedWordsRunInOrder : Obligations.FusedWordsRunInOrder := by
  unfold Obligations.FusedWordsRunInOrder
  intro calm fusedOnce then_ thenLater
  refine ⟨fun s a i j v w hi hb quiet hl hv hw pass legal => ?pair,
    fun s a i j k v w x hi hb quiet hl hv hw hx pass framed₂ legal₂ legal₃ => ?triple,
    fun s a i l v hi hb hl hv framed₁ some_ legal held => ?waits⟩
  all_goals
    have words := fusable_fuses (s := s) (a := a) (by simp [hl])
    rw [hl] at words
  case pair =>
    cases words with
    | pair _ _ head fuses rep room =>
      exact fused_pair hl (.start hb rep quiet) room (runs_fuseHead head hv) (runs_pairFuses fuses hw) pass legal
  case triple =>
    cases words with
    | triple _ _ _ head fuses rep room =>
      obtain ⟨f, g, p, rfl, rfl, rfl⟩ := tripleFuses_words fuses
      obtain ⟨t, u, y, b, d, c, then₁, hb₁, then₂, hb₂, then₃, crew, goes⟩ := fused_triple hl (.start hb rep quiet) room
        (runs_fuseHead head hv) (runs_fcvt g w hw) (runs_pack8 p x hx) pass framed₂ legal₂ legal₃
      refine ⟨t, u, y, b, d, c, _, then₁, hb₁, then₂, hb₂, then₃, crew, goes, ⟨_, rfl, fun q hq => ?ready, ?holds, fun q hq => ?only⟩, rfl⟩
      case ready =>
        obtain ⟨o, -, ho⟩ := List.mem_flatMap.1 hq
        exact (triplePends_spec ho).1
      case holds =>
        intro g' h' n' head' o ho cls z hz
        cases head'
        exact List.mem_flatMap.2 ⟨o, ho, mem_triplePends _ c cls hz⟩
      case only =>
        obtain ⟨o, ho, h⟩ := List.mem_flatMap.1 hq
        exact ⟨o, ho, (triplePends_spec h).2⟩
  case waits =>
    have head : (fuseHead i).isSome = true := by cases words <;> assumption
    have first := runs_fuseHead head hv
    have framed₂ : framed a (some 3) false = true := (first.framed a).symm.trans framed₁
    exact fused_waits hi hb hl first ⟨hi, framed₂, legal⟩ some_ held

end Sys2Proof.Machine
end

section
/-! A gathering word whose batch is the whole group (R126): it parks, its group is full, and the word completes for it at once. -/

namespace Sys2Proof.Machine

/-! Lists in which one place alone is changed. -/

theorem find?_modAt_only {α : Type} {p : α → Bool} {f : α → α} {x : α} : ∀ {l : List α} {i : Nat}, l[i]? = some x →
    (∀ y ∈ l, p y = false) → p (f x) = true → (modAt l i f).find? p = some (f x)
  | [], _, h, _, _ => by simp at h
  | y :: l, 0, h, _, hx => by
    obtain rfl : y = x := by simpa using h
    simp [modAt, hx]
  | y :: l, i + 1, h, only, hx => by
    have rest := find?_modAt_only (l := l) (i := i) (by simpa using h) (fun z hz => only z (List.mem_cons_of_mem _ hz)) hx
    simp [modAt, only y (by simp), rest]

theorem filter_modAt_only {α : Type} {p : α → Bool} {f : α → α} {x : α} : ∀ {l : List α} {i : Nat}, l[i]? = some x →
    (∀ y ∈ l, p y = false) → p (f x) = true → (modAt l i f).filter (fun y => !p y) = delAt l i
  | [], _, h, _, _ => by simp at h
  | y :: l, 0, h, only, hx => by
    obtain rfl : y = x := by simpa using h
    have all : l.filter (fun y => !p y) = l := List.filter_eq_self.2 fun z hz => by simp [only z (by simp [hz])]
    simp [modAt, delAt, hx, all]
  | y :: l, i + 1, h, only, hx => by
    have rest := filter_modAt_only (l := l) (i := i) (by simpa using h) (fun z hz => only z (List.mem_cons_of_mem _ hz)) hx
    simp [modAt, delAt, only y (by simp), rest]

theorem placeOf_none {α : Type} {p : α → Bool} : ∀ {l : List α}, (∀ x ∈ l, p x = false) → placeOf p l = none
  | [], _ => rfl
  | x :: l, h => by simp [placeOf, h x (by simp), placeOf_none (l := l) fun y hy => h y (by simp [hy])]

/-! The arrival. -/

/-- A word on a crew that is known may be stated by that crew's change alone. -/
theorem updCrew_congr {s : State} {a : At} (hi : issuer s = some a) {f g : Crew → Crew} (h : f a.crew = g a.crew) :
    updCrew s a.ref f = updCrew s a.ref g := by
  obtain ⟨ht, hc, -⟩ := issuer_parts hi
  rw [updCrew_eq_onCrew ht hc, updCrew_eq_onCrew ht hc, h]

theorem slotsMask_slots (a : At) : slotsMask a.slots = a.b.mask :=
  slotsMask_eq_of_mem fun i hi => by simp [At.slots, mem_maskSlots, hi]

theorem getLsbD_of_named {a : At} {m : W32} (h : a.b.mask &&& ~~~m = 0#32) {i : Nat} (hi : i ∈ a.slots) : m.getLsbD i = true := by
  obtain ⟨lt, bit⟩ := mem_maskSlots.1 hi
  have out := congrArg (fun x : W32 => x.getLsbD i) h
  simpa [bit, lt] using out

/-- A batch that the mask names whole parks in the group (R126); as a repeat it does so where no named LIVE fibre is missing (R122). -/
theorem gather_named {s : State} {a : At} {m : W32} (i : Instr) (hi : issuer s = some a) (named : a.b.mask &&& ~~~m = 0#32)
    (goes : (a.b.rep && decide (m &&& a.crew.live &&& ~~~a.b.mask ≠ 0#32)) = false) : gather a m i s = parked s a m i := by
  obtain ⟨ht, hc, hb⟩ := issuer_parts hi
  have inn : a.slots.filter (fun j => m.getLsbD j) = a.slots := List.filter_eq_self.2 fun j hj => getLsbD_of_named named hj
  have out : a.slots.filter (fun j => !m.getLsbD j) = [] := List.filter_eq_nil_iff.2 fun j hj => by simp [getLsbD_of_named named hj]
  unfold gather
  simp only [goes, inn, out, slotsMask_slots, List.isEmpty_nil, if_true, Bool.false_eq_true, if_false]
  have batch := modAt_congr (f := fun b : Batch => { b with mask := a.b.mask, wait := .group a.pc m })
    (g := fun b => { b with wait := .group a.pc m }) hb rfl
  refine updCrew_congr hi ?_
  rw [leaveMem, batch]

/-- The group that the batch opens, with all its fibres there. -/
def ownGroup (s : State) (a : At) (m : W32) (i : Instr) : Group :=
  { addr := a.pc, mask := m, arrivals := a.b.mask, since := s.cycle, ins := i, handler := a.b.handler, late := false }

/-- The crew while its batch stands in that group. -/
def parkedCrew (s : State) (a : At) (m : W32) (i : Instr) : Crew :=
  { a.crew with
    groups := a.crew.groups ++ [ownGroup s a m i], cur := none, mem := false, memRow := 0,
    batches := modAt a.crew.batches a.bi (fun b => { b with wait := .group a.pc m }) }

/-! The completion. -/

/-- The crew `c` with the fibres of the group `g`, which batch `b` stands for, in one batch at their word. -/
def regroupedCrew (cycle : Nat) (g : Group) (b : Batch) (c : Crew) : Crew :=
  { c with
    groups := c.groups.filter (fun x => !sameGroup g x),
    batches := c.batches.filter (fun x => !inGroup g x) ++ [{ readyAt cycle b with mask := g.mask &&& c.live }] }

/-- Where no clause of the crew is open, a full group of a cross-lane word leaves what the word does for its LIVE fibres. -/
theorem completeGroup_runs {s : State} {r : CrewRef} {t : Team} {g : Group} {c : Crew} {b : Batch} {a : At} (ht : teamOf s r.cl r.ts = some t)
    (hc : t.crews[r.cr]? = some c) (hb : c.batches.find? (inGroup g) = some b) (cross : (crossOf g.ins).isSome = true) (closed : c.cur = none)
    (ha : atOf (updCrew s r (fun _ => regroupedCrew s.cycle g b c)) r (c.batches.filter (fun x => !inGroup g x)).length = some a) :
    completeGroup s r g = crossRun g.ins a (g.mask &&& c.live) (updCrew s r (fun _ => regroupedCrew s.cycle g b c)) := by
  have hu : updCrew s r (fun x => { x with
        groups := x.groups.filter (fun x => !sameGroup g x),
        batches := c.batches.filter (fun x => !inGroup g x) ++ [{ readyAt s.cycle b with mask := g.mask &&& c.live }] })
      = updCrew s r (fun _ => regroupedCrew s.cycle g b c) := by
    rw [updCrew_eq_onCrew ht hc, updCrew_eq_onCrew ht hc]
    rfl
  have crew : crewOf s r = some c := by simp [crewOf, ht, hc]
  unfold completeGroup
  simp only [crew, hb]
  rw [← hu] at ha ⊢
  split
  · next h => cases ha.symm.trans h
  · next h =>
    obtain rfl := Option.some.inj (ha.symm.trans h)
    split
    · split
      · next e => rw [e] at cross; cases cross
      · rfl
    · next h => cases closed.symm.trans h

section
variable {s : State} {a : At} {m : W32} {i : Instr} (hi : issuer s = some a) (alone : GathersAlone a m)

include alone in
theorem lone_groups : ∀ g ∈ a.crew.groups, (g.addr == a.pc && g.mask == m && g.handler == a.b.handler) = false := by
  intro g hg
  simpa [and_assoc] using alone.lone g hg

include hi alone in
theorem gather_alone : gather a m i s = updCrew s a.ref (fun _ => parkedCrew s a m i) := by
  have all : m &&& a.crew.live &&& ~~~a.b.mask = 0#32 := by
    rw [alone.here]
    exact BitVec.and_not_self _
  rw [gather_named i hi alone.named (by simp [all])]
  refine updCrew_congr hi ?_
  rw [placeOf_none (lone_groups alone)]
  rfl

include alone in
theorem groupFull_parkedCrew (act : a.b.mask ≠ 0#32) : groupFull (parkedCrew s a m i) (ownGroup s a m i) = true := by
  have named : m &&& a.crew.live = a.b.mask := alone.here
  have free : a.b.mask &&& trappedMask (parkedCrew s a m i) = 0#32 := alone.free
  have view : (a.b.handler == (parkedCrew s a m i).trap.isSome) = true := beq_iff_eq.2 alone.view
  have live : (parkedCrew s a m i).live = a.crew.live := rfl
  simp [groupFull, ownGroup, live, named, free, view, act]

include alone in
theorem inGroup_batches : ∀ b ∈ a.crew.batches, inGroup (ownGroup s a m i) b = false := by
  intro b hb
  rw [Bool.eq_false_iff]
  intro h
  obtain ⟨waits, view⟩ := (Bool.and_eq_true _ _).mp h
  exact alone.open_ b hb ⟨of_decide_eq_true waits, beq_iff_eq.1 view⟩

theorem inGroup_own : inGroup (ownGroup s a m i) { a.b with wait := .group a.pc m } = true := by simp [inGroup, ownGroup]

include hi alone in
theorem batches_besides_own : (parkedCrew s a m i).batches.filter (fun x => !inGroup (ownGroup s a m i) x) = delAt a.crew.batches a.bi :=
  filter_modAt_only (issuer_parts hi).2.2 (inGroup_batches alone) inGroup_own

include alone in
theorem groups_besides_own : (parkedCrew s a m i).groups.filter (fun x => !sameGroup (ownGroup s a m i) x) = a.crew.groups := by
  have others : a.crew.groups.filter (fun x => !sameGroup (ownGroup s a m i) x) = a.crew.groups :=
    List.filter_eq_self.2 fun g hg => congrArg (!·) (lone_groups alone g hg)
  rw [parkedCrew, List.filter_append, others]
  simp [sameGroup]

include hi alone in
theorem regroupedCrew_alone : regroupedCrew s.cycle (ownGroup s a m i) { a.b with wait := .group a.pc m } (parkedCrew s a m i) = regathered s a := by
  have here : (ownGroup s a m i).mask &&& (parkedCrew s a m i).live = a.b.mask := alone.here
  rw [regroupedCrew, groups_besides_own alone, batches_besides_own hi alone, here]
  rfl

include hi in
theorem atOf_regathered : atOf (regatheredState s a) a.ref (delAt a.crew.batches a.bi).length = some (regatheredAt s a) := by
  obtain ⟨ht, hc, -⟩ := issuer_parts hi
  rw [regatheredState, atOf_updCrew ht hc]
  simp [regathered, regatheredAt]

include hi alone in
theorem completeGroup_alone (cross : (crossOf i).isSome = true) :
    completeGroup (updCrew s a.ref (fun _ => parkedCrew s a m i)) a.ref (ownGroup s a m i)
      = crossRun i (regatheredAt s a) a.b.mask (regatheredState s a) := by
  obtain ⟨ht, hc, hb⟩ := issuer_parts hi
  have found : (parkedCrew s a m i).batches.find? (inGroup (ownGroup s a m i)) = some { a.b with wait := .group a.pc m } :=
    find?_modAt_only hb (inGroup_batches alone) inGroup_own
  have team := (congrArg (teamOf · a.ref.cl a.ref.ts) (updCrew_eq_onCrew ht hc (fun _ => parkedCrew s a m i))).trans teamOf_onCrew
  have gathered : updCrew (updCrew s a.ref (fun _ => parkedCrew s a m i)) a.ref (fun _ =>
      regroupedCrew (updCrew s a.ref (fun _ => parkedCrew s a m i)).cycle (ownGroup s a m i) { a.b with wait := .group a.pc m } (parkedCrew s a m i))
      = regatheredState s a := by
    rw [updCrew_updCrew, updCrew_cycle, regroupedCrew_alone hi alone]
    rfl
  have place := atOf_regathered hi
  rw [← gathered, ← batches_besides_own (i := i) hi alone] at place
  rw [completeGroup_runs team (modAt_const_get hc _) found cross rfl place, gathered]
  exact congrArg (crossRun i (regatheredAt s a) · (regatheredState s a)) alone.here

include hi alone in
/-- The word runs once, for the whole batch, which goes on from its place at the end of the list (R126). -/
theorem gatherAt_alone (act : a.b.mask ≠ 0#32) (cross : (crossOf i).isSome = true) :
    gatherAt a m i s = crossRun i (regatheredAt s a) a.b.mask (regatheredState s a) := by
  obtain ⟨ht, hc, -⟩ := issuer_parts hi
  have inn : slotsMask (a.slots.filter (fun j => m.getLsbD j)) = a.b.mask := by
    rw [List.filter_eq_self.2 fun j hj => getLsbD_of_named alone.named hj, slotsMask_slots]
  have group : (parkedCrew s a m i).groups.find? (fun g => g.addr == a.pc && g.mask == m && g.handler == a.b.handler) = some (ownGroup s a m i) := by
    have before := List.find?_eq_none.2 fun g hg => Bool.eq_false_iff.1 (lone_groups alone g hg)
    rw [parkedCrew, List.find?_append, before]
    simp [ownGroup]
  have full := groupFull_parkedCrew (s := s) (i := i) alone act
  have complete : completeAt (gather a m i s) a.ref a.pc m a.b.handler = crossRun i (regatheredAt s a) a.b.mask (regatheredState s a) := by
    rw [gather_alone hi alone, completeAt, crewOf_updCrew ht hc]
    simp only [group, full, if_true]
    exact completeGroup_alone hi alone cross
  unfold gatherAt
  rw [inn, complete]
  simp

end

end Sys2Proof.Machine
end

section
/-! A word's results with one k-register beside them, as a cross-lane word writes its effective mask (R126). -/

namespace Sys2Proof.Machine

/-! The end of a word at a place that a batch has come to since it issued. -/

/-- What the end of a word leaves where every fibre completes. -/
theorem finishWord_eq_onCrew {s : State} {a : At} (ht : teamOf s a.ref.cl a.ref.ts = some a.team) (hc : a.team.crews[a.ref.cr]? = some a.crew)
    (hm : a.b.mask ≠ 0#32) (act : List Nat) (w : Nat → FRes) :
    finishWord s a (act.map (fun i => (i, .ok (w i))))
      = onCrew s a.ref a.team ((allEvs (act.map (fun i => (i, w i)))).foldl evPure ((clusterOf s a.ref.cl).rf, a.crew)).1
          (advance s.cycle ((allEvs (act.map (fun i => (i, w i)))).foldl evPure ((clusterOf s a.ref.cl).rf, a.crew)).2 a.bi) := by
  have shape := Shape.evs ht hc (allEvs (act.map (fun i => (i, w i)))) (x := s) (p := ((clusterOf s a.ref.cl).rf, a.crew)) (.inl ⟨rfl, rfl, hc⟩)
  rw [finishWord, okOuts_map, badOuts_map, applyAll_eq, stampPc, List.map_nil, finishFaults_none _ _ _ hm, evState_cycle, shape.upd ht]

/-- The state with the batch at `a` named as the one that issues. -/
def issuing (s : State) (a : At) : State := { s with issue := some { crew := a.ref, bi := a.bi } }

theorem issuer_issuing {s : State} {a : At} (ht : teamOf s a.ref.cl a.ref.ts = some a.team) (hc : a.team.crews[a.ref.cr]? = some a.crew)
    (hb : a.crew.batches[a.bi]? = some a.b) : issuer (issuing s a) = some a := by
  have team : teamOf (issuing s a) a.ref.cl a.ref.ts = some a.team := ht
  simp [issuer, show (issuing s a).issue = some { crew := a.ref, bi := a.bi } from rfl, team, hc, hb]

/-- A word whose fibres all complete writes its yield and goes on, also where its batch no longer stands where it issued. -/
theorem finishWord_wrote_at {s : State} {a : At} {act : List Nat} {y : Yield} (ht : teamOf s a.ref.cl a.ref.ts = some a.team)
    (hc : a.team.crews[a.ref.cr]? = some a.crew) (hb : a.crew.batches[a.bi]? = some a.b) (hm : a.b.mask ≠ 0#32)
    (hps : ∀ i ∈ act, ∀ e ∈ y.preds i, ∀ e' ∈ y.preds i, e.1 = e'.1 → e = e') :
    Wrote s (finishWord s a (act.map (fun i => (i, .ok (y.res i))))) a act y := by
  have team : teamOf (issuing s a) a.ref.cl a.ref.ts = some a.team := ht
  obtain ⟨rf, c, here, wrote⟩ := finishWord_wrote (issuer_issuing ht hc hb) hm hps
  rw [finishWord_eq_onCrew team hc hm] at here
  rw [finishWord_eq_onCrew ht hc hm]
  exact ⟨rf, c, congrArg (fun t : State => { t with issue := s.issue }) here, wrote⟩

/-! The k-register beside the results. -/

/-- A write of a k-register, on a crew and its registers. -/
def putK (n : Nat) (v : W32) (p : Cells 32 × Crew) : Cells 32 × Crew := (p.1, { p.2 with k := cWrite p.2.k n v })

/-- A result with a k-register beside it. -/
def besideK (n : Nat) (v : W32) (f : FRes) : FRes := { f with wr := f.wr ++ [.k n v] }

theorem endClause_k {h : W64} {b : Batch} {c d : Crew} {x : Cells 32} (e : d = { c with k := x }) :
    endClause h b d = { endClause h b c with k := x } := by
  subst e
  unfold endClause drainMem
  split
  · rfl
  · split <;> rfl

/-- The advance neither reads nor writes the k-registers. -/
theorem advance_k (cycle : Nat) (c : Crew) (bi : Nat) (x : Cells 32) : advance cycle { c with k := x } bi = { advance cycle c bi with k := x } := by
  unfold advance
  dsimp only
  split
  · rfl
  · split
    · split
      · split
        · rfl
        · exact endClause_k rfl
      · rfl
    · exact endClause_k rfl

theorem advance_putK (cycle : Nat) (c : Crew) (bi n : Nat) (v : W32) :
    advance cycle { c with k := cWrite c.k n v } bi = { advance cycle c bi with k := cWrite (advance cycle c bi).k n v } := by
  have same : (advance cycle c bi).k = c.k := by
    have := congrArg Crew.k (advance_keeps cycle c bi)
    exact this
  rw [advance_k, same]

theorem evPure_putK_higher (n : Nat) (v : W32) (p : Cells 32 × Crew) (i : Nat) (x : RegWr) :
    evPure (putK n v p) (.w i false x) = putK n v (evPure p (.w i false x)) := by
  cases x with
  | g m u => rfl
  | k m u => rfl
  | p m b =>
    simp only [evPure, putK, pWrite]
    split <;> rfl

theorem foldl_resEvs_higher (n : Nat) (v : W32) (i : Nat) (f : FRes) (p : Cells 32 × Crew) :
    (resEvs i false (besideK n v f)).foldl evPure (putK n v p) = putK n v ((resEvs i false f).foldl evPure p) := by
  have writes : ∀ (l : List RegWr) (p : Cells 32 × Crew),
      (l.map (WordEv.w i false)).foldl evPure (putK n v p) = putK n v ((l.map (WordEv.w i false)).foldl evPure p) := by
    intro l
    induction l with
    | nil => exact fun _ => rfl
    | cons x l ih => exact fun p => by rw [List.map_cons, List.foldl_cons, List.foldl_cons, evPure_putK_higher, ih]
  simp only [resEvs, besideK, List.map_append, List.foldl_append, writes]
  rfl

theorem foldl_resEvs_lowest (n : Nat) (v : W32) (i : Nat) (f : FRes) (p : Cells 32 × Crew) :
    (resEvs i true (besideK n v f)).foldl evPure p = putK n v ((resEvs i true f).foldl evPure p) := by
  simp only [resEvs, besideK, List.map_append, List.foldl_append]
  rfl

theorem foldl_allEvs_besideK {act : List Nat} (h : act ≠ []) (w : Nat → FRes) (n : Nat) (v : W32) (p : Cells 32 × Crew) :
    (allEvs (act.map (fun i => (i, besideK n v (w i))))).foldl evPure p = putK n v ((allEvs (act.map (fun i => (i, w i)))).foldl evPure p) := by
  cases act with
  | nil => exact absurd rfl h
  | cons i t =>
    simp only [List.map_cons, allEvs, List.foldl_append, foldl_resEvs_lowest]
    generalize (resEvs i true (w i)).foldl evPure p = q
    clear h
    induction t generalizing q with
    | nil => rfl
    | cons j t ih => simp only [List.map_cons, List.flatMap_cons, List.foldl_append, foldl_resEvs_higher, ih]

/-- The lowest fibre writes the k-register, after its own results; so it is as if it were written when the word has gone on. -/
theorem finishWord_besideK {s : State} {a : At} (ht : teamOf s a.ref.cl a.ref.ts = some a.team) (hc : a.team.crews[a.ref.cr]? = some a.crew)
    (hm : a.b.mask ≠ 0#32) {act : List Nat} (h : act ≠ []) (w : Nat → FRes) (n : Nat) (v : W32) :
    finishWord s a (act.map (fun i => (i, .ok (besideK n v (w i))))) = setK (finishWord s a (act.map (fun i => (i, .ok (w i))))) a.ref n v := by
  rw [finishWord_eq_onCrew ht hc hm, finishWord_eq_onCrew ht hc hm, setK, Shape.upd ht (.inr (.inr rfl)), foldl_allEvs_besideK h, putK, advance_putK]

/-! The effective mask beside the results of a cross-lane word (R126). -/

/-- The result of a fibre with the effective mask for a k-register c beside it. -/
def besideMask (f : RRR) (e : W32) (r : FRes) : FRes :=
  { r with wr := r.wr ++ if f.c.cls = .k then [.k f.c.num e] else [] }

theorem besideMask_of_k {f : RRR} (h : f.c.cls = .k) (e : W32) (r : FRes) : besideMask f e r = besideK f.c.num e r := by
  rw [besideMask, if_pos h, besideK]

theorem besideMask_of_ne {f : RRR} (h : f.c.cls ≠ .k) (e : W32) (r : FRes) : besideMask f e r = r := by
  rw [besideMask, if_neg h, List.append_nil]

theorem finishWord_besideMask {s : State} {a : At} (ht : teamOf s a.ref.cl a.ref.ts = some a.team) (hc : a.team.crews[a.ref.cr]? = some a.crew)
    (hm : a.b.mask ≠ 0#32) {act : List Nat} (h : act ≠ []) (f : RRR) (e : W32) (w : Nat → FRes) :
    finishWord s a (act.map (fun i => (i, .ok (besideMask f e (w i)))))
      = if f.c.cls = .k then setK (finishWord s a (act.map (fun i => (i, .ok (w i))))) a.ref f.c.num e
        else finishWord s a (act.map (fun i => (i, .ok (w i)))) := by
  split
  · next k => simp only [besideMask_of_k k, finishWord_besideK ht hc hm h]
  · next k => simp only [besideMask_of_ne k]

/-! Pending results with the effective mask beside them (R126, R155). -/

/-- What the end of a word of variable latency changes where every fibre completes. -/
theorem finishPend_eq_updCrew {a : At} (hm : a.b.mask ≠ 0#32) {act : List Nat} (h : act ≠ []) (s : State) (w : Nat → FRes) :
    finishPend s a (act.map (fun i => (i, .ok (w i))))
      = updCrew s a.ref (fun c => advance s.cycle (pendAllPure (act.map (fun i => (i, w i))) c) a.bi) := by
  rw [finishPend, okOuts_map, badOuts_map, pendAll_eq _ _ _ (by simpa using h), stampPc, List.map_nil, finishFaults_none _ _ _ hm,
    updCrew_updCrew, updCrew_cycle]

theorem foldl_evPure_st {E : List WordEv} (h : ∀ e ∈ E, ∃ b, e = .st b) : ∀ p : Cells 32 × Crew,
    (E.foldl evPure p).2 = { p.2 with stat := (E.foldl evPure p).2.stat } := by
  induction E with
  | nil => exact fun _ => rfl
  | cons e E ih =>
    intro p
    obtain ⟨b, rfl⟩ := h e (by simp)
    rw [List.foldl_cons, ih fun e he => h e (List.mem_cons_of_mem _ he)]
    rfl

/-- The mask beside the results is no predicate and sets no sticky bit. -/
theorem pEvs_besideMask (f : RRR) (e : W32) (act : List Nat) (w : Nat → FRes) :
    pEvs (act.map (fun i => (i, besideMask f e (w i)))) = pEvs (act.map (fun i => (i, w i))) := by
  simp only [pEvs, List.flatMap_map, besideMask, List.filterMap_append]
  split <;> simp

theorem pEvs_yields_st {d : Opd} (hd : d.cls ≠ .p) (n : Nat) (v st : Nat → Nat) (act : List Nat) :
    ∀ x ∈ pEvs (act.map (fun i => (i, (yields d n v st).res i))), ∃ b, x = .st b := by
  intro x hx
  simp only [pEvs, List.flatMap_map, List.mem_flatMap, List.mem_append, List.mem_filterMap, List.mem_singleton, res_yields, res] at hx
  obtain ⟨i, -, ⟨w, hw, hx⟩ | rfl⟩ := hx
  · cases w with
    | g n u => cases hx
    | k n u => cases hx
    | p n b =>
      unfold destWr at hw
      split at hw <;> simp at hw
      exact absurd ‹_› hd
  · exact ⟨_, rfl⟩

/-- The lowest fibre's pending entries, with the mask for a k-register c. -/
theorem pendWr_besideMask_lowest (f : RRR) (e : W32) (n : Nat) (v st : Nat → Nat) (i : Nat) :
    (besideMask f e ((yields f.d n v st).res i)).wr.filterMap (pendWr i true)
      = laterPends f.d n [(i, v i)] ++ if f.c.cls = .k then [{ dst := .k f.c.num, val := some e, ready := true }] else [] := by
  have one := pendEntries_yield (yields f.d n v st) [i]
  simp only [List.map_cons, List.map_nil, pendEntries, List.flatMap_nil, List.append_nil] at one
  rw [besideMask, List.filterMap_append, one]
  congr 1
  split <;> rfl

/-- Another fibre's: its g-registers alone. -/
theorem pendWr_besideMask_higher (f : RRR) (e : W32) (n : Nat) (v st : Nat → Nat) (i : Nat) :
    (besideMask f e ((yields f.d n v st).res i)).wr.filterMap (pendWr i false) = if f.d.cls = .g then laterPends f.d n [(i, v i)] else [] := by
  have mask : (if f.c.cls = .k then [RegWr.k f.c.num e] else []).filterMap (pendWr i false) = [] := by split <;> rfl
  rw [besideMask, List.filterMap_append, mask, List.append_nil, res_yields, res, destWr, laterPends]
  cases f.d.cls <;> simp [pendWr, regWord, Function.comp_def]

/-- The pending entries of a word with one destination: the lowest fibre's with the mask, then the others'. -/
theorem pendEntries_besideMask (f : RRR) (e : W32) (v st : Nat → Nat) {act : List Nat} (h : act ≠ []) :
    pendEntries (act.map (fun i => (i, besideMask f e ((yields f.d 1 v st).res i)))) = mxqPends f e (act.map (fun i => (i, v i))) := by
  have others (t : List Nat) : t.flatMap (fun i => if f.d.cls = .g then laterPends f.d 1 [(i, v i)] else [])
      = if f.d.cls = .g then laterPends f.d 1 (t.map (fun i => (i, v i))) else [] := by
    split
    · next g => simp [laterPends, g, List.flatMap_map]
    · simp
  cases act with
  | nil => exact absurd rfl h
  | cons i t =>
    simp only [List.map_cons, pendEntries, List.flatMap_map, pendWr_besideMask_lowest, pendWr_besideMask_higher, others]
    rfl

/-- What MXQ's results change in the crew: they are pending with the mask, the sticky bits stand, and the batch goes on. -/
structure PendsBeside (cycle bi : Nat) (f : RRR) (e : W32) (act : List Nat) (v st : Nat → Nat) (c c' : Crew) : Prop where
  pend : c'.pend = c.pend ++ mxqPends f e (act.map (fun i => (i, v i)))
  sticky : ∀ b < 45, c'.stat.getLsbD b = (c.stat.getLsbD b || (decide (b < 11) && act.any (fun i => tb (st i) b)))
  moved : ∀ b, c.batches[bi]? = some b → b.rep = false → c'.batches = modAt c.batches bi (fun _ => nextWord cycle b)
  rest : { c' with
    pend := c.pend, stat := c.stat, batches := c.batches, cur := c.cur, mem := c.mem, memRow := c.memRow, yields := c.yields } = c

theorem finishPend_besideMask {a : At} (hm : a.b.mask ≠ 0#32) {act : List Nat} (h : act ≠ []) {f : RRR} (hd : f.d.cls ≠ .p) (s : State)
    (e : W32) (v st : Nat → Nat) :
    ∃ F, finishPend s a (act.map (fun i => (i, .ok (besideMask f e ((yields f.d 1 v st).res i))))) = updCrew s a.ref F
      ∧ ∀ c, PendsBeside s.cycle a.bi f e act v st c (F c) := by
  refine ⟨_, finishPend_eq_updCrew hm h s _, fun c => ?_⟩
  have parts := pendAllPure_eq [] (act.map (fun i => (i, besideMask f e ((yields f.d 1 v st).res i)))) c
  rw [pEvs_besideMask, pendEntries_besideMask f e v st h] at parts
  have only := foldl_evPure_st (pEvs_yields_st hd 1 v st act) ([], c)
  have bits : ∀ b, _ := fun b => evs_stat b (pEvs (act.map (fun i => (i, (yields f.d 1 v st).res i)))) ([], c)
  simp only [any_pEvs] at bits
  generalize (pEvs (act.map (fun i => (i, (yields f.d 1 v st).res i)))).foldl evPure ([], c) = q at parts only bits
  generalize pendAllPure (act.map (fun i => (i, besideMask f e ((yields f.d 1 v st).res i)))) c = p at parts
  rw [only] at parts
  subst parts
  have keeps := advance_keeps s.cycle { c with stat := q.2.stat, pend := c.pend ++ mxqPends f e (act.map (fun i => (i, v i))) } a.bi
  exact {
    pend := by
      have := congrArg Crew.pend keeps
      exact this
    sticky := fun b hb => by rw [advance_stat_low _ _ _ _ hb]; exact bits b
    moved := fun b hb hr => advance_moves _ _ _ b hb hr
    rest := congrArg (fun d : Crew => { d with pend := c.pend, stat := c.stat }) keeps }

end Sys2Proof.Machine
end

section
/-! The values that the cross-lane words exchange (R127 to R131, R155): the model's computations are those that the statements name. -/

namespace Sys2Proof.Machine

/-! The fold of REDUX and SCAN over integers (R129). -/

theorem srcOf_congr {t x y : Nat} (h : bitsOf t x = bitsOf t y) : srcOf t x = srcOf t y := by
  simp only [bitsOf] at h
  simp only [srcOf, sext, bitsOf, h]

theorem bitsOf_bitsOf (t x : Nat) : bitsOf t (bitsOf t x) = bitsOf t x := Nat.mod_mod _ _

theorem bitsOf_lt (t x : Nat) : bitsOf t x < 2 ^ tyW t := Nat.mod_lt _ (by positivity)

theorem tyW_le (t : Nat) : tyW t ≤ 64 := by
  have : t % 4 < 4 := Nat.mod_lt _ (by decide)
  unfold tyW
  interval_cases t % 4 <;> decide

/-- The 64 bits of a value of the type end in its pattern. -/
theorem bitsOf_wrapNat_srcOf (t x : Nat) : bitsOf t (wrapNat 64 (srcOf t x)) = bitsOf t x := by
  have low : srcOf t x % (2 ^ 64 : Int) % (2 ^ tyW t : Int) = (x : Int) % (2 ^ tyW t : Int) := by
    rw [Int.emod_emod_of_dvd _ (pow_dvd_pow (2 : Int) (tyW_le t)), srcOf_emod]
  have wide : ((srcOf t x % (2 ^ 64 : Int)).toNat : Int) = srcOf t x % (2 ^ 64 : Int) := Int.toNat_of_nonneg (Int.emod_nonneg _ (by positivity))
  unfold bitsOf wrapNat
  zify
  rw [wide, low]

/-- The register image of a pattern is that of the value that it stands for. -/
theorem putOf_srcOf {t x : Nat} (h : x < 2 ^ tyW t) : putOf t (srcOf t x) = putOf t (x : Int) := by
  have whole : wrapNat (tyW t) (x : Int) = x := by
    rw [wrapNat, Int.emod_eq_of_lt (by omega) (by exact_mod_cast h), Int.toNat_natCast]
  rw [← putOf_wrapTy t (x : Int), wrapTy, whole]

/-- The fold of the operand values `vs`, in their order, as an integer of the type. -/
def foldInts (op t : Nat) (vs : List Nat) : Int :=
  match vs with
  | [] => foldIdent op t
  | v :: r => (r.map (srcOf t)).foldl (foldStep op t) (srcOf t v)

theorem foldInts_sum (t : Nat) (vs : List Nat) : foldInts 0 t vs = (vs.map (srcOf t)).sum := by
  cases vs with
  | nil => rfl
  | cons v r =>
    rw [List.sum_eq_foldl, List.map_cons, List.foldl_cons, zero_add]
    rfl

theorem foldInts_min (t : Nat) (vs : List Nat) : foldInts 1 t vs = (vs.map (srcOf t)).min?.getD (tyHi t) := by
  cases vs with
  | nil => rfl
  | cons v r => rw [List.map_cons, List.min?_cons']; rfl

theorem foldInts_max (t : Nat) (vs : List Nat) : foldInts 2 t vs = (vs.map (srcOf t)).max?.getD (tyLo t) := by
  cases vs with
  | nil => rfl
  | cons v r => rw [List.map_cons, List.max?_cons']; rfl

section
variable {g : Nat → Nat → Nat} {op t : Nat} (step : ∀ x y, foldStep op t x y = srcOf t (g (wrapNat 64 x) (wrapNat 64 y)))
  (low : ∀ x y n, g x y % 2 ^ n = g (x % 2 ^ n) (y % 2 ^ n))
include step low

/-- A fold of bitwise steps works on the patterns. -/
theorem foldl_foldStep_bits (r : List Nat) : ∀ x, (r.map (srcOf t)).foldl (foldStep op t) (srcOf t x)
    = srcOf t ((r.map (bitsOf t)).foldl g x) := by
  induction r with
  | nil => exact fun _ => rfl
  | cons v r ih =>
    intro x
    have one : foldStep op t (srcOf t x) (srcOf t v) = srcOf t (g x (bitsOf t v)) := by
      rw [step]
      apply srcOf_congr
      calc bitsOf t (g (wrapNat 64 (srcOf t x)) (wrapNat 64 (srcOf t v)))
        _ = g (bitsOf t (wrapNat 64 (srcOf t x))) (bitsOf t (wrapNat 64 (srcOf t v))) := low _ _ _
        _ = g (bitsOf t x) (bitsOf t (bitsOf t v)) := by rw [bitsOf_wrapNat_srcOf, bitsOf_wrapNat_srcOf, bitsOf_bitsOf]
        _ = bitsOf t (g x (bitsOf t v)) := (low _ _ _).symm
    rw [List.map_cons, List.foldl_cons, one, ih]
    rfl

theorem putOf_foldInts_bits [Std.Commutative g] [Std.Associative g] {e : Nat} (ident : foldIdent op t = srcOf t e) (fits : e < 2 ^ tyW t)
    (unit : ∀ v, g e (bitsOf t v) = bitsOf t v) (vs : List Nat) :
    putOf t (foldInts op t vs) = putOf t (((vs.map (bitsOf t)).foldr g e : Nat) : Int) := by
  have small : (vs.map (bitsOf t)).foldl g e < 2 ^ tyW t := by
    have all : ∀ (l : List Nat) (x : Nat), x < 2 ^ tyW t → (l.map (bitsOf t)).foldl g x < 2 ^ tyW t := by
      intro l
      induction l with
      | nil => exact fun _ h => h
      | cons v l ih =>
        intro x hx
        refine ih _ ?_
        have := low x (bitsOf t v) (tyW t)
        rw [Nat.mod_eq_of_lt hx, Nat.mod_eq_of_lt (bitsOf_lt t v)] at this
        rw [← this]
        exact Nat.mod_lt _ (by positivity)
    exact all vs e fits
  rw [← List.foldl_eq_foldr, ← putOf_srcOf small]
  cases vs with
  | nil => rw [foldInts, ident]; rfl
  | cons v r =>
    rw [foldInts, srcOf_congr (bitsOf_bitsOf t v).symm, foldl_foldStep_bits step low, List.map_cons, List.foldl_cons, unit]

end

theorem putOf_foldInts_and (t : Nat) (vs : List Nat) :
    putOf t (foldInts 3 t vs) = putOf t (((vs.map (bitsOf t)).foldr (· &&& ·) (2 ^ tyW t - 1) : Nat) : Int) := by
  have pos : 0 < 2 ^ tyW t := by positivity
  refine putOf_foldInts_bits (fun _ _ => rfl) (fun _ _ _ => Nat.and_mod_two_pow) rfl (by omega) (fun v => ?_) vs
  show (2 ^ tyW t - 1) &&& bitsOf t v = _
  rw [Nat.and_comm, Nat.and_two_pow_sub_one_eq_mod, Nat.mod_eq_of_lt (bitsOf_lt t v)]

theorem putOf_foldInts_or (t : Nat) (vs : List Nat) :
    putOf t (foldInts 4 t vs) = putOf t (((vs.map (bitsOf t)).foldr (· ||| ·) 0 : Nat) : Int) :=
  putOf_foldInts_bits (op := 4) (fun _ _ => rfl) (fun _ _ _ => Nat.or_mod_two_pow) (srcOf_zero t).symm (by positivity) (fun _ => Nat.zero_or _) vs

theorem putOf_foldInts_xor (t : Nat) {op : Nat} (h : 5 ≤ op) (vs : List Nat) :
    putOf t (foldInts op t vs) = putOf t (((vs.map (bitsOf t)).foldr (· ^^^ ·) 0 : Nat) : Int) := by
  obtain ⟨n, rfl⟩ : ∃ n, op = n + 5 := ⟨op - 5, by omega⟩
  exact putOf_foldInts_bits (op := n + 5) (fun _ _ => rfl) (fun _ _ _ => Nat.xor_mod_two_pow) (srcOf_zero t).symm (by positivity)
    (fun _ => Nat.zero_xor _) vs

/-! The fold over .f32, and both together. -/

/-- Steps that set no sticky bits fold as their values do. -/
theorem foldl_quiet {g : Nat → Nat → Nat} (r : List Nat) : ∀ x : Nat,
    r.foldl (fun (acc : Nat × Nat) v => (g acc.1 v, acc.2 ||| 0)) (x, 0) = (r.foldl g x, 0) := by
  induction r with
  | nil => exact fun _ => rfl
  | cons v r ih => exact fun x => by rw [List.foldl_cons, List.foldl_cons, Nat.or_zero, ih]

theorem foldOut_ints (op t : Nat) (ht : t ≠ 8) (sat : Bool) (vs : List Nat) :
    (if op = 0 then satOrWrap sat t (foldInts op t vs) else (putOf t (foldInts op t vs), 0)) = foldOut op t sat vs := by
  unfold foldOut
  rw [if_neg ht]
  match op with
  | 0 =>
    rw [if_pos rfl, foldInts_sum]
    cases sat <;> simp [satOrWrap, ite_not]
  | 1 => rw [if_neg (by decide), foldInts_min]; rfl
  | 2 => rw [if_neg (by decide), foldInts_max]; rfl
  | 3 => rw [if_neg (by decide), putOf_foldInts_and]; rfl
  | 4 => rw [if_neg (by decide), putOf_foldInts_or]; rfl
  | n + 5 => rw [if_neg (by omega), putOf_foldInts_xor t (by omega)]; rfl

/-- The model's fold over slots is the fold of the operand values in their order. -/
theorem foldVal_eq (f : RRR) (l : List Nat) (av : Nat → Nat) :
    foldVal f l av = foldOut (f.opt.toNat % 8) f.ty.toNat (tb f.opt.toNat 4) (l.map av) := by
  unfold foldVal
  dsimp only
  split
  · next ht =>
    unfold foldOut
    rw [if_pos ht]
    generalize f.opt.toNat % 8 = op
    cases l with
    | nil => rfl
    | cons i r =>
      match op with
      | 0 => simp only [List.map_cons, List.foldl_map, foldStepF]
      | 1 => simp only [List.map_cons, foldStepF, ← foldl_quiet, List.foldl_map]
      | n + 2 => simp only [List.map_cons, foldStepF, ← foldl_quiet, List.foldl_map]
  · next ht =>
    rw [← foldOut_ints _ _ ht]
    cases l with
    | nil => rfl
    | cons i r => simp only [List.map_cons, foldInts, List.foldl_map]

/-! MXFP4 blocks (R79). -/

/-- Is the value one that gives its block the scale 0xFF? -/
def nonFinite (x : FVal) : Bool := match x with | .fin _ _ _ => false | _ => true

/-- The exponent of a value, none for a zero. -/
def exponentOf (x : FVal) : Option Int := match x with | .fin _ m p => if m = 0 then none else some ((m.log2 : Int) + p) | _ => none

/-- The scale of a block whose elements have the exponents `logs`. -/
def scaleOf (logs : List Int) : Int := match logs.max? with | none => 0 | some l => max 0 (min 254 (l - 2 + 127))

theorem scaleOf_nonneg (logs : List Int) : 0 ≤ scaleOf logs := by
  unfold scaleOf
  split
  · exact le_rfl
  · exact le_max_left _ _

theorem mxScale_eq (l : List FVal) :
    mxScale l = if l.any nonFinite then none else some (scaleOf (l.filterMap exponentOf)).toNat := by
  show (if l.any nonFinite then none else match l.filterMap exponentOf with
    | [] => some 0
    | a :: t => some (if t.foldl max a - 2 + 127 < 0 then 0 else if 254 < t.foldl max a - 2 + 127 then 254 else (t.foldl max a - 2 + 127).toNat)) = _
  congr 1
  cases l.filterMap exponentOf with
  | nil => rfl
  | cons a t =>
    simp only [scaleOf, List.max?_cons']
    generalize t.foldl max a = m
    congr 1
    split
    · omega
    · split <;> omega

/-- Slot by slot, a slot that the effective mask leaves out counts as zero. -/
def blockValues (e : W32) (x : Nat → FVal) : List FVal := (List.range 32).map (fun k => if e.getLsbD k then x k else .fin false 0 0)

theorem any_blockValues (e : W32) (x : Nat → FVal) : (blockValues e x).any nonFinite = (maskSlots e).any (fun k => nonFinite (x k)) := by
  rw [blockValues, maskSlots, List.any_map, List.any_filter]
  congr 1
  funext k
  cases h : e.getLsbD k <;> simp [h, nonFinite]

theorem exponents_blockValues (e : W32) (x : Nat → FVal) :
    (blockValues e x).filterMap exponentOf = (maskSlots e).filterMap (fun k => exponentOf (x k)) := by
  rw [blockValues, maskSlots, List.filterMap_map, List.filterMap_filter]
  congr 1
  funext k
  cases h : e.getLsbD k <;> simp [h, exponentOf]

/-- An element over the scale `c`, with the scale. -/
def scaledWord (mode : RMode) (dith : Nat) (c : Int) (x : FVal) : Nat × Nat :=
  match x with
  | .fin n m p =>
    let r := roundFp e2m1 mode dith (.fin n m (p - (c - 127)))
    (c.toNat * 2 ^ 8 + r.code, r.sticky)
  | _ => (c.toNat * 2 ^ 8, stNv)

theorem mxElem_eq {c : Int} (hc : 0 ≤ c) (mode : RMode) (dith : Nat) (x : FVal) :
    (c.toNat * 256 + (mxElem c.toNat mode dith x).code, (mxElem c.toNat mode dith x).sticky) = scaledWord mode dith c x := by
  cases x with
  | fin n m p => simp only [mxElem, scaledWord, Int.toNat_of_nonneg hc, Nat.reducePow]
  | inf n => simp [mxElem, scaledWord]
  | nan => simp [mxElem, scaledWord]

/-- MXQ's word for a fibre is that of the block of the effective mask. -/
theorem mxqVal_eq (f : RRR) (e : W32) (av bv : Nat → Nat) (j : Nat) :
    mxqVal f e av bv j = blockWord (rmodeOf f.opt.toNat) e av bv j := by
  have model : mxqVal f e av bv j = (match mxScale (blockValues e (fun k => fpVal fp32 (av k))) with
    | none => (0xFF * 256, stNv)
    | some c =>
      (c * 256 + (mxElem c (rmodeOf f.opt.toNat) (dither (bv j) j) (fpVal fp32 (av j))).code,
        (mxElem c (rmodeOf f.opt.toNat) (dither (bv j) j) (fpVal fp32 (av j))).sticky)) := rfl
  rw [model, mxScale_eq, any_blockValues, exponents_blockValues]
  by_cases special : (maskSlots e).any (fun k => nonFinite (fpVal fp32 (av k))) = true
  · rw [if_pos special]
    exact (if_pos special).symm
  · rw [if_neg special]
    exact (mxElem_eq (scaleOf_nonneg _) _ _ _).trans (if_neg special).symm

/-! What each cross-lane word yields. -/

/-- How many registers a word's list gives its destination. -/
def firstReg (d : Opd) (regs : List (Opd × Nat)) : Nat :=
  match regs with
  | (o, k) :: _ => if o = d then k else 1
  | [] => 1

theorem firstReg_crossSpec_ty {port t : Nat} {a b : Pos} {ok : Bool} {f : RRR} :
    firstReg f.d (crossSpec port (pDst (tyWide t)) a b ok f).regs = tyN t := by
  unfold tyN
  cases tyWide t <;> simp [crossSpec, rrrSpec, posRegs, firstReg, pDst]

/-- A word whose values are those of the yield ends with the yield, the mask beside it. -/
theorem ends_yields (fin : State → At → List (Nat × FOut) → State) {s : State} {a : At} {e : W32} {f : RRR} {n m : Nat}
    {r : Nat → Nat × Nat} {v st : Nat → Nat} (hn : m = n) (hv : ∀ j, r j = (v j, st j)) :
    fin s a ((maskSlots e).map (fun j => (j, .ok (besideMask f e (res f.d m (r j).1 (r j).2)))))
      = fin s a ((maskSlots e).map (fun j => (j, .ok (besideMask f e ((yields f.d n v st).res j))))) := by
  simp only [hn, hv, res_yields]

theorem lxchVal_eq (f : RRR) (e : W32) (av bv : Nat → Nat) (j : Nat) : lxchVal f e av bv j =
    if 0 ≤ lxchSlot f.opt.toNat j (bv j) ∧ lxchSlot f.opt.toNat j (bv j) ≤ 31 ∧ e.getLsbD (lxchSlot f.opt.toNat j (bv j)).toNat = true
      then putOf f.ty.toNat (srcOf f.ty.toNat (av (lxchSlot f.opt.toNat j (bv j)).toNat)) else putOf f.ty.toNat (srcOf f.ty.toNat (av j)) := by
  simp [lxchVal, and_assoc]

theorem voteVal_eq (mode : Nat) (sl : List Nat) (av : Nat → Nat) : voteVal mode sl av =
    match mode with
    | 0 => if (sl.filter (fun i => av i != 0)).length = sl.length then 1 else 0
    | 1 => if 0 < (sl.filter (fun i => av i != 0)).length then 1 else 0
    | 2 => if (sl.filter (fun i => av i != 0)).length = 0 ∨ (sl.filter (fun i => av i != 0)).length = sl.length then 1 else 0
    | 3 => (sl.filter (fun i => av i != 0)).length
    | _ => if sl.length < 2 * (sl.filter (fun i => av i != 0)).length then 1 else 0 := by
  match mode with
  | 0 | 1 | 2 => simp only [voteVal, bNat, beq_iff_eq, decide_eq_true_eq, Bool.or_eq_true]
  | 3 => rfl
  | n + 4 => simp only [voteVal, bNat, decide_eq_true_eq]

theorem crossRun_yield {i : Instr} {s : State} {a : At} {e : W32} {f : RRR} {y : Yield} (h : crossYield i s a e = some (f, y)) :
    crossRun i a e s = finishWord s a ((maskSlots e).map (fun j => (j, .ok (besideMask f e (y.res j))))) := by
  unfold crossYield at h
  split at h <;> simp only [Option.some.injEq, Prod.mk.injEq, reduceCtorEq] at h <;> obtain ⟨rfl, rfl⟩ := h
  -- LXCH, VOTE, BALLOT, MATCHQ, REDUX, SCAN
  case h_1 f => exact ends_yields finishWord firstReg_crossSpec_ty fun j => congrArg (·, 0) (lxchVal_eq f e _ _ j)
  case h_2 f => exact ends_yields finishWord (if_pos rfl) fun j => congrArg (·, 0) (voteVal_eq _ _ _)
  case h_3 f => exact ends_yields finishWord (if_pos rfl) fun j => rfl
  case h_4 f => exact ends_yields finishWord (if_pos rfl) fun j => rfl
  case h_5 f => exact ends_yields finishWord firstReg_crossSpec_ty fun j => foldVal_eq f _ _
  case h_6 f => exact ends_yields finishWord firstReg_crossSpec_ty fun j => foldVal_eq f _ _

end Sys2Proof.Machine
end

section
/-! The cross-lane words (R126 to R131, R155): the batch that is the whole group exchanges over its own fibres. -/

namespace Sys2Proof.Machine

/-! The issue of a cross-lane word. -/

theorem gatherOf_cross {i : Instr} {f : RRR} {sp : WordSpec} (h : crossOf i = some (f, sp)) : gatherOf i = some (sp, f.c) := by
  unfold gatherOf
  split
  · cases h
  · rw [h]; rfl

theorem exec_cross {i : Instr} {f : RRR} {sp : WordSpec} (h : crossOf i = some (f, sp)) (s : State) :
    exec i s = issueWord sp (fun a _ s => gatherAt a (BitVec.ofNat 32 (opdVal s a 0 f.c 1)) i s) s := by
  have run : exec i s = execCross i s := by
    unfold crossOf at h
    split at h
    case h_8 => cases h
    all_goals rfl
  rw [run, execCross, h]

/-- Where the batch is the whole group, the word runs once for it (R126). -/
theorem exec_cross_alone {i : Instr} {f : RRR} {sp : WordSpec} {s : State} {a : At} (h : crossOf i = some (f, sp)) (pass : Passes s a sp)
    (alone : GathersAlone a (BitVec.ofNat 32 (opdVal s a 0 f.c 1))) :
    exec i s = .next (crossRun i (regatheredAt s a) a.b.mask (regatheredState s a)) := by
  rw [exec_cross h, issueWord_passes _ pass, gatherAt_alone pass.here alone (mask_ne_zero_of_active pass.act) (by rw [h]; rfl)]

theorem slots_ne_nil_of_active {a : At} {g : Guard} (h : active a g ≠ []) : a.slots ≠ [] := by
  intro none
  exact h (by rw [active, none]; rfl)

/-! The place of the batch after it has gathered. -/

theorem team_regathered {s : State} {a : At} (hi : issuer s = some a) :
    teamOf (regatheredState s a) a.ref.cl a.ref.ts = some (regatheredAt s a).team := by
  obtain ⟨ht, hc, -⟩ := issuer_parts hi
  rw [regatheredState, updCrew_eq_onCrew ht hc, teamOf_onCrew]
  rfl

theorem crew_regathered {s : State} {a : At} (hi : issuer s = some a) : (regatheredAt s a).team.crews[a.ref.cr]? = some (regathered s a) :=
  modAt_const_get (issuer_parts hi).2.1 _

theorem batch_regathered (s : State) (a : At) : (regathered s a).batches[(regatheredAt s a).bi]? = some (readyAt s.cycle a.b) := by
  simp [regathered, regatheredAt]

/-- Gathering changes no operand. -/
theorem opdVal_regathered {s : State} {a : At} (hi : issuer s = some a) (j : Nat) (o : Opd) (n : Nat) :
    opdVal (regatheredState s a) (regatheredAt s a) j o n = opdVal s a j o n := by
  obtain ⟨ht, hc, -⟩ := issuer_parts hi
  have rf : (clusterOf (regatheredState s a) a.ref.cl).rf = (clusterOf s a.ref.cl).rf := by
    rw [regatheredState, updCrew_eq_onCrew ht hc, onCrew_rf]
  have g (m : Nat) : gRead (clusterOf (regatheredState s a) a.ref.cl) (regathered s a) j m = gRead (clusterOf s a.ref.cl) a.crew j m := by
    rw [gRead, gRead, rf]
    rfl
  show readOpd (clusterOf (regatheredState s a) a.ref.cl) (regathered s a) a.kc j o n = readOpd (clusterOf s a.ref.cl) a.crew a.kc j o n
  simp only [readOpd, g]
  rfl

/-! The words that stand at once. -/

theorem crossYield_cross {i : Instr} {s : State} {a : At} {e : W32} {f : RRR} {y : Yield} (h : crossYield i s a e = some (f, y)) :
    (∃ sp, crossOf i = some (f, sp)) ∧ ∃ n v st, y = yields f.d n v st := by
  unfold crossYield at h
  split at h <;> simp only [Option.some.injEq, Prod.mk.injEq, reduceCtorEq] at h <;> obtain ⟨rfl, rfl⟩ := h <;>
    exact ⟨⟨_, rfl⟩, _, _, _, rfl⟩

/-- A word that stands at once writes its yield, and the effective mask beside it (R126 to R131). -/
theorem exchange_at_once {i : Instr} {s : State} {a : At} {f : RRR} {y : Yield} {w : WordSpec × Opd} (hw : gatherOf i = some w)
    (pass : Passes s a w.1) (hy : crossYield i (regatheredState s a) (regatheredAt s a) a.b.mask = some (f, y))
    (alone : GathersAlone a (BitVec.ofNat 32 (opdVal s a 0 w.2 1))) :
    ∃ t, Wrote (regatheredState s a) t (regatheredAt s a) a.slots y
      ∧ exec i s = .next (if f.c.cls = .k then setK t a.ref f.c.num a.b.mask else t) := by
  obtain ⟨⟨sp, hc⟩, n, v, st, rfl⟩ := crossYield_cross hy
  obtain rfl := Option.some.inj ((gatherOf_cross hc).symm.trans hw)
  have hi := pass.here
  have mask : (regatheredAt s a).b.mask ≠ 0#32 := mask_ne_zero_of_active pass.act
  refine ⟨_, finishWord_wrote_at (team_regathered hi) (crew_regathered hi) (batch_regathered s a) mask fun j _ => preds_yields _ _ _ _ j, ?_⟩
  rw [exec_cross_alone hc pass alone, crossRun_yield hy]
  exact congrArg _ (finishWord_besideMask (team_regathered hi) (crew_regathered hi) mask (slots_ne_nil_of_active pass.act) f a.b.mask _)

/-! MXQ, whose results are pending. -/

theorem crossRun_mxq (f : RRR) (a : At) (e : W32) (s : State) :
    crossRun (.mxq f) a e s = finishPend s a ((maskSlots e).map (fun j => (j, .ok (besideMask f e ((yields f.d 1
      (fun j => (blockWord (rmodeOf f.opt.toNat) e (fun k => opdVal s a k f.a 1) (fun k => opdVal s a k f.b 1) j).1)
      (fun j => (blockWord (rmodeOf f.opt.toNat) e (fun k => opdVal s a k f.a 1) (fun k => opdVal s a k f.b 1) j).2)).res j))))) :=
  ends_yields finishPend (r := mxqVal f e (fun k => opdVal s a k f.a 1) (fun k => opdVal s a k f.b 1)) (if_pos rfl) fun j => by rw [mxqVal_eq]

/-- MXQ's destination is no predicate (R155). -/
theorem mxq_dst {f : RRR} {w : WordSpec × Opd} {s : State} {a : At} (hw : gatherOf (.mxq f) = some w) (pass : Passes s a w.1) : f.d.cls ≠ .p := by
  obtain rfl := Option.some.inj hw
  intro p
  have legal := pass.legal
  simp [crossSpec, rrrSpec, posOk, pDstG, pDst, p] at legal

/-- Settles O18: the batch gathers alone, so its word runs at once, with the values that the rules name. -/
theorem crossLaneWordsExchange : Obligations.CrossLaneWordsExchange := by
  unfold Obligations.CrossLaneWordsExchange
  refine ⟨fun i s a f y w m hw pass hy hm alone => ?atOnce, fun f s a w m hw pass hm alone => ?pending⟩
  case atOnce =>
    subst hm
    exact exchange_at_once hw pass hy alone
  case pending =>
    have hd := mxq_dst hw pass
    obtain rfl := Option.some.inj hw
    subst hm
    have mask : (regatheredAt s a).b.mask ≠ 0#32 := mask_ne_zero_of_active pass.act
    obtain ⟨F, run, pends⟩ := finishPend_besideMask mask (slots_ne_nil_of_active pass.act) hd (regatheredState s a) a.b.mask
      (fun j => (blockWord (rmodeOf f.opt.toNat) a.b.mask (fun k => opdVal s a k f.a 1) (fun k => opdVal s a k f.b 1) j).1)
      (fun j => (blockWord (rmodeOf f.opt.toNat) a.b.mask (fun k => opdVal s a k f.a 1) (fun k => opdVal s a k f.b 1) j).2)
    obtain ⟨pend, sticky, moved, rest⟩ := pends (regathered s a)
    refine ⟨F, ?runs, pend, sticky, fun hr => ?moves, ?frame⟩
    case runs =>
      rw [exec_cross_alone rfl pass alone, crossRun_mxq]
      simp only [opdVal_regathered pass.here]
      exact congrArg _ run
    case moves =>
      rw [moved _ (batch_regathered s a) hr, regatheredState, updCrew_cycle]
      exact modAt_length_append _ _ _
    case frame =>
      exact congrArg (fun c : Crew => { c with batches := a.crew.batches, cur := a.crew.cur, mem := a.crew.mem, memRow := a.crew.memRow }) rest

end Sys2Proof.Machine
end

section
/-! Words whose results stand at once, from the checks to the registers (R53, R92 to R94). -/

namespace Sys2Proof.Machine

/-! A word that passes its checks. -/

/-- A word that ends with the results of its yield has written them. -/
theorem issueWord_wrote {sp : WordSpec} {s : State} {a : At} {body : At → List Nat → State → State} {y : Yield} (h : Passes s a sp)
    (ends : body a (active a sp.gd) s = finishWord s a ((active a sp.gd).map (fun z => (z, .ok (y.res z)))))
    (preds : ∀ z, ∀ e ∈ y.preds z, ∀ e' ∈ y.preds z, e.1 = e'.1 → e = e') :
    ∃ t, issueWord sp body s = .next t ∧ Wrote s t a (active a sp.gd) y := by
  refine ⟨_, issueWord_passes body h, ?_⟩
  rw [ends]
  exact finishWord_wrote h.here (mask_ne_zero_of_active h.act) fun z _ => preds z

/-- A word of format RRR. -/
theorem rrr_wrote {fm : RForm} {f : RRR} {port : Nat} {ok : Bool} {s : State} {a : At} {body : At → List Nat → State → State} {y : Yield}
    (h : Passes s a (rrrChecks port f fm.d fm.a fm.b fm.c ok)) (hp : fm.port = port) (hok : ok = true → (fm.ty && fm.opt) = true)
    (ends : body a (active a f.gd) s = finishWord s a ((active a f.gd).map (fun z => (z, .ok (y.res z)))))
    (preds : ∀ z, ∀ e ∈ y.preds z, ∀ e' ∈ y.preds z, e.1 = e'.1 → e = e') :
    ∃ t, issueWord (rrrSpec fm f false false false) body s = .next t ∧ Wrote s t a (active a f.gd) y := by
  have legal := h.legal
  simp only [rrrChecks, rrrSpec, Bool.and_true, Bool.and_eq_true] at legal
  obtain ⟨⟨⟨⟨good, d⟩, a⟩, b⟩, c⟩ := legal
  refine issueWord_wrote (h.cast (congrArg some hp) rfl rfl rfl rfl rfl rfl fun _ => ?_) ends preds
  simp only [rrrSpec, hok good, d, a, b, c, Bool.and_true]

/-- A word of format RRR that computes from its operand values. -/
theorem execRRR_wrote {fm : RForm} {f : RRR} {port : Nat} {ok : Bool} {s : State} {a : At} {run : Nat → Nat → Nat → FRes} {y : Yield}
    (h : Passes s a (rrrChecks port f fm.d fm.a fm.b fm.c ok)) (hp : fm.port = port) (hok : ok = true → (fm.ty && fm.opt) = true)
    (computes : ∀ z, run (opdVal s a z f.a fm.a.n) (opdVal s a z f.b fm.b.n) (opdVal s a z f.c fm.c.n) = y.res z)
    (preds : ∀ z, ∀ e ∈ y.preds z, ∀ e' ∈ y.preds z, e.1 = e'.1 → e = e') :
    ∃ t, execRRR fm f run s = .next t ∧ Wrote s t a (active a f.gd) y :=
  rrr_wrote h hp hok (by simp only [computes]) preds

section
variable {fin : State → At → List (Nat × FOut) → State} {port : Nat} {i : Instr} {w : LocalWord} {s : State} {a : At}

/-- Its fibres run, and their results are put in place. -/
theorem Runs.ends (h : Runs fin port i w) (p : Passes s a w.sp) :
    exec i s = .next (fin s a ((active a w.sp.gd).map (fun z => (z, .ok ((w.y s a).res z))))) := by
  obtain ⟨same, goes⟩ := h.issues ⟨p.here, (h.framed a).symm.trans p.framed, p.legal⟩
  rw [same, goes, if_neg p.act, p.free, if_neg Bool.false_ne_true]

theorem Runs.wrote (h : Runs finishWord port i w) (p : Passes s a w.sp) :
    ∃ t, exec i s = .next t ∧ Wrote s t a (active a w.sp.gd) (w.y s a) :=
  ⟨_, h.ends p, finishWord_wrote p.here (mask_ne_zero_of_active p.act) fun z _ => h.preds s a z⟩

theorem Runs.later (h : Runs finishPend port i w) (p : Passes s a w.sp) :
    ∃ t, exec i s = .next t ∧ Later s t a (active a w.sp.gd) (w.y s a) :=
  ⟨_, h.ends p, finishPend_later (mask_ne_zero_of_active p.act) p.act fun z _ => h.preds s a z⟩

end

/-! Arithmetic (R101). -/

theorem vMin_eq_min : vMin = min := by
  funext x y
  rw [vMin, min_comm, min_def]
  split <;> split <;> omega

theorem vMax_eq_max : vMax = max := by
  funext x y
  rw [vMax, max_def]
  split <;> split <;> omega

theorem abs_eq_max (x : Int) : (if x < 0 then -x else x) = max x (-x) := by
  rw [max_def]
  split <;> split <;> omega

theorem ediv_pow_eq_fdiv (x : Int) (k : Nat) : x / 2 ^ k = x.fdiv (2 ^ k) :=
  (Int.fdiv_eq_ediv_of_nonneg x (by positivity)).symm

/-- What `.sat` leaves of the options: bit [0] where the word has it, no option otherwise. -/
theorem opt_lt_two {sat : Bool} {o : Nat} (h : o < if sat then 2 else 1) : o < 2 := by
  split at h <;> omega

theorem satOption_eq (sat : Bool) (o : Nat) : (if sat then satOnly o else noOpt o) = decide (o < if sat then 2 else 1) := by
  cases sat
  · show (o == 0) = decide (o < 1)
    grind
  · rfl

/-- An arithmetic word of one to three sources; what it computes takes no note of the sources that it lacks. -/
theorem runs_arithWord {i : Instr} {f : RRR} {n : Nat} {sat signed : Bool} {v : Int → Int → Int → Int} (u : Int → Int → Int → Int)
    (word : ∀ s, execWord i s = execArith f n sat signed u s) (exec_ : ∀ s, exec i s = execWord i s)
    (same : ∀ x y z, u x y z = v x (if 2 ≤ n then y else 0) (if 3 ≤ n then z else 0)) : Runs finishWord 3 i (arithWord f n sat signed v) := by
  refine runs_rrr (fm := formT f n (!signed || tySigned f.ty.toNat) (if sat then satOnly f.opt.toNat else noOpt f.opt.toNat)) word exec_ rfl
    (fun h => by rw [satOption_eq]; exact h) fun s a z good _ => ?_
  have opt : f.opt.toNat < 2 := by
    simp only [Bool.and_eq_true, decide_eq_true_eq] at good
    exact opt_lt_two good.2
  have read (m : Nat) (o : Opd) : (if m ≤ n then srcOf f.ty.toNat (opdVal s a z o (if m ≤ n then pSrc (tyWide f.ty.toNat) else pNone).n) else 0)
      = if m ≤ n then srcAt s a z f.ty.toNat o else 0 := by
    split
    · rw [pSrc_n, srcAt]
    · rfl
  show arith f (u (srcOf f.ty.toNat (opdVal s a z f.a (pSrc (tyWide f.ty.toNat)).n))
    (srcOf f.ty.toNat (opdVal s a z f.b (if 2 ≤ n then pSrc (tyWide f.ty.toNat) else pNone).n))
    (srcOf f.ty.toNat (opdVal s a z f.c (if 3 ≤ n then pSrc (tyWide f.ty.toNat) else pNone).n))) = _
  rw [same, read, read, pSrc_n, arith, satOrWrap_eq opt]
  rfl

theorem runs_arithWordI {i : Instr} {f : RI17} {sat : Bool} {v : Int → Int → Int} (u : Int → Int → Int)
    (word : ∀ s, execWord i s = execArithI f sat u s) (exec_ : ∀ s, exec i s = execWord i s) (same : ∀ x y, u x y = v x y) :
    Runs finishWord 3 i (arithWordI f sat v) := by
  obtain rfl : u = v := funext₂ same
  refine runs_ri17 (d := pDst (tyWide f.ty.toNat)) (a := pSrc (tyWide f.ty.toNat))
    (ok' := isIntTy f.ty.toNat && (if sat then satOnly f.opt.toNat else noOpt f.opt.toNat))
    (r := fun x y => res f.d (tyN f.ty.toNat) (satOrWrap (f.opt.toNat % 2 == 1) f.ty.toNat (u (srcOf f.ty.toNat x) (srcOf f.ty.toNat y))).1
      (satOrWrap (f.opt.toNat % 2 == 1) f.ty.toNat (u (srcOf f.ty.toNat x) (srcOf f.ty.toNat y))).2) word exec_
    (fun h => by rw [satOption_eq]; exact h) fun s a z good => ?_
  have opt : f.opt.toNat < 2 := by
    simp only [Bool.and_eq_true, decide_eq_true_eq] at good
    exact opt_lt_two good.2
  dsimp only
  rw [pSrc_n, satOrWrap_eq opt]
  rfl

theorem runs_arithOf {i : Instr} {w : LocalWord} (h : arithOf i = some w) : Runs finishWord 3 i w := by
  unfold arithOf at h
  split at h <;> cases h
  · exact runs_arith (fun _ => rfl) (fun _ => rfl)
  · exact runs_arithI (fun _ => rfl) (fun _ => rfl)
  · exact runs_arithL (fun _ => rfl) (fun _ => rfl)
  · exact runs_arith (fun _ => rfl) (fun _ => rfl)
  · exact runs_arithI (fun _ => rfl) (fun _ => rfl)
  · exact runs_arithL (fun _ => rfl) (fun _ => rfl)
  · exact runs_arith (fun _ => rfl) (fun _ => rfl)
  · exact runs_arithI (fun _ => rfl) (fun _ => rfl)
  · exact runs_arithL (fun _ => rfl) (fun _ => rfl)
  · next f =>
    exact runs_arithWord (fun x y _ => x * y / 2 ^ tyW f.ty.toNat) (fun _ => rfl) (fun _ => rfl) fun x y _ => ediv_pow_eq_fdiv (x * y) _
  · exact runs_arithWord (fun x y z => x * y + z) (fun _ => rfl) (fun _ => rfl) fun _ _ _ => rfl
  · exact runs_arithWord (fun x _ _ => -x) (fun _ => rfl) (fun _ => rfl) fun _ _ _ => rfl
  · exact runs_arithWord (fun x _ _ => if x < 0 then -x else x) (fun _ => rfl) (fun _ => rfl) fun x _ _ => abs_eq_max x
  · exact runs_arithWord (fun x y _ => vMin x y) (fun _ => rfl) (fun _ => rfl) fun x y _ => congrFun₂ vMin_eq_min x y
  · exact runs_arithWordI vMin (fun _ => rfl) (fun _ => rfl) fun x y => congrFun₂ vMin_eq_min x y
  · exact runs_arithWord (fun x y _ => vMax x y) (fun _ => rfl) (fun _ => rfl) fun x y _ => congrFun₂ vMax_eq_max x y
  · exact runs_arithWordI vMax (fun _ => rfl) (fun _ => rfl) fun x y => congrFun₂ vMax_eq_max x y
  · exact runs_arithWord (fun x lo hi => vMin (vMax x lo) hi) (fun _ => rfl) (fun _ => rfl)
      fun x lo hi => by rw [vMin_eq_min, vMax_eq_max]; rfl

/-! Carries (R102). -/

/-- A destination that may be no predicate. -/
theorem cls_ne_p_of_posOk {n : Nat} {p : Pos} {o : Opd} (hn : p.n ≠ 0) (hp : p.p = false) (h : posOk n p o = true) : o.cls ≠ .p := by
  intro cls
  simp [posOk, hn, hp, cls] at h

theorem pDst_n (t : Nat) : (pDst (tyWide t)).n = tyN t := by
  unfold pDst tyN
  split <;> rfl

theorem tyN_ne_zero (t : Nat) : tyN t ≠ 0 := by
  unfold tyN
  split <;> decide

/-- The destination of ADDX and SUBX is no predicate, so only the carry writes one (R102). -/
theorem carry_wrote {f : RRR} {sub : Bool} {s : State} {a : At} (h : Passes s a (carryWord f sub).sp) :
    ∃ t, execCarry f sub s = .next t ∧ Wrote s t a (active a f.gd) ((carryWord f sub).y s a) := by
  have cls : f.d.cls ≠ .p := by
    have legal := h.legal
    simp only [carryWord, rrrChecks, rrrSpec, Bool.and_eq_true] at legal
    obtain ⟨⟨⟨⟨-, d⟩, -⟩, -⟩, -⟩ := legal
    exact cls_ne_p_of_posOk (by show (pDst _).n ≠ 0; rw [pDst_n]; exact tyN_ne_zero _) rfl d
  rw [execCarry]
  refine execRRR_wrote h rfl (fun good => good) (fun z => ?_) fun z e he e' he' _ => ?_
  · simp only [pSrc_n]
    cases sub <;> rfl
  · simp only [Yield.preds, carryWord, cls, if_false, List.nil_append, List.mem_singleton] at he he'
    rw [he, he']

theorem carryOf_wrote {i : Instr} {w : LocalWord} (hw : carryOf i = some w) {s : State} {a : At} (h : Passes s a w.sp) :
    ∃ t, exec i s = .next t ∧ Wrote s t a (active a w.sp.gd) (w.y s a) := by
  unfold carryOf at hw
  split at hw <;> cases hw
  · exact carry_wrote h
  · exact carry_wrote h

/-- Settles O7: the arithmetic words run as the statements say, and the carry goes through its predicate. -/
theorem integerArithmeticWrites : Obligations.IntegerArithmeticWrites := by
  unfold Obligations.IntegerArithmeticWrites
  intro i w hw s a h
  rcases hw with arith | carry
  · exact (runs_arithOf arith).wrote h
  · exact carryOf_wrote carry h

end Sys2Proof.Machine
end

section
/-! Logic, shifts and rotates (R104, R105). -/

namespace Sys2Proof.Machine

/-! Logic (R104). -/

/-- NOT and BREV, the words of one source over bit patterns. -/
theorem runs_bitsOne {i : Instr} {f : RRR} (v : Nat → Nat)
    (word : ∀ s, execWord i s = execRRR (formT f 1 true (noOpt f.opt.toNat)) f
      (fun x _ _ => res f.d (tyN f.ty.toNat) (putOf f.ty.toNat (v (bitsOf f.ty.toNat x))) 0) s)
    (exec_ : ∀ s, exec i s = execWord i s) : Runs finishWord 3 i (bitsWord f 1 (fun x _ => v x)) := by
  refine runs_rrr (fm := formT f 1 true (noOpt f.opt.toNat)) word exec_ rfl (fun h => by simpa [formT, noOpt] using h) fun s a z _ _ => ?_
  show res f.d _ (putOf f.ty.toNat (v (bitsOf f.ty.toNat (opdVal s a z f.a (pSrc (tyWide f.ty.toNat)).n)))) 0 = _
  rw [pSrc_n]
  rfl

/-- The model's operand of ANDN is complemented within W bits, as the statement's. -/
theorem logic_andn (t : Nat) : logic (andn t) t = logic (clearBits t) t := by
  funext x y
  rw [logic, logic, andn, clearBits, notBits, bitsOf_bitsOf]

theorem execLogic_congr {f : RRR} {v u : Nat → Nat → Nat} (h : logic v f.ty.toNat = logic u f.ty.toNat) : execLogic f v = execLogic f u := by
  funext s
  rw [execLogic, execLogic, h]

theorem execLogicI_congr {f : RI17} {v u : Nat → Nat → Nat} (h : logic v f.ty.toNat = logic u f.ty.toNat) : execLogicI f v = execLogicI f u := by
  funext s
  rw [execLogicI, execLogicI, h]

theorem execLogicL_congr {f : RI32} {v u : Nat → Nat → Nat} (h : logic v 2 = logic u 2) : execLogicL f v = execLogicL f u := by
  funext s
  rw [execLogicL, execLogicL, h]

theorem runs_logicOf {i : Instr} {w : LocalWord} (h : logicOf i = some w) : Runs finishWord 3 i w := by
  unfold logicOf at h
  split at h <;> cases h
  · exact runs_bits (fun _ => rfl) (fun _ => rfl)
  · exact runs_bitsI (fun _ => rfl) (fun _ => rfl)
  · exact runs_bitsL (fun _ => rfl) (fun _ => rfl)
  · exact runs_bits (fun _ => rfl) (fun _ => rfl)
  · exact runs_bitsI (fun _ => rfl) (fun _ => rfl)
  · exact runs_bitsL (fun _ => rfl) (fun _ => rfl)
  · exact runs_bits (fun _ => rfl) (fun _ => rfl)
  · exact runs_bitsI (fun _ => rfl) (fun _ => rfl)
  · exact runs_bitsL (fun _ => rfl) (fun _ => rfl)
  · exact runs_bits (congrFun (execLogic_congr (logic_andn _))) (fun _ => rfl)
  · exact runs_bitsI (congrFun (execLogicI_congr (logic_andn _))) (fun _ => rfl)
  · exact runs_bitsL (congrFun (execLogicL_congr (logic_andn _))) (fun _ => rfl)
  · next f => exact runs_bitsOne (fun x => 2 ^ tyW f.ty.toNat - 1 - x) (fun _ => rfl) (fun _ => rfl)

/-! Shifts and rotates (R105). -/

theorem srcOf_lt (t x : Nat) : srcOf t x < 2 ^ tyW t := by
  have low : ((x % 2 ^ tyW t : Nat) : Int) < 2 ^ tyW t := by exact_mod_cast Nat.mod_lt x (by positivity)
  unfold srcOf bitsOf sext
  dsimp only
  split
  · split <;> omega
  · exact low

theorem neg_pow_le_srcOf (t x : Nat) : -2 ^ tyW t ≤ srcOf t x := by
  have pos : (0 : Int) < 2 ^ tyW t := by positivity
  unfold srcOf bitsOf sext
  dsimp only
  split
  · split <;> omega
  · omega

/-- A count at or above W leaves the sign. -/
theorem srcOf_fdiv_of_le {t n : Nat} (x : Nat) (h : tyW t ≤ n) : (srcOf t x).fdiv (2 ^ n) = if srcOf t x < 0 then -1 else 0 := by
  have wide : (2 : Int) ^ tyW t ≤ 2 ^ n := by gcongr; norm_num
  have below := srcOf_lt t x
  have above := neg_pow_le_srcOf t x
  rw [← ediv_pow_eq_fdiv]
  split
  · exact Int.ediv_eq_neg_one_of_neg_of_le (by assumption) (by omega)
  · exact Int.ediv_eq_zero_of_lt (by omega) (by omega)

theorem vShr_eq (t x n : Nat) : vShr t x n = shrVal t x n := by
  unfold vShr shrVal
  split
  · next h => rw [srcOf_fdiv_of_le x h]
  · rw [ediv_pow_eq_fdiv]

theorem tyW_pos (t : Nat) : 0 < tyW t := by
  unfold tyW
  positivity

/-- The bits that a left shift by `m` moves past bit `w`. -/
theorem mul_pow_div_pow {w m : Nat} (x : Nat) (h : m ≤ w) : x * 2 ^ m / 2 ^ w = x / 2 ^ (w - m) := by
  rw [← Nat.sub_add_cancel h, pow_add, Nat.mul_div_mul_right _ _ (by positivity), Nat.add_sub_cancel]

theorem vRot_eq (t x n : Nat) : vRot t x n = rotVal t x n := by
  have count : n % tyW t ≤ tyW t := (Nat.mod_lt _ (tyW_pos t)).le
  rw [rotVal, mul_pow_div_pow _ count]
  rfl

/-- A shifting word of format RRR. -/
theorem runs_shift {i : Instr} {f : RRR} {v : Nat → Nat → Nat → Nat} (u : Nat → Nat → Nat → Nat)
    (word : ∀ s, execWord i s = execShift f u s) (exec_ : ∀ s, exec i s = execWord i s) (same : ∀ t x n, u t x n = v t x n) :
    Runs finishWord 3 i (shiftWord f v) := by
  refine runs_rrr (fm := { formT f 2 true (noOpt f.opt.toNat) with b := pSrc false }) word exec_ rfl
    (fun h => by simpa [formT, noOpt] using h) fun s a z _ _ => ?_
  show res f.d _ (u f.ty.toNat (opdVal s a z f.a (pSrc (tyWide f.ty.toNat)).n) (opdVal s a z f.b (pSrc false).n % 2 ^ 32)) 0 = _
  rw [pSrc_n, same]
  rfl

/-- A shifting word of format RI17. -/
theorem runs_shiftI {i : Instr} {f : RI17} {v : Nat → Nat → Nat → Nat} (u : Nat → Nat → Nat → Nat)
    (word : ∀ s, execWord i s = execShiftI f u s) (exec_ : ∀ s, exec i s = execWord i s) (same : ∀ t x n, u t x n = v t x n) :
    Runs finishWord 3 i (shiftWordI f v) := by
  refine runs_ri17 (d := pDst (tyWide f.ty.toNat)) (a := pSrc (tyWide f.ty.toNat)) (ok' := isIntTy f.ty.toNat && noOpt f.opt.toNat)
    (r := fun x y => res f.d (tyN f.ty.toNat) (u f.ty.toNat x (y % 2 ^ 32)) 0) word exec_ (fun h => h) fun s a z _ => ?_
  rw [pSrc_n, same]

theorem runs_shiftOf {i : Instr} {w : LocalWord} (h : shiftOf i = some w) : Runs finishWord 3 i w := by
  unfold shiftOf at h
  split at h <;> cases h
  · exact runs_shift vShl (fun _ => rfl) (fun _ => rfl) vShl_eq
  · exact runs_shiftI vShl (fun _ => rfl) (fun _ => rfl) vShl_eq
  · exact runs_shift vShr (fun _ => rfl) (fun _ => rfl) vShr_eq
  · exact runs_shiftI vShr (fun _ => rfl) (fun _ => rfl) vShr_eq
  · exact runs_shift vRot (fun _ => rfl) (fun _ => rfl) vRot_eq
  · exact runs_shiftI vRot (fun _ => rfl) (fun _ => rfl) vRot_eq

/-- Settles O8: every logic word and every shift runs with the value that the statements give it, at any count. -/
theorem logicAndShiftWrite : Obligations.LogicAndShiftWrite := by
  unfold Obligations.LogicAndShiftWrite
  intro i w hw s a h
  rcases hw with logic | shift
  · exact (runs_logicOf logic).wrote h
  · exact (runs_shiftOf shift).wrote h

end Sys2Proof.Machine
end

section
/-! Counts, bit fields and bytes; selection, moves and addresses; predicates (R106 to R112, R118, R121). -/

namespace Sys2Proof.Machine

/-! Counts, bit fields and bytes (R106 to R108). -/

theorem runs_count {i : Instr} {f : RRR} {v : Nat → Nat → Nat} (word : ∀ s, execWord i s = execCount f v s)
    (exec_ : ∀ s, exec i s = execWord i s) : Runs finishWord 3 i (countWord f v) := by
  refine runs_rrr (fm := { formT f 1 true (noOpt f.opt.toNat) with d := pDst false }) word exec_ rfl
    (fun h => by simpa [formT, noOpt] using h) fun s a z _ _ => ?_
  show res f.d 1 (v (tyW f.ty.toNat) (bitsOf f.ty.toNat (opdVal s a z f.a (pSrc (tyWide f.ty.toNat)).n))) 0 = _
  rw [pSrc_n]
  rfl

theorem slice_zero (x n : Nat) : slice x 0 n = x % 2 ^ n := by simp [slice]

theorem fieldPos_eq (t spec : Nat) : fieldPos t spec = min (slice spec 0 8) (tyW t) := by rw [slice_zero]; rfl

theorem fieldLen_eq (t spec : Nat) : fieldLen t spec = min (slice spec 8 8) (tyW t - min (slice spec 0 8) (tyW t)) := by
  rw [fieldLen, fieldPos_eq]
  rfl

theorem vBfx_eq (t x spec : Nat) : vBfx t x spec = bfxVal t x spec := by
  simp only [vBfx, bfxVal, fieldPos_eq, fieldLen_eq, Bool.and_eq_true, decide_eq_true_eq, and_assoc]
  rfl

theorem vBfi_eq (t x y spec : Nat) : vBfi t x y spec = bfiVal t x y spec := by
  simp only [vBfi, bfiVal, fieldPos_eq, fieldLen_eq, notBits]

theorem tb_eq_getLsbD {n : Nat} (x : BitVec n) (k : Nat) : tb x.toNat k = x.getLsbD k := by
  rw [BitVec.getLsbD, Nat.testBit_eq_decide_div_mod_eq, tb]
  rfl

/-- Without bit [16] the immediate is its low half, which the sign extension leaves. -/
theorem immOf_of_low {f : RI17} (h : f.imm.getLsbD 16 = false) : immOf f = f.imm.toNat % 2 ^ 16 := by
  have bit : f.imm.toNat / 2 ^ 16 % 2 = 0 := by
    rw [← tb_eq_getLsbD, tb, beq_eq_false_iff_ne] at h
    omega
  have low : f.imm.toNat < 2 ^ 16 := by have := f.imm.isLt; omega
  have ext : sext 17 f.imm.toNat = f.imm.toNat := by
    unfold sext
    dsimp only
    rw [if_pos (by omega), Nat.mod_eq_of_lt (by omega)]
  rw [immOf, ext, wrapNat, Nat.mod_eq_of_lt low]
  omega

theorem runs_bfxI (f : RI17) (w : LocalWord) (hw : fieldOf (.bfxRI17 f) = some w) : Runs finishWord 3 (.bfxRI17 f) w := by
  cases hw
  refine runs_ri17 (d := pDst (tyWide f.ty.toNat)) (a := pSrc (tyWide f.ty.toNat))
    (ok' := isIntTy f.ty.toNat && noOpt f.opt.toNat && !tb f.imm.toNat 16) (r := fun x y => res f.d (tyN f.ty.toNat) (vBfx f.ty.toNat x y) 0)
    (fun _ => rfl) (fun _ => rfl) (fun h => by rw [tb_eq_getLsbD]; exact h) fun s a z good => ?_
  have low : f.imm.getLsbD 16 = false := by
    simp only [Bool.and_eq_true, Bool.not_eq_true'] at good
    exact good.2
  rw [pSrc_n, immOf_of_low low, vBfx_eq]

theorem runs_bfi (f : RRR) (w : LocalWord) (hw : fieldOf (.bfi f) = some w) : Runs finishWord 3 (.bfi f) w := by
  cases hw
  refine runs_rrr (fm := { formT f 3 true (noOpt f.opt.toNat) with c := pSrc false }) (fun _ => rfl) (fun _ => rfl) rfl
    (fun h => by simpa [formT, noOpt] using h) fun s a z _ _ => ?_
  show res f.d _ (vBfi f.ty.toNat (opdVal s a z f.a (pSrc (tyWide f.ty.toNat)).n) (opdVal s a z f.b (pSrc (tyWide f.ty.toNat)).n)
    (opdVal s a z f.c (pSrc false).n)) 0 = _
  rw [pSrc_n, vBfi_eq]
  rfl

/-- BSWZ and P2G are of type .z32, so their positions are 32 bits wide. -/
theorem rrrSpec_z32 {f : RRR} {n : Nat} (ty : f.ty.toNat = 6) (opt : f.opt.toNat = 0) :
    rrrSpec (formT f n (f.ty.toNat == 6) (noOpt f.opt.toNat)) f false false false
      = rrrChecks 3 f (pDst false) (pSrc false) (if 2 ≤ n then pSrc false else pNone) (if 3 ≤ n then pSrc false else pNone)
          (f.ty.toNat == 6 && f.opt.toNat == 0) := by
  have narrow : tyWide 6 = false := rfl
  simp only [rrrChecks, formT, ty, opt, narrow]
  rfl

theorem bswz_wrote {f : RRR} {w : LocalWord} (hw : fieldOf (.bswz f) = some w) {s : State} {a : At} (h : Passes s a w.sp) :
    ∃ t, exec (.bswz f) s = .next t ∧ Wrote s t a (active a w.sp.gd) (w.y s a) := by
  cases hw
  have legal := h.legal
  simp only [rrrChecks, rrrSpec, Bool.and_eq_true, beq_iff_eq] at legal
  obtain ⟨⟨⟨⟨⟨⟨ty, opt⟩, -⟩, -⟩, -⟩, -⟩, -⟩ := legal
  show ∃ t, execBswz f s = .next t ∧ _
  rw [execBswz, execRRR, rrrSpec_z32 ty opt]
  refine issueWord_wrote h ?_ fun z => preds_yields _ _ _ _ z
  have narrow : (pSrc (tyWide f.ty.toNat)).n = 1 := by rw [ty]; rfl
  simp only [formT, narrow, res_yields, le_refl, if_true, show 2 ≤ 3 by decide]

theorem fieldOf_wrote {i : Instr} {w : LocalWord} (hw : fieldOf i = some w) {s : State} {a : At} (h : Passes s a w.sp) :
    ∃ t, exec i s = .next t ∧ Wrote s t a (active a w.sp.gd) (w.y s a) := by
  have whole := hw
  unfold fieldOf at hw
  split at hw
  · cases hw; exact (runs_count (fun _ => rfl) (fun _ => rfl)).wrote h
  · cases hw; exact (runs_count (fun _ => rfl) (fun _ => rfl)).wrote h
  · cases hw; exact (runs_count (fun _ => rfl) (fun _ => rfl)).wrote h
  · next f => cases hw; exact (runs_bitsOne (bitRev (tyW f.ty.toNat)) (fun _ => rfl) (fun _ => rfl)).wrote h
  · cases hw; exact (runs_shift vBfx (fun _ => rfl) (fun _ => rfl) vBfx_eq).wrote h
  · next f => exact (runs_bfxI f w whole).wrote h
  · next f => exact (runs_bfi f w whole).wrote h
  · next f => exact bswz_wrote whole h
  · cases hw

/-! Selection, comparison, moves and addresses (R109 to R111). -/

theorem runs_mov (f : RRR) (w : LocalWord) (hw : moveOf (.mov f) = some w) : Runs finishWord 3 (.mov f) w := by
  cases hw
  refine runs_rrr (fm := formT f 1 true (noOpt f.opt.toNat)) (fun _ => rfl) (fun _ => rfl) rfl
    (fun h => by simpa [formT, noOpt] using h) fun s a z _ _ => ?_
  show res f.d _ (putOf f.ty.toNat (srcOf f.ty.toNat (opdVal s a z f.a (pSrc (tyWide f.ty.toNat)).n))) 0 = _
  rw [pSrc_n]
  rfl

theorem runs_lea (f : RRR) (w : LocalWord) (hw : moveOf (.leaRRR f) = some w) : Runs finishWord 3 (.leaRRR f) w := by
  cases hw
  refine runs_rrr (fm := { port := 3, d := pDst true, a := pSrc true, b := pSrc (tyWide f.ty.toNat), c := pNone,
                           ty := f.ty.toNat == 2 || f.ty.toNat == 6 || f.ty.toNat == 3 || f.ty.toNat == 7,
                           opt := decide (f.opt.toNat < 8) }) (fun _ => rfl) (fun _ => rfl) rfl (fun h => h) fun s a z _ _ => ?_
  show res f.d 2 (vLea f.ty.toNat (opdVal s a z f.a 2) (opdVal s a z f.b (pSrc (tyWide f.ty.toNat)).n) f.opt.toNat) 0 = _
  rw [pSrc_n]
  rfl

theorem runs_leaI (f : RI17) (w : LocalWord) (hw : moveOf (.leaRI17 f) = some w) : Runs finishWord 3 (.leaRI17 f) w := by
  cases hw
  exact runs_ri17 (d := pDst true) (a := pSrc true) (ok' := f.ty.toNat == 2 && decide (f.opt.toNat < 8))
    (r := fun x y => res f.d 2 (vLea 2 x y f.opt.toNat) 0) (fun _ => rfl) (fun _ => rfl) (fun h => h) fun s a z _ => rfl

/-- MOVI's operand field a is unused: zero, and no register (R50). -/
theorem movi_wrote {f : RI32} {w : LocalWord} (hw : moveOf (.movi f) = some w) {s : State} {a : At} (h : Passes s a w.sp) :
    ∃ t, exec (.movi f) s = .next t ∧ Wrote s t a (active a w.sp.gd) (w.y s a) := by
  cases hw
  show ∃ t, execMovi f s = .next t ∧ _
  rw [execMovi, execRI32]
  refine issueWord_wrote (y := yields (ri32Dst f) 1 (fun _ => f.imm.toNat) (fun _ => 0))
    (h.cast rfl rfl rfl rfl rfl (List.append_nil _) rfl fun legal => legal) ?_ fun z => preds_yields _ _ _ _ z
  simp only [res_yields]

/-- A destination of one register takes the low 32 bits of its value. -/
theorem res_one_congr {o : Opd} {v u : Nat} (st : Nat) (h : v % 2 ^ 32 = u % 2 ^ 32) : res o 1 v st = res o 1 u st := by
  have reg : BitVec.ofNat 32 v = BitVec.ofNat 32 u := BitVec.eq_of_toNat_eq h
  have bit : v % 2 = u % 2 := by omega
  simp only [res, destWr, List.range_one, List.map_cons, List.map_nil, Nat.mul_zero, pow_zero, Nat.div_one, reg, bit]

theorem vMovk_mod (old : Nat) (imm : BitVec 17) : vMovk old imm.toNat % 2 ^ 32
    = (if imm.getLsbD 16 then slice old 0 16 + imm.toNat % 2 ^ 16 * 2 ^ 16 else imm.toNat % 2 ^ 16 + slice old 16 16 * 2 ^ 16) % 2 ^ 32 := by
  rw [vMovk, tb_eq_getLsbD]
  split
  · rw [slice_zero]
  · unfold slice
    omega

theorem movk_wrote {f : RI17} {w : LocalWord} (hw : moveOf (.movk f) = some w) {s : State} {a : At} (h : Passes s a w.sp) :
    ∃ t, exec (.movk f) s = .next t ∧ Wrote s t a (active a w.sp.gd) (w.y s a) := by
  cases hw
  show ∃ t, execMovk f s = .next t ∧ _
  rw [execMovk]
  refine issueWord_wrote (h.cast rfl rfl rfl rfl rfl (List.append_nil _).symm rfl fun legal => legal) ?_ fun z => preds_yields _ _ _ _ z
  simp only [res_yields]
  exact congrArg (finishWord s a) (List.map_congr_left fun z _ => by rw [res_one_congr 0 (vMovk_mod _ _)])

theorem moveOf_wrote {i : Instr} {w : LocalWord} (hw : moveOf i = some w) {s : State} {a : At} (h : Passes s a w.sp) :
    ∃ t, exec i s = .next t ∧ Wrote s t a (active a w.sp.gd) (w.y s a) := by
  have whole := hw
  unfold moveOf at hw
  split at hw
  · next f => exact (runs_sel f w whole).wrote h
  · next f => exact (runs_cmp f w whole).wrote h
  · next f => exact (runs_cmpI f w whole).wrote h
  · next f => exact (runs_mov f w whole).wrote h
  · next f => exact (runs_lea f w whole).wrote h
  · next f => exact (runs_leaI f w whole).wrote h
  · next f => exact movi_wrote whole h
  · next f => exact movk_wrote whole h
  · cases hw

/-! Predicates (R112, R118, R121). -/

theorem opdVal_pred {o : Opd} {n : Nat} (h : posOk n pPred o = true) (s : State) (a : At) (z k : Nat) :
    opdVal s a z o k = bNat (pRead a.crew z o.num) := by
  have cls : o.cls = .p := by cases e : o.cls <;> simp [posOk, pPred, e] at h ⊢
  simp [opdVal, readOpd, cls]

theorem bNat_and (x y : Bool) : bNat x * bNat y = bNat (x && y) := by cases x <;> cases y <;> rfl
theorem bNat_or (x y : Bool) : max (bNat x) (bNat y) = bNat (x || y) := by cases x <;> cases y <;> rfl
theorem bNat_xor (x y : Bool) : (bNat x + bNat y) % 2 = bNat (x != y) := by cases x <;> cases y <;> rfl
theorem bNat_not (x : Bool) : 1 - bNat x = bNat (!x) := by cases x <;> rfl

/-- A word over predicates: `v` on truth values is what the model computes on their numbers. -/
theorem preds_wrote {f : RRR} {two : Bool} {u : Nat → Nat → Nat} {v : Bool → Bool → Bool} {s : State} {a : At}
    (h : Passes s a (predsWord f two v).sp) (same : ∀ x y m, (two = true → m = bNat y) → u (bNat x) m = bNat (v x y)) :
    ∃ t, execPred f two u s = .next t ∧ Wrote s t a (active a f.gd) ((predsWord f two v).y s a) := by
  have legal := h.legal
  simp only [predsWord, rrrChecks, rrrSpec, Bool.and_eq_true] at legal
  obtain ⟨⟨⟨-, pa⟩, pb⟩, -⟩ := legal
  rw [execPred]
  refine execRRR_wrote h rfl (fun good => good) (fun z => ?_) fun z => preds_yields _ _ _ _ z
  rw [opdVal_pred pa, same _ (pRead a.crew z f.b.num)]
  · simp only [predsWord, res_yields]
  · rintro rfl
    exact opdVal_pred pb _ _ _ _

theorem p2g_wrote {f : RRR} {w : LocalWord} (hw : predOf (.p2g f) = some w) {s : State} {a : At} (h : Passes s a w.sp) :
    ∃ t, exec (.p2g f) s = .next t ∧ Wrote s t a (active a w.sp.gd) (w.y s a) := by
  cases hw
  have legal := h.legal
  simp only [rrrChecks, rrrSpec, Bool.and_eq_true, beq_iff_eq] at legal
  obtain ⟨⟨⟨⟨⟨⟨ty, opt⟩, -⟩, -⟩, -⟩, -⟩, -⟩ := legal
  show ∃ t, execP2g f s = .next t ∧ _
  rw [execP2g, rrrSpec_z32 ty opt]
  refine issueWord_wrote h ?_ fun z => preds_yields _ _ _ _ z
  simp only [res_yields, slice_zero]

theorem g2p_wrote {f : RRR} {w : LocalWord} (hw : predOf (.g2p f) = some w) {s : State} {a : At} (h : Passes s a w.sp) :
    ∃ t, exec (.g2p f) s = .next t ∧ Wrote s t a (active a w.sp.gd) (w.y s a) := by
  cases hw
  show ∃ t, execG2p f s = .next t ∧ _
  rw [execG2p]
  refine execRRR_wrote h rfl (fun good => good) (fun z => ?_) fun z e he e' he' same => ?_
  · simp only [Yield.res, destWr, List.nil_append, List.map_map]
    rfl
  · simp only [Yield.preds, reduceCtorEq, if_false, List.nil_append, List.mem_map] at he he'
    obtain ⟨j, -, rfl⟩ := he
    obtain ⟨j', -, rfl⟩ := he'
    obtain rfl : j = j' := same
    rfl

theorem active_wrote {f : RRR} {w : LocalWord} (hw : predOf (.active f) = some w) {s : State} {a : At} (h : Passes s a w.sp) :
    ∃ t, exec (.active f) s = .next t ∧ Wrote s t a (active a w.sp.gd) (w.y s a) := by
  cases hw
  show ∃ t, execActive f s = .next t ∧ _
  rw [execActive]
  refine rrr_wrote h rfl (fun good => good) ?_ fun z => preds_yields _ _ _ _ z
  simp only [res_yields]
  rfl

theorem nop_wrote {f : RRR} {w : LocalWord} (hw : predOf (.nop f) = some w) {s : State} {a : At} (h : Passes s a w.sp) :
    ∃ t, exec (.nop f) s = .next t ∧ Wrote s t a (active a w.sp.gd) (w.y s a) := by
  cases hw
  show ∃ t, execNop f s = .next t ∧ _
  rw [execNop]
  exact execRRR_wrote h rfl (fun good => good) (fun _ => rfl) fun z => preds_yields _ _ _ _ z

theorem predOf_wrote {i : Instr} {w : LocalWord} (hw : predOf i = some w) {s : State} {a : At} (h : Passes s a w.sp) :
    ∃ t, exec i s = .next t ∧ Wrote s t a (active a w.sp.gd) (w.y s a) := by
  have whole := hw
  unfold predOf at hw
  split at hw
  · cases hw; exact preds_wrote (u := fun x y => x * y) h fun x y _ second => by rw [second rfl, bNat_and]
  · cases hw; exact preds_wrote (u := fun x y => max x y) h fun x y _ second => by rw [second rfl, bNat_or]
  · cases hw; exact preds_wrote (u := fun x y => (x + y) % 2) h fun x y _ second => by rw [second rfl, bNat_xor]
  · cases hw; exact preds_wrote (u := fun x _ => 1 - x) h fun x _ _ _ => bNat_not x
  · exact p2g_wrote whole h
  · exact g2p_wrote whole h
  · exact active_wrote whole h
  · exact nop_wrote whole h
  · cases hw

/-- Settles O9: each word of the three tables runs with the yield that its table gives it. -/
theorem fieldAndMoveWordsWrite : Obligations.FieldAndMoveWordsWrite := by
  unfold Obligations.FieldAndMoveWordsWrite
  exact ⟨fun _ _ hw _ _ => fieldOf_wrote hw, fun _ _ hw _ _ => moveOf_wrote hw, fun _ _ hw _ _ => predOf_wrote hw⟩

end Sys2Proof.Machine
end

section
/-! Words of variable latency (R99, R103, R144, R152 to R156). -/

namespace Sys2Proof.Machine

/-! Division (R103). -/

theorem vDiv_eq (t : Nat) (x y : Int) : vDiv t x y = (quotRem t x y).1 := by
  simp only [vDiv, quotRem, Bool.and_eq_true, decide_eq_true_eq, and_assoc]
  split
  · rfl
  · split <;> rfl

theorem vRem_eq (t : Nat) (x y : Int) : vRem t x y = (quotRem t x y).2 := by
  simp only [vRem, quotRem, Bool.and_eq_true, decide_eq_true_eq, and_assoc]
  split
  · rfl
  · split
    · rfl
    · exact (Int.tmod_def x y).symm

theorem runs_divRem {i : Instr} {f : RRR} {pick : Int × Int → Int} (u : Nat → Int → Int → Int)
    (word : ∀ s, execWord i s = execDivRem f u s) (exec_ : ∀ s, exec i s = execWord i s) (same : ∀ t x y, u t x y = pick (quotRem t x y)) :
    Runs finishPend 2 i (divWord f pick) := by
  refine runs_rrr (fm := { formT f 2 true (noOpt f.opt.toNat) with port := 2 }) word exec_ rfl
    (fun h => by simpa [formT, noOpt] using h) fun s a z _ _ => ?_
  show res f.d _ (putOf f.ty.toNat (u f.ty.toNat (srcOf f.ty.toNat (opdVal s a z f.a (pSrc (tyWide f.ty.toNat)).n))
    (srcOf f.ty.toNat (opdVal s a z f.b (pSrc (tyWide f.ty.toNat)).n))))
    (if srcOf f.ty.toNat (opdVal s a z f.b (pSrc (tyWide f.ty.toNat)).n) = 0 then stDivZero else 0) = _
  rw [pSrc_n, same]
  rfl

/-! Special functions (R156). -/

theorem runs_special {i : Instr} {f : RRR} (out : FVal → Rounded) (word : ∀ s, execWord i s = execSpecial f out s)
    (exec_ : ∀ s, exec i s = execWord i s) : Runs finishPend 2 i (specialWord f out) :=
  runs_rrr (fm := fForm 2 1 (f.ty.toNat == 8) (noOpt f.opt.toNat)) word exec_ rfl (fun h => h) fun _ _ _ _ _ => rfl

/-! Conversions (R144, R152 to R154). -/

theorem slice_opt_high (f : RRR) : slice f.opt.toNat 2 3 = f.opt.toNat / 4 := by
  have := f.opt.isLt
  unfold slice
  omega

/-- A converting word: its fibres' dither and operand give the value and the sticky bits. -/
theorem runs_conv {i : Instr} {f : RRR} {d a : Pos} {ok : Bool} {v st : RMode → Nat → Nat → Nat}
    (conv : RMode → Nat → Nat → FRes) (word : ∀ s, execWord i s = execConv f d a ok conv s) (exec_ : ∀ s, exec i s = execWord i s)
    (same : ∀ m dith x, conv m dith x = res f.d (if d.n = 2 then 2 else 1) (v m dith x) (st m dith x)) :
    Runs finishPend 2 i (convWord f d a ok v st) :=
  runs_rrr (fm := { port := 2, d := d, a := a, b := pNone, c := if rmodeOf f.opt.toNat = .rs then pGks else pNone, ty := ok, opt := true })
    word exec_ rfl (fun h => by simpa using h) fun _ _ _ _ _ => same _ _ _

theorem dst_count (t : Nat) : (if (pDst (tyWide t)).n = 2 then 2 else 1) = tyN t := by
  unfold pDst tyN
  split <;> rfl

theorem runs_f2i (f : RRR) (w : LocalWord) (hw : laterOf (.f2i f) = some w) : Runs finishPend 2 (.f2i f) w := by
  cases hw
  rw [slice_opt_high]
  exact runs_conv (fun mode dith x =>
      let r := toInt mode dith (tyLo f.ty.toNat) (tyHi f.ty.toNat) (xfVal (f.opt.toNat / 4) x)
      res f.d (tyN f.ty.toNat) (putOf f.ty.toNat r.1) r.2)
    (fun _ => rfl) (fun _ => rfl) fun _ _ _ => by rw [dst_count]

theorem runs_i2f (f : RRR) (w : LocalWord) (hw : laterOf (.i2f f) = some w) : Runs finishPend 2 (.i2f f) w := by
  cases hw
  rw [slice_opt_high]
  exact runs_conv (fun mode dith x => fRes f.d (roundFp (fmtOfTy f.ty.toNat) mode dith (ofInt (srcOf (f.opt.toNat / 4) x))))
    (fun _ => rfl) (fun _ => rfl) fun _ _ _ => rfl

theorem runs_unpack8 (f : RRR) (w : LocalWord) (hw : laterOf (.unpack8 f) = some w) : Runs finishPend 2 (.unpack8 f) w := by
  cases hw
  exact runs_rrr (fm := fForm 2 1 (f.ty.toNat == 11 || f.ty.toNat == 12) (decide (f.opt.toNat < 4))) (fun _ => rfl) (fun _ => rfl) rfl
    (fun h => h) fun _ _ _ _ _ => rfl

theorem runs_laterOf {i : Instr} {w : LocalWord} (hw : laterOf i = some w) : Runs finishPend 2 i w := by
  have whole := hw
  unfold laterOf at hw
  split at hw
  · cases hw; exact runs_divRem vDiv (fun _ => rfl) (fun _ => rfl) vDiv_eq
  · cases hw; exact runs_divRem vRem (fun _ => rfl) (fun _ => rfl) vRem_eq
  · cases hw; exact runs_special rcpOut (fun _ => rfl) (fun _ => rfl)
  · cases hw; exact runs_special rsqOut (fun _ => rfl) (fun _ => rfl)
  · cases hw; exact runs_special sqrtOut (fun _ => rfl) (fun _ => rfl)
  · cases hw; exact runs_special exp2Out (fun _ => rfl) (fun _ => rfl)
  · cases hw; exact runs_special log2Out (fun _ => rfl) (fun _ => rfl)
  · cases hw; exact runs_special sinOut (fun _ => rfl) (fun _ => rfl)
  · cases hw; exact runs_special cosOut (fun _ => rfl) (fun _ => rfl)
  · cases hw; exact runs_special tanhOut (fun _ => rfl) (fun _ => rfl)
  · next f => exact runs_fcvt f w whole
  · next f => exact runs_f2i f w whole
  · next f => exact runs_i2f f w whole
  · next f => exact runs_pack8 f w whole
  · next f => exact runs_unpack8 f w whole
  · cases hw

/-- Settles O11: each word of variable latency runs with the yield that the statements give it, and its results are pending. -/
theorem variableLatencyPends : Obligations.VariableLatencyPends := by
  unfold Obligations.VariableLatencyPends
  exact fun _ _ hw _ _ h => (runs_laterOf hw).later h

end Sys2Proof.Machine
end

section
/-! RESULT_WRITE (R99, R311), and the events of the scheduler (R269 to R272). -/

namespace Sys2Proof.Machine

/-! RESULT_WRITE: the results that have come, as events on the crew and its registers. -/

/-- The write of a pending result. -/
def Pend.ev (p : Pend) : Option WordEv :=
  match p.val, p.dst with
  | some v, .g j n => some (.w j true (.g n v))
  | some v, .k n => some (.w 0 true (.k n v))
  | _, _ => none

/-- The writes of a crew's ready results. -/
def readyEvs (c : Crew) : List WordEv := (c.pend.filter (·.ready)).filterMap Pend.ev

theorem settleOne_eq (s : State) (r : CrewRef) (p : Pend) :
    settleOne s r p = match p.ev with | some e => evState r s e | none => s := by
  unfold settleOne Pend.ev
  cases p.val with
  | none => rfl
  | some v => cases p.dst <;> rfl

theorem settleAll_eq (r : CrewRef) : ∀ (l : List Pend) (s : State),
    l.foldl (fun u p => settleOne u r p) s = (l.filterMap Pend.ev).foldl (evState r) s
  | [], _ => rfl
  | p :: l, s => by
    rw [List.foldl_cons, settleAll_eq r l, settleOne_eq, List.filterMap_cons]
    cases p.ev <;> rfl

theorem Pend.ev_g {p : Pend} {j n : Nat} {low : Bool} {v : W32} (h : p.ev = some (.w j low (.g n v))) : p.dst = .g j n ∧ p.val = some v := by
  unfold Pend.ev at h
  split at h
  · next hv hd => cases h; exact ⟨hd, hv⟩
  · cases h
  · cases h

theorem Pend.ev_k {p : Pend} {j n : Nat} {low : Bool} {v : W32} (h : p.ev = some (.w j low (.k n v))) : p.dst = .k n ∧ p.val = some v := by
  unfold Pend.ev at h
  split at h
  · cases h
  · next hv hd => cases h; exact ⟨hd, hv⟩
  · cases h

theorem of_mem_readyEvs {c : Crew} {e : WordEv} (h : e ∈ readyEvs c) : ∃ p ∈ c.pend, p.ev = some e := by
  obtain ⟨p, hp, he⟩ := List.mem_filterMap.1 h
  exact ⟨p, List.mem_of_mem_filter hp, he⟩

theorem ev_mem_readyEvs {c : Crew} {p : Pend} {e : WordEv} (hp : p ∈ c.pend) (ready : p.ready = true) (he : p.ev = some e) : e ∈ readyEvs c :=
  List.mem_filterMap.2 ⟨p, List.mem_filter.2 ⟨hp, ready⟩, he⟩

/-- Slots and numbers within the window have registers of their own (R14). -/
theorem regNo_inj {c : Crew} {i j n m : Nat} (hn : n < c.win) (hm : m < c.win) (h : regNo c i n = regNo c j m) : i = j ∧ n = m := by
  have same : n + c.win * i = m + c.win * j := by
    simp only [regNo] at h
    rw [Nat.mul_comm c.win i, Nat.mul_comm c.win j]
    omega
  have pos : 0 < c.win := by omega
  obtain ⟨di, ri⟩ := (Nat.div_mod_unique (d := i) pos).2 ⟨rfl, hn⟩
  obtain ⟨dj, rj⟩ := (Nat.div_mod_unique pos).2 ⟨same.symm, hm⟩
  exact ⟨di.symm.trans dj, ri.symm.trans rj⟩

/-- The registers and the crew with every ready result written. -/
def landed (rf : Cells 32) (c : Crew) : Cells 32 × Crew := (readyEvs c).foldl evPure (rf, c)

theorem landed_rest (rf : Cells 32) (c : Crew) :
    { (landed rf c).2 with k := c.k, preds := c.preds, stat := c.stat } = c := evs_rest (readyEvs c) (rf, c)

theorem landed_pend (rf : Cells 32) (c : Crew) : (landed rf c).2.pend = c.pend := by
  have same := congrArg Crew.pend (landed_rest rf c)
  exact same

/-- The crew when its ready results are written: their pending bits are clear. -/
def landedCrew (rf : Cells 32) (c : Crew) : Crew := unhazard { (landed rf c).2 with pend := c.pend.filter (fun p => !p.ready) }

theorem settle_eq {s : State} {r : CrewRef} {t : Team} {c : Crew} (ht : teamOf s r.cl r.ts = some t) (hc : t.crews[r.cr]? = some c) :
    settle s r = onCrew s r t (landed (clusterOf s r.cl).rf c).1 (landedCrew (clusterOf s r.cl).rf c) := by
  have here : crewOf s r = some c := by simp [crewOf, ht, hc]
  have shape := Shape.evs ht hc (readyEvs c) (x := s) (p := ((clusterOf s r.cl).rf, c)) (.inl ⟨rfl, rfl, hc⟩)
  rw [settle, here]
  dsimp only
  rw [settleAll_eq]
  exact (shape.upd ht _).trans (by rw [landedCrew, ← landed_pend (clusterOf s r.cl).rf c]; rfl)

/-- A ready result's g-register holds it. -/
theorem landed_g {rf : Cells 32} {c : Crew} (distinct : (c.pend.map (·.dst)).Nodup) (fits : ∀ p ∈ c.pend, ∀ j n, p.dst = .g j n → n < c.win)
    {p : Pend} (hp : p ∈ c.pend) (ready : p.ready = true) {j n : Nat} {v : W32} (hd : p.dst = .g j n) (hv : p.val = some v) :
    cRead (landed rf c).1 (regNo c j n) = v := by
  refine (evs_rf c (regNo c j n) v (readyEvs c) (rf, c) rfl rfl fun i low m u hm hk => ?_).1
    (.inl ⟨j, true, n, v, ev_mem_readyEvs hp ready (by simp [Pend.ev, hd, hv]), rfl⟩)
  obtain ⟨q, hq, ev⟩ := of_mem_readyEvs hm
  obtain ⟨qd, qv⟩ := Pend.ev_g ev
  obtain ⟨rfl, rfl⟩ := regNo_inj (fits q hq i m qd) (fits p hp j n hd) hk
  obtain rfl := List.inj_on_of_nodup_map distinct hq hp (qd.trans hd.symm)
  exact Option.some.inj (qv.symm.trans hv)

/-- A ready result's k-register holds it. -/
theorem landed_k {rf : Cells 32} {c : Crew} (distinct : (c.pend.map (·.dst)).Nodup) {p : Pend} (hp : p ∈ c.pend) (ready : p.ready = true)
    {n : Nat} {v : W32} (hd : p.dst = .k n) (hv : p.val = some v) : cRead (landed rf c).2.k n = v := by
  refine (evs_k n v (readyEvs c) (rf, c) fun i u hm => ?_).1 (.inl ⟨0, v, ev_mem_readyEvs hp ready (by simp [Pend.ev, hd, hv])⟩)
  obtain ⟨q, hq, ev⟩ := of_mem_readyEvs hm
  obtain ⟨qd, qv⟩ := Pend.ev_k ev
  obtain rfl := List.inj_on_of_nodup_map distinct hq hp (qd.trans hd.symm)
  exact Option.some.inj (qv.symm.trans hv)

/-- A register that no pending result names stands. -/
theorem landed_other {rf : Cells 32} {c : Crew} {key : Nat} (h : ∀ p ∈ c.pend, ∀ j n, p.dst = .g j n → regNo c j n ≠ key) :
    cRead (landed rf c).1 key = cRead rf key := by
  have named (i m : Nat) (low : Bool) (u : W32) (hm : WordEv.w i low (.g m u) ∈ readyEvs c) : regNo c i m ≠ key := by
    obtain ⟨q, hq, ev⟩ := of_mem_readyEvs hm
    exact h q hq i m (Pend.ev_g ev).1
  exact (evs_rf c key 0#32 (readyEvs c) (rf, c) rfl rfl fun i low m u hm hk => absurd hk (named i m low u hm)).2
    fun i low m u hm => named i m low u hm

theorem crewOf_parts {s : State} {r : CrewRef} {c : Crew} (h : crewOf s r = some c) :
    ∃ t, teamOf s r.cl r.ts = some t ∧ t.crews[r.cr]? = some c := by
  unfold crewOf at h
  split at h
  · cases h
  · next t ht => exact ⟨t, ht, h⟩

theorem exec_resultWrite {s : State} {i : Issue} (hi : s.issue = some i) : exec .resultWrite s = .next (settle s i.crew) := by
  show execResultWrite s = _
  rw [execResultWrite, hi]

/-- RESULT_WRITE writes what has come, and nothing else of the registers. -/
theorem resultWrite_writes {s : State} {i : Issue} {c : Crew} (hi : s.issue = some i) (hc : crewOf s i.crew = some c) :
    ∃ t c', exec .resultWrite s = .next t ∧ crewOf t i.crew = some c' ∧ c'.pend = c.pend.filter (fun p => !p.ready)
      ∧ ((c.pend.map (·.dst)).Nodup → (∀ p ∈ c.pend, ∀ j n, p.dst = .g j n → n < c.win) →
          ∀ p ∈ c.pend, p.ready = true → ∀ v, p.val = some v →
            (∀ j n, p.dst = .g j n → gRead (clusterOf t i.crew.cl) c j n = v) ∧ (∀ n, p.dst = .k n → cRead c'.k n = v))
      ∧ (∀ key, (∀ p ∈ c.pend, ∀ j n, p.dst = .g j n → regNo c j n ≠ key) →
          cRead (clusterOf t i.crew.cl).rf key = cRead (clusterOf s i.crew.cl).rf key) := by
  obtain ⟨t, team, crew⟩ := crewOf_parts hc
  refine ⟨_, landedCrew (clusterOf s i.crew.cl).rf c, exec_resultWrite hi, ?_⟩
  rw [settle_eq team crew, crewOf_onCrew crew]
  refine ⟨rfl, rfl, fun distinct fits p hp ready v hv => ⟨fun j n hd => ?_, fun n hd => landed_k distinct hp ready hd hv⟩, fun key h => ?_⟩
  · rw [gRead, onCrew_rf]
    exact landed_g distinct fits hp ready hd hv
  · rw [onCrew_rf]
    exact landed_other h

/-! Precedence (R269). -/

section
variable {s : State} {i : Issue} {c : Crew}

theorem exec_bankLossPrecedence (hi : s.issue = some i) (hc : crewOf s i.crew = some c) (due : lossPrecDue c = true) :
    exec .bankLossPrecedence s = .next (updCrew s i.crew (fun c => { c with prec := some s.cycle })) := by
  show execBankLossPrecedence s = _
  simp only [execBankLossPrecedence, hi, hc, due, if_true]

theorem exec_issueWaitPrecedence (hi : s.issue = some i) (hc : crewOf s i.crew = some c) (due : waitPrecDue s c = true) :
    exec .issueWaitPrecedence s = .next (updCrew s i.crew (fun c => { c with prec := some s.cycle })) := by
  show execIssueWaitPrecedence s = _
  simp only [execIssueWaitPrecedence, hi, hc, due, if_true]

end

/-! The throttle (R270 to R272). -/

/-- W after an epoch. -/
def nextWin (c : Cluster) : Nat := if c.expert || c.half then c.win else windowOf (if wayCount c = 0 then 0 else c.hits)

theorem endEpochs_one {now : Nat} {c : Cluster} (h : now / 1024 = c.epoch + 1) :
    endEpochs now c = { c with epoch := now / 1024, hits := 0, half := c.expert, win := nextWin c } := by
  have one : min 3 (now / 1024 - c.epoch) = 1 := by omega
  have last : max c.epoch (now / 1024) = now / 1024 := by omega
  rw [endEpochs, one, last]
  rfl

theorem exec_throttleEpochEnd {s : State} {x : Nat} (teams : (clusterOf s x).teams ≠ []) (h : s.cycle / 1024 = (clusterOf s x).epoch + 1) :
    exec (.throttleEpochEnd x) s = .next (updCluster s x (fun c =>
      { c with epoch := s.cycle / 1024, hits := 0, half := c.expert, win := nextWin (clusterOf s x) })) := by
  have due : epochDue s (clusterOf s x) = true := by
    rw [epochDue, Bool.and_eq_true, decide_eq_true_eq, Bool.not_eq_true', List.isEmpty_eq_false_iff]
    exact ⟨teams, by omega⟩
  show execThrottleEpochEnd x s = _
  rw [execThrottleEpochEnd, due, Bool.not_true, if_neg Bool.false_ne_true, updCluster, endEpochs_one h]
  rfl

/-- W by the hits of an epoch (R270). -/
theorem windowOf_spec (h : Nat) : (h < 16 → windowOf h = 32) ∧ (16 ≤ h → h < 32 → windowOf h = 16) ∧ (32 ≤ h → h < 64 → windowOf h = 8)
    ∧ (64 ≤ h → h < 128 → windowOf h = 4) ∧ (128 ≤ h → h < 256 → windowOf h = 2) ∧ (256 ≤ h → windowOf h = 1) := by
  unfold windowOf
  grind

theorem memJoin_member {n : Nat} {x : Cluster} {c : Crew} (h : c.mem = true) : memJoin n x c = { c with memWait := none } := by
  simp only [memJoin, h, if_true]

theorem memJoin_room {n : Nat} {x : Cluster} {c : Crew} (h : c.mem = false) (alone : memWaiters x c = []) (room : memCount x < x.win) :
    memJoin n x c = { c with mem := true, memRow := 0, memWait := none } := by
  simp only [memJoin, h, alone, List.filter_nil, List.length_nil, Nat.add_zero, room, if_true, Bool.false_eq_true, if_false]

theorem memJoin_full {n : Nat} {x : Cluster} {c : Crew} (h : c.mem = false) (full : x.win ≤ memCount x) :
    memJoin n x c = { c with memWait := some (c.memWait.getD n) } := by
  have none : ∀ m, ¬ memCount x + m < x.win := fun m => by omega
  simp only [memJoin, h, none, Bool.false_eq_true, if_false]

theorem exec_throttleBypassAdmit {s : State} {i : Issue} {c : Crew} (hi : s.issue = some i) (hc : crewOf s i.crew = some c)
    (due : bypassDue s c = true) :
    exec .throttleBypassAdmit s = .next (updCrew s i.crew (fun c => { c with mem := true, memWait := none, memRow := 0 })) := by
  show execThrottleBypassAdmit s = _
  simp only [execThrottleBypassAdmit, hi, hc, due, Bool.not_true, Bool.false_eq_true, if_false]

/-- Settles O48: RESULT_WRITE by the events that its results are, the scheduler's events by their conditions. -/
theorem resultsAndScheduling : Obligations.ResultsAndScheduling := by
  unfold Obligations.ResultsAndScheduling
  refine ⟨fun s i c hi hc => resultWrite_writes hi hc, fun s i c hi hc prec losses => ?losses, fun s i c hi hc cand prec since issued => ?wait,
    fun s x teams epoch => ⟨nextWin (clusterOf s x), exec_throttleEpochEnd teams epoch, fun held => ?held, fun expert half h hh => ?hits⟩,
    fun n x c => ⟨memJoin_member, memJoin_room, memJoin_full⟩, fun s i c w hi hc wait late => ?bypass⟩
  case losses => exact exec_bankLossPrecedence hi hc (by simp [lossPrecDue, prec, losses])
  case wait =>
    have late : max c.candSince c.issuedAt + 1024 ≤ s.cycle := by omega
    exact exec_issueWaitPrecedence hi hc (by simp [waitPrecDue, cand, prec, late])
  case held => simp [nextWin, held]
  case hits =>
    have win : nextWin (clusterOf s x) = windowOf h := by simp [nextWin, expert, half, hh]
    rw [win]
    exact windowOf_spec h
  case bypass => exact exec_throttleBypassAdmit hi hc (by simp [bypassDue, wait, late])

end Sys2Proof.Machine
end

section
/-! A group completes, and words that park their batch or trap it whole (R115, R122, R126, R356). -/

namespace Sys2Proof.Machine

/-! Bits of masks. -/

theorem and_not_or_ne_zero {m x y : W32} (h : m &&& ~~~(x ||| y) ≠ 0#32) : m &&& ~~~x ≠ 0#32 := by
  intro none
  rw [BitVec.not_or, ← BitVec.and_assoc, none, BitVec.zero_and] at h
  exact h rfl

theorem slotsMask_maskSlots (m : W32) : slotsMask (maskSlots m) = m :=
  slotsMask_eq_of_mem fun i hi => by simp [mem_maskSlots, hi]

theorem maskSlots_ne_nil {m : W32} (h : m ≠ 0#32) : maskSlots m ≠ [] := by
  intro none
  rw [← slotsMask_maskSlots m, none] at h
  exact h rfl

theorem mem_modAt {α : Type} {f : α → α} {x : α} : ∀ {l : List α} {i : Nat}, x ∈ modAt l i f → x ∈ l ∨ ∃ y ∈ l, x = f y
  | [], _, h => by simp [modAt] at h
  | y :: l, 0, h => by
    rcases List.mem_cons.1 h with rfl | h
    · exact .inr ⟨y, by simp, rfl⟩
    · exact .inl (List.mem_cons_of_mem _ h)
  | y :: l, i + 1, h => by
    rcases List.mem_cons.1 h with rfl | h
    · exact .inl (by simp)
    · rcases mem_modAt h with h | ⟨z, hz, rfl⟩
      · exact .inl (List.mem_cons_of_mem _ h)
      · exact .inr ⟨z, List.mem_cons_of_mem _ hz, rfl⟩

/-! A word that faults for fibres of its batch. -/

/-- The trap of a word at which the fibres `l` fault with `k`. -/
def wordTrap (a : At) (l : List Nat) (k : FKind) : TrapWait :=
  { faults := l.map (fun j => (j, { fault k with pc := a.pc })), batch := { a.b with wait := .none }, moved := [], t := a.pc, atHeader := false }

/-- Fibres that fault, none of them at an absent page, take the whole batch into the trap (R356). -/
theorem faultAll_traps {l : List Nat} {k : FKind} (hl : l ≠ []) (hk : k ≠ .notPresent) (s : State) (a : At) :
    faultAll s a l k = updCrew s a.ref (fun c => trappedCrew c a.bi (wordTrap a l k)) := by
  have present : ∀ e ∈ l.map (fun j => (j, { fault k with pc := a.pc })), isAbsent e.2 = false := fun e he => by
    obtain ⟨j, -, rfl⟩ := List.mem_map.1 he
    exact decide_eq_false hk
  have absent : (l.map (fun j => (j, { fault k with pc := a.pc }))).filter (fun e => isAbsent e.2) = [] :=
    List.filter_eq_nil_iff.2 fun e he => by simp [present e he]
  have others : (l.map (fun j => (j, { fault k with pc := a.pc }))).filter (fun e => !isAbsent e.2)
      = l.map (fun j => (j, { fault k with pc := a.pc })) :=
    List.filter_eq_self.2 fun e he => by simp [present e he]
  have all : a.b.mask &&& ~~~slotsMask (([] : List (Nat × FaultInfo)).map (·.1)) = a.b.mask := by
    show a.b.mask &&& ~~~0#32 = a.b.mask
    rw [BitVec.not_zero, BitVec.and_allOnes]
  have some_ : (!(l.map (fun j => (j, { fault k with pc := a.pc }))).isEmpty) = true := by simpa using hl
  unfold faultAll finishFaults
  dsimp only
  rw [absent, others, all, if_pos some_]
  rfl

theorem crewOf_faultAll {s : State} {a : At} (hi : issuer s = some a) {l : List Nat} {k : FKind} (hl : l ≠ []) (hk : k ≠ .notPresent) :
    crewOf (faultAll s a l k) a.ref = some (trappedCrew a.crew a.bi (wordTrap a l k)) := by
  obtain ⟨ht, hc, -⟩ := issuer_parts hi
  rw [faultAll_traps hl hk, crewOf_updCrew ht hc]

/-! The issue of a gathering word. -/

theorem exec_gathers {i : Instr} {w : WordSpec × Opd} (h : gatherOf i = some w) (s : State) :
    exec i s = issueWord w.1 (fun a _ s => gatherAt a (BitVec.ofNat 32 (opdVal s a 0 w.2 1)) i s) s := by
  unfold gatherOf at h
  split at h
  · obtain rfl := Option.some.inj h
    rfl
  · obtain ⟨x, hx, rfl⟩ := Option.map_eq_some_iff.1 h
    exact exec_cross hx s

theorem completeAt_waits {s : State} {r : CrewRef} {c : Crew} {addr : Nat} {m : W32} {handler : Bool} (hc : crewOf s r = some c)
    (missing : ∀ g ∈ c.groups, g.addr = addr → g.mask = m → g.handler = handler → m &&& c.live &&& ~~~g.arrivals ≠ 0#32) :
    completeAt s r addr m handler = s := by
  simp only [completeAt, hc]
  split
  · rfl
  · next g hg =>
    have same := List.find?_some hg
    simp only [Bool.and_eq_true, beq_iff_eq] at same
    obtain ⟨⟨haddr, hmask⟩, hhandler⟩ := same
    have open_ : groupFull c g = false := by
      have := missing g (List.mem_of_find?_eq_some hg) haddr hmask hhandler
      simp [groupFull, hmask, this]
    rw [open_]
    rfl

/-- An arrival after which a named LIVE fibre is still missing is all that the word does, where the mask names the batch whole or not at
all. -/
theorem gatherAt_waits {s : State} {a : At} {m : W32} {i : Instr} {c : Crew} (hc : crewOf (gather a m i s) a.ref = some c)
    (missing : ∀ g ∈ c.groups, g.addr = a.pc → g.mask = m → g.handler = a.b.handler → m &&& c.live &&& ~~~g.arrivals ≠ 0#32)
    (whole : slotsMask (a.slots.filter (fun j => m.getLsbD j)) = 0#32
      ∨ a.b.mask &&& ~~~slotsMask (a.slots.filter (fun j => m.getLsbD j)) = 0#32) :
    gatherAt a m i s = gather a m i s := by
  unfold gatherAt
  rw [completeAt_waits hc missing]
  exact if_pos (by simpa using whole)

theorem named_filter {a : At} {m : W32} (named : a.b.mask &&& ~~~m = 0#32) : a.slots.filter (fun j => m.getLsbD j) = a.slots :=
  List.filter_eq_self.2 fun _ hj => getLsbD_of_named named hj

/-- A repeat that lacks a named LIVE fibre raises CONVERGENCE (R122). -/
theorem gather_repeat_lacking {s : State} {a : At} {m : W32} (i : Instr) (hr : a.b.rep = true) (lacking : m &&& a.crew.live &&& ~~~a.b.mask ≠ 0#32) :
    gather a m i s = faultAll s a a.slots .convergence := by
  unfold gather
  exact if_pos (by simp [hr, lacking])

/-- A batch that the mask does not name raises ILLEGAL (R115). -/
theorem gather_unnamed {s : State} {a : At} {m : W32} (i : Instr) (hr : a.b.rep = false) (unnamed : a.b.mask &&& m = 0#32) (ne : a.slots ≠ []) :
    a.slots.filter (fun j => m.getLsbD j) = [] ∧ gather a m i s = faultAll s a a.slots .illegal := by
  have outside : ∀ j ∈ a.slots, m.getLsbD j = false := by
    intro j hj
    obtain ⟨lt, bit⟩ := mem_maskSlots.1 hj
    have out := congrArg (fun x : W32 => x.getLsbD j) unnamed
    simpa [bit] using out
  have inn : a.slots.filter (fun j => m.getLsbD j) = [] := List.filter_eq_nil_iff.2 fun j hj => by simp [outside j hj]
  have out : a.slots.filter (fun j => !m.getLsbD j) = a.slots := List.filter_eq_self.2 fun j hj => by simp [outside j hj]
  refine ⟨inn, ?_⟩
  unfold gather
  simp [inn, out, hr, ne]

theorem crewOf_parked {s : State} {a : At} (hi : issuer s = some a) (m : W32) (i : Instr) : ∃ c, crewOf (parked s a m i) a.ref = some c
    ∧ c.live = a.crew.live
    ∧ ∀ g ∈ c.groups, g.addr = a.pc → g.mask = m → g.handler = a.b.handler → (g ∈ a.crew.groups ∨ g.arrivals = a.b.mask
        ∨ ∃ x ∈ a.crew.groups, x.addr = a.pc ∧ x.mask = m ∧ x.handler = a.b.handler ∧ g.arrivals = x.arrivals ||| a.b.mask) := by
  obtain ⟨ht, hc, -⟩ := issuer_parts hi
  refine ⟨_, crewOf_updCrew ht hc _, rfl, fun g hg haddr hmask hhandler => ?_⟩
  dsimp only at hg
  split at hg
  · rcases mem_modAt hg with hg | ⟨x, hx, rfl⟩
    · exact .inl hg
    · exact .inr (.inr ⟨x, hx, haddr, hmask, hhandler, rfl⟩)
  · rcases List.mem_append.1 hg with hg | hg
    · exact .inl hg
    · exact .inr (.inl (by rw [List.mem_singleton.1 hg]))

/-! The completion of a group. -/

/-- What the word of a full group does for its LIVE fibres `e`, which stand as the batch of `a` (R126). -/
def groupRuns (i : Instr) (a : At) (e : W32) (s : State) : State :=
  match i with
  | .join _ => finishTransfer s a [] ((maskSlots e).map (fun j => (j, clauseEnd a.b)))
  | i => crossRun i a e s

theorem groupRuns_cross {i : Instr} (h : (crossOf i).isSome = true) (a : At) (e : W32) (s : State) : groupRuns i a e s = crossRun i a e s := by
  unfold groupRuns
  split
  · cases h
  · rfl

/-- The clause that the crew has open stays open. -/
def keepOpen (r : CrewRef) (m : Option Nat) (s : State) : State :=
  match m with
  | none => s
  | some m => updCrew s r (fun c => { c with cur := some m })

/-- The place of the batch in which the fibres of a group stand when it completes. -/
def regroupedAt (s : State) (r : CrewRef) (t : Team) (g : Group) (b : Batch) (c : Crew) : At :=
  { ref := r, bi := (c.batches.filter (fun x => !inGroup g x)).length, crew := regroupedCrew s.cycle g b c,
    team := { t with crews := modAt t.crews r.cr (fun _ => regroupedCrew s.cycle g b c) }, b := { readyAt s.cycle b with mask := g.mask &&& c.live } }

theorem completeGroup_eq {s : State} {r : CrewRef} {t : Team} {g : Group} {c : Crew} {b : Batch} (ht : teamOf s r.cl r.ts = some t)
    (hc : t.crews[r.cr]? = some c) (hb : c.batches.find? (inGroup g) = some b) :
    completeGroup s r g = keepOpen r c.cur
      (groupRuns g.ins (regroupedAt s r t g b c) (g.mask &&& c.live) (updCrew s r (fun _ => regroupedCrew s.cycle g b c))) := by
  have regroups : updCrew s r (fun x => { x with
        groups := x.groups.filter (fun x => !sameGroup g x),
        batches := c.batches.filter (fun x => !inGroup g x) ++ [{ readyAt s.cycle b with mask := g.mask &&& c.live }] })
      = updCrew s r (fun _ => regroupedCrew s.cycle g b c) := by
    rw [updCrew_eq_onCrew ht hc, updCrew_eq_onCrew ht hc]
    rfl
  have place : atOf (updCrew s r (fun _ => regroupedCrew s.cycle g b c)) r (c.batches.filter (fun x => !inGroup g x)).length
      = some (regroupedAt s r t g b c) := by
    rw [atOf_updCrew ht hc]
    simp [regroupedCrew, regroupedAt]
  have crew : crewOf s r = some c := by simp [crewOf, ht, hc]
  unfold completeGroup
  simp only [crew, hb, regroups, place]
  rfl

theorem regroup_one (s : State) (a : At) {l : List Nat} (hl : l ≠ []) (x : Nat) :
    regroup s a (l.map (fun j => (j, x))) = [afterClause s.cycle a.b x (slotsMask l)] := by
  have one : (l.map (fun _ => x)).eraseDups = [x] := by
    cases l with
    | nil => exact absurd rfl hl
    | cons j t =>
      have rest : (t.map (fun _ => x)).filter (fun y => !y == x) = [] := List.filter_eq_nil_iff.2 fun y hy => by
        obtain ⟨-, -, rfl⟩ := List.mem_map.1 hy
        simp
      rw [List.map_cons, List.eraseDups_cons, rest]
      rfl
  have tgts : (l.map (fun j => (j, x))).map (·.2) = l.map (fun _ => x) := by rw [List.map_map]; rfl
  have all : ((l.map (fun j => (j, x))).filter (fun e => e.2 == x)).map (·.1) = l := by
    simp [List.filter_map, Function.comp_def]
  simp only [regroup, tgts, one, List.map_cons, List.map_nil, all]

/-! JOIN by the batch that is the whole group. -/

section
variable {s : State} {a : At} {m : W32} {i : Instr} (hi : issuer s = some a) (alone : GathersAlone a m)

include hi alone in
/-- A word whose batch is the whole group parks it, and the group completes at once (R126). -/
theorem gatherAt_alone_completes (act : a.b.mask ≠ 0#32) :
    gatherAt a m i s = completeGroup (updCrew s a.ref (fun _ => parkedCrew s a m i)) a.ref (ownGroup s a m i) := by
  obtain ⟨ht, hc, -⟩ := issuer_parts hi
  have group : (parkedCrew s a m i).groups.find? (fun g => g.addr == a.pc && g.mask == m && g.handler == a.b.handler) = some (ownGroup s a m i) := by
    have before := List.find?_eq_none.2 fun g hg => Bool.eq_false_iff.1 (lone_groups alone g hg)
    rw [parkedCrew, List.find?_append, before]
    simp [ownGroup]
  have full := groupFull_parkedCrew (s := s) (i := i) alone act
  unfold gatherAt
  rw [named_filter alone.named, slotsMask_slots, gather_alone hi alone, completeAt, crewOf_updCrew ht hc]
  simp [group, full]

include hi alone in
theorem regathers_alone (act : a.b.mask ≠ 0#32) :
    gatherAt a m i s = groupRuns i (regatheredAt s a) a.b.mask (regatheredState s a) := by
  obtain ⟨ht, hc, hb⟩ := issuer_parts hi
  have found : (parkedCrew s a m i).batches.find? (inGroup (ownGroup s a m i)) = some { a.b with wait := .group a.pc m } :=
    find?_modAt_only hb (inGroup_batches alone) inGroup_own
  have team := (congrArg (teamOf · a.ref.cl a.ref.ts) (updCrew_eq_onCrew ht hc (fun _ => parkedCrew s a m i))).trans teamOf_onCrew
  have here : (ownGroup s a m i).mask &&& (parkedCrew s a m i).live = a.b.mask := alone.here
  rw [gatherAt_alone_completes hi alone act, completeGroup_eq team (modAt_const_get hc _) found, updCrew_updCrew, updCrew_cycle,
    regroupedAt, updCrew_cycle, regroupedCrew_alone hi alone, batches_besides_own hi alone, here]
  show groupRuns i _ _ _ = _
  congr 1
  rw [regatheredAt, modAt_modAt]
  rfl

end

/-- Settles O17: the word parks, traps, or completes by what the mask names of the batch. -/
theorem gatheringWords : Obligations.GatheringWords := by
  unfold Obligations.GatheringWords
  refine ⟨fun i w hw s a m pass hm => ⟨fun named lacking missing => ?named, fun unnamed hr lacking => ?unnamed⟩, fun f s a m pass hm alone => ?join⟩
  case named =>
    subst hm
    rw [exec_gathers hw, issueWord_passes _ pass]
    have inn := named_filter named
    have whole := slotsMask_slots a
    cases hr : a.b.rep with
    | true =>
      have traps := gather_repeat_lacking (s := s) i hr missing
      have crew := crewOf_faultAll pass.here (slots_ne_nil_of_active pass.act) (k := .convergence) (by decide)
      rw [← traps] at crew
      rw [gatherAt_waits crew ?_ (.inr (by rw [inn, whole]; exact BitVec.and_not_self _)), traps]
      · rfl
      · exact fun g hg haddr hmask hh => and_not_or_ne_zero (lacking g ⟨hg, haddr, hmask, hh⟩)
    | false =>
      have parks := gather_named i pass.here named (by rw [hr]; rfl)
      obtain ⟨c, crew, live, groups⟩ := crewOf_parked pass.here (BitVec.ofNat 32 (opdVal s a 0 w.2 1)) i
      rw [← parks] at crew
      rw [gatherAt_waits crew ?_ (.inr (by rw [inn, whole]; exact BitVec.and_not_self _)), parks]
      · rfl
      · intro g hg haddr hmask hh
        rw [live]
        rcases groups g hg haddr hmask hh with old | own | ⟨x, hx, xaddr, xmask, xh, joined⟩
        · exact and_not_or_ne_zero (lacking g ⟨old, haddr, hmask, hh⟩)
        · rwa [own]
        · rw [joined]
          exact lacking x ⟨hx, xaddr, xmask, xh⟩
  case unnamed =>
    subst hm
    rw [exec_gathers hw, issueWord_passes _ pass]
    obtain ⟨inn, traps⟩ := gather_unnamed (s := s) i hr unnamed (slots_ne_nil_of_active pass.act)
    have crew := crewOf_faultAll pass.here (slots_ne_nil_of_active pass.act) (k := .illegal) (by decide)
    rw [← traps] at crew
    rw [gatherAt_waits crew ?_ (.inl (by rw [inn]; rfl)), traps]
    exact fun g hg haddr hmask hh => lacking g ⟨hg, haddr, hmask, hh⟩
  case join =>
    subst hm
    obtain ⟨ht, hc, -⟩ := issuer_parts pass.here
    have moved := movedCrew_regroup (regatheredState s a) (regatheredAt s a) (fun _ => clauseEnd a.b) (l := a.slots) (fun _ => mem_slots_lt) (regathered s a)
    obtain ⟨⟨new, batches, heads, fibres, all⟩, rest, memset, yield⟩ := moved
    refine ⟨_, ?_, ⟨⟨new, batches.trans ?_, heads, fibres, all⟩, ?_, memset, yield⟩⟩
    · rw [exec_gathers rfl, issueWord_passes _ pass, regathers_alone pass.here alone (mask_ne_zero_of_active pass.act)]
      refine congrArg Host.Outcome.next ?_
      show updCrew (updCrew s a.ref (fun _ => regathered s a)) a.ref _ = _
      rw [updCrew_updCrew, updCrew_eq_onCrew ht hc]
      rfl
    · have gone : ∀ (l : List Batch) (b : Batch), delAt (l ++ [b]) l.length = l := fun l b => by
        induction l with
        | nil => rfl
        | cons x l ih => exact congrArg (x :: ·) ih
      show delAt (delAt a.crew.batches a.bi ++ [readyAt s.cycle a.b]) (delAt a.crew.batches a.bi).length ++ new = _
      rw [gone]
    · exact congrArg (fun c : Crew => { c with batches := a.crew.batches, cur := a.crew.cur }) rest

end Sys2Proof.Machine
end

section
/-! Groups that complete because their last missing fibre dropped out, and groups that wait too long (R126). -/

namespace Sys2Proof.Machine



theorem groupFull_live {c : Crew} {g : Group} (h : groupFull c g = true) : g.mask &&& c.live ≠ 0#32 := by
  simp only [groupFull, Bool.and_eq_true, decide_eq_true_eq] at h
  obtain ⟨⟨⟨-, live⟩, -⟩, -⟩ := h
  exact live

theorem exec_groupComplete {s : State} {i : Issue} {c : Crew} {g : Group} (hi : s.issue = some i) (hc : crewOf s i.crew = some c)
    (hg : c.groups.find? (groupFull c) = some g) : exec .groupComplete s = .next (completeGroup s i.crew g) := by
  show execGroupComplete s = _
  simp only [execGroupComplete, hi, hc, hg]

/-! JOIN. -/

/-- The crew whose group of a JOIN has completed: its LIVE fibres stand at the header after the clause (R126). -/
def joinedCrew (s : State) (r : CrewRef) (t : Team) (g : Group) (b : Batch) (c : Crew) : Crew :=
  { movedCrew (regroupedAt s r t g b c)
      [afterClause s.cycle { readyAt s.cycle b with mask := g.mask &&& c.live } (clauseEnd b) (g.mask &&& c.live)] (regroupedCrew s.cycle g b c)
    with cur := c.cur }

theorem keepOpen_updCrew (s : State) (r : CrewRef) (m : Option Nat) {f : Crew → Crew} (h : ∀ c, (f c).cur = none) :
    keepOpen r m (updCrew s r f) = updCrew s r (fun c => { f c with cur := m }) := by
  cases m with
  | none =>
    have same : (fun c => { f c with cur := none }) = f := funext fun c => by rw [← h c]
    rw [same]
    rfl
  | some m => exact updCrew_updCrew _ _ _ _

theorem completeGroup_join {s : State} {r : CrewRef} {t : Team} {g : Group} {c : Crew} {b : Batch} {f : RRR} (ht : teamOf s r.cl r.ts = some t)
    (hc : t.crews[r.cr]? = some c) (hb : c.batches.find? (inGroup g) = some b) (live : g.mask &&& c.live ≠ 0#32) (hj : g.ins = .join f) :
    completeGroup s r g = updCrew s r (fun _ => joinedCrew s r t g b c) := by
  have heads : regroup (updCrew s r (fun _ => regroupedCrew s.cycle g b c)) (regroupedAt s r t g b c)
      ((maskSlots (g.mask &&& c.live)).map (fun j => (j, clauseEnd b)))
      = [afterClause s.cycle { readyAt s.cycle b with mask := g.mask &&& c.live } (clauseEnd b) (g.mask &&& c.live)] := by
    rw [regroup_one _ _ (maskSlots_ne_nil live), slotsMask_maskSlots, updCrew_cycle]
    rfl
  have moves : finishTransfer (updCrew s r (fun _ => regroupedCrew s.cycle g b c)) (regroupedAt s r t g b c) []
        ((maskSlots (g.mask &&& c.live)).map (fun j => (j, clauseEnd b)))
      = updCrew s r (fun _ => movedCrew (regroupedAt s r t g b c)
          [afterClause s.cycle { readyAt s.cycle b with mask := g.mask &&& c.live } (clauseEnd b) (g.mask &&& c.live)]
          (regroupedCrew s.cycle g b c)) := by
    rw [finishTransfer_none, heads]
    exact updCrew_updCrew _ _ _ _
  rw [completeGroup_eq ht hc hb, hj]
  exact (congrArg _ moves).trans (keepOpen_updCrew _ _ _ fun _ => rfl)

theorem delAt_length_append {α : Type} (x : α) : ∀ l : List α, delAt (l ++ [x]) l.length = l
  | [] => rfl
  | y :: l => congrArg (y :: ·) (delAt_length_append x l)

theorem joinedCrew_batches (s : State) (r : CrewRef) (t : Team) (g : Group) (b : Batch) (c : Crew) :
    (joinedCrew s r t g b c).batches = c.batches.filter (fun x => !inGroup g x)
      ++ [afterClause s.cycle { readyAt s.cycle b with mask := g.mask &&& c.live } (clauseEnd b) (g.mask &&& c.live)] :=
  congrArg (· ++ _) (delAt_length_append _ _)

theorem joinedCrew_memset (s : State) (r : CrewRef) (t : Team) (g : Group) (b : Batch) (c : Crew) :
    ((joinedCrew s r t g b c).mem, (joinedCrew s r t g b c).memRow) = if hdrDrain b.hdr then (false, 0) else (c.mem, c.memRow) := by
  show (_, _) = if hdrDrain (regroupedAt s r t g b c).b.hdr then _ else _
  unfold joinedCrew movedCrew
  split <;> rfl

theorem joinedCrew_rest (s : State) (r : CrewRef) (t : Team) (g : Group) (b : Batch) (c : Crew) :
    { joinedCrew s r t g b c with batches := c.batches, groups := c.groups, mem := c.mem, memRow := c.memRow, yields := c.yields } = c := by
  unfold joinedCrew movedCrew
  split <;> rfl

theorem joinedCrew_groups (s : State) (r : CrewRef) (t : Team) (g : Group) (b : Batch) (c : Crew) :
    (joinedCrew s r t g b c).groups = c.groups.filter (fun x => !sameGroup g x) := by
  unfold joinedCrew movedCrew
  split <;> rfl

/-! A cross-lane word. -/

/-- What a cross-lane word of a full group leaves, and the clause that the crew has open (R126). -/
theorem completeGroup_cross {s : State} {r : CrewRef} {t : Team} {g : Group} {c : Crew} {b : Batch} {f : RRR} {y : Yield}
    (ht : teamOf s r.cl r.ts = some t) (hc : t.crews[r.cr]? = some c) (hb : c.batches.find? (inGroup g) = some b)
    (live : g.mask &&& c.live ≠ 0#32)
    (hy : crossYield g.ins (updCrew s r (fun _ => regroupedCrew s.cycle g b c)) (regroupedAt s r t g b c) (g.mask &&& c.live) = some (f, y)) :
    ∃ u, Wrote (updCrew s r (fun _ => regroupedCrew s.cycle g b c)) u (regroupedAt s r t g b c) (maskSlots (g.mask &&& c.live)) y
      ∧ completeGroup s r g = updCrew (if f.c.cls = .k then setK u r f.c.num (g.mask &&& c.live) else u) r
          (fun x => { x with cur := if c.cur.isSome then c.cur else x.cur }) := by
  obtain ⟨⟨sp, cross⟩, n, v, sticky, rfl⟩ := crossYield_cross hy
  have team : teamOf (updCrew s r (fun _ => regroupedCrew s.cycle g b c)) r.cl r.ts = some (regroupedAt s r t g b c).team := by
    rw [updCrew_eq_onCrew ht hc, teamOf_onCrew]
    rfl
  have crew : (regroupedAt s r t g b c).team.crews[r.cr]? = some (regroupedCrew s.cycle g b c) := modAt_const_get hc _
  have batch : (regroupedCrew s.cycle g b c).batches[(regroupedAt s r t g b c).bi]? = some (regroupedAt s r t g b c).b := by
    simp [regroupedCrew, regroupedAt]
  have wrote := finishWord_wrote_at (act := maskSlots (g.mask &&& c.live)) team crew batch live fun j _ => preds_yields f.d n v sticky j
  have runs : groupRuns g.ins (regroupedAt s r t g b c) (g.mask &&& c.live) (updCrew s r (fun _ => regroupedCrew s.cycle g b c)) = _ :=
    (groupRuns_cross (by rw [cross]; rfl) _ _ _).trans
      ((crossRun_yield hy).trans (finishWord_besideMask team crew live (maskSlots_ne_nil live) f (g.mask &&& c.live) _))
  refine ⟨_, wrote, ?_⟩
  rw [completeGroup_eq ht hc hb, runs]
  obtain ⟨rf, c', shape, -⟩ := wrote
  rw [shape]
  have ends : ∃ d, (if f.c.cls = .k then setK (onCrew (updCrew s r (fun _ => regroupedCrew s.cycle g b c)) r (regroupedAt s r t g b c).team rf c')
      r f.c.num (g.mask &&& c.live) else onCrew (updCrew s r (fun _ => regroupedCrew s.cycle g b c)) r (regroupedAt s r t g b c).team rf c')
      = onCrew (updCrew s r (fun _ => regroupedCrew s.cycle g b c)) r (regroupedAt s r t g b c).team rf d := by
    split
    · exact ⟨_, Shape.upd team (.inr (.inr rfl)) _⟩
    · exact ⟨_, rfl⟩
  obtain ⟨d, ends⟩ := ends
  refine (congrArg (keepOpen r c.cur) ends).trans (Eq.trans ?_ (congrArg (updCrew · r _) ends.symm))
  cases hcur : c.cur with
  | none =>
    rw [Shape.upd team (.inr (.inr rfl))]
    rfl
  | some m => rfl

/-! A group that is late. -/

theorem exec_convergenceTimeout {s : State} {i : Issue} {c : Crew} {g : Group} (hi : s.issue = some i) (hc : crewOf s i.crew = some c)
    (hg : c.groups.find? (groupLate s.cycle c) = some g) :
    exec .convergenceTimeout s = .next (updCrew s i.crew (fun c =>
      { c with batches := c.batches.filter (fun b => !inGroup g b),
               groups := c.groups.map (fun x => if sameGroup g x then { x with late := true } else x),
               trapWait := c.trapWait ++ (lateTrap g (c.batches.filter (inGroup g))).toList })) := by
  show execConvergenceTimeout s = _
  simp only [execConvergenceTimeout, hi, hc, hg]

theorem getLsbD_foldl_masks (l : List Batch) (j : Nat) :
    (l.foldl (fun m x => m ||| x.mask) 0#32).getLsbD j = l.any (fun x => x.mask.getLsbD j) := by
  rw [Bool.eq_iff_iff, getLsbD_foldl_or (fun x : Batch => x.mask)]
  simp

theorem lateTrap_spec (g : Group) {l : List Batch} (hl : l ≠ []) : ∃ w, lateTrap g l = some w ∧ w.t = g.addr ∧ w.atHeader = false
    ∧ (∀ j, w.batch.mask.getLsbD j = l.any (fun b => b.mask.getLsbD j))
    ∧ w.faults = (maskSlots w.batch.mask).map (fun j => (j, { fault .convergence with pc := g.addr })) := by
  cases l with
  | nil => exact absurd rfl hl
  | cons b t => exact ⟨_, rfl, rfl, rfl, getLsbD_foldl_masks (b :: t), rfl⟩

/-- Settles O19: a full group completes as its word does, and a late one is one trap. -/
theorem groupsCompleteOrTimeOut : Obligations.GroupsCompleteOrTimeOut := by
  unfold Obligations.GroupsCompleteOrTimeOut
  refine ⟨fun s i t c g b hi ht hc hg hb => ?full, fun s i c g hi hc hg => ⟨_, exec_convergenceTimeout hi hc hg, rfl, rfl, fun none => ?alone,
    fun some_ => ?traps, rfl⟩⟩
  case full =>
    have live := groupFull_live (List.find?_some hg)
    have crew : t.crews[i.crew.cr]? = some c := by simpa [crewOf, ht] using hc
    rw [exec_groupComplete hi hc hg]
    refine ⟨fun f hj => ⟨fun _ => joinedCrew s i.crew t g b c, ?_, ⟨_, joinedCrew_batches s i.crew t g b c, rfl, rfl, rfl⟩,
      joinedCrew_groups s i.crew t g b c, rfl, joinedCrew_memset s i.crew t g b c, rfl, joinedCrew_rest s i.crew t g b c⟩,
      fun f y sp c1 a _ _ hc1 ha hy => ?_⟩
    · rw [completeGroup_join ht crew hb live hj]
    · subst hc1 ha
      obtain ⟨u, wrote, goes⟩ := completeGroup_cross ht crew hb live hy
      exact ⟨u, wrote, congrArg _ goes⟩
  case alone =>
    have empty : c.batches.filter (inGroup g) = [] := List.filter_eq_nil_iff.2 fun b hb => by simp [none b hb]
    simp [empty, lateTrap]
  case traps =>
    obtain ⟨b, hb, inn⟩ := some_
    obtain ⟨w, late, ht, hh, mask, faults⟩ := lateTrap_spec g (List.ne_nil_of_mem (List.mem_filter.2 ⟨hb, inn⟩))
    exact ⟨w, by simp [late], ht, hh, fun j => (mask j).trans List.any_filter, faults⟩

end Sys2Proof.Machine
end

section
/-! What reaches memory, the L2, the L1 and the owner tables leaves the crews and the grids alone (R173, R253, R279, R363). -/

namespace Sys2Proof.Machine

/-- `u` is `s` but for what lies beside crews and grids: every team, every register, the grids, the cycle and the issue stand. -/
structure Outside (s u : State) : Prop extends CrewsStand s u where
  grids : u.grids = s.grids

namespace Outside

theorem refl (s : State) : Outside s s := ⟨.refl s, rfl⟩

theorem trans {s u v : State} (h : Outside s u) (g : Outside u v) : Outside s v :=
  ⟨h.toCrewsStand.trans g.toCrewsStand, g.grids.trans h.grids⟩

theorem of_clusters {s u : State} (hc : u.clusters = s.clusters) (hg : u.grids = s.grids) (hn : u.cycle = s.cycle) (hi : u.issue = s.issue) :
    Outside s u :=
  ⟨⟨fun _ => by simp only [clusterOf, hc], fun _ => by simp only [clusterOf, hc], hn, hi⟩, hg⟩

theorem ite {s u v : State} {p : Prop} {_ : Decidable p} (h : Outside s u) (g : Outside s v) : Outside s (if p then u else v) := by
  split
  · exact h
  · exact g

theorem withMem {s u : State} (h : Outside s u) (m : Memory) : Outside s { u with mem := m } := h.trans (.of_clusters rfl rfl rfl rfl)

theorem gridOf_eq {s u : State} (h : Outside s u) (ctx gid : Nat) : gridOf u ctx gid = gridOf s ctx gid := by
  simp only [gridOf, h.grids]

end Outside

/-- A relation that every step of a fold keeps holds from the fold's start to its end. -/
theorem foldl_related {α β : Type} {R : β → β → Prop} (refl : ∀ s, R s s) (trans : ∀ {s u v}, R s u → R u v → R s v) {f : β → α → β} :
    ∀ {l : List α}, (∀ s, ∀ x ∈ l, R s (f s x)) → ∀ s, R s (l.foldl f s)
  | [], _, s => refl s
  | x :: _, h, s => trans (h s x (by simp)) (foldl_related refl trans (fun s y hy => h s y (List.mem_cons_of_mem _ hy)) _)

/-- What every step keeps a fold keeps. -/
theorem foldl_keeps {α β : Type} {f : β → α → β} {P : β → Prop} (h : ∀ b a, P b → P (f b a)) :
    ∀ (l : List α) (b : β), P b → P (l.foldl f b)
  | [], _, hb => hb
  | a :: l, b, hb => foldl_keeps h l _ (h b a hb)

theorem Outside.foldl {α : Type} {f : State → α → State} {l : List α} (h : ∀ s x, Outside s (f s x)) (s : State) : Outside s (l.foldl f s) :=
  foldl_related .refl .trans (fun s x _ => h s x) s

/-! Dies, contexts, and the outside. -/

theorem updDie_outside (s : State) (d : Nat) (f : Die → Die) : Outside s (updDie s d f) := .of_clusters (by simp) (by simp) (by simp) (by simp)
theorem updCtx_outside (s : State) (c : Nat) (f : Ctx → Ctx) : Outside s (updCtx s c f) := .of_clusters (by simp) (by simp) (by simp) (by simp)
theorem emit_outside (s : State) (e : DriverEvent) : Outside s (emit s e) := .of_clusters rfl rfl rfl rfl

theorem updCluster_outside (s : State) (x : Nat) (f : Cluster → Cluster) (ht : ∀ c, (f c).teams = c.teams := by intro; rfl)
    (hr : ∀ c, (f c).rf = c.rf := by intro; rfl) :
    Outside s (updCluster s x f) := ⟨updCluster_stand s x ht hr, rfl⟩

theorem request_outside (s : State) (m : Nat) (e : Egress) : Outside s (request s m e) := by
  unfold request
  exact .ite (.of_clusters rfl rfl rfl rfl) (.of_clusters rfl rfl rfl rfl)

theorem askPort_outside (s : State) (p : Nat) : Outside s (askPort s p) := by
  unfold askPort
  exact .ite (.of_clusters rfl rfl rfl rfl) (.refl s)

theorem reportBad_outside (s : State) (e : WalkErr) : Outside s (reportBad s e) := ⟨reportBad_stand s e, by cases e <;> rfl⟩

/-! Memory at its home. -/

theorem unpoison_outside (s : State) (k n : Nat) : Outside s (unpoison s k n) := .of_clusters rfl rfl rfl rfl

theorem poisonLine_outside (s : State) (k : Nat) : Outside s (poisonLine s k) := by
  unfold poisonLine
  exact .ite (.refl s) (.of_clusters rfl rfl rfl rfl)

theorem homePut_outside (s : State) (k : Nat) (b : Byte) : Outside s (homePut s k b) := by
  unfold homePut
  exact .ite (.of_clusters rfl rfl rfl rfl) (.ite (.of_clusters rfl rfl rfl rfl) (.of_clusters rfl rfl rfl rfl))

theorem homePuts_outside : ∀ (l : List Byte) (s : State) (k : Nat), Outside s (homePuts s k l)
  | [], s, _ => .refl s
  | b :: l, s, k => (homePut_outside s k b).trans (homePuts_outside l _ _)

theorem expanderPut_outside (s : State) (x : Nat) (b : Byte) : Outside s (expanderPut s x b) := by
  unfold expanderPut
  refine Outside.withMem (.ite (.refl s) (Outside.foldl (fun u k => ?keep) s)) _
  split
  · exact .of_clusters rfl rfl rfl rfl
  · exact .refl u

theorem expanderPoison_outside (s : State) (x : Nat) (bad : Bool) : Outside s (expanderPoison s x bad) := .of_clusters rfl rfl rfl rfl

theorem cxlSpill_outside (s : State) (line n : Nat) : Outside s (cxlSpill s line n) := by
  unfold cxlSpill
  refine Outside.trans ?bytes (Outside.foldl (fun u i => ?spill) _)
  case bytes =>
    refine Outside.trans (Outside.foldl (fun u i => ?mark) s) (.ite (askPort_outside _ _) (.refl _))
    exact .ite (expanderPoison_outside _ _ _) (.ite (expanderPoison_outside _ _ _) (.refl u))
  case spill =>
    dsimp only
    split
    · exact .refl u
    · exact (expanderPut_outside u _ _).trans (.of_clusters rfl rfl rfl rfl)

theorem cxlForget_outside (s : State) (line : Nat) : Outside s (cxlForget s line) := .of_clusters rfl rfl rfl rfl

theorem cxlFilled_outside (s : State) (line : Nat) (bring : BitVec 4) : Outside s (cxlFilled s line bring) := by
  unfold cxlFilled
  refine Outside.foldl (fun u i => ?mark) s
  split
  · exact .of_clusters rfl rfl rfl rfl
  · exact .refl u

theorem l2Trim_outside (die ctx : Nat) : ∀ (n : Nat) (s : State), Outside s (l2Trim s die ctx n)
  | 0, s => .refl s
  | n + 1, s => by
    unfold l2Trim
    dsimp only
    split
    · exact .refl s
    · split
      · exact .refl s
      · split
        · exact .refl s
        · refine Outside.trans (Outside.trans (.ite ?spilt (.refl s)) (updDie_outside _ _ _)) (l2Trim_outside die ctx n _)
          exact (cxlSpill_outside s _ _).trans (cxlForget_outside _ _)

theorem l2Request_outside (s : State) (die key n ctx : Nat) (write last whole : Bool) : Outside s (l2Request s die key n ctx write last whole) := by
  unfold l2Request
  refine (updDie_outside s die _).trans (.ite (.refl _) (Outside.trans (.ite ?_ (.refl _)) (l2Trim_outside _ _ _ _)))
  exact (askPort_outside _ _).trans (cxlFilled_outside _ _ _)

theorem homePast_outside (s : State) (die k ctx : Nat) (l : List Byte) (last whole : Bool) : Outside s (homePast s die k ctx l last whole) := by
  unfold homePast
  exact (homePuts_outside l s k).trans (.ite (request_outside _ _ _) (l2Request_outside _ _ _ _ _ _ _ _))

theorem homeStore_outside (s : State) (die k ctx : Nat) (l : List Byte) (last whole : Bool) : Outside s (homeStore s die k ctx l last whole) := by
  unfold homeStore
  exact (homePast_outside s die k ctx l last whole).trans (.ite (updDie_outside _ _ _) (.refl _))

theorem homeWrite_outside (s : State) (die k ctx : Nat) (l : List Byte) (last : Bool) : Outside s (homeWrite s die k ctx l last) :=
  (homeStore_outside s die k ctx l last true).trans (unpoison_outside _ _ _)

theorem writeHome_outside (s : State) (die ctx va : Nat) (l : List Byte) : Outside s (writeHome s die ctx va l).1 := by
  unfold writeHome
  split
  · exact .refl s
  · split
    · exact .refl s
    · exact .refl s
    · next p _ => exact reportBad_outside s (.bad p)
    · dsimp only
      split
      · exact .refl s
      split
      · exact .refl s
      split
      · exact .refl s
      split
      · exact .refl s
      · exact homeWrite_outside _ _ _ _ _ _

theorem vaPut_outside (s : State) (die ctx va n v : Nat) : Outside s (vaPut s die ctx va n v) := by
  unfold vaPut
  split
  · exact .refl s
  · exact homeWrite_outside _ _ _ _ _ _

/-! The L1 of a cluster. -/

theorem writeBack_outside (s : State) (cl : Nat) (e : L1Line) : Outside s (writeBack s cl e) := by
  unfold writeBack
  refine .ite (.refl s) (.ite ?discard ?written)
  case discard => exact (updDie_outside s _ _).trans ((updCluster_outside _ _ _).trans (emit_outside _ _))
  case written =>
    refine Outside.trans (Outside.trans (Outside.foldl (fun u r => homeStore_outside u _ _ _ _ _ _) s)
      (.ite (poisonLine_outside _ _) (.ite (unpoison_outside _ _ _) (.refl _)))) (updCluster_outside _ _ _)

theorem writeBackAll_outside (s : State) (cl : Nat) (p : L1Line → Bool) : Outside s (writeBackAll s cl p) :=
  Outside.foldl (fun u e => writeBack_outside u cl e) s

theorem flushInv_outside (s : State) (cl : Nat) (p : L1Line → Bool) : Outside s (flushInv s cl p) := by
  unfold flushInv
  exact (writeBackAll_outside s cl p).trans (updCluster_outside _ _ _)

theorem releaseAt_outside (s : State) (cl scope : Nat) : Outside s (releaseAt s cl scope) := by
  unfold releaseAt
  exact .ite (.refl s) (writeBackAll_outside s cl _)

theorem acquireAt_outside (s : State) (cl scope : Nat) : Outside s (acquireAt s cl scope) := by
  unfold acquireAt
  exact .ite (.refl s) (.ite (flushInv_outside s cl _) ((flushInv_outside s cl _).trans (updDie_outside _ _ _)))

/-! The sides of a transfer (R184). -/

theorem giveSide_outside (s : State) (t : Token) (giver receiver : W64) (a n : Nat) : Outside s (giveSide s t giver receiver a n) := by
  have peer : Outside s (peerGives s t giver a n) := by
    unfold peerGives
    split
    · exact .ite (.of_clusters rfl rfl rfl rfl) (.refl s)
    · exact .refl s
  exact (peer.trans (Outside.foldl (fun u cl => writeBackAll_outside u cl _) _)).trans (Outside.foldl (fun u cl => releaseAt_outside u cl _) _)

theorem takeSide_outside (s : State) (ctx : Nat) (giver receiver : W64) (a n : Nat) : Outside s (takeSide s ctx giver receiver a n) := by
  have lines : Outside s (takeLines s ctx receiver a n) := by
    unfold takeLines
    exact (Outside.foldl (fun u cl => flushInv_outside u cl _) s).trans (.ite (.refl _) (.of_clusters rfl rfl rfl rfl))
  exact lines.trans (Outside.foldl (fun u cl => acquireAt_outside u cl _) _)

end Sys2Proof.Machine
end

section
/-! BAR and GBAR: a batch parks, and the crew may arrive (R122, R137, R138, R253). -/

namespace Sys2Proof.Machine

/-- The crew whose batch `bi` waits, suspended. -/
def waitingCrew (bi : Nat) (w : Waiting) (c : Crew) : Crew :=
  { c with batches := modAt c.batches bi (fun b => { b with wait := w }), cur := none, mem := false, memRow := 0 }

theorem waits_eq (s : State) (a : At) (w : Waiting) : Waits s a w true = updCrew s a.ref (waitingCrew a.bi w) := rfl
theorem waits_cycle (s : State) (a : At) (w : Waiting) : (Waits s a w true).cycle = s.cycle := by rw [waits_eq, updCrew_cycle]

theorem crewOf_waits {s : State} {a : At} (hi : issuer s = some a) (w : Waiting) :
    crewOf (Waits s a w true) a.ref = some (waitingCrew a.bi w a.crew) := by
  obtain ⟨ht, hc, -⟩ := issuer_parts hi
  exact crewOf_updCrew ht hc _

theorem teamOf_waits {s : State} {a : At} (hi : issuer s = some a) (w : Waiting) : teamOf (Waits s a w true) a.ref.cl a.ref.ts
    = some { a.team with crews := modAt a.team.crews a.ref.cr (fun _ => waitingCrew a.bi w a.crew) } := by
  obtain ⟨ht, hc, -⟩ := issuer_parts hi
  rw [waits_eq, updCrew_eq_onCrew ht hc, teamOf_onCrew]

theorem mem_modAt_of_get {α : Type} {l : List α} {i : Nat} {x : α} (h : l[i]? = some x) (f : α → α) : f x ∈ modAt l i f :=
  List.mem_of_getElem? (by rw [modAt_get_same, h]; rfl)

theorem batch_waits {s : State} {a : At} (hi : issuer s = some a) (w : Waiting) :
    { a.b with wait := w } ∈ (waitingCrew a.bi w a.crew).batches :=
  mem_modAt_of_get (issuer_parts hi).2.2 _



/-! The arrival at a barrier (R137). -/

/-- The batches that a crew has parked at barrier `id` name one set `m`, of crews that are there, the crew among them, and the set of
the crews that arrived before. -/
structure BarAgrees (t : Team) (cr id : Nat) (m : W32) (c : Crew) : Prop where
  one : ∀ b ∈ c.batches, atBar id b = true → barSet b = m
  there : m &&& ~~~(BitVec.ofNat 32 (2 ^ t.crews.length - 1)) = 0#32
  mine : m.getLsbD cr = true
  before : ∀ x, (barObj t id).set = some x → x = m

/-- A crew with a LIVE fibre outside its parked batches does not arrive. -/
theorem tryArrive_missing {s : State} {r : CrewRef} {c : Crew} {id : Nat} (hc : crewOf s r = some c) (h : allParked c (atBar id) = false) :
    tryArrive s r id = s := by
  unfold tryArrive
  split
  · next hc' =>
    obtain rfl := Option.some.inj (hc.symm.trans hc')
    simp [h]
  · rfl

/-- The object of a barrier at which crew `cr` has arrived with set `m`. -/
def arrivedBar (t : Team) (cr id : Nat) (m : W32) : BarObj :=
  { barObj t id with arrived := (barObj t id).arrived ||| (1#32 <<< cr), set := some m }

/-- The first set that the batches parked at a barrier name. -/
def firstSet (id : Nat) (c : Crew) : W32 := ((c.batches.filter (atBar id)).map barSet).headD 0#32

/-- The arrival's check that the masks do not agree. -/
def refusesBar (t : Team) (cr id : Nat) (c : Crew) : Bool :=
  ((c.batches.filter (atBar id)).map barSet).any (· != firstSet id c)
    || decide (firstSet id c &&& ~~~(BitVec.ofNat 32 (2 ^ t.crews.length - 1)) ≠ 0#32)
    || !(firstSet id c).getLsbD cr || (barObj t id).set.any (· != firstSet id c)

theorem tryArrive_full {s : State} {r : CrewRef} {t : Team} {c : Crew} {id : Nat} (ht : teamOf s r.cl r.ts = some t) (hc : crewOf s r = some c)
    (full : allParked c (atBar id) = true) : tryArrive s r id = if refusesBar t r.cr id c then barIllegal s r id
      else updTeam (updCrew s r (fun c => { c with arrivedAt := s.cycle })) r.cl r.ts
        (fun x => { x with bars := put x.bars id (arrivedBar t r.cr id (firstSet id c)) }) := by
  unfold tryArrive refusesBar arrivedBar
  simp only [ht, hc, full, Bool.not_true, Bool.false_eq_true, if_false]
  cases (barObj t id).set <;> rfl

/-- The masks agree exactly where the arrival does not refuse them. -/
theorem refusesBar_eq_false {t : Team} {cr id : Nat} {c : Crew} {b : Batch} (hb : b ∈ c.batches) (parks : atBar id b = true) :
    refusesBar t cr id c = false ↔ BarAgrees t cr id (barSet b) c := by
  have sets : ∀ x, x ∈ (c.batches.filter (atBar id)).map barSet ↔ ∃ y ∈ c.batches, atBar id y = true ∧ barSet y = x := fun x => by
    simp [and_assoc]
  have own : barSet b ∈ (c.batches.filter (atBar id)).map barSet := (sets _).2 ⟨b, hb, parks, rfl⟩
  have first : firstSet id c ∈ (c.batches.filter (atBar id)).map barSet := by
    unfold firstSet
    cases h : (c.batches.filter (atBar id)).map barSet with
    | nil => rw [h] at own; cases own
    | cons x l => exact List.mem_cons_self
  simp only [refusesBar, Bool.or_eq_false_iff, decide_eq_false_iff_not, not_not, Bool.not_eq_eq_eq_not, Bool.not_false]
  constructor
  · rintro ⟨⟨⟨same, there⟩, mine⟩, before⟩
    have all : ∀ x ∈ (c.batches.filter (atBar id)).map barSet, x = firstSet id c := fun x hx => by simpa using List.any_eq_false.1 same x hx
    rw [all _ own]
    exact ⟨fun y hy py => all _ ((sets _).2 ⟨y, hy, py, rfl⟩), there, mine, fun x hx => by simpa [hx] using before⟩
  · rintro ⟨one, there, mine, before⟩
    obtain ⟨y, hy, py, e⟩ := (sets _).1 first
    rw [← e, one y hy py]
    refine ⟨⟨⟨List.any_eq_false.2 fun x hx => ?_, there⟩, mine⟩, ?_⟩
    · obtain ⟨z, hz, pz, rfl⟩ := (sets x).1 hx
      simp [one z hz pz]
    · cases h : (barObj t id).set with
      | none => rfl
      | some x => simp [before x h]

theorem firstSet_of_agrees {t : Team} {cr id : Nat} {m : W32} {c : Crew} {b : Batch} (hb : b ∈ c.batches) (parks : atBar id b = true)
    (good : BarAgrees t cr id m c) : firstSet id c = m := by
  have some_ : b ∈ c.batches.filter (atBar id) := List.mem_filter.2 ⟨hb, parks⟩
  unfold firstSet
  cases h : c.batches.filter (atBar id) with
  | nil => rw [h] at some_; cases some_
  | cons x l =>
    have hx : x ∈ c.batches.filter (atBar id) := by rw [h]; exact List.mem_cons_self
    obtain ⟨hx, parks⟩ := List.mem_filter.1 hx
    exact good.one x hx parks

section
variable {s : State} {r : CrewRef} {t : Team} {c : Crew} {id : Nat} {b : Batch} (ht : teamOf s r.cl r.ts = some t)
  (hc : crewOf s r = some c) (full : allParked c (atBar id) = true) (hb : b ∈ c.batches) (parks : atBar id b = true)

include ht hc full hb parks

/-- The last LIVE fibre has parked and the masks agree: the crew has arrived. -/
theorem tryArrive_agrees (good : BarAgrees t r.cr id (barSet b) c) : tryArrive s r id
    = updTeam (updCrew s r (fun c => { c with arrivedAt := s.cycle })) r.cl r.ts
      (fun x => { x with bars := put x.bars id (arrivedBar t r.cr id (barSet b)) }) := by
  rw [tryArrive_full ht hc full, (refusesBar_eq_false hb parks).2 good, firstSet_of_agrees hb parks good]
  rfl

/-- The masks do not agree: every parked fibre raises ILLEGAL. -/
theorem tryArrive_differs (bad : ¬ BarAgrees t r.cr id (barSet b) c) : tryArrive s r id = barIllegal s r id := by
  rw [tryArrive_full ht hc full, Bool.eq_true_of_not_eq_false (mt (refusesBar_eq_false hb parks).1 bad)]
  rfl

end

/-! The words. -/

/-- The checks of BAR. -/
def barChecks (f : RRR) : WordSpec := ctlChecks f (pDst false) pMask { n := 1, g := false, k := true, p := false, sp := [0, 1] } true

theorem exec_bar {f : RRR} {s : State} {a : At} {m : W32} (pass : Passes s a (barChecks f))
    (hm : m = if f.b.cls = .s ∧ f.b.num = 1 then BitVec.ofNat 32 (2 ^ a.team.crews.length - 1) else BitVec.ofNat 32 (opdVal s a 0 f.b 1)) :
    exec (.bar f) s = .next (if a.b.rep && decide (a.crew.live &&& ~~~a.b.mask ≠ 0#32) then faultAll s a a.slots .convergence
      else tryArrive (Waits s a (.bar (opdVal s a 0 f.a 1 % 16) m f.d) true) a.ref (opdVal s a 0 f.a 1 % 16)) := by
  have names : (if f.b.cls = .s && f.b.num = 1 then BitVec.ofNat 32 (2 ^ a.team.crews.length - 1) else BitVec.ofNat 32 (opdVal s a 0 f.b 1)) = m := by
    rw [hm]
    simp only [Bool.and_eq_true, decide_eq_true_eq]
  show execBar f s = _
  refine (issueWord_passes _ pass).trans ?_
  rw [← names]
  rfl

/-- A batch that is no repeat, or holds every LIVE fibre, is not refused (R122). -/
theorem repeat_whole {a : At} (whole : a.b.rep = true → a.crew.live &&& ~~~a.b.mask = 0#32) :
    (a.b.rep && decide (a.crew.live &&& ~~~a.b.mask ≠ 0#32)) = false := by
  cases hr : a.b.rep with
  | false => rfl
  | true => simp [whole hr]

theorem exec_gbar {f : RRR} {s : State} {a : At} {g : Grid} (pass : Passes s a { ctlChecks f (pDst false) pNone pNone true with rel := true })
    (hg : gridOf s a.team.ctx a.team.gid = some g) :
    exec (.gbar f) s = .next (if !g.coop then faultAll s a a.slots .illegal
      else if a.b.rep && decide (a.crew.live &&& ~~~a.b.mask ≠ 0#32) then faultAll s a a.slots .convergence
      else gbarArrive (Waits s a (.gbar f.d) true) a.ref) := by
  have coop : teamCoop s a.team = g.coop := by simp only [teamCoop, hg]
  show execGbar f s = _
  refine (issueWord_passes _ pass).trans ?_
  rw [coop]
  rfl

theorem gbarArrive_missing {s : State} {r : CrewRef} {c : Crew} (hc : crewOf s r = some c) (live : c.live ≠ 0#32)
    (h : allParked c atGbar = false) : gbarArrive s r = s := by
  simp [gbarArrive, hc, live, h]

theorem gbarArrive_full {s : State} {r : CrewRef} {c : Crew} (hc : crewOf s r = some c) (h : allParked c atGbar = true) :
    gbarArrive s r = updCrew (releaseAt s r.cl 5) r (fun c => { c with arrivedAt := s.cycle }) := by
  simp [gbarArrive, hc, h]

/-- The trap of a batch that is parked at a barrier, at its own BAR word. -/
def barTrap (b : Batch) : TrapWait :=
  { faults := (maskSlots b.mask).map (fun i => (i, { fault .illegal with pc := batchPc b })),
    batch := { b with wait := .none }, moved := [], t := batchPc b, atHeader := false }

/-- The crew whose batches parked at a barrier raise ILLEGAL. -/
def barTrapped (id : Nat) (c : Crew) : Crew :=
  { c with batches := c.batches.filter (fun b => !atBar id b), cur := none, trapWait := c.trapWait ++ (c.batches.filter (atBar id)).map barTrap }

theorem barIllegal_eq (s : State) (r : CrewRef) (id : Nat) : barIllegal s r id = updCrew s r (barTrapped id) := rfl

/-- Settles O20: the parked batch is in its crew, so the sets that the crew's arrival compares are those of `BarAgrees`. -/
theorem barriersPark : Obligations.BarriersPark := by
  unfold Obligations.BarriersPark
  refine ⟨fun f s a id m pass hid hm => ⟨fun hr lacking => ?lacks, fun whole => ?parks⟩,
    fun f s a g pass hg => ⟨fun coop => ?alone, fun coop hr lacking => ?missing, fun coop whole => ?grid⟩⟩
  case lacks =>
    rw [exec_bar pass hm]
    simp [hr, lacking]
  case parks =>
    subst hid
    have hi := pass.here
    have runs := exec_bar pass hm
    rw [repeat_whole whole, if_neg Bool.false_ne_true] at runs
    have crew := crewOf_waits hi (.bar (opdVal s a 0 f.a 1 % 16) m f.d)
    have team := teamOf_waits hi (.bar (opdVal s a 0 f.a 1 % 16) m f.d)
    have mine := batch_waits hi (.bar (opdVal s a 0 f.a 1 % 16) m f.d)
    have parked : atBar (opdVal s a 0 f.a 1 % 16) { a.b with wait := .bar (opdVal s a 0 f.a 1 % 16) m f.d } = true := beq_self_eq_true _
    refine ⟨_, _, rfl, crew, fun missing => ?_, fun full => ⟨fun ⟨one, there, named, before⟩ => ?_, fun bad => ?_⟩⟩
    · exact runs.trans (congrArg _ (tryArrive_missing crew missing))
    · have arrives := tryArrive_agrees team crew full mine parked ⟨one, by rwa [modAt_length], named, before⟩
      rw [waits_cycle] at arrives
      exact runs.trans (congrArg _ arrives)
    · refine ⟨_, runs.trans (congrArg _ ((tryArrive_differs team crew full mine parked fun good => bad ?_).trans (barIllegal_eq _ _ _))), rfl,
        ⟨_, rfl, ?_, ?_⟩, rfl⟩
      · obtain ⟨one, there, named, before⟩ := good
        rw [modAt_length] at there
        exact ⟨one, there, named, before⟩
      · rw [List.map_map]
        rfl
      · intro w hw e he
        obtain ⟨b, -, rfl⟩ := List.mem_map.1 hw
        obtain ⟨j, -, rfl⟩ := List.mem_map.1 he
        exact ⟨rfl, rfl⟩
  case alone =>
    rw [exec_gbar pass hg]
    simp [coop]
  case missing =>
    rw [exec_gbar pass hg]
    simp [coop, hr, lacking]
  case grid =>
    have runs := exec_gbar pass hg
    rw [repeat_whole whole, coop, Bool.not_true, if_neg Bool.false_ne_true, if_neg Bool.false_ne_true] at runs
    refine ⟨_, _, rfl, crewOf_waits pass.here _, fun live missing => ?_, fun full => ?_⟩
    · exact runs.trans (congrArg _ (gbarArrive_missing (crewOf_waits pass.here _) live missing))
    · have arrives := gbarArrive_full (crewOf_waits pass.here _) full
      rw [waits_cycle] at arrives
      exact runs.trans (congrArg _ arrives)

end Sys2Proof.Machine
end

section
/-! What an event reads back of the teams that it changes, and what it leaves alone. -/

namespace Sys2Proof.Machine

/-! Teams read back. -/

theorem updTeam_some {s : State} {x ts : Nat} {t : Team} (ht : teamOf s x ts = some t) (f : Team → Team) : updTeam s x ts f = setTeam s x ts (f t) := by
  simp [updTeam, ht]

theorem updTeam_none {s : State} {x ts : Nat} (ht : teamOf s x ts = none) (f : Team → Team) : updTeam s x ts f = s := by
  simp [updTeam, ht]

@[simp] theorem teamOf_setTeam (s : State) (x ts : Nat) (t : Team) : teamOf (setTeam s x ts t) x ts = some t := by
  simp [teamOf, setTeam]

theorem teamOf_setTeam_other (s : State) {x ts y us : Nat} (t : Team) (h : (y, us) ≠ (x, ts)) : teamOf (setTeam s x ts t) y us = teamOf s y us := by
  by_cases hy : y = x
  · subst hy
    have hs : us ≠ ts := fun e => h (by rw [e])
    simp [teamOf, setTeam, look_put_other _ hs]
  · simp [teamOf, setTeam, clusterOf_updCluster_other s _ hy]

@[simp] theorem teamOf_updTeam (s : State) (x ts : Nat) (f : Team → Team) : teamOf (updTeam s x ts f) x ts = (teamOf s x ts).map f := by
  cases ht : teamOf s x ts with
  | none => rw [updTeam_none ht, ht]; rfl
  | some t => rw [updTeam_some ht, teamOf_setTeam]; rfl

theorem teamOf_updTeam_other (s : State) {x ts y us : Nat} (f : Team → Team) (h : (y, us) ≠ (x, ts)) :
    teamOf (updTeam s x ts f) y us = teamOf s y us := by
  cases ht : teamOf s x ts with
  | none => rw [updTeam_none ht]
  | some t => rw [updTeam_some ht, teamOf_setTeam_other s _ h]

theorem setTeam_setTeam (s : State) (x ts : Nat) (t u : Team) : setTeam (setTeam s x ts t) x ts u = setTeam s x ts u := by
  simp [setTeam, updCluster, put_put]

theorem updTeam_updTeam (s : State) (x ts : Nat) (f g : Team → Team) : updTeam (updTeam s x ts f) x ts g = updTeam s x ts (fun t => g (f t)) := by
  cases ht : teamOf s x ts with
  | none => rw [updTeam_none ht, updTeam_none ht, updTeam_none ht]
  | some t => rw [updTeam_some ht, updTeam_some (teamOf_setTeam s x ts _), updTeam_some ht, setTeam_setTeam]

theorem clusterOf_updTeam_other (s : State) {x y : Nat} (ts : Nat) (f : Team → Team) (h : y ≠ x) : clusterOf (updTeam s x ts f) y = clusterOf s y := by
  cases ht : teamOf s x ts with
  | none => rw [updTeam_none ht]
  | some t => rw [updTeam_some ht, setTeam, clusterOf_updCluster_other s _ h]

/-- A team's change leaves the rest of its cluster. -/
theorem clusterOf_updTeam (s : State) (x ts : Nat) (f : Team → Team) :
    { clusterOf (updTeam s x ts f) x with teams := (clusterOf s x).teams } = clusterOf s x := by
  cases ht : teamOf s x ts with
  | none => rw [updTeam_none ht]
  | some t => rw [updTeam_some ht, setTeam, clusterOf_updCluster]

/-! The crews of a list. -/

/-- The crews whose numbers are in `l` changed by `f`. -/
def eachCrew (f : Crew → Crew) (l : List Nat) (cs : List Crew) : List Crew := l.foldl (fun cs i => modAt cs i f) cs

theorem eachCrew_get (f : Crew → Crew) {j : Nat} : ∀ {l : List Nat} {cs : List Crew}, l.Nodup →
    (eachCrew f l cs)[j]? = if j ∈ l then cs[j]?.map f else cs[j]?
  | [], _, _ => by simp [eachCrew]
  | i :: l, cs, h => by
    obtain ⟨out, rest⟩ := List.nodup_cons.1 h
    have ih := eachCrew_get f (j := j) (cs := modAt cs i f) rest
    show (eachCrew f l (modAt cs i f))[j]? = _
    rw [ih]
    by_cases e : j = i
    · subst e
      simp [out, modAt_get_same]
    · simp [e, modAt_get_other f cs i e]

theorem eachCrew_length (f : Crew → Crew) : ∀ (l : List Nat) (cs : List Crew), (eachCrew f l cs).length = cs.length
  | [], _ => rfl
  | i :: l, cs => (eachCrew_length f l _).trans (modAt_length f cs i)

theorem foldl_updCrew_eachCrew (x ts : Nat) (f : Crew → Crew) : ∀ (l : List Nat) (s : State) (g : Team → Team),
    l.foldl (fun s i => updCrew s { cl := x, ts := ts, cr := i } f) (updTeam s x ts g)
      = updTeam s x ts (fun t => { g t with crews := eachCrew f l (g t).crews })
  | [], _, _ => rfl
  | i :: l, s, g => by
    rw [List.foldl_cons, updCrew, updTeam_updTeam, foldl_updCrew_eachCrew x ts f l]
    rfl

/-! What stands beside the clusters. -/

/-- Beside the clusters `u` is `s`. -/
def OnlyClusters (s u : State) : Prop := { u with clusters := s.clusters } = s

namespace OnlyClusters

theorem refl (s : State) : OnlyClusters s s := rfl

theorem trans {s u v : State} (h : OnlyClusters s u) (g : OnlyClusters u v) : OnlyClusters s v := by
  show { v with clusters := s.clusters } = s
  rw [← h, ← g]

theorem cycle {s u : State} (h : OnlyClusters s u) : u.cycle = s.cycle := by
  have same := congrArg State.cycle (show { u with clusters := s.clusters } = s from h)
  exact same

theorem grids {s u : State} (h : OnlyClusters s u) : u.grids = s.grids := by
  have same := congrArg State.grids (show { u with clusters := s.clusters } = s from h)
  exact same

theorem of_updGrid {s u : State} {ctx gid : Nat} {f : Grid → Grid} (h : OnlyClusters (updGrid s ctx gid f) u) :
    { u with clusters := s.clusters, grids := s.grids } = s := by
  have same := congrArg (fun v : State => { v with grids := s.grids }) (show { u with clusters := s.clusters } = updGrid s ctx gid f from h)
  exact same

end OnlyClusters

/-! Grids read back. -/

/-- What keeps the names of the grids keeps which grid a name finds. -/
theorem find?_map_grid {f : Grid → Grid} (hf : ∀ g, (f g).ctx = g.ctx ∧ (f g).gid = g.gid) (ctx gid : Nat) (l : List Grid) :
    (l.map f).find? (fun g => g.ctx == ctx && g.gid == gid) = (l.find? (fun g => g.ctx == ctx && g.gid == gid)).map f := by
  rw [List.find?_map]
  congr 2
  funext g
  simp [hf g]

theorem gridOf_ctx {s : State} {ctx gid : Nat} {g : Grid} (hg : gridOf s ctx gid = some g) : g.ctx = ctx ∧ g.gid = gid := by
  simpa using List.find?_some hg

theorem gridOf_updGrid {s : State} {ctx gid : Nat} {g : Grid} (hg : gridOf s ctx gid = some g) {f : Grid → Grid}
    (hf : ∀ g, (f g).ctx = g.ctx ∧ (f g).gid = g.gid) : gridOf (updGrid s ctx gid f) ctx gid = some (f g) := by
  obtain ⟨hctx, hgid⟩ := gridOf_ctx hg
  have names : ∀ g : Grid, (if g.ctx == ctx && g.gid == gid then f g else g).ctx = g.ctx
      ∧ (if g.ctx == ctx && g.gid == gid then f g else g).gid = g.gid := by
    intro g
    split
    · exact hf g
    · exact ⟨rfl, rfl⟩
  refine (find?_map_grid names ctx gid s.grids).trans ?_
  rw [show s.grids.find? _ = some g from hg, Option.map_some]
  simp [hctx, hgid]

theorem updTeam_onlyClusters (s : State) (x ts : Nat) (f : Team → Team) : OnlyClusters s (updTeam s x ts f) := by
  unfold updTeam
  split <;> rfl

end Sys2Proof.Machine
end

section
/-! Barriers open: the crews' batches wait for their wave, and the crews stand in their cluster's queue (R137, R138, R276). -/

namespace Sys2Proof.Machine

/-! The queue. -/

theorem queueWaves_onlyClusters (s : State) (x ts : Nat) (l : List WaveItem) : OnlyClusters s (queueWaves s x ts l) := by
  unfold queueWaves
  split <;> rfl

theorem clusterOf_queueWaves_other (s : State) {x y : Nat} (ts : Nat) (l : List WaveItem) (h : y ≠ x) :
    clusterOf (queueWaves s x ts l) y = clusterOf s y := by
  unfold queueWaves
  split
  · rfl
  · exact clusterOf_updCluster_other s _ h

/-- Beside the queue the cluster stands. -/
theorem clusterOf_queueWaves (s : State) (x ts : Nat) (l : List WaveItem) :
    { clusterOf (queueWaves s x ts l) x with waves := (clusterOf s x).waves, waveAt := (clusterOf s x).waveAt } = clusterOf s x := by
  unfold queueWaves
  split
  · rfl
  · rw [clusterOf_updCluster]

theorem teamOf_queueWaves (s : State) (x ts : Nat) (l : List WaveItem) (y us : Nat) : teamOf (queueWaves s x ts l) y us = teamOf s y us := by
  by_cases h : y = x
  · subst h
    have stands := congrArg Cluster.teams (clusterOf_queueWaves s y ts l)
    exact congrArg (look · us) stands
  · rw [teamOf, clusterOf_queueWaves_other s ts l h, teamOf]

/-- The queue holds its crews as before and those of the opening. -/
theorem mem_queueWaves (s : State) (x ts : Nat) (l : List WaveItem) (w : WaveItem) :
    w ∈ (clusterOf (queueWaves s x ts l) x).waves ↔ w ∈ (clusterOf s x).waves ∨ w ∈ l := by
  unfold queueWaves
  split
  · next none => simp [List.isEmpty_iff.1 none]
  · rw [clusterOf_updCluster]
    simp only [List.mem_append, List.mem_filter]
    by_cases later : (w.opened == s.cycle && decide (ts < w.ts)) = true
    · simp only [later, Bool.not_true, Bool.false_eq_true, and_false, false_or, and_true]
      exact or_comm
    · simp [later]

/-! The team. -/

/-- A crew as its team's barrier opens: it counts its issues anew (R273). -/
def newOpening (c : Crew) : Crew := { c with issued := 0 }

/-- A crew that goes through the barrier: its batches there wait for their wave. -/
def wentThrough (p : Batch → Bool) (c : Crew) : Crew := toWave p (newOpening c)

/-- A team of which the crews in `l` go through their barrier. -/
def openedTeam (p : Batch → Bool) (l : List Nat) (t : Team) : Team :=
  { afterOpening t l with crews := eachCrew (toWave p) l (afterOpening t l).crews }

theorem openedTeam_get (p : Batch → Bool) {l : List Nat} (hl : l.Nodup) (t : Team) (j : Nat) : (openedTeam p l t).crews[j]?
    = t.crews[j]?.map (fun c => if j ∈ l then wentThrough p c else newOpening c) := by
  show (eachCrew (toWave p) l (t.crews.map newOpening))[j]? = _
  rw [eachCrew_get _ hl, List.getElem?_map, Option.map_map]
  by_cases h : j ∈ l <;> simp only [h, if_true, if_false]
  rfl

theorem openedTeam_length (p : Batch → Bool) (l : List Nat) (t : Team) : (openedTeam p l t).crews.length = t.crews.length :=
  (eachCrew_length _ l _).trans (List.length_map _)

/-- Has crew `i` of the team a LIVE fibre? -/
def liveCrew (t : Team) (i : Nat) : Bool := match t.crews[i]? with | some c => c.live != 0#32 | none => false

theorem liveCrew_iff {t : Team} {j : Nat} {c : Crew} (hc : t.crews[j]? = some c) : liveCrew t j = true ↔ c.live ≠ 0#32 := by
  simp [liveCrew, hc]

theorem lt_of_get {t : Team} {j : Nat} {c : Crew} (hc : t.crews[j]? = some c) : j < t.crews.length := (List.getElem?_eq_some_iff.1 hc).1

/-! BARRIER_OPEN. -/

/-- The crews that an opening releases: named and with a LIVE fibre. -/
def openedCrews (t : Team) (o : BarObj) : List Nat := (namedCrews t (o.set.getD 0#32)).filter (liveCrew t)

/-- A barrier after its opening. -/
def emptyBar (o : BarObj) : BarObj := { arrived := 0#32, set := none, gen := (o.gen + 1) % 2 ^ 32 }

theorem openedCrews_nodup (t : Team) (o : BarObj) : (openedCrews t o).Nodup := (List.nodup_range.filter _).filter _

theorem mem_openedCrews {t : Team} {o : BarObj} {j : Nat} {c : Crew} (set : o.set.isSome = true) (hc : t.crews[j]? = some c) :
    j ∈ openedCrews t o ↔ o.set.any (fun m => m.getLsbD j) = true ∧ c.live ≠ 0#32 := by
  obtain ⟨m, hm⟩ := Option.isSome_iff_exists.1 set
  simp [openedCrews, namedCrews, hm, lt_of_get hc, liveCrew_iff hc, and_comm]

theorem set_of_full {t : Team} {o : BarObj} (h : barFull t o = true) : o.set.isSome = true := by
  unfold barFull at h
  split at h
  · cases h
  · next hm => rw [hm]; rfl

theorem exec_barrierOpen {s : State} {x ts id : Nat} {t : Team} (ht : teamOf s x ts = some t) (full : barFull t (barObj t id) = true) (hid : id < 16)
    (hs : t.saved = false) :
    exec (.barrierOpen x ts id) s = .next (queueWaves
      (updTeam s x ts (fun u => { openedTeam (atBar id) (openedCrews t (barObj t id)) u with bars := put u.bars id (emptyBar (barObj t id)) })) x ts
      ((openedCrews t (barObj t id)).map (fun i => { ts := ts, cr := i, grid := false, opened := s.cycle }))) := by
  have open_ : (!barFull t (barObj t id) || decide (16 ≤ id) || t.saved) = false := by simp [full, hs, hid]
  show execBarrierOpen x ts id s = _
  unfold execBarrierOpen
  simp only [ht, open_, Bool.false_eq_true, if_false, foldl_updCrew_eachCrew, updTeam_cycle]
  rfl

/-! GRID_BARRIER_OPEN. -/

/-- The opening of a grid barrier for one team: its LIVE crews go through. -/
def opensTeam (s : State) (e : Nat × Nat × Team) : State :=
  queueWaves (updTeam s e.1 e.2.1 (openedTeam atGbar ((List.range e.2.2.crews.length).filter (liveCrew e.2.2)))) e.1 e.2.1
    (((List.range e.2.2.crews.length).filter (liveCrew e.2.2)).map (fun i => { ts := e.2.1, cr := i, grid := true, opened := s.cycle }))

/-- The teams of a grid, by number. -/
def teamsInOrder (s : State) (ctx gid : Nat) : List (Nat × Nat × Team) := (teamsOf s ctx gid).foldl (fun l t => insTeam t l) []

theorem exec_gridBarrierOpen {s : State} {ctx gid : Nat} {g : Grid} (hg : gridOf s ctx gid = some g) (full : gbarFull s g = true) :
    exec (.gridBarrierOpen ctx gid) s
      = .next ((teamsInOrder s ctx gid).foldl opensTeam (updGrid s ctx gid (fun g => { g with gen := g.gen + 1 }))) := by
  show execGridBarrierOpen ctx gid s = _
  unfold execGridBarrierOpen
  simp only [hg, full, Bool.not_true, Bool.false_eq_true, if_false, foldl_updCrew_eachCrew, updTeam_cycle]
  rfl

theorem mem_insTeam (t e : Nat × Nat × Team) : ∀ l : List (Nat × Nat × Team), e ∈ insTeam t l ↔ e = t ∨ e ∈ l
  | [] => by simp [insTeam]
  | u :: l => by
    unfold insTeam
    split
    · simp
    · simp only [List.mem_cons, mem_insTeam t e l]
      exact or_left_comm

theorem mem_foldl_insTeam (e : Nat × Nat × Team) : ∀ l m : List (Nat × Nat × Team), e ∈ l.foldl (fun l t => insTeam t l) m ↔ e ∈ l ∨ e ∈ m
  | [], m => by simp
  | t :: l, m => by
    rw [List.foldl_cons, mem_foldl_insTeam e l, mem_insTeam, List.mem_cons, or_assoc, or_left_comm]

theorem mem_teamsOf {s : State} {ctx gid x ts : Nat} {t : Team} (ht : teamOf s x ts = some t) (hctx : t.ctx = ctx) (hgid : t.gid = gid) :
    (x, ts, t) ∈ teamsOf s ctx gid := by
  have stands : (x, clusterOf s x) ∈ s.clusters := by
    cases hx : look s.clusters x with
    | some c => rw [clusterOf, hx]; exact look_mem hx
    | none =>
      rw [teamOf, clusterOf, hx] at ht
      cases ht
  refine List.mem_flatMap.2 ⟨_, stands, List.mem_map.2 ⟨(ts, t), List.mem_filter.2 ⟨look_mem ht, ?_⟩, rfl⟩⟩
  simp [hctx, hgid]



/-- The opening has nothing more to do for a crew that went through. -/
theorem toWave_toWave (c : Crew) : toWave atGbar (toWave atGbar c) = toWave atGbar c := by

  simp only [toWave, List.map_map]
  congr 1
  refine List.map_congr_left fun b _ => ?_
  simp only [Function.comp_def]
  by_cases h : atGbar b = true
  · have done : atGbar { b with wait := waveWait b.wait } = false := by
      unfold atGbar at h
      split at h
      · next hw => simp [atGbar, waveWait, hw]
      · cases h
    simp [h, done]
  · simp [h]

theorem wentThrough_again (c : Crew) : wentThrough atGbar (wentThrough atGbar c) = wentThrough atGbar c := toWave_toWave (newOpening c)

theorem wentThrough_newOpening (p : Batch → Bool) (c : Crew) : wentThrough p (newOpening c) = wentThrough p c := rfl
theorem newOpening_wentThrough (p : Batch → Bool) (c : Crew) : newOpening (wentThrough p c) = wentThrough p c := rfl

/-- Crew `j` of the team is there, and `P` holds of it. -/
def CrewIs (u : State) (x ts j : Nat) (P : Crew → Prop) : Prop := ∃ t c, teamOf u x ts = some t ∧ t.crews[j]? = some c ∧ P c

section
variable {u : State} {x ts j : Nat} {P Q : Crew → Prop}

/-- The turn of a team that holds crew `j` as LIVE takes the crew through the barrier. -/
theorem opensTeam_own (h : CrewIs u x ts j P) {t : Team} (live : liveCrew t j = true) (lt : j < t.crews.length)
    (through : ∀ c, P c → Q (wentThrough atGbar c)) : CrewIs (opensTeam u (x, ts, t)) x ts j Q := by
  obtain ⟨t', c, ht, hc, hp⟩ := h
  have mine : j ∈ (List.range t.crews.length).filter (liveCrew t) := List.mem_filter.2 ⟨List.mem_range.2 lt, live⟩
  refine ⟨openedTeam atGbar ((List.range t.crews.length).filter (liveCrew t)) t', _, ?_, ?_, through c hp⟩
  · rw [opensTeam, teamOf_queueWaves, teamOf_updTeam, ht]
    rfl
  · rw [openedTeam_get _ (List.nodup_range.filter _), hc, Option.map_some, if_pos mine]

/-- Every team's turn leaves the crew, or readies it, or takes it through the barrier. -/
theorem opensTeam_crew (e : Nat × Nat × Team) (h : CrewIs u x ts j P) (stays : ∀ c, P c → Q c) (readies : ∀ c, P c → Q (newOpening c))
    (through : ∀ c, P c → Q (wentThrough atGbar c)) : CrewIs (opensTeam u e) x ts j Q := by
  obtain ⟨y, us, t⟩ := e
  by_cases key : (x, ts) = (y, us)
  · cases key
    obtain ⟨t', c, ht, hc, hp⟩ := h
    refine ⟨openedTeam atGbar ((List.range t.crews.length).filter (liveCrew t)) t',
      if j ∈ (List.range t.crews.length).filter (liveCrew t) then wentThrough atGbar c else newOpening c, ?_, ?_, ?_⟩
    · rw [opensTeam, teamOf_queueWaves, teamOf_updTeam, ht]
      rfl
    · rw [openedTeam_get _ (List.nodup_range.filter _), hc, Option.map_some]
    · split
      · exact through c hp
      · exact readies c hp
  · obtain ⟨t', c, ht, hc, hp⟩ := h
    exact ⟨t', c, by rw [opensTeam, teamOf_queueWaves, teamOf_updTeam_other u _ key, ht], hc, stays c hp⟩

end

theorem opensTeam_onlyClusters (u : State) (e : Nat × Nat × Team) : OnlyClusters u (opensTeam u e) :=
  (updTeam_onlyClusters u _ _ _).trans (queueWaves_onlyClusters _ _ _ _)

/-- The turns of teams keep what stands in a cluster's queue. -/
theorem opensTeam_waves {u : State} {x : Nat} {w : WaveItem} (e : Nat × Nat × Team) (h : w ∈ (clusterOf u x).waves) :
    w ∈ (clusterOf (opensTeam u e) x).waves := by
  obtain ⟨y, us, t⟩ := e
  by_cases hx : x = y
  · subst hx
    refine (mem_queueWaves _ _ _ _ _).2 (.inl ?_)
    have stands := congrArg Cluster.waves (clusterOf_updTeam u x us (openedTeam atGbar ((List.range t.crews.length).filter (liveCrew t))))
    exact stands ▸ h
  · rwa [opensTeam, clusterOf_queueWaves_other _ _ _ hx, clusterOf_updTeam_other u _ _ hx]

/-- A team's turn queues its LIVE crews. -/
theorem opensTeam_queues {u : State} {x ts j : Nat} {t : Team} (live : liveCrew t j = true) (lt : j < t.crews.length) :
    { ts := ts, cr := j, grid := true, opened := u.cycle } ∈ (clusterOf (opensTeam u (x, ts, t)) x).waves :=
  (mem_queueWaves _ _ _ _ _).2 (.inr (List.mem_map.2 ⟨j, List.mem_filter.2 ⟨List.mem_range.2 lt, live⟩, rfl⟩))

theorem foldl_opensTeam_waits {d : Crew} (l : List (Nat × Nat × Team)) {u : State} {x ts j : Nat}
    (h : CrewIs u x ts j (fun c => wentThrough atGbar c = wentThrough atGbar d)) :
    CrewIs (l.foldl opensTeam u) x ts j (fun c => wentThrough atGbar c = wentThrough atGbar d) :=
  foldl_keeps (P := fun v => CrewIs v x ts j _) (fun _ e hv => opensTeam_crew e hv (fun _ h => h) (fun _ h => by rwa [wentThrough_newOpening])
    (fun _ h => by rwa [wentThrough_again])) l u h

theorem foldl_opensTeam_went {d : Crew} (l : List (Nat × Nat × Team)) {u : State} {x ts j : Nat}
    (h : CrewIs u x ts j (· = wentThrough atGbar d)) : CrewIs (l.foldl opensTeam u) x ts j (· = wentThrough atGbar d) :=
  foldl_keeps (P := fun v => CrewIs v x ts j _) (fun _ e hv => opensTeam_crew e hv (fun _ h => h) (fun _ h => by rw [h, newOpening_wentThrough])
    (fun _ h => by rw [h, wentThrough_again])) l u h

theorem foldl_opensTeam_waves {x : Nat} {w : WaveItem} (l : List (Nat × Nat × Team)) {u : State} (h : w ∈ (clusterOf u x).waves) :
    w ∈ (clusterOf (l.foldl opensTeam u) x).waves :=
  foldl_keeps (P := fun v => w ∈ (clusterOf v x).waves) (fun _ e hv => opensTeam_waves e hv) l u h

theorem foldl_opensTeam_onlyClusters (l : List (Nat × Nat × Team)) (u : State) : OnlyClusters u (l.foldl opensTeam u) :=
  foldl_related .refl .trans (fun v e _ => opensTeam_onlyClusters v e) u

/-- A crew that is LIVE in its team's entry goes through once, whatever other entries there are, and is queued. -/
theorem foldl_opensTeam {u : State} {x ts j : Nat} {t : Team} {c : Crew} {l : List (Nat × Nat × Team)} (ht : teamOf u x ts = some t)
    (hc : t.crews[j]? = some c) (live : c.live ≠ 0#32) (hl : (x, ts, t) ∈ l) :
    CrewIs (l.foldl opensTeam u) x ts j (· = wentThrough atGbar c)
      ∧ { ts := ts, cr := j, grid := true, opened := u.cycle } ∈ (clusterOf (l.foldl opensTeam u) x).waves := by
  obtain ⟨before, after, rfl⟩ := List.append_of_mem hl
  have lt := lt_of_get hc
  have live := (liveCrew_iff hc).2 live
  have waits := foldl_opensTeam_waits (d := c) before ⟨t, c, ht, hc, rfl⟩
  have turn := opensTeam_own waits live lt (Q := (· = wentThrough atGbar c)) fun _ h => h
  have queued := opensTeam_queues (u := before.foldl opensTeam u) (x := x) (ts := ts) live lt
  rw [(foldl_opensTeam_onlyClusters before u).cycle] at queued
  rw [List.foldl_append, List.foldl_cons]
  exact ⟨foldl_opensTeam_went after turn, foldl_opensTeam_waves after queued⟩

end Sys2Proof.Machine
end

section
/-! The release of a crew from a barrier (R137, R139). -/

namespace Sys2Proof.Machine

theorem onCrew_onCrew (s : State) (r : CrewRef) (t : Team) (rf rf' : Cells 32) (c c' : Crew) :
    onCrew (onCrew s r t rf c) r { t with crews := modAt t.crews r.cr (fun _ => c) } rf' c' = onCrew s r t rf' c' := by
  simp [onCrew, modAt_modAt, put_put]

/-- The results of a word leave the batches, and do not read them. -/
theorem foldl_evPure_batches (l : List Batch) : ∀ (E : List WordEv) (p : Cells 32 × Crew),
    E.foldl evPure (p.1, { p.2 with batches := l }) = ((E.foldl evPure p).1, { (E.foldl evPure p).2 with batches := l })
  | [], _ => rfl
  | e :: E, p => by
    have step : evPure (p.1, { p.2 with batches := l }) e = ((evPure p e).1, { (evPure p e).2 with batches := l }) := by
      cases e with
      | st b => rfl
      | w i low x =>
        cases x with
        | g n v => rfl
        | k n v => cases low <;> rfl
        | p n b => simp only [evPure, pWrite]; split <;> rfl
    rw [List.foldl_cons, step, foldl_evPure_batches l E]
    rfl

/-- A batch that writes its results and goes on: like the end of a word, also for a batch without fibres. -/
def goesOn (s : State) (a : At) (outs : List (Nat × FRes)) : State := updCrew (applyAll s a.ref outs) a.ref (fun c => advance s.cycle c a.bi)

theorem goesOn_wrote {s : State} {a : At} {act : List Nat} {y : Yield} (ht : teamOf s a.ref.cl a.ref.ts = some a.team)
    (hc : a.team.crews[a.ref.cr]? = some a.crew) (hb : a.crew.batches[a.bi]? = some a.b) (hm : a.b.mask = 0#32 → act = [])
    (hps : ∀ i ∈ act, ∀ e ∈ y.preds i, ∀ e' ∈ y.preds i, e.1 = e'.1 → e = e') :
    Wrote s (goesOn s a (act.map (fun i => (i, y.res i)))) a act y := by
  by_cases empty : a.b.mask = 0#32
  · obtain rfl := hm empty
    obtain ⟨p, pOther, st, moved, memset, stays, yield⟩ := crewAfter_advance s.cycle a.crew a.bi
    have keeps := advance_keeps s.cycle a.crew a.bi
    have k : (advance s.cycle a.crew a.bi).k = a.crew.k := by have := congrArg Crew.k keeps; exact this
    refine ⟨_, _, updCrew_eq_onCrew ht hc _,
      ⟨by simp, fun i m _ => pOther i m (by simp), fun b hb => by simpa using st b hb, moved, memset, stays, yield⟩, by simp, fun _ _ => rfl, by simp, fun m _ => by rw [k], ?_⟩
    have beside := congrArg (fun c => { c with k := a.crew.k, preds := a.crew.preds }) keeps
    exact beside
  · have ends := finishWord_wrote_at ht hc hb empty hps
    rw [finishWord, okOuts_map, badOuts_map, stampPc, List.map_nil, finishFaults_none _ _ _ empty, applyAll_eq, evState_cycle, ← applyAll_eq] at ends
    exact ends

/-- Which clause is open is no part of what a word writes. -/
theorem Wrote.withCur {s u : State} {a : At} {act : List Nat} {y : Yield} (ht : teamOf s a.ref.cl a.ref.ts = some a.team) (h : Wrote s u a act y)
    (n : Option Nat) : Wrote s (updCrew u a.ref (fun c => { c with cur := n })) a act y := by
  obtain ⟨rf, c, rfl, ⟨p, pOther, st, moved, memset, stays, yield⟩, rest⟩ := h
  exact ⟨rf, { c with cur := n }, Shape.upd ht (.inr (.inr rfl)) _, ⟨p, pOther, st, moved, memset, stays, yield⟩, rest⟩

section
variable {s : State} {r : CrewRef} {t : Team} {c : Crew} {b : Batch} {d : Opd} {v : Nat} (ht : teamOf s r.cl r.ts = some t)
  (hc : t.crews[r.cr]? = some c) (one : c.batches.filter isWave = [b]) (hw : b.wait = .wave d)

/-- The crew whose one waving batch is ready again. -/
def releasedCrew (cycle : Nat) (c : Crew) (b : Batch) : Crew := { c with batches := c.batches.filter (fun x => !isWave x) ++ [readyAt cycle b] }

/-- The place of that batch. -/
def releasedAt (cycle : Nat) (r : CrewRef) (t : Team) (c : Crew) (b : Batch) : At :=
  { ref := r, bi := (c.batches.filter (fun x => !isWave x)).length, crew := releasedCrew cycle c b,
    team := { t with crews := modAt t.crews r.cr (fun _ => releasedCrew cycle c b) }, b := readyAt cycle b }

/-- What the release does to the crew once its results stand. -/
def wavedOn (cycle : Nat) (b : Batch) (c : Crew) : Crew :=
  let rest := c.batches.filter (fun x => !(isWave x && batchPc x == batchPc b))
  { advance cycle { c with batches := rest ++ [readyAt cycle b] } rest.length with cur := c.cur }

include one in
theorem wavedOn_one {x : Crew} (hx : x.batches = c.batches) (cycle : Nat) : wavedOn cycle b x
    = { advance cycle { x with batches := (releasedCrew cycle c b).batches } (c.batches.filter (fun x => !isWave x)).length with cur := x.cur } := by
  have others : c.batches.filter (fun x => !(isWave x && batchPc x == batchPc b)) = c.batches.filter (fun x => !isWave x) :=
    List.filter_congr fun x hx => by
      cases wave : isWave x with
      | false => rfl
      | true =>
        have same : x ∈ c.batches.filter isWave := List.mem_filter.2 ⟨hx, wave⟩
        rw [one, List.mem_singleton] at same
        simp [same]
  rw [wavedOn, hx, others]
  rfl

include ht hc one hw

theorem releaseBar_one : releaseBar s.cycle isWave s r v
    = updCrew (applyAll s r ((maskSlots b.mask).map (fun i => (i, res d 1 v 0)))) r (wavedOn s.cycle b) := by
  have crew : crewOf s r = some c := by simp [crewOf, ht, hc]
  unfold releaseBar
  simp only [crew, one, List.map_cons, List.map_nil, List.eraseDups_cons, List.filter_nil, List.eraseDups_nil, List.foldl_cons, List.foldl_nil,
    List.find?_cons_of_pos, beq_self_eq_true, List.filter_cons_of_pos, hw, BitVec.zero_or]
  rfl

/-- The release of one batch writes the status and goes on; the clause that the crew has open stays open. -/
theorem releaseBar_goesOn : releaseBar s.cycle isWave s r v
    = updCrew (goesOn (updCrew s r (fun _ => releasedCrew s.cycle c b)) (releasedAt s.cycle r t c b) ((maskSlots b.mask).map (fun i => (i, res d 1 v 0))))
        r (fun x => { x with cur := c.cur }) := by
  rw [releaseBar_one ht hc one hw, goesOn, updCrew_cycle, releasedAt, updCrew_eq_onCrew ht hc (fun _ => releasedCrew s.cycle c b), applyAll_eq,
    applyAll_eq]
  generalize allEvs ((maskSlots b.mask).map (fun i => (i, res d 1 v 0))) = E
  have before := Shape.evs ht hc E (x := s) (p := ((clusterOf s r.cl).rf, c)) (.inl ⟨rfl, rfl, hc⟩)
  have after := Shape.evs (teamOf_onCrew (s := s) (t := t) (rf := (clusterOf s r.cl).rf) (c := releasedCrew s.cycle c b))
    (modAt_const_get hc _) E (x := onCrew s r t (clusterOf s r.cl).rf (releasedCrew s.cycle c b))
    (p := ((clusterOf s r.cl).rf, releasedCrew s.cycle c b)) (.inl ⟨rfl, onCrew_rf.symm, modAt_const_get hc _⟩)
  have same := foldl_evPure_batches (releasedCrew s.cycle c b).batches E ((clusterOf s r.cl).rf, c)
  have kept := evs_rest E ((clusterOf s r.cl).rf, c)
  have batches : (E.foldl evPure ((clusterOf s r.cl).rf, c)).2.batches = c.batches := by have := congrArg Crew.batches kept; exact this
  have cur : (E.foldl evPure ((clusterOf s r.cl).rf, c)).2.cur = c.cur := by have := congrArg Crew.cur kept; exact this
  rw [before.upd ht, updCrew_updCrew, after.upd teamOf_onCrew, onCrew_onCrew, wavedOn_one one batches, ← cur]
  exact (congrArg (fun q : Cells 32 × Crew =>
    onCrew s r t q.1 { advance s.cycle q.2 (c.batches.filter (fun x => !isWave x)).length with
      cur := (E.foldl evPure ((clusterOf s r.cl).rf, c)).2.cur }) same).symm

end

section
variable {s : State} {r : CrewRef} {t : Team} {c : Crew} {b : Batch} {d : Opd} {v : Nat} (ht : teamOf s r.cl r.ts = some t)
  (hc : t.crews[r.cr]? = some c) (one : c.batches.filter isWave = [b]) (hw : b.wait = .wave d)

include ht hc one hw in
theorem releaseBar_wrote : Wrote (updCrew s r (fun _ => releasedCrew s.cycle c b)) (releaseBar s.cycle isWave s r v) (releasedAt s.cycle r t c b)
    (maskSlots b.mask) (yields d 1 (fun _ => v) (fun _ => 0)) := by
  have team : teamOf (updCrew s r (fun _ => releasedCrew s.cycle c b)) r.cl r.ts = some (releasedAt s.cycle r t c b).team := by
    rw [updCrew_eq_onCrew ht hc, teamOf_onCrew]
    rfl
  have batch : (releasedCrew s.cycle c b).batches[(c.batches.filter (fun x => !isWave x)).length]? = some (readyAt s.cycle b) := by
    simp [releasedCrew]
  have wrote := goesOn_wrote (a := releasedAt s.cycle r t c b) (act := maskSlots b.mask) (y := yields d 1 (fun _ => v) (fun _ => 0)) team
    (modAt_const_get hc _) batch (fun (none : b.mask = 0#32) => by rw [none]; rfl) (fun i _ => preds_yields _ _ _ _ i)
  simp only [res_yields] at wrote
  rw [releaseBar_goesOn ht hc one hw]
  exact wrote.withCur team _

end

end Sys2Proof.Machine
end

section
/-! The clauses. -/

namespace Sys2Proof.Machine

theorem barrier_opens {s : State} {x ts id : Nat} {t : Team} (ht : teamOf s x ts = some t) (full : barFull t (barObj t id) = true) (hid : id < 16)
    (hs : t.saved = false) :
    ∃ u t', exec (.barrierOpen x ts id) s = .next u ∧ teamOf u x ts = some t' ∧ barObj t' id = emptyBar (barObj t id)
      ∧ (∀ j ≠ id, barObj t' j = barObj t j) ∧ t'.crews.length = t.crews.length
      ∧ (∀ (j : Nat) (c : Crew), t.crews[j]? = some c →
          (c.live ≠ 0#32 → (barObj t id).set.any (fun m => m.getLsbD j) = true →
            t'.crews[j]? = some (wentThrough (atBar id) c)
            ∧ { ts := ts, cr := j, grid := false, opened := s.cycle } ∈ (clusterOf u x).waves)
          ∧ ((c.live = 0#32 ∨ (barObj t id).set.any (fun m => m.getLsbD j) = false) → t'.crews[j]? = some (newOpening c)))
      ∧ (∀ w ∈ (clusterOf s x).waves, w ∈ (clusterOf u x).waves)
      ∧ { clusterOf u x with
            teams := (clusterOf s x).teams, waves := (clusterOf s x).waves, waveAt := (clusterOf s x).waveAt } = clusterOf s x
      ∧ (∀ y, y ≠ x → clusterOf u y = clusterOf s y) ∧ { u with clusters := s.clusters } = s := by
  let l := openedCrews t (barObj t id)
  let F : Team → Team := fun u => { openedTeam (atBar id) l u with bars := put u.bars id (emptyBar (barObj t id)) }
  have crews : ∀ j, (F t).crews[j]? = t.crews[j]?.map (fun c => if j ∈ l then wentThrough (atBar id) c else newOpening c) :=
    openedTeam_get (atBar id) (openedCrews_nodup t _) t
  have team := clusterOf_updTeam s x ts F
  have waves : (clusterOf (updTeam s x ts F) x).waves = (clusterOf s x).waves := by
    have := congrArg Cluster.waves team
    exact this
  have queue := clusterOf_queueWaves (updTeam s x ts F) x ts (l.map (fun i => { ts := ts, cr := i, grid := false, opened := s.cycle }))
  refine ⟨_, F t, exec_barrierOpen ht full hid hs, ?_, ?_, ?_, openedTeam_length _ l t, fun j c hc => ?_, fun w hw => ?_, ?_, fun y hy => ?_, ?_⟩
  · rw [teamOf_queueWaves, teamOf_updTeam, ht]
    rfl
  · simp [barObj, F]
  · intro j hj
    simp [barObj, F, look_put_other _ hj]
  · have named := mem_openedCrews (set_of_full full) hc
    refine ⟨fun live set => ⟨?_, ?_⟩, fun out => ?_⟩
    · rw [crews, hc, Option.map_some, if_pos (named.2 ⟨set, live⟩)]
    · exact (mem_queueWaves _ _ _ _ _).2 (.inr (List.mem_map.2 ⟨j, named.2 ⟨set, live⟩, rfl⟩))
    · have not_ : j ∉ l := fun h => by
        obtain ⟨set, live⟩ := named.1 h
        rcases out with out | out
        · exact live out
        · rw [out] at set; cases set
      rw [crews, hc, Option.map_some, if_neg not_]
  · exact (mem_queueWaves _ _ _ _ _).2 (.inl (waves ▸ hw))
  · have beside := congrArg (fun c => { c with teams := (clusterOf s x).teams, waves := (clusterOf s x).waves, waveAt := (clusterOf s x).waveAt }) queue
    exact beside.trans (congrArg (fun c => { c with waves := (clusterOf s x).waves, waveAt := (clusterOf s x).waveAt }) team)
  · rw [clusterOf_queueWaves_other _ ts _ hy, clusterOf_updTeam_other s ts F hy]
  · exact (updTeam_onlyClusters s x ts F).trans (queueWaves_onlyClusters _ _ _ _)

theorem gridBarrier_opens {s : State} {ctx gid : Nat} {g : Grid} (hg : gridOf s ctx gid = some g) (full : gbarFull s g = true) :
    ∃ u, exec (.gridBarrierOpen ctx gid) s = .next u ∧ gridOf u ctx gid = some { g with gen := g.gen + 1 }
      ∧ (∀ (x ts j : Nat) (t : Team) (c : Crew), teamOf s x ts = some t → t.ctx = ctx → t.gid = gid → t.crews[j]? = some c → c.live ≠ 0#32 →
          (∃ t', teamOf u x ts = some t' ∧ t'.crews[j]? = some (wentThrough atGbar c))
          ∧ { ts := ts, cr := j, grid := true, opened := s.cycle } ∈ (clusterOf u x).waves)
      ∧ { u with clusters := s.clusters, grids := s.grids } = s := by
  have only : OnlyClusters (updGrid s ctx gid (fun g => { g with gen := g.gen + 1 }))
      ((teamsInOrder s ctx gid).foldl opensTeam (updGrid s ctx gid (fun g => { g with gen := g.gen + 1 }))) :=
    foldl_opensTeam_onlyClusters _ _
  refine ⟨_, exec_gridBarrierOpen hg full, ?_, fun x ts j t c ht hctx hgid hc live => ?_, ?_⟩
  · rw [gridOf, only.grids]
    exact gridOf_updGrid hg (f := fun g => { g with gen := g.gen + 1 }) fun _ => ⟨rfl, rfl⟩
  · have entry : (x, ts, t) ∈ teamsInOrder s ctx gid := (mem_foldl_insTeam _ _ _).2 (.inl (mem_teamsOf ht hctx hgid))
    obtain ⟨⟨t', c', ht', hc', rfl⟩, queued⟩ := foldl_opensTeam (u := updGrid s ctx gid (fun g => { g with gen := g.gen + 1 })) ht hc live entry
    exact ⟨⟨t', ht', hc'⟩, queued⟩
  · exact only.of_updGrid

theorem exec_barrierWaveRelease {s : State} {x : Nat} (due : waveDue s (clusterOf s x) = true) :
    ∃ u l, exec (.barrierWaveRelease x) s
        = .next (updCluster u x (fun c => { c with waves := c.waves.drop l.length, waveAt := c.waveAt + slice c.cslope.toNat 0 8 }))
      ∧ u = l.foldl (fun s w => releaseBar s.cycle isWave (acquireAt s x (if w.grid then 5 else 2)) { cl := x, ts := w.ts, cr := w.cr } 0) s
      ∧ l = (if slice (clusterOf s x).cslope.toNat 8 8 = 0 then (clusterOf s x).waves
             else (clusterOf s x).waves.take (slice (clusterOf s x).cslope.toNat 8 8)) := by
  refine ⟨_, _, ?_, rfl, rfl⟩
  show execBarrierWaveRelease x s = _
  unfold execBarrierWaveRelease
  simp only [due, Bool.not_true, Bool.false_eq_true, if_false]
  rfl

/-- Settles O21: an opening changes its own teams and queues; one batch's release is the end of a word that writes the status. -/
theorem barriersOpenAndRelease : Obligations.BarriersOpenAndRelease := by
  unfold Obligations.BarriersOpenAndRelease
  exact ⟨⟨fun s x ts id t ht full hid hs => barrier_opens ht full hid hs, fun s ctx gid g hg full => gridBarrier_opens hg full,
    fun s x due => exec_barrierWaveRelease due⟩, fun s r t c b d v ht hc one hw => releaseBar_wrote ht hc one hw⟩

end Sys2Proof.Machine
end

section
/-! LAUNCH and the decision about it (R132 to R135, R246). -/

namespace Sys2Proof.Machine

/-! Words whose fibres all fault, and words that yield nothing. -/

theorem okOuts_bad (act : List Nat) (e : FaultInfo) : okOuts (act.map (fun j => (j, .bad e))) = [] := by
  rw [okOuts, List.filterMap_map]
  exact List.filterMap_eq_nil_iff.2 fun _ _ => rfl

theorem badOuts_bad (act : List Nat) (e : FaultInfo) : badOuts (act.map (fun j => (j, .bad e))) = act.map (fun j => (j, e)) := by
  rw [badOuts, List.filterMap_map]
  exact congrFun (List.filterMap_eq_map' (f := fun j => (j, e))) act

/-- A word at which every fibre faults alike. -/
theorem finishWord_bad (s : State) (a : At) (act : List Nat) (k : FKind) : finishWord s a (act.map (fun j => (j, .bad (fault k)))) = faultAll s a act k := by
  rw [finishWord, okOuts_bad, badOuts_bad, stampPc, List.map_map]
  rfl

theorem eachFibre_bad (e : FaultInfo) (s : State) : ∀ act : List Nat, eachFibre (fun _ s => (s, .bad e)) act s = (s, act.map (fun j => (j, .bad e)))
  | [] => rfl
  | i :: act => by rw [eachFibre, eachFibre_bad e s act]; rfl

/-- One fibre that changes its crew and yields nothing goes on. -/
theorem finishWord_noRes {s : State} {a : At} (hm : a.b.mask ≠ 0#32) (i : Nat) (F : Crew → Crew) :
    Onward (updCrew s a.ref F) (finishWord (updCrew s a.ref F) a [(i, .ok noRes)]) a := by
  have same : ∀ x : W64, x ||| BitVec.ofNat 64 (0 % 2 ^ 11) = x := fun x => BitVec.or_zero
  have ends : finishWord (updCrew s a.ref F) a [(i, .ok noRes)] = updCrew (updCrew s a.ref F) a.ref (fun c => advance s.cycle c a.bi) := by
    show finishFaults (orStat (updCrew s a.ref F) a.ref 0) a [] [] = _
    rw [finishFaults_none _ _ _ hm, orStat]
    simp only [updCrew_updCrew, same, updCrew_cycle]
  rw [ends, ← updCrew_cycle s a.ref F]
  exact onward_advance _ a

/-! LAUNCH. -/

theorem raiseFlag_eq (s : State) (r : CrewRef) (F : Crew → Crew) (fl : Option Nat) :
    raiseFlag (updCrew s r F) r fl = updCrew s r (fun c => raised fl (F c)) := by
  cases fl with
  | none => rfl
  | some x => exact updCrew_updCrew s r F _

/-- What LAUNCH does to its crew: the status register is reserved, the flag is raised, and the block waits for its decision. -/
def launchedCrew (f : ENG) (a : At) (block : List Byte) (c : Crew) : Crew :=
  { raised (flagOf f.fa.toNat) c with
    pend := c.pend ++ [{ dst := .g 0 f.st, val := none, ready := false }],
    launches := c.launches ++ [{ ctx := a.ctx, block := block, dest := .g 0 f.st, flag := flagOf f.fa.toNat }] }

theorem launchFor_passes {f : ENG} {s : State} {a : At} {n : Nat} (aligned : f.off.toNat % 16 = 0) (head : f.off.toNat + 0x50 ≤ padSize a.team)
    (hn : n = launchExtent (slice (padNat s a.ref.cl a.ref.ts (f.off.toNat + 0x48) 4) 0 4)) (fits : f.off.toNat + n ≤ padSize a.team)
    (good : launchBad (padBytes s a.ref.cl a.ref.ts f.off.toNat n) = false) :
    launchFor f a s = (updCrew s a.ref (launchedCrew f a (padBytes s a.ref.cl a.ref.ts f.off.toNat n)), .ok noRes) := by
  subst hn
  unfold launchFor
  simp only [aligned, Nat.not_lt.2 head, Nat.not_lt.2 fits, good, ne_eq, not_true_eq_false, Bool.false_eq_true, if_false, reserve, raiseFlag_eq,
    updCrew_updCrew]
  unfold launchedCrew
  cases flagOf f.fa.toNat <;> rfl

/-- Does slot 0 of crew 0 run the LAUNCH? -/
def launchMine (a : At) (act : List Nat) : Bool := a.ref.cr == 0 && act.contains 0

/-- What the fibres of a LAUNCH answer. -/
def launchOuts (f : ENG) (a : At) (act : List Nat) (s : State) : State × List (Nat × FOut) :=
  eachFibre (fun i s => if launchMine a act && i == 0 then launchFor f a s else (s, .bad (fault .illegal))) act s

theorem exec_launch {f : ENG} {s : State} {a : At} (pass : Passes s a (launchChecks f)) : exec (.launch f) s
    = .next (if launchMine a (active a f.gd) && flagFull a.crew (flagOf f.fa.toNat) then waitAt s a .flagFull false
      else if launchMine a (active a f.gd) && padReadBlocked a.team f.off.toNat 0xD0 then waitAt s a .padRange false
      else finishWord (launchOuts f a (active a f.gd) s).1 a (launchOuts f a (active a f.gd) s).2) := by
  show execLaunch f s = _
  exact issueWord_passes _ pass

theorem launch_kept {f : ENG} {s : State} {a : At} {n : Nat} (pass : Passes s a (launchChecks f)) (crew0 : a.ref.cr = 0) (one : active a f.gd = [0])
    (room : flagFull a.crew (flagOf f.fa.toNat) = false) (free : padReadBlocked a.team f.off.toNat 0xD0 = false) (aligned : f.off.toNat % 16 = 0)
    (head : f.off.toNat + 0x50 ≤ padSize a.team) (hn : n = launchExtent (slice (padNat s a.ref.cl a.ref.ts (f.off.toNat + 0x48) 4) 0 4))
    (fits : f.off.toNat + n ≤ padSize a.team) (good : launchBad (padBytes s a.ref.cl a.ref.ts f.off.toNat n) = false) :
    ∃ t, exec (.launch f) s = .next t ∧ Onward (updCrew s a.ref (launchedCrew f a (padBytes s a.ref.cl a.ref.ts f.off.toNat n))) t a := by
  have runs := launchFor_passes aligned head hn fits good
  refine ⟨_, exec_launch pass, ?_⟩
  have mine : launchMine a [0] = true := by simp [launchMine, crew0]
  simp only [one, mine, room, free, launchOuts, eachFibre, runs, beq_self_eq_true, Bool.and_false, Bool.and_self, Bool.false_eq_true, if_false, if_true]
  exact finishWord_noRes (mask_ne_zero_of_active pass.act) 0 _

theorem launch_illegal {f : ENG} {s : State} {a : At} (pass : Passes s a (launchChecks f)) (other : a.ref.cr ≠ 0 ∨ 0 ∉ active a f.gd) :
    exec (.launch f) s = .next (faultAll s a (active a f.gd) .illegal) := by
  have mine : launchMine a (active a f.gd) = false := by
    rcases other with h | h <;> simp [launchMine, h]
  rw [exec_launch pass]
  simp only [launchOuts, mine, Bool.false_and, Bool.false_eq_true, if_false, eachFibre_bad, finishWord_bad]

/-! LAUNCH_STATUS. -/

theorem gidsUsed_updCrew (s : State) (r : CrewRef) (F : Crew → Crew) (ctx : Nat) : gidsUsed (updCrew s r F) ctx = gidsUsed s ctx := by
  simp [gidsUsed, ctxOf]

theorem banks_updCrew (s : State) (r : CrewRef) (F : Crew → Crew) (x : Nat) : (clusterOf (updCrew s r F) x).banks = (clusterOf s x).banks := by
  by_cases h : x = r.cl
  · subst h
    have stands := congrArg Cluster.banks (clusterOf_updTeam s r.cl r.ts (fun t => { t with crews := modAt t.crews r.cr F }))
    exact stands
  · rw [updCrew, clusterOf_updTeam_other s _ _ h]

theorem wayCount_congr {c d : Cluster} (h : c.banks = d.banks) : wayCount c = wayCount d := by
  have banks : bankOf c = bankOf d := funext fun n => by rw [bankOf, bankOf, h]
  simp only [wayCount, banksIn, banks]

theorem launchShort_updCrew (s : State) (r : CrewRef) (F : Crew → Crew) (b : LaunchBlock) : launchShort (updCrew s r F) b = launchShort s b := by
  simp only [launchShort, wayCount_congr (banks_updCrew s r F _)]

theorem freeKey_lt {α : Type} {l : List (Nat × α)} {lo bound k : Nat} (h : freeKey l lo bound = some k) : k < bound := by
  have := List.find?_some h
  simp only [Bool.and_eq_true, decide_eq_true_eq] at this
  exact this.1

section
variable {s : State} {i : Issue} {t : Team} {c : Crew} {p : LaunchPend} {l : List LaunchPend} {g : Grid} (hi : s.issue = some i)
  (ht : teamOf s i.crew.cl i.crew.ts = some t) (hc : crewOf s i.crew = some c) (hl : c.launches = p :: l) (hg : gridOf s t.ctx t.gid = some g)

/-- The machine with the oldest undecided LAUNCH taken from its crew. -/
def decides (s : State) (r : CrewRef) (l : List LaunchPend) : State := updCrew s r (fun c => { c with launches := l })

include hi ht hc hl hg in
/-- LAUNCH_STATUS delivers the status `v`, and a refusal lets the flag fall. -/
theorem exec_launchStatus {u : State} {v : Nat}
    (x : (if g.killed then (decides s i.crew l, st 0x01 0) else launchDecide (decides s i.crew l) i.crew t c g p) = (u, v)) :
    exec .launchStatus s = .next (if v / 2 ^ 24 = 0 then deliver u i.crew (some p.dest) v
      else oweFall (deliver u i.crew (some p.dest) v) i.crew p.flag 0) := by
  have grid : gridOf (decides s i.crew l) t.ctx t.gid = some g := by rw [gridOf, decides, updCrew_grids]; exact hg
  show execLaunchStatus s = _
  unfold execLaunchStatus
  simp only [hi, ht, hc, hl]
  rw [← decides, grid]
  simp only [x]

include hi ht hc hl hg in
theorem launchStatus_refuses {v : Nat}
    (x : (if g.killed then (decides s i.crew l, st 0x01 0) else launchDecide (decides s i.crew l) i.crew t c g p) = (decides s i.crew l, v))
    (bad : v / 2 ^ 24 ≠ 0) : exec .launchStatus s = .next (oweFall (deliver (decides s i.crew l) i.crew (some p.dest) v) i.crew p.flag 0) := by
  rw [exec_launchStatus hi ht hc hl hg x, if_neg bad]

theorem launchDecide_deep (s : State) (r : CrewRef) (t : Team) (c : Crew) {g : Grid} (p : LaunchPend) (deep : 10 ≤ g.depth) :
    launchDecide s r t c g p = (s, 0x02000000) := by
  simp [launchDecide, deep, st]

/-- No token to lend, and no grid id or no room. -/
theorem launchDecide_short (s : State) (r : CrewRef) (t : Team) (c : Crew) {g : Grid} {p : LaunchPend} (shallow : g.depth < 10)
    (noTokens : (launchBlock p.block).toks = []) (short : freeKey (gidsUsed s p.ctx) 0 65536 = none ∨ launchShort s (launchBlock p.block) = true) :
    launchDecide s r t c g p = (s, 0x01000000) := by
  unfold launchDecide
  simp only [Nat.not_le.2 shallow, noTokens, launchTokens, if_false]
  cases gid : freeKey (gidsUsed s p.ctx) 0 65536 with
  | none => rfl
  | some n =>
    obtain short := short.resolve_left (by rw [gid]; exact Option.some_ne_none n)
    simp [short, st]

theorem launchDecide_makes (s : State) (r : CrewRef) (t : Team) (c : Crew) {g : Grid} {p : LaunchPend} {gid : Nat} (shallow : g.depth < 10)
    (noTokens : (launchBlock p.block).toks = []) (alone : (launchBlock p.block).coop = false) (free : freeKey (gidsUsed s p.ctx) 0 65536 = some gid)
    (room : launchShort s (launchBlock p.block) = false) :
    launchDecide s r t c g p = (placeAll (updGrid
      (releaseAt { s with grids := s.grids ++ [childGrid s (launchBlock p.block) p.ctx g t r p.flag gid] } r.cl 5) g.ctx g.gid
      (fun g => { g with children := g.children + 1 })) maxTeams, gid) := by
  have small : st 0 gid = gid := by
    have := freeKey_lt free
    simp only [st]
    omega
  unfold launchDecide
  simp [Nat.not_le.2 shallow, noTokens, launchTokens, free, alone, room, launchLends, small]

end

/-- Settles O24: the checks leave one path through LAUNCH, and one answer of `launchDecide` for each case. -/
theorem launchesAreDecided : Obligations.LaunchesAreDecided := by
  unfold Obligations.LaunchesAreDecided
  refine ⟨⟨fun f s a n pass crew0 one room free aligned head hn fits good => launch_kept pass crew0 one room free aligned head hn fits good,
    fun f s a pass other => launch_illegal pass other⟩, fun s i t c p l g hi ht hc hl hg => ⟨fun lives deep => ?deep, fun killed => ?killed,
    fun lives shallow noTokens short => ?short, fun gid lives shallow noTokens alone free room => ?makes⟩⟩
  case deep =>
    exact launchStatus_refuses hi ht hc hl hg (by rw [lives]; exact launchDecide_deep _ _ _ _ p deep) (by decide)
  case killed =>
    exact launchStatus_refuses hi ht hc hl hg (by rw [killed]; rfl) (by decide)
  case short =>
    have decided := launchDecide_short (decides s i.crew l) i.crew t c (g := g) shallow noTokens
      (by rwa [decides, gidsUsed_updCrew, launchShort_updCrew])
    exact launchStatus_refuses hi ht hc hl hg (by rw [lives]; exact decided) (by decide)
  case makes =>
    have decided := launchDecide_makes (decides s i.crew l) i.crew t c (g := g) shallow noTokens alone (gid := gid) (by rwa [decides, gidsUsed_updCrew])
      (by rwa [decides, launchShort_updCrew])
    have ok : gid / 2 ^ 24 = 0 := by
      have := freeKey_lt free
      omega
    refine ⟨_, childGrid (decides s i.crew l) (launchBlock p.block) p.ctx g t i.crew p.flag gid, ?_, rfl, rfl, rfl, rfl, rfl, rfl, rfl, rfl, rfl,
      rfl, rfl, rfl, rfl, BitVec.toNat_ofNat _ _, rfl⟩
    rw [exec_launchStatus hi ht hc hl hg ((if_neg (by simp [lives])).trans decided), if_pos ok, decides, updCrew_grids]

end Sys2Proof.Machine
end

section
/-! Finite maps under maps and filters, and the crews of a changed team. -/

namespace Sys2Proof.Machine

theorem look_map {α : Type} {f : Nat × α → Nat × α} (hf : ∀ e, (f e).1 = e.1) (k : Nat) :
    ∀ l : List (Nat × α), look (l.map f) k = (look l k).map (fun v => (f (k, v)).2)
  | [] => rfl
  | (a, v) :: l => by
    have ih := look_map hf k l
    have key : f (a, v) = (a, (f (a, v)).2) := Prod.ext (hf (a, v)) rfl
    rw [List.map_cons, key]
    unfold look
    split
    · next h => rw [h]; rfl
    · exact ih

/-- What a filter keeps of the first entry of its key is found as before. -/
theorem look_filter_keeps {α : Type} {p : Nat × α → Bool} {k : Nat} {v : α} (hp : p (k, v) = true) :
    ∀ {l : List (Nat × α)}, look l k = some v → look (l.filter p) k = some v
  | [], h => by cases h
  | (a, u) :: l, h => by
    unfold look at h
    split at h
    · next e =>
      subst e
      cases h
      rw [List.filter_cons_of_pos hp]
      simp [look]
    · next e =>
      have ih := look_filter_keeps hp h
      by_cases kept : p (a, u) = true
      · rw [List.filter_cons_of_pos kept]
        simp [look, e, ih]
      · rwa [List.filter_cons_of_neg kept]

theorem crewOf_bind (s : State) (r : CrewRef) : crewOf s r = (teamOf s r.cl r.ts).bind (fun t => t.crews[r.cr]?) := by
  unfold crewOf
  cases teamOf s r.cl r.ts <;> rfl

theorem crewOf_updTeam (s : State) (x ts : Nat) (f : Team → Team) (r : CrewRef) : crewOf (updTeam s x ts f) r
    = if (r.cl, r.ts) = (x, ts) then (teamOf s x ts).bind (fun t => (f t).crews[r.cr]?) else crewOf s r := by
  by_cases h : (r.cl, r.ts) = (x, ts)
  · obtain ⟨rfl, rfl⟩ := Prod.mk.inj h
    rw [if_pos rfl, crewOf_bind, teamOf_updTeam, Option.bind_map]
    rfl
  · rw [if_neg h, crewOf_bind, crewOf_bind, teamOf_updTeam_other s f h]

/-! What keeps every team in its slot. -/

/-- Beside the clusters nothing changes, and every slot's team stays, of its grid. -/
structure KeepsTeams (s u : State) : Prop where
  only : OnlyClusters s u
  teams : ∀ x ts, (teamOf u x ts).map (fun t => (t.ctx, t.gid)) = (teamOf s x ts).map (fun t => (t.ctx, t.gid))

namespace KeepsTeams

theorem refl (s : State) : KeepsTeams s s := ⟨.refl s, fun _ _ => rfl⟩

theorem trans {s u v : State} (h : KeepsTeams s u) (g : KeepsTeams u v) : KeepsTeams s v :=
  ⟨h.only.trans g.only, fun x ts => (g.teams x ts).trans (h.teams x ts)⟩

theorem ops {s u : State} (h : KeepsTeams s u) : u.ops = s.ops := by
  have same := congrArg State.ops (show { u with clusters := s.clusters } = s from h.only)
  exact same

end KeepsTeams

theorem updTeam_keepsTeams (s : State) (x ts : Nat) {f : Team → Team} (hf : ∀ t, (f t).ctx = t.ctx ∧ (f t).gid = t.gid) :
    KeepsTeams s (updTeam s x ts f) := by
  refine ⟨updTeam_onlyClusters s x ts f, fun y us => ?_⟩
  by_cases h : (y, us) = (x, ts)
  · obtain ⟨rfl, rfl⟩ := Prod.mk.inj h
    rw [teamOf_updTeam, Option.map_map]
    exact congrArg (fun g => Option.map g _) (funext fun t => by simp [hf t])
  · rw [teamOf_updTeam_other s f h]

theorem updCrew_keepsTeams (s : State) (r : CrewRef) (f : Crew → Crew) : KeepsTeams s (updCrew s r f) :=
  updTeam_keepsTeams s r.cl r.ts fun _ => ⟨rfl, rfl⟩

theorem setG_keepsTeams (s : State) (r : CrewRef) (i n : Nat) (v : W32) : KeepsTeams s (setG s r i n v) := by
  unfold setG
  split
  · exact .refl s
  · refine ⟨rfl, fun x ts => ?_⟩
    by_cases h : x = r.cl
    · subst h
      simp [teamOf]
    · rw [teamOf, clusterOf_updCluster_other s _ h, teamOf]

theorem evState_keepsTeams (s : State) (r : CrewRef) (e : WordEv) : KeepsTeams s (evState r s e) := by
  cases e with
  | st b => exact updCrew_keepsTeams s r _
  | w i low x =>
    cases x with
    | g n v => exact setG_keepsTeams s r i n v
    | k n v =>
      cases low with
      | true => exact updCrew_keepsTeams s r _
      | false => exact .refl s
    | p n b => exact updCrew_keepsTeams s r _

theorem applyAll_keepsTeams (s : State) (r : CrewRef) (l : List (Nat × FRes)) : KeepsTeams s (applyAll s r l) := by
  rw [applyAll_eq]
  exact foldl_related .refl .trans (fun s e _ => evState_keepsTeams s r e) s

theorem releaseBar_keepsTeams (cycle : Nat) (p : Batch → Bool) (s : State) (r : CrewRef) (v : Nat) : KeepsTeams s (releaseBar cycle p s r v) := by
  unfold releaseBar
  split
  · exact .refl s
  · refine foldl_related .refl .trans (fun u pc _ => ?_) s
    split
    · exact .refl u
    · exact (applyAll_keepsTeams u r _).trans (updCrew_keepsTeams _ r _)

theorem abandon_keepsTeams (s : State) (r : CrewRef) (p : Batch → Bool) : KeepsTeams s (abandon s r p) := by
  unfold abandon
  split
  · exact .refl s
  · split
    · exact (releaseBar_keepsTeams _ p s r 1).trans (updCrew_keepsTeams _ r _)
    · exact .refl s

/-! What only adds to the falls that crews are owed. -/

/-- The grids stand, and every crew is owed what it was, and more perhaps. -/
structure Owes (s u : State) : Prop where
  grids : u.grids = s.grids
  falls : ∀ r c, crewOf s r = some c → ∃ c' m, crewOf u r = some c' ∧ c'.falls = c.falls ++ m

namespace Owes

theorem refl (s : State) : Owes s s := ⟨rfl, fun _ c h => ⟨c, [], h, (List.append_nil _).symm⟩⟩

theorem trans {s u v : State} (h : Owes s u) (g : Owes u v) : Owes s v := by
  refine ⟨g.grids.trans h.grids, fun r c hc => ?_⟩
  obtain ⟨c', m, hc', falls⟩ := h.falls r c hc
  obtain ⟨c'', m', hc'', falls'⟩ := g.falls r c' hc'
  exact ⟨c'', m ++ m', hc'', by rw [falls', falls, List.append_assoc]⟩

theorem of_outside {s u : State} (h : Outside s u) : Owes s u :=
  ⟨h.grids, fun r c hc => ⟨c, [], by rw [h.toCrewsStand.crewOf_eq, hc], (List.append_nil _).symm⟩⟩

end Owes

/-- Every crew of the team is owed what it was, and more perhaps. -/
def TeamOwes (t u : Team) : Prop := ∀ (j : Nat) (c : Crew), t.crews[j]? = some c → ∃ (c' : Crew) (m : List (Nat × Nat)),
  u.crews[j]? = some c' ∧ c'.falls = c.falls ++ m

theorem TeamOwes.refl (t : Team) : TeamOwes t t := fun _ c hc => ⟨c, [], hc, (List.append_nil _).symm⟩

theorem updTeam_owes (s : State) (x ts : Nat) {f : Team → Team} (hf : ∀ t, TeamOwes t (f t)) : Owes s (updTeam s x ts f) := by
  refine ⟨updTeam_grids s x ts f, fun r c hc => ?_⟩
  rw [crewOf_updTeam]
  split
  · next h =>
    obtain ⟨rfl, rfl⟩ := Prod.mk.inj h
    obtain ⟨t, ht, hc⟩ := crewOf_parts hc
    rw [ht]
    exact hf t r.cr c hc
  · exact ⟨c, [], hc, (List.append_nil _).symm⟩

theorem updCrew_owes (s : State) (r : CrewRef) {f : Crew → Crew} (hf : ∀ c, ∃ m, (f c).falls = c.falls ++ m) : Owes s (updCrew s r f) := by
  refine updTeam_owes s r.cl r.ts fun t j c hc => ?_
  by_cases h : j = r.cr
  · subst h
    obtain ⟨m, falls⟩ := hf c
    exact ⟨f c, m, by rw [modAt_get_same, hc]; rfl, falls⟩
  · exact ⟨c, [], by rw [modAt_get_other f t.crews r.cr h, hc], (List.append_nil _).symm⟩

theorem oweFall_owes (s : State) (r : CrewRef) (fl : Option Nat) (scope : Nat) : Owes s (oweFall s r fl scope) := by
  unfold oweFall
  split
  · exact .refl s
  · exact updCrew_owes s r fun _ => ⟨_, rfl⟩

/-! Tokens and shares that leave their holders (R181, R183, R262, R263). -/

theorem setToken_outside (s : State) (d i : Nat) (t : Token) : Outside s (setToken s d i t) := updDie_outside s d _

theorem delOwner_outside (s : State) (d i : Nat) : Outside s (delOwner s d i) := (updDie_outside s d _).trans (.of_clusters rfl rfl rfl rfl)

theorem endRecalls_owes (s : State) (d i : Nat) : Owes s (endRecalls s d i) := by
  unfold endRecalls
  split
  · exact .refl s
  · split
    · exact .refl s
    · exact (Owes.of_outside (setToken_outside s d i _)).trans (foldl_related .refl .trans (fun u r _ => oweFall_owes u _ _ _) _)

theorem dropShare_owes (s : State) (d j : Nat) (h : Share) : Owes s (dropShare s d j h) := by
  unfold dropShare
  split
  · exact .of_outside (delOwner_outside s d j)
  · next t _ =>
    refine Owes.trans (.of_outside ?_) (endRecalls_owes _ d h.tok)
    exact (((giveSide_outside s t _ _ _ _).trans (delOwner_outside _ d j)).trans (setToken_outside _ d h.tok _)).trans (takeSide_outside _ _ _ _ _ _)

/-- A token that passes from its giver to its receiver, with the recalls that end. -/
theorem handOver_owes (s : State) (t k : Token) (giver receiver : W64) (a n ctx d i : Nat) :
    Owes s (endRecalls (takeSide (setToken (giveSide s t giver receiver a n) d i k) ctx giver receiver a n) d i) :=
  Owes.trans (.of_outside (((giveSide_outside s t _ _ _ _).trans (setToken_outside _ d i k)).trans (takeSide_outside _ _ _ _ _ _)))
    (endRecalls_owes _ d i)

theorem giveBack_owes (s : State) (d i : Nat) (t : Token) : Owes s (giveBack s d i t) := by
  unfold giveBack
  split
  · exact .refl s
  · dsimp only
    split
    · exact .of_outside (((giveSide_outside s t _ _ _ _).trans (delOwner_outside _ d i)).trans (request_outside _ _ _))
    · exact handOver_owes s t _ _ _ _ _ _ d i

theorem orphanToken_outside (s : State) (d i : Nat) (t : Token) (cause cl dev : Nat) : Outside s (orphanToken s d i t cause cl dev) :=
  (setToken_outside s d i _).trans (.of_clusters rfl rfl rfl rfl)

theorem exitToken_owes (mine : List W64) (g : W64) (d i : Nat) (s : State) : Owes s (exitToken mine g d i s) := by
  unfold exitToken
  split
  · exact .refl s
  · next t _ =>
    dsimp only
    split
    · exact handOver_owes s t _ _ _ _ _ _ d i
    · exact .of_outside (setToken_outside s d i _)

theorem passEntries_owes (s : State) (ctx gid : Nat) (mine : List W64) : Owes s (passEntries s ctx gid mine) := by
  unfold passEntries
  refine Owes.trans (foldl_related .refl .trans (fun u e _ => dropShare_owes u _ _ _) s) (foldl_related .refl .trans (fun u e _ => ?_) _)
  split
  · exact exitToken_owes _ _ _ _ u
  · exact .refl u

theorem releaseGrid_owes (s : State) (ctx gid : Nat) : Owes s (releaseGrid s ctx gid) := by
  unfold releaseGrid
  refine Owes.trans (foldl_related .refl .trans (fun u e _ => dropShare_owes u _ _ _) s) (foldl_related .refl .trans (fun u e _ => ?_) _)
  split
  · exact .of_outside (orphanToken_outside u _ _ _ _ _ _)
  · exact giveBack_owes u _ _ _

end Sys2Proof.Machine
end

section
/-! Bank release and team exit (R261, R262). -/

namespace Sys2Proof.Machine

/-! Banks that are freed. -/

theorem cRead_filter {w : Nat} (q : Nat → Bool) (j : Nat) : ∀ c : Cells w, cRead (c.filter (fun e => q e.1)) j = if q j then cRead c j else 0#w
  | [] => by simp
  | (a, v) :: c => by
    have ih := cRead_filter q j c
    by_cases h : a = j
    · subst h
      by_cases keep : q a = true
      · simp [List.filter, keep, cRead]
      · simp [List.filter, keep, ih]
    · by_cases keep : q a = true
      · simp [List.filter, keep, cRead, h, ih]
      · simp [List.filter, keep, cRead, h, ih]

theorem cRead_cClear_inside {w : Nat} (c : Cells w) {k n o : Nat} (h : o < n) : cRead (cClear c k n) (k + o) = 0#w := by
  rw [cClear, cRead_filter (fun a => decide (a < k) || decide (k + n ≤ a))]
  simp [Nat.not_le.2 h]

theorem cRead_cClear_zero {w : Nat} {c : Cells w} {j : Nat} (k n : Nat) (h : cRead c j = 0#w) : cRead (cClear c k n) j = 0#w := by
  rw [cClear, cRead_filter (fun a => decide (a < k) || decide (k + n ≤ a)), h, ite_self]

/-- The bank is OFF and its bytes are zero. -/
def BankFreed (b : Nat) (c : Cluster) : Prop := (bankOf c b).mode = .off ∧ ∀ o < 1024, cRead c.sram (b * 1024 + o) = 0#8

/-- One bank is freed. -/
def freeBank (c : Cluster) (b : Nat) : Cluster := zeroBank (setBank c b { mode := .off, owner := 0, bound := none, slots := [] }) b

theorem freeBank_freed (c : Cluster) (b : Nat) : BankFreed b (freeBank c b) :=
  ⟨by simp [freeBank, zeroBank, setBank, bankOf], fun _ h => cRead_cClear_inside _ h⟩

theorem freeBank_keeps {b : Nat} {c : Cluster} (b' : Nat) (h : BankFreed b c) : BankFreed b (freeBank c b') := by
  obtain ⟨off, zero⟩ := h
  by_cases e : b = b'
  · subst e
    exact freeBank_freed c b
  · refine ⟨?_, fun o ho => cRead_cClear_zero _ _ (zero o ho)⟩
    rw [← off]
    simp [freeBank, zeroBank, setBank, bankOf, look_put_other _ e]

theorem foldl_freeBank_freed {l : List Nat} {b : Nat} (hb : b ∈ l) (c : Cluster) : BankFreed b (l.foldl freeBank c) := by
  obtain ⟨before, after, rfl⟩ := List.append_of_mem hb
  rw [List.foldl_append, List.foldl_cons]
  exact foldl_keeps (P := BankFreed b) (fun _ b' h => freeBank_keeps b' h) after _ (freeBank_freed _ b)

theorem foldl_freeBank_teams : ∀ (l : List Nat) (c : Cluster), (l.foldl freeBank c).teams = c.teams
  | [], _ => rfl
  | b :: l, c => foldl_freeBank_teams l (freeBank c b)

/-- The PAD and FIFO banks of a team slot. -/
def teamBanks (c : Cluster) (ts : Nat) : List Nat := (banksIn c .pad ++ banksIn c .fifo).filter (fun b => (bankOf c b).owner == ts)

theorem mem_teamBanks {c : Cluster} {ts b : Nat} (hb : b < 384) (owned : (bankOf c b).owner = ts)
    (mode : (bankOf c b).mode = .pad ∨ (bankOf c b).mode = .fifo) : b ∈ teamBanks c ts := by
  refine List.mem_filter.2 ⟨List.mem_append.2 ?_, by simp [owned]⟩
  exact mode.imp (fun h => List.mem_filter.2 ⟨List.mem_range.2 hb, by simp [h]⟩) (fun h => List.mem_filter.2 ⟨List.mem_range.2 hb, by simp [h]⟩)

/-- An operation whose team's banks are freed writes no more to its PAD. -/
def blockGoes (x ts : Nat) (o : EngOp) : EngOp :=
  if o.detached && !o.orphaned && o.crew.cl == x && o.crew.ts == ts then { o with blockGone := true } else o

/-- The machine with a team's banks freed, but for the team's own record. -/
def banksFreed (s : State) (x ts : Nat) : State :=
  { updCluster s x (fun c => (teamBanks (clusterOf s x) ts).foldl freeBank c) with
    ops := s.ops.map (fun o => if o.2.detached && !o.2.orphaned && o.2.crew.cl == x && o.2.crew.ts == ts then (o.1, { o.2 with blockGone := true }) else o) }

theorem freeTeamBanks_eq (s : State) (x ts : Nat) :
    freeTeamBanks s x ts = updTeam (banksFreed s x ts) x ts (fun t => { t with banks := [], ranges := [], banksDone := true }) := rfl

theorem clusterOf_banksFreed (s : State) (x ts : Nat) :
    clusterOf (banksFreed s x ts) x = (teamBanks (clusterOf s x) ts).foldl freeBank (clusterOf s x) :=
  clusterOf_updCluster s x (fun c => (teamBanks (clusterOf s x) ts).foldl freeBank c)

theorem bankRelease {s : State} {x ts : Nat} {t : Team} (ht : teamOf s x ts = some t) (due : bankReleaseDue s t = true) :
    ∃ u, exec (.teamBankRelease x ts) s = .next u ∧ teamOf u x ts = some { t with banks := [], ranges := [], banksDone := true }
      ∧ (∀ b < 384, (bankOf (clusterOf s x) b).owner = ts →
          ((bankOf (clusterOf s x) b).mode = .pad ∨ (bankOf (clusterOf s x) b).mode = .fifo) →
          (bankOf (clusterOf u x) b).mode = .off ∧ ∀ o < 1024, cRead (clusterOf u x).sram (b * 1024 + o) = 0#8)
      ∧ (∀ n o, opOf s n = some o → opOf u n = some (blockGoes x ts o)) := by
  refine ⟨freeTeamBanks s x ts, ?_, ?_, fun b hb owned mode => ?_, fun n o ho => ?_⟩
  · show execTeamBankRelease x ts s = _
    simp [execTeamBankRelease, ht, due]
  · have team : teamOf (banksFreed s x ts) x ts = some t := by
      rw [teamOf, clusterOf_banksFreed, foldl_freeBank_teams]
      exact ht
    rw [freeTeamBanks_eq, teamOf_updTeam, team]
    rfl
  · obtain ⟨off, zero⟩ := foldl_freeBank_freed (mem_teamBanks hb owned mode) (clusterOf s x)
    have beside := clusterOf_updTeam (banksFreed s x ts) x ts (fun t => { t with banks := [], ranges := [], banksDone := true })
    rw [← freeTeamBanks_eq] at beside
    have banks : (clusterOf (freeTeamBanks s x ts) x).banks = (clusterOf (banksFreed s x ts) x).banks := by have := congrArg Cluster.banks beside; exact this
    have sram : (clusterOf (freeTeamBanks s x ts) x).sram = (clusterOf (banksFreed s x ts) x).sram := by have := congrArg Cluster.sram beside; exact this
    rw [bankOf, banks, sram, clusterOf_banksFreed]
    exact ⟨off, zero⟩
  · have ops : (freeTeamBanks s x ts).ops = (banksFreed s x ts).ops := updTeam_ops _ x ts _
    rw [opOf, ops, banksFreed, look_map (fun e => by split <;> rfl), show look s.ops n = some o from ho, Option.map_some, blockGoes]
    split <;> rfl

/-! Team exit. -/

/-- The exit of a team up to its entry in the directory: steps 2 to 6 of R262. -/
def teamGoes (s : State) (x ts : Nat) (t : Team) : State :=
  let mine := teamIds x ts t
  let log := killLogOf s x ts t
  let s := unlockTeam s x ts
  let s := (List.range t.crews.length).foldl (fun s i => (List.range 16).foldl (fun s id =>
    abandon s { cl := x, ts := ts, cr := i } (atBar id)) s) s
  let s := updTeam s x ts (fun t => { t with bars := [] })
  let s := if (clusterOf s x).fenced then s else passEntries s t.ctx t.gid mine
  let s := if t.banksDone then s else freeTeamBanks s x ts
  let s := if t.killed then emit s log else s
  forgetTeam s x ts

/-- The slot is empty, and the grid has one unfinished team less. -/
def slotGoes (s : State) (x ts : Nat) (t : Team) : State :=
  let s := updCluster s x (fun c => { c with teams := del c.teams ts })
  let s := { s with ctxs := s.ctxs.map (fun k =>
    (k.1, { k.2 with retired := k.2.retired.filter (fun e => e.2.1 != teamHolder t.ctx t.gid x ts) })) }
  updGrid s t.ctx t.gid (fun g => { g with unfinished := g.unfinished - 1 })

/-- Has the team's grid unfinished teams, and is it not killed? -/
def gridGoesOn (s : State) (t : Team) : Bool := match gridOf s t.ctx t.gid with | some g => decide (0 < g.unfinished) && !g.killed | none => false

theorem exitTeam_eq (s : State) (x ts : Nat) (t : Team) : exitTeam s x ts t
    = (let w := writeDirectory (teamGoes s x ts t) x ts t false
       let u := slotGoes w.1 x ts t
       if w.2.isNone then u
       else if gridGoesOn u t then directoryKill u x ts t false
       else emit u (.directory t.ctx t.gid (directoryEntry t false))) := rfl

theorem freeTeamBanks_grids (s : State) (x ts : Nat) : (freeTeamBanks s x ts).grids = s.grids := by
  rw [freeTeamBanks_eq, updTeam_grids]
  rfl

theorem dropWaiters_grids (s : State) (p : Waiter → Bool) : (dropWaiters s p).grids = s.grids := by
  show (List.foldl _ s _).grids = _
  refine (Outside.foldl (fun u w => ?_) s).grids
  split
  · exact .refl u
  · exact vaPut_outside u _ _ _ _ _

theorem forgetTeam_grids (s : State) (x ts : Nat) : (forgetTeam s x ts).grids = s.grids := by
  unfold forgetTeam
  exact dropWaiters_grids _ _

theorem abandonAll_keepsTeams (s : State) (x ts : Nat) (l m : List Nat) : KeepsTeams s (l.foldl (fun s i => m.foldl (fun s id =>
    abandon s { cl := x, ts := ts, cr := i } (atBar id)) s) s) :=
  foldl_related .refl .trans (fun u _ _ => foldl_related .refl .trans (fun v _ _ => abandon_keepsTeams v _ _) u) s

theorem teamGoes_grids (s : State) (x ts : Nat) (t : Team) : (teamGoes s x ts t).grids = s.grids := by
  have bars := (abandonAll_keepsTeams (unlockTeam s x ts) x ts (List.range t.crews.length) (List.range 16)).only.grids
  unfold teamGoes
  simp only [forgetTeam_grids, apply_ite State.grids, emit_grids, freeTeamBanks_grids, (passEntries_owes _ _ _ _).grids, updTeam_grids, ite_self, bars]
  rfl

theorem teamOf_slotGoes (s : State) (x ts : Nat) (t : Team) : teamOf (slotGoes s x ts t) x ts = none := by
  show look (clusterOf (updCluster s x (fun c => { c with teams := del c.teams ts })) x).teams ts = none
  rw [clusterOf_updCluster]
  exact look_del_same ts _

theorem gridOf_slotGoes {s : State} {t : Team} {g : Grid} (hg : gridOf s t.ctx t.gid = some g) (x ts : Nat) :
    gridOf (slotGoes s x ts t) t.ctx t.gid = some { g with unfinished := g.unfinished - 1 } :=
  gridOf_updGrid (s := { updCluster s x (fun c => { c with teams := del c.teams ts }) with ctxs := s.ctxs.map (fun k =>
    (k.1, { k.2 with retired := k.2.retired.filter (fun e => e.2.1 != teamHolder t.ctx t.gid x ts) })) })
    hg (f := fun g => { g with unfinished := g.unfinished - 1 }) fun _ => ⟨rfl, rfl⟩

/-- A kill keeps every grid but for the mark. -/
theorem gridOf_killTree {s : State} {ctx gid : Nat} {g : Grid} (hg : gridOf s ctx gid = some g) (c d : Nat) :
    gridOf (killTree s c d) ctx gid = some { g with killed := descends s c d 11 g || g.killed } := by
  have names : ∀ g : Grid, (if descends s c d 11 g then { g with killed := true } else g).ctx = g.ctx
      ∧ (if descends s c d 11 g then { g with killed := true } else g).gid = g.gid := fun g => by split <;> exact ⟨rfl, rfl⟩
  refine (find?_map_grid names ctx gid s.grids).trans ?_
  rw [show s.grids.find? _ = some g from hg, Option.map_some]
  cases descends s c d 11 g <;> rfl

theorem directoryKill_keeps {s : State} {x ts : Nat} {t : Team} {g : Grid} (gone : teamOf s x ts = none) (hg : gridOf s t.ctx t.gid = some g) (here : Bool) :
    teamOf (directoryKill s x ts t here) x ts = none ∧ ∃ k, gridOf (directoryKill s x ts t here) t.ctx t.gid = some { g with killed := k } := by
  have found : gridOf (emit s (.directory t.ctx t.gid (directoryEntry t here))) t.ctx t.gid = some g := hg
  have empty : teamOf (emit s (.directory t.ctx t.gid (directoryEntry t here))) x ts = none := gone
  unfold directoryKill
  simp only [found]
  split
  · rw [updTeam_none empty]
    exact ⟨empty, g.killed, found⟩
  · exact ⟨gone, _, gridOf_killTree found _ _⟩

theorem teamExit {s : State} {x ts : Nat} {t : Team} {g : Grid} (ht : teamOf s x ts = some t) (due : exitDue s x ts t = true)
    (hg : gridOf s t.ctx t.gid = some g) :
    ∃ u h, exec (.teamExit x ts) s = .next u ∧ teamOf u x ts = none ∧ gridOf u t.ctx t.gid = some h ∧ h.unfinished = g.unfinished - 1 := by
  have runs : exec (.teamExit x ts) s = .next (exitTeam s x ts t) := by
    show execTeamExit x ts s = _
    simp [execTeamExit, ht, due]
  let w := writeDirectory (teamGoes s x ts t) x ts t false
  have written : gridOf w.1 t.ctx t.gid = some g := by
    have same : w.1.grids = s.grids := (writeHome_outside _ _ _ _ _).grids.trans (teamGoes_grids s x ts t)
    rw [gridOf, same]
    exact hg
  have empty := teamOf_slotGoes w.1 x ts t
  have less := gridOf_slotGoes written x ts
  rw [runs, exitTeam_eq]
  dsimp only
  split
  · exact ⟨_, _, rfl, empty, less, rfl⟩
  · split
    · obtain ⟨gone, k, found⟩ := directoryKill_keeps empty less false
      exact ⟨_, _, rfl, gone, found, rfl⟩
    · exact ⟨_, _, rfl, empty, less, rfl⟩

end Sys2Proof.Machine
end

section
/-! Grid retirement and kill (R135, R139, R263). -/

namespace Sys2Proof.Machine

/-! Retirement. -/

/-- The release and the return of the grid's entries. -/
def gridReturns (s : State) (ctx gid : Nat) (g : Grid) : State :=
  releaseGrid ((s.clusters.filter (fun c => g.cmask.getLsbD c.1)).foldl (fun s c => releaseAt s c.1 7) s) ctx gid

/-- The grid is gone. -/
def gridGone (s : State) (ctx gid : Nat) : State := { s with grids := s.grids.filter (fun x => !(x.ctx == ctx && x.gid == gid)) }

/-- The grid's parent has one child less. -/
def childGone (s : State) (g : Grid) : State :=
  match g.parent with
  | some p => updGrid s p.1 p.2 (fun x => { x with children := x.children - 1 })
  | none => s

/-- The grid returns what it holds and is gone. -/
def gridLeaves (s : State) (ctx gid : Nat) (g : Grid) : State := childGone (gridGone (gridReturns s ctx gid g) ctx gid) g

/-- The launching crew learns of it, and its flag falls. -/
def launcherLearns (s : State) (ctx gid : Nat) (g : Grid) : State :=
  match g.launcher with
  | none => s
  | some l =>
    oweFall (learnChild (updCtx s ctx (fun k => { k with retired := k.retired ++ [(gid, l.team, g.killed)] })) ctx gid l (bNat g.killed))
      l.crew l.flag 7

theorem exec_gridRetire {s : State} {ctx gid : Nat} {g : Grid} (hg : gridOf s ctx gid = some g) (done : g.unfinished = 0) (acked : unacked s = false) :
    exec (.gridRetire ctx gid) s = .next (launcherLearns (gridLeaves s ctx gid g) ctx gid g) := by
  have due : retireDue s g = true := by simp [retireDue, done, acked]
  show execGridRetire ctx gid s = _
  unfold execGridRetire launcherLearns
  simp only [hg, due, Bool.not_true, Bool.false_eq_true, if_false]
  cases g.launcher <;> rfl

theorem gridReturns_owes (s : State) (ctx gid : Nat) (g : Grid) : Owes s (gridReturns s ctx gid g) :=
  (Owes.of_outside (Outside.foldl (fun u _ => releaseAt_outside u _ _) s)).trans (releaseGrid_owes _ ctx gid)

theorem gridOf_gridGone (s : State) (ctx gid : Nat) : gridOf (gridGone s ctx gid) ctx gid = none :=
  List.find?_eq_none.2 fun g hg => by
    have gone := (List.mem_filter.1 hg).2
    simpa [-not_and, Decidable.not_and_iff_not_or_not] using gone

theorem gridOf_gridGone_other (s : State) {ctx gid c d : Nat} (h : (c, d) ≠ (ctx, gid)) : gridOf (gridGone s ctx gid) c d = gridOf s c d := by
  show (s.grids.filter _).find? _ = _
  rw [List.find?_filter, gridOf]
  refine congrArg (fun p => s.grids.find? p) (funext fun g => ?_)
  by_cases same : g.ctx = c ∧ g.gid = d
  · obtain ⟨rfl, rfl⟩ := same
    have other : (g.ctx == ctx && g.gid == gid) = false := Bool.eq_false_iff.2 fun e => h (by
      simp only [Bool.and_eq_true, beq_iff_eq] at e
      rw [e.1, e.2])
    simp [other]
  · have : (g.ctx == c && g.gid == d) = false := by simpa using same
    simp [this]

theorem crewOf_childGone (s : State) (g : Grid) (r : CrewRef) : crewOf (childGone s g) r = crewOf s r := by
  unfold childGone
  split <;> rfl

theorem gridOf_childGone_none {s : State} {ctx gid : Nat} (h : gridOf s ctx gid = none) (g : Grid) : gridOf (childGone s g) ctx gid = none := by
  unfold childGone
  split
  · refine (find?_map_grid (fun g => by split <;> exact ⟨rfl, rfl⟩) ctx gid s.grids).trans ?_
    rw [show s.grids.find? _ = none from h]
    rfl
  · exact h

theorem gridOf_childGone {s : State} {g h : Grid} {p : Nat × Nat} (hp : g.parent = some p) (hg : gridOf s p.1 p.2 = some h) :
    gridOf (childGone s g) p.1 p.2 = some { h with children := h.children - 1 } := by
  unfold childGone
  simp only [hp]
  exact gridOf_updGrid hg fun _ => ⟨rfl, rfl⟩

/-- A crew whose LWAITs learn of a child's end. -/
def learnedCrew (ctx gid v : Nat) (c : Crew) : Crew := if c.ctx = ctx then { c with batches := c.batches.map (lwaitLearn gid v) } else c

theorem learnedCrew_falls (ctx gid v : Nat) (c : Crew) : (learnedCrew ctx gid v c).falls = c.falls ++ [] := by
  unfold learnedCrew
  split <;> exact (List.append_nil _).symm

/-- A team that changes under a condition only owes more where its change owes more. -/
theorem updTeam_ite_owes (s : State) (x ts : Nat) {p : Team → Prop} [DecidablePred p] {f : Team → Team}
    (hf : ∀ t, TeamOwes t (f t)) : Owes s (updTeam s x ts (fun t => if p t then f t else t)) := by
  refine updTeam_owes s x ts fun t => ?_
  by_cases h : p t
  · rw [if_pos h]
    exact hf t
  · rw [if_neg h]
    exact .refl t

theorem learnChild_owes (s : State) (ctx gid : Nat) (l : Launcher) (v : Nat) : Owes s (learnChild s ctx gid l v) := by
  refine updTeam_ite_owes s l.crew.cl l.crew.ts (f := fun t => { t with crews := t.crews.map (learnedCrew ctx gid v) }) fun t j c hc => ?_
  refine ⟨learnedCrew ctx gid v c, [], ?_, learnedCrew_falls ctx gid v c⟩
  rw [List.getElem?_map, hc, Option.map_some]

theorem launcherLearns_owes (s : State) (ctx gid : Nat) (g : Grid) : Owes s (launcherLearns s ctx gid g) := by
  unfold launcherLearns
  split
  · exact .refl s
  · exact ((Owes.of_outside (updCtx_outside s ctx _)).trans (learnChild_owes _ ctx gid _ _)).trans (oweFall_owes _ _ _ _)

/-- The launching crew is owed the fall of its flag after whatever else. -/
theorem launcherLearns_falls {s : State} {ctx gid : Nat} {g : Grid} {l : Launcher} {fl : Nat} {c : Crew} (hl : g.launcher = some l) (hf : l.flag = some fl)
    (hc : crewOf s l.crew = some c) : ∃ c' m, crewOf (launcherLearns s ctx gid g) l.crew = some c' ∧ c'.falls = c.falls ++ m ++ [(fl, 7)] := by
  have learns := (Owes.of_outside (updCtx_outside s ctx (fun k => { k with retired := k.retired ++ [(gid, l.team, g.killed)] }))).trans
    (learnChild_owes _ ctx gid l (bNat g.killed))
  obtain ⟨c', m, hc', falls⟩ := learns.falls l.crew c hc
  obtain ⟨t, ht, hc'⟩ := crewOf_parts hc'
  refine ⟨{ c' with falls := c'.falls ++ [(fl, 7)] }, m, ?_, by rw [falls]⟩
  unfold launcherLearns
  simp only [hl, hf, oweFall]
  exact crewOf_updCrew ht hc' _

theorem launcherLearns_grids (s : State) (ctx gid : Nat) (g : Grid) (c d : Nat) : gridOf (launcherLearns s ctx gid g) c d = gridOf s c d := by
  rw [gridOf, (launcherLearns_owes s ctx gid g).grids, gridOf]

theorem gridRetire {s : State} {ctx gid : Nat} {g : Grid} (hg : gridOf s ctx gid = some g) (done : g.unfinished = 0) (acked : unacked s = false) :
    ∃ u, exec (.gridRetire ctx gid) s = .next u ∧ gridOf u ctx gid = none
      ∧ (∀ p h, g.parent = some p → p ≠ (ctx, gid) → gridOf s p.1 p.2 = some h → gridOf u p.1 p.2 = some { h with children := h.children - 1 })
      ∧ (∀ l fl c, g.launcher = some l → l.flag = some fl → crewOf s l.crew = some c →
          ∃ c' m, crewOf u l.crew = some c' ∧ c'.falls = c.falls ++ m ++ [(fl, 7)]) := by
  have returns := gridReturns_owes s ctx gid g
  refine ⟨_, exec_gridRetire hg done acked, ?_, fun p h hp other hh => ?_, fun l fl c hl hf hc => ?_⟩
  · rw [launcherLearns_grids]
    exact gridOf_childGone_none (gridOf_gridGone _ ctx gid) g
  · rw [launcherLearns_grids]
    refine gridOf_childGone hp ?_
    rw [gridOf_gridGone_other _ other, gridOf, returns.grids]
    exact hh
  · obtain ⟨c1, m1, hc1, falls1⟩ := returns.falls l.crew c hc
    have here : crewOf (gridLeaves s ctx gid g) l.crew = some c1 := (crewOf_childGone _ g l.crew).trans hc1
    obtain ⟨c2, m2, hc2, falls2⟩ := launcherLearns_falls (ctx := ctx) (gid := gid) hl hf here
    exact ⟨c2, m1 ++ m2, hc2, by rw [falls2, falls1, List.append_assoc c.falls]⟩

/-! Kill. -/

/-- The waiters of the grid's barrier are released. -/
def barrierAbandoned (l : List (Nat × Nat × Team)) (s : State) : State :=
  l.foldl (fun s t => (List.range t.2.2.crews.length).foldl (fun s i => abandon s { cl := t.1, ts := t.2.1, cr := i } atGbar) s) s

/-- The teams are killed. -/
def teamsKilled (l : List (Nat × Nat × Team)) (s : State) : State := l.foldl (fun s t => killTeam s t.1 t.2.1 t.2.2) s

theorem exec_gridKill {s : State} {ctx gid : Nat} {g : Grid} (hg : gridOf s ctx gid = some g) (killed : g.killed = true) :
    exec (.gridKill ctx gid) s = .next (updGrid (teamsKilled (teamsOf s ctx gid) (barrierAbandoned (teamsOf s ctx gid) s)) ctx gid
      (fun g => { g with nextTeam := g.teams, unfinished := g.unfinished - (g.teams - g.nextTeam) })) := by
  show execGridKill ctx gid s = _
  unfold execGridKill
  simp only [hg, killed, Bool.not_true, Bool.false_eq_true, if_false]
  rfl

theorem barrierAbandoned_keepsTeams (l : List (Nat × Nat × Team)) (s : State) : KeepsTeams s (barrierAbandoned l s) :=
  foldl_related .refl .trans (fun u _ _ => foldl_related .refl .trans (fun v _ _ => abandon_keepsTeams v _ _) u) s

/-- The operations after the kill of a team: what it holds goes, what is ATTACHED aborts, what was saved is queued. -/
def opsKilled (s : State) (x ts : Nat) (t : Team) : State :=
  { s with ops := (s.ops.filter (fun o => !(opOfTeam x ts t o.2 && decide (o.2.phase = .held)))).map (fun o =>
    if opOfTeam x ts t o.2 && !o.2.detached then (o.1, { o.2 with halt := if o.2.halt = 0 then 0x36 else o.2.halt })
    else if opOfTeam x ts t o.2 && decide (o.2.phase = .saved) then (o.1, { o.2 with phase := .queued }) else o) }

/-- The team is marked killed. -/
def markKilled (t : Team) : Team := { t with killed := true }

theorem killTeam_eq (s : State) (x ts : Nat) (t : Team) : killTeam s x ts t = updTeam (opsKilled s x ts t) x ts markKilled := rfl

theorem killTeam_grids (s : State) (x ts : Nat) (t : Team) : (killTeam s x ts t).grids = s.grids := by
  rw [killTeam_eq, updTeam_grids]
  rfl

theorem teamsKilled_grids (l : List (Nat × Nat × Team)) (s : State) : (teamsKilled l s).grids = s.grids :=
  foldl_keeps (P := fun u : State => u.grids = s.grids) (fun u _ h => (killTeam_grids u _ _ _).trans h) l s rfl

/-- A kill leaves every team in its slot, of its grid. -/
theorem killTeam_teams (s : State) (x ts : Nat) (t : Team) (y us : Nat) :
    (teamOf (killTeam s x ts t) y us).map (fun t => (t.ctx, t.gid)) = (teamOf s y us).map (fun t => (t.ctx, t.gid)) := by
  rw [killTeam_eq, (updTeam_keepsTeams _ x ts (f := markKilled) (fun _ => ⟨rfl, rfl⟩)).teams]
  rfl

theorem teamsKilled_teams (l : List (Nat × Nat × Team)) (s : State) (y us : Nat) :
    (teamOf (teamsKilled l s) y us).map (fun t => (t.ctx, t.gid)) = (teamOf s y us).map (fun t => (t.ctx, t.gid)) :=
  foldl_keeps (P := fun u : State => (teamOf u y us).map (fun t => (t.ctx, t.gid)) = (teamOf s y us).map (fun t => (t.ctx, t.gid)))
    (fun u _ h => (killTeam_teams u _ _ _ y us).trans h) l s rfl

/-- The team in the slot, if any, is killed. -/
def SlotKilled (x ts : Nat) (u : State) : Prop := ∀ t, teamOf u x ts = some t → t.killed = true

theorem killTeam_kills (s : State) (x ts : Nat) (t : Team) : SlotKilled x ts (killTeam s x ts t) := fun t' ht' => by
  rw [killTeam_eq, teamOf_updTeam] at ht'
  obtain ⟨t0, -, rfl⟩ := Option.map_eq_some_iff.1 ht'
  rfl

theorem killTeam_keeps {x ts : Nat} {s : State} (h : SlotKilled x ts s) (y us : Nat) (t : Team) : SlotKilled x ts (killTeam s y us t) := by
  by_cases key : (x, ts) = (y, us)
  · obtain ⟨rfl, rfl⟩ := Prod.mk.inj key
    exact killTeam_kills s x ts t
  · intro t' ht'
    rw [killTeam_eq, teamOf_updTeam_other _ _ key] at ht'
    exact h t' ht'

theorem teamsKilled_kills {x ts : Nat} {t : Team} {l : List (Nat × Nat × Team)} (hl : (x, ts, t) ∈ l) (s : State) : SlotKilled x ts (teamsKilled l s) := by
  obtain ⟨before, after, rfl⟩ := List.append_of_mem hl
  rw [teamsKilled, List.foldl_append, List.foldl_cons]
  exact foldl_keeps (P := SlotKilled x ts) (fun u e h => killTeam_keeps h _ _ _) after _ (killTeam_kills _ x ts t)

/-- An ATTACHED operation after the kill of its team. -/
def killedOp (o : EngOp) : EngOp := { o with halt := if o.halt = 0 then 0x36 else o.halt }

theorem killedOp_again (o : EngOp) : killedOp (killedOp o) = killedOp o := by
  unfold killedOp
  split
  · rfl
  · simp

theorem opOf_killTeam {s : State} {n : Nat} {o : EngOp} (ho : opOf s n = some o) (going : o.phase ≠ .held) (attached : o.detached = false)
    (x ts : Nat) (t : Team) : opOf (killTeam s x ts t) n = some (if opOfTeam x ts t o then killedOp o else o) := by
  have stays : (!(opOfTeam x ts t o && decide (o.phase = .held))) = true := by simp [going]
  rw [killTeam_eq, opOf, updTeam_ops, opsKilled, look_map (fun e => by split <;> [rfl; (split <;> rfl)]), look_filter_keeps stays ho, Option.map_some]
  cases opOfTeam x ts t o <;> simp [attached, killedOp]

/-- The operation runs on as it did, or its kill has halted it. -/
def RunsOrKilled (n : Nat) (o : EngOp) (u : State) : Prop := opOf u n = some o ∨ opOf u n = some (killedOp o)

section
variable {n : Nat} {o : EngOp} (going : o.phase ≠ .held) (attached : o.detached = false)

include going attached

theorem killTeam_killedOp {s : State} (h : opOf s n = some (killedOp o)) (x ts : Nat) (t : Team) : opOf (killTeam s x ts t) n = some (killedOp o) := by
  rw [opOf_killTeam h going attached, killedOp_again, ite_self]

theorem killTeam_runs {s : State} (h : RunsOrKilled n o s) (x ts : Nat) (t : Team) : RunsOrKilled n o (killTeam s x ts t) := by
  rcases h with h | h
  · unfold RunsOrKilled
    rw [opOf_killTeam h going attached]
    cases opOfTeam x ts t o
    · exact .inl rfl
    · exact .inr rfl
  · exact .inr (killTeam_killedOp going attached h x ts t)

theorem killTeam_stops {s : State} {x ts : Nat} {t : Team} (h : RunsOrKilled n o s) (mine : opOfTeam x ts t o = true) :
    opOf (killTeam s x ts t) n = some (killedOp o) := by
  rcases h with h | h
  · rw [opOf_killTeam h going attached, if_pos mine]
  · exact killTeam_killedOp going attached h x ts t

/-- The kill of its team halts an ATTACHED operation, and the other kills leave it so. -/
theorem teamsKilled_stops {s : State} {x ts : Nat} {t : Team} {l : List (Nat × Nat × Team)} (h : opOf s n = some o) (hl : (x, ts, t) ∈ l)
    (mine : opOfTeam x ts t o = true) : opOf (teamsKilled l s) n = some (killedOp o) := by
  obtain ⟨before, after, rfl⟩ := List.append_of_mem hl
  rw [teamsKilled, List.foldl_append, List.foldl_cons]
  have runs := foldl_keeps (P := RunsOrKilled n o) (fun u e hu => killTeam_runs going attached hu e.1 e.2.1 e.2.2) before s (.inl h)
  exact foldl_keeps (P := fun u => opOf u n = some (killedOp o)) (fun u e hu => killTeam_killedOp going attached hu e.1 e.2.1 e.2.2) after _
    (killTeam_stops going attached runs mine)

end

theorem gridKill {s : State} {ctx gid : Nat} {g : Grid} (hg : gridOf s ctx gid = some g) (killed : g.killed = true) :
    ∃ u, exec (.gridKill ctx gid) s = .next u
      ∧ gridOf u ctx gid = some { g with nextTeam := g.teams, unfinished := g.unfinished - (g.teams - g.nextTeam) }
      ∧ (∀ x ts t, teamOf u x ts = some t → t.ctx = ctx → t.gid = gid → t.killed = true)
      ∧ (∀ x ts t n o, teamOf s x ts = some t → t.ctx = ctx → t.gid = gid → opOf s n = some o → opOfTeam x ts t o = true → o.phase ≠ .held →
          o.detached = false → ∃ o', opOf u n = some o' ∧ o'.halt = if o.halt = 0 then 0x36 else o.halt) := by
  have abandoned := barrierAbandoned_keepsTeams (teamsOf s ctx gid) s
  refine ⟨_, exec_gridKill hg killed, ?_, fun x ts t ht hctx hgid => ?_, fun x ts t n o ht hctx hgid ho mine going attached => ⟨killedOp o, ?_, rfl⟩⟩
  · refine gridOf_updGrid (g := g) ?_ fun _ => ⟨rfl, rfl⟩
    rw [gridOf, teamsKilled_grids, abandoned.only.grids]
    exact hg
  · have ht : teamOf (teamsKilled (teamsOf s ctx gid) (barrierAbandoned (teamsOf s ctx gid) s)) x ts = some t := ht
    have names := (teamsKilled_teams (teamsOf s ctx gid) (barrierAbandoned (teamsOf s ctx gid) s) x ts).trans (abandoned.teams x ts)
    rw [ht, Option.map_some] at names
    obtain ⟨t0, ht0, same⟩ := Option.map_eq_some_iff.1 names.symm
    obtain ⟨sameCtx, sameGid⟩ := Prod.mk.inj same
    exact teamsKilled_kills (mem_teamsOf ht0 (sameCtx.trans hctx) (sameGid.trans hgid)) _ t ht
  · refine teamsKilled_stops going attached ?_ (mem_teamsOf ht hctx hgid) mine
    rw [opOf, abandoned.ops]
    exact ho

end Sys2Proof.Machine
end

section
/-! Clusters that are fenced and reinstated (R264, R288). -/

namespace Sys2Proof.Machine

/-! Tokens read back. -/

theorem tokenAt_setToken (s : State) (d i : Nat) (t : Token) : tokenAt (setToken s d i t) d i = some t := by
  unfold tokenAt setToken updDie dieOf
  by_cases hd : d = 0 <;> simp [hd]

theorem tokenAt_setToken_other (s : State) {d i d' i' : Nat} (t : Token) (h : ¬ ((d = 0 ↔ d' = 0) ∧ i = i')) :
    tokenAt (setToken s d' i' t) d i = tokenAt s d i := by
  unfold tokenAt setToken updDie dieOf
  by_cases hd : d = 0 <;> by_cases hd' : d' = 0
  · have other : i ≠ i' := fun e => h ⟨by simp [hd, hd'], e⟩
    simp [hd, hd', look_put_other _ other]
  · simp [hd, hd']
  · simp [hd, hd']
  · have other : i ≠ i' := fun e => h ⟨by simp [hd, hd'], e⟩
    simp [hd, hd', look_put_other _ other]

theorem tokenAt_die (s : State) {d d' : Nat} (h : d = 0 ↔ d' = 0) (i : Nat) : tokenAt s d i = tokenAt s d' i := by
  unfold tokenAt dieOf
  by_cases hd : d = 0
  · simp [hd, h.1 hd]
  · simp [hd, mt h.2 hd]

/-- Every token stands in the list of all, on its die. -/
theorem mem_allTokens {s : State} {d i : Nat} {k : Token} (h : tokenAt s d i = some k) : ∃ d', (d = 0 ↔ d' = 0) ∧ (d', i, k) ∈ allTokens s := by
  unfold tokenAt at h
  split at h
  · next t hk =>
    cases h
    have entry := look_mem hk
    by_cases hd : d = 0
    · refine ⟨0, by simp [hd], List.mem_append_left _ (List.mem_filterMap.2 ⟨(i, .token k), ?_, rfl⟩)⟩
      simpa [dieOf, hd] using entry
    · refine ⟨1, by simp [hd], List.mem_append_right _ (List.mem_filterMap.2 ⟨(i, .token k), ?_, rfl⟩)⟩
      simpa [dieOf, hd] using entry
  · cases h

/-! Tokens that become ORPHAN. -/

/-- The token at the place is ORPHAN. -/
def OrphanAt (d i : Nat) (s : State) : Prop := ∃ k, tokenAt s d i = some k ∧ k.state = .orphan

theorem orphanToken_tokens (s : State) (d i : Nat) (t : Token) (cause cl dev d' i' : Nat) :
    tokenAt (orphanToken s d i t cause cl dev) d' i' = tokenAt (setToken s d i { t with state := .orphan }) d' i' := rfl

theorem orphanToken_orphans (s : State) {d d' : Nat} (h : d = 0 ↔ d' = 0) (i : Nat) (t : Token) (cause cl dev : Nat) :
    OrphanAt d i (orphanToken s d' i t cause cl dev) := by
  refine ⟨{ t with state := .orphan }, ?_, rfl⟩
  rw [tokenAt_die _ h, orphanToken_tokens, tokenAt_setToken]

theorem orphanToken_keeps {d i : Nat} {s : State} (h : OrphanAt d i s) (d' i' : Nat) (t : Token) (cause cl dev : Nat) :
    OrphanAt d i (orphanToken s d' i' t cause cl dev) := by
  by_cases place : (d = 0 ↔ d' = 0) ∧ i = i'
  · obtain ⟨die, rfl⟩ := place
    exact orphanToken_orphans s die i t cause cl dev
  · obtain ⟨k, hk, orphan⟩ := h
    exact ⟨k, by rw [orphanToken_tokens, tokenAt_setToken_other s _ place, hk], orphan⟩

theorem orphanWhere_orphans {s : State} {p : W64 → Bool} {d i : Nat} {k : Token} (hk : tokenAt s d i = some k) (good : isBad k = false)
    (owner : p k.owner = true) (q : Token → Bool) (cause cl dev : Nat) : OrphanAt d i (orphanWhere s p q cause cl dev) := by
  obtain ⟨d', die, all⟩ := mem_allTokens hk
  have mine : (d', i, k) ∈ (allTokens s).filter (fun e => !isBad e.2.2 && (p e.2.2.owner || q e.2.2
      || (sharesOf s e.1 e.2.1).any (fun h => p h.2.holder))) := List.mem_filter.2 ⟨all, by simp [good, owner]⟩
  obtain ⟨before, after, split⟩ := List.append_of_mem mine
  rw [orphanWhere, split, List.foldl_append, List.foldl_cons]
  exact foldl_keeps (P := OrphanAt d i) (fun u e hu => orphanToken_keeps hu _ _ _ _ _ _) after _ (orphanToken_orphans _ die i k cause cl dev)

theorem orphanToken_clusters (s : State) (d i : Nat) (t : Token) (cause cl dev : Nat) : (orphanToken s d i t cause cl dev).clusters = s.clusters :=
  updDie_clusters s d _

theorem orphanWhere_clusters (s : State) (p : W64 → Bool) (q : Token → Bool) (cause cl dev : Nat) :
    (orphanWhere s p q cause cl dev).clusters = s.clusters :=
  foldl_keeps (P := fun u : State => u.clusters = s.clusters) (fun u _ h => (orphanToken_clusters u _ _ _ _ _ _).trans h) _ s rfl

theorem orphanWhere_outside (s : State) (p : W64 → Bool) (q : Token → Bool) (cause cl dev : Nat) : Outside s (orphanWhere s p q cause cl dev) :=
  Outside.foldl (fun u _ => orphanToken_outside u _ _ _ _ _ _) s

/-- The operation has halted with the code. -/
def HaltedBy (n code : Nat) (s : State) : Prop := ∃ o, opOf s n = some o ∧ o.halt = code

/-- A halt code stands: a token that becomes ORPHAN halts only what runs. -/
theorem orphanToken_halted {n code : Nat} {s : State} (h : HaltedBy n code s) (nonzero : code ≠ 0) (d i : Nat) (t : Token) (cause cl dev : Nat) :
    HaltedBy n code (orphanToken s d i t cause cl dev) := by
  obtain ⟨o, ho, rfl⟩ := h
  have ops : (setToken s d i { t with state := .orphan }).ops = s.ops := updDie_ops s d _
  unfold orphanToken HaltedBy opOf
  dsimp only [emit]
  rw [look_map (fun e => by split <;> rfl), ops, show look s.ops n = some o from ho, Option.map_some]
  refine ⟨_, rfl, ?_⟩
  simp only [nonzero, if_false]
  split <;> rfl

theorem orphanWhere_halted {n code : Nat} {s : State} (h : HaltedBy n code s) (nonzero : code ≠ 0) (p : W64 → Bool) (q : Token → Bool)
    (cause cl dev : Nat) : HaltedBy n code (orphanWhere s p q cause cl dev) :=
  foldl_keeps (P := HaltedBy n code) (fun _ _ hu => orphanToken_halted hu nonzero _ _ _ _ _ _) _ s h

/-! Grids that are killed. -/

/-- The grid is there, and killed if `k` asks it. -/
def GridStands (ctx gid : Nat) (k : Bool) (s : State) : Prop := ∃ g, gridOf s ctx gid = some g ∧ (k = true → g.killed = true)

theorem killTree_keeps {ctx gid : Nat} {k : Bool} {s : State} (h : GridStands ctx gid k s) (c d : Nat) : GridStands ctx gid k (killTree s c d) := by
  obtain ⟨g, hg, killed⟩ := h
  exact ⟨_, gridOf_killTree hg c d, fun hk => by simp [killed hk]⟩

theorem killTree_kills {ctx gid : Nat} {k : Bool} {s : State} (h : GridStands ctx gid k s) : GridStands ctx gid true (killTree s ctx gid) := by
  obtain ⟨g, hg, -⟩ := h
  obtain ⟨hctx, hgid⟩ := gridOf_ctx hg
  exact ⟨_, gridOf_killTree hg ctx gid, fun _ => by simp [descends, hctx, hgid]⟩

/-- The grids of a cluster's teams are killed. -/
def gridsKilled (l : List (Nat × Team)) (s : State) : State := l.foldl (fun s t => killTree s t.2.ctx t.2.gid) s

theorem gridsKilled_kills {ts : Nat} {t : Team} {l : List (Nat × Team)} (hl : (ts, t) ∈ l) {s : State} (h : GridStands t.ctx t.gid false s) :
    GridStands t.ctx t.gid true (gridsKilled l s) := by
  obtain ⟨before, after, rfl⟩ := List.append_of_mem hl
  rw [gridsKilled, List.foldl_append, List.foldl_cons]
  have stands := foldl_keeps (P := GridStands t.ctx t.gid false) (fun u (e : Nat × Team) hu => killTree_keeps hu e.2.ctx e.2.gid) before s h
  exact foldl_keeps (P := GridStands t.ctx t.gid true) (fun u (e : Nat × Team) hu => killTree_keeps hu e.2.ctx e.2.gid) after _ (killTree_kills stands)

/-- Beside the grids a kill changes nothing. -/
theorem gridsKilled_only : ∀ (l : List (Nat × Team)) (s : State), { gridsKilled l s with grids := s.grids } = s
  | [], _ => rfl
  | t :: l, s => by
    have rest := congrArg (fun u : State => { u with grids := s.grids }) (gridsKilled_only l (killTree s t.2.ctx t.2.gid))
    exact rest

/-! CLUSTER_FENCE. -/

/-- The cluster's L1 is lost, and the ATTACHED operations of its teams abort. -/
def clusterLost (s : State) (x : Nat) : State :=
  { updCluster s x (fun c => { c with fenced := true, l1 := [] }) with ops := s.ops.map (fun o =>
      if o.2.crew.cl == x && !o.2.orphaned && !o.2.detached && o.2.halt == 0 then (o.1, { o.2 with halt := 0x36 }) else o) }

/-- The holders that a cluster's teams and crews are. -/
def clusterIds (s : State) (x : Nat) : List W64 := (clusterOf s x).teams.flatMap (fun t => teamIds x t.1 t.2)

/-- The cluster is lost, and its teams' tokens are ORPHAN. -/
def clusterOrphaned (s : State) (x : Nat) : State := orphanWhere (clusterLost s x) (fun h => (clusterIds s x).contains h) (fun _ => false) 1 x 0

theorem exec_clusterFence {s : State} {x : Nat} (hx : x < 192) (stands : (clusterOf s x).fenced = false) :
    exec (.clusterFence x) s = .next (emit (gridsKilled (clusterOf s x).teams (clusterOrphaned s x)) (.clusterFenced x)) := by
  have runs : (decide (192 ≤ x) || (clusterOf s x).fenced) = false := by simp [hx, stands]
  show execClusterFence x s = _
  unfold execClusterFence
  rw [runs]
  rfl

theorem clusterLost_halts {s : State} {x n : Nat} {o : EngOp} (ho : opOf s n = some o) (here : o.crew.cl = x) (own : o.orphaned = false)
    (attached : o.detached = false) (runs : o.halt = 0) : HaltedBy n 0x36 (clusterLost s x) := by
  refine ⟨{ o with halt := 0x36 }, ?_, rfl⟩
  unfold opOf clusterLost
  rw [look_map (fun e => by split <;> rfl), show look s.ops n = some o from ho, Option.map_some]
  simp [here, own, attached, runs]

/-- The fencing keeps the grids until it kills them. -/
theorem gridOf_clusterOrphaned (s : State) (x ctx gid : Nat) : gridOf (clusterOrphaned s x) ctx gid = gridOf s ctx gid := by
  rw [clusterOrphaned, (orphanWhere_outside _ _ _ _ _ _).gridOf_eq]
  rfl

theorem clusterFence {s : State} {x : Nat} (hx : x < 192) (stands : (clusterOf s x).fenced = false) :
    ∃ u, exec (.clusterFence x) s = .next u ∧ (clusterOf u x).fenced = true ∧ (clusterOf u x).l1 = []
      ∧ (∀ n o, opOf s n = some o → o.crew.cl = x → o.orphaned = false → o.detached = false → o.halt = 0 →
          ∃ o', opOf u n = some o' ∧ o'.halt = 0x36)
      ∧ (∀ ts t d i k, teamOf s x ts = some t → tokenAt s d i = some k → k.owner ∈ teamIds x ts t → isBad k = false →
          ∃ k', tokenAt u d i = some k' ∧ k'.state = .orphan)
      ∧ (∀ ts t g, teamOf s x ts = some t → gridOf s t.ctx t.gid = some g → ∃ g', gridOf u t.ctx t.gid = some g' ∧ g'.killed = true) := by
  have beside := gridsKilled_only (clusterOf s x).teams (clusterOrphaned s x)
  have clusters : (gridsKilled (clusterOf s x).teams (clusterOrphaned s x)).clusters = (clusterLost s x).clusters := by
    have same := congrArg State.clusters beside
    exact same.trans (orphanWhere_clusters _ _ _ _ _ _)
  have cluster : clusterOf (gridsKilled (clusterOf s x).teams (clusterOrphaned s x)) x = { clusterOf s x with fenced := true, l1 := [] } := by
    rw [clusterOf, clusters]
    exact clusterOf_updCluster s x (fun c => { c with fenced := true, l1 := [] })
  refine ⟨_, exec_clusterFence hx stands, congrArg Cluster.fenced cluster, congrArg Cluster.l1 cluster, fun n o ho here own attached runs => ?_,
    fun ts t d i k ht hk owner good => ?_, fun ts t g ht hg => ?_⟩
  · have ops : (gridsKilled (clusterOf s x).teams (clusterOrphaned s x)).ops = (clusterOrphaned s x).ops := by
      have same := congrArg State.ops beside
      exact same
    obtain ⟨o', ho', halt⟩ := orphanWhere_halted (clusterLost_halts ho here own attached runs) (by decide) (fun h => (clusterIds s x).contains h)
      (fun _ => false) 1 x 0
    exact ⟨o', (congrArg (look · n) ops).trans ho', halt⟩
  · have mine : (clusterIds s x).contains k.owner = true :=
      List.contains_iff_mem.2 (List.mem_flatMap.2 ⟨(ts, t), look_mem ht, owner⟩)
    have token : tokenAt (clusterLost s x) d i = some k := hk
    obtain ⟨k', hk', orphan⟩ := orphanWhere_orphans (p := fun h => (clusterIds s x).contains h) token good mine (fun _ => false) 1 x 0
    refine ⟨k', ?_, orphan⟩
    have same := congrArg (fun u => tokenAt u d i) beside
    exact same.trans hk'
  · obtain ⟨g', hg', killed⟩ := gridsKilled_kills (look_mem ht) (s := clusterOrphaned s x)
      ⟨g, (gridOf_clusterOrphaned s x _ _).trans hg, fun h => by cases h⟩
    exact ⟨g', hg', killed rfl⟩

theorem clusterReinstate {x : Nat} (s : State) (hx : x < 192) :
    exec (.clusterReinstate x) s = .next (placeAll (updCluster s x (fun c => { c with fenced := false })) 6144) := by
  show execClusterReinstate x s = _
  exact if_neg (Nat.not_le.2 hx)

/-- Settles O52: one lemma for each of the ways in which teams, grids and clusters leave. -/
theorem teamsAndGridsLeave : Obligations.TeamsAndGridsLeave := by
  unfold Obligations.TeamsAndGridsLeave
  exact ⟨fun s x ts t ht due => bankRelease ht due, fun s x ts t g ht due hg => teamExit ht due hg, fun s ctx gid g hg done acked => gridRetire hg done acked,
    fun s ctx gid g hg killed => gridKill hg killed, fun s x hx stands => clusterFence hx stands, fun s x hx => clusterReinstate s hx⟩

end Sys2Proof.Machine
end
